-- ==== Sys2Proof/Word.lean ====
section
/-! DEFINITION. The word type and the register-number types. -/

namespace Sys2Proof

/-- A 64-bit instruction word, scalar register, predicate or address (00_scope R1, R7). -/
abbrev Word := BitVec 64

/-- A byte of memory. -/
abbrev Byte := BitVec 8

/-- A 32-bit lane or cell. -/
abbrev Lane := BitVec 32

/-- A scalar register number s0-s63 (00_scope R7). -/
abbrev SReg := BitVec 6

/-- A predicate register number p0-p63. -/
abbrev PReg := BitVec 6

/-- A vector register number v0-v31: a field of 32-63 is refused at fetch (02 R45). -/
abbrev VReg := BitVec 5


end Sys2Proof
end

