-- ==== Sys2Proof/Syntax.lean ====
section
/-! DEFINITION. The instructions: one constructor of `Instr` per row of spec/opcode_table.json, in the table's order. -/

namespace Sys2Proof

/-- The fields every instruction word begins with, but for the opcode (02 R40). -/
structure Hdr where
  role : BitVec 5
  g    : PReg
  gn   : Bool
  deriving DecidableEq, Repr

/-- A scope as sc codes it (02 R48). -/
inductive Scope where | package | core | cluster | die | domain
  deriving DecidableEq, Repr

/-- Access sizes of LDS, LDG, QLD and FXR (12 R278): bytes, zero- or sign-extended. -/
inductive LdSize where | b8 | b1 | b2 | b4 | s1 | s2 | s4
  deriving DecidableEq, Repr

/-- Access sizes of STS, STG and FXW (12 R278). -/
inductive StSize where | b8 | b1 | b2 | b4
  deriving DecidableEq, Repr

/-- Access sizes of QST (12 R278): `mask` is 8 bytes under a byte mask. -/
inductive QstSize where | b8 | b1 | b2 | b4 | mask
  deriving DecidableEq, Repr

/-- Sizes of the atomics (12 R278). -/
inductive AmoSize where | b8 | b4
  deriving DecidableEq, Repr

/-- Element sizes of the vector accesses, global or scratchpad (12 R278). -/
inductive VecSize where | b1 | b2 | b4 | sp1 | sp2 | sp4
  deriving DecidableEq, Repr

/-- What CLEAN and INVAL cover (12 R278). -/
inductive MaintSize where | line | page
  deriving DecidableEq, Repr

/-- A rounding mode (07 R158). -/
inductive RMode where | rne | rtz | rdn | rup | rna | sr
  deriving DecidableEq, Repr

/-- The type of a scalar floating-point operand (08 R174). -/
inductive FType where | fp64 | fp32 | fp16 | bf16
  deriving DecidableEq, Repr

/-- The type of a float lane (08 R185). -/
inductive LType where | fp32 | fp16 | bf16
  deriving DecidableEq, Repr

/-- The integer types of FCVTI and ICVTF (08 R174). -/
inductive IType where | i64 | u64 | i32 | u32
  deriving DecidableEq, Repr

/-- The conditions of CMP (06 R143). -/
inductive Cc where | eq | ne | lt | ge | ltu | geu | gt | le | gtu | leu | tst | ntst
  deriving DecidableEq, Repr

/-- The conditions of FCMP (08 R178). -/
inductive FCc where | eq | ne | lt | le | gt | ge | un | or
  deriving DecidableEq, Repr

/-- Where a compare writes: a predicate (sd = 0) or a scalar (sd = 1) (06 R143). -/
inductive CmpDst where | p (d : PReg) | s (d : SReg)
  deriving DecidableEq, Repr

/-- The operations of FSGN (08 R181). -/
inductive SgnOp where | cpy (b : SReg) | ncpy (b : SReg) | xor (b : SReg) | abs | neg
  deriving DecidableEq, Repr

/-- The operations of FRAND (08 R183). -/
inductive RandOp where | unif (ty : FType) | raw
  deriving DecidableEq, Repr

/-- The b operand of a vector word: a vector, or a scalar in every lane (08 R185). -/
inductive VOpB where | v (b : VReg) | s (b : SReg)
  deriving DecidableEq, Repr

/-- The comparison of VCMP (08 R190). -/
inductive VCmpOp where | int (cc : Cc) | flt (cc : FCc) (lt : LType)
  deriving DecidableEq, Repr

/-- The element formats 0-9 (07 R153). -/
inductive Fmt where | fp32 | fp16 | bf16 | e4m3 | e5m2 | e3m2 | e2m3 | e2m1 | int8 | int4
  deriving DecidableEq, Repr

/-- One side of VCVT: a format, or a 32-bit integer lane (08 R191). -/
inductive CvtSide where | fmt (f : Fmt) | i32
  deriving DecidableEq, Repr

/-- The operations of VRED (08 R192). -/
inductive RedOp where | iadd | fadd (lt : LType) | fmax (lt : LType) | fmin (lt : LType) | smax | smin | umax | umin
  deriving DecidableEq, Repr

/-- The sizes of the block Hadamard transform (07 R169). -/
inductive HadN where | n16 | n32 | n64
  deriving DecidableEq, Repr

/-- The slice of a tile word (02 R50, R51). -/
inductive Slice where | whole | row (xs : SReg) (ximm : BitVec 7) | col (xs : SReg) (ximm : BitVec 7)
  deriving DecidableEq, Repr

/-- The integer operations of SAMO, GAMO and FXAMO (12 R296). -/
inductive AmoOp where | swap | cas | add | and | or | xor | smin | smax | umin | umax
  deriving DecidableEq, Repr

/-- The float operations of SAMOF and GAMOF (12 R296). -/
inductive FAmoOp where | fadd | fmin | fmax
  deriving DecidableEq, Repr

/-- The modes of BAR; the modes that arrive read a participant mask (17 R358). -/
inductive BarMode where | aw (a : SReg) | arr (a : SReg) | wait
  deriving DecidableEq, Repr

/-- The CSRs (05 R134). -/
inductive Csr where
  | fpctl | srstate | roleinfo | teamid | gridsz | argp | beat | drift | latgen | carbase | cardepth
  | utrapvec | utrapmask | strapvec | mode | tframe | asid | ptbase
  deriving DecidableEq, Repr

/-- The package system registers (11 R266). -/
inductive SysReg where
  | pkgid | qtbase | ctxbase | errbase | evac | hmask (n : BitVec 3) | keylive | pwrcap | pwrst
  deriving DecidableEq, Repr

/-- The reductions of COLL (21 R402). -/
inductive CollRed where | fadd | fmax | iadd
  deriving DecidableEq, Repr

/-- The operation of COLL (21 R402). -/
inductive CollOp where | allReduce (red : CollRed) | reduceScatter (red : CollRed) | allGather
  deriving DecidableEq, Repr

/-- What the firmware's allocator has found for a LOAD: a virtual address for each section of the section table (used for the
mapped ones), a virtual address for the archive of each codebook block that gets a cbid, free 64 KiB frames, free 8 KiB page
tables, the key slot of the pages, and the handle that it will return (01 R14: "a virtual address that it chooses"). -/
structure LoadPlan where
  secVa  : List Nat
  archVa : List Nat
  frames : List Nat
  tables : List Nat
  key    : BitVec 6
  handle : BitVec 32
  deriving DecidableEq, Repr

/-- A fabric group as the firmware writes it: n members, this package's rank, and each member's pkgid and ASID (21 R398). -/
structure FabricGroup where
  valid   : Bool
  n       : Nat
  rank    : Nat
  members : List (Nat × Nat)
  deriving DecidableEq, Repr

/-- The access a remote request asks for (21 R400). -/
inductive RemoteOp where
  | read (n : Nat) | write (bytes : List Byte) | atomic (op : AmoOp) (size : AmoSize) (x y : Word) | signal (x : Word)
  deriving DecidableEq, Repr

/-- A request arriving from another package (21 R400). -/
structure RemoteReq where
  asid : Nat
  va   : Word
  op   : RemoteOp
  deriving DecidableEq, Repr

/-- What a remote package answers to a queued request: its data, or the cause that failed it (21 R400, R401). -/
inductive RemoteAns where | data (w : Word) | fail (cause : Nat) (aux : Word)
  deriving DecidableEq, Repr

/-- A change of the spare map (22 R421, R422): a cluster's or a slice's physical unit, a cluster's in-service mask, or
repairs in use. -/
inductive SpareChange where
  | cluster (idx phys : Nat) | slice (idx phys : Nat) | service (idx : Nat) (mask : BitVec 4)
  | ways (stack : Nat) (bits : BitVec 16) | rows (stack : Nat) (count : Word) | lanes (link : Nat) (bits : Word)
  deriving DecidableEq, Repr

/-- What the outside of the modelled step chooses for an event: which queue, strand or command it happens to, and what data
came with it. A strand is named by the number 4 x core + kind, a core by 48 x die + 4 x cluster + place, a cluster by
12 x die + cluster; a team, a launch and an operation by the number the model gave it. `ring` is the host message ring that the firmware
places (21 R396). -/
inductive EvArg where
  | none
  | load (asid : BitVec 6) (file : List Byte) (plan : LoadPlan)
  | unload (asid : BitVec 6) (handle : BitVec 32)
  | hostWrite (pa : Nat) (bytes : List Byte)
  | queue (q : BitVec 6)
  | launch (id : Nat)
  | team (id : Nat)
  | fill (cluster pa : Nat)
  | strand (sid : Nat)
  | core (core : Nat)
  | version (core : Nat) (cbid : BitVec 12) (stamp : Byte)
  | copyQueue (core : Nat) (st : Bool)
  | tag (sid : Nat) (tag : BitVec 3) (ans : RemoteAns)
  | result (sid op : Nat)
  | kill (asid : BitVec 6)
  | sync (seq : Word)
  | remote (req : RemoteReq)
  | collSlot (team : Nat) (group : BitVec 6) (slot : BitVec 3) (ordinal : Nat) (reason : Byte) (peers : List (List Byte))
  | power (watts : BitVec 16) (gates : List (BitVec 4))
  | spare (c : SpareChange)
  | group (asid : BitVec 6) (group : BitVec 6) (grp : FabricGroup)
  | ring (pa log2 : Nat)
  deriving DecidableEq, Repr

/-- One constructor per row of spec/opcode_table.json: the instruction words in the table's order, then HAND_POP and the
events in the table's order. The arguments of an event stand in `State.ev` (an `EvArg`). -/
inductive Instr where
  -- control flow, prefix, hand-overs (05)
  | nop (h : Hdr)
  | halt (h : Hdr)
  | br (h : Hdr) (slot : BitVec 3) (boff : BitVec 20)
  | jmp (h : Hdr) (a : SReg) (slot : BitVec 3) (boff : BitVec 20)
  | call (h : Hdr) (d : SReg) (slot : BitVec 3) (boff : BitVec 20)
  | callr (h : Hdr) (d a : SReg)
  | ret (h : Hdr) (a : SReg)
  | loop (h : Hdr) (d a : SReg) (slot : BitVec 3) (boff : BitVec 20)
  | rep (h : Hdr) (count : BitVec 6) (id ia ib ic : BitVec 3)
  | hand (h : Hdr) (frm tgt : BitVec 4) (n : BitVec 4)
  | htest (h : Hdr) (d : PReg) (frm tgt : BitVec 4)
  | bar (h : Hdr) (d : SReg) (mode : BarMode) (ring : Byte) (off : BitVec 4)
  | barb (h : Hdr) (k : BitVec 4)
  | marm (h : Hdr) (a b : SReg) (sc : Scope) (off : BitVec 20)
  | mwait (h : Hdr) (d : SReg) (tgt : Option SReg)
  | wakeat (h : Hdr) (a : SReg)
  | time (h : Hdr) (d : SReg)
  | cycle (h : Hdr) (d : SReg)
  | csrr (h : Hdr) (d : SReg) (csr : Csr)
  | csrw (h : Hdr) (d a : SReg) (csr : Csr)
  | csrs (h : Hdr) (d a : SReg) (csr : Csr)
  | csrc (h : Hdr) (d a : SReg) (csr : Csr)
  | trap (h : Hdr) (a : SReg) (code : BitVec 16)
  | sysc (h : Hdr) (a : SReg) (code : BitVec 16)
  | rft (h : Hdr)
  | fence (h : Hdr) (acq rel : Bool) (sc : Scope)
  | yield (h : Hdr) (a : SReg)
  | moncfg (h : Hdr) (d a b : SReg)
  | monrd (h : Hdr) (d a b : SReg)
  | tlbinvPage (h : Hdr) (d a b : SReg)
  | tlbinvAsid (h : Hdr) (d a b : SReg)
  | tlbinvAll (h : Hdr) (d a b : SReg)
  | pteamoInc (h : Hdr) (d a b : SReg) (sc : Scope) (off : BitVec 16)
  | pteamoDec (h : Hdr) (d a b : SReg) (sc : Scope) (off : BitVec 16)
  | pteamoCas (h : Hdr) (d a b : SReg) (sc : Scope) (off : BitVec 16)
  | pteamoOr (h : Hdr) (d a b : SReg) (sc : Scope) (off : BitVec 16)
  | pteamoAndn (h : Hdr) (d a b : SReg) (sc : Scope) (off : BitVec 16)
  | launch (h : Hdr) (d : SReg) (x : BitVec 3) (q : BitVec 6)
  -- integer, register forms (06)
  | add (h : Hdr) (d a b : SReg)
  | sub (h : Hdr) (d a b : SReg)
  | mul (h : Hdr) (d a b : SReg)
  | mulh (h : Hdr) (d a b : SReg)
  | mulhu (h : Hdr) (d a b : SReg)
  | div (h : Hdr) (d a b : SReg)
  | divu (h : Hdr) (d a b : SReg)
  | rem (h : Hdr) (d a b : SReg)
  | remu (h : Hdr) (d a b : SReg)
  | and (h : Hdr) (d a b : SReg)
  | or (h : Hdr) (d a b : SReg)
  | xor (h : Hdr) (d a b : SReg)
  | andn (h : Hdr) (d a b : SReg)
  | shl (h : Hdr) (d a b : SReg)
  | shr (h : Hdr) (d a b : SReg)
  | sar (h : Hdr) (d a b : SReg)
  | rol (h : Hdr) (d a b : SReg)
  | min (h : Hdr) (d a b : SReg)
  | max (h : Hdr) (d a b : SReg)
  | minu (h : Hdr) (d a b : SReg)
  | maxu (h : Hdr) (d a b : SReg)
  | clz (h : Hdr) (d a : SReg)
  | ctz (h : Hdr) (d a : SReg)
  | popc (h : Hdr) (d a : SReg)
  | bfx (h : Hdr) (d a : SReg) (sx : Bool) (wid lsb : BitVec 6)
  | bfi (h : Hdr) (d a b : SReg) (wid lsb : BitVec 6)
  | sel (h : Hdr) (d a b : SReg) (c : PReg)
  | cmp (h : Hdr) (d : CmpDst) (a b : SReg) (cc : Cc)
  | addw (h : Hdr) (d a b : SReg)
  | subw (h : Hdr) (d a b : SReg)
  | mulw (h : Hdr) (d a b : SReg)
  | bswap (h : Hdr) (d a : SReg)
  -- integer, immediate forms (06)
  | addi (h : Hdr) (d a : SReg) (imm : BitVec 32)
  | andi (h : Hdr) (d a : SReg) (imm : BitVec 32)
  | ori (h : Hdr) (d a : SReg) (imm : BitVec 32)
  | xori (h : Hdr) (d a : SReg) (imm : BitVec 32)
  | shli (h : Hdr) (d a : SReg) (n : BitVec 6)
  | shri (h : Hdr) (d a : SReg) (n : BitVec 6)
  | sari (h : Hdr) (d a : SReg) (n : BitVec 6)
  | roli (h : Hdr) (d a : SReg) (n : BitVec 6)
  | movi (h : Hdr) (d : SReg) (imm : BitVec 32)
  | movhi (h : Hdr) (d a : SReg) (imm : BitVec 32)
  | cmpi (h : Hdr) (d : CmpDst) (a : SReg) (cc : Cc) (val : BitVec 27)
  | muli (h : Hdr) (d a : SReg) (imm : BitVec 32)
  | mini (h : Hdr) (d a : SReg) (imm : BitVec 32)
  | maxi (h : Hdr) (d a : SReg) (imm : BitVec 32)
  | addpc (h : Hdr) (d : SReg) (imm : BitVec 32)
  -- predicates (06)
  | pset (h : Hdr) (d : PReg) (n : BitVec 7)
  | pand (h : Hdr) (d a b : PReg)
  | por (h : Hdr) (d a b : PReg)
  | pxor (h : Hdr) (d a b : PReg)
  | pandn (h : Hdr) (d a b : PReg)
  | pfrom (h : Hdr) (d : PReg) (a : SReg)
  | pto (h : Hdr) (d : SReg) (a : PReg)
  | pany (h : Hdr) (d a b : PReg)
  | pall (h : Hdr) (d a b : PReg)
  | pcnt (h : Hdr) (d : SReg) (a b : PReg)
  | pfirst (h : Hdr) (d a b : PReg)
  | planes (h : Hdr) (d : PReg) (a b : SReg)
  -- scalar floating point (08)
  | fadd (h : Hdr) (ty : FType) (d a b : SReg)
  | fsub (h : Hdr) (ty : FType) (d a b : SReg)
  | fmul (h : Hdr) (ty : FType) (d a b : SReg)
  | fma (h : Hdr) (ty : FType) (d a b c : SReg)
  | fms (h : Hdr) (ty : FType) (d a b c : SReg)
  | fnma (h : Hdr) (ty : FType) (d a b c : SReg)
  | fdiv (h : Hdr) (ty : FType) (d a b : SReg)
  | fsqrt (h : Hdr) (ty : FType) (d a : SReg)
  | fmin (h : Hdr) (ty : FType) (d a b : SReg)
  | fmax (h : Hdr) (ty : FType) (d a b : SReg)
  | fminm (h : Hdr) (ty : FType) (d a b : SReg)
  | fmaxm (h : Hdr) (ty : FType) (d a b : SReg)
  | fcmp (h : Hdr) (ty : FType) (d : CmpDst) (a b : SReg) (cc : FCc)
  | fclass (h : Hdr) (ty : FType) (d a : SReg)
  | fcvt (h : Hdr) (ty ty2 : FType) (rm : Option RMode) (d a : SReg)
  | fcvti (h : Hdr) (ty : FType) (ity : IType) (rm : Option RMode) (d a : SReg)
  | icvtf (h : Hdr) (ty : FType) (ity : IType) (rm : Option RMode) (d a : SReg)
  | fsgn (h : Hdr) (ty : FType) (op : SgnOp) (d a : SReg)
  | frnd (h : Hdr) (ty : FType) (rm : Option RMode) (d a : SReg)
  | fscalb (h : Hdr) (ty : FType) (d a b : SReg)
  | fexp2 (h : Hdr) (ty : FType) (d a : SReg)
  | flog2 (h : Hdr) (ty : FType) (d a : SReg)
  | frcp (h : Hdr) (ty : FType) (d a : SReg)
  | frsq (h : Hdr) (ty : FType) (d a : SReg)
  | frand (h : Hdr) (op : RandOp) (d : SReg)
  -- memory access (12)
  | lds (h : Hdr) (sz : LdSize) (sc : Scope) (d a b : SReg) (off : BitVec 20)
  | sts (h : Hdr) (sz : StSize) (sc : Scope) (d a b : SReg) (off : BitVec 20)
  | ldg (h : Hdr) (sz : LdSize) (sc : Scope) (d a b : SReg) (off : BitVec 20)
  | stg (h : Hdr) (sz : StSize) (sc : Scope) (d a b : SReg) (off : BitVec 20)
  | qld (h : Hdr) (sz : LdSize) (sc : Scope) (tag : BitVec 3) (d a : SReg) (off : BitVec 20)
  | qldp (h : Hdr) (sc : Scope) (tag : BitVec 3) (d a : SReg) (off : BitVec 20)
  | qst (h : Hdr) (sz : QstSize) (sc : Scope) (tag : BitVec 3) (d a : SReg) (off : BitVec 20)
  | qwait (h : Hdr) (tag : Option (BitVec 3))
  | qpop (h : Hdr) (d : SReg)
  | samo (h : Hdr) (op : AmoOp) (sz : AmoSize) (sc : Scope) (d a b : SReg) (off : BitVec 16)
  | samof (h : Hdr) (op : FAmoOp) (sz : AmoSize) (sc : Scope) (d a b : SReg) (off : BitVec 16)
  | gamo (h : Hdr) (op : AmoOp) (sz : AmoSize) (tag : BitVec 3) (d a b : SReg) (off : BitVec 16)
  | gamof (h : Hdr) (op : FAmoOp) (sz : AmoSize) (tag : BitVec 3) (d a b : SReg) (off : BitVec 16)
  | ldv (h : Hdr) (sz : VecSize) (sc : Scope) (d : VReg) (a b : SReg) (off : BitVec 20)
  | stv (h : Hdr) (sz : VecSize) (sc : Scope) (d : VReg) (a b : SReg) (off : BitVec 20)
  | vgath (h : Hdr) (sz : VecSize) (sc : Scope) (d : VReg) (a : SReg) (b : VReg) (off : BitVec 20)
  | vscat (h : Hdr) (sz : VecSize) (sc : Scope) (d : VReg) (a : SReg) (b : VReg) (off : BitVec 20)
  | clean (h : Hdr) (sz : MaintSize) (sc : Scope) (a b : SReg) (off : BitVec 20)
  | inval (h : Hdr) (sz : MaintSize) (sc : Scope) (a b : SReg) (off : BitVec 20)
  | pfetch (h : Hdr) (sc : Scope) (a b : SReg) (off : BitVec 20)
  -- tiles, windows, copies (13)
  | tld (h : Hdr) (x : BitVec 3) (nr : Option (BitVec 4)) (t : BitVec 3) (sc : Scope) (trow : BitVec 7) (tr : Bool) (n : BitVec 7)
  | tst (h : Hdr) (x : BitVec 3) (nr : Option (BitVec 4)) (t : BitVec 3) (sc : Scope) (trow : BitVec 7) (tr : Bool) (n : BitVec 7)
  | wopen (h : Hdr) (x w : BitVec 3) (sc : Scope)
  | wadv (h : Hdr) (a : SReg) (w : BitVec 3)
  | wclose (h : Hdr) (w : BitVec 3)
  | wrow (h : Hdr) (d a : SReg) (w : BitVec 3)
  | cpy (h : Hdr) (x : BitVec 3) (nr : Option (BitVec 4)) (sc : Scope) (out : Bool) (n : BitVec 13)
  | cpyz (h : Hdr) (x : BitVec 3) (nr : Option (BitVec 4)) (sc : Scope) (n : BitVec 13)
  | cpyst (h : Hdr) (d : SReg) (wait : Bool)
  -- vector (08)
  | vadd (h : Hdr) (d a : VReg) (b : VOpB)
  | vsub (h : Hdr) (d a : VReg) (b : VOpB)
  | vmul (h : Hdr) (d a : VReg) (b : VOpB)
  | vmulh (h : Hdr) (u : Bool) (d a : VReg) (b : VOpB)
  | vmin (h : Hdr) (u : Bool) (d a : VReg) (b : VOpB)
  | vmax (h : Hdr) (u : Bool) (d a : VReg) (b : VOpB)
  | vand (h : Hdr) (d a : VReg) (b : VOpB)
  | vor (h : Hdr) (d a : VReg) (b : VOpB)
  | vxor (h : Hdr) (d a : VReg) (b : VOpB)
  | vshl (h : Hdr) (d a : VReg) (b : VOpB)
  | vshr (h : Hdr) (d a : VReg) (b : VOpB)
  | vsar (h : Hdr) (d a : VReg) (b : VOpB)
  | vfadd (h : Hdr) (lt : LType) (d a : VReg) (b : VOpB)
  | vfsub (h : Hdr) (lt : LType) (d a : VReg) (b : VOpB)
  | vfmul (h : Hdr) (lt : LType) (d a : VReg) (b : VOpB)
  | vfma (h : Hdr) (lt : LType) (d a : VReg) (b : VOpB) (c : VReg)
  | vfmin (h : Hdr) (num : Bool) (lt : LType) (d a : VReg) (b : VOpB)
  | vfmax (h : Hdr) (num : Bool) (lt : LType) (d a : VReg) (b : VOpB)
  | vfdiv (h : Hdr) (lt : LType) (d a : VReg) (b : VOpB)
  | vfsqrt (h : Hdr) (lt : LType) (d a : VReg)
  | vfexp2 (h : Hdr) (lt : LType) (d a : VReg)
  | vfrcp (h : Hdr) (lt : LType) (d a : VReg)
  | vfrsq (h : Hdr) (lt : LType) (d a : VReg)
  | vcmp (h : Hdr) (op : VCmpOp) (d : PReg) (a : VReg) (b : VOpB)
  | vcvt (h : Hdr) (tgt frm : CvtSide) (sgn : Bool) (rm : Option RMode) (d a : VReg)
  | vred (h : Hdr) (op : RedOp) (d a : VReg)
  | vperm (h : Hdr) (wrap : Bool) (d a : VReg) (b : VOpB)
  | vsplat (h : Hdr) (d : VReg) (a : SReg)
  | vext (h : Hdr) (sx : Bool) (k : BitVec 6) (d : SReg) (a : VReg) (b : SReg)
  | vhad (h : Hdr) (n : HadN) (nrm : Bool) (lt : LType) (d a : VReg)
  | vsel (h : Hdr) (d a : VReg) (b : VOpB) (c : PReg)
  | viota (h : Hdr) (d : VReg) (a b : SReg)
  -- matrix engine (10)
  | tcfg (h : Hdr) (reg : SReg)
  | tzero (h : Hdr) (ta : BitVec 3) (sl : Slice) (tag : Option SReg)
  | tmovv (h : Hdr) (ta : BitVec 3) (sl : Slice) (reg : VReg) (wr hi tag : Bool)
  | tmovt (h : Hdr) (ta tb : BitVec 3)
  | tcopy (h : Hdr) (ta tb : BitVec 3) (sl : Slice)
  | tdec (h : Hdr) (ta tb : BitVec 3) (sl : Slice)
  | tenc (h : Hdr) (ta tb : BitVec 3) (sl : Slice) (reg : SReg) (sc : Bool)
  | mma (h : Hdr) (ta tb : BitVec 3) (acc : BitVec 2) (at' bt sov sa sb clr : Bool)
  | mpt (h : Hdr) (ta : BitVec 3) (reg : SReg) (kb : BitVec 7)
  | mga (h : Hdr) (ta : BitVec 3) (acc : BitVec 2) (clr : Bool)
  | mhad (h : Hdr) (ta tb : BitVec 3) (sl : Slice) (n : HadN) (nrm : Bool)
  | azero (h : Hdr) (acc : BitVec 2) (sl : Slice) (res : Bool)
  | amovv (h : Hdr) (acc : BitVec 2) (sl : Slice) (reg : VReg) (hi : Bool)
  | awrv (h : Hdr) (acc : BitVec 2) (sl : Slice) (reg : VReg) (hi add int : Bool)
  | acvt (h : Hdr) (ta : BitVec 3) (acc : BitVec 2) (sl : Slice) (reg : SReg) (tr res sc int : Bool)
  | ascl (h : Hdr) (acc : BitVec 2) (sl : Slice) (reg : SReg)
  | abmax (h : Hdr) (acc : BitVec 2) (sl : Slice) (reg : VReg) (int : Bool)
  | rzero (h : Hdr) (acc : BitVec 2) (sl : Slice)
  | rmovv (h : Hdr) (acc : BitVec 2) (sl : Slice) (reg : VReg) (wr hi : Bool)
  | mmode (h : Hdr) (rm : RMode) (ld : Option SReg)
  -- codebooks (09)
  | cbld (h : Hdr) (d a : SReg) (cbid : BitVec 12)
  | cbrev (h : Hdr) (d a : SReg) (cbid : BitVec 12)
  | cbfloor (h : Hdr) (d a : SReg) (cbid : BitVec 12)
  | cbenc (h : Hdr) (sc : Bool) (d a : VReg) (b : SReg)
  | cbdec (h : Hdr) (sc : Bool) (d a : VReg) (b : SReg)
  | cbstat (h : Hdr) (d a : SReg) (cbid : BitVec 12)
  | cbpin (h : Hdr) (d a : SReg) (cbid : BitVec 12)
  -- fabric, collectives, system (21, 11, 22)
  | coll (h : Hdr) (d : SReg) (x : BitVec 3) (nr : Option (BitVec 4)) (op : CollOp) (cmp : Bool) (slot : BitVec 3)
  | collst (h : Hdr) (d : SReg) (wait : Bool) (slot : BitVec 3)
  | collab (h : Hdr) (d : SReg) (slot : BitVec 3)
  | fxr (h : Hdr) (sz : LdSize) (tag : BitVec 3) (d a b : SReg) (off : BitVec 20)
  | fxw (h : Hdr) (sz : StSize) (tag : BitVec 3) (d a b : SReg) (off : BitVec 20)
  | fxamo (h : Hdr) (op : AmoOp) (sz : AmoSize) (tag : BitVec 3) (d a b : SReg) (off : BitVec 16)
  | fxsig (h : Hdr) (tag : BitVec 3) (d a b : SReg) (off : BitVec 20)
  | chainOpen (h : Hdr) (d a : SReg)
  | chainClose (h : Hdr) (d a : SReg)
  | chainQuery (h : Hdr) (d a : SReg)
  | demote (h : Hdr) (d a : SReg)
  | keyopGen (h : Hdr) (d a : SReg)
  | keyopDestroy (h : Hdr) (d a : SReg)
  | keyopQuery (h : Hdr) (d a : SReg)
  | sysr (h : Hdr) (d : SReg) (reg : SysReg)
  | syswHmask (h : Hdr) (d a : SReg) (n : BitVec 3)
  | sysw (h : Hdr) (d a : SReg) (reg : SysReg)
  | hostsig (h : Hdr) (d a b : SReg) (code : BitVec 15)
  | timeadjStep (h : Hdr) (d a : SReg)
  | timeadjRate (h : Hdr) (d a : SReg)
  | timeadjQuery (h : Hdr) (d a : SReg)
  | trace (h : Hdr) (d a b : SReg) (code : BitVec 16)
  | monsnap (h : Hdr) (d a b : SReg)
  | wdogArm (h : Hdr) (d a : SReg)
  | wdogOff (h : Hdr) (d a : SReg)
  | wdogQuery (h : Hdr) (d a : SReg)
  | sparemap (h : Hdr) (d a : SReg)
  | eccinj (h : Hdr) (d a b : SReg) (hold : BitVec 3) (dbl : Bool)
  | eccst (h : Hdr) (d a : SReg) (clr : Bool)
  -- the HAND word at its to role
  | handPop (h : Hdr) (frm tgt : BitVec 4) (n : BitVec 4)
  -- events
  | load | unload | hostWrite | queueMonitorWake | queueRescan | takeRecord | waitCounterRead | dispatch | placeTeam
  | quantumDecision | swapOut | swapIn | preempt | teamRetire | icFillComplete | blockEntry | freezeEnd
  | freezeTimeout | hangDetect | trapEntry | queuedReply | queuedTimeout | engineCommandStart | engineCommandComplete
  | versionMissComplete | versionMissTimeout | copyCommandStart | copyCommandComplete | copyTimeout | tileStoreCommit
  | freeFrameRelease | wakeatExpiry | yieldExpiry | mwaitTimeout | hostKillRequest | hostSyncRequest
  | hostMessagePost | remoteRequest | collectiveAbortFlit | collectiveComplete | powerControlTick | thermalLimit
  | wdogExpiry | reset | blockingResultArrival | collectiveFailure | spareMapChange | fabricGroupWrite
  deriving DecidableEq, Repr

end Sys2Proof
end

