-- ==== Sys2Proof/WellFormed.lean ====
section
/-! DEFINITION. Which terms of `Instr` an instruction word can hold: the checks of the manual that the types do not make. -/

namespace Sys2Proof

/-- A role code of the table of 02 R41: 0-19 or 31. -/
def Hdr.wf (h : Hdr) : Bool := h.role.toNat < 20 || h.role.toNat == 31

/-- A codebook id an immediate may hold: 10-15 are refused at fetch (09 R197). -/
def cbidOk (c : BitVec 12) : Bool := c.toNat < 10 || 16 ≤ c.toNat

/-- The register of a compare-and-swap pair must be even (12 R296, 18 R383). -/
def evenReg (r : SReg) : Bool := !r.getLsbD 0

/-- A slice that is the whole tile or a row (10 R233: sel 0 or 1). -/
def Slice.notCol : Slice → Bool
  | .col _ _ => false | _ => true

/-- A slice that is a row or a column (10 R233: sel 1 or 2). -/
def Slice.notWhole : Slice → Bool
  | .whole => false | _ => true

/-- May the register be written by SYSW (11 R266, R267)? -/
def SysReg.writable : SysReg → Bool
  | .pkgid | .keylive | .pwrst => false
  | _ => true

/-- May the CSR be named by CSRW, CSRS and CSRC (05 R132)? -/
def Csr.writable : Csr → Bool
  | .roleinfo | .teamid | .gridsz | .argp | .beat | .drift | .latgen | .mode | .asid | .ptbase => false
  | _ => true

/-- The checks on the fields of a word, but for its role code. -/
def Instr.fieldsOk : Instr → Bool
  | .jmp _ a slot _ => a ≠ 0 && slot ≠ 7
  | .call _ _ slot _ | .br _ slot _ | .loop _ _ _ slot _ => slot ≠ 7
  | .hand h frm tgt _ | .handPop h frm tgt _ => frm ≠ tgt && h.role.toNat == frm.toNat
  | .htest _ _ frm tgt => frm ≠ tgt
  | .fence _ acq rel _ => acq || rel
  | .pteamoCas _ _ _ b _ _ => evenReg b
  | .bfx _ _ _ _ wid lsb | .bfi _ _ _ _ wid lsb => lsb.toNat + wid.toNat + 1 ≤ 64
  | .pset _ _ n => n.toNat ≤ 64
  | .qldp _ _ _ d _ _ => evenReg d
  | .qst _ sz _ _ d _ _ => sz ≠ .mask || evenReg d
  | .samo _ op _ _ _ _ b _ => op ≠ .cas || evenReg b
  | .gamo _ op _ _ _ _ b _ => op ≠ .cas || evenReg b
  | .fxamo _ op _ _ d _ _ _ => op ≠ .cas || evenReg d
  | .pfetch _ sc _ _ _ => sc ≠ .domain
  | .tld _ _ _ _ _ trow _ n | .tst _ _ _ _ _ trow _ n =>
      trow.toNat + (if n = 0 then 128 else n.toNat) ≤ 128
  | .vcvt _ tgt frm sgn _ _ _ =>
      let int : CvtSide → Bool := fun | .i32 | .fmt .int8 | .fmt .int4 => true | _ => false
      !(tgt == .i32 && frm == .i32) && (!sgn || int tgt || int frm)
  | .tzero _ _ sl tag => tag.isNone || sl.notCol
  | .tmovv _ _ sl _ _ _ tag => match sl with | .whole => false | .row _ _ => true | .col _ _ => !tag
  | .tdec _ _ _ sl | .tenc _ _ _ sl _ _ | .mhad _ _ _ sl _ _ | .acvt _ _ _ sl _ _ _ _ _ => sl.notCol
  | .amovv _ _ sl _ _ | .awrv _ _ sl _ _ _ _ | .rmovv _ _ sl _ _ _ => sl.notWhole
  | .cbld _ _ _ c | .cbrev _ _ _ c | .cbfloor _ _ _ c | .cbstat _ _ _ c | .cbpin _ _ _ c => cbidOk c
  | .coll _ _ _ _ op cm _ => !cm || op == .allReduce .fadd || op == .reduceScatter .fadd
  | .csrw _ _ _ csr | .csrs _ _ _ csr | .csrc _ _ _ csr => csr.writable
  | .sysw _ _ _ reg => reg.writable && (match reg with | .hmask _ => false | _ => true)
  | .eccinj _ _ _ _ hold _ => hold.toNat < 3
  | _ => true

/-- The header of an instruction word; an event has none. -/
def Instr.hdr? : Instr → Option Hdr
  | .nop h | .halt h | .br h .. | .jmp h .. | .call h .. | .callr h .. | .ret h .. | .loop h .. | .rep h ..
  | .hand h .. | .htest h .. | .bar h .. | .barb h .. | .marm h .. | .mwait h .. | .wakeat h .. | .time h ..
  | .cycle h .. | .csrr h .. | .csrw h .. | .csrs h .. | .csrc h .. | .trap h .. | .sysc h .. | .rft h | .fence h ..
  | .yield h .. | .moncfg h .. | .monrd h .. | .tlbinvPage h .. | .tlbinvAsid h .. | .tlbinvAll h ..
  | .pteamoInc h .. | .pteamoDec h .. | .pteamoCas h .. | .pteamoOr h .. | .pteamoAndn h .. | .launch h ..
  | .add h .. | .sub h .. | .mul h .. | .mulh h .. | .mulhu h .. | .div h .. | .divu h .. | .rem h .. | .remu h ..
  | .and h .. | .or h .. | .xor h .. | .andn h .. | .shl h .. | .shr h .. | .sar h .. | .rol h .. | .min h ..
  | .max h .. | .minu h .. | .maxu h .. | .clz h .. | .ctz h .. | .popc h .. | .bfx h .. | .bfi h .. | .sel h ..
  | .cmp h .. | .addw h .. | .subw h .. | .mulw h .. | .bswap h .. | .addi h .. | .andi h .. | .ori h .. | .xori h ..
  | .shli h .. | .shri h .. | .sari h .. | .roli h .. | .movi h .. | .movhi h .. | .cmpi h .. | .muli h ..
  | .mini h .. | .maxi h .. | .addpc h .. | .pset h .. | .pand h .. | .por h .. | .pxor h .. | .pandn h ..
  | .pfrom h .. | .pto h .. | .pany h .. | .pall h .. | .pcnt h .. | .pfirst h .. | .planes h .. | .fadd h ..
  | .fsub h .. | .fmul h .. | .fma h .. | .fms h .. | .fnma h .. | .fdiv h .. | .fsqrt h .. | .fmin h .. | .fmax h ..
  | .fminm h .. | .fmaxm h .. | .fcmp h .. | .fclass h .. | .fcvt h .. | .fcvti h .. | .icvtf h .. | .fsgn h ..
  | .frnd h .. | .fscalb h .. | .fexp2 h .. | .flog2 h .. | .frcp h .. | .frsq h .. | .frand h .. | .lds h ..
  | .sts h .. | .ldg h .. | .stg h .. | .qld h .. | .qldp h .. | .qst h .. | .qwait h .. | .qpop h .. | .samo h ..
  | .samof h .. | .gamo h .. | .gamof h .. | .ldv h .. | .stv h .. | .vgath h .. | .vscat h .. | .clean h ..
  | .inval h .. | .pfetch h .. | .tld h .. | .tst h .. | .wopen h .. | .wadv h .. | .wclose h .. | .wrow h ..
  | .cpy h .. | .cpyz h .. | .cpyst h .. | .vadd h .. | .vsub h .. | .vmul h .. | .vmulh h .. | .vmin h ..
  | .vmax h .. | .vand h .. | .vor h .. | .vxor h .. | .vshl h .. | .vshr h .. | .vsar h .. | .vfadd h ..
  | .vfsub h .. | .vfmul h .. | .vfma h .. | .vfmin h .. | .vfmax h .. | .vfdiv h .. | .vfsqrt h .. | .vfexp2 h ..
  | .vfrcp h .. | .vfrsq h .. | .vcmp h .. | .vcvt h .. | .vred h .. | .vperm h .. | .vsplat h .. | .vext h ..
  | .vhad h .. | .vsel h .. | .viota h .. | .tcfg h .. | .tzero h .. | .tmovv h .. | .tmovt h .. | .tcopy h ..
  | .tdec h .. | .tenc h .. | .mma h .. | .mpt h .. | .mga h .. | .mhad h .. | .azero h .. | .amovv h .. | .awrv h ..
  | .acvt h .. | .ascl h .. | .abmax h .. | .rzero h .. | .rmovv h .. | .mmode h .. | .cbld h .. | .cbrev h ..
  | .cbfloor h .. | .cbenc h .. | .cbdec h .. | .cbstat h .. | .cbpin h .. | .coll h .. | .collst h .. | .collab h ..
  | .fxr h .. | .fxw h .. | .fxamo h .. | .fxsig h .. | .chainOpen h .. | .chainClose h .. | .chainQuery h ..
  | .demote h .. | .keyopGen h .. | .keyopDestroy h .. | .keyopQuery h .. | .sysr h .. | .syswHmask h .. | .sysw h ..
  | .hostsig h .. | .timeadjStep h .. | .timeadjRate h .. | .timeadjQuery h .. | .trace h .. | .monsnap h ..
  | .wdogArm h .. | .wdogOff h .. | .wdogQuery h .. | .sparemap h .. | .eccinj h .. | .eccst h .. | .handPop h .. => some h
  | .load | .unload | .hostWrite | .queueMonitorWake | .queueRescan | .takeRecord | .waitCounterRead | .dispatch
  | .placeTeam | .quantumDecision | .swapOut | .swapIn | .preempt | .teamRetire | .icFillComplete | .blockEntry
  | .freezeEnd | .freezeTimeout | .hangDetect | .trapEntry | .queuedReply | .queuedTimeout | .engineCommandStart
  | .engineCommandComplete | .versionMissComplete | .versionMissTimeout | .copyCommandStart | .copyCommandComplete
  | .copyTimeout | .tileStoreCommit | .freeFrameRelease | .wakeatExpiry | .yieldExpiry | .mwaitTimeout
  | .hostKillRequest | .hostSyncRequest | .hostMessagePost | .remoteRequest | .collectiveAbortFlit
  | .collectiveComplete | .powerControlTick | .thermalLimit | .wdogExpiry | .reset | .blockingResultArrival
  | .collectiveFailure | .spareMapChange | .fabricGroupWrite => none

/-- A well-formed instruction word: one the manual's encoding can hold. HAND_POP is the HAND word seen from its to role, so
it has no word of its own. -/
def Instr.wf (i : Instr) : Bool :=
  match i.hdr? with
  | none => false
  | some h => h.wf && i.fieldsOk && (match i with | .handPop .. => false | _ => true)

end Sys2Proof
end

