-- ==== Sys2Proof/Decode.lean ====
section
/-! DEFINITION. Decoding an instruction word and, after it, encoding one (02 R40-R66 and each family's encoding tables).
Decoding is total: a word is an instruction, an unassigned opcode, or a malformed word with the reason of 02 R65. -/

namespace Sys2Proof

/-! ## The fields of a word (02 R40, R46-R53) -/

def fRole (w : Word) : BitVec 5 := w.extractLsb' 59 5
def fOpc  (w : Word) : BitVec 8 := w.extractLsb' 51 8
def fG    (w : Word) : BitVec 6 := w.extractLsb' 45 6
def fGn   (w : Word) : BitVec 1 := w.extractLsb' 44 1
def fD    (w : Word) : BitVec 6 := w.extractLsb' 38 6
def fA    (w : Word) : BitVec 6 := w.extractLsb' 32 6
def fB    (w : Word) : BitVec 6 := w.extractLsb' 26 6
def fC    (w : Word) : BitVec 6 := w.extractLsb' 20 6
def fFn   (w : Word) : BitVec 20 := w.extractLsb' 0 20
def fImm  (w : Word) : BitVec 32 := w.extractLsb' 0 32
def fSc   (w : Word) : BitVec 3 := w.extractLsb' 23 3
def fSz   (w : Word) : BitVec 3 := w.extractLsb' 20 3
def fOff  (w : Word) : BitVec 20 := w.extractLsb' 0 20
def fAmo  (w : Word) : BitVec 4 := w.extractLsb' 16 4
def fOff16 (w : Word) : BitVec 16 := w.extractLsb' 0 16
def fBRes (w : Word) : BitVec 9 := w.extractLsb' 23 9
def fSlot (w : Word) : BitVec 3 := w.extractLsb' 20 3
def fTa   (w : Word) : BitVec 3 := w.extractLsb' 41 3
def fTb   (w : Word) : BitVec 3 := w.extractLsb' 38 3
def fAcc  (w : Word) : BitVec 2 := w.extractLsb' 36 2
def fReg  (w : Word) : BitVec 6 := w.extractLsb' 30 6
def fSel  (w : Word) : BitVec 2 := w.extractLsb' 28 2
def fXs   (w : Word) : BitVec 6 := w.extractLsb' 22 6
def fXimm (w : Word) : BitVec 7 := w.extractLsb' 15 7
def fTFn  (w : Word) : BitVec 15 := w.extractLsb' 0 15
def fXLow (w : Word) : BitVec 3 := w.extractLsb' 32 3
def fXHi  (w : Word) : BitVec 3 := w.extractLsb' 35 3
def fNr   (w : Word) : BitVec 5 := w.extractLsb' 27 5
def fXT   (w : Word) : BitVec 3 := w.extractLsb' 24 3
def fXW   (w : Word) : BitVec 3 := w.extractLsb' 21 3
def fXFn  (w : Word) : BitVec 21 := w.extractLsb' 0 21
def fFrom (w : Word) : BitVec 5 := w.extractLsb' 33 5
def fTo   (w : Word) : BitVec 5 := w.extractLsb' 28 5
def fN    (w : Word) : BitVec 4 := w.extractLsb' 24 4
def fHRes (w : Word) : BitVec 24 := w.extractLsb' 0 24

/-- The role, guard and guard-negate fields. -/
def fHdr (w : Word) : Hdr := { role := fRole w, g := fG w, gn := fGn w == 1 }

/-- Bits h..l of a field. -/
def bits {n : Nat} (x : BitVec n) (lo len : Nat) : BitVec len := x.extractLsb' lo len

/-- One bit of a field. -/
def bit {n : Nat} (x : BitVec n) (i : Nat) : Bool := x.getLsbD i

/-- Accept the instruction when its reserved fields are zero (02 R45). -/
def req (ok : Bool) (i : Instr) : Option Instr := if ok then some i else none

/-- A vector register field: 32-63 are reserved (02 R45). -/
def vreg (r : BitVec 6) : Option VReg := if bit r 5 then none else some (bits r 0 5)

/-! ## The coded fields -/

/-- The code of a Scope (02 R48). -/
def Scope.enc : Scope → BitVec 3
  | .package => 0 | .core => 1 | .cluster => 2 | .die => 3 | .domain => 4
/-- The Scope a code names. -/
def Scope.dec (x : BitVec 3) : Option Scope :=
  match x.toNat with
  | 0 => some .package | 1 => some .core | 2 => some .cluster | 3 => some .die | 4 => some .domain | _ => none

/-- The code of a LdSize (12 R278). -/
def LdSize.enc : LdSize → BitVec 3
  | .b8 => 0 | .b1 => 1 | .b2 => 2 | .b4 => 3 | .s1 => 5 | .s2 => 6 | .s4 => 7
/-- The LdSize a code names. -/
def LdSize.dec (x : BitVec 3) : Option LdSize :=
  match x.toNat with
  | 0 => some .b8 | 1 => some .b1 | 2 => some .b2 | 3 => some .b4 | 5 => some .s1 | 6 => some .s2 | 7 => some .s4
  | _ => none

/-- The code of a StSize (12 R278). -/
def StSize.enc : StSize → BitVec 3
  | .b8 => 0 | .b1 => 1 | .b2 => 2 | .b4 => 3
/-- The StSize a code names. -/
def StSize.dec (x : BitVec 3) : Option StSize :=
  match x.toNat with
  | 0 => some .b8 | 1 => some .b1 | 2 => some .b2 | 3 => some .b4 | _ => none

/-- The code of a QstSize (12 R278). -/
def QstSize.enc : QstSize → BitVec 3
  | .b8 => 0 | .b1 => 1 | .b2 => 2 | .b4 => 3 | .mask => 4
/-- The QstSize a code names. -/
def QstSize.dec (x : BitVec 3) : Option QstSize :=
  match x.toNat with
  | 0 => some .b8 | 1 => some .b1 | 2 => some .b2 | 3 => some .b4 | 4 => some .mask | _ => none

/-- The code of a AmoSize (12 R278). -/
def AmoSize.enc : AmoSize → BitVec 3
  | .b8 => 0 | .b4 => 3
/-- The AmoSize a code names. -/
def AmoSize.dec (x : BitVec 3) : Option AmoSize :=
  match x.toNat with
  | 0 => some .b8 | 3 => some .b4 | _ => none

/-- The code of a VecSize (12 R278). -/
def VecSize.enc : VecSize → BitVec 3
  | .b1 => 1 | .b2 => 2 | .b4 => 3 | .sp1 => 5 | .sp2 => 6 | .sp4 => 7
/-- The VecSize a code names. -/
def VecSize.dec (x : BitVec 3) : Option VecSize :=
  match x.toNat with
  | 1 => some .b1 | 2 => some .b2 | 3 => some .b4 | 5 => some .sp1 | 6 => some .sp2 | 7 => some .sp4 | _ => none

/-- The code of a MaintSize (12 R278). -/
def MaintSize.enc : MaintSize → BitVec 3
  | .line => 0 | .page => 4
/-- The MaintSize a code names. -/
def MaintSize.dec (x : BitVec 3) : Option MaintSize :=
  match x.toNat with
  | 0 => some .line | 4 => some .page | _ => none

/-- The code of a RMode (07 R158). -/
def RMode.enc : RMode → BitVec 3
  | .rne => 0 | .rtz => 1 | .rdn => 2 | .rup => 3 | .rna => 4 | .sr => 5
/-- The RMode a code names. -/
def RMode.dec (x : BitVec 3) : Option RMode :=
  match x.toNat with
  | 0 => some .rne | 1 => some .rtz | 2 => some .rdn | 3 => some .rup | 4 => some .rna | 5 => some .sr | _ => none

/-- The code of a FType (08 R174). -/
def FType.enc : FType → BitVec 2
  | .fp64 => 0 | .fp32 => 1 | .fp16 => 2 | .bf16 => 3
/-- The FType a code names. -/
def FType.dec (x : BitVec 2) : Option FType :=
  match x.toNat with
  | 0 => some .fp64 | 1 => some .fp32 | 2 => some .fp16 | 3 => some .bf16 | _ => none

/-- The code of a LType (08 R185). -/
def LType.enc : LType → BitVec 2
  | .fp32 => 0 | .fp16 => 1 | .bf16 => 2
/-- The LType a code names. -/
def LType.dec (x : BitVec 2) : Option LType :=
  match x.toNat with
  | 0 => some .fp32 | 1 => some .fp16 | 2 => some .bf16 | _ => none

/-- The code of a IType (08 R174). -/
def IType.enc : IType → BitVec 3
  | .i64 => 0 | .u64 => 1 | .i32 => 2 | .u32 => 3
/-- The IType a code names. -/
def IType.dec (x : BitVec 3) : Option IType :=
  match x.toNat with
  | 0 => some .i64 | 1 => some .u64 | 2 => some .i32 | 3 => some .u32 | _ => none

/-- The code of a Cc (06 R143). -/
def Cc.enc : Cc → BitVec 4
  | .eq => 0 | .ne => 1 | .lt => 2 | .ge => 3 | .ltu => 4 | .geu => 5 | .gt => 6 | .le => 7 | .gtu => 8 | .leu => 9
  | .tst => 10 | .ntst => 11
/-- The Cc a code names. -/
def Cc.dec (x : BitVec 4) : Option Cc :=
  match x.toNat with
  | 0 => some .eq | 1 => some .ne | 2 => some .lt | 3 => some .ge | 4 => some .ltu | 5 => some .geu | 6 => some .gt
  | 7 => some .le | 8 => some .gtu | 9 => some .leu | 10 => some .tst | 11 => some .ntst | _ => none

/-- The code of a FCc (08 R178). -/
def FCc.enc : FCc → BitVec 3
  | .eq => 0 | .ne => 1 | .lt => 2 | .le => 3 | .gt => 4 | .ge => 5 | .un => 6 | .or => 7
/-- The FCc a code names. -/
def FCc.dec (x : BitVec 3) : Option FCc :=
  match x.toNat with
  | 0 => some .eq | 1 => some .ne | 2 => some .lt | 3 => some .le | 4 => some .gt | 5 => some .ge | 6 => some .un
  | 7 => some .or | _ => none

/-- The code of a Fmt (07 R153). -/
def Fmt.enc : Fmt → BitVec 4
  | .fp32 => 0 | .fp16 => 1 | .bf16 => 2 | .e4m3 => 3 | .e5m2 => 4 | .e3m2 => 5 | .e2m3 => 6 | .e2m1 => 7 | .int8 => 8
  | .int4 => 9
/-- The Fmt a code names. -/
def Fmt.dec (x : BitVec 4) : Option Fmt :=
  match x.toNat with
  | 0 => some .fp32 | 1 => some .fp16 | 2 => some .bf16 | 3 => some .e4m3 | 4 => some .e5m2 | 5 => some .e3m2
  | 6 => some .e2m3 | 7 => some .e2m1 | 8 => some .int8 | 9 => some .int4 | _ => none

/-- The code of a HadN (08 R194, 10 R233). -/
def HadN.enc : HadN → BitVec 2
  | .n16 => 0 | .n32 => 1 | .n64 => 2
/-- The HadN a code names. -/
def HadN.dec (x : BitVec 2) : Option HadN :=
  match x.toNat with
  | 0 => some .n16 | 1 => some .n32 | 2 => some .n64 | _ => none

/-- The code of a AmoOp (12 R296). -/
def AmoOp.enc : AmoOp → BitVec 4
  | .swap => 0 | .cas => 1 | .add => 2 | .and => 3 | .or => 4 | .xor => 5 | .smin => 6 | .smax => 7 | .umin => 8
  | .umax => 9
/-- The AmoOp a code names. -/
def AmoOp.dec (x : BitVec 4) : Option AmoOp :=
  match x.toNat with
  | 0 => some .swap | 1 => some .cas | 2 => some .add | 3 => some .and | 4 => some .or | 5 => some .xor
  | 6 => some .smin | 7 => some .smax | 8 => some .umin | 9 => some .umax | _ => none

/-- The code of a FAmoOp (12 R296). -/
def FAmoOp.enc : FAmoOp → BitVec 4
  | .fadd => 0 | .fmin => 1 | .fmax => 2
/-- The FAmoOp a code names. -/
def FAmoOp.dec (x : BitVec 4) : Option FAmoOp :=
  match x.toNat with
  | 0 => some .fadd | 1 => some .fmin | 2 => some .fmax | _ => none

/-- The code of a Csr (05 R134). -/
def Csr.enc : Csr → BitVec 12
  | .fpctl => 0 | .srstate => 1 | .roleinfo => 16 | .teamid => 17 | .gridsz => 18 | .argp => 19 | .beat => 20
  | .drift => 21 | .latgen => 22 | .carbase => 32 | .cardepth => 33 | .utrapvec => 48 | .utrapmask => 49
  | .strapvec => 256 | .mode => 257 | .tframe => 258 | .asid => 259 | .ptbase => 260
/-- The Csr a code names. -/
def Csr.dec (x : BitVec 12) : Option Csr :=
  match x.toNat with
  | 0 => some .fpctl | 1 => some .srstate | 16 => some .roleinfo | 17 => some .teamid | 18 => some .gridsz
  | 19 => some .argp | 20 => some .beat | 21 => some .drift | 22 => some .latgen | 32 => some .carbase
  | 33 => some .cardepth | 48 => some .utrapvec | 49 => some .utrapmask | 256 => some .strapvec | 257 => some .mode
  | 258 => some .tframe | 259 => some .asid | 260 => some .ptbase | _ => none

/-- The code of a CollRed (21 R402). -/
def CollRed.enc : CollRed → BitVec 2
  | .fadd => 0 | .fmax => 1 | .iadd => 2
/-- The CollRed a code names. -/
def CollRed.dec (x : BitVec 2) : Option CollRed :=
  match x.toNat with
  | 0 => some .fadd | 1 => some .fmax | 2 => some .iadd | _ => none

/-- A system register's number (11 R266). -/
def SysReg.enc : SysReg → BitVec 12
  | .pkgid => 0x000 | .qtbase => 0x001 | .ctxbase => 0x002 | .errbase => 0x003 | .evac => 0x008
  | .hmask n => 0x010 + n.setWidth 12 | .keylive => 0x020 | .pwrcap => 0x030 | .pwrst => 0x031
/-- The system register a number names. -/
def SysReg.dec (x : BitVec 12) : Option SysReg :=
  match x.toNat with
  | 0x000 => some .pkgid | 0x001 => some .qtbase | 0x002 => some .ctxbase | 0x003 => some .errbase
  | 0x008 => some .evac | 0x020 => some .keylive | 0x030 => some .pwrcap | 0x031 => some .pwrst
  | _ => if bits x 3 9 == 2 then some (.hmask (bits x 0 3)) else none

/-- The static mode of a conversion: srm and rm (08 R174). -/
def encRm : Option RMode → BitVec 1 × BitVec 3
  | none => (0, 0) | some m => (1, m.enc)
/-- rm must be 0 when srm = 0, and 0-5 when srm = 1 (08 R174). -/
def decRm (srm : BitVec 1) (rm : BitVec 3) : Option (Option RMode) :=
  if srm == 1 then (RMode.dec rm).map some else if rm == 0 then some none else none

/-- sd and d of a compare (06 R143). -/
def CmpDst.enc : CmpDst → BitVec 1 × BitVec 6
  | .p d => (0, d) | .s d => (1, d)
def CmpDst.dec (sd : BitVec 1) (d : BitVec 6) : CmpDst := if sd == 1 then .s d else .p d

/-- op and b of FSGN (08 R181). -/
def SgnOp.enc : SgnOp → BitVec 3 × BitVec 6
  | .cpy b => (0, b) | .ncpy b => (1, b) | .xor b => (2, b) | .abs => (3, 0) | .neg => (4, 0)
def SgnOp.dec (op : BitVec 3) (b : BitVec 6) : Option SgnOp :=
  match op.toNat with
  | 0 => some (.cpy b) | 1 => some (.ncpy b) | 2 => some (.xor b)
  | 3 => if b == 0 then some .abs else none
  | 4 => if b == 0 then some .neg else none
  | _ => none

/-- op and ty of FRAND (08 R183). -/
def RandOp.enc : RandOp → BitVec 3 × BitVec 2
  | .unif ty => (0, ty.enc) | .raw => (1, 0)
def RandOp.dec (op : BitVec 3) (ty : BitVec 2) : Option RandOp :=
  match op.toNat with
  | 0 => (FType.dec ty).map .unif
  | 1 => if ty == 0 then some .raw else none
  | _ => none

/-- bs and b of a vector word (08 R185). -/
def VOpB.enc : VOpB → BitVec 1 × BitVec 6
  | .v b => (0, (0#1) ++ b) | .s b => (1, b)
def VOpB.dec (bs : BitVec 1) (b : BitVec 6) : Option VOpB :=
  if bs == 1 then some (.s b) else (vreg b).map .v

/-- cc, fl and lt of VCMP (08 R190). -/
def VCmpOp.enc : VCmpOp → BitVec 4 × BitVec 1 × BitVec 2
  | .int cc => (cc.enc, 0, 0) | .flt cc lt => ((0#1) ++ cc.enc, 1, lt.enc)
def VCmpOp.dec (cc : BitVec 4) (fl : BitVec 1) (lt : BitVec 2) : Option VCmpOp :=
  if fl == 1 then
    if bit cc 3 then none else (FCc.dec (bits cc 0 3)).bind fun c => (LType.dec lt).map fun l => .flt c l
  else if lt == 0 then (Cc.dec cc).map .int else none

/-- One side of VCVT: the format code and the integer bit (08 R191). -/
def CvtSide.enc : CvtSide → BitVec 4 × BitVec 1
  | .fmt f => (f.enc, 0) | .i32 => (0, 1)
def CvtSide.dec (f : BitVec 4) (i : BitVec 1) : Option CvtSide :=
  if i == 1 then (if f == 0 then some .i32 else none) else (Fmt.dec f).map .fmt

/-- op and lt of VRED (08 R192). -/
def RedOp.enc : RedOp → BitVec 3 × BitVec 2
  | .iadd => (0, 0) | .fadd lt => (1, lt.enc) | .fmax lt => (2, lt.enc) | .fmin lt => (3, lt.enc)
  | .smax => (4, 0) | .smin => (5, 0) | .umax => (6, 0) | .umin => (7, 0)
def RedOp.dec (op : BitVec 3) (lt : BitVec 2) : Option RedOp :=
  match op.toNat with
  | 1 => (LType.dec lt).map .fadd | 2 => (LType.dec lt).map .fmax | 3 => (LType.dec lt).map .fmin
  | 0 => if lt == 0 then some .iadd else none
  | 4 => if lt == 0 then some .smax else none
  | 5 => if lt == 0 then some .smin else none
  | 6 => if lt == 0 then some .umax else none
  | _ => if lt == 0 then some .umin else none

/-- sel, xs and ximm of a tile word (02 R50). -/
def Slice.enc : Slice → BitVec 2 × BitVec 6 × BitVec 7
  | .whole => (0, 0, 0) | .row xs x => (1, xs, x) | .col xs x => (2, xs, x)
def Slice.dec (sel : BitVec 2) (xs : BitVec 6) (x : BitVec 7) : Option Slice :=
  match sel.toNat with
  | 0 => if xs == 0 && x == 0 then some .whole else none
  | 1 => some (.row xs x)
  | 2 => some (.col xs x)
  | _ => none

/-- A notify role: 31 for none, 16-30 refused with reason 0x03 (02 R52). -/
def encNr : Option (BitVec 4) → BitVec 5
  | none => 31 | some r => (0#1) ++ r
def decNr (nr : BitVec 5) : Option (Option (BitVec 4)) :=
  if nr == 31 then some none else if bit nr 4 then none else some (some (bits nr 0 4))

/-- An optional scalar operand: a flag and a register that is reserved without it. -/
def encOptReg : Option SReg → BitVec 1 × BitVec 6
  | none => (0, 0) | some r => (1, r)
def decOptReg (f : BitVec 1) (r : BitVec 6) : Option (Option SReg) :=
  if f == 1 then some (some r) else if r == 0 then some none else none

/-- md and a of BAR (17 R358). -/
def BarMode.enc : BarMode → BitVec 2 × BitVec 6
  | .aw a => (0, a) | .arr a => (1, a) | .wait => (2, 0)
def BarMode.dec (md : BitVec 2) (a : BitVec 6) : Option BarMode :=
  match md.toNat with
  | 0 => some (.aw a) | 1 => some (.arr a)
  | 2 => if a == 0 then some .wait else none
  | _ => none

/-- op and red of COLL (21 R402). -/
def CollOp.enc : CollOp → BitVec 2 × BitVec 2
  | .allReduce r => (0, r.enc) | .reduceScatter r => (1, r.enc) | .allGather => (2, 0)
def CollOp.dec (op red : BitVec 2) : Option CollOp :=
  match op.toNat with
  | 0 => (CollRed.dec red).map .allReduce
  | 1 => (CollRed.dec red).map .reduceScatter
  | 2 => if red == 0 then some .allGather else none
  | _ => none

/-! ## Decoding, class by class (02 R59) -/

/-- The words of opcodes 0x00-0x1F but those of formats X and H; none where a field is reserved. A field that an opcode uses in some of its
operations only is not reserved in the others: b of PTEAMO inc and dec, a of TLBINV asid, a and b of TLBINV all (DESIGN CHOICE, log 88). -/
def decodeClass0 (opc : Nat) (h : Hdr) (w : Word) : Option Instr :=
  match opc with
  | 0x00 => req (fD w == 0 && fA w == 0 && fB w == 0 && fC w == 0 && fFn w == 0) (.nop h)
  | 0x01 => req (fD w == 0 && fA w == 0 && fB w == 0 && fC w == 0 && fFn w == 0) (.halt h)
  | 0x02 => req (fD w == 0 && fA w == 0 && fBRes w == 0 && fSlot w ≠ 7) (.br h (fSlot w) (fOff w))
  | 0x03 => req (fD w == 0 && fA w ≠ 0 && fBRes w == 0 && fSlot w ≠ 7) (.jmp h (fA w) (fSlot w) (fOff w))
  | 0x04 => req (fA w == 0 && fBRes w == 0 && fSlot w ≠ 7) (.call h (fD w) (fSlot w) (fOff w))
  | 0x05 => req (fB w == 0 && fC w == 0 && fFn w == 0) (.callr h (fD w) (fA w))
  | 0x06 => req (fD w == 0 && fB w == 0 && fC w == 0 && fFn w == 0) (.ret h (fA w))
  | 0x07 => req (fBRes w == 0 && fSlot w ≠ 7) (.loop h (fD w) (fA w) (fSlot w) (fOff w))
  | 0x08 => req (fA w == 0 && fB w == 0 && fC w == 0 && bits w 0 8 == 0)
      (.rep h (fD w) (bits w 17 3) (bits w 14 3) (bits w 11 3) (bits w 8 3))
  | 0x0B => (BarMode.dec (bits w 4 2) (fA w)).bind fun m =>
      req (bits w 16 16 == 0 && bits w 6 2 == 0) (.bar h (fD w) m (bits w 8 8) (bits w 0 4))
  | 0x0C => req (fD w == 0 && fA w == 0 && bits w 4 28 == 0) (.barb h (bits w 0 4))
  | 0x0D => (Scope.dec (fSc w)).bind fun sc => req (fD w == 0 && fSz w == 0) (.marm h (fA w) (fB w) sc (fOff w))
  | 0x0E => (decOptReg (bits w 0 1) (fA w)).bind fun t => req (bits w 1 31 == 0) (.mwait h (fD w) t)
  | 0x0F => req (fD w == 0 && fB w == 0 && fC w == 0 && fFn w == 0) (.wakeat h (fA w))
  | 0x10 => req (fA w == 0 && fB w == 0 && fC w == 0 && fFn w == 0) (.time h (fD w))
  | 0x11 => req (fA w == 0 && fB w == 0 && fC w == 0 && fFn w == 0) (.cycle h (fD w))
  | 0x12 => (Csr.dec (bits w 0 12)).bind fun c => req (fA w == 0 && bits w 12 20 == 0) (.csrr h (fD w) c)
  | 0x13 => (Csr.dec (bits w 0 12)).bind fun c => req (bits w 12 20 == 0 && c.writable) (.csrw h (fD w) (fA w) c)
  | 0x14 => (Csr.dec (bits w 0 12)).bind fun c => req (bits w 12 20 == 0 && c.writable) (.csrs h (fD w) (fA w) c)
  | 0x15 => (Csr.dec (bits w 0 12)).bind fun c => req (bits w 12 20 == 0 && c.writable) (.csrc h (fD w) (fA w) c)
  | 0x16 => req (fD w == 0 && bits w 16 16 == 0) (.trap h (fA w) (fOff16 w))
  | 0x17 => req (fD w == 0 && bits w 16 16 == 0) (.sysc h (fA w) (fOff16 w))
  | 0x18 => req (fD w == 0 && fA w == 0 && fB w == 0 && fC w == 0 && fFn w == 0) (.rft h)
  | 0x19 => (Scope.dec (bits w 0 3)).bind fun sc =>
      req (fD w == 0 && fA w == 0 && fB w == 0 && fC w == 0 && bits w 5 15 == 0 && (bit w 4 || bit w 3))
        (.fence h (bit w 4) (bit w 3) sc)
  | 0x1A => req (fD w == 0 && fB w == 0 && fC w == 0 && fFn w == 0) (.yield h (fA w))
  | 0x1B => req (fC w == 0 && fFn w == 0) (.moncfg h (fD w) (fA w) (fB w))
  | 0x1C => req (fC w == 0 && fFn w == 0) (.monrd h (fD w) (fA w) (fB w))
  | 0x1D => if fC w == 0 && bits w 2 18 == 0 then
      (match (bits w 0 2).toNat with
      | 0 => some (.tlbinvPage h (fD w) (fA w) (fB w)) | 1 => some (.tlbinvAsid h (fD w) (fA w) (fB w))
      | 2 => some (.tlbinvAll h (fD w) (fA w) (fB w)) | _ => none) else none
  | 0x1E => (Scope.dec (fSc w)).bind fun sc => if fSz w == 0 then
      (match (fAmo w).toNat with
      | 0 => some (.pteamoInc h (fD w) (fA w) (fB w) sc (fOff16 w))
      | 1 => some (.pteamoDec h (fD w) (fA w) (fB w) sc (fOff16 w))
      | 2 => req (evenReg (fB w)) (.pteamoCas h (fD w) (fA w) (fB w) sc (fOff16 w))
      | 3 => some (.pteamoOr h (fD w) (fA w) (fB w) sc (fOff16 w))
      | 4 => some (.pteamoAndn h (fD w) (fA w) (fB w) sc (fOff16 w))
      | _ => none) else none
  | _ => none

/-- The words of opcodes 0x20-0x3F but those of formats X and H; none where a field is reserved. -/
def decodeClass1 (opc : Nat) (h : Hdr) (w : Word) : Option Instr :=
  match opc with
  | 0x20 => req (fC w == 0 && fFn w == 0) (.add h (fD w) (fA w) (fB w))
  | 0x21 => req (fC w == 0 && fFn w == 0) (.sub h (fD w) (fA w) (fB w))
  | 0x22 => req (fC w == 0 && fFn w == 0) (.mul h (fD w) (fA w) (fB w))
  | 0x23 => req (fC w == 0 && fFn w == 0) (.mulh h (fD w) (fA w) (fB w))
  | 0x24 => req (fC w == 0 && fFn w == 0) (.mulhu h (fD w) (fA w) (fB w))
  | 0x25 => req (fC w == 0 && fFn w == 0) (.div h (fD w) (fA w) (fB w))
  | 0x26 => req (fC w == 0 && fFn w == 0) (.divu h (fD w) (fA w) (fB w))
  | 0x27 => req (fC w == 0 && fFn w == 0) (.rem h (fD w) (fA w) (fB w))
  | 0x28 => req (fC w == 0 && fFn w == 0) (.remu h (fD w) (fA w) (fB w))
  | 0x29 => req (fC w == 0 && fFn w == 0) (.and h (fD w) (fA w) (fB w))
  | 0x2A => req (fC w == 0 && fFn w == 0) (.or h (fD w) (fA w) (fB w))
  | 0x2B => req (fC w == 0 && fFn w == 0) (.xor h (fD w) (fA w) (fB w))
  | 0x2C => req (fC w == 0 && fFn w == 0) (.andn h (fD w) (fA w) (fB w))
  | 0x2D => req (fC w == 0 && fFn w == 0) (.shl h (fD w) (fA w) (fB w))
  | 0x2E => req (fC w == 0 && fFn w == 0) (.shr h (fD w) (fA w) (fB w))
  | 0x2F => req (fC w == 0 && fFn w == 0) (.sar h (fD w) (fA w) (fB w))
  | 0x30 => req (fC w == 0 && fFn w == 0) (.rol h (fD w) (fA w) (fB w))
  | 0x31 => req (fC w == 0 && fFn w == 0) (.min h (fD w) (fA w) (fB w))
  | 0x32 => req (fC w == 0 && fFn w == 0) (.max h (fD w) (fA w) (fB w))
  | 0x33 => req (fC w == 0 && fFn w == 0) (.minu h (fD w) (fA w) (fB w))
  | 0x34 => req (fC w == 0 && fFn w == 0) (.maxu h (fD w) (fA w) (fB w))
  | 0x35 => req (fB w == 0 && fC w == 0 && fFn w == 0) (.clz h (fD w) (fA w))
  | 0x36 => req (fB w == 0 && fC w == 0 && fFn w == 0) (.ctz h (fD w) (fA w))
  | 0x37 => req (fB w == 0 && fC w == 0 && fFn w == 0) (.popc h (fD w) (fA w))
  | 0x38 => req (fB w == 0 && fC w == 0 && bits w 13 7 == 0 && (bits w 0 6).toNat + (bits w 6 6).toNat + 1 ≤ 64)
      (.bfx h (fD w) (fA w) (bit w 12) (bits w 6 6) (bits w 0 6))
  | 0x39 => req (fC w == 0 && bits w 12 8 == 0 && (bits w 0 6).toNat + (bits w 6 6).toNat + 1 ≤ 64)
      (.bfi h (fD w) (fA w) (fB w) (bits w 6 6) (bits w 0 6))
  | 0x3A => req (fFn w == 0) (.sel h (fD w) (fA w) (fB w) (fC w))
  | 0x3B => (Cc.dec (bits w 0 4)).bind fun cc => req (fC w == 0 && bits w 5 15 == 0)
      (.cmp h (CmpDst.dec (bits w 4 1) (fD w)) (fA w) (fB w) cc)
  | 0x3C => req (fC w == 0 && fFn w == 0) (.addw h (fD w) (fA w) (fB w))
  | 0x3D => req (fC w == 0 && fFn w == 0) (.subw h (fD w) (fA w) (fB w))
  | 0x3E => req (fC w == 0 && fFn w == 0) (.mulw h (fD w) (fA w) (fB w))
  | 0x3F => req (fB w == 0 && fC w == 0 && fFn w == 0) (.bswap h (fD w) (fA w))
  | _ => none

/-- The words of opcodes 0x40-0x5F but those of formats X and H; none where a field is reserved. -/
def decodeClass2 (opc : Nat) (h : Hdr) (w : Word) : Option Instr :=
  match opc with
  | 0x40 => some (.addi h (fD w) (fA w) (fImm w))
  | 0x41 => some (.andi h (fD w) (fA w) (fImm w))
  | 0x42 => some (.ori h (fD w) (fA w) (fImm w))
  | 0x43 => some (.xori h (fD w) (fA w) (fImm w))
  | 0x44 => req (bits w 6 26 == 0) (.shli h (fD w) (fA w) (bits w 0 6))
  | 0x45 => req (bits w 6 26 == 0) (.shri h (fD w) (fA w) (bits w 0 6))
  | 0x46 => req (bits w 6 26 == 0) (.sari h (fD w) (fA w) (bits w 0 6))
  | 0x47 => req (bits w 6 26 == 0) (.roli h (fD w) (fA w) (bits w 0 6))
  | 0x48 => req (fA w == 0) (.movi h (fD w) (fImm w))
  | 0x49 => some (.movhi h (fD w) (fA w) (fImm w))
  | 0x4A => (Cc.dec (bits w 28 4)).bind fun cc => some (.cmpi h (CmpDst.dec (bits w 27 1) (fD w)) (fA w) cc (bits w 0 27))
  | 0x4B => some (.muli h (fD w) (fA w) (fImm w))
  | 0x4C => some (.mini h (fD w) (fA w) (fImm w))
  | 0x4D => some (.maxi h (fD w) (fA w) (fImm w))
  | 0x4E => req (fA w == 0) (.addpc h (fD w) (fImm w))
  | 0x4F => req (fA w == 0 && fB w == 0 && fC w == 0 && bits w 7 13 == 0 && (bits w 0 7).toNat ≤ 64) (.pset h (fD w) (bits w 0 7))
  | 0x50 => req (fC w == 0 && fFn w == 0) (.pand h (fD w) (fA w) (fB w))
  | 0x51 => req (fC w == 0 && fFn w == 0) (.por h (fD w) (fA w) (fB w))
  | 0x52 => req (fC w == 0 && fFn w == 0) (.pxor h (fD w) (fA w) (fB w))
  | 0x53 => req (fC w == 0 && fFn w == 0) (.pandn h (fD w) (fA w) (fB w))
  | 0x54 => req (fB w == 0 && fC w == 0 && fFn w == 0) (.pfrom h (fD w) (fA w))
  | 0x55 => req (fB w == 0 && fC w == 0 && fFn w == 0) (.pto h (fD w) (fA w))
  | 0x56 => req (fC w == 0 && fFn w == 0) (.pany h (fD w) (fA w) (fB w))
  | 0x57 => req (fC w == 0 && fFn w == 0) (.pall h (fD w) (fA w) (fB w))
  | 0x58 => req (fC w == 0 && fFn w == 0) (.pcnt h (fD w) (fA w) (fB w))
  | 0x59 => req (fC w == 0 && fFn w == 0) (.pfirst h (fD w) (fA w) (fB w))
  | 0x5A => req (fC w == 0 && fFn w == 0) (.planes h (fD w) (fA w) (fB w))
  | _ => none

/-- The words of opcodes 0x60-0x7F but those of formats X and H; none where a field is reserved. -/
def decodeClass3 (opc : Nat) (h : Hdr) (w : Word) : Option Instr :=
  match opc with
  | 0x60 => (FType.dec (bits w 0 2)).bind fun ty => req (fC w == 0 && bits w 2 18 == 0) (.fadd h ty (fD w) (fA w) (fB w))
  | 0x61 => (FType.dec (bits w 0 2)).bind fun ty => req (fC w == 0 && bits w 2 18 == 0) (.fsub h ty (fD w) (fA w) (fB w))
  | 0x62 => (FType.dec (bits w 0 2)).bind fun ty => req (fC w == 0 && bits w 2 18 == 0) (.fmul h ty (fD w) (fA w) (fB w))
  | 0x63 => (FType.dec (bits w 0 2)).bind fun ty => req (bits w 2 18 == 0) (.fma h ty (fD w) (fA w) (fB w) (fC w))
  | 0x64 => (FType.dec (bits w 0 2)).bind fun ty => req (bits w 2 18 == 0) (.fms h ty (fD w) (fA w) (fB w) (fC w))
  | 0x65 => (FType.dec (bits w 0 2)).bind fun ty => req (bits w 2 18 == 0) (.fnma h ty (fD w) (fA w) (fB w) (fC w))
  | 0x66 => (FType.dec (bits w 0 2)).bind fun ty => req (fC w == 0 && bits w 2 18 == 0) (.fdiv h ty (fD w) (fA w) (fB w))
  | 0x67 => (FType.dec (bits w 0 2)).bind fun ty => req (fB w == 0 && fC w == 0 && bits w 2 18 == 0) (.fsqrt h ty (fD w) (fA w))
  | 0x68 => (FType.dec (bits w 0 2)).bind fun ty => req (fC w == 0 && bits w 2 18 == 0) (.fmin h ty (fD w) (fA w) (fB w))
  | 0x69 => (FType.dec (bits w 0 2)).bind fun ty => req (fC w == 0 && bits w 2 18 == 0) (.fmax h ty (fD w) (fA w) (fB w))
  | 0x6A => (FType.dec (bits w 0 2)).bind fun ty => req (fC w == 0 && bits w 2 18 == 0) (.fminm h ty (fD w) (fA w) (fB w))
  | 0x6B => (FType.dec (bits w 0 2)).bind fun ty => req (fC w == 0 && bits w 2 18 == 0) (.fmaxm h ty (fD w) (fA w) (fB w))
  | 0x6C => (FType.dec (bits w 0 2)).bind fun ty => (FCc.dec (bits w 9 3)).bind fun cc =>
      req (fC w == 0 && bits w 13 7 == 0 && bits w 2 7 == 0)
        (.fcmp h ty (CmpDst.dec (bits w 12 1) (fD w)) (fA w) (fB w) cc)
  | 0x6D => (FType.dec (bits w 0 2)).bind fun ty => req (fB w == 0 && fC w == 0 && bits w 2 18 == 0) (.fclass h ty (fD w) (fA w))
  | 0x6E => (FType.dec (bits w 0 2)).bind fun ty => (decRm (bits w 5 1) (bits w 2 3)).bind fun rm =>
      (if bit w 8 then none else FType.dec (bits w 6 2)).bind fun ty2 =>
      req (fB w == 0 && fC w == 0 && bits w 9 11 == 0) (.fcvt h ty ty2 rm (fD w) (fA w))
  | 0x6F => (FType.dec (bits w 0 2)).bind fun ty => (decRm (bits w 5 1) (bits w 2 3)).bind fun rm =>
      (IType.dec (bits w 6 3)).bind fun it =>
      req (fB w == 0 && fC w == 0 && bits w 9 11 == 0) (.fcvti h ty it rm (fD w) (fA w))
  | 0x70 => (FType.dec (bits w 0 2)).bind fun ty => (decRm (bits w 5 1) (bits w 2 3)).bind fun rm =>
      (IType.dec (bits w 6 3)).bind fun it =>
      req (fB w == 0 && fC w == 0 && bits w 9 11 == 0) (.icvtf h ty it rm (fD w) (fA w))
  | 0x71 => (FType.dec (bits w 0 2)).bind fun ty => (SgnOp.dec (bits w 9 3) (fB w)).bind fun op =>
      req (fC w == 0 && bits w 12 8 == 0 && bits w 2 7 == 0) (.fsgn h ty op (fD w) (fA w))
  | 0x72 => (FType.dec (bits w 0 2)).bind fun ty => (decRm (bits w 5 1) (bits w 2 3)).bind fun rm =>
      req (fB w == 0 && fC w == 0 && bits w 6 14 == 0) (.frnd h ty rm (fD w) (fA w))
  | 0x73 => (FType.dec (bits w 0 2)).bind fun ty => req (fC w == 0 && bits w 2 18 == 0) (.fscalb h ty (fD w) (fA w) (fB w))
  | 0x74 => (FType.dec (bits w 0 2)).bind fun ty => req (fB w == 0 && fC w == 0 && bits w 2 18 == 0) (.fexp2 h ty (fD w) (fA w))
  | 0x75 => (FType.dec (bits w 0 2)).bind fun ty => req (fB w == 0 && fC w == 0 && bits w 2 18 == 0) (.flog2 h ty (fD w) (fA w))
  | 0x76 => (FType.dec (bits w 0 2)).bind fun ty => req (fB w == 0 && fC w == 0 && bits w 2 18 == 0) (.frcp h ty (fD w) (fA w))
  | 0x77 => (FType.dec (bits w 0 2)).bind fun ty => req (fB w == 0 && fC w == 0 && bits w 2 18 == 0) (.frsq h ty (fD w) (fA w))
  | 0x78 => (RandOp.dec (bits w 9 3) (bits w 0 2)).bind fun op =>
      req (fA w == 0 && fB w == 0 && fC w == 0 && bits w 12 8 == 0 && bits w 2 7 == 0) (.frand h op (fD w))
  | _ => none

/-- The words of opcodes 0x80-0x9F but those of formats X and H; none where a field is reserved. -/
def decodeClass4 (opc : Nat) (h : Hdr) (w : Word) : Option Instr :=
  match opc with
  | 0x80 => (LdSize.dec (fSz w)).bind fun sz => (Scope.dec (fSc w)).bind fun sc => 
      req (true) (.lds h sz sc (fD w) (fA w) (fB w) (fOff w))
  | 0x81 => (StSize.dec (fSz w)).bind fun sz => (Scope.dec (fSc w)).bind fun sc => 
      req (true) (.sts h sz sc (fD w) (fA w) (fB w) (fOff w))
  | 0x82 => (LdSize.dec (fSz w)).bind fun sz => (Scope.dec (fSc w)).bind fun sc => 
      req (true) (.ldg h sz sc (fD w) (fA w) (fB w) (fOff w))
  | 0x83 => (StSize.dec (fSz w)).bind fun sz => (Scope.dec (fSc w)).bind fun sc => 
      req (true) (.stg h sz sc (fD w) (fA w) (fB w) (fOff w))
  | 0x84 => (LdSize.dec (fSz w)).bind fun sz => (Scope.dec (fSc w)).bind fun sc => 
      req (bits w 29 3 == 0) (.qld h sz sc (bits w 26 3) (fD w) (fA w) (fOff w))
  | 0x85 => (Scope.dec (fSc w)).bind fun sc => req (fSz w == 0 && bits w 29 3 == 0 && evenReg (fD w))
      (.qldp h sc (bits w 26 3) (fD w) (fA w) (fOff w))
  | 0x86 => (QstSize.dec (fSz w)).bind fun sz => (Scope.dec (fSc w)).bind fun sc => 
      req (bits w 29 3 == 0 && (sz ≠ .mask || evenReg (fD w))) (.qst h sz sc (bits w 26 3) (fD w) (fA w) (fOff w))
  | 0x87 => req (fD w == 0 && fA w == 0 && fB w == 0 && fC w == 0 && bits w 4 16 == 0 && (!bit w 3 || bits w 0 3 == 0))
      (.qwait h (if bit w 3 then none else some (bits w 0 3)))
  | 0x88 => req (fA w == 0 && fB w == 0 && fC w == 0 && fFn w == 0) (.qpop h (fD w))
  | 0x89 => (AmoSize.dec (fSz w)).bind fun sz => (Scope.dec (fSc w)).bind fun sc => (AmoOp.dec (fAmo w)).bind fun op =>
      req (op ≠ .cas || evenReg (fB w)) (.samo h op sz sc (fD w) (fA w) (fB w) (fOff16 w))
  | 0x8A => (AmoSize.dec (fSz w)).bind fun sz => (Scope.dec (fSc w)).bind fun sc => (FAmoOp.dec (fAmo w)).bind fun op =>
      req (true) (.samof h op sz sc (fD w) (fA w) (fB w) (fOff16 w))
  | 0x8B => (AmoSize.dec (fSz w)).bind fun sz => (AmoOp.dec (fAmo w)).bind fun op =>
      req (op ≠ .cas || evenReg (fB w)) (.gamo h op sz (fSc w) (fD w) (fA w) (fB w) (fOff16 w))
  | 0x8C => (AmoSize.dec (fSz w)).bind fun sz => (FAmoOp.dec (fAmo w)).bind fun op =>
      req (true) (.gamof h op sz (fSc w) (fD w) (fA w) (fB w) (fOff16 w))
  | 0x8D => (VecSize.dec (fSz w)).bind fun sz => (Scope.dec (fSc w)).bind fun sc => (vreg (fD w)).bind fun d =>
      some (.ldv h sz sc d (fA w) (fB w) (fOff w))
  | 0x8E => (VecSize.dec (fSz w)).bind fun sz => (Scope.dec (fSc w)).bind fun sc => (vreg (fD w)).bind fun d =>
      some (.stv h sz sc d (fA w) (fB w) (fOff w))
  | 0x8F => (VecSize.dec (fSz w)).bind fun sz => (Scope.dec (fSc w)).bind fun sc => (vreg (fD w)).bind fun d =>
      (vreg (fB w)).bind fun b => some (.vgath h sz sc d (fA w) b (fOff w))
  | 0x90 => (VecSize.dec (fSz w)).bind fun sz => (Scope.dec (fSc w)).bind fun sc => (vreg (fD w)).bind fun d =>
      (vreg (fB w)).bind fun b => some (.vscat h sz sc d (fA w) b (fOff w))
  | 0x91 => (MaintSize.dec (fSz w)).bind fun sz => (Scope.dec (fSc w)).bind fun sc => 
      req (fD w == 0) (.clean h sz sc (fA w) (fB w) (fOff w))
  | 0x92 => (MaintSize.dec (fSz w)).bind fun sz => (Scope.dec (fSc w)).bind fun sc => 
      req (fD w == 0) (.inval h sz sc (fA w) (fB w) (fOff w))
  | 0x93 => (Scope.dec (fSc w)).bind fun sc => req (fD w == 0 && fSz w == 0 && sc ≠ .domain) (.pfetch h sc (fA w) (fB w) (fOff w))
  | 0x97 => req (fD w == 0 && fB w == 0 && fC w == 0 && bits w 3 17 == 0) (.wadv h (fA w) (bits w 0 3))
  | 0x98 => req (fD w == 0 && fA w == 0 && fB w == 0 && fC w == 0 && bits w 3 17 == 0) (.wclose h (bits w 0 3))
  | 0x99 => req (fB w == 0 && fC w == 0 && bits w 3 17 == 0) (.wrow h (fD w) (fA w) (bits w 0 3))
  | 0x9C => req (fA w == 0 && fB w == 0 && fC w == 0 && bits w 1 19 == 0) (.cpyst h (fD w) (bit w 0))
  | _ => none

/-- The words of opcodes 0xA0-0xBF but those of formats X and H; none where a field is reserved. -/
def decodeClass5 (opc : Nat) (h : Hdr) (w : Word) : Option Instr :=
  match opc with
  | 0xA0 => (vreg (fD w)).bind fun d => (vreg (fA w)).bind fun a => (VOpB.dec (bits w 2 1) (fB w)).bind fun b =>
      req (fC w == 0 && bits w 3 17 == 0 && bits w 0 2 == 0) (.vadd h d a b)
  | 0xA1 => (vreg (fD w)).bind fun d => (vreg (fA w)).bind fun a => (VOpB.dec (bits w 2 1) (fB w)).bind fun b =>
      req (fC w == 0 && bits w 3 17 == 0 && bits w 0 2 == 0) (.vsub h d a b)
  | 0xA2 => (vreg (fD w)).bind fun d => (vreg (fA w)).bind fun a => (VOpB.dec (bits w 2 1) (fB w)).bind fun b =>
      req (fC w == 0 && bits w 3 17 == 0 && bits w 0 2 == 0) (.vmul h d a b)
  | 0xA3 => (vreg (fD w)).bind fun d => (vreg (fA w)).bind fun a => (VOpB.dec (bits w 2 1) (fB w)).bind fun b =>
      req (fC w == 0 && bits w 4 16 == 0 && bits w 0 2 == 0) (.vmulh h (bit w 3) d a b)
  | 0xA4 => (vreg (fD w)).bind fun d => (vreg (fA w)).bind fun a => (VOpB.dec (bits w 2 1) (fB w)).bind fun b =>
      req (fC w == 0 && bits w 4 16 == 0 && bits w 0 2 == 0) (.vmin h (bit w 3) d a b)
  | 0xA5 => (vreg (fD w)).bind fun d => (vreg (fA w)).bind fun a => (VOpB.dec (bits w 2 1) (fB w)).bind fun b =>
      req (fC w == 0 && bits w 4 16 == 0 && bits w 0 2 == 0) (.vmax h (bit w 3) d a b)
  | 0xA6 => (vreg (fD w)).bind fun d => (vreg (fA w)).bind fun a => (VOpB.dec (bits w 2 1) (fB w)).bind fun b =>
      req (fC w == 0 && bits w 3 17 == 0 && bits w 0 2 == 0) (.vand h d a b)
  | 0xA7 => (vreg (fD w)).bind fun d => (vreg (fA w)).bind fun a => (VOpB.dec (bits w 2 1) (fB w)).bind fun b =>
      req (fC w == 0 && bits w 3 17 == 0 && bits w 0 2 == 0) (.vor h d a b)
  | 0xA8 => (vreg (fD w)).bind fun d => (vreg (fA w)).bind fun a => (VOpB.dec (bits w 2 1) (fB w)).bind fun b =>
      req (fC w == 0 && bits w 3 17 == 0 && bits w 0 2 == 0) (.vxor h d a b)
  | 0xA9 => (vreg (fD w)).bind fun d => (vreg (fA w)).bind fun a => (VOpB.dec (bits w 2 1) (fB w)).bind fun b =>
      req (fC w == 0 && bits w 3 17 == 0 && bits w 0 2 == 0) (.vshl h d a b)
  | 0xAA => (vreg (fD w)).bind fun d => (vreg (fA w)).bind fun a => (VOpB.dec (bits w 2 1) (fB w)).bind fun b =>
      req (fC w == 0 && bits w 3 17 == 0 && bits w 0 2 == 0) (.vshr h d a b)
  | 0xAB => (vreg (fD w)).bind fun d => (vreg (fA w)).bind fun a => (VOpB.dec (bits w 2 1) (fB w)).bind fun b =>
      req (fC w == 0 && bits w 3 17 == 0 && bits w 0 2 == 0) (.vsar h d a b)
  | 0xAC => (vreg (fD w)).bind fun d => (vreg (fA w)).bind fun a => (VOpB.dec (bits w 2 1) (fB w)).bind fun b =>
      (LType.dec (bits w 0 2)).bind fun lt => req (fC w == 0 && bits w 3 17 == 0) (.vfadd h lt d a b)
  | 0xAD => (vreg (fD w)).bind fun d => (vreg (fA w)).bind fun a => (VOpB.dec (bits w 2 1) (fB w)).bind fun b =>
      (LType.dec (bits w 0 2)).bind fun lt => req (fC w == 0 && bits w 3 17 == 0) (.vfsub h lt d a b)
  | 0xAE => (vreg (fD w)).bind fun d => (vreg (fA w)).bind fun a => (VOpB.dec (bits w 2 1) (fB w)).bind fun b =>
      (LType.dec (bits w 0 2)).bind fun lt => req (fC w == 0 && bits w 3 17 == 0) (.vfmul h lt d a b)
  | 0xAF => (vreg (fD w)).bind fun d => (vreg (fA w)).bind fun a => (VOpB.dec (bits w 2 1) (fB w)).bind fun b =>
      (vreg (fC w)).bind fun c => (LType.dec (bits w 0 2)).bind fun lt => req (bits w 3 17 == 0) (.vfma h lt d a b c)
  | 0xB0 => (vreg (fD w)).bind fun d => (vreg (fA w)).bind fun a => (VOpB.dec (bits w 2 1) (fB w)).bind fun b =>
      (LType.dec (bits w 0 2)).bind fun lt => req (fC w == 0 && bits w 4 16 == 0) (.vfmin h (bit w 3) lt d a b)
  | 0xB1 => (vreg (fD w)).bind fun d => (vreg (fA w)).bind fun a => (VOpB.dec (bits w 2 1) (fB w)).bind fun b =>
      (LType.dec (bits w 0 2)).bind fun lt => req (fC w == 0 && bits w 4 16 == 0) (.vfmax h (bit w 3) lt d a b)
  | 0xB2 => (vreg (fD w)).bind fun d => (vreg (fA w)).bind fun a => (VOpB.dec (bits w 2 1) (fB w)).bind fun b =>
      (LType.dec (bits w 0 2)).bind fun lt => req (fC w == 0 && bits w 3 17 == 0) (.vfdiv h lt d a b)
  | 0xB3 => (vreg (fD w)).bind fun d => (vreg (fA w)).bind fun a => (LType.dec (bits w 0 2)).bind fun lt =>
      req (fB w == 0 && fC w == 0 && bits w 2 18 == 0) (.vfsqrt h lt d a)
  | 0xB4 => (vreg (fD w)).bind fun d => (vreg (fA w)).bind fun a => (LType.dec (bits w 0 2)).bind fun lt =>
      req (fB w == 0 && fC w == 0 && bits w 2 18 == 0) (.vfexp2 h lt d a)
  | 0xB5 => (vreg (fD w)).bind fun d => (vreg (fA w)).bind fun a => (LType.dec (bits w 0 2)).bind fun lt =>
      req (fB w == 0 && fC w == 0 && bits w 2 18 == 0) (.vfrcp h lt d a)
  | 0xB6 => (vreg (fD w)).bind fun d => (vreg (fA w)).bind fun a => (LType.dec (bits w 0 2)).bind fun lt =>
      req (fB w == 0 && fC w == 0 && bits w 2 18 == 0) (.vfrsq h lt d a)
  | 0xB7 => (vreg (fA w)).bind fun a => (VOpB.dec (bits w 2 1) (fB w)).bind fun b =>
      (VCmpOp.dec (bits w 4 4) (bits w 3 1) (bits w 0 2)).bind fun op =>
      req (fC w == 0 && bits w 8 12 == 0) (.vcmp h op (fD w) a b)
  | 0xB8 => (vreg (fD w)).bind fun d => (vreg (fA w)).bind fun a =>
      (CvtSide.dec (bits w 7 4) (bits w 17 1)).bind fun tgt => (CvtSide.dec (bits w 3 4) (bits w 16 1)).bind fun fr =>
      (decRm (bits w 12 1) (bits w 13 3)).bind fun rm =>
      req (fB w == 0 && fC w == 0 && bits w 18 2 == 0 && bits w 0 3 == 0 &&
        (Instr.vcvt h tgt fr (bit w 11) rm d a).fieldsOk) (.vcvt h tgt fr (bit w 11) rm d a)
  | 0xB9 => (vreg (fD w)).bind fun d => (vreg (fA w)).bind fun a => (RedOp.dec (bits w 3 3) (bits w 0 2)).bind fun op =>
      req (fB w == 0 && fC w == 0 && bits w 6 14 == 0 && bits w 2 1 == 0) (.vred h op d a)
  | 0xBA => (vreg (fD w)).bind fun d => (vreg (fA w)).bind fun a => (VOpB.dec (bits w 2 1) (fB w)).bind fun b =>
      req (fC w == 0 && bits w 4 16 == 0 && bits w 0 2 == 0) (.vperm h (bit w 3) d a b)
  | 0xBB => (vreg (fD w)).bind fun d => req (fB w == 0 && fC w == 0 && fFn w == 0) (.vsplat h d (fA w))
  | 0xBC => (vreg (fA w)).bind fun a => req (fC w == 0 && bits w 10 10 == 0 && bits w 0 3 == 0)
      (.vext h (bit w 3) (bits w 4 6) (fD w) a (fB w))
  | 0xBD => (vreg (fD w)).bind fun d => (vreg (fA w)).bind fun a => (HadN.dec (bits w 3 2)).bind fun n =>
      (LType.dec (bits w 0 2)).bind fun lt =>
      req (fB w == 0 && fC w == 0 && bits w 6 14 == 0 && bits w 2 1 == 0) (.vhad h n (bit w 5) lt d a)
  | 0xBE => (vreg (fD w)).bind fun d => (vreg (fA w)).bind fun a => (VOpB.dec (bits w 2 1) (fB w)).bind fun b =>
      req (bits w 3 17 == 0 && bits w 0 2 == 0) (.vsel h d a b (fC w))
  | 0xBF => (vreg (fD w)).bind fun d => req (fC w == 0 && fFn w == 0) (.viota h d (fA w) (fB w))
  | _ => none

/-- The words of opcodes 0xC0-0xDF but those of formats X and H; none where a field is reserved. -/
def decodeClass6 (opc : Nat) (h : Hdr) (w : Word) : Option Instr :=
  match opc with
  | 0xC0 => (Slice.dec (fSel w) (fXs w) (fXimm w)).bind fun sl => 
      req (fTa w == 0 && fTb w == 0 && fAcc w == 0 && bits w 0 15 == 0 && sl == .whole) (.tcfg h (fReg w))
  | 0xC1 => (Slice.dec (fSel w) (fXs w) (fXimm w)).bind fun sl => (decOptReg (bits w 0 1) (fReg w)).bind fun t =>
      req (fTb w == 0 && fAcc w == 0 && bits w 1 14 == 0 && (t.isNone || sl.notCol)) (.tzero h (fTa w) sl t)
  | 0xC2 => (Slice.dec (fSel w) (fXs w) (fXimm w)).bind fun sl => (vreg (fReg w)).bind fun r =>
      req (fTb w == 0 && fAcc w == 0 && bits w 3 12 == 0 && sl.notWhole && (!bit w 2 || sl.notCol))
        (.tmovv h (fTa w) sl r (bit w 0) (bit w 1) (bit w 2))
  | 0xC3 => (Slice.dec (fSel w) (fXs w) (fXimm w)).bind fun sl => 
      req (fAcc w == 0 && fReg w == 0 && bits w 0 15 == 0 && sl == .whole) (.tmovt h (fTa w) (fTb w))
  | 0xC4 => (Slice.dec (fSel w) (fXs w) (fXimm w)).bind fun sl => 
      req (fAcc w == 0 && fReg w == 0 && bits w 0 15 == 0) (.tcopy h (fTa w) (fTb w) sl)
  | 0xC5 => (Slice.dec (fSel w) (fXs w) (fXimm w)).bind fun sl => 
      req (fAcc w == 0 && fReg w == 0 && bits w 0 15 == 0 && sl.notCol) (.tdec h (fTa w) (fTb w) sl)
  | 0xC6 => (Slice.dec (fSel w) (fXs w) (fXimm w)).bind fun sl => 
      req (fAcc w == 0 && bits w 1 14 == 0 && sl.notCol) (.tenc h (fTa w) (fTb w) sl (fReg w) (bit w 0))
  | 0xC7 => (Slice.dec (fSel w) (fXs w) (fXimm w)).bind fun sl => 
      req (fReg w == 0 && bits w 6 9 == 0 && sl == .whole) (.mma h (fTa w) (fTb w) (fAcc w) (bit w 0) (bit w 1) (bit w 2) (bit w 3) (bit w 4) (bit w 5))
  | 0xC8 => (Slice.dec (fSel w) (fXs w) (fXimm w)).bind fun sl => 
      req (fTb w == 0 && fAcc w == 0 && bits w 14 1 == 0 && bits w 0 7 == 0 && sl == .whole)
        (.mpt h (fTa w) (fReg w) (bits w 7 7))
  | 0xC9 => (Slice.dec (fSel w) (fXs w) (fXimm w)).bind fun sl => 
      req (fTb w == 0 && fReg w == 0 && bits w 1 14 == 0 && sl == .whole) (.mga h (fTa w) (fAcc w) (bit w 0))
  | 0xCA => (Slice.dec (fSel w) (fXs w) (fXimm w)).bind fun sl => (HadN.dec (bits w 0 2)).bind fun n => 
      req (fAcc w == 0 && fReg w == 0 && bits w 3 12 == 0 && sl.notCol) (.mhad h (fTa w) (fTb w) sl n (bit w 2))
  | 0xCB => (Slice.dec (fSel w) (fXs w) (fXimm w)).bind fun sl => 
      req (fTa w == 0 && fTb w == 0 && fReg w == 0 && bits w 1 14 == 0) (.azero h (fAcc w) sl (bit w 0))
  | 0xCC => (Slice.dec (fSel w) (fXs w) (fXimm w)).bind fun sl => (vreg (fReg w)).bind fun r => 
      req (fTa w == 0 && fTb w == 0 && bits w 2 13 == 0 && bits w 0 1 == 0 && sl.notWhole) (.amovv h (fAcc w) sl r (bit w 1))
  | 0xCD => (Slice.dec (fSel w) (fXs w) (fXimm w)).bind fun sl => (vreg (fReg w)).bind fun r => 
      req (fTa w == 0 && fTb w == 0 && bits w 4 11 == 0 && bits w 0 1 == 0 && sl.notWhole) (.awrv h (fAcc w) sl r (bit w 1) (bit w 2) (bit w 3))
  | 0xCE => (Slice.dec (fSel w) (fXs w) (fXimm w)).bind fun sl => 
      req (fTb w == 0 && bits w 4 11 == 0 && sl.notCol) (.acvt h (fTa w) (fAcc w) sl (fReg w) (bit w 0) (bit w 1) (bit w 2) (bit w 3))
  | 0xCF => (Slice.dec (fSel w) (fXs w) (fXimm w)).bind fun sl => 
      req (fTa w == 0 && fTb w == 0 && bits w 0 15 == 0) (.ascl h (fAcc w) sl (fReg w))
  | 0xD0 => (Slice.dec (fSel w) (fXs w) (fXimm w)).bind fun sl => (vreg (fReg w)).bind fun r => 
      req (fTa w == 0 && fTb w == 0 && bits w 4 11 == 0 && bits w 0 3 == 0) (.abmax h (fAcc w) sl r (bit w 3))
  | 0xD1 => (Slice.dec (fSel w) (fXs w) (fXimm w)).bind fun sl => 
      req (fTa w == 0 && fTb w == 0 && fReg w == 0 && bits w 0 15 == 0) (.rzero h (fAcc w) sl)
  | 0xD2 => (Slice.dec (fSel w) (fXs w) (fXimm w)).bind fun sl => (vreg (fReg w)).bind fun r => 
      req (fTa w == 0 && fTb w == 0 && bits w 2 13 == 0 && sl.notWhole) (.rmovv h (fAcc w) sl r (bit w 0) (bit w 1))
  | 0xD3 => (RMode.dec (bits w 0 3)).bind fun m => (decOptReg (bits w 3 1) (fA w)).bind fun l =>
      req (fD w == 0 && bits w 4 28 == 0) (.mmode h m l)
  | 0xD4 => req (bits w 12 20 == 0 && cbidOk (bits w 0 12)) (.cbld h (fD w) (fA w) (bits w 0 12))
  | 0xD5 => req (bits w 12 20 == 0 && cbidOk (bits w 0 12)) (.cbrev h (fD w) (fA w) (bits w 0 12))
  | 0xD6 => req (bits w 12 20 == 0 && cbidOk (bits w 0 12)) (.cbfloor h (fD w) (fA w) (bits w 0 12))
  | 0xD7 => (vreg (fD w)).bind fun d => (vreg (fA w)).bind fun a =>
      req (fC w == 0 && bits w 1 19 == 0) (.cbenc h (bit w 0) d a (fB w))
  | 0xD8 => (vreg (fD w)).bind fun d => (vreg (fA w)).bind fun a =>
      req (fC w == 0 && bits w 1 19 == 0) (.cbdec h (bit w 0) d a (fB w))
  | 0xD9 => req (bits w 12 20 == 0 && cbidOk (bits w 0 12)) (.cbstat h (fD w) (fA w) (bits w 0 12))
  | 0xDA => req (bits w 12 20 == 0 && cbidOk (bits w 0 12)) (.cbpin h (fD w) (fA w) (bits w 0 12))
  | _ => none

/-- The words of opcodes 0xE0-0xFF but those of formats X and H; none where a field is reserved. A field that an opcode uses in some of its
operations only is not reserved in the others: a of TIMEADJ query, a of WDOG off and query (DESIGN CHOICE, log 88). -/
def decodeClass7 (opc : Nat) (h : Hdr) (w : Word) : Option Instr :=
  match opc with
  | 0xE1 => req (fA w == 0 && fB w == 0 && fC w == 0 && bits w 4 16 == 0) (.collst h (fD w) (bit w 3) (bits w 0 3))
  | 0xE2 => req (fA w == 0 && fB w == 0 && fC w == 0 && bits w 3 17 == 0) (.collab h (fD w) (bits w 0 3))
  | 0xE3 => (LdSize.dec (fSz w)).bind fun sz => some (.fxr h sz (fSc w) (fD w) (fA w) (fB w) (fOff w))
  | 0xE4 => (StSize.dec (fSz w)).bind fun sz => some (.fxw h sz (fSc w) (fD w) (fA w) (fB w) (fOff w))
  | 0xE5 => (AmoSize.dec (fSz w)).bind fun sz => (AmoOp.dec (fAmo w)).bind fun op =>
      req (op ≠ .cas || evenReg (fD w)) (.fxamo h op sz (fSc w) (fD w) (fA w) (fB w) (fOff16 w))
  | 0xE6 => req (fSz w == 0) (.fxsig h (fSc w) (fD w) (fA w) (fB w) (fOff w))
  | 0xE7 => if fB w == 0 && fC w == 0 && bits w 2 18 == 0 then
      (match (bits w 0 2).toNat with | 0 => some (.chainOpen h (fD w) (fA w)) | 1 => some (.chainClose h (fD w) (fA w)) | 2 => some (.chainQuery h (fD w) (fA w)) | _ => none) else none
  | 0xE8 => req (fB w == 0 && fC w == 0 && fFn w == 0) (.demote h (fD w) (fA w))
  | 0xE9 => if fB w == 0 && fC w == 0 && bits w 2 18 == 0 then
      (match (bits w 0 2).toNat with | 0 => some (.keyopGen h (fD w) (fA w)) | 1 => some (.keyopDestroy h (fD w) (fA w)) | 2 => some (.keyopQuery h (fD w) (fA w)) | _ => none) else none
  | 0xEA => (SysReg.dec (bits w 0 12)).bind fun r => req (fA w == 0 && bits w 12 20 == 0) (.sysr h (fD w) r)
  | 0xEB => (SysReg.dec (bits w 0 12)).bind fun r => if bits w 12 20 == 0 && r.writable then
      some (match r with | .hmask n => .syswHmask h (fD w) (fA w) n | r => .sysw h (fD w) (fA w) r) else none
  | 0xEC => req (fC w == 0 && bits w 15 5 == 0) (.hostsig h (fD w) (fA w) (fB w) (bits w 0 15))
  | 0xED => if fB w == 0 && fC w == 0 && bits w 2 18 == 0 then
      (match (bits w 0 2).toNat with | 0 => some (.timeadjStep h (fD w) (fA w)) | 1 => some (.timeadjRate h (fD w) (fA w)) | 2 => some (.timeadjQuery h (fD w) (fA w)) | _ => none) else none
  | 0xEE => req (fC w == 0 && bits w 16 4 == 0) (.trace h (fD w) (fA w) (fB w) (fOff16 w))
  | 0xEF => req (fC w == 0 && fFn w == 0) (.monsnap h (fD w) (fA w) (fB w))
  | 0xF0 => if fB w == 0 && fC w == 0 && bits w 2 18 == 0 then
      (match (bits w 0 2).toNat with | 0 => some (.wdogArm h (fD w) (fA w)) | 1 => some (.wdogOff h (fD w) (fA w)) | 2 => some (.wdogQuery h (fD w) (fA w)) | _ => none) else none
  | 0xF1 => req (fB w == 0 && fC w == 0 && fFn w == 0) (.sparemap h (fD w) (fA w))
  | 0xF2 => req (fC w == 0 && bits w 4 16 == 0 && (bits w 0 3).toNat < 3) (.eccinj h (fD w) (fA w) (fB w) (bits w 0 3) (bit w 3))
  | 0xF3 => req (fB w == 0 && fC w == 0 && bits w 1 19 == 0) (.eccst h (fD w) (fA w) (bit w 0))
  | _ => none

/-- The words of formats X and H, whose failures have the reasons 0x03 or 0x04 in the order of 02 R63. -/
def decodeXH (opc : Nat) (h : Hdr) (w : Word) : Except Byte Instr :=
  if opc = 0x09 ∨ opc = 0x0A then
    if opc = 0x09 ∧ fD w ≠ 0 then .error 4
    else if bit (fFrom w) 4 || bit (fTo w) 4 then .error 3
    else if (opc = 0x0A ∧ fN w ≠ 0) ∨ fHRes w ≠ 0 then .error 4
    else if fTo w = fFrom w then .error 4
    else if opc = 0x09 then
      if fRole w ≠ fFrom w then .error 4 else .ok (.hand h (bits (fFrom w) 0 4) (bits (fTo w) 0 4) (fN w))
    else .ok (.htest h (fD w) (bits (fFrom w) 0 4) (bits (fTo w) 0 4))
  else if fXLow w ≠ 0 then .error 4
  else match opc with
  | 0x1F => if bits w 6 26 ≠ 0 then .error 4 else .ok (.launch h (fD w) (fXHi w) (bits w 0 6))
  | 0xE0 => match decNr (fNr w) with
    | none => .error 3
    | some nr => match CollOp.dec (bits w 0 2) (bits w 2 2) with
      | none => .error 4
      | some op =>
        if fXT w == 0 && fXW w == 0 && bits w 8 13 == 0 && (Instr.coll h (fD w) (fXHi w) nr op (bit w 4) (bits w 5 3)).fieldsOk then
          .ok (.coll h (fD w) (fXHi w) nr op (bit w 4) (bits w 5 3)) else .error 4
  | 0x96 => if fD w ≠ 0 then .error 4 else match Scope.dec (bits w 18 3) with
    | none => .error 4
    | some sc => if fNr w == 0 && fXT w == 0 && bits w 0 18 == 0 then .ok (.wopen h (fXHi w) (fXW w) sc) else .error 4
  | _ => if fD w ≠ 0 then .error 4 else match decNr (fNr w) with
    | none => .error 3
    | some nr => match Scope.dec (bits w 18 3) with
      | none => .error 4
      | some sc => match opc with
        | 0x94 => if fXW w == 0 && bits w 15 3 == 0 && (Instr.tld h 0 nr 0 sc (bits w 8 7) (bit w 7) (bits w 0 7)).fieldsOk then
            .ok (.tld h (fXHi w) nr (fXT w) sc (bits w 8 7) (bit w 7) (bits w 0 7)) else .error 4
        | 0x95 => if fXW w == 0 && bits w 15 3 == 0 && (Instr.tst h 0 nr 0 sc (bits w 8 7) (bit w 7) (bits w 0 7)).fieldsOk then
            .ok (.tst h (fXHi w) nr (fXT w) sc (bits w 8 7) (bit w 7) (bits w 0 7)) else .error 4
        | 0x9A => if fXT w == 0 && fXW w == 0 && bits w 14 4 == 0 then
            .ok (.cpy h (fXHi w) nr sc (bit w 13) (bits w 0 13)) else .error 4
        | _ => if fXT w == 0 && fXW w == 0 && bits w 13 5 == 0 then
            .ok (.cpyz h (fXHi w) nr sc (bits w 0 13)) else .error 4

/-- Is the opcode one of the 224 assigned values (02 R59)? -/
def assigned (opc : Nat) : Bool :=
  opc ≤ 0x5A || (0x60 ≤ opc && opc ≤ 0x78) || (0x80 ≤ opc && opc ≤ 0x9C) || (0xA0 ≤ opc && opc ≤ 0xDA) ||
  (0xE0 ≤ opc && opc ≤ 0xF3)

/-- Is the opcode of format X or H (02 R59)? -/
def isXH (opc : Nat) : Bool :=
  opc == 0x09 || opc == 0x0A || opc == 0x1F || opc == 0x94 || opc == 0x95 || opc == 0x96 || opc == 0x9A || opc == 0x9B ||
  opc == 0xE0

/-- The fields of a word whose opcode is assigned. -/
def decodeFields (w : Word) : Except Byte Instr :=
  let opc := (fOpc w).toNat
  if isXH opc then decodeXH opc (fHdr w) w
  else
    match (match opc / 32 with
      | 0 => decodeClass0 opc (fHdr w) w | 1 => decodeClass1 opc (fHdr w) w
      | 2 => decodeClass2 opc (fHdr w) w | 3 => decodeClass3 opc (fHdr w) w
      | 4 => decodeClass4 opc (fHdr w) w | 5 => decodeClass5 opc (fHdr w) w
      | 6 => decodeClass6 opc (fHdr w) w | _ => decodeClass7 opc (fHdr w) w) with
    | some i => .ok i
    | none => .error 4

/-- Why a word is refused: an unassigned opcode, or ILLENC with its reason (02 R65). -/
inductive BadWord where | illop (opc : Byte) | illenc (reason : Byte)
  deriving DecidableEq, Repr

/-- Decoding one word on its own: role code, opcode, fields, in the order of 02 R63. The checks against the block (rmask,
REP target, kind) are made in Machine/Fetch.lean. -/
def decodeWord (w : Word) : Except BadWord Instr :=
  if !(fHdr w).wf then .error (.illenc 3)
  else if !assigned (fOpc w).toNat then .error (.illop (fOpc w))
  else match decodeFields w with
    | .ok i => .ok i
    | .error r => .error (.illenc r)

/-- The host's probe: a table row of `nbits` bits, bit 0 the least significant bit of the word. -/
def decodeTableWord (nbits w : Nat) : Option Instr :=
  if nbits ≤ 64 then
    match decodeWord (BitVec.ofNat 64 (w % 2 ^ nbits)) with
    | .ok i => some i
    | .error _ => none
  else none

/-! ## Encoding -/

def packR (h : Hdr) (opc : BitVec 8) (d a b c : BitVec 6) (fn : BitVec 20) : Word :=
  h.role ++ opc ++ h.g ++ BitVec.ofBool h.gn ++ d ++ a ++ b ++ c ++ fn
def packI (h : Hdr) (opc : BitVec 8) (d a : BitVec 6) (imm : BitVec 32) : Word :=
  h.role ++ opc ++ h.g ++ BitVec.ofBool h.gn ++ d ++ a ++ imm
def packM (h : Hdr) (opc : BitVec 8) (d a b : BitVec 6) (sc sz : BitVec 3) (off : BitVec 20) : Word :=
  h.role ++ opc ++ h.g ++ BitVec.ofBool h.gn ++ d ++ a ++ b ++ sc ++ sz ++ off
def packB (h : Hdr) (opc : BitVec 8) (d a : BitVec 6) (slot : BitVec 3) (boff : BitVec 20) : Word :=
  h.role ++ opc ++ h.g ++ BitVec.ofBool h.gn ++ d ++ a ++ (0#9) ++ slot ++ boff
def packT (h : Hdr) (opc : BitVec 8) (ta tb : BitVec 3) (acc : BitVec 2) (reg : BitVec 6)
    (sl : BitVec 2 × BitVec 6 × BitVec 7) (fn : BitVec 15) : Word :=
  h.role ++ opc ++ h.g ++ BitVec.ofBool h.gn ++ ta ++ tb ++ acc ++ reg ++ sl.1 ++ sl.2.1 ++ sl.2.2 ++ fn
def packX (h : Hdr) (opc : BitVec 8) (d : BitVec 6) (x : BitVec 3) (nr : BitVec 5) (t w : BitVec 3) (fn : BitVec 21) : Word :=
  h.role ++ opc ++ h.g ++ BitVec.ofBool h.gn ++ d ++ x ++ (0#3) ++ nr ++ t ++ w ++ fn
def packH (h : Hdr) (opc : BitVec 8) (d : BitVec 6) (frm tgt : BitVec 4) (n : BitVec 4) : Word :=
  h.role ++ opc ++ h.g ++ BitVec.ofBool h.gn ++ d ++ (0#1) ++ frm ++ (0#1) ++ tgt ++ n ++ (0#24)

/-- A v register in a 6-bit field. -/
def vf (r : VReg) : BitVec 6 := (0#1) ++ r
/-- A tag in a 6-bit field. -/
def tf (t : BitVec 3) : BitVec 6 := (0#3) ++ t
def b1 (x : Bool) : BitVec 1 := BitVec.ofBool x

/-- The word of an instruction, laid out by the encoding tables of the manual. An event has none (the value 0 is never
used: `encode` is read only for well-formed words). -/
def encode : Instr → Word
  | .nop h => packR h 0x00 0 0 0 0 0
  | .halt h => packR h 0x01 0 0 0 0 0
  | .br h slot boff => packB h 0x02 0 0 slot boff
  | .jmp h a slot boff => packB h 0x03 0 a slot boff
  | .call h d slot boff => packB h 0x04 d 0 slot boff
  | .callr h d a => packR h 0x05 d a 0 0 0
  | .ret h a => packR h 0x06 0 a 0 0 0
  | .loop h d a slot boff => packB h 0x07 d a slot boff
  | .rep h n id ia ib ic => packR h 0x08 n 0 0 0 (id ++ ia ++ ib ++ ic ++ (0#8))
  | .hand h frm tgt n => packH h 0x09 0 frm tgt n
  | .htest h d frm tgt => packH h 0x0A d frm tgt 0
  | .bar h d m ring off => packI h 0x0B d m.enc.2 ((0#16) ++ ring ++ (0#2) ++ m.enc.1 ++ off)
  | .barb h k => packI h 0x0C 0 0 ((0#28) ++ k)
  | .marm h a b sc off => packM h 0x0D 0 a b sc.enc 0 off
  | .mwait h d tgt => packI h 0x0E d (encOptReg tgt).2 ((0#31) ++ (encOptReg tgt).1)
  | .wakeat h a => packR h 0x0F 0 a 0 0 0
  | .time h d => packR h 0x10 d 0 0 0 0
  | .cycle h d => packR h 0x11 d 0 0 0 0
  | .csrr h d csr => packI h 0x12 d 0 ((0#20) ++ csr.enc)
  | .csrw h d a csr => packI h 0x13 d a ((0#20) ++ csr.enc)
  | .csrs h d a csr => packI h 0x14 d a ((0#20) ++ csr.enc)
  | .csrc h d a csr => packI h 0x15 d a ((0#20) ++ csr.enc)
  | .trap h a code => packI h 0x16 0 a ((0#16) ++ code)
  | .sysc h a code => packI h 0x17 0 a ((0#16) ++ code)
  | .rft h => packR h 0x18 0 0 0 0 0
  | .fence h acq rel sc => packR h 0x19 0 0 0 0 ((0#15) ++ b1 acq ++ b1 rel ++ sc.enc)
  | .yield h a => packR h 0x1A 0 a 0 0 0
  | .moncfg h d a b => packR h 0x1B d a b 0 0
  | .monrd h d a b => packR h 0x1C d a b 0 0
  | .tlbinvPage h d a b => packR h 0x1D d a b 0 0
  | .tlbinvAsid h d a b => packR h 0x1D d a b 0 1
  | .tlbinvAll h d a b => packR h 0x1D d a b 0 2
  | .pteamoInc h d a b sc off => packM h 0x1E d a b sc.enc 0 ((0#4) ++ off)
  | .pteamoDec h d a b sc off => packM h 0x1E d a b sc.enc 0 ((1#4) ++ off)
  | .pteamoCas h d a b sc off => packM h 0x1E d a b sc.enc 0 ((2#4) ++ off)
  | .pteamoOr h d a b sc off => packM h 0x1E d a b sc.enc 0 ((3#4) ++ off)
  | .pteamoAndn h d a b sc off => packM h 0x1E d a b sc.enc 0 ((4#4) ++ off)
  | .launch h d x q => packX h 0x1F d x 0 0 0 ((0#15) ++ q)
  | .add h d a b => packR h 0x20 d a b 0 0
  | .sub h d a b => packR h 0x21 d a b 0 0
  | .mul h d a b => packR h 0x22 d a b 0 0
  | .mulh h d a b => packR h 0x23 d a b 0 0
  | .mulhu h d a b => packR h 0x24 d a b 0 0
  | .div h d a b => packR h 0x25 d a b 0 0
  | .divu h d a b => packR h 0x26 d a b 0 0
  | .rem h d a b => packR h 0x27 d a b 0 0
  | .remu h d a b => packR h 0x28 d a b 0 0
  | .and h d a b => packR h 0x29 d a b 0 0
  | .or h d a b => packR h 0x2A d a b 0 0
  | .xor h d a b => packR h 0x2B d a b 0 0
  | .andn h d a b => packR h 0x2C d a b 0 0
  | .shl h d a b => packR h 0x2D d a b 0 0
  | .shr h d a b => packR h 0x2E d a b 0 0
  | .sar h d a b => packR h 0x2F d a b 0 0
  | .rol h d a b => packR h 0x30 d a b 0 0
  | .min h d a b => packR h 0x31 d a b 0 0
  | .max h d a b => packR h 0x32 d a b 0 0
  | .minu h d a b => packR h 0x33 d a b 0 0
  | .maxu h d a b => packR h 0x34 d a b 0 0
  | .clz h d a => packR h 0x35 d a 0 0 0
  | .ctz h d a => packR h 0x36 d a 0 0 0
  | .popc h d a => packR h 0x37 d a 0 0 0
  | .bfx h d a sx wid lsb => packR h 0x38 d a 0 0 ((0#7) ++ b1 sx ++ wid ++ lsb)
  | .bfi h d a b wid lsb => packR h 0x39 d a b 0 ((0#8) ++ wid ++ lsb)
  | .sel h d a b c => packR h 0x3A d a b c 0
  | .cmp h d a b cc => packR h 0x3B d.enc.2 a b 0 ((0#15) ++ d.enc.1 ++ cc.enc)
  | .addw h d a b => packR h 0x3C d a b 0 0
  | .subw h d a b => packR h 0x3D d a b 0 0
  | .mulw h d a b => packR h 0x3E d a b 0 0
  | .bswap h d a => packR h 0x3F d a 0 0 0
  | .addi h d a imm => packI h 0x40 d a imm
  | .andi h d a imm => packI h 0x41 d a imm
  | .ori h d a imm => packI h 0x42 d a imm
  | .xori h d a imm => packI h 0x43 d a imm
  | .movhi h d a imm => packI h 0x49 d a imm
  | .muli h d a imm => packI h 0x4B d a imm
  | .mini h d a imm => packI h 0x4C d a imm
  | .maxi h d a imm => packI h 0x4D d a imm
  | .shli h d a n => packI h 0x44 d a ((0#26) ++ n)
  | .shri h d a n => packI h 0x45 d a ((0#26) ++ n)
  | .sari h d a n => packI h 0x46 d a ((0#26) ++ n)
  | .roli h d a n => packI h 0x47 d a ((0#26) ++ n)
  | .movi h d imm => packI h 0x48 d 0 imm
  | .addpc h d imm => packI h 0x4E d 0 imm
  | .cmpi h d a cc val => packI h 0x4A d.enc.2 a (cc.enc ++ d.enc.1 ++ val)
  | .pset h d n => packR h 0x4F d 0 0 0 ((0#13) ++ n)
  | .pand h d a b => packR h 0x50 d a b 0 0
  | .por h d a b => packR h 0x51 d a b 0 0
  | .pxor h d a b => packR h 0x52 d a b 0 0
  | .pandn h d a b => packR h 0x53 d a b 0 0
  | .pany h d a b => packR h 0x56 d a b 0 0
  | .pall h d a b => packR h 0x57 d a b 0 0
  | .pcnt h d a b => packR h 0x58 d a b 0 0
  | .pfirst h d a b => packR h 0x59 d a b 0 0
  | .planes h d a b => packR h 0x5A d a b 0 0
  | .pfrom h d a => packR h 0x54 d a 0 0 0
  | .pto h d a => packR h 0x55 d a 0 0 0
  | .fadd h ty d a b => packR h 0x60 d a b 0 ((0#18) ++ ty.enc)
  | .fsub h ty d a b => packR h 0x61 d a b 0 ((0#18) ++ ty.enc)
  | .fmul h ty d a b => packR h 0x62 d a b 0 ((0#18) ++ ty.enc)
  | .fdiv h ty d a b => packR h 0x66 d a b 0 ((0#18) ++ ty.enc)
  | .fmin h ty d a b => packR h 0x68 d a b 0 ((0#18) ++ ty.enc)
  | .fmax h ty d a b => packR h 0x69 d a b 0 ((0#18) ++ ty.enc)
  | .fminm h ty d a b => packR h 0x6A d a b 0 ((0#18) ++ ty.enc)
  | .fmaxm h ty d a b => packR h 0x6B d a b 0 ((0#18) ++ ty.enc)
  | .fscalb h ty d a b => packR h 0x73 d a b 0 ((0#18) ++ ty.enc)
  | .fma h ty d a b c => packR h 0x63 d a b c ((0#18) ++ ty.enc)
  | .fms h ty d a b c => packR h 0x64 d a b c ((0#18) ++ ty.enc)
  | .fnma h ty d a b c => packR h 0x65 d a b c ((0#18) ++ ty.enc)
  | .fsqrt h ty d a => packR h 0x67 d a 0 0 ((0#18) ++ ty.enc)
  | .fclass h ty d a => packR h 0x6D d a 0 0 ((0#18) ++ ty.enc)
  | .fexp2 h ty d a => packR h 0x74 d a 0 0 ((0#18) ++ ty.enc)
  | .flog2 h ty d a => packR h 0x75 d a 0 0 ((0#18) ++ ty.enc)
  | .frcp h ty d a => packR h 0x76 d a 0 0 ((0#18) ++ ty.enc)
  | .frsq h ty d a => packR h 0x77 d a 0 0 ((0#18) ++ ty.enc)
  | .fcmp h ty d a b cc => packR h 0x6C d.enc.2 a b 0 ((0#7) ++ d.enc.1 ++ cc.enc ++ (0#7) ++ ty.enc)
  | .fcvt h ty ty2 rm d a => packR h 0x6E d a 0 0 ((0#11) ++ (0#1) ++ ty2.enc ++ (encRm rm).1 ++ (encRm rm).2 ++ ty.enc)
  | .fcvti h ty it rm d a => packR h 0x6F d a 0 0 ((0#11) ++ it.enc ++ (encRm rm).1 ++ (encRm rm).2 ++ ty.enc)
  | .icvtf h ty it rm d a => packR h 0x70 d a 0 0 ((0#11) ++ it.enc ++ (encRm rm).1 ++ (encRm rm).2 ++ ty.enc)
  | .fsgn h ty op d a => packR h 0x71 d a op.enc.2 0 ((0#8) ++ op.enc.1 ++ (0#7) ++ ty.enc)
  | .frnd h ty rm d a => packR h 0x72 d a 0 0 ((0#14) ++ (encRm rm).1 ++ (encRm rm).2 ++ ty.enc)
  | .frand h op d => packR h 0x78 d 0 0 0 ((0#8) ++ op.enc.1 ++ (0#7) ++ op.enc.2)
  | .lds h sz sc d a b off => packM h 0x80 d a b sc.enc sz.enc off
  | .sts h sz sc d a b off => packM h 0x81 d a b sc.enc sz.enc off
  | .ldg h sz sc d a b off => packM h 0x82 d a b sc.enc sz.enc off
  | .stg h sz sc d a b off => packM h 0x83 d a b sc.enc sz.enc off
  | .qld h sz sc tag d a off => packM h 0x84 d a (tf tag) sc.enc sz.enc off
  | .qldp h sc tag d a off => packM h 0x85 d a (tf tag) sc.enc 0 off
  | .qst h sz sc tag d a off => packM h 0x86 d a (tf tag) sc.enc sz.enc off
  | .qwait h none => packR h 0x87 0 0 0 0 8
  | .qwait h (some tag) => packR h 0x87 0 0 0 0 ((0#17) ++ tag)
  | .qpop h d => packR h 0x88 d 0 0 0 0
  | .samo h op sz sc d a b off => packM h 0x89 d a b sc.enc sz.enc (op.enc ++ off)
  | .samof h op sz sc d a b off => packM h 0x8A d a b sc.enc sz.enc (op.enc ++ off)
  | .gamo h op sz tag d a b off => packM h 0x8B d a b tag sz.enc (op.enc ++ off)
  | .gamof h op sz tag d a b off => packM h 0x8C d a b tag sz.enc (op.enc ++ off)
  | .ldv h sz sc d a b off => packM h 0x8D (vf d) a b sc.enc sz.enc off
  | .stv h sz sc d a b off => packM h 0x8E (vf d) a b sc.enc sz.enc off
  | .vgath h sz sc d a b off => packM h 0x8F (vf d) a (vf b) sc.enc sz.enc off
  | .vscat h sz sc d a b off => packM h 0x90 (vf d) a (vf b) sc.enc sz.enc off
  | .clean h sz sc a b off => packM h 0x91 0 a b sc.enc sz.enc off
  | .inval h sz sc a b off => packM h 0x92 0 a b sc.enc sz.enc off
  | .pfetch h sc a b off => packM h 0x93 0 a b sc.enc 0 off
  | .tld h x nr t sc trow tr n => packX h 0x94 0 x (encNr nr) t 0 (sc.enc ++ (0#3) ++ trow ++ b1 tr ++ n)
  | .tst h x nr t sc trow tr n => packX h 0x95 0 x (encNr nr) t 0 (sc.enc ++ (0#3) ++ trow ++ b1 tr ++ n)
  | .wopen h x w sc => packX h 0x96 0 x 0 0 w (sc.enc ++ (0#18))
  | .wadv h a w => packR h 0x97 0 a 0 0 ((0#17) ++ w)
  | .wclose h w => packR h 0x98 0 0 0 0 ((0#17) ++ w)
  | .wrow h d a w => packR h 0x99 d a 0 0 ((0#17) ++ w)
  | .cpy h x nr sc out n => packX h 0x9A 0 x (encNr nr) 0 0 (sc.enc ++ (0#4) ++ b1 out ++ n)
  | .cpyz h x nr sc n => packX h 0x9B 0 x (encNr nr) 0 0 (sc.enc ++ (0#5) ++ n)
  | .cpyst h d wait => packR h 0x9C d 0 0 0 ((0#19) ++ b1 wait)
  | .vadd h d a b => packR h 0xA0 (vf d) (vf a) b.enc.2 0 ((0#17) ++ b.enc.1 ++ (0#2))
  | .vsub h d a b => packR h 0xA1 (vf d) (vf a) b.enc.2 0 ((0#17) ++ b.enc.1 ++ (0#2))
  | .vmul h d a b => packR h 0xA2 (vf d) (vf a) b.enc.2 0 ((0#17) ++ b.enc.1 ++ (0#2))
  | .vand h d a b => packR h 0xA6 (vf d) (vf a) b.enc.2 0 ((0#17) ++ b.enc.1 ++ (0#2))
  | .vor h d a b => packR h 0xA7 (vf d) (vf a) b.enc.2 0 ((0#17) ++ b.enc.1 ++ (0#2))
  | .vxor h d a b => packR h 0xA8 (vf d) (vf a) b.enc.2 0 ((0#17) ++ b.enc.1 ++ (0#2))
  | .vshl h d a b => packR h 0xA9 (vf d) (vf a) b.enc.2 0 ((0#17) ++ b.enc.1 ++ (0#2))
  | .vshr h d a b => packR h 0xAA (vf d) (vf a) b.enc.2 0 ((0#17) ++ b.enc.1 ++ (0#2))
  | .vsar h d a b => packR h 0xAB (vf d) (vf a) b.enc.2 0 ((0#17) ++ b.enc.1 ++ (0#2))
  | .vmulh h u d a b => packR h 0xA3 (vf d) (vf a) b.enc.2 0 ((0#16) ++ b1 u ++ b.enc.1 ++ (0#2))
  | .vmin h u d a b => packR h 0xA4 (vf d) (vf a) b.enc.2 0 ((0#16) ++ b1 u ++ b.enc.1 ++ (0#2))
  | .vmax h u d a b => packR h 0xA5 (vf d) (vf a) b.enc.2 0 ((0#16) ++ b1 u ++ b.enc.1 ++ (0#2))
  | .vperm h u d a b => packR h 0xBA (vf d) (vf a) b.enc.2 0 ((0#16) ++ b1 u ++ b.enc.1 ++ (0#2))
  | .vfadd h lt d a b => packR h 0xAC (vf d) (vf a) b.enc.2 0 ((0#17) ++ b.enc.1 ++ lt.enc)
  | .vfsub h lt d a b => packR h 0xAD (vf d) (vf a) b.enc.2 0 ((0#17) ++ b.enc.1 ++ lt.enc)
  | .vfmul h lt d a b => packR h 0xAE (vf d) (vf a) b.enc.2 0 ((0#17) ++ b.enc.1 ++ lt.enc)
  | .vfdiv h lt d a b => packR h 0xB2 (vf d) (vf a) b.enc.2 0 ((0#17) ++ b.enc.1 ++ lt.enc)
  | .vfma h lt d a b c => packR h 0xAF (vf d) (vf a) b.enc.2 (vf c) ((0#17) ++ b.enc.1 ++ lt.enc)
  | .vfmin h u lt d a b => packR h 0xB0 (vf d) (vf a) b.enc.2 0 ((0#16) ++ b1 u ++ b.enc.1 ++ lt.enc)
  | .vfmax h u lt d a b => packR h 0xB1 (vf d) (vf a) b.enc.2 0 ((0#16) ++ b1 u ++ b.enc.1 ++ lt.enc)
  | .vfsqrt h lt d a => packR h 0xB3 (vf d) (vf a) 0 0 ((0#18) ++ lt.enc)
  | .vfexp2 h lt d a => packR h 0xB4 (vf d) (vf a) 0 0 ((0#18) ++ lt.enc)
  | .vfrcp h lt d a => packR h 0xB5 (vf d) (vf a) 0 0 ((0#18) ++ lt.enc)
  | .vfrsq h lt d a => packR h 0xB6 (vf d) (vf a) 0 0 ((0#18) ++ lt.enc)
  | .vcmp h op d a b => packR h 0xB7 d (vf a) b.enc.2 0 ((0#12) ++ op.enc.1 ++ op.enc.2.1 ++ b.enc.1 ++ op.enc.2.2)
  | .vcvt h tgt fr sgn rm d a => packR h 0xB8 (vf d) (vf a) 0 0
      ((0#2) ++ tgt.enc.2 ++ fr.enc.2 ++ (encRm rm).2 ++ (encRm rm).1 ++ b1 sgn ++ tgt.enc.1 ++ fr.enc.1 ++ (0#3))
  | .vred h op d a => packR h 0xB9 (vf d) (vf a) 0 0 ((0#14) ++ op.enc.1 ++ (0#1) ++ op.enc.2)
  | .vsplat h d a => packR h 0xBB (vf d) a 0 0 0
  | .vext h sx k d a b => packR h 0xBC d (vf a) b 0 ((0#10) ++ k ++ b1 sx ++ (0#3))
  | .vhad h n nrm lt d a => packR h 0xBD (vf d) (vf a) 0 0 ((0#14) ++ b1 nrm ++ n.enc ++ (0#1) ++ lt.enc)
  | .vsel h d a b c => packR h 0xBE (vf d) (vf a) b.enc.2 c ((0#17) ++ b.enc.1 ++ (0#2))
  | .viota h d a b => packR h 0xBF (vf d) a b 0 0
  | .tcfg h reg => packT h 0xC0 0 0 0 reg (0, 0, 0) 0
  | .tzero h ta sl tag => packT h 0xC1 ta 0 0 (encOptReg tag).2 sl.enc ((0#14) ++ (encOptReg tag).1)
  | .tmovv h ta sl reg wr hi tag => packT h 0xC2 ta 0 0 (vf reg) sl.enc ((0#12) ++ b1 tag ++ b1 hi ++ b1 wr)
  | .tmovt h ta tb => packT h 0xC3 ta tb 0 0 (0, 0, 0) 0
  | .tcopy h ta tb sl => packT h 0xC4 ta tb 0 0 sl.enc 0
  | .tdec h ta tb sl => packT h 0xC5 ta tb 0 0 sl.enc 0
  | .tenc h ta tb sl reg sc => packT h 0xC6 ta tb 0 reg sl.enc ((0#14) ++ b1 sc)
  | .mma h ta tb acc at' bt sov sa sb clr => packT h 0xC7 ta tb acc 0 (0, 0, 0)
      ((0#9) ++ b1 clr ++ b1 sb ++ b1 sa ++ b1 sov ++ b1 bt ++ b1 at')
  | .mpt h ta reg kb => packT h 0xC8 ta 0 0 reg (0, 0, 0) ((0#1) ++ kb ++ (0#7))
  | .mga h ta acc clr => packT h 0xC9 ta 0 acc 0 (0, 0, 0) ((0#14) ++ b1 clr)
  | .mhad h ta tb sl n nrm => packT h 0xCA ta tb 0 0 sl.enc ((0#12) ++ b1 nrm ++ n.enc)
  | .azero h acc sl res => packT h 0xCB 0 0 acc 0 sl.enc ((0#14) ++ b1 res)
  | .amovv h acc sl reg hi => packT h 0xCC 0 0 acc (vf reg) sl.enc ((0#13) ++ b1 hi ++ (0#1))
  | .awrv h acc sl reg hi add int => packT h 0xCD 0 0 acc (vf reg) sl.enc ((0#11) ++ b1 int ++ b1 add ++ b1 hi ++ (0#1))
  | .acvt h ta acc sl reg tr res sc int => packT h 0xCE ta 0 acc reg sl.enc ((0#11) ++ b1 int ++ b1 sc ++ b1 res ++ b1 tr)
  | .ascl h acc sl reg => packT h 0xCF 0 0 acc reg sl.enc 0
  | .abmax h acc sl reg int => packT h 0xD0 0 0 acc (vf reg) sl.enc ((0#11) ++ b1 int ++ (0#3))
  | .rzero h acc sl => packT h 0xD1 0 0 acc 0 sl.enc 0
  | .rmovv h acc sl reg wr hi => packT h 0xD2 0 0 acc (vf reg) sl.enc ((0#13) ++ b1 hi ++ b1 wr)
  | .mmode h rm ld => packI h 0xD3 0 (encOptReg ld).2 ((0#28) ++ (encOptReg ld).1 ++ rm.enc)
  | .cbld h d a cbid => packI h 0xD4 d a ((0#20) ++ cbid)
  | .cbrev h d a cbid => packI h 0xD5 d a ((0#20) ++ cbid)
  | .cbfloor h d a cbid => packI h 0xD6 d a ((0#20) ++ cbid)
  | .cbstat h d a cbid => packI h 0xD9 d a ((0#20) ++ cbid)
  | .cbpin h d a cbid => packI h 0xDA d a ((0#20) ++ cbid)
  | .cbenc h sc d a b => packR h 0xD7 (vf d) (vf a) b 0 ((0#19) ++ b1 sc)
  | .cbdec h sc d a b => packR h 0xD8 (vf d) (vf a) b 0 ((0#19) ++ b1 sc)
  | .coll h d x nr op cm slot => packX h 0xE0 d x (encNr nr) 0 0 ((0#13) ++ slot ++ b1 cm ++ op.enc.2 ++ op.enc.1)
  | .collst h d wait slot => packR h 0xE1 d 0 0 0 ((0#16) ++ b1 wait ++ slot)
  | .collab h d slot => packR h 0xE2 d 0 0 0 ((0#17) ++ slot)
  | .fxr h sz tag d a b off => packM h 0xE3 d a b tag sz.enc off
  | .fxw h sz tag d a b off => packM h 0xE4 d a b tag sz.enc off
  | .fxamo h op sz tag d a b off => packM h 0xE5 d a b tag sz.enc (op.enc ++ off)
  | .fxsig h tag d a b off => packM h 0xE6 d a b tag 0 off
  | .chainOpen h d a => packR h 0xE7 d a 0 0 0
  | .chainClose h d a => packR h 0xE7 d a 0 0 1
  | .chainQuery h d a => packR h 0xE7 d a 0 0 2
  | .keyopGen h d a => packR h 0xE9 d a 0 0 0
  | .keyopDestroy h d a => packR h 0xE9 d a 0 0 1
  | .keyopQuery h d a => packR h 0xE9 d a 0 0 2
  | .timeadjStep h d a => packR h 0xED d a 0 0 0
  | .timeadjRate h d a => packR h 0xED d a 0 0 1
  | .timeadjQuery h d a => packR h 0xED d a 0 0 2
  | .wdogArm h d a => packR h 0xF0 d a 0 0 0
  | .wdogOff h d a => packR h 0xF0 d a 0 0 1
  | .wdogQuery h d a => packR h 0xF0 d a 0 0 2
  | .demote h d a => packR h 0xE8 d a 0 0 0
  | .sysr h d reg => packI h 0xEA d 0 ((0#20) ++ reg.enc)
  | .syswHmask h d a n => packI h 0xEB d a ((0#20) ++ (SysReg.hmask n).enc)
  | .sysw h d a reg => packI h 0xEB d a ((0#20) ++ reg.enc)
  | .hostsig h d a b code => packR h 0xEC d a b 0 ((0#5) ++ code)
  | .trace h d a b code => packR h 0xEE d a b 0 ((0#4) ++ code)
  | .monsnap h d a b => packR h 0xEF d a b 0 0
  | .sparemap h d a => packR h 0xF1 d a 0 0 0
  | .eccinj h d a b hold dbl => packR h 0xF2 d a b 0 ((0#16) ++ b1 dbl ++ hold)
  | .eccst h d a clr => packR h 0xF3 d a 0 0 ((0#19) ++ b1 clr)
  | .handPop .. | .load | .unload | .hostWrite | .queueMonitorWake | .queueRescan | .takeRecord | .waitCounterRead | .dispatch
  | .placeTeam | .quantumDecision | .swapOut | .swapIn | .preempt | .teamRetire | .icFillComplete | .blockEntry
  | .freezeEnd | .freezeTimeout | .hangDetect | .trapEntry | .queuedReply | .queuedTimeout | .engineCommandStart
  | .engineCommandComplete | .versionMissComplete | .versionMissTimeout | .copyCommandStart | .copyCommandComplete
  | .copyTimeout | .tileStoreCommit | .freeFrameRelease | .wakeatExpiry | .yieldExpiry | .mwaitTimeout
  | .hostKillRequest | .hostSyncRequest | .hostMessagePost | .remoteRequest | .collectiveAbortFlit
  | .collectiveComplete | .powerControlTick | .thermalLimit | .wdogExpiry | .reset | .blockingResultArrival
  | .collectiveFailure | .spareMapChange | .fabricGroupWrite => 0

end Sys2Proof
end

