-- ==== Sys2Proof/Config.lean ====
section
/-! DEFINITION. What the part fixes, and the free values: what the manual leaves open has no body here. -/

namespace Sys2Proof.Config

/-- The part's latency generation (05 R114, R134). -/
def generation : Nat := 1

/-- Clock-enabled or package cycles after which an access with no reply fails: 2^22 (05 R120, 12 R294, 13 R321). -/
def timeoutCycles : Nat := 4194304

/-- The hang count at which HANG is delivered: 2^24 (05 R122). -/
def hangLimit : Nat := 16777216

/-- Entries of the engine queue (10 R228). -/
def engineQueueLen : Nat := 32

/-- Entries of a copy queue (13 R329). -/
def copyQueueLen : Nat := 16

/-- Capture slots of the engine (18 R381). -/
def engineCaptures : Nat := 8

/-- Launch table entries in the package, and at most from one queue (03 R71). -/
def launchTableLen : Nat := 1024
def launchPerQueue : Nat := 64

/-- One arithmetic clock cycle is 20/21 ns (00: 1.05 GHz); package time is kept in units of 1/(21 x 10^12) ns. -/
def subPerNs : Nat := 21000000000000

/-- FREE VALUE, log 2. A 64-bit value the manual leaves open, fresh for each draw. -/
opaque freeWord : Nat → Word

/-- FREE VALUE, log 18. The XTS decryption (11 R256) under key generation `r` for sector `a` when generation `w` encrypted the
plaintext `p` for sector `o`. Used only where the generations or the sectors differ. -/
opaque xtsCross : (w o r a : Nat) → (p : BitVec 128) → BitVec 128

/-- FREE VALUE, log 20. The measured value of a timing event sampled by a monitor (11 R273: DRAM read ns, TLB walk cycles,
codebook version miss ns). -/
opaque monitorValue : Nat → BitVec 32

/-- FREE VALUE, log 19. Which launch slots, ways or rows the factory repaired is not in the manual: the physical unit of a
selector that no spare change has set (22 R421). -/
opaque factoryMap : (kind index : Nat) → Word

/-- FREE VALUE, log 27. A byte that the part itself read with an uncorrectable error (22 R417). -/
opaque eccByte : (use i : Nat) → BitVec 8

/-- FREE VALUE, log 71. The set of a line in a holder whose sets the manual does not map (11 R248, R254; 05 R102): kind 1 cluster cache,
2 L2 slice, 3 memory-side cache, 4 instruction cache. Asked only where a holder has 16 lines or more. -/
opaque cacheSet : (kind line : Nat) → Nat

/-- FREE VALUE, log 78. A byte of a spill-table slot as the part writes it, and what the words of an entry are whose slot software has
written: the table's format is the part's own (17 R367). -/
opaque spillByte : (draw i : Nat) → BitVec 8
opaque spillValue : (bytes : List (BitVec 8)) → (i : Nat) → Word

/-- FREE VALUE, log 55. May a window row lie in a FAR or host page? 11 R263 allows it, 13 R325 traps ATTR. -/
opaque windowFar : Bool

/-- FREE VALUE, log 35. emax of a version whose components are all zero: the manual's floor(log2 of the largest component magnitude)
(01 R22, 09 R203) has no value there. -/
opaque emaxOfZero : (comp : Nat) → BitVec 16

end Sys2Proof.Config
end

