-- ==== Sys2Proof/Machine/State.lean ====
section
/-! DEFINITION. The state of the machine as plain data, the reasons a step can stop, and the state right after reset.
Rules of spec/ that name each field stand beside it; INVENTORY.md lists them all. -/

namespace Sys2Proof.Machine

/-! ## Sparse maps: a list of (key, value) with rising keys and no value equal to the default -/

/-- Data by number: entries in rising order of number; a number that is not listed holds the map's default. -/
abbrev Sparse (α : Type) := List (Nat × α)

/-- A vector register: 64 lanes of 32 bits (00 R7). -/
abbrev Vec := Vector Lane 64

/-! ## Blocking results, requests and commands in flight -/

/-- The files of registers (05 R117). -/
inductive RegFile where | s | p | v
  deriving DecidableEq, Repr

/-- A register. -/
structure Reg where
  file : RegFile
  num  : Nat
  deriving DecidableEq, Repr

/-- A value on its way to a register. -/
inductive RVal where | w (x : Word) | v (x : Vec)
  deriving DecidableEq, Repr

/-- A PTEAMO with its physical address and its operands, as captured at issue (18 R383). -/
structure PteReq where
  instr : Instr
  pa    : Nat
  x     : Word := 0
  y     : Word := 0
  deriving DecidableEq, Repr

/-- What a blocking result comes from (05 R118). A window row is awaited by its number (13 R327); `codebook (i + 1)` has the version
whose first slot is i in use; `floor` waits until no core holds a version of a codebook from stamp `lo` up to below `hi` (09 R219);
`pte` is a PTEAMO that has issued and, until it is done, is still to be performed (18 R384). -/
inductive OpClass where
  | queued (tag : Nat) | engine | system | launch | codebook (k : Nat)
  | row (win gen row : Nat) | floor (cbid lo hi : Nat) | pte (r : PteReq)
  deriving DecidableEq, Repr

/-- An operation of a strand whose result is still to come: its number, the registers that await it, the address of the frame it has been
redirected to (18 R374), and the values once they are known. `done` operations only wait to be delivered. -/
structure Pend where
  id    : Nat
  cls   : OpClass
  dst   : List Reg
  frame : Option Word := none
  vals  : List RVal := []
  flags : BitVec 5 := 0
  done  : Bool := false
  deriving DecidableEq, Repr

/-- A leaf found by a walk (11 R257): its value, where it lies, block or page. -/
structure Leaf where
  pte   : Word
  ptePa : Nat
  block : Bool
  deriving DecidableEq, Repr

/-- A page of an access that has passed its checks: virtual and physical address of its first byte, length, leaf. -/
structure Part where
  va   : Nat
  pa   : Nat
  len  : Nat
  leaf : Leaf
  deriving DecidableEq, Repr

/-- A run of consecutive lanes of a vector access in one line: its address and its lanes (12 R286). -/
structure LaneRun where
  va    : Nat
  lanes : List Nat
  deriving DecidableEq, Repr

/-- What a fixed-latency access that has passed its checks needs to be performed: a scratchpad range, translated parts, or the
runs of its lanes. -/
inductive FixPlan where
  | sp (off n : Nat) | mem (ps : List Part) | lanes (sp : Bool) (n : Nat) (rs : List (LaneRun × List Part))
  deriving DecidableEq, Repr

/-- A fixed-latency memory access with its operands as captured at issue (18 R375, queue 0). `cap` is the first of its access captures,
255 for none; `due` the core-clock instant of its latency. -/
structure FixReq where
  id    : Nat := 0
  instr : Instr
  word  : Word
  pc    : Word
  addr  : Word
  data  : Word := 0
  data2 : Word := 0
  mask  : Word := 0
  vdata : Vec := Vector.replicate 64 0
  voff  : Vec := Vector.replicate 64 0
  rm    : RMode := .rne
  rnd   : Nat := 0
  cap   : Nat := 255
  due   : Nat := 0
  deriving DecidableEq, Repr

/-- A queued request with its operands as captured at issue (12 R289-R298); for another package, its target word and the pkgid and
ASID of the member it names (21 R398-R400). `performed`: its access has been made and
`vals` of its `Pend` hold the data. -/
structure QReq where
  id    : Nat
  instr : Instr
  word  : Word
  pc    : Word
  addr  : Word
  data  : Word := 0
  data2 : Word := 0
  rm    : RMode := .rne
  rnd   : Nat := 0
  target : Word := 0
  member : Option (Nat × Nat) := none
  parts  : List Part := []
  issued : Nat := 0
  performed : Bool := false
  lost  : Bool := false
  deriving DecidableEq, Repr

/-- A reply tag (12 R289): free, or busy with a request. `rank` orders the arrived flags. -/
structure Tag where
  req     : Option QReq := none
  arrived : Bool := false
  rank    : Nat := 0
  deriving DecidableEq, Repr

/-- A codebook directory entry (09 R200). `kind` is 0 free, 1 CBTAB, 2 CBROOT, 3 arithmetic. -/
structure Dir where
  kind : Nat := 0
  d : Nat := 1
  w : Nat := 0
  comp : Nat := 0
  count : Nat := 0
  current : Nat := 0
  floor : Nat := 0
  emax : Int := 0
  slots : Nat := 0
  archive : Nat := 0
  vstride : Nat := 0
  revs : Nat := 0
  deriving DecidableEq, Repr

/-- A CBLD, CBPIN, CBENC or CBDEC that has issued and waits for its version, or with `late` for its slots (09 R208, R209), with what it
captured: operand word, vector, rounding mode, generator. -/
structure CbReq where
  id    : Nat := 0
  instr : Instr
  word  : Word
  pc    : Word
  cbid  : Nat := 0
  stamp : Nat := 0
  dir   : Dir := {}
  data  : Word := 0
  vec   : Vec := Vector.replicate 64 0
  rm    : RMode := .rne
  gen   : Word := 0
  late  : Bool := false
  deriving DecidableEq, Repr

/-- A matrix-engine command with its operands as captured at issue (10 R228, 18 R380). Once it has started: the versions that it needs,
with their entries as it found them, the codebook slots that it has in use, and whether it has acted. -/
structure ECmd where
  id   : Nat
  sid  : Nat
  instr : Instr
  word : Word
  pc   : Word
  sop  : Word := 0
  idx  : Nat := 0
  vcap : Option Vec := none
  need : List (Nat × Nat × Dir) := []
  slots : List Nat := []
  acted : Bool := false
  deriving DecidableEq, Repr

/-- A copy command: TLD, TST, CPY, CPYZ or a window fetch of rows `first` to `last` into window `win` of generation `gen` (13
R329), with its scope. `nr` holds the notify role whose place it reserves. Once it has started: the instant of its start (a tile
store's age, 17 R345) and the cycle; `store`, what a tile store commits; `writes`, what a fetch puts into the ring; `img` and `tagImg`,
the cells and row tags a tile load writes, or those a tile store took and has still to encode with the version of `need`; `parts`, the
rows a band copy has still to move; `lines`, the lines it writes; `slots`, the codebook slots it uses. -/
structure CCmd where
  id   : Nat
  sid  : Nat
  instr : Instr
  word : Word
  pc   : Word
  record : Vector Word 8
  win  : Option Nat := none
  first : Nat := 0
  last : Nat := 0
  gen  : Nat := 0
  scope : Scope := .package
  nr   : Option Nat := none
  started : Nat := 0
  since : Nat := 0
  store : List (Part × List Byte) := []
  writes : List (Nat × Nat × List Byte) := []
  img : List (Nat × Lane) := []
  tagImg : List (Nat × Word) := []
  parts : List (List Part) := []
  lines : List Nat := []
  need : Option (Nat × Nat × Dir) := none
  slots : List Nat := []
  deriving DecidableEq, Repr

/-- The queues of 18 R375 with what is captured for each; `code` is a codebook word, which fails as a queued request does (09 R208). -/
inductive RepBody where
  | fix (r : FixReq) | queued (r : QReq) (tag : Nat) | code (r : CbReq) | engine (c : ECmd) | copy (c : CCmd)
  deriving DecidableEq, Repr

/-- An entry of the in-core replay queue (18 R369, R375): failed with a cause, or not started. -/
structure RepEntry where
  body  : RepBody
  state : Nat
  cause : Nat := 0
  aux   : Word := 0
  addr  : Word := 0
  deriving DecidableEq, Repr

/-! ## A strand -/

/-- Before placement, live, halted (05 R109, R125). -/
inductive Life where | idle | live | halted
  deriving DecidableEq, Repr

/-- What a strand waits for; `stopped` waits count for the hang rule (05 R121). -/
inductive Wait where
  | tight | hand | result | bar | mwait | mwaitTo | halt | queue | notify | spill | fill | vpipe | caps | late
  deriving DecidableEq, Repr

/-- A REP in force: the address of its word and the repetition that is to issue (02 R56-R58, 05 R126). -/
structure Rep where
  addr : Word
  k    : Nat
  deriving DecidableEq, Repr

/-- What a block's check found: the slot of the first bad word (none: the header), and ILLOP or ILLENC with the reason
(02 R63-R65). -/
structure BadBlock where
  slot   : Option Nat
  illop  : Bool
  reason : Byte
  deriving DecidableEq, Repr

/-- A fetch block as it was filled: header, seven words, check result (02 R37, R63; 05 R103). -/
structure Block where
  header : Word
  words  : Vector Word 7
  bad    : Option BadBlock
  deriving DecidableEq, Repr

/-- A BAR arrival awaiting completion: entry, generation (17 R361). -/
structure BarPend where
  entry : Nat
  gen   : BitVec 32
  deriving DecidableEq, Repr

/-- MWAIT in progress: its time-out instant and its destination (17 R365). -/
structure MwaitPend where
  until' : Option Nat
  d      : Nat
  deriving DecidableEq, Repr

/-- What raised a trap (18 R368): cause code, auxiliary word, address. -/
structure TrapInfo where
  cause : Nat
  aux   : Word := 0
  addr  : Word := 0
  deriving DecidableEq, Repr

/-- A strand (00 R7, 05 R134): registers, CSRs, and what it has in flight. Counters are kept as the core-clock instant at which
they are zero (05 R116). `lates` holds the fixed-latency accesses that have issued and are still to be performed, oldest first, `cbs` the codebook words that
wait; `issued`
and `tried` say that the strand has issued a word, or has nothing more to do, in this cycle; `paused`, that it was stopped when its team was
saved and has not come back to its word yet (04 R97). -/
structure Strand where
  life   : Life := .idle
  team   : Option Nat := none
  role   : BitVec 4 := 0
  pc     : Word := 0
  s      : Vector Word 64 := Vector.replicate 64 0
  p      : Vector Word 64 := (Vector.replicate 64 0).set 0 (BitVec.allOnes 64)
  v      : Vector Vec 32 := Vector.replicate 32 (Vector.replicate 64 0)
  sDue   : Vector Nat 64 := Vector.replicate 64 0
  pDue   : Vector Nat 64 := Vector.replicate 64 0
  vDue   : Vector Nat 32 := Vector.replicate 32 0
  ops    : List Pend := []
  flagQ  : List (Nat × BitVec 5) := []
  fpctl  : Word := 0
  srstate : Word := 0
  carbase : BitVec 8 := 0
  cardepth : BitVec 5 := 1
  utrapvec : Word := 0
  utrapmask : BitVec 10 := 0
  strapvec : Word := 0
  modeU  : Bool := false
  modeS  : Bool := false
  tframe : Word := 0
  beat   : BitVec 32 := 0
  beatPrev : BitVec 32 := 0
  tags   : Vector Tag 8 := Vector.replicate 8 {}
  replay : List RepEntry := []
  lates  : List (FixReq × FixPlan) := []
  cbs    : List CbReq := []
  blk    : Option (Word × Block) := none
  entry  : Option Word := none
  rep    : Option Rep := none
  wait   : Option Wait := none
  arms   : List Nat := []
  wake   : Bool := false
  barWait : Option BarPend := none
  rftAt  : Nat := 0
  mwait  : Option MwaitPend := none
  until' : Option Nat := none
  yieldTo : Option Nat := none
  paused : Bool := false
  issued : Bool := false
  tried  : Bool := false
  skips  : Nat := 0
  vSince : Option Nat := none
  handlers : Nat := 0
  quiet  : Bool := false
  frameIds : List (Word × List Nat) := []
  faultHalt : Bool := false
  hangSent : Bool := false
  deriving DecidableEq, Repr

/-! ## A core -/

/-- A codebook slot (09 R207, 18 R380): the version it holds, and its payload in the version's first slot. -/
structure Slot where
  cbid   : Option (BitVec 12) := none
  stamp  : Byte := 0
  first  : Bool := false
  pinned : Bool := false
  k      : Nat := 0
  data   : List (BitVec 16) := []
  used   : Nat := 0
  deriving DecidableEq, Repr

/-- A window (13 R323). `arrived`: the rows whose bytes are in the ring. -/
structure Window where
  isOpen  : Bool := false
  record : Vector Word 8 := Vector.replicate 8 0
  h     : Nat := 0
  base  : Nat := 0
  rows  : Nat := 0
  stride : Nat := 0
  arrived : List Nat := []
  gen   : Nat := 0
  scope : Scope := .package
  deriving DecidableEq, Repr

/-- The identity of the product table (10 R239). -/
structure TableId where
  cbid  : BitVec 12
  stamp : Byte
  n     : Nat
  g     : Nat
  c     : Nat
  d     : Nat
  kb    : Nat
  deriving DecidableEq, Repr

/-- A version miss in progress (09 R208): the version and when it started. -/
structure VMiss where
  cbid  : BitVec 12
  stamp : Byte
  slot  : Nat
  k     : Nat
  start : Nat
  deriving DecidableEq, Repr

/-- A freeze: its cause, the cycle it began, and for a bank conflict the cycle in which it ends (05 R119, R120; 12 R284). -/
structure Freeze where
  cause : Nat
  since : Nat
  ends  : Option Nat := none
  deriving DecidableEq, Repr

/-- A core: its memories and engines (00 R7; 10; 13; 09 R207). `banks` holds the rows that this cycle's scratchpad accesses have touched
in each bank, `stalls` the core-clock instants at which the core is to freeze for a bank conflict, with the cycles (12 R284). -/
structure Core where
  team   : Option Nat := none
  clk    : Nat := 0
  frozen : Option Freeze := none
  gate   : BitVec 4 := 0
  vUsed  : Nat := 0
  banks  : Sparse Nat := []
  stalls : List (Nat × Nat) := []
  scratch : Sparse Byte := []
  tile   : Sparse Lane := []
  tag    : Sparse Word := []
  acc    : Sparse Lane := []
  res    : Sparse (BitVec 16) := []
  ptab   : Sparse Lane := []
  tableId : Option TableId := none
  eM     : Nat := 128
  eN     : Nat := 128
  eK     : Nat := 128
  eMode  : RMode := .rne
  eGen   : Word := 0
  equeue : List ECmd := []
  erun   : Option ECmd := none
  cqLd   : List CCmd := []
  cqSt   : List CCmd := []
  crLd   : Option CCmd := none
  crSt   : Option CCmd := none
  win    : Vector Window 8 := Vector.replicate 8 {}
  slot   : Vector Slot 16 := Vector.replicate 16 {}
  miss   : List VMiss := []
  useClock : Nat := 0
  deriving DecidableEq, Repr

/-! ## Teams and launches -/

/-- A token (05 R127, R128): who pushed it, the cycle of the push, the operations that must be performed before it can be popped,
and, for an engine's token, the lines its command wrote (17 R353). -/
structure Token where
  src   : Nat
  at'   : Nat
  needs : List Nat
  lines : Option (List Nat) := none
  deriving DecidableEq, Repr

/-- A hand-over queue of a team (05 R127). -/
structure HandQ where
  toks : List Token := []
  resv : Nat := 0
  deriving DecidableEq, Repr

/-- A barrier entry (17 R357). -/
structure BarEntry where
  taken   : Bool := false
  g       : BitVec 32 := 0
  mask    : BitVec 16 := 0
  arrived : BitVec 16 := 0
  joined  : BitVec 16 := 0
  last    : Vector (BitVec 32) 16 := Vector.replicate 16 0
  deriving DecidableEq, Repr

/-- A collective slot (21 R402-R406): its status, and the record, fields, group, ordinal, members, rank and role of the COLL that
started it, with the lines that it wrote. -/
structure Coll where
  state  : Nat := 0
  reason : Nat := 0
  chunks : Nat := 0
  record : Vector Word 8 := Vector.replicate 8 0
  op     : CollOp := .allGather
  cmp    : Bool := false
  group  : Nat := 0
  ordinal : Nat := 0
  members : Nat := 1
  rank   : Nat := 0
  stamp  : Nat := 0
  nr     : Option Nat := none
  role   : Nat := 0
  sup    : Bool := false
  lines  : List Nat := []
  deriving DecidableEq, Repr

/-- Where a team's state is (04 R94-R99). -/
inductive TeamPlace where | resident | swapped (block : Nat) | preempted (block : Nat) | retired
  deriving DecidableEq, Repr

/-- A team from its first placement to its retirement. While it is not resident, `away` holds what the memory system keeps of its
strands by role (outstanding requests and their tags, 04 R97), and `savedIds` the numbers of its unstarted commands by core slot
and queue. `preempt`: the launch that it has been pre-empted for, and the swap block that it will be saved into (04 R99). -/
structure Team where
  launch : Nat
  num    : Nat
  shape  : Nat
  base   : Nat
  slot   : Nat
  place  : TeamPlace := .resident
  hand   : Sparse HandQ := []
  hang   : Nat := 0
  hangHold : Bool := false
  bars   : Sparse BarEntry := []
  colls  : Vector Coll 8 := Vector.replicate 8 {}
  collNo : Sparse Nat := []
  quantumAt : Nat := 0
  stop   : Bool := false
  swapDue : Bool := false
  preempt : Option (Nat × Nat) := none
  away   : List (Nat × Strand) := []
  savedIds : List (Nat × Nat × List Nat) := []
  deriving DecidableEq, Repr

/-- The stages of a taken launch (03 R78, R80; 22 R413). -/
inductive Phase where | waiting | ready | dispatched
  deriving DecidableEq, Repr

/-- A taken and unretired launch: an entry of the launch table (03 R71). `held` are the groups and `slots` the frame slots held for it
(04 R89, R93). -/
structure Launch where
  queue  : Nat
  index  : Nat
  record : Vector Word 8
  asid   : Nat
  phase  : Phase := .waiting
  entry  : Word := 0
  handle : Nat := 0
  latgen : Nat := 1
  takenAt : Nat := 0
  readyAt : Nat := 0
  startAt : Option Nat := none
  order  : Nat := 0
  nextTeam : Nat := 0
  lastTeam : Option Nat := none
  held   : List Nat := []
  slots  : List Nat := []
  retired : Nat := 0
  okTeams : Nat := 0
  faulted : Bool := false
  eccu   : Bool := false
  frameErr : Bool := false
  deriving DecidableEq, Repr

/-! ## Loaded objects -/

/-- A routine of a loaded object: the VA of its entry block and its 64-byte descriptor (01 R15). -/
structure Routine where
  entry : Word
  desc  : List Byte
  deriving DecidableEq, Repr

/-- A relocation inside a global's bytes, as 01 R25 compares it. -/
structure GRel where
  type   : Nat
  form   : Nat
  pair   : Nat
  addend : Word
  target : List Byte
  deriving DecidableEq, Repr

/-- A global symbol with what an identical definition must repeat (01 R25): size, kind, bytes (or the codebook block) and the
relocations in its range, each with its target symbol's name. -/
structure Global where
  name  : List Byte
  kind  : Nat
  size  : Nat
  value : Word
  body  : List Byte
  rels  : List GRel
  deriving DecidableEq, Repr

/-- A loaded code object (01 R23-R26). -/
structure Obj where
  handle : Nat
  asid   : Nat
  latgen : Nat
  routines : List Routine
  globals : List Global
  uses   : List (List Byte)
  cbids  : List Nat
  pages  : List Nat
  deriving DecidableEq, Repr

/-! ## The memory system -/

/-- A copy of a line in a holder (11 R248): data, valid and dirty sectors, key slot, chain, first-to-evict mark, last use. -/
structure Copy where
  data  : Vector Byte 64 := Vector.replicate 64 0
  valid : BitVec 4 := 0
  dirty : BitVec 4 := 0
  key   : Nat := 0
  chain : Nat := 0
  asid  : Nat := 0
  fte   : Bool := false
  swc   : Bool := false
  use   : Nat := 0
  deriving DecidableEq, Repr

/-- A translation held in a TLB (11 R262): its level (0 core, 1 cluster, 2 die) and which of them, ASID, virtual page number, block or
page, the leaf. -/
structure TlbEntry where
  level : Nat := 0
  unit  : Nat
  asid  : Nat
  vpn   : Nat
  block : Bool
  pte   : Word
  ptePa : Nat
  deriving DecidableEq, Repr

/-- A table entry held in a die's walk caches (11 R262): ASID, the level of the table that holds it (3 to 1), the virtual address above
that level's index, the entry. -/
structure WalkEntry where
  die   : Nat
  asid  : Nat
  level : Nat
  pre   : Nat
  entry : Word
  deriving DecidableEq, Repr

/-- An instruction fill on its way (05 R102): the block's place in a cluster's cache, the key of its page, and the translation that it
came by. -/
structure Fill where
  at'  : Nat
  key  : Nat
  asid : Nat
  va   : Nat
  deriving DecidableEq, Repr

/-- A monitor (11 R272). -/
structure Mon where
  cfg   : Word := 0
  count : Word := 0
  sum   : Word := 0
  min   : BitVec 32 := 0xFFFFFFFF
  max   : BitVec 32 := 0
  bins  : Sparse (BitVec 32) := []
  deriving DecidableEq, Repr

/-- The memory system. `mem` holds the plaintext of each byte as it was last written to DRAM or host memory, `dkey` the key
generation each 16-byte sector was last written under, `dorg` one more
than the sector it was encrypted for, where a change of the hash mask has moved it (11 R253, R256), `keyGen` the generation of the key each slot holds, 0 for an empty slot
(11 R256, R271; reset: key slot 0 alone, and every byte of HBM a zero written under it, R429). `locks` holds one more than the number of
the tile store that has a line locked at a holder (17 R344, R348). `errs`, `corrMarks` and `wakes`
are what the present operation leaves for the error log and for the armed monitors, and `bad` is a physical address that it
used and that does not exist; they are empty between steps. -/
structure MemSys where
  mem    : List Host.Cell := []
  dkey   : Sparse Nat := []
  dorg   : Sparse Nat := []
  copies : Sparse Copy := []
  keyGen : Sparse Nat := [(0, 1)]
  nextGen : Nat := 2
  tlb    : List TlbEntry := []
  walks  : List WalkEntry := []
  locks  : Sparse Nat := []
  flips  : Sparse Nat := []
  inject : Sparse (Nat × Nat) := []
  corr   : Sparse Nat := []
  uncorr : Sparse Nat := []
  mons   : Sparse Mon := []
  icache : Sparse Block := []
  icUse  : Sparse Nat := []
  fills  : List Fill := []
  useClock : Nat := 0
  hmask  : Vector (BitVec 24) 8 := Vector.replicate 8 0xFFF000
  errs   : List (Nat × Nat) := []
  corrMarks : List (Nat × Nat) := []
  wakes  : List Nat := []
  bad    : Option Nat := none
  deriving DecidableEq, Repr

/-! ## System state -/

/-- The package system registers that hold a value (11 R266). -/
structure SysRegs where
  pkgid  : BitVec 16 := 0
  qtbase : Word := 0
  ctxbase : Word := 0
  errbase : Word := 0
  evac   : BitVec 8 := 0
  pwrcap : BitVec 12 := 2600
  watts  : BitVec 16 := 0
  gated  : BitVec 16 := 0
  deriving DecidableEq, Repr

/-- Package time (21 R408, R409): ns, the fraction of a ns in units of 1/(21 x 10^12) ns, the rate word, the slew left. -/
structure Clock where
  ns    : Nat := 0
  sub   : Nat := 0
  rate  : BitVec 32 := 0
  slew  : Nat := 0
  slewSub : Nat := 0
  deriving DecidableEq, Repr

/-- The watchdog (22 R423): interval in us, the instant it expires, expired since the last query. -/
structure Wdog where
  on     : Bool := false
  us     : Nat := 0
  due    : Nat := 0
  fired  : Bool := false
  deriving DecidableEq, Repr

/-- A message waiting for room in the host message ring (21 R396). -/
structure HostMsg where
  code  : Nat
  asid  : Nat
  source : Nat
  team  : Nat
  word0 : Word
  word1 : Word
  deriving DecidableEq, Repr

/-- What leaves over the fabric: the answer to a remote request, or an abort flit of a group's collective (21 R400, R406). -/
inductive FabricMsg where
  | answer (a : RemoteAns)
  | abort (asid group slot ordinal reason : Nat)
  deriving DecidableEq, Repr

/-- A barrier or monitor entry of a cluster: a team's, or a line's (17 R366). -/
inductive SyncKey where
  | bar (team entry : Nat) | line (cluster line : Nat)
  deriving DecidableEq, Repr

/-- An entry in a context's spill table: its cluster, its slot, where that lies and under which key, and the bytes as the part wrote them
(17 R367). -/
structure Spill where
  key     : SyncKey
  asid    : Nat
  cluster : Nat
  slot    : Nat
  pa      : Nat
  pkey    : Nat
  bytes   : List Byte
  deriving DecidableEq, Repr

/-- The package controllers' state; `spare` holds one more than the value of each selector that a change has set, `service` the
in-service masks, `loadStatus` each load's and unload's status and handle as returned (01 R27), the last one first. -/
structure Pkg where
  chains  : Sparse Nat := []
  chainEnd : List Nat := []
  wdog    : Wdog := {}
  spare   : Sparse Nat := []
  service : Sparse (BitVec 4) := []
  hostRing : Option (Nat × Nat) := none
  hostQ   : List HostMsg := []
  groups  : Sparse FabricGroup := []
  fabricOut : List FabricMsg := []
  aborts  : List (Nat × Nat × Nat × Nat) := []
  loadStatus : List (Nat × Nat) := []
  swapUsed : List (Nat × Nat) := []
  spill   : List Spill := []
  deriving DecidableEq, Repr

/-! ## The schedule -/

/-- What comes next in the schedule (log 1): a strand's turn (with `late`: its access gets no timely reply), an event, a clock
cycle, the eviction of a line from a holder (256 and above: from a cluster's instruction cache), the loss of a held translation (level 3:
of a table entry in a die's walk caches), or bits of a granule in DRAM, a memory-side cache or L2 that flip by themselves (22 R417; log
90). -/
inductive Turn where
  | issue (sid : Nat) (late : Bool)
  | event (i : Instr) (arg : EvArg)
  | tick
  | evict (holder line : Nat)
  | tlbDrop (level unit vpn : Nat)
  | flip (code gran mask : Nat)
  deriving DecidableEq, Repr

/-- The machine. -/
structure State where
  cycle  : Nat := 0
  clock  : Clock := {}
  cur    : Nat := 0
  agenda : List Turn := []
  ev     : EvArg := .none
  late   : Bool := false
  nextId : Nat := 0
  draw   : Nat := 0
  strands : Sparse Strand := []
  cores  : Sparse Core := []
  teams  : Sparse (Option Team) := []
  launches : Sparse (Option Launch) := []
  lastQueue : Nat := 63
  objects : List Obj := []
  ms     : MemSys := {}
  sys    : SysRegs := {}
  pkg    : Pkg := {}
  deriving DecidableEq, Repr

/-- The machine's own faults. -/
inductive Fault where
  /-- Raised by an access of the part to a physical address outside HBM and host memory (11 R247: such an address does not
  exist). Safe: the model stops where the manual says nothing. -/
  | badPhysical (pa : Nat)
  deriving DecidableEq, Repr

/-- Why a step has no meaning. -/
inductive Refusal where
  /-- Raised by an arm of `exec` whose instruction has no meaning yet. Safe: the model stops. -/
  | notModelled (mnemonic : String)
  deriving DecidableEq, Repr

/-- The machine right after reset (22, 11 R429 and every reset value of INVENTORY.md): no strand is placed, HBM holds zeros
under key slot 0, which alone holds a key. -/
def State.reset : State := {}

end Sys2Proof.Machine
end

