-- ==== Sys2Proof/Machine/Base.lean ====
section
/-! DEFINITION. Sparse maps, bytes and words, and the accessors of the state's parts. -/

namespace Sys2Proof.Machine

/-! ## Sparse maps -/

/-- What a sparse map holds at a number. -/
def Sparse.get {α : Type} (m : Sparse α) (d : α) (k : Nat) : α :=
  match m with
  | [] => d
  | (i, x) :: r => if i = k then x else Sparse.get r d k

/-- Insert by rising number into a list that does not hold the number. -/
def Sparse.insert {α : Type} (m : Sparse α) (k : Nat) (v : α) : Sparse α :=
  match m with
  | [] => [(k, v)]
  | (i, x) :: r => if k < i then (k, v) :: (i, x) :: r else (i, x) :: Sparse.insert r k v

/-- Write one number; writing the default removes the entry. -/
def Sparse.set {α : Type} [DecidableEq α] (m : Sparse α) (d : α) (k : Nat) (v : α) : Sparse α :=
  let m' := m.filter (fun e => e.1 ≠ k)
  if v = d then m' else Sparse.insert m' k v

/-- The values at `base`, `base + 1`, ... -/
def Sparse.slice {α : Type} (m : Sparse α) (d : α) (base len : Nat) : List α :=
  let f := m.filter (fun e => base ≤ e.1 && e.1 < base + len)
  (List.range len).map (fun i => Sparse.get f d (base + i))

/-- The entries of a run of values from `base`, without those equal to the default. -/
def Sparse.run {α : Type} [DecidableEq α] (d : α) (base : Nat) (vs : List α) : Sparse α :=
  match vs with
  | [] => []
  | v :: r => if v = d then Sparse.run d (base + 1) r else (base, v) :: Sparse.run d (base + 1) r

/-- Write a run of values from `base`. -/
def Sparse.setRun {α : Type} [DecidableEq α] (m : Sparse α) (d : α) (base : Nat) (vs : List α) : Sparse α :=
  m.filter (fun e => e.1 < base) ++ Sparse.run d base vs ++ m.filter (fun e => base + vs.length ≤ e.1)

/-- Write values at a step of `step` from `base`. -/
def Sparse.setStep {α : Type} [DecidableEq α] (m : Sparse α) (d : α) (base step : Nat) (vs : List α) : Sparse α :=
  match vs with
  | [] => m
  | v :: r => Sparse.setStep (Sparse.set m d base v) d (base + step) step r

/-- Rising numbers, none twice, and no entry equal to the default. -/
def Sparse.wf {α : Type} [DecidableEq α] (m : Sparse α) (d : α) : Bool :=
  match m with
  | [] => true
  | (i, x) :: r => (x ≠ d) && (match r with | [] => true | (j, _) :: _ => decide (i < j)) && Sparse.wf r d

/-! ## Bytes -/

/-- The little-endian bytes of a number (00 R1). -/
def leBytes (n : Nat) (x : Nat) : List Byte :=
  match n with
  | 0 => []
  | k + 1 => BitVec.ofNat 8 x :: leBytes k (x / 256)

/-- The number that little-endian bytes hold. -/
def leNat (bs : List Byte) : Nat :=
  match bs with
  | [] => 0
  | b :: r => b.toNat + 256 * leNat r

/-- The 64-bit word that up to eight bytes hold. -/
def leWord (bs : List Byte) : Word := BitVec.ofNat 64 (leNat bs)

/-- Bytes `off .. off+n-1` of a structure as a number. -/
def field (bs : List Byte) (off n : Nat) : Nat := leNat ((bs.drop off).take n)

/-- `n` zero bytes. -/
def zeros (n : Nat) : List Byte := List.replicate n 0

/-- Bits `hi .. lo` of a word as a number (00 R1). -/
def slc (w : Word) (hi lo : Nat) : Nat := (w.toNat >>> lo) % 2 ^ (hi + 1 - lo)

/-- Sign-extension of the low `n` bits of a number to a word. -/
def sext (n x : Nat) : Word :=
  let y := x % 2 ^ n
  if 2 ^ n ≤ 2 * y then BitVec.ofNat 64 (y + (2 ^ 64 - 2 ^ n)) else BitVec.ofNat 64 y

/-- The signed value of the low `n` bits of a number. -/
def sval (n x : Nat) : Int :=
  let y := x % 2 ^ n
  if 2 ^ n ≤ 2 * y then (y : Int) - (2 ^ n : Nat) else (y : Int)

/-- A word of 64 bits of ones or zeros. -/
def allOnes (b : Bool) : Word := if b then BitVec.allOnes 64 else 0

/-- The number of a Bool. -/
def b2n (b : Bool) : Nat := if b then 1 else 0

/-- A status word with bit 63 set and a code. -/
def errWord (code : Nat) : Word := BitVec.ofNat 64 (2 ^ 63 + code)

/-- A vector built from a function of the lane number. -/
def vecOf (f : Nat → Lane) : Vec := ⟨⟨(List.range 64).map f⟩, by simp⟩

/-- Eight words built from a function of the word number. -/
def words8 (f : Nat → Word) : Vector Word 8 := ⟨⟨(List.range 8).map f⟩, by simp⟩

/-- A lane of a vector by number. -/
def lane (v : Vec) (i : Nat) : Lane := v.toList.getD i 0

/-- Word `k` of a record. -/
def rword (r : Vector Word 8) (k : Nat) : Word := r.toList.getD k 0

/-- ceil(a / b). -/
def cdiv (a b : Nat) : Nat := (a + b - 1) / b

/-- Round up to a multiple. -/
def roundUp (a b : Nat) : Nat := cdiv a b * b

/-! ## Parts of the state -/

def State.strand (s : State) (sid : Nat) : Strand := Sparse.get s.strands {} sid
def State.setStrand (s : State) (sid : Nat) (x : Strand) : State := { s with strands := Sparse.set s.strands {} sid x }
def State.modStrand (s : State) (sid : Nat) (f : Strand → Strand) : State := s.setStrand sid (f (s.strand sid))
def State.core (s : State) (c : Nat) : Core := Sparse.get s.cores {} c
def State.setCore (s : State) (c : Nat) (x : Core) : State := { s with cores := Sparse.set s.cores {} c x }
def State.modCore (s : State) (c : Nat) (f : Core → Core) : State := s.setCore c (f (s.core c))
def State.team (s : State) (t : Nat) : Option Team := Sparse.get s.teams none t
def State.setTeam (s : State) (t : Nat) (x : Option Team) : State := { s with teams := Sparse.set s.teams none t x }
def State.launch (s : State) (l : Nat) : Option Launch := Sparse.get s.launches none l
def State.setLaunch (s : State) (l : Nat) (x : Option Launch) : State := { s with launches := Sparse.set s.launches none l x }

/-- Change a team that exists. -/
def State.modTeam (s : State) (t : Nat) (f : Team → Team) : State :=
  match s.team t with
  | none => s
  | some x => s.setTeam t (some (f x))

/-- Change a launch that exists. -/
def State.modLaunch (s : State) (l : Nat) (f : Launch → Launch) : State :=
  match s.launch l with
  | none => s
  | some x => s.setLaunch l (some (f x))

/-- The strand whose turn it is. -/
def State.st (s : State) : Strand := s.strand s.cur
def State.setSt (s : State) (x : Strand) : State := s.setStrand s.cur x
def State.modSt (s : State) (f : Strand → Strand) : State := s.setSt (f s.st)

/-- A strand's core and kind: strand number = 4 x core + kind. -/
def coreOf (sid : Nat) : Nat := sid / 4
def kindOf (sid : Nat) : Nat := sid % 4
/-- A core's cluster and die: core number = 48 x die + 4 x cluster + place. -/
def clusterOf (core : Nat) : Nat := core / 4
def dieOf (core : Nat) : Nat := core / 48
def State.cc (s : State) : Nat := coreOf s.cur
/-- The core of the strand whose turn it is. -/
def State.co (s : State) : Core := s.core s.cc

/-- The clock-enabled cycles of the strand's core. -/
def State.now (s : State) : Nat := s.co.clk

/-- The number of a strand of a team that is not resident: 768 + 16 x team + role. -/
def awaySid (team role : Nat) : Nat := 768 + 16 * team + role
/-- A strand by number: on a core, or of a team that is not resident. -/
def State.xs (s : State) (sid : Nat) : Strand :=
  if sid < 768 then s.strand sid
  else match s.team ((sid - 768) / 16) with
    | none => {}
    | some t => ((t.away.find? (fun e => e.1 == (sid - 768) % 16)).map (·.2)).getD {}
/-- Change a strand by number. -/
def State.modXs (s : State) (sid : Nat) (f : Strand → Strand) : State :=
  if sid < 768 then s.modStrand sid f
  else s.modTeam ((sid - 768) / 16) (fun t =>
    { t with away := t.away.map (fun e => if e.1 == (sid - 768) % 16 then (e.1, f e.2) else e) })

/-- The team and the launch of a strand. -/
def State.teamOf (s : State) (sid : Nat) : Option Team := (s.xs sid).team.bind s.team
def State.launchOf (s : State) (sid : Nat) : Option Launch := (s.teamOf sid).bind (fun t => s.launch t.launch)
/-- The ASID a strand runs under; 0 where it has no launch. -/
def State.asidOf (s : State) (sid : Nat) : Nat := ((s.launchOf sid).map (·.asid)).getD 0

/-- The cores of a team's group in core-slot order (04 R87). -/
def Team.cores (t : Team) : List Nat := (List.range t.shape).map (t.base + ·)
/-- The strand that holds a role of a team (04 R87). -/
def Team.sidOf (t : Team) (role : Nat) : Nat := 4 * (t.base + role / 4) + role % 4
/-- The strands of a team in role order. -/
def Team.sids (t : Team) : List Nat := (List.range (4 * t.shape)).map t.sidOf

/-- A fresh operation number. -/
def State.fresh (s : State) : Nat × State := (s.nextId, { s with nextId := s.nextId + 1 })
/-- A fresh free value (log 2). -/
def State.free (s : State) : Word × State := (Config.freeWord s.draw, { s with draw := s.draw + 1 })

end Sys2Proof.Machine
end

