-- ==== Sys2Proof/Machine/Float.lean ====
section
/-! DEFINITION. Numbers (07): the formats, exact values, rounding, the generator, and exact arithmetic with its special values.
An exact value is a dyadic number; a value that is not dyadic (a quotient, a root, a power, a logarithm) is held as its floor at
a fine enough spacing, with `sticky` set: the value lies strictly between that number and the next. -/

namespace Sys2Proof.Machine

/-- The flags NV, DZ, OF, UF, NX in bits 4..0, which stand in fpctl[8:4] (05 R134). -/
abbrev Flags := BitVec 5
def fNV : Flags := 16
def fDZ : Flags := 8
def fOF : Flags := 4
def fUF : Flags := 2
def fNX : Flags := 1

/-! ## Formats (07 R152, R153) -/

/-- What a format has for special values. -/
inductive Specials where | ieee | e4m3 | none
  deriving DecidableEq, Repr

/-- A floating-point format: exponent bits, mantissa bits, bias, special values. -/
structure FpFmt where
  e : Nat
  m : Nat
  bias : Nat
  sp : Specials
  deriving DecidableEq, Repr

def fp64 : FpFmt := ⟨11, 52, 1023, .ieee⟩
def fp32 : FpFmt := ⟨8, 23, 127, .ieee⟩
def fp16 : FpFmt := ⟨5, 10, 15, .ieee⟩
def bf16 : FpFmt := ⟨8, 7, 127, .ieee⟩
def e4m3 : FpFmt := ⟨4, 3, 7, .e4m3⟩
def e5m2 : FpFmt := ⟨5, 2, 15, .ieee⟩
def e3m2 : FpFmt := ⟨3, 2, 3, .none⟩
def e2m3 : FpFmt := ⟨2, 3, 1, .none⟩
def e2m1 : FpFmt := ⟨2, 1, 1, .none⟩

/-- The format of a scalar type. -/
def ftFmt : FType → FpFmt
  | .fp64 => fp64 | .fp32 => fp32 | .fp16 => fp16 | .bf16 => bf16
/-- The format of a lane type. -/
def ltFmt : LType → FpFmt
  | .fp32 => fp32 | .fp16 => fp16 | .bf16 => bf16

/-- Width of a format in bits. -/
def FpFmt.width (f : FpFmt) : Nat := 1 + f.e + f.m
/-- The sign bit's weight. -/
def FpFmt.signBit (f : FpFmt) : Nat := 2 ^ (f.e + f.m)
/-- The exponent of the subnormal spacing. -/
def FpFmt.qmin (f : FpFmt) : Int := 1 - (f.bias : Int) - (f.m : Int)
/-- The encoding of the largest finite magnitude. -/
def FpFmt.maxBits (f : FpFmt) : Nat :=
  match f.sp with
  | .ieee => (2 ^ f.e - 1) * 2 ^ f.m - 1
  | .e4m3 => 2 ^ (f.e + f.m) - 2
  | .none => 2 ^ (f.e + f.m) - 1
/-- The encoding of infinity. -/
def FpFmt.infBits (f : FpFmt) : Nat := (2 ^ f.e - 1) * 2 ^ f.m
/-- The canonical NaN (07 R156). -/
def FpFmt.nanBits (f : FpFmt) : Nat :=
  match f.sp with
  | .ieee => f.infBits + 2 ^ (f.m - 1)
  | .e4m3 => 2 ^ (f.e + f.m) - 1
  | .none => 0
/-- Does a NaN of the format signal by its top mantissa bit (07 R156)? -/
def FpFmt.hasSnan (f : FpFmt) : Bool := f.m == 52 || f.m == 23 || f.m == 10 || f.m == 7

/-! ## Exact values -/

/-- An exact value: a NaN (signalling or quiet), an infinity, or (-1)^neg x m x 2^e. -/
inductive XVal where
  | nan (sig : Bool)
  | inf (neg : Bool)
  | fin (neg : Bool) (m : Nat) (e : Int)
  deriving DecidableEq, Repr

/-- The value of an encoding (07 R152, R153, R155: the bits above the format are ignored). -/
def FpFmt.read (f : FpFmt) (bits : Nat) : XVal :=
  let b := bits % 2 ^ f.width
  let neg := b / f.signBit == 1
  let mag := b % f.signBit
  let e := mag / 2 ^ f.m
  let m := mag % 2 ^ f.m
  if f.sp == .ieee && e == 2 ^ f.e - 1 then
    if m == 0 then .inf neg else .nan (f.hasSnan && m < 2 ^ (f.m - 1))
  else if f.sp == .e4m3 && mag == 2 ^ (f.e + f.m) - 1 then .nan false
  else if e == 0 then .fin neg m f.qmin
  else .fin neg (2 ^ f.m + m) (f.qmin + (e : Int) - 1)

/-- The value of an integer. -/
def xint (n : Int) : XVal := .fin (decide (n < 0)) n.natAbs 0

def XVal.isNan : XVal → Bool | .nan _ => true | _ => false
def XVal.isSig : XVal → Bool | .nan s => s | _ => false
def XVal.isInf : XVal → Bool | .inf _ => true | _ => false
def XVal.isZero : XVal → Bool | .fin _ 0 _ => true | _ => false
def XVal.isNeg : XVal → Bool | .nan _ => false | .inf n => n | .fin n _ _ => n
def XVal.neg : XVal → XVal | .nan s => .nan s | .inf n => .inf !n | .fin n m e => .fin (!n) m e
def XVal.abs : XVal → XVal | .nan s => .nan s | .inf _ => .inf false | .fin _ m e => .fin false m e

/-- floor(log2 m x 2^e) of a value other than zero. -/
def xlog2 (m : Nat) (e : Int) : Int := (Nat.log2 m : Int) + e

/-- The signed mantissa at exponent `e0 ≤ e`. -/
def alignTo (neg : Bool) (m : Nat) (e e0 : Int) : Int :=
  let v : Int := ((m <<< (e - e0).toNat : Nat) : Int)
  if neg then -v else v

/-- Compare two numbers that are not NaN, as real numbers with infinities (zeros equal). -/
def XVal.cmp : XVal → XVal → Ordering
  | .inf a, .inf b => if a == b then .eq else if a then .lt else .gt
  | .inf a, _ => if a then .lt else .gt
  | _, .inf b => if b then .gt else .lt
  | .fin na ma ea, .fin nb mb eb =>
    if ma == 0 && mb == 0 then .eq
    else if ma == 0 then (if nb then .gt else .lt)
    else if mb == 0 then (if na then .lt else .gt)
    else if na ≠ nb then (if na then .lt else .gt)
    else
      let la := xlog2 ma ea
      let lb := xlog2 mb eb
      let o := if la < lb then Ordering.lt else if lb < la then .gt
        else compare (alignTo false ma ea (min ea eb)) (alignTo false mb eb (min ea eb))
      if na then o.swap else o
  | _, _ => .eq

/-! ## Rounding (07 R158, R159, R161) -/

/-- The integer that m x 2^-k (plus a sticky part) rounds to, and whether anything was lost. `r` holds the 16 random bits. -/
def roundShift (mode : RMode) (r : Nat) (neg : Bool) (m k : Nat) (sticky : Bool) : Nat × Bool :=
  let n := m >>> k
  let rem := m % 2 ^ k
  let half := 2 ^ k / 2
  let inexact := rem ≠ 0 || sticky
  let up : Bool := match mode with
    | .rne => k ≠ 0 && (half < rem || (rem == half && (sticky || n % 2 == 1)))
    | .rtz => false
    | .rdn => neg && inexact
    | .rup => !neg && inexact
    | .rna => k ≠ 0 && half ≤ rem
    | .sr => 2 ^ (k + 16) ≤ rem * 65536 + r * 2 ^ k
  (if up then n + 1 else n, inexact)

/-- Round m x 2^e (plus a sticky part) onto the spacing 2^q. A magnitude far below the spacing is replaced by one that rounds alike. -/
def roundAt (mode : RMode) (r : Nat) (neg : Bool) (m : Nat) (e q : Int) (sticky : Bool) : Nat × Bool :=
  if q ≤ e then (m <<< (e - q).toNat, sticky)
  else
    let k := (q - e).toNat
    if Nat.log2 m + 40 ≤ k then (if m == 0 && !sticky then (0, false) else roundShift mode r neg 1 40 true)
    else roundShift mode r neg m k sticky

/-- What an overflow delivers (07 R159). -/
def FpFmt.overflow (f : FpFmt) (mode : RMode) (neg : Bool) : Nat :=
  let s := if neg then f.signBit else 0
  if f.sp ≠ .ieee then s + f.maxBits
  else match mode with
    | .rne | .rna | .sr => s + f.infBits
    | .rtz => s + f.maxBits
    | .rdn => s + (if neg then f.infBits else f.maxBits)
    | .rup => s + (if neg then f.maxBits else f.infBits)

/-- Round(T, x): the encoding and the flags of a rounding into a floating-point format (07 R158-R160). -/
def FpFmt.round (f : FpFmt) (mode : RMode) (r : Nat) (x : XVal) (sticky : Bool := false) : Nat × Flags :=
  match x with
  | .nan sig => if f.sp == .none then (0, fNV) else (f.nanBits, if sig then fNV else 0)
  | .inf neg =>
    let s := if neg then f.signBit else 0
    match f.sp with
    | .ieee => (s + f.infBits, 0)
    | _ => (s + f.maxBits, fNV)
  | .fin neg m e =>
    let s := if neg then f.signBit else 0
    if m == 0 && !sticky then (s, 0)
    else
      let q := max f.qmin (xlog2 m e - (f.m : Int))
      let (n, inexact) := roundAt mode r neg m e q sticky
      let bits := (q - f.qmin).toNat * 2 ^ f.m + n
      if f.maxBits < bits then (f.overflow mode neg, fOF ||| fNX)
      else
        let tiny := bits < 2 ^ f.m
        (s + bits, if inexact then (if tiny then fUF ||| fNX else fNX) else 0)

/-- Round into an integer range (07 R158-R160): a value out of range clamps with NV, a NaN gives 0 with NV. -/
def roundInt (mode : RMode) (r : Nat) (lo hi : Int) (x : XVal) : Int × Flags :=
  match x with
  | .nan _ => (0, fNV)
  | .inf neg => (if neg then lo else hi, fNV)
  | .fin neg m e =>
    if 0 < e ∧ 200 < xlog2 m e ∧ m ≠ 0 then (if neg then lo else hi, fNV)
    else
      let (n, inexact) := roundAt mode r neg m e 0 false
      let v : Int := if neg then -(n : Int) else n
      if v < lo then (lo, fNV) else if hi < v then (hi, fNV) else (v, if inexact then fNX else 0)

/-! ## The generator (07 R162) -/

/-- One step of the generator. -/
def xorshift (x : Word) : Word :=
  let x := x ^^^ (x <<< 13)
  let x := x ^^^ (x >>> 7)
  x ^^^ (x <<< 17)

/-- The random bits of a state. -/
def rbits (x : Word) : Nat := slc x 63 48

/-- A draw in mode SR only (07 R163): the bits and the new state. -/
def drawIf (mode : RMode) (g : Word) : Nat × Word :=
  if mode = .sr then (rbits (xorshift g), xorshift g) else (0, g)

/-! ## Exact arithmetic with its special values (07 R156, R157) -/

/-- An exact result before its rounding, with the flags of its special cases. -/
structure XRes where
  v : XVal
  fl : Flags := 0
  sticky : Bool := false
  deriving DecidableEq, Repr

/-- Round an exact result once. -/
def FpFmt.fin (f : FpFmt) (mode : RMode) (r : Nat) (x : XRes) : Nat × Flags :=
  let (b, fl) := f.round mode r x.v x.sticky
  (b, x.fl ||| fl)

/-- NV when an operand is a signalling NaN (07 R156). -/
def sigFlag (l : List XVal) : Flags := if l.any XVal.isSig then fNV else 0

/-- A NaN result: quiet, with the flags given. -/
def nanRes (fl : Flags) : XRes := { v := .nan false, fl := fl }

/-- The exact sum of two values (07 R157 for zeros and infinities). -/
def xadd (mode : RMode) (x y : XVal) : XRes :=
  match x, y with
  | .nan _, _ => nanRes (sigFlag [x, y])
  | _, .nan _ => nanRes (sigFlag [x, y])
  | .inf a, .inf b => if a == b then { v := .inf a } else nanRes fNV
  | .inf a, _ => { v := .inf a }
  | _, .inf b => { v := .inf b }
  | .fin na ma ea, .fin nb mb eb =>
    if ma == 0 && mb == 0 then
      { v := .fin (if na == nb then na else mode == .rdn) 0 0 }
    else if ma == 0 then { v := y }
    else if mb == 0 then { v := x }
    else
      let e0 := min ea eb
      let t := alignTo na ma ea e0 + alignTo nb mb eb e0
      if t == 0 then { v := .fin (mode == .rdn) 0 0 } else { v := .fin (decide (t < 0)) t.natAbs e0 }

/-- The exact product. -/
def xmul (x y : XVal) : XRes :=
  match x, y with
  | .nan _, _ => nanRes (sigFlag [x, y])
  | _, .nan _ => nanRes (sigFlag [x, y])
  | .inf a, y => if y.isZero then nanRes fNV else { v := .inf (a != y.isNeg) }
  | x, .inf b => if x.isZero then nanRes fNV else { v := .inf (x.isNeg != b) }
  | .fin na ma ea, .fin nb mb eb => { v := .fin (na != nb) (ma * mb) (ea + eb) }

/-- x x y + z with an exact product and sum: inf x 0 gives NV even beside a quiet NaN addend (08 R176). -/
def xfma (mode : RMode) (negProd : Bool) (x y z : XVal) : XRes :=
  let p := xmul x y
  let pv := if negProd then p.v.neg else p.v
  if p.v.isNan || z.isNan then nanRes (p.fl ||| sigFlag [x, y, z])
  else xadd mode pv z

/-- The integer square root by Newton steps from above (structural in `fuel`). -/
def isqrtLoop (n : Nat) : (fuel x : Nat) → Nat
  | 0, x => x
  | k + 1, x => let y := (x + n / x) / 2; if y < x then isqrtLoop n k y else x

/-- floor(sqrt n). -/
def isqrt (n : Nat) : Nat := if n == 0 then 0 else isqrtLoop n (Nat.log2 n + 4) (2 ^ (Nat.log2 n / 2 + 1))

/-- The quotient: its floor at 100 or more bits, sticky when a remainder is left. -/
def xdiv (x y : XVal) : XRes :=
  match x, y with
  | .nan _, _ => nanRes (sigFlag [x, y])
  | _, .nan _ => nanRes (sigFlag [x, y])
  | .inf _, .inf _ => nanRes fNV
  | .inf a, y => { v := .inf (a != y.isNeg) }
  | x, .inf b => { v := .fin (x.isNeg != b) 0 0 }
  | .fin na ma ea, .fin nb mb eb =>
    if mb == 0 then
      if ma == 0 then nanRes fNV else { v := .inf (na != nb), fl := fDZ }
    else if ma == 0 then { v := .fin (na != nb) 0 0 }
    else
      let k := 100 + Nat.log2 mb
      { v := .fin (na != nb) ((ma <<< k) / mb) (ea - eb - (k : Int)), sticky := (ma <<< k) % mb ≠ 0 }

/-- The square root (07 R157). -/
def xsqrt (x : XVal) : XRes :=
  match x with
  | .nan _ => nanRes (sigFlag [x])
  | .inf neg => if neg then nanRes fNV else { v := .inf false }
  | .fin neg m e =>
    if m == 0 then { v := x }
    else if neg then nanRes fNV
    else
      let (m, e) := if e % 2 == 0 then (m, e) else (2 * m, e - 1)
      let n := m <<< 200
      let q := isqrt n
      { v := .fin false q (e / 2 - 100), sticky := q * q ≠ n }

/-- 1 / sqrt x (08 R182). -/
def xrsq (x : XVal) : XRes :=
  match x with
  | .nan _ => nanRes (sigFlag [x])
  | .inf neg => if neg then nanRes fNV else { v := .fin false 0 0 }
  | .fin neg m e =>
    if m == 0 then { v := .inf neg, fl := fDZ }
    else if neg then nanRes fNV
    else
      let (m, e) := if e % 2 == 0 then (m, e) else (2 * m, e - 1)
      let s := 110 + Nat.log2 m
      let q := isqrt (2 ^ (2 * s) / m)
      { v := .fin false q (-(e / 2) - (s : Int)), sticky := q * q * m ≠ 2 ^ (2 * s) }

/-- 1 / x (08 R182). -/
def xrcp (x : XVal) : XRes := xdiv (.fin false 1 0) x

/-! ## 2^x and log2 x, correctly rounded (08 R182) -/

/-- The sum of 2^P/(k 2^k) for k = n, n-1, ..., 1: within P + 2 below ln 2 x 2^P. -/
def ln2Sum (p : Nat) : Nat → Nat
  | 0 => 0
  | k + 1 => ln2Sum p k + 2 ^ p / ((k + 1) * 2 ^ (k + 1))

/-- The series of exp at fixed point P: y is in units of 2^-P. -/
def expSum (p y : Nat) : (fuel k term acc : Nat) → Nat
  | 0, _, _, acc => acc
  | f + 1, k, term, acc =>
    let t := term * y / 2 ^ p / k
    if t == 0 then acc else expSum p y f (k + 1) t (acc + t)

/-- 2^f for a fraction f = fm / 2^fs in (0, 1): the floor at 100 bits when precision P settles it. -/
def exp2Frac (p fm fs : Nat) : Option Nat :=
  let flo := fm * 2 ^ p / 2 ^ fs
  let l := ln2Sum p p
  let ylo := flo * l / 2 ^ p
  let yhi := (flo + 1) * (l + p + 2) / 2 ^ p + 1
  let lo := 2 ^ p + ylo + expSum p ylo p 2 ylo 0
  let hi := 2 ^ p + yhi + expSum p yhi p 2 yhi 0 + 4 * p + 8
  let a := lo / 2 ^ (p - 100)
  if a == hi / 2 ^ (p - 100) then some a else none

/-- The first precision that settles the floor. -/
def firstSome (f : Nat → Option Nat) : List Nat → Nat
  | [] => 0
  | p :: r => match f p with | some x => x | none => firstSome f r

/-- 2^x. -/
def xexp2 (x : XVal) : XRes :=
  match x with
  | .nan _ => nanRes (sigFlag [x])
  | .inf neg => if neg then { v := .fin false 0 0 } else { v := .inf false }
  | .fin neg m e =>
    if m == 0 then { v := .fin false 1 0 }
    else if 40 < xlog2 m e then
      -- far outside every format: any value that overflows or underflows alike
      { v := .fin false 1 (if neg then -(2 ^ 41) else 2 ^ 41), sticky := neg }
    else if 0 ≤ e then
      let n : Int := (m <<< e.toNat : Nat)
      { v := .fin false 1 (if neg then -n else n) }
    else
      let fs := (-e).toNat
      let n : Int := (m >>> fs : Nat)
      let fm := m % 2 ^ fs
      if fm == 0 then { v := .fin false 1 (if neg then -n else n) }
      else
        let (n, fm) : Int × Nat := if neg then (-n - 1, 2 ^ fs - fm) else (n, fm)
        { v := .fin false (firstSome (fun p => exp2Frac p fm fs) [180, 400, 1500, 3000]) (n - 100), sticky := true }

/-- `n` more bits of log2 of a number in [lo, hi] x 2^-P, both in [1, 2): one squaring a bit; none when P does not settle a bit. -/
def log2Bits (p : Nat) : (n lo hi acc : Nat) → Option Nat
  | 0, _, _, acc => some acc
  | n + 1, lo, hi, acc =>
    let lo2 := lo * lo / 2 ^ p
    let hi2 := hi * hi / 2 ^ p + 1
    if hi2 < 2 ^ (p + 1) then log2Bits p n lo2 hi2 (2 * acc)
    else if 2 ^ (p + 1) ≤ lo2 then log2Bits p n (lo2 / 2) (hi2 / 2 + 1) (2 * acc + 1)
    else none

/-- The floor at `b` fraction bits of log2 of t = m / 2^(log2 m) in (1, 2). -/
def log2Frac (b m p : Nat) : Option Nat :=
  let l := Nat.log2 m
  log2Bits p b (m * 2 ^ p / 2 ^ l) (m * 2 ^ p / 2 ^ l + 1) 0

/-- log2 x. The fraction is taken at 200 bits, so that a result near zero keeps enough of them. -/
def xlog2v (x : XVal) : XRes :=
  match x with
  | .nan _ => nanRes (sigFlag [x])
  | .inf neg => if neg then nanRes fNV else { v := .inf false }
  | .fin neg m e =>
    if m == 0 then { v := .inf true, fl := fDZ }
    else if neg then nanRes fNV
    else
      let n := xlog2 m e
      if m == 2 ^ Nat.log2 m then { v := xint n }
      else
        let fr := firstSome (fun p => log2Frac 200 m p) [500, 900, 1800]
        -- log2 x = n + (fr + d) x 2^-200 with 0 < d < 1
        if 0 ≤ n then { v := .fin false (n.toNat * 2 ^ 200 + fr) (-200), sticky := true }
        else
          let mag := (-n).toNat * 2 ^ 200 - fr - 1
          { v := .fin true mag (-200), sticky := true }

/-! ## Minimum, maximum, comparison (08 R177, R178) -/

/-- -0 orders below +0. -/
def xltTot (x y : XVal) : Bool :=
  match XVal.cmp x y with
  | .lt => true
  | .gt => false
  | .eq => x.isZero && y.isZero && x.isNeg && !y.isNeg

/-- FMIN, FMAX, FMINM, FMAXM on encodings of one format: the operand delivered unchanged, or the canonical NaN. -/
def fminmax (f : FpFmt) (isMax num : Bool) (a b : Nat) : Nat × Flags :=
  let x := f.read a
  let y := f.read b
  let fl := sigFlag [x, y]
  let a' := a % 2 ^ f.width
  let b' := b % 2 ^ f.width
  if x.isNan && y.isNan then (f.nanBits, fl)
  else if x.isNan then (if num then b' else f.nanBits, fl)
  else if y.isNan then (if num then a' else f.nanBits, fl)
  else (if isMax then (if xltTot x y then b' else a') else (if xltTot y x then b' else a'), fl)

/-- The comparison of FCMP: the result and the flags. -/
def fcompare (cc : FCc) (x y : XVal) : Bool × Flags :=
  let unord := x.isNan || y.isNan
  let sig := sigFlag [x, y]
  let anyNan : Flags := if unord then fNV else 0
  let o := XVal.cmp x y
  match cc with
  | .eq => (!unord && o == .eq, sig)
  | .ne => (unord || o ≠ .eq, sig)
  | .lt => (!unord && o == .lt, anyNan)
  | .le => (!unord && o ≠ .gt, anyNan)
  | .gt => (!unord && o == .gt, anyNan)
  | .ge => (!unord && o ≠ .lt, anyNan)
  | .un => (unord, sig)
  | .or => (!unord, sig)

/-! ## Exact sums of many terms (07 R169, 10 R237) -/

/-- The exact sum of a list: any NaN or infinities of both signs make a NaN; a zero sum follows 07 R157. -/
def xsum (mode : RMode) (l : List XVal) : XRes :=
  if l.any XVal.isNan then nanRes (sigFlag l)
  else
    let pos := l.any (fun x => x.isInf && !x.isNeg)
    let neg := l.any (fun x => x.isInf && x.isNeg)
    if pos && neg then nanRes fNV
    else if pos then { v := .inf false }
    else if neg then { v := .inf true }
    else
      let e0 := l.foldl (fun a x => match x with | .fin _ m e => if m == 0 then a else min a e | _ => a) 0
      let t := l.foldl (fun (a : Int) x => match x with | .fin n m e => if m == 0 then a else a + alignTo n m e e0 | _ => a) 0
      if t == 0 then { v := .fin (if l.all XVal.isNeg && !l.isEmpty then true else if l.all (fun x => !(x.isNeg)) then false
          else mode == .rdn) 0 0 }
      else { v := .fin (decide (t < 0)) t.natAbs e0 }

/-- Scale exactly by a power of two. -/
def XVal.scale (x : XVal) (k : Int) : XVal :=
  match x with
  | .fin n m e => .fin n m (e + k)
  | x => x

/-- popcount of a number below 2^8 (the Hadamard index). -/
def popNat : (fuel n : Nat) → Nat
  | 0, _ => 0
  | f + 1, n => n % 2 + popNat f (n / 2)

/-- One output of the block Hadamard transform (07 R169) with an exact normaliser 2^nrm. -/
def hadamardAt (mode : RMode) (nrm : Int) (xs : List XVal) (i : Nat) : XRes :=
  let terms := xs.zipIdx.map (fun (x, j) => if popNat 8 (i &&& j) % 2 == 1 then x.neg else x)
  let r := xsum mode terms
  { r with v := r.v.scale nrm }

/-! ## Element formats (07 R153, R154; 09 R201) -/

/-- The floating-point format of an element format, none for the integer ones. -/
def elemFp : Fmt → Option FpFmt
  | .fp32 => some Machine.fp32 | .fp16 => some Machine.fp16 | .bf16 => some Machine.bf16 | .e4m3 => some Machine.e4m3
  | .e5m2 => some Machine.e5m2 | .e3m2 => some Machine.e3m2 | .e2m3 => some Machine.e2m3 | .e2m1 => some Machine.e2m1
  | .int8 => none | .int4 => none

/-- Index width (09 R201). -/
def elemWidth : Fmt → Nat
  | .fp32 => 32 | .fp16 => 16 | .bf16 => 16 | .e4m3 => 8 | .e5m2 => 8 | .e3m2 => 6 | .e2m3 => 6 | .e2m1 => 4
  | .int8 => 8 | .int4 => 4

/-- The range of an integer of `w` bits. -/
def intRange (w : Nat) (signed : Bool) : Int × Int :=
  if signed then (-(2 ^ (w - 1) : Nat), (2 ^ (w - 1) - 1 : Nat)) else (0, (2 ^ w - 1 : Nat))

/-- emax (07 R153). -/
def elemEmax (f : Fmt) (signed : Bool) : Int :=
  match f with
  | .fp32 => 127 | .fp16 => 15 | .bf16 => 127 | .e4m3 => 8 | .e5m2 => 15 | .e3m2 => 4 | .e2m3 => 2 | .e2m1 => 2
  | .int8 => if signed then 6 else 7
  | .int4 => if signed then 2 else 3

/-- The value of an element's bits. -/
def elemValue (f : Fmt) (signed : Bool) (bits : Nat) : XVal :=
  match elemFp f with
  | some p => p.read bits
  | none => xint (if signed then sval (elemWidth f) bits else ((bits % 2 ^ (elemWidth f) : Nat) : Int))

/-- Round a value into an element format: the bits and the flags. -/
def elemRound (f : Fmt) (signed : Bool) (mode : RMode) (r : Nat) (x : XVal) : Nat × Flags :=
  match elemFp f with
  | some p => p.round mode r x
  | none =>
    let (lo, hi) := intRange (elemWidth f) signed
    let (v, fl) := roundInt mode r lo hi x
    ((v % (2 ^ (elemWidth f) : Nat)).toNat, fl)

end Sys2Proof.Machine
end

