-- ==== Sys2Proof/Machine/Layout.lean ====
section
/-! DEFINITION. The fields of a layout record (13 R304, R305, R308), and the bytes that a copy command covers (13 R317-R330). -/

namespace Sys2Proof
namespace Machine

/-- The fields of a layout record. -/
structure Lay where
  base : Nat
  pitch : Nat
  rows : Nat
  segs : Nat
  fmt : Nat
  signed : Bool
  scale : Nat
  cbid : Nat
  ver : Nat
  had : Nat
  cmp : Bool
  d : Nat
  w : Nat
  ring : Nat
  ringrows : Nat
  row0 : Nat
  col0 : Nat
  ctab : Nat
  deriving DecidableEq, Repr

def Lay.of (r : Vector Word 8) : Lay :=
  let w3 := rword r 3
  { base := (rword r 0).toNat, pitch := (rword r 1).toNat, rows := slc (rword r 2) 31 0, segs := slc (rword r 2) 63 32
    fmt := slc w3 3 0, signed := w3.getLsbD 4, scale := slc w3 15 8, cbid := slc w3 27 16, ver := slc w3 35 28
    had := slc w3 38 37, cmp := w3.getLsbD 39, d := slc w3 47 40, w := slc w3 55 48
    ring := slc (rword r 4) 31 0, ringrows := slc (rword r 4) 63 32, row0 := slc (rword r 5) 31 0, col0 := slc (rword r 5) 63 32
    ctab := (rword r 6).toNat }

/-- Bytes of a segment (R305). -/
def segSize (d w : Nat) : Nat := 8 + 8 * cdiv (128 * w) (64 * d)
def Lay.S (l : Lay) : Nat := segSize l.d l.w
/-- Row bytes of a band, and its stride (R315). -/
def Lay.rowBytes (l : Lay) : Nat := (l.segs - l.col0) * l.S
def Lay.stride (l : Lay) : Nat := roundUp l.rowBytes 64
/-- The VA of segment k of tensor row r (R308). -/
def Lay.segVa (l : Lay) (r k : Nat) : Nat := (l.base + r * l.pitch + k * l.S) % 2 ^ 64

/-- The count field of TLD and TST: 0 means 128. -/
def tileN (n : BitVec 7) : Nat := if n = 0 then 128 else n.toNat
/-- The count field of CPY and CPYZ: 0 means 8,192. -/
def bandN (n : BitVec 13) : Nat := if n = 0 then 8192 else n.toNat
/-- The bytes of row `i` of a band in memory. -/
def Lay.rowSpan (l : Lay) (i : Nat) : Nat × Nat := (l.segVa (l.row0 + i) l.col0, l.rowBytes)
/-- Is a copy command a tile store? -/
def CCmd.isTst (c : CCmd) : Bool := match c.instr with | .tst .. => true | _ => false
/-- The runs of memory that a copy command covers: address and length. -/
def CCmd.spans (e : CCmd) : List (Nat × Nat) :=
  let l := Lay.of e.record
  match e.instr with
  | .tld _ _ _ _ _ _ _ n | .tst _ _ _ _ _ _ _ n => (List.range (tileN n)).map (fun i => (l.segVa (l.row0 + i) l.col0, l.S))
  | .cpy _ _ _ _ _ n | .cpyz _ _ _ _ n => (List.range (bandN n)).map l.rowSpan
  | _ => (List.range (e.last + 1 - e.first)).map (fun i => (l.segVa (e.first + i) l.col0, l.rowBytes))
/-- Does it write memory? -/
def CCmd.writesMem (e : CCmd) : Bool :=
  match e.instr with | .tst .. | .cpyz .. => true | .cpy _ _ _ _ out _ => out | _ => false
/-- Has a started command accesses to make: a tile store not encoded or not committed, rows to move? -/
def CCmd.working (e : CCmd) : Bool := e.need.isSome || !e.store.isEmpty || !e.writes.isEmpty || !e.parts.isEmpty

end Machine
end Sys2Proof
end

