-- ==== Sys2Proof/Machine/Mem.lean ====
section
/-! DEFINITION. The memory system below translation (11, 12, 17): DRAM with its encryption and ECC, the holders of a line, and
the accesses of each attribute within one line. Every holder keeps the data of its copies; COH and PRIV copies below the home slice are
kept coherent (R250), SWC copies follow 17 R349-R351, and a full set gives up a line (log 71). -/

namespace Sys2Proof.Machine

/-! ## Addresses (11 R247, R251, R252) -/

/-- Does a physical address exist? -/
def paOk (pa : Nat) : Bool := pa < 2 ^ 39 || (2 ^ 47 ≤ pa && pa < 2 ^ 48)
def isHost (pa : Nat) : Bool := 2 ^ 47 ≤ pa
def stackOf (pa : Nat) : Nat := pa / 2 ^ 36 % 8
/-- The die of a line's home: the die of its stack; die 0 for host lines. -/
def homeDie (pa : Nat) : Nat := if isHost pa then 0 else stackOf pa / 2
/-- The home slice's logical index h (11 R251). -/
def homeSlice (pa : Nat) : Nat :=
  (pa / 2 ^ 6 % 128) ^^^ (pa / 2 ^ 13 % 128) ^^^ (pa / 2 ^ 20 % 128) ^^^ (pa / 2 ^ 27 % 128) ^^^ (pa / 2 ^ 34 % 4)
/-- PCSEL (11 R252). -/
def pcsel (m : BitVec 24) (pa : Nat) : Nat :=
  let a := pa % 2 ^ 36
  (a / 2 ^ 7 % 64) ^^^ (a / 2 ^ 13 % 64 &&& (m.toNat % 64)) ^^^ (a / 2 ^ 19 % 64 &&& (m.toNat / 64 % 64)) ^^^
    (a / 2 ^ 25 % 64 &&& (m.toNat / 2 ^ 12 % 64)) ^^^ (a / 2 ^ 31 % 32 &&& (m.toNat / 2 ^ 18 % 64))

/-! ## Holders -/

/-- The number of a holder: stashes 0-191, cluster caches 192-239, L2, memory-side cache. -/
def hStash (core : Nat) : Nat := core
def hClus (c : Nat) : Nat := 192 + c
def hL2 : Nat := 240
def hMsc : Nat := 241

def getCopy (ms : MemSys) (h line : Nat) : Copy := Sparse.get ms.copies {} (line * 256 + h)
/-- Store a copy; one with no valid sector is dropped. -/
def putCopy (ms : MemSys) (h line : Nat) (c : Copy) : MemSys :=
  { ms with copies := Sparse.set ms.copies {} (line * 256 + h) (if c.valid = 0 then {} else c) }

/-- 64 bytes as a line. -/
def mkLine (l : List Byte) : Vector Byte 64 := ⟨⟨(List.range 64).map (fun i => l.getD i 0)⟩, by simp⟩
/-- Bytes of a line. -/
def lineBytes (c : Copy) (off n : Nat) : List Byte := (c.data.toList.drop off).take n
/-- A write within a line: offsets and bytes. -/
abbrev LineWrite := List (Nat × Byte)
/-- Lay a write over 64 bytes. -/
def overlay (l : List Byte) (w : LineWrite) : List Byte := w.foldl (fun l (i, b) => l.set i b) l
/-- Contiguous bytes as a write. -/
def contig (off : Nat) (bs : List Byte) : LineWrite := bs.zipIdx.map (fun (b, i) => (off + i, b))
/-- The sectors that bytes `off .. off+n-1` touch. -/
def secMask (off n : Nat) : BitVec 4 :=
  (List.range 4).foldl (fun m i => if off < 16 * (i + 1) && 16 * i < off + n then m ||| BitVec.ofNat 4 (2 ^ i) else m) 0
/-- The sectors a write touches, and those it covers whole. -/
def wMask (w : LineWrite) : BitVec 4 := w.foldl (fun m (i, _) => m ||| BitVec.ofNat 4 (2 ^ (i / 16))) 0
def wFull (w : LineWrite) : BitVec 4 :=
  (List.range 4).foldl (fun m i =>
    if (List.range 16).all (fun j => w.any (fun e => e.1 == 16 * i + j)) then m ||| BitVec.ofNat 4 (2 ^ i) else m) 0
/-- Replace the sectors of a mask in 64 bytes. -/
def mergeSecs (m : BitVec 4) (new old : List Byte) : List Byte :=
  (List.range 4).flatMap (fun i => ((if m.getLsbD i then new else old).drop (16 * i)).take 16)

/-! ## Monitors (11 R272, R273) -/

/-- A histogram bin of log2 mode. -/
def log2Bin (v : Nat) : Nat := if v == 0 then 0 else min 15 (Nat.log2 v + 1)

/-- Count one event of `asid` at `pa` on a monitor: filter, then update. -/
def monCount (m : Mon) (hm : BitVec 24) (ev asid pa v : Nat) : Mon :=
  let mode := slc m.cfg 35 33
  let h := homeSlice pa
  let pass := m.cfg.getLsbD 0 && slc m.cfg 63 48 == ev && (m.cfg.getLsbD 39 || slc m.cfg 47 40 == asid) &&
    (match mode with | 2 => slc m.cfg 38 36 == stackOf pa | 3 => h < 64 | 4 => 64 ≤ h | _ => true)
  if !pass then m
  else
    let bin : Option Nat := match mode with
      | 1 => some (log2Bin v) | 2 => some (pcsel hm pa) | 3 => some h | 4 => some (h - 64) | _ => none
    { m with
      count := m.count + 1
      sum := m.sum + BitVec.ofNat 64 v
      min := if v < m.min.toNat then BitVec.ofNat 32 v else m.min
      max := if m.max.toNat < v then BitVec.ofNat 32 v else m.max
      bins := match bin with
        | none => m.bins
        | some b => let x := Sparse.get m.bins 0 b
          Sparse.set m.bins 0 b (if x == 0xFFFFFFFF then x else x + 1) }

/-- An event at a die: every monitor of the die sees it. -/
def monEvent (ms : MemSys) (die ev asid pa v : Nat) : MemSys :=
  let hm := ms.hmask.toList.getD (stackOf pa) 0
  { ms with mons := ms.mons.map (fun (i, m) => if i / 64 == die then (i, monCount m hm ev asid pa v) else (i, m)) }

/-- A timing event: its value is a free value (log 20). -/
def monTimed (ms : MemSys) (die ev asid pa : Nat) : MemSys :=
  monEvent { ms with useClock := ms.useClock + 1 } die ev asid pa (Config.monitorValue ms.useClock).toNat

/-! ## ECC (22 R417, R420) -/

/-- A holder code of 18 R368 that ECCINJ reaches: 0 DRAM, 1 memory-side cache, 2 L2. -/
def flipKey (code gran : Nat) : Nat := gran * 8 + code
def dieKey (die code : Nat) : Nat := die * 8 + code

/-- Read granules of a holder: one flipped bit is corrected and counted, more are an uncorrectable error, counted and reported (R417). -/
def eccRead (ms : MemSys) (code : Nat) (grans : List Nat) : MemSys × Bool :=
  grans.foldl (fun (ms, bad) g =>
    let k := dieKey (homeDie (g * 32)) code
    let m := Sparse.get ms.flips 0 (flipKey code g)
    if m = 0 then (ms, bad)
    else if m &&& (m - 1) = 0 then
      let n := Sparse.get ms.corr 0 k
      let n' := if n == 0xFFFFFFFF then n else n + 1
      ({ ms with corr := Sparse.set ms.corr 0 k n',
                 corrMarks := if n' ≠ n && n' % 65536 == 0 then ms.corrMarks ++ [(k, n')] else ms.corrMarks }, bad)
    else
      let n := Sparse.get ms.uncorr 0 k
      ({ ms with uncorr := Sparse.set ms.uncorr 0 k (if n == 0xFFFFFFFF then n else n + 1) }, true)) (ms, false)

/-- Write granules of a holder: an armed injection takes effect, its bits flipped in what is stored (R420), and other flips of the granule
end. -/
def eccWrite (ms : MemSys) (code : Nat) (grans : List Nat) : MemSys :=
  grans.foldl (fun ms g =>
    let k := dieKey (homeDie (g * 32)) code
    match Sparse.get ms.inject (0, 0) k with
    | (g', mask) =>
      if g' == g + 1 then
        { ms with inject := Sparse.set ms.inject (0, 0) k (0, 0), flips := Sparse.set ms.flips 0 (flipKey code g) mask }
      else { ms with flips := Sparse.set ms.flips 0 (flipKey code g) 0 }) ms

/-- The granules that sectors of a line lie in. -/
def gransOf (line : Nat) (secs : BitVec 4) : List Nat :=
  (if secs &&& 3 ≠ 0 then [line * 2] else []) ++ (if secs &&& 12 ≠ 0 then [line * 2 + 1] else [])
/-- The granules a write touches. -/
def wGrans (line : Nat) (w : LineWrite) : List Nat := gransOf line (wMask w)
/-- Those it covers only in part. -/
def wPart (line : Nat) (w : LineWrite) : List Nat :=
  let f := wFull w
  (if wMask w &&& 3 ≠ 0 && f &&& 3 ≠ 3 then [line * 2] else []) ++
  (if wMask w &&& 12 ≠ 0 && f &&& 12 ≠ 12 then [line * 2 + 1] else [])

/-! ## DRAM and host memory (11 R256; 12 R291) -/

/-- A byte of DRAM or host memory as it was last written; a byte nothing has written reads 0 (11 R429; for host memory log 10). -/
def memByte (ms : MemSys) (pa : Nat) : Byte := Sparse.get ms.mem 0 pa
def memBytes (ms : MemSys) (pa n : Nat) : List Byte := Sparse.slice ms.mem 0 pa n
/-- Store bytes in the canonical list. -/
def memSet (ms : MemSys) (w : List (Nat × Byte)) : MemSys :=
  { ms with mem := w.foldl (fun m (a, b) => Sparse.set m 0 a b) ms.mem }

/-- The canonical form of memory. -/
def Memory.wf (m : List Host.Cell) : Bool := Sparse.wf m 0

/-- The generation of the key in a slot; 0 for an empty slot. -/
def keyGenOf (ms : MemSys) (key : Nat) : Nat := Sparse.get ms.keyGen 0 key

/-- The location that a hash mask gives to an address: bits 12:7 are its pseudo-channel (11 R252, R253). The map is its own
inverse. -/
def locOf (m : BitVec 24) (pa : Nat) : Nat := pa / 8192 * 8192 + pcsel m pa * 128 + pa % 128
/-- The hash mask of an address's stack, and the one at reset. -/
def hmaskAt (ms : MemSys) (pa : Nat) : BitVec 24 := ms.hmask.toList.getD (stackOf pa) 0
def resetMask : BitVec 24 := 0xFFF000
/-- The sector for whose address a sector's bytes were encrypted: what reset wrote there, or the last write. -/
def orgOf (ms : MemSys) (sec : Nat) : Nat :=
  match Sparse.get ms.dorg 0 sec with
  | 0 => locOf resetMask (locOf (hmaskAt ms (sec * 16)) (sec * 16)) / 16
  | k + 1 => k
/-- Note that a sector has been written for its own address. -/
def setOrg (ms : MemSys) (sec : Nat) : MemSys :=
  let home := locOf resetMask (locOf (hmaskAt ms (sec * 16)) (sec * 16)) / 16
  { ms with dorg := Sparse.set ms.dorg 0 sec (if home == sec then 0 else sec + 1) }

/-- A 16-byte sector of DRAM read under key generation `gen` (11 R256). -/
def dramSector (ms : MemSys) (sec gen : Nat) : List Byte :=
  let p := memBytes ms (sec * 16) 16
  let w := Sparse.get ms.dkey 1 sec
  let o := orgOf ms sec
  if w == gen && o == sec then p
  else leBytes 16 (Config.xtsCross w o gen sec (BitVec.ofNat 128 (leNat p))).toNat

/-- A line of DRAM, or of host memory. -/
def dramLine (ms : MemSys) (line gen : Nat) : List Byte :=
  if isHost (line * 64) then memBytes ms (line * 64) 64
  else (List.range 4).flatMap (fun i => dramSector ms (line * 4 + i) gen)

/-- Write bytes of a line to DRAM under a key generation: the rest of a touched sector keeps what that key reads there. -/
def dramStore (ms : MemSys) (line gen : Nat) (w : LineWrite) : MemSys :=
  let base := line * 64
  if isHost base then memSet ms (w.map (fun (i, b) => (base + i, b)))
  else
    (List.range 4).foldl (fun ms i =>
      if (wMask w).getLsbD i then
        let sec := line * 4 + i
        let new := overlay (List.replicate (16 * i) 0 ++ dramSector ms sec gen) (w.filter (fun e => e.1 / 16 == i))
        setOrg { memSet ms (contig (sec * 16) (new.drop (16 * i))) with dkey := Sparse.set ms.dkey 1 sec gen } sec
      else ms) ms

/-- A read of sectors from DRAM with its events and ECC check. -/
def dramRead (ms : MemSys) (asid line key : Nat) (secs : BitVec 4) : List Byte × MemSys × Bool :=
  let pa := line * 64
  if isHost pa then (dramLine ms line 0, ms, false)
  else
    let ms := monTimed (monEvent ms (homeDie pa) 0x0001 asid pa 1) (homeDie pa) 0x0003 asid pa
    let (ms, bad) := eccRead ms 0 (gransOf line secs)
    (dramLine ms line (keyGenOf ms key), ms, bad)

/-- A write to DRAM whose granules need no merge, or have been read: one line write. -/
def dramPut (ms : MemSys) (asid line key : Nat) (w : LineWrite) : MemSys :=
  let pa := line * 64
  if isHost pa then dramStore ms line 0 w
  else dramStore (eccWrite (monEvent ms (homeDie pa) 0x0002 asid pa 1) 0 (wGrans line w)) line (keyGenOf ms key) w

/-- A write to DRAM with its events; a partial granule is read first, and an uncorrectable one is not written (12 R291). -/
def dramWrite (ms : MemSys) (asid line key : Nat) (w : LineWrite) : MemSys × Bool :=
  let pa := line * 64
  if isHost pa then (dramStore ms line 0 w, false)
  else
    let part := wPart line w
    let ms := if part.isEmpty then ms else monTimed (monEvent ms (homeDie pa) 0x0001 asid pa 1) (homeDie pa) 0x0003 asid pa
    let (ms, bad) := eccRead ms 0 part
    if bad then (ms, true) else (dramPut ms asid line key w, false)

/-- Who accesses, and how: the core whose path is used, ASID, attribute (0 COH, 1 SWC, 2 PRIV, 3 FAR), key slot, chain id of the
line, scope, whether the access uses the stash and the stash's size H in KiB; `home`: an access of the part that is made at the home
slice and fills no holder below it. -/
structure Acc where
  core  : Nat
  asid  : Nat
  attr  : Nat
  key   : Nat := 0
  chain : Nat := 0
  scope : Scope := .package
  stash : Bool := false
  hK    : Nat := 0
  home  : Bool := false
  deriving DecidableEq, Repr

/-- Does the access allocate in the stash? -/
def usesStash (a : Acc) : Bool := a.stash && 0 < a.hK

/-- A part access by physical address: COH under key slot 0, at the home slice. -/
def partAcc : Acc := { core := 0, asid := 255, attr := 0, home := true }
/-- Host memory is accessed at the host and is not cached (21 R394). -/
def partAccAt (pa : Nat) : Acc := { partAcc with attr := if isHost pa then 3 else 0 }

/-! ## Write-back and eviction (11 R249, R250, R254) -/

/-- Store a copy as the one used last. -/
def putUsed (ms : MemSys) (h line : Nat) (c : Copy) : MemSys :=
  putCopy { ms with useClock := ms.useClock + 1 } h line { c with use := ms.useClock }

/-- The dirty sectors of a copy as a write. -/
def dirtyWrite (c : Copy) : LineWrite :=
  (List.range 64).filterMap (fun i => if c.dirty.getLsbD (i / 16) then some (i, c.data.toList.getD i 0) else none)

/-- Write a copy's dirty sectors to DRAM; an uncorrectable granule is entered for the error log (12 R291). -/
def toDram (ms : MemSys) (line : Nat) (c : Copy) : MemSys :=
  if c.dirty = 0 then ms
  else
    let (ms, bad) := dramWrite ms c.asid line c.key (dirtyWrite c)
    if bad then { ms with errs := ms.errs ++ [(line * 64, 0)] } else ms

/-- The line that leaves a full set for another: a first-to-evict one before any other (R254), else the one used least recently (R249,
R254; log 71 for the cluster cache and the L2 slice). -/
def victimOf (peers : Sparse Copy) : Option Nat :=
  (peers.foldl (fun (b : Option (Nat × Copy)) e => match b with
    | none => some e
    | some x => if (e.2.fte && !x.2.fte) || (e.2.fte == x.2.fte && e.2.use < x.2.use) then some e else b) none).map (fun e => e.1 / 256)

/-- Do two lines of a holder share a set? The stash's sets are R249's; the sets of a cluster cache, an L2 slice and a memory-side cache are
free (log 71). -/
def sameSet (h hK a b : Nat) : Bool :=
  if h < 192 then a % (4 * hK) == b % (4 * hK)
  else if h < 240 then Config.cacheSet 1 a == Config.cacheSet 1 b
  else if h == hL2 then
    homeDie (a * 64) == homeDie (b * 64) && homeSlice (a * 64) == homeSlice (b * 64) && Config.cacheSet 2 a == Config.cacheSet 2 b
  else stackOf (a * 64) == stackOf (b * 64) && Config.cacheSet 3 a == Config.cacheSet 3 b

/-- The line that must leave a holder before another can enter it: none where it holds that one, or where the set has a way free. The
stash has 4 ways, every other holder 16 (R248, R249, R254). -/
def roomFor (ms : MemSys) (h hK line : Nat) : Option Nat :=
  if (getCopy ms h line).valid ≠ 0 then none
  else
    let ways := if h < 192 then 4 else 16
    let mine := ms.copies.filter (fun e => e.1 % 256 == h)
    if mine.length < ways then none
    else
      let peers := mine.filter (fun e => sameSet h hK (e.1 / 256) line)
      if peers.length < ways then none else victimOf peers

/-- A line leaves the memory-side cache: dirty sectors go to DRAM. -/
def evictMsc (ms : MemSys) (line : Nat) : MemSys :=
  let c := getCopy ms hMsc line
  if c.valid = 0 then ms
  else
    let ms := putCopy ms hMsc line {}
    let (ms, bad) := if c.dirty = 0 then (ms, false) else eccRead ms 1 (gransOf line c.dirty)
    if bad then { ms with errs := ms.errs ++ [(line * 64, 1)] } else toDram ms line c

/-- A line enters the memory-side cache, another leaving it where its set is full. -/
def enterMsc (ms : MemSys) (line : Nat) (c : Copy) : MemSys :=
  let ms := match roomFor ms hMsc 0 line with | some v => evictMsc ms v | none => ms
  putUsed (eccWrite ms 1 (gransOf line c.valid)) hMsc line c

/-- An L2 line leaves for the memory-side cache, keeping its first-to-evict mark; a host line for host memory. -/
def evictL2 (ms : MemSys) (line : Nat) : MemSys :=
  let c := getCopy ms hL2 line
  if c.valid = 0 then ms
  else
    let ms := putCopy ms hL2 line {}
    if isHost (line * 64) then toDram ms line c
    else
      let (ms, bad) := eccRead ms 2 (gransOf line c.valid)
      if bad then { ms with errs := ms.errs ++ [(line * 64, 2)] } else enterMsc ms line c

/-- Room for a line in its home slice. -/
def roomL2 (ms : MemSys) (line : Nat) : MemSys := match roomFor ms hL2 0 line with | some v => evictL2 ms v | none => ms

/-- The memory-side copy of a line moves up into L2 whole, dirty state included, and loses its first-to-evict mark (R254): the two are
exclusive. The Bool is an uncorrectable error in it; the copy then stays. -/
def liftMsc (ms : MemSys) (line : Nat) : MemSys × Bool :=
  let m := getCopy ms hMsc line
  if m.valid = 0 then (ms, false)
  else
    let (ms, bad) := eccRead ms 1 (gransOf line m.valid)
    if bad then (ms, true)
    else
      let ms := roomL2 (putCopy ms hMsc line {}) line
      let c := getCopy ms hL2 line
      let add := m.valid &&& ~~~c.valid
      (putUsed (eccWrite ms 2 (gransOf line add)) hL2 line { c with
        data := mkLine (mergeSecs add m.data.toList c.data.toList)
        valid := c.valid ||| m.valid, dirty := c.dirty ||| (m.dirty &&& add), key := m.key, asid := m.asid, swc := false
        fte := if c.valid = 0 then false else c.fte, chain := if c.valid = 0 then m.chain else c.chain }, false)

/-- Dirty sectors reach the home slice of their line. -/
def mergeHome (ms : MemSys) (line : Nat) (c : Copy) : MemSys :=
  let (ms, bad) := if (getCopy ms hL2 line).valid = 0 then liftMsc ms line else (ms, false)
  let ms := if bad then { putCopy ms hMsc line {} with errs := ms.errs ++ [(line * 64, 1)] } else ms
  let ms := roomL2 ms line
  let o := getCopy ms hL2 line
  putUsed (eccWrite ms 2 (gransOf line c.dirty)) hL2 line { o with
    data := mkLine (mergeSecs c.dirty c.data.toList o.data.toList)
    valid := o.valid ||| c.dirty, dirty := o.dirty ||| c.dirty, key := c.key, asid := c.asid, swc := false
    chain := if o.valid = 0 then c.chain else o.chain }

/-- Write back a cluster cache line's dirty sectors to the home slice; the copy becomes clean. -/
def cleanClus (ms : MemSys) (clus line : Nat) : MemSys :=
  let c := getCopy ms (hClus clus) line
  if c.dirty = 0 then ms
  else
    let ms := mergeHome ms line c
    putCopy { ms with wakes := ms.wakes ++ [line] } (hClus clus) line { c with dirty := 0 }

/-- A line leaves a cluster cache, its dirty sectors written back. -/
def evictClus (ms : MemSys) (clus line : Nat) : MemSys := putCopy (cleanClus ms clus line) (hClus clus) line {}

/-- Room for a line in a cluster cache; a copy of the other kind of coherence leaves as well. -/
def roomClus (ms : MemSys) (clus line : Nat) (swc : Bool) : MemSys :=
  let o := getCopy ms (hClus clus) line
  let ms := if o.valid ≠ 0 && o.swc ≠ swc then evictClus ms clus line else ms
  match roomFor ms (hClus clus) 0 line with | some v => evictClus ms clus v | none => ms

/-- Write back a stash line's dirty sectors to the cluster cache; the copy becomes clean. -/
def cleanStash (ms : MemSys) (core line : Nat) : MemSys :=
  let c := getCopy ms (hStash core) line
  if c.dirty = 0 then ms
  else
    let clus := clusterOf core
    let ms := roomClus ms clus line c.swc
    let o := getCopy ms (hClus clus) line
    let ms := putUsed ms (hClus clus) line { o with
      data := mkLine (mergeSecs c.dirty c.data.toList o.data.toList)
      valid := o.valid ||| c.dirty, dirty := o.dirty ||| c.dirty, key := c.key, asid := c.asid, swc := c.swc, chain := c.chain }
    putCopy ms (hStash core) line { c with dirty := 0 }

/-- The eviction of a line from a holder. -/
def evictLine (ms : MemSys) (h line : Nat) : MemSys :=
  if h < 192 then putCopy (cleanStash ms h line) h line {}
  else if h < 240 then evictClus ms (h - 192) line
  else if h == hL2 then evictL2 ms line
  else evictMsc ms line

/-- Room for a line in the stash or the cluster cache of an access. -/
def makeRoom (ms : MemSys) (a : Acc) (h line : Nat) : MemSys :=
  match roomFor ms h a.hK line with | some v => evictLine ms h v | none => ms

/-- The holders of a line. -/
def holdersOf (ms : MemSys) (line : Nat) : List Nat := (ms.copies.filter (fun e => e.1 / 256 == line)).map (fun e => e.1 % 256)
/-- Those below the home slice that have a coherent copy of it. -/
def coherentAt (ms : MemSys) (line : Nat) : List Nat :=
  (ms.copies.filter (fun e => e.1 / 256 == line && e.1 % 256 < 240 && !e.2.swc)).map (fun e => e.1 % 256)

/-- Every holder of a line gives it up, dirty data reaching DRAM: used when a line is read under another key than its copies'
(log 22). -/
def flushLine (ms : MemSys) (line : Nat) : MemSys :=
  let ms := ((holdersOf ms line).filter (· < 192)).foldl (fun ms h => evictLine ms h line) ms
  let ms := ((holdersOf ms line).filter (· < 240)).foldl (fun ms h => evictLine ms h line) ms
  evictMsc (evictL2 ms line) line

/-! ## Coherence of COH and PRIV copies (11 R248, R250; 12 R298)

A copy below the home slice with `swc = false` is a coherent one: its clean sectors hold what the line holds, and a dirty one is the
line's newest data. A sector that is dirty in a core's stash is valid in no other coherent copy below the home slice. -/

/-- Another holder's access: dirty coherent sectors below the home slice, but for those of holder `keep`, are written back to it
(R250). -/
def recallLine (ms : MemSys) (keep line : Nat) : MemSys :=
  let ms := (coherentAt ms line).foldl (fun ms h => if h < 192 && h ≠ keep then cleanStash ms h line else ms) ms
  (coherentAt ms line).foldl (fun ms h => if h < 192 || h == keep then ms else cleanClus ms (h - 192) line) ms

/-- The coherent copies below the home slice are given up, but for that of holder `keep`. -/
def dropCoherent (ms : MemSys) (keep line : Nat) : MemSys :=
  (coherentAt ms line).foldl (fun ms h => if h == keep then ms else putCopy ms h line {}) ms

/-- The valid sectors of a holder's coherent copy. -/
def coherentSecs (ms : MemSys) (h line : Nat) : BitVec 4 :=
  let c := getCopy ms h line
  if c.swc then 0 else c.valid

/-- Put clean sectors into a holder's coherent copy; a software-coherent copy that it holds of the line stays as it is (11 R264). -/
def fillCoherent (ms : MemSys) (a : Acc) (h line : Nat) (secs : BitVec 4) (bs : List Byte) : MemSys :=
  let c := getCopy ms h line
  if c.swc && c.valid ≠ 0 then ms
  else
    let ms := makeRoom ms a h line
    putUsed ms h line { c with
      data := mkLine (mergeSecs (secs &&& ~~~c.valid) bs c.data.toList), valid := c.valid ||| secs
      key := a.key, asid := a.asid, swc := false, chain := a.chain }

/-! ## The home slice -/

/-- Open a line at its home slice for an access that touches sectors `touch` and needs the data of `need` (R254): a hit, or a miss that
first takes the line over from the memory-side cache, and reads what is still lacking from DRAM. The result names the holder of an
uncorrectable error. -/
def openHome (ms : MemSys) (a : Acc) (line : Nat) (touch need : BitVec 4) : MemSys × Option Nat :=
  let pa := line * 64
  let die := homeDie pa
  let ms := monEvent ms die 0x0010 a.asid pa 1
  let c := getCopy ms hL2 line
  let (ms, bad) := eccRead ms 2 (gransOf line (need &&& c.valid))
  if bad then (ms, some 2)
  else if touch &&& ~~~c.valid = 0 then (putUsed ms hL2 line c, none)
  else
    let ms := monEvent ms die 0x0011 a.asid pa 1
    let m := getCopy ms hMsc line
    let ms := if isHost pa then ms else monEvent ms die (if m.valid = 0 then 0x0013 else 0x0012) a.asid pa 1
    let (ms, bad) := liftMsc ms line
    if bad then (ms, some 1)
    else
      let c := getCopy ms hL2 line
      let c : Copy := if c.valid = 0 then { chain := a.chain, key := a.key, asid := a.asid } else c
      let miss := need &&& ~~~c.valid
      if miss = 0 then (putUsed ms hL2 line c, none)
      else
        let (bs, ms, bad) := dramRead ms a.asid line a.key miss
        if bad then (putUsed ms hL2 line c, some 0)
        else
          let ms := eccWrite (roomL2 ms line) 2 (gransOf line miss)
          (putUsed ms hL2 line { c with data := mkLine (mergeSecs miss bs c.data.toList), valid := c.valid ||| miss }, none)

/-- The stash whose coherent sectors the access itself uses; the home slice where it uses none. -/
def keptBy (a : Acc) : Nat := if usesStash a then hStash a.core else hL2

/-- Bring sectors of a line into its home slice, newest data. -/
def fillL2 (ms : MemSys) (a : Acc) (line : Nat) (secs : BitVec 4) : MemSys × Option Nat :=
  openHome (recallLine ms (keptBy a) line) a line secs secs

/-- Lay a write over an opened line of the home slice; the line's armed monitors are noted (17 R364). -/
def storeHome (ms : MemSys) (a : Acc) (line : Nat) (w : LineWrite) : MemSys :=
  let ms := roomL2 ms line
  let c := getCopy ms hL2 line
  let c : Copy := if c.valid = 0 then { c with chain := a.chain } else c
  let ms := eccWrite ms 2 (wGrans line w)
  putUsed { ms with wakes := ms.wakes ++ [line] } hL2 line { c with
    data := mkLine (overlay c.data.toList w)
    valid := c.valid ||| wMask w, dirty := c.dirty ||| wMask w, key := a.key, asid := a.asid }

/-- Write bytes at the home slice: coherent copies elsewhere are recalled and given up. -/
def writeHome (ms : MemSys) (a : Acc) (line : Nat) (w : LineWrite) : MemSys × Option Nat :=
  let (ms, e) := openHome (dropCoherent (recallLine ms hL2 line) hL2 line) a line (wMask w) (wMask w &&& ~~~wFull w)
  match e with
  | some h => (ms, some h)
  | none => (storeHome ms a line w, none)

/-- A read-modify-write at the home slice as one access (12 R298): the old bytes. -/
def rmwHome (ms : MemSys) (a : Acc) (line off n : Nat) (f : List Byte → List Byte) : List Byte × MemSys × Option Nat :=
  let secs := secMask off n
  let (ms, e) := openHome (dropCoherent (recallLine ms hL2 line) hL2 line) a line secs secs
  match e with
  | some h => ([], ms, some h)
  | none =>
    let old := lineBytes (getCopy ms hL2 line) off n
    (old, storeHome ms a line (contig off (f old)), none)

/-! ## COH and PRIV accesses -/

/-- The coherent sectors that the holders on the access's path have: stash, cluster cache. -/
def pathSecs (ms : MemSys) (a : Acc) (line : Nat) : BitVec 4 × BitVec 4 :=
  (if usesStash a then coherentSecs ms (hStash a.core) line else 0,
   if a.home then 0 else coherentSecs ms (hClus (clusterOf a.core)) line)

/-- The 64 bytes of a line as a coherent read gives them, of which the sectors `secs` count: from the stash, else the cluster cache, else
the home slice, filling the holders on the way (R248, R249). -/
def loadCoherent (ms : MemSys) (a : Acc) (line : Nat) (secs : BitVec 4) : List Byte × MemSys × Option Nat :=
  let stH := hStash a.core
  let clH := hClus (clusterOf a.core)
  let st := getCopy ms stH line
  let cl := getCopy ms clH line
  let (so, co) := pathSecs ms a line
  if secs &&& ~~~so = 0 then (st.data.toList, putUsed ms stH line st, none)
  else
    let need := secs &&& ~~~so &&& ~~~co
    let (ms, e) := if need = 0 then (putUsed ms clH line cl, none) else fillL2 ms a line need
    match e with
    | some h => ([], ms, some h)
    | none =>
      let bs := mergeSecs so st.data.toList (mergeSecs co cl.data.toList (getCopy ms hL2 line).data.toList)
      let ms := if a.home || need = 0 then ms else fillCoherent ms a clH line (need ||| co) bs
      (bs, if usesStash a then fillCoherent ms a stH line secs bs else ms, none)

/-- Where a coherent store of the access is made: the stash, with H = 0 the cluster cache (R249), else the home slice; a holder that
has a software-coherent copy of the line is passed over. -/
def storeHolder (ms : MemSys) (a : Acc) (line : Nat) : Nat :=
  let h := if usesStash a then hStash a.core else if a.stash && !a.home then hClus (clusterOf a.core) else hL2
  if (getCopy ms h line).swc && h ≠ hL2 then hL2 else h

/-- A coherent store: its holder takes the line over from every other one, unless its dirty sectors there make it the owner already, and
fills the sectors that the store touches (R249, R250). -/
def storeCoherent (ms : MemSys) (a : Acc) (line : Nat) (w : LineWrite) : MemSys × Option Nat :=
  let h := storeHolder ms a line
  let secs := wMask w
  if h == hL2 then writeHome ms a line w
  else
    let put (ms : MemSys) : MemSys :=
      let c := getCopy ms h line
      putUsed { ms with wakes := ms.wakes ++ [line] } h line
        { c with data := mkLine (overlay c.data.toList w), dirty := c.dirty ||| secs, key := a.key, asid := a.asid }
    if secs &&& ~~~(getCopy ms h line).dirty = 0 then (put (dropCoherent ms h line), none)
    else
      let ms := recallLine ms h line
      let need := secs &&& ~~~coherentSecs ms h line
      let (ms, e) := openHome ms a line need need
      match e with
      | some x => (ms, some x)
      | none =>
        let ms := dropCoherent ms h line
        (put (fillCoherent ms a h line secs (getCopy ms hL2 line).data.toList), none)

/-! ## The base die: FAR accesses (11 R255) -/

/-- A FAR access meets the memory-side cache: the copy under the access's key, and the hit or miss event. -/
def farLook (ms : MemSys) (a : Acc) (line : Nat) : Copy × MemSys :=
  let pa := line * 64
  let m := getCopy ms hMsc line
  let m : Copy := if m.key == a.key then m else {}
  if isHost pa then ({}, ms) else (m, monEvent ms (homeDie pa) (if m.valid = 0 then 0x0013 else 0x0012) a.asid pa 1)

/-- A FAR read: sector by sector the memory-side copy where it has them, which stays in place, otherwise DRAM; host memory at the
host. -/
def readFar (ms : MemSys) (a : Acc) (line off n : Nat) : List Byte × MemSys × Option Nat :=
  let secs := secMask off n
  let (m, ms) := farLook ms a line
  let (ms, bad) := eccRead ms 1 (gransOf line (secs &&& m.valid))
  let ms := if m.valid = 0 then ms else putUsed ms hMsc line m
  if bad then ([], ms, some 1)
  else if secs &&& ~~~m.valid = 0 then (lineBytes m off n, ms, none)
  else
    let (bs, ms, bad) := dramRead ms a.asid line a.key (secs &&& ~~~m.valid)
    (((mergeSecs m.valid m.data.toList bs).drop off).take n, ms, if bad then some 0 else none)

/-- What a FAR write does to the memory-side copy: the sectors that it has take the bytes and become dirty. -/
def farPut (ms : MemSys) (line : Nat) (m : Copy) (w : LineWrite) : MemSys :=
  let hit := w.filter (fun e => m.valid.getLsbD (e.1 / 16))
  if hit.isEmpty then ms
  else putUsed (eccWrite ms 1 (wGrans line hit)) hMsc line
    { m with data := mkLine (overlay m.data.toList hit), dirty := m.dirty ||| wMask hit }

/-- A FAR write: sectors of the memory-side copy where it has them, the others in DRAM. A part of a granule is merged with what is there
(12 R291). -/
def writeFar (ms : MemSys) (a : Acc) (line : Nat) (w : LineWrite) : MemSys × Option Nat :=
  let (m, ms) := farLook ms a line
  let (ms, bad) := eccRead ms 1 (wPart line (w.filter (fun e => m.valid.getLsbD (e.1 / 16))))
  if bad then (ms, some 1)
  else
    let rest := w.filter (fun e => !m.valid.getLsbD (e.1 / 16))
    let (ms, bad) := if rest.isEmpty then (ms, false) else dramWrite ms a.asid line a.key rest
    if bad then (ms, some 0) else (farPut ms line m w, none)

/-- A read-modify-write at the base die as one granule access (12 R298, R291): one read and one write where DRAM is used. -/
def rmwFar (ms : MemSys) (a : Acc) (line off n : Nat) (f : List Byte → List Byte) : List Byte × MemSys × Option Nat :=
  let secs := secMask off n
  let (m, ms) := farLook ms a line
  let (ms, bad) := eccRead ms 1 (gransOf line (secs &&& m.valid))
  if bad then ([], ms, some 1)
  else if secs &&& ~~~m.valid = 0 then
    let old := lineBytes m off n
    (old, farPut ms line m (contig off (f old)), none)
  else
    let (bs, ms, bad) := dramRead ms a.asid line a.key secs
    if bad then ([], ms, some 0)
    else
      let old := (bs.drop off).take n
      let w := contig off (f old)
      (old, dramPut ms a.asid line a.key w, none)

/-! ## Software-coherent lines (17 R349, R350) -/

/-- The level of a scope for an access: 0 the stash, 1 the cluster cache, 2 the home slice. -/
def swcLevel (a : Acc) : Nat :=
  if a.home then 2
  else match a.scope with
  | .core => if usesStash a then 0 else 1
  | .cluster => 1
  | _ => 2

/-- The sectors of a holder's software-coherent copy that an access takes from it: the valid ones at or above the access's level, the dirty
ones below it. -/
def swcSecs (ms : MemSys) (h line : Nat) (atLevel : Bool) : BitVec 4 :=
  let c := getCopy ms h line
  if !c.swc then 0 else if atLevel then c.valid else c.dirty

/-- A line as holders at or above a level give it, sector by sector: the level's valid sectors, then those above, then the home
slice. -/
def swcFetch (ms : MemSys) (a : Acc) (line : Nat) (secs : BitVec 4) : List Byte × MemSys × Option Nat :=
  let st := getCopy ms (hStash a.core) line
  let cl := getCopy ms (hClus (clusterOf a.core)) line
  let lv := swcLevel a
  let stOk := if a.home then 0 else swcSecs ms (hStash a.core) line (lv == 0)
  let clOk := if a.home then 0 else swcSecs ms (hClus (clusterOf a.core)) line (lv ≤ 1)
  let need := secs &&& ~~~stOk &&& ~~~clOk
  let (home, ms, e) := if need = 0 then (zeros 64, ms, none)
    else
      let (ms, e) := fillL2 ms a line need
      ((getCopy ms hL2 line).data.toList, ms, e)
  (mergeSecs stOk st.data.toList (mergeSecs clOk cl.data.toList home), ms, e)

/-- Put sectors into a holder of the path without making them dirty; sectors that are dirty there keep their data. A coherent copy of the
line that the holder has leaves first. -/
def fillPath (ms : MemSys) (a : Acc) (h line : Nat) (secs : BitVec 4) (bs : List Byte) : MemSys :=
  let ms := if coherentSecs ms h line = 0 then ms else evictLine ms h line
  let ms := makeRoom ms a h line
  let c := getCopy ms h line
  let add := secs &&& ~~~c.dirty
  putUsed ms h line { c with
    data := mkLine (mergeSecs add bs c.data.toList), valid := c.valid ||| secs, key := a.key, asid := a.asid, swc := true
    chain := a.chain }

/-- An SWC read. -/
def readSwc (ms : MemSys) (a : Acc) (line off n : Nat) : List Byte × MemSys × Option Nat :=
  let secs := secMask off n
  let (bs, ms, e) := swcFetch ms a line secs
  match e with
  | some h => ([], ms, some h)
  | none =>
    let ms := if a.home then ms else fillPath ms a (hClus (clusterOf a.core)) line secs bs
    let ms := if usesStash a then fillPath ms a (hStash a.core) line secs bs else ms
    ((bs.drop off).take n, ms, none)

/-- Lay a write over the valid sectors that a holder has of a software-coherent line. -/
def updateCopy (ms : MemSys) (h line : Nat) (w : LineWrite) : MemSys :=
  let c := getCopy ms h line
  if c.valid = 0 || !c.swc then ms
  else putCopy ms h line { c with data := mkLine (overlay c.data.toList (w.filter (fun e => c.valid.getLsbD (e.1 / 16)))) }

/-- Fill a holder's sectors, lay a write over them and mark them dirty. -/
def storeSwc (ms : MemSys) (a : Acc) (h line : Nat) (secs : BitVec 4) (bs : List Byte) (w : LineWrite) : MemSys :=
  let ms := fillPath ms a h line secs bs
  let c := getCopy ms h line
  putCopy ms h line { c with data := mkLine (overlay c.data.toList w), dirty := c.dirty ||| secs }

/-- An SWC write: through to its level, updating the copies below it on the path (17 R350). -/
def writeSwc (ms : MemSys) (a : Acc) (line : Nat) (w : LineWrite) : MemSys × Option Nat :=
  let secs := wMask w
  let stH := hStash a.core
  let clH := hClus (clusterOf a.core)
  match swcLevel a with
  | 2 =>
    let (ms, e) := writeHome ms a line w
    match e with
    | some h => (ms, some h)
    | none =>
      let ms := if a.home then ms else updateCopy (updateCopy ms stH line w) clH line w
      if usesStash a then
        let (bs, ms, _) := swcFetch ms { a with scope := .package } line secs
        (fillPath ms a stH line secs bs, none)
      else (ms, none)
  | lv =>
    let (bs, ms, e) := swcFetch ms a line secs
    match e with
    | some h => (ms, some h)
    | none =>
      if lv == 0 then (storeSwc ms a stH line secs bs w, none)
      else
        let ms := updateCopy (storeSwc ms a clH line secs bs w) stH line w
        (if usesStash a then fillPath ms a stH line secs (overlay bs w) else ms, none)

/-! ## Tile locks (17 R344, R348) -/

/-- The holder at which an access takes its place: the level of its scope for SWC, the home slice for every other. -/
def orderAt (a : Acc) : Nat :=
  if a.attr == 1 then (match swcLevel a with | 0 => hStash a.core | 1 => hClus (clusterOf a.core) | _ => hL2) else hL2
/-- The number of a line's lock at a holder. -/
def lockKey (line h : Nat) : Nat := line * 256 + h
/-- The sectors that a load has without asking the holder that orders it: a lease granted before, or what is dirty below. -/
def leased (ms : MemSys) (a : Acc) (line : Nat) : BitVec 4 :=
  if a.attr ≠ 1 then (pathSecs ms a line).1 ||| (pathSecs ms a line).2
  else (if 0 < swcLevel a then swcSecs ms (hStash a.core) line false else 0) |||
    (if 1 < swcLevel a then swcSecs ms (hClus (clusterOf a.core)) line false else 0)
/-- Must an access to bytes of a line wait for a tile store that has locked it? PRIV lines are their owner's, and FAR lines take no
locks. -/
def lineHeld (ms : MemSys) (a : Acc) (write : Bool) (line off n : Nat) : Bool :=
  a.attr < 2 && Sparse.get ms.locks 0 (lockKey line (orderAt a)) ≠ 0 && (write || secMask off n &&& ~~~leased ms a line ≠ 0)

/-! ## An access within a line -/

/-- A near access by a key other than that of the line's copies finds none of them: they leave first, under their own key (log 22). -/
def sameKey (ms : MemSys) (a : Acc) (line : Nat) : MemSys :=
  if ms.copies.any (fun e => e.1 / 256 == line && e.2.key ≠ a.key) then flushLine ms line else ms

/-- Read bytes of one line by attribute. -/
def readLine (ms : MemSys) (a : Acc) (line off n : Nat) : List Byte × MemSys × Option Nat :=
  match a.attr with
  | 3 => readFar ms a line off n
  | 1 => readSwc (sameKey ms a line) a line off n
  | _ =>
    let (bs, ms, e) := loadCoherent (sameKey ms a line) a line (secMask off n)
    ((bs.drop off).take n, ms, e)

/-- Write bytes of one line by attribute. -/
def writeLine (ms : MemSys) (a : Acc) (line : Nat) (w : LineWrite) : MemSys × Option Nat :=
  if w.isEmpty then (ms, none)
  else match a.attr with
  | 3 => writeFar ms a line w
  | 1 => writeSwc (sameKey ms a line) a line w
  | _ => storeCoherent (sameKey ms a line) a line w

/-- An atomic within a line: at the home slice, past any software-coherent copy, or at the base die (12 R298). -/
def rmwLine (ms : MemSys) (a : Acc) (line off n : Nat) (f : List Byte → List Byte) : List Byte × MemSys × Option Nat :=
  match a.attr with
  | 3 => rmwFar ms a line off n f
  | _ => rmwHome (sameKey ms a line) a line off n f

/-- Split a run of bytes at line boundaries: (physical address, length), at most `fuel` pieces. -/
def lineRuns : (fuel pa n : Nat) → List (Nat × Nat)
  | 0, _, _ => []
  | f + 1, pa, n =>
    if n == 0 then [] else
      let k := min n (64 - pa % 64)
      (pa, k) :: lineRuns f (pa + k) (n - k)

/-- Read a run of physical bytes; the first uncorrectable error is reported with its address. -/
def readPa (ms : MemSys) (a : Acc) (pa n : Nat) : List Byte × MemSys × Option (Nat × Nat) :=
  (lineRuns (n / 64 + 2) pa n).foldl (fun (bs, ms, e) (p, k) =>
    let (b, ms, e') := readLine ms a (p / 64) (p % 64) k
    (bs ++ b, ms, match e with | some x => some x | none => e'.map (fun h => (h, p)))) ([], ms, none)

/-- Write a run of physical bytes. -/
def writePa (ms : MemSys) (a : Acc) (pa : Nat) (bs : List Byte) : MemSys × Option (Nat × Nat) :=
  (lineRuns (bs.length / 64 + 2) pa bs.length).foldl (fun (ms, e) (p, k) =>
    let (ms, e') := writeLine ms a (p / 64) (contig (p % 64) ((bs.drop (p - pa)).take k))
    (ms, match e with | some x => some x | none => e'.map (fun h => (h, p)))) (ms, none)

/-! ## Releases and acquires over SWC lines (17 R351), maintenance (12 R300) -/

/-- The lines that a holder has of a context's SWC memory. -/
def swcLines (ms : MemSys) (h asid : Nat) : List Nat :=
  (ms.copies.filter (fun e => e.1 % 256 == h && e.2.swc && e.2.asid == asid)).map (fun e => e.1 / 256)

/-- Write back the dirty SWC sectors of a context held below L(X) on a core's path. -/
def releaseLines (ms : MemSys) (core asid : Nat) (sc : Scope) : MemSys :=
  match sc with
  | .core => ms
  | .cluster => (swcLines ms (hStash core) asid).foldl (fun ms l => cleanStash ms core l) ms
  | _ =>
    let ms := (swcLines ms (hStash core) asid).foldl (fun ms l => cleanStash ms core l) ms
    (swcLines ms (hClus (clusterOf core)) asid).foldl (fun ms l => cleanClus ms (clusterOf core) l) ms

/-- Drop the SWC copies of a context held below L(X) on a core's path, after write-back. -/
def acquireLines (ms : MemSys) (core asid : Nat) (sc : Scope) : MemSys :=
  match sc with
  | .core => ms
  | .cluster => (swcLines ms (hStash core) asid).foldl (fun ms l => evictLine ms (hStash core) l) ms
  | _ =>
    let ms := (swcLines ms (hStash core) asid).foldl (fun ms l => evictLine ms (hStash core) l) ms
    (swcLines ms (hClus (clusterOf core)) asid).foldl (fun ms l => evictLine ms (hClus (clusterOf core)) l) ms

/-- CLEAN of a line at a scope: dirty sectors are written back and the copies stay valid. -/
def cleanLine (ms : MemSys) (core line : Nat) (sc : Scope) : MemSys :=
  match sc with
  | .core => ms
  | .cluster => cleanStash ms core line
  | .die => cleanClus (cleanStash ms core line) (clusterOf core) line
  | _ =>
    let ms := ((holdersOf ms line).filter (· < 192)).foldl (fun ms h => cleanStash ms h line) ms
    let ms := (List.range 48).foldl (fun ms c => cleanClus ms c line) ms
    let c := getCopy ms hL2 line
    if c.dirty = 0 then ms
    else
      let (ms, bad) := eccRead ms 2 (gransOf line c.dirty)
      if bad then { ms with errs := ms.errs ++ [(line * 64, 2)] }
      else putCopy (toDram ms line c) hL2 line { c with dirty := 0 }

/-- INVAL of a line at a scope: written back, then dropped; from L2 it leaves as an eviction. -/
def invalLine (ms : MemSys) (core line : Nat) (sc : Scope) : MemSys :=
  match sc with
  | .core => ms
  | .cluster => evictLine ms (hStash core) line
  | .die => evictLine (evictLine ms (hStash core) line) (hClus (clusterOf core)) line
  | _ =>
    let ms := ((holdersOf ms line).filter (· < 192)).foldl (fun ms h => evictLine ms h line) ms
    let ms := (List.range 48).foldl (fun ms c => evictLine ms (hClus c) line) ms
    { evictL2 ms line with
      icache := ms.icache.filter (fun e => e.1 % 2 ^ 42 ≠ line), icUse := ms.icUse.filter (fun e => e.1 % 2 ^ 42 ≠ line) }

/-- The stash of a core empties: dirty sectors are written back (11 R250). -/
def flushStash (ms : MemSys) (core : Nat) : MemSys :=
  ((ms.copies.filter (fun e => e.1 % 256 == core)).map (fun e => e.1 / 256)).foldl (fun ms l => evictLine ms (hStash core) l) ms

/-! ## Chains and keys (11 R270, R271) -/

/-- Mark the lines of a chain first-to-evict in L2 and the memory-side caches. -/
def demoteChain (ms : MemSys) (id : Nat) : MemSys :=
  { ms with copies := ms.copies.map (fun (k, c) =>
      if c.chain == id && (k % 256 == hL2 || k % 256 == hMsc) then (k, { c with fte := true }) else (k, c)) }

/-- Discard every copy under a key; the count of lines that had a dirty sector, each once. -/
def destroyKey (ms : MemSys) (key : Nat) : Nat × MemSys :=
  let gone := ms.copies.filter (fun e => e.2.key == key)
  let dirty := ((gone.filter (fun e => e.2.dirty ≠ 0)).map (fun e => e.1 / 256)).eraseDups
  (dirty.length, { ms with
    copies := ms.copies.filter (fun e => e.2.key ≠ key)
    keyGen := Sparse.set ms.keyGen 0 key 0 })

/-- Write back and drop every line of a stack from L2 and its memory-side cache (11 R253). -/
def flushStack (ms : MemSys) (stack : Nat) : MemSys :=
  let ls (h : Nat) (ms : MemSys) := (ms.copies.filter (fun e => e.1 % 256 == h && !isHost (e.1 / 256 * 64) &&
    stackOf (e.1 / 256 * 64) == stack)).map (fun e => e.1 / 256)
  let ms := (ls hL2 ms).foldl evictL2 ms
  (ls hMsc ms).foldl evictMsc ms

/-- Move the entries of a map to new numbers. -/
def rekey {α : Type} [DecidableEq α] (d : α) (f : Nat → Nat) (m : Sparse α) : Sparse α :=
  m.foldl (fun r (e : Nat × α) => Sparse.set r d (f e.1) e.2) []

/-- Change a stack's hash mask: what DRAM holds stays at its location, and so moves to another address (11 R253). -/
def setHmask (ms : MemSys) (n : Nat) (h : n < 8) (m : BitVec 24) : MemSys :=
  let old := ms.hmask.toList.getD n 0
  let f (a : Nat) : Nat := if !isHost a && stackOf a == n then locOf m (locOf old a) else a
  let g (k : Nat) : Nat := if k % 8 == 0 then f (k / 8 * 32) / 32 * 8 else k
  let sec (k : Nat) : Nat := f (k * 16) / 16
  { ms with hmask := ms.hmask.set n m h, mem := rekey 0 f ms.mem, dkey := rekey 1 sec ms.dkey, dorg := rekey 0 sec ms.dorg
            flips := rekey 0 g ms.flips }

end Sys2Proof.Machine
end

