-- ==== Sys2Proof/Machine/Xlate.lean ====
section
/-! DEFINITION. Contexts, translation and the checks of an access (11 R257-R265), and accesses by virtual address. -/

namespace Sys2Proof.Machine

/-! ## The part's own accesses by physical address -/

def State.setMs (s : State) (ms : MemSys) : State := { s with ms := ms }
/-- Note a physical address that does not exist (log 17). -/
def State.setBad (s : State) (pa : Nat) : State := { s with ms := { s.ms with bad := some pa } }

/-- Enter an uncorrectable error that an access of the part itself met, for the error log (22 R417). -/
def noteEcc (ms : MemSys) (e : Option (Nat × Nat)) : MemSys :=
  match e with
  | some (h, pa) => { ms with errs := ms.errs ++ [(pa, h)] }
  | none => ms

/-- Read bytes at a physical address as a COH access of the part under key slot 0, or at the host. Bytes that meet an uncorrectable error are free
(log 27). -/
def State.partRd (s : State) (pa n : Nat) : List Byte × State :=
  if paOk pa then
    let (bs, ms, e) := readPa s.ms (partAccAt pa) pa n
    (if e.isSome then (List.range n).map (fun i => Config.eccByte ms.useClock i) else bs, s.setMs (noteEcc ms e))
  else (zeros n, s.setBad pa)

/-- The holder below the home slice whose coherent copy of a line has a sector dirty. -/
def dirtyAt (ms : MemSys) (line sec : Nat) : Option Copy :=
  (ms.copies.find? (fun e => e.1 / 256 == line && e.1 % 256 < 240 && !e.2.swc && e.2.dirty.getLsbD sec)).map (·.2)

/-- A byte of coherent memory as it stands, without an access: a dirty coherent copy's, else the home slice's, the memory-side cache's or
DRAM's; a byte of host memory as the host has it. -/
def peekByte (ms : MemSys) (key pa : Nat) : Byte :=
  let line := pa / 64
  let c := getCopy ms hL2 line
  let m := getCopy ms hMsc line
  if isHost pa then memByte ms pa
  else match dirtyAt ms line (pa % 64 / 16) with
  | some d => d.data.toList.getD (pa % 64) 0
  | none =>
  if c.valid.getLsbD (pa % 64 / 16) then c.data.toList.getD (pa % 64) 0
  else if m.valid.getLsbD (pa % 64 / 16) then m.data.toList.getD (pa % 64) 0
  else (dramSector ms (pa / 16) (keyGenOf ms key)).getD (pa % 16) 0
def peekBytes (ms : MemSys) (key pa n : Nat) : List Byte := (List.range n).map (fun i => peekByte ms key (pa + i))

/-! ## The context table (11 R265) -/

def State.ctxPa (s : State) (asid : Nat) : Nat := s.sys.ctxbase.toNat + 128 * asid
/-- `n` bytes at an offset of a context's entry. -/
def State.ctxField (s : State) (asid off n : Nat) : Nat := leNat (peekBytes s.ms 0 (s.ctxPa asid + off) n)
def State.ptbase (s : State) (asid : Nat) : Nat := s.ctxField asid 0 8 / 2 ^ 13 % 2 ^ 35 * 2 ^ 13
def State.cbdir (s : State) (asid : Nat) : Nat := s.ctxField asid 8 8
def State.ctxValid (s : State) (asid : Nat) : Bool := s.ctxField asid 0x38 1 % 2 == 1

/-! ## The walk (11 R257-R259) -/

/-- An uncorrectable error in a walk, told apart from the levels 0 to 3 that can fail: 16 and its holder. -/
def walkEcc (holder : Nat) : Nat := 16 + holder

/-- The table entry that a walk cache of a die holds for an address at a level (R262). `wc`: the die and the ASID, none for a walk that
uses no cache. -/
def heldEntry (ms : MemSys) (wc : Option (Nat × Nat)) (va l : Nat) : Option Word :=
  match wc with
  | none => none
  | some (die, asid) =>
    (ms.walks.find? (fun e => e.die == die && e.asid == asid && e.level == l && e.pre == va / 2 ^ (16 + 10 * l))).map (·.entry)

/-- Hold a valid table entry in the walk caches. -/
def holdEntry (ms : MemSys) (wc : Option (Nat × Nat)) (va l : Nat) (w : Word) : MemSys :=
  match wc with
  | none => ms
  | some (die, asid) =>
    if (heldEntry ms wc va l).isSome then ms
    else { ms with walks := ms.walks ++ [{ die := die, asid := asid, level := l, pre := va / 2 ^ (16 + 10 * l), entry := w }] }

/-- The entry that a walk uses at a level: a held table entry, or the one in memory, read as a COH load. -/
def readEntry' (ms : MemSys) (wc : Option (Nat × Nat)) (va l base : Nat) : MemSys × Except Nat Word :=
  let e := base + 8 * (va / 2 ^ (16 + 10 * l) % 1024)
  match (if l == 0 then none else heldEntry ms wc va l) with
  | some w => (ms, .ok w)
  | none =>
    if !paOk e then (ms, .error l)
    else
      let (bs, ms, x) := readPa ms (partAccAt e) e 8
      match x with
      | some (h, _) => (ms, .error (walkEcc h))
      | none => if (leWord bs).getLsbD 0 then (ms, .ok (leWord bs)) else (ms, .error l)

/-- Walk from the table at `base` for level `l`; the error is the level that failed, or an uncorrectable error in a table. -/
def walk (ms : MemSys) (wc : Option (Nat × Nat)) (va : Nat) : (l base : Nat) → MemSys × Except Nat Leaf
  | l, base =>
    let (ms, r) := readEntry' ms wc va l base
    match r with
    | .error x => (ms, .error x)
    | .ok w =>
      let e := base + 8 * (va / 2 ^ (16 + 10 * l) % 1024)
      let frame := slc w 63 32 * 2 ^ 16
      match l with
      | 0 => if w.getLsbD 9 || !paOk frame then (ms, .error 0) else (ms, .ok { pte := w, ptePa := e, block := false })
      | l' + 1 =>
        if l == 1 && w.getLsbD 9 then
          if slc w 41 32 ≠ 0 || !paOk frame then (ms, .error 1) else (ms, .ok { pte := w, ptePa := e, block := true })
        else if slc w 28 1 ≠ 0 || !paOk frame then (ms, .error l)
        else walk (holdEntry ms wc va l w) wc va l' (frame + slc w 31 29 * 2 ^ 13)

/-- The page number of a virtual address at a leaf's level. -/
def vpnOf (block : Bool) (va : Nat) : Nat := va / (if block then 2 ^ 26 else 2 ^ 16)
/-- The physical address that a leaf gives. -/
def leafPa (pte : Word) (block : Bool) (va : Nat) : Nat :=
  if block then slc pte 63 42 * 2 ^ 26 + va % 2 ^ 26 else slc pte 63 32 * 2 ^ 16 + va % 2 ^ 16

/-! ## TLBs (11 R262) -/

/-- The die whose last-level TLB and walkers serve a core; the part's own accesses use die 0's. -/
def tlbDie (core : Nat) : Nat := dieOf core % 4
/-- The unit of each level that serves a core: its own, its cluster's, its die's. -/
def tlbUnit (core level : Nat) : Nat := match level with | 0 => core | 1 => clusterOf core | _ => tlbDie core
/-- Entries of a TLB. -/
def tlbSize (level : Nat) : Nat := match level with | 0 => 128 | 1 => 2048 | _ => 12288

/-- A translation that one level holds for a core. -/
def tlbAt (ms : MemSys) (core asid va level : Nat) : Option TlbEntry :=
  ms.tlb.find? (fun e => e.level == level && e.unit == tlbUnit core level && e.asid == asid && e.vpn == vpnOf e.block va)

/-- Hold a translation at a level: the entry of its page is replaced, or the oldest of a full TLB leaves (log 72). -/
def tlbPut (ms : MemSys) (core level : Nat) (e : TlbEntry) : MemSys :=
  let e : TlbEntry := { e with level := level, unit := tlbUnit core level }
  let own (x : TlbEntry) : Bool := x.level == e.level && x.unit == e.unit
  let l := ms.tlb.filter (fun x => !(own x && x.asid == e.asid && x.vpn == e.vpn && x.block == e.block))
  let l := if (l.filter own).length < tlbSize level then l else l.eraseP own
  { ms with tlb := l ++ [e] }

/-- A translation held for a core at the first level that has it; the levels below take it over. -/
def tlbFind (ms : MemSys) (core asid va : Nat) : MemSys × Option TlbEntry :=
  match tlbAt ms core asid va 0 with
  | some e => (ms, some e)
  | none => match tlbAt ms core asid va 1 with
    | some e => (tlbPut ms core 0 e, some e)
    | none => match tlbAt ms core asid va 2 with
      | some e => (tlbPut (tlbPut ms core 1 e) core 0 e, some e)
      | none => (ms, none)

/-- Hold a translation at the three levels that serve a core. -/
def tlbHold (ms : MemSys) (core asid va : Nat) (l : Leaf) : MemSys :=
  let e : TlbEntry := { unit := 0, asid := asid, vpn := vpnOf l.block va, block := l.block, pte := l.pte, ptePa := l.ptePa }
  tlbPut (tlbPut (tlbPut ms core 2 e) core 1 e) core 0 e

/-- A leaf for a virtual address: a held translation, or a walk whose valid leaf is then held. -/
def State.findLeaf (s : State) (core asid va : Nat) : State × Except Nat Leaf :=
  if 2 ^ 56 ≤ va then (s, .error 3)
  else
    let (ms, h) := tlbFind s.ms core asid va
    match h with
    | some e => (s.setMs ms, .ok { pte := e.pte, ptePa := e.ptePa, block := e.block })
    | none =>
      if !paOk (s.ctxPa asid) then (s.setBad (s.ctxPa asid), .error 3)
      else
        let (ms, r) := walk (monTimed s.ms (tlbDie core) 0x0020 asid 0) (some (tlbDie core, asid)) va 3 (s.ptbase asid)
        (s.setMs (match r with | .ok l => tlbHold ms core asid va l | .error _ => ms), r)

/-! ## Accessed and dirty (11 R261) -/

/-- The walker's atomic OR into an entry, at its home slice. -/
def orPte (ms : MemSys) (pa bits : Nat) : MemSys :=
  let (_, ms, e) := rmwLine ms (partAccAt pa) (pa / 64) (pa % 64) 8 (fun b => leBytes 8 (leNat b ||| bits))
  noteEcc ms (e.map (fun h => (h, pa)))

/-- A translated page is about to be accessed: A, and D before a write, are set where they are clear, in the table and in the held
translation. -/
def useLeaf (ms : MemSys) (core asid : Nat) (write : Bool) (l : Leaf) (va : Nat) : MemSys :=
  let bits := (if l.pte.getLsbD 6 then 0 else 64) + (if write && !l.pte.getLsbD 7 then 128 else 0)
  if bits == 0 then ms
  else tlbHold (orPte ms l.ptePa bits) core asid va { l with pte := l.pte ||| BitVec.ofNat 64 bits }

/-! ## Tile stores in flight (17 R344, R345)

A tile store that has started holds its writes in its command until it commits. A store or an atomic of the part itself that reaches a
line it has locked waits for the commit: the tile stores in flight commit first, the oldest before any other. -/

/-- The running copy commands of the part: core, queue, command. -/
def State.runningCopies (s : State) : List (Nat × Bool × CCmd) :=
  s.cores.flatMap (fun ((i, c) : Nat × Core) => c.crLd.toList.map (fun e => (i, false, e)) ++ c.crSt.toList.map (fun e => (i, true, e)))
/-- Is one tile store older than another (17 R345)? -/
def olderTst (a b : Nat × Bool × CCmd) : Bool :=
  a.2.2.started < b.2.2.started || (a.2.2.started == b.2.2.started && (a.1 < b.1 || (a.1 == b.1 && !a.2.1 && b.2.1)))
/-- How the writes of a copy command are made. -/
def copyAcc (s : State) (core : Nat) (e : CCmd) (p : Part) : Acc :=
  { core := core, asid := s.asidOf e.sid, attr := slc p.leaf.pte 5 4, key := slc p.leaf.pte 15 10, scope := e.scope
    chain := let c := slc p.leaf.pte 31 24
             if slc p.leaf.pte 5 4 ≠ 2 && c ≠ 0 && Sparse.get s.pkg.chains 0 c == s.asidOf e.sid + 1 then c else 0 }
/-- Release the locks of a tile store. -/
def MemSys.unlock (ms : MemSys) (id : Nat) : MemSys := { ms with locks := ms.locks.filter (fun e => e.2 ≠ id + 1) }
/-- Is the key slot of a page that a tile store writes empty? It cannot commit then (R256). -/
def CCmd.keyless (ms : MemSys) (e : CCmd) : Bool := e.store.any (fun x => keyGenOf ms (slc x.1.leaf.pte 15 10) == 0)
/-- Write everything a started tile store writes, D being set on its pages (11 R261, 13 R321), and release its locks. -/
def State.commitTst (s : State) (core : Nat) (st : Bool) (e : CCmd) : State :=
  let ms := e.store.foldl (fun (ms : MemSys) (x : Part × List Byte) =>
    let (ms, er) := writePa (useLeaf ms core (s.asidOf e.sid) true x.1.leaf x.1.va) (copyAcc s core e x.1) x.1.pa x.2
    noteEcc ms er) s.ms
  let s := { s with ms := ms.unlock e.id }
  let e : CCmd := { e with store := [] }
  s.modCore core (fun c => if st then { c with crSt := some e } else { c with crLd := some e })
/-- The tile stores in flight commit, oldest first, until none of some locks is held. -/
def State.letCommit (s : State) (keys : List Nat) : (fuel : Nat) → State
  | 0 => s
  | f + 1 =>
    if keys.all (fun k => Sparse.get s.ms.locks 0 k == 0) then s
    else
      let s := (s.runningCopies.filter (fun x => x.2.2.keyless s.ms)).foldl (fun (s : State) x => { s with ms := s.ms.unlock x.2.2.id }) s
      match (s.runningCopies.filter (fun x => !x.2.2.store.isEmpty && !x.2.2.keyless s.ms)).foldl (fun (b : Option (Nat × Bool × CCmd)) x => match b with
          | none => some x
          | some y => if olderTst x y then some x else b) none with
      | none => s
      | some (core, st, e) => (s.commitTst core st e).letCommit keys f
/-- Before a store of the part reaches lines at their home slice. -/
def State.freeLines (s : State) (pa n : Nat) : State :=
  if s.ms.locks.isEmpty then s
  else s.letCommit ((lineRuns (n / 64 + 2) pa n).map (fun r => lockKey (r.1 / 64) hL2)) (2 * s.cores.length)

/-! ## The part's stores by physical address -/

/-- Write bytes at a physical address as a COH access of the part under key slot 0, or at the host. -/
def State.partWr (s : State) (pa : Nat) (bs : List Byte) : State :=
  if paOk pa then
    let s := s.freeLines pa bs.length
    let (ms, e) := writePa s.ms (partAccAt pa) pa bs
    s.setMs (noteEcc ms e)
  else s.setBad pa

/-! ## The checks (11 R260, R263; 18 R368) -/

/-- What kind of access it is. `far`: FAR pages and host memory are allowed; `cohOnly`: COH alone is allowed; `noPriv`: PRIV is
not. -/
structure AKind where
  write   : Bool := false
  amo     : Bool := false
  fetch   : Bool := false
  bulk    : Bool := false
  far     : Bool := false
  noHost  : Bool := false
  cohOnly : Bool := false
  noPriv  : Bool := false
  deriving DecidableEq, Repr

/-- The access aux (18 R368). -/
def AKind.aux (k : AKind) (reason : Nat) : Word :=
  BitVec.ofNat 64 (reason * 256 + b2n k.bulk * 8 + b2n k.amo * 4 + b2n k.fetch * 2 + b2n (k.write || k.amo))

/-- Who accesses: core, ASID, supervisor mode, the owner it is on PRIV pages (launch word, team, core slot), the stash it uses. -/
structure Who where
  core : Nat
  asid : Nat
  sup  : Bool := false
  own  : Word × Nat × Nat := (0, 0, 0)
  hK   : Nat := 0
  deriving DecidableEq, Repr

/-- Cause codes (18 R368). -/
def cILLOP : Nat := 0x01
def cILLENC : Nat := 0x02
def cPRIVOP : Nat := 0x03
def cSCHED : Nat := 0x04
def cFREEZE : Nat := 0x05
def cHANG : Nat := 0x06
def cLAYOUT : Nat := 0x07
def cPAGE : Nat := 0x08
def cPROT : Nat := 0x09
def cCOW : Nat := 0x0A
def cATTR : Nat := 0x0B
def cALIGN : Nat := 0x0C
def cPRIVCORE : Nat := 0x0D
def cSTALECB : Nat := 0x10
def cCBWIN : Nat := 0x11
def cCMPOVER : Nat := 0x12
def cCMPUNDER : Nat := 0x13
def cSEGHDR : Nat := 0x14
def cECCU : Nat := 0x18
def cMEMTO : Nat := 0x19
def cTRAPI : Nat := 0x20
def cSYSCALL : Nat := 0x21
def cKILL : Nat := 0x28

/-- The attribute of a leaf: 0 COH, 1 SWC, 2 PRIV, 3 FAR. -/
def pteAttr (w : Word) : Nat := slc w 5 4

/-- A translated page is about to be accessed (R261). -/
def State.setUsed (s : State) (core asid : Nat) (write : Bool) (l : Leaf) (va : Nat) : State :=
  s.setMs (useLeaf s.ms core asid write l va)

/-- The owner-table entry of a PRIV page (11 R265): the leaf of the page of the table that holds it, and the entry's virtual address; the
error is the walk's. -/
def State.ownerLeaf (s : State) (core asid : Nat) (pte : Word) : State × Except Nat (Leaf × Nat) :=
  let va := s.ctxField asid 0x30 8 + 16 * slc pte 31 16
  let (s, r) := s.findLeaf core asid va
  (s, match r with | .ok l => .ok (l, va) | .error x => .error x)

/-- How the part reads and writes an owner-table entry: at its home slice, under the key of the table's page. -/
def ownerAcc (asid : Nat) (l : Leaf) : Acc := { partAcc with asid := asid, key := slc l.pte 15 10 }

/-- The claim of an owner entry: none, or (launch, team, core slot). -/
def ownerOf (bs : List Byte) : Option (Word × Nat × Nat) :=
  if field bs 13 1 % 2 == 1 then some (BitVec.ofNat 64 (field bs 0 8), field bs 8 4, field bs 12 1) else none

/-- Step 3 of R260: may this owner use the PRIV page? The entry is read at its home slice, A being set on the table's page. An owner
table that is not mapped refuses (log 23); an uncorrectable error is reported as the access's own. -/
def State.privOk (s : State) (who : Who) (pte : Word) : State × Except Nat Bool :=
  let (s, r) := s.ownerLeaf who.core who.asid pte
  match r with
  | .error x => (s, if x < 16 then .ok false else .error x)
  | .ok (l, va) =>
    let s := s.setUsed who.core who.asid false l va
    let (bs, ms, e) := readPa s.ms (ownerAcc who.asid l) (leafPa l.pte l.block va) 16
    (s.setMs ms, match e with
      | some (h, _) => .error (walkEcc h)
      | none => .ok (match ownerOf bs with | none => true | some o => o == who.own))

/-- ECCU of an access (18 R368). -/
def eccu (holder va : Nat) : TrapInfo := { cause := cECCU, aux := BitVec.ofNat 64 holder, addr := BitVec.ofNat 64 va }

/-- Steps 4 to 6 of R260 on a leaf: the cause and the reason of the first failure. -/
def checkRights (ms : MemSys) (sup : Bool) (k : AKind) (w : Word) : Option (Nat × Nat) :=
  let rd := (!k.write && !k.fetch) || k.amo
  let wr := k.write || k.amo
  if rd && !sup && !w.getLsbD 1 then some (cPROT, 1)
  else if k.fetch && !w.getLsbD 3 then some (cPROT, 3)
  else if wr && w.getLsbD 8 then some (cCOW, 0)
  else if wr && !sup && !w.getLsbD 2 then some (cPROT, 2)
  else if keyGenOf ms (slc w 15 10) == 0 then some (cPROT, 4)
  else none

/-- Steps 2 to 6 of R260 on a leaf: the cause and the reason of the first failure; for ECCU the holder. -/
def State.checkLeaf (s : State) (who : Who) (k : AKind) (l : Leaf) (va : Nat) : State × Option (Nat × Nat) :=
  let w := l.pte
  let attr := pteAttr w
  let host := isHost (leafPa w l.block va)
  if host && (attr == 0 || attr == 2) then (s, some (cATTR, 2))
  else if (k.cohOnly && attr ≠ 0) || (attr == 3 && !k.far) || (k.noPriv && attr == 2) || (host && k.noHost) then (s, some (cATTR, 1))
  else if k.amo && host then (s, some (cATTR, 4))
  else if attr ≠ 2 then (s, checkRights s.ms who.sup k w)
  else
    let (s, p) := s.privOk who w
    (s, match p with
      | .error x => some (cECCU, x - 16)
      | .ok false => some (cPRIVCORE, 0)
      | .ok true => checkRights s.ms who.sup k w)

/-- The part of an access that lies in one page: PAGE, then the checks. -/
def State.checkPage (s : State) (who : Who) (k : AKind) (va n : Nat) : State × Except TrapInfo Part :=
  let (s, r) := s.findLeaf who.core who.asid va
  let bad (cause reason : Nat) : Except TrapInfo Part :=
    if cause == cECCU then .error (eccu reason va) else .error { cause := cause, aux := k.aux reason, addr := BitVec.ofNat 64 va }
  match r with
  | .error l => (s, if l < 16 then bad cPAGE l else bad cECCU (l - 16))
  | .ok l =>
    let (s, e) := s.checkLeaf who k l va
    match e with
    | some (c, r) => (s, bad c r)
    | none => (s, .ok { va := va, pa := leafPa l.pte l.block va, len := n, leaf := l })

/-- Split a run of virtual bytes at 64 KiB pages: (address, length); addresses wrap modulo 2^64. -/
def pageRuns : (fuel va n : Nat) → List (Nat × Nat)
  | 0, _, _ => []
  | f + 1, va, n =>
    if n == 0 then [] else
      let va := va % 2 ^ 64
      let k := min n (2 ^ 16 - va % 2 ^ 16)
      (va, k) :: pageRuns f (va + k) (n - k)
def runsOf (va n : Nat) : List (Nat × Nat) := pageRuns (n / 2 ^ 16 + 2) va n

/-- Check pages in the order given and stop at the first failure. -/
def State.checkRuns (s : State) (who : Who) (k : AKind) (rs : List (Nat × Nat)) : State × Except TrapInfo (List Part) :=
  match rs with
  | [] => (s, .ok [])
  | (va, n) :: rest =>
    let (s, r) := s.checkPage who k va n
    match r with
    | .error t => (s, .error t)
    | .ok p =>
      let (s, r) := s.checkRuns who k rest
      match r with
      | .error t => (s, .error t)
      | .ok ps => (s, .ok (p :: ps))

/-- A scalar access: its pages in order of address, then one attribute (12 R281). -/
def State.checkScalar (s : State) (who : Who) (k : AKind) (va n : Nat) : State × Except TrapInfo (List Part) :=
  let (s, r) := s.checkRuns who k (runsOf va n)
  match r with
  | .error t => (s, .error t)
  | .ok ps =>
    if ps.all (fun p => some (pteAttr p.leaf.pte) == ps.head?.map (fun p => pteAttr p.leaf.pte)) then (s, .ok ps)
    else (s, .error { cause := cATTR, aux := k.aux 3, addr := BitVec.ofNat 64 va })

/-! ## Performing (11 R261, R262, R265) -/

/-- A passed page is about to be accessed: A and D are set (R261; the D of a bulk store when it writes), and a PRIV page that no owner
has claimed is claimed by an atomic write of its owner-table entry, D being set on the table's page (R265). -/
def State.commitPage (s : State) (who : Who) (k : AKind) (p : Part) : State :=
  let w := p.leaf.pte
  let s := s.setUsed who.core who.asid ((k.write || k.amo) && !k.bulk) p.leaf p.va
  if pteAttr w ≠ 2 then s
  else
    let (s, r) := s.ownerLeaf who.core who.asid w
    match r with
    | .error _ => s
    | .ok (l, va) =>
      let pa := leafPa l.pte l.block va
      match ownerOf (peekBytes s.ms (slc l.pte 15 10) pa 16) with
      | some _ => s
      | none =>
        let s := s.setUsed who.core who.asid true l va
        let (ms, e) := writePa s.ms (ownerAcc who.asid l) pa
          (leBytes 8 who.own.1.toNat ++ leBytes 4 who.own.2.1 ++ leBytes 1 who.own.2.2 ++ [1, 0, 0])
        s.setMs (noteEcc ms e)

def State.commitParts (s : State) (who : Who) (k : AKind) (ps : List Part) : State :=
  ps.foldl (fun s p => s.commitPage who k p) s

/-- The chain a line enters L2 with (11 R254): the leaf's id if it is open and the context's own. -/
def State.chainOf (s : State) (asid : Nat) (w : Word) : Nat :=
  let c := slc w 31 24
  if pteAttr w ≠ 2 && c ≠ 0 && Sparse.get s.pkg.chains 0 c == asid + 1 then c else 0

/-- How a passed page is accessed; an access of the part that no core makes is made at the home slice. -/
def State.accOf (s : State) (who : Who) (sc : Scope) (stash : Bool) (p : Part) : Acc :=
  { core := who.core, asid := who.asid, attr := pteAttr p.leaf.pte, key := slc p.leaf.pte 15 10,
    chain := s.chainOf who.asid p.leaf.pte, scope := sc, stash := stash && who.core < 192, hK := who.hK, home := 192 ≤ who.core }

/-- Is a page's key slot empty when its access is performed? The key has been destroyed since the check (R256, R271). -/
def keyLost (ms : MemSys) (ps : List Part) : Bool := ps.any (fun p => keyGenOf ms (slc p.leaf.pte 15 10) == 0)
/-- PROT for an empty key slot. -/
def keyTrap (k : AKind) (va : Nat) : TrapInfo := { cause := cPROT, aux := k.aux 4, addr := BitVec.ofNat 64 va }

/-- An access that fails has no effect on memory (18 R389): what stays of it is what its reads counted and showed the monitors. -/
def undo (old new : MemSys) : MemSys :=
  { old with corr := new.corr, uncorr := new.uncorr, corrMarks := new.corrMarks, mons := new.mons }

/-- Read passed pages. -/
def State.rdParts (s : State) (who : Who) (sc : Scope) (stash : Bool) (va : Nat) (ps : List Part) :
    State × Except TrapInfo (List Byte) :=
  if keyLost s.ms ps then (s, .error (keyTrap {} va))
  else ps.foldl (fun (s, r) p =>
    let (bs, ms, e) := readPa s.ms (s.accOf who sc stash p) p.pa p.len
    (s.setMs ms, match r, e with
      | .error t, _ => .error t
      | .ok _, some (h, _) => .error (eccu h va)
      | .ok b, none => .ok (b ++ bs))) (s, .ok [])

/-- Write passed pages; where a merge meets an uncorrectable error nothing is written. -/
def State.wrParts (s : State) (who : Who) (sc : Scope) (stash : Bool) (va : Nat) (ps : List Part) (bs : List Byte) :
    State × Option TrapInfo :=
  if keyLost s.ms ps then (s, some (keyTrap { write := true } va))
  else
    let r := ps.foldl (fun (s, e, bs) p =>
      let (ms, e') := writePa s.ms (s.accOf who sc stash p) p.pa (bs.take p.len)
      ((s : State).setMs ms, (match e, e' with | some t, _ => some t | none, some (h, _) => some (eccu h va) | none, none => none),
        bs.drop p.len)) (s, (none : Option TrapInfo), bs)
    match r.2.1 with
    | some t => (s.setMs (undo s.ms r.1.ms), some t)
    | none => (r.1, none)

/-- An atomic on `n` bytes of a passed page, as one access: the old bytes, or the holder of an uncorrectable error. -/
def State.rmwPart (s : State) (who : Who) (p : Part) (n : Nat) (f : List Byte → List Byte) : State × Except Nat (List Byte) :=
  let (old, ms, e) := rmwLine s.ms { s.accOf who .package false p with home := true } (p.pa / 64) (p.pa % 64) n f
  (s.setMs ms, match e with | some h => .error h | none => .ok old)

/-- Must an access to passed pages wait for a tile store (17 R344)? -/
def State.anyLocked (s : State) (who : Who) (sc : Scope) (stash write : Bool) (ps : List Part) : Bool :=
  !s.ms.locks.isEmpty && ps.any (fun p =>
    (lineRuns (p.len / 64 + 2) p.pa p.len).any (fun r => lineHeld s.ms (s.accOf who sc stash p) write (r.1 / 64) (r.1 % 64) r.2))

/-- The lines of passed pages. -/
def linesOf (ps : List Part) : List Nat :=
  ps.flatMap (fun p => (List.range ((p.pa % 64 + p.len + 63) / 64)).map (fun i => p.pa / 64 + i))

/-! ## The part's accesses by virtual address, as supervisor accesses (11 R260) -/

/-- Read for the part: COH, or SWC at package scope, with the checks of R260 in supervisor mode. -/
def State.supRd (s : State) (core asid : Nat) (k : AKind) (va n : Nat) : State × Except TrapInfo (List Byte) :=
  let who : Who := { core := core, asid := asid, sup := true }
  let (s, r) := s.checkRuns who k (runsOf va n)
  match r with
  | .error t => (s, .error t)
  | .ok ps => (s.commitParts who k ps).rdParts who .package false va ps

/-- Write for the part. -/
def State.supWr (s : State) (core asid : Nat) (k : AKind) (va : Nat) (bs : List Byte) : State × Option TrapInfo :=
  let who : Who := { core := core, asid := asid, sup := true }
  let (s, r) := s.checkRuns who k (runsOf va bs.length)
  match r with
  | .error t => (s, some t)
  | .ok ps =>
    let s := ps.foldl (fun (s : State) p => s.freeLines p.pa p.len) s
    (s.commitParts who k ps).wrParts who .package false va ps bs

/-- The part's accesses to a page that must be COH (frames, rings, directory). -/
def kCohRd : AKind := { cohOnly := true }
def kCohWr : AKind := { cohOnly := true, write := true }

end Sys2Proof.Machine
end

