-- ==== Sys2Proof/Machine/Spill.lean ====
section
/-! DEFINITION. The barrier and monitor entries of a cluster, and the spill table that takes those for which it has no room (17 R366,
R367). What an entry holds stands in its team and in the strands that have armed its line; here is where it lies. -/

namespace Sys2Proof.Machine

/-- The Ringmaster's own translations are held beside the cores' (it sits on die 0). -/
def rmCore : Nat := 192

/-- Entries of each kind in a cluster, and slots of a context's spill table. -/
def syncEntries : Nat := 64
def spillSlots : Nat := 2048

/-- The strands of a cluster. -/
def clusterSids (cluster : Nat) : List Nat := (List.range 16).map (16 * cluster + ·)

/-- The entries that exist in a cluster: those that its resident teams have taken, and one for each line that its strands have armed. -/
def State.barKeys (s : State) (cluster : Nat) : List SyncKey :=
  s.teams.flatMap (fun ((id, t) : Nat × Option Team) => match t with
    | some t => if t.place = .resident && clusterOf t.base == cluster then
        (t.bars.filter (fun e => e.2.taken)).map (fun e => SyncKey.bar id e.1) else []
    | none => [])
def State.lineKeys (s : State) (cluster : Nat) : List SyncKey :=
  (((clusterSids cluster).flatMap (fun i => (s.strand i).arms)).eraseDups).map (SyncKey.line cluster)
/-- The entries of a key's kind that exist in its cluster. -/
def State.syncKeys (s : State) (cluster : Nat) : SyncKey → List SyncKey
  | .bar .. => s.barKeys cluster
  | .line .. => s.lineKeys cluster

/-- The spilled entry of a key. -/
def State.spillOf (s : State) (k : SyncKey) : Option Spill := s.pkg.spill.find? (fun e => e.key = k)
/-- The entries of a key's kind that a cluster holds itself. -/
def State.heldKeys (s : State) (cluster : Nat) (k : SyncKey) : List SyncKey :=
  (s.syncKeys cluster k).filter (fun q => (s.spillOf q).isNone)

/-- Has an entry a waiting strand? -/
def State.keyWaits (s : State) : SyncKey → Bool
  | .bar tid e => (s.team tid).any (fun t => t.sids.any (fun i => (s.strand i).barWait.any (fun p => p.entry == e)))
  | .line c l => (clusterSids c).any (fun i => (s.strand i).arms.contains l && (s.strand i).mwait.isSome)
/-- The context of an entry that exists. -/
def State.keyAsid (s : State) : SyncKey → Nat
  | .bar tid _ => ((s.team tid).bind (fun t => s.launch t.launch)).elim 0 (·.asid)
  | .line c l => (((clusterSids c).find? (fun i => (s.strand i).arms.contains l)).map s.asidOf).getD 0

/-- Put an entry into the lowest free slot of its context's table; none where all are in use, or the table is not there (log 78). -/
def State.spillIn (s : State) (asid cluster : Nat) (k : SyncKey) : Option State :=
  match (List.range spillSlots).find? (fun i => !s.pkg.spill.any (fun e => e.asid == asid && e.slot == i)) with
  | none => none
  | some i =>
    let va := (s.ctxField asid 0x20 8 + 32 * i) % 2 ^ 64
    let bs := (List.range 32).map (Config.spillByte s.draw)
    let (s, e) := State.supWr { s with draw := s.draw + 1 } rmCore asid kCohWr va bs
    match e, s.findLeaf rmCore asid va with
    | none, (s, .ok l) =>
      let sp : Spill := { key := k, asid := asid, cluster := cluster, slot := i, pa := leafPa l.pte l.block va, pkey := slc l.pte 15 10
                          bytes := bs }
      some { s with pkg := { s.pkg with spill := s.pkg.spill ++ [sp] } }
    | _, _ => none

/-- An entry is about to be used: where software has written over its slot, it takes what it is now said to hold (R367). -/
def State.useKey (s : State) (k : SyncKey) : State :=
  match s.spillOf k with
  | none => s
  | some e =>
    let bs := peekBytes s.ms e.pkey e.pa 32
    if bs = e.bytes then s
    else
      let s := { s with pkg := { s.pkg with spill := s.pkg.spill.map (fun q => if q.key = k then { q with bytes := bs } else q) } }
      let w (i : Nat) : Word := Config.spillValue bs i
      match k with
      | .bar tid n =>
        let b : BarEntry := { taken := true, g := (w 0).setWidth 32, mask := (w 1).setWidth 16, arrived := (w 2).setWidth 16
                              joined := (w 3).setWidth 16, last := ⟨⟨(List.range 16).map (fun i => (w (4 + i)).setWidth 32)⟩, by simp⟩ }
        s.modTeam tid (fun t => { t with bars := Sparse.set t.bars {} n b })
      | .line c l => (clusterSids c).foldl (fun (s : State) i =>
          if !(s.strand i).arms.contains l then s
          else s.modStrand i (fun x => { x with
            arms := if (w (i % 16)).getLsbD 0 then x.arms else x.arms.filter (fun q => q ≠ l), wake := x.wake || (w (i % 16)).getLsbD 1 })) s

/-- Is it a barrier entry of a team that is not resident? All of those stand in the table (04 R97). -/
def State.keyAway (s : State) : SyncKey → Bool
  | .bar tid n => (s.team tid).any (fun t => t.place ≠ .resident && (Sparse.get t.bars {} n).taken)
  | .line .. => false
/-- Spilled entries that no longer exist leave the table, and as long as a cluster has room one returns to it (R366). -/
def State.unspill (s : State) : State :=
  if s.pkg.spill.isEmpty then s
  else
  let s := { s with pkg := { s.pkg with
    spill := s.pkg.spill.filter (fun e => s.keyAway e.key || (s.syncKeys e.cluster e.key).contains e.key) } }
  s.pkg.spill.foldl (fun (s : State) e =>
    if !s.keyAway e.key && (s.heldKeys e.cluster e.key).length < syncEntries then
      let s := s.useKey e.key
      { s with pkg := { s.pkg with spill := s.pkg.spill.filter (fun q => q.key ≠ e.key) } }
    else s) s

/-- Make room for an entry that does not exist yet: where its cluster is full, an entry with no waiting strand moves to its context's spill
table, or the new one itself does; none where the slot that this needs cannot be had. -/
def State.takeKey (s : State) (asid cluster : Nat) (k : SyncKey) : Option State :=
  if (s.syncKeys cluster k).contains k then some s
  else
    let s := s.unspill
    let held := s.heldKeys cluster k
    if held.length < syncEntries then some s
    else match held.find? (fun q => !s.keyWaits q) with
      | some q => s.spillIn (s.keyAsid q) cluster q
      | none => s.spillIn asid cluster k

/-- A team's barrier entries move to the table, as it is swapped out; none where one finds no slot. -/
def State.spillTeam (s : State) (asid tid : Nat) (t : Team) : Option State :=
  ((t.bars.filter (fun e => e.2.taken)).map (fun e => SyncKey.bar tid e.1)).foldl (fun (o : Option State) k => match o with
    | none => none
    | some s => if (s.spillOf k).isSome then some s else s.spillIn asid (clusterOf t.base) k) (some s)
/-- A team that comes back has its barrier entries reloaded from the table, by its new cluster. -/
def State.unspillTeam (s : State) (tid base : Nat) : State :=
  { s with pkg := { s.pkg with spill := s.pkg.spill.map (fun e => match e.key with
      | .bar t _ => if t == tid then { e with cluster := clusterOf base } else e
      | _ => e) } }
end Sys2Proof.Machine
end

