-- ==== Sys2Proof/Machine/Report.lean ====
section
/-! DEFINITION. What the part reports: host messages (21 R396), the error log (22 R415, R416), queue errors (03 R428), completion
records and counters (03 R76, R77), chain retirement (03 R81), and the retirement of a launch (22 R414). -/

namespace Sys2Proof.Machine

/-! ## Host messages -/

/-- The 32 bytes of a host message. -/
def HostMsg.bytes (m : HostMsg) (ns : Nat) : List Byte :=
  leBytes 2 m.code ++ leBytes 1 m.asid ++ leBytes 1 m.source ++ leBytes 4 m.team ++ leBytes 8 ns ++
  leBytes 8 m.word0.toNat ++ leBytes 8 m.word1.toNat

/-- Entries in the ring and its tail, as the part and the host last wrote them. -/
def State.ringFill (s : State) (base : Nat) : Nat × Nat :=
  let tail := leNat (peekBytes s.ms 0 base 8)
  let head := leNat (peekBytes s.ms 0 (base + 8) 8)
  ((tail + 2 ^ 64 - head) % 2 ^ 64, tail)

/-- Write one message into the ring and raise the tail. -/
def State.putMsg (s : State) (base j tail : Nat) (m : HostMsg) : State :=
  let s := s.partWr (base + 64 + 32 * (tail % 2 ^ j)) (m.bytes s.clock.ns)
  s.partWr base (leBytes 8 (tail + 1))

/-- Post waiting messages, oldest first, while the ring has room. -/
def State.pumpMsgs (s : State) : (fuel : Nat) → State
  | 0 => s
  | f + 1 =>
    match s.pkg.hostRing, s.pkg.hostQ with
    | some (base, j), m :: rest =>
      let (n, tail) := s.ringFill base
      if n < 2 ^ j then
        State.pumpMsgs { s.putMsg base j tail m with pkg := { s.pkg with hostQ := rest } } f
      else s
    | _, _ => s

/-- A message of the part's own (code 0x8000 and above): it waits while the ring is full. -/
def State.postMsg (s : State) (code asid source : Nat) (w0 w1 : Word) : State :=
  let m : HostMsg := { code := code, asid := asid, source := source, team := 0, word0 := w0, word1 := w1 }
  State.pumpMsgs { s with pkg := { s.pkg with hostQ := s.pkg.hostQ ++ [m] } } (s.pkg.hostQ.length + 1)

/-! ## The error log -/

def State.errBase (s : State) : Nat := slc s.sys.errbase 47 12 * 2 ^ 12

/-- Post an error entry: nothing while errbase is 0, the lost count when the log is full. -/
def State.postErr (s : State) (code asid die : Nat) (w0 w1 : Word) : State :=
  let base := s.errBase
  if base == 0 then s
  else
    let n := 2 ^ (slc s.sys.errbase 3 0 + 6)
    let (h, s) := s.partRd base 24
    let tail := field h 0 8
    if (tail + 2 ^ 64 - field h 8 8) % 2 ^ 64 == n then s.partWr (base + 16) (leBytes 8 (field h 16 8 + 1))
    else
      let e := leBytes 8 s.clock.ns ++ leBytes 2 code ++ leBytes 1 asid ++ leBytes 1 die ++ zeros 4 ++
        leBytes 8 w0.toNat ++ leBytes 8 w1.toNat
      let s := s.partWr (base + 64 + 32 * (tail % n)) e
      let s := s.partWr base (leBytes 8 (tail + 1))
      s.postMsg 0x8003 asid 1 (BitVec.ofNat 64 tail) 0

/-! ## Launch queues (03 R67-R70, R428) -/

/-- A queue descriptor as it was read. -/
structure QDesc where
  ring  : Nat
  cring : Nat
  size  : Nat
  flags : Nat
  asid  : Nat
  tail  : Nat
  head  : Nat
  ok    : Bool
  slots : Bool
  deriving DecidableEq, Repr

def State.qPa (s : State) (q : Nat) : Nat := s.sys.qtbase.toNat + 64 * q

/-- A descriptor's fields from its bytes; `ok`: no field whose fate is a queue error; `slots`: cring and size name a completion slot. -/
def qParse (b : List Byte) : QDesc :=
  { ring := field b 0 8, cring := field b 8 8, size := field b 0x10 1, flags := field b 0x11 1, asid := field b 0x12 1
    tail := field b 0x20 8, head := field b 0x28 8
    ok := field b 0 8 % 4096 == 0 && field b 8 8 % 4096 == 0 && field b 0x10 1 < 9 && field b 0x11 1 < 32 &&
      field b 0x12 1 < 64 && field b 0x14 12 == 0 && field b 0x30 16 == 0
    slots := field b 8 8 % 4096 == 0 && field b 0x10 1 < 9 }
def QDesc.enabled (d : QDesc) : Bool := d.flags % 2 == 1
def QDesc.deviceFed (d : QDesc) : Bool := d.flags / 2 % 2 == 1
def QDesc.maxprio (d : QDesc) : Nat := d.flags / 4 % 8
def QDesc.entries (d : QDesc) : Nat := 2 ^ (d.size % 16 + 4)

def State.qDesc (s : State) (q : Nat) : QDesc × State :=
  let (b, s) := s.partRd (s.qPa q) 64
  (qParse b, s)

/-- A queue error: err is set, enabled cleared, code 0x0002 posted. -/
def State.queueError (s : State) (q err : Nat) : State :=
  let (d, s) := s.qDesc q
  let s := s.partWr (s.qPa q + 0x13) (leBytes 1 err)
  let s := s.partWr (s.qPa q + 0x11) (leBytes 1 (d.flags / 2 * 2))
  s.postErr 0x0002 d.asid 0 (BitVec.ofNat 64 q) (BitVec.ofNat 64 err)

/-- Queue in bits 5:0 and index in bits 63:8 (03 R75; 04 R98). -/
def qWord (q index : Nat) : Word := BitVec.ofNat 64 (q + index * 256)
def Launch.word (l : Launch) : Word := qWord l.queue l.index

/-! ## The launch record (03 R72) -/

def Launch.fld (l : Launch) (w hi lo : Nat) : Nat := slc (rword l.record w) hi lo
def Launch.handle' (l : Launch) : Nat := l.fld 0 31 0
def Launch.routine (l : Launch) : Nat := l.fld 0 63 32
def Launch.grid (l : Launch) : Nat := l.fld 1 31 0
def Launch.shape (l : Launch) : Nat := l.fld 1 39 32
def Launch.drift (l : Launch) : Nat := l.fld 1 46 40
def Launch.prio (l : Launch) : Nat := l.fld 1 50 48
def Launch.chainend (l : Launch) : Bool := l.fld 1 51 51 == 1
def Launch.swap (l : Launch) : Bool := l.fld 1 52 52 == 1
def Launch.preempt (l : Launch) : Bool := l.fld 1 53 53 == 1
def Launch.chain (l : Launch) : Nat := l.fld 1 63 56
def Launch.scratchK (l : Launch) : Nat := l.fld 2 15 0
def Launch.stashK (l : Launch) : Nat := l.fld 2 31 16
def Launch.ringK (l : Launch) : Nat := l.fld 2 47 32
def Launch.barriers (l : Launch) : Nat := l.fld 2 63 48
def Launch.tiles (l : Launch) : Nat := l.fld 3 7 0
def Launch.accs (l : Launch) : Nat := l.fld 3 15 8
def Launch.cbslots (l : Launch) : Nat := l.fld 3 23 16
def Launch.waitaddr (l : Launch) : Nat := (rword l.record 4).toNat
def Launch.waitval (l : Launch) : Nat := l.fld 5 62 0
def Launch.doneaddr (l : Launch) : Nat := (rword l.record 6).toNat
def Launch.argp (l : Launch) : Word := rword l.record 7
/-- The quantum in ns (03 R72; 04 R95). -/
def Launch.quantumNs (l : Launch) : Nat :=
  let q := l.fld 3 47 32
  if q == 0 then 2000000 else max q 10 * 10000

/-! ## Completion -/

/-- The 32 bytes of a completion record (R76). -/
def Launch.completion (l : Launch) (status code endNs : Nat) : List Byte :=
  leBytes 1 status ++ leBytes 1 code ++ leBytes 1 (b2n l.eccu) ++ [0] ++ leBytes 4 l.okTeams ++
    leBytes 8 l.takenAt ++ leBytes 8 (l.startAt.getD 0) ++ leBytes 8 endNs

/-- Write the completion record of a launch (R76). A bad descriptor and a slot whose page fails its checks are queue errors (R428), on a
queue that has stopped before as well. The record is not written where the descriptor gives no slot (its cring or size is bad) or the slot
cannot be written; where another field is bad it is (log 73). -/
def State.writeCompletion (s : State) (l : Launch) (status code endNs : Nat) : State :=
  let (d, s) := s.qDesc l.queue
  let s := if d.ok then s else s.queueError l.queue 2
  if !d.slots then s
  else
    let (s, e) := s.supWr rmCore l.asid kCohWr (d.cring + 32 * (l.index % d.entries)) (l.completion status code endNs)
    match e with
    | none => s
    | some _ => s.queueError l.queue 2

/-- May a counter be accessed: step 15 of R73, as a user access. -/
def State.counterParts (s : State) (asid va : Nat) (k : AKind) : State × Option (List Part) :=
  if va % 8 ≠ 0 then (s, none)
  else
    let (s, r) := s.checkRuns { core := rmCore, asid := asid } k [(va, 8)]
    (s, match r with | .ok ps => some ps | .error _ => none)

/-- The completion counter's new value (R77). -/
def counterNext (old : Word) (ok : Bool) : Word :=
  BitVec.ofNat 64 ((old.toNat % 2 ^ 63 + 1) % 2 ^ 63) ||| (old &&& 0x8000000000000000) ||| (if ok then 0 else 0x8000000000000000)

/-- Update a completion counter in one atomic operation at its home slice (R77); false where its page fails the checks. A counter whose
old value meets an uncorrectable error is left as it is, and the error is entered in the log (log 74). -/
def State.updateCounter (s : State) (asid va : Nat) (ok : Bool) : State × Bool :=
  let (s, ps) := s.counterParts asid va kCohWr
  match ps with
  | none => (s, false)
  | some ps =>
    let who : Who := { core := rmCore, asid := asid }
    let s := s.commitParts who kCohWr ps
    (ps.foldl (fun (s : State) p =>
      let (s, r) := (s.freeLines p.pa p.len).rmwPart who p 8 (fun b => leBytes 8 (counterNext (leWord b) ok).toNat)
      match r with
      | .ok _ => s
      | .error h => s.setMs (noteEcc s.ms (some (h, p.pa)))) s, true)

/-- The context that a chain is open for, plus one; 0 where the id is not open (11 R269). -/
def State.chainOwner (s : State) (c : Nat) : Nat := if c == 0 then 0 else Sparse.get s.pkg.chains 0 c

/-- Launches of the chain's context taken and unretired that name it (R81, 11 R269). -/
def State.chainCount (s : State) (c : Nat) : Nat :=
  (s.launches.filter (fun e => match e.2 with | some l => l.chain == c && l.asid + 1 == s.chainOwner c | none => false)).length

/-- Chain retirement, for an open chain of the launch's context: once a chainend launch has retired, the chain is demoted each time its
count falls to zero. -/
def State.chainRetire (s : State) (l : Launch) : State :=
  if l.chain == 0 || s.chainOwner l.chain ≠ l.asid + 1 then s
  else
    let ends := if l.chainend && !s.pkg.chainEnd.contains l.chain then s.pkg.chainEnd ++ [l.chain] else s.pkg.chainEnd
    let s := { s with pkg := { s.pkg with chainEnd := ends } }
    if ends.contains l.chain && s.chainCount l.chain == 0 then s.setMs (demoteChain s.ms l.chain) else s

/-- The lines of a page that can read as anything but zeros under a key: those that some holder or DRAM lists; all of them where the key
is not the one of reset. -/
def listedLines (ms : MemSys) (key pa n : Nat) : List Nat :=
  if keyGenOf ms key ≠ 1 then (List.range (n / 64)).map (pa / 64 + ·)
  else
    let a : List Nat := ms.copies.map (fun (e : Nat × Copy) => e.1 / 256)
    let b : List Nat := ms.mem.map (fun (e : Host.Cell) => e.1 / 64)
    let c : List Nat := (ms.dkey ++ ms.dorg).map (fun (e : Nat × Nat) => e.1 / 4)
    ((a ++ b ++ c).filter (fun l => pa / 64 ≤ l && l < (pa + n) / 64)).eraseDups

/-- Clear a launch's claims in one page of the owner table, whose leaf is `l`, at the home slice under the page's key. -/
def State.clearPage (s : State) (asid : Nat) (w : Word) (va : Nat) (l : Leaf) : State :=
  let key := slc l.pte 15 10
  (listedLines s.ms key (leafPa l.pte l.block va) (2 ^ 16)).foldl (fun (s : State) ln =>
    (List.range 4).foldl (fun (s : State) j =>
      let pa := ln * 64 + 16 * j
      match ownerOf (peekBytes s.ms key pa 16) with
      | some o =>
        if o.1 == w then
          let s := s.setUsed rmCore asid true l va
          let (ms, e) := writePa s.ms (ownerAcc asid l) (pa + 13) [0]
          s.setMs (noteEcc ms e)
        else s
      | none => s) s) s

/-- Clear every private claim of a launch (11 R265). -/
def State.clearClaims (s : State) (asid : Nat) (w : Word) : State :=
  let base := s.ctxField asid 0x30 8
  (List.range 16).foldl (fun s i =>
    let va := (base + i * 2 ^ 16) % 2 ^ 64
    let (s, r) := s.findLeaf rmCore asid va
    match r with
    | .error _ => s
    | .ok l => s.clearPage asid w va l) s

/-- Status codes of a completion record (R76). -/
def stOK : Nat := 1
def stREJECTED : Nat := 2
def stDEPFAIL : Nat := 3
def stFAULTED : Nat := 4
def stKILLED : Nat := 5

/-- The teams that have been pre-empted for a launch go on, and their swap blocks are free again. -/
def State.dropPreempt (s : State) (id : Nat) : State :=
  s.teams.foldl (fun (s : State) ((i, t) : Nat × Option Team) => match t with
    | none => s
    | some t => match t.preempt with
      | none => s
      | some (p, b) =>
        if p ≠ id then s
        else
          let asid := ((s.launch t.launch).map (·.asid)).getD 0
          State.setTeam { s with pkg := { s.pkg with swapUsed := s.pkg.swapUsed.filter (· ≠ (asid, b)) } } i
            (some { t with stop := t.swapDue, preempt := none })) s
/-- The Ringmaster's steps at a grid's retirement (22 R414). -/
def State.retireLaunch (s : State) (id : Nat) (l : Launch) (status : Nat) : State :=
  let s := s.dropPreempt id
  let s := s.clearClaims l.asid l.word
  let s := s.writeCompletion l status 0 s.clock.ns
  let s := if l.doneaddr == 0 then s
    else
      let (s, ok) := s.updateCounter l.asid l.doneaddr (status == stOK)
      if ok then s else s.postErr 0x0003 l.asid 0 (BitVec.ofNat 64 l.doneaddr) l.word
  (s.setLaunch id none).chainRetire l

/-- A rejected launch (03 R75): completion record, counter as a failure, error entry, host message, chain retirement. -/
def State.rejectLaunch (s : State) (id : Nat) (l : Launch) (code : Nat) : State :=
  let s := s.writeCompletion l stREJECTED code s.clock.ns
  let s := if l.doneaddr == 0 then s else (s.updateCounter l.asid l.doneaddr false).1
  let s := s.postErr 0x0001 l.asid 0 l.word (BitVec.ofNat 64 code)
  let s := s.postMsg 0x8001 l.asid 1 l.word (BitVec.ofNat 64 code)
  (s.setLaunch id none).chainRetire l

/-! ## What a step leaves behind: the error log, wake flags, an address that does not exist -/

/-- Set the wake flag of every strand that has armed one of the lines (17 R364). -/
def State.wakeLines (s : State) (lines : List Nat) : State :=
  let s := s.pkg.spill.foldl (fun (s : State) e => match e.key with | .line _ l => if lines.contains l then s.useKey e.key else s | _ => s) s
  { s with strands := s.strands.map (fun (i, x) =>
      if x.arms.any lines.contains then (i, { x with wake := true }) else (i, x)) }

/-- Post what the step's accesses left for the error log: uncorrectable write-backs and corrected counts. -/
def State.logMarks (s : State) : State :=
  let es := s.ms.errs
  let cs := s.ms.corrMarks
  let s := s.setMs { s.ms with errs := [], corrMarks := [] }
  let s := es.foldl (fun s (pa, h) => s.postErr 0x0005 0xFF (homeDie pa) (BitVec.ofNat 64 pa) (BitVec.ofNat 64 h)) s
  cs.foldl (fun s (k, n) => s.postErr 0x0007 0xFF (k / 8) (BitVec.ofNat 64 (k % 8)) (BitVec.ofNat 64 n)) s

/-- The end of a step: marks are posted, wakes delivered, and nothing of the kind is left. An entry whose log lies where no physical
address exists is lost, and what the posting itself marked is not posted (log 17). -/
def State.settle (s : State) : State :=
  let s := if s.ms.errs.isEmpty && s.ms.corrMarks.isEmpty then s else s.logMarks
  let s := if s.ms.wakes.isEmpty then s else s.wakeLines s.ms.wakes
  s.setMs { s.ms with wakes := [], errs := [], corrMarks := [], bad := none }

/-- The outcome of a step that reached `s`: a fault where the part used a physical address that does not exist. -/
def out (s : State) : Host.Outcome State Fault Refusal :=
  match s.ms.bad with
  | some pa => .fault (.badPhysical pa)
  | none => .next s.settle

end Sys2Proof.Machine
end

