-- ==== Sys2Proof/Machine/Access.lean ====
section
/-! DEFINITION. The accesses of chapter 12 as they are checked and performed: fixed-latency accesses (R283-R288, R297) and
queued requests (R290, R298), from the operands captured at issue. -/

namespace Sys2Proof
namespace Machine

/-! ## Who a strand is -/

/-- The strand as the agent of an access. -/
def State.whoOf (s : State) (sid : Nat) : Who :=
  match s.teamOf sid, s.launchOf sid with
  | some t, some l =>
    let slot := (s.xs sid).role.toNat / 4
    { core := t.base + slot, asid := l.asid, sup := (s.xs sid).modeS, own := (l.word, t.num, slot), hK := l.stashK }
  | _, _ => { core := coreOf sid, asid := s.asidOf sid, sup := (s.xs sid).modeS }

/-! ## Sizes and values (R278, R296) -/

end Machine

def LdSize.n : LdSize → Nat
  | .b8 => 8 | .b1 | .s1 => 1 | .b2 | .s2 => 2 | .b4 | .s4 => 4
/-- Zero- or sign-extend loaded bytes. -/
def LdSize.ext (sz : LdSize) (bs : List Byte) : Word :=
  match sz with
  | .s1 | .s2 | .s4 => Machine.sext (8 * bs.length) (Machine.leNat bs)
  | _ => Machine.leWord bs
def StSize.n : StSize → Nat
  | .b8 => 8 | .b1 => 1 | .b2 => 2 | .b4 => 4
def QstSize.n : QstSize → Nat
  | .b8 | .mask => 8 | .b1 => 1 | .b2 => 2 | .b4 => 4
def AmoSize.n : AmoSize → Nat
  | .b8 => 8 | .b4 => 4
def VecSize.n : VecSize → Nat
  | .b1 | .sp1 => 1 | .b2 | .sp2 => 2 | .b4 | .sp4 => 4
/-- Does the element size name the scratchpad? -/
def VecSize.sp : VecSize → Bool
  | .sp1 | .sp2 | .sp4 => true | _ => false

/-- The format of a float atomic. -/
def AmoSize.fp : AmoSize → Machine.FpFmt
  | .b8 => Machine.fp64 | .b4 => Machine.fp32

namespace Machine

/-- The new value of an integer atomic on `n` bytes. -/
def amoNew (op : AmoOp) (n : Nat) (m x y : Nat) : Nat :=
  let w := 8 * n
  let m := m % 2 ^ w
  let x := x % 2 ^ w
  match op with
  | .swap => x
  | .cas => if m == x then y % 2 ^ w else m
  | .add => (m + x) % 2 ^ w
  | .and => m &&& x
  | .or => m ||| x
  | .xor => m ^^^ x
  | .smin => if sval w x < sval w m then x else m
  | .smax => if sval w m < sval w x then x else m
  | .umin => min m x
  | .umax => max m x

/-- The new value of a float atomic, with its flags. -/
def famoNew (op : FAmoOp) (sz : AmoSize) (rm : RMode) (rnd m x : Nat) : Nat × Flags :=
  match op with
  | .fadd => sz.fp.fin rm rnd (xadd rm (sz.fp.read m) (sz.fp.read x))
  | .fmin => fminmax sz.fp false false m x
  | .fmax => fminmax sz.fp true false m x

/-! ## The scratchpad (04 R90, R91; 12 R282) -/

/-- Is a scratchpad offset in plain scratch or in the window rings of the plan? -/
def scratchOk (l : Launch) (off : Nat) : Bool :=
  let a := 1024 * l.scratchK
  let b := a + 1024 * l.stashK
  off < 2 ^ 20 && (off < a || (b ≤ off && off < b + 1024 * l.ringK))

/-- PROT for the first byte of an access that lies outside. -/
def State.scratchBad (s : State) (sid : Nat) (k : AKind) (addr n : Nat) : Option TrapInfo :=
  match s.launchOf sid with
  | none => some { cause := cPROT, aux := k.aux 5, addr := BitVec.ofNat 64 addr }
  | some l =>
    match (List.range n).find? (fun i => !scratchOk l ((addr + i) % 2 ^ 64)) with
    | some i => some { cause := cPROT, aux := k.aux 5, addr := BitVec.ofNat 64 (addr + i) }
    | none => none

def Core.scratchRd (c : Core) (off n : Nat) : List Byte := Sparse.slice c.scratch 0 off n
def Core.scratchWr (c : Core) (off : Nat) (bs : List Byte) : Core := { c with scratch := Sparse.setRun c.scratch 0 off bs }
def State.spRd (s : State) (core off n : Nat) : List Byte := (s.core core).scratchRd off n
def State.spWr (s : State) (core off : Nat) (bs : List Byte) : State := s.modCore core (fun c => c.scratchWr off bs)

/-! ## Accesses to translated memory by a strand -/

/-- ALIGN (18 R368). -/
def alignTrap (k : AKind) (log2 : Nat) (addr : Nat) : TrapInfo :=
  { cause := cALIGN, aux := k.aux log2, addr := BitVec.ofNat 64 addr }

/-- Read after the checks have passed. -/
def State.doRd (s : State) (who : Who) (k : AKind) (sc : Scope) (stash : Bool) (va : Nat) (ps : List Part) :
    State × Except TrapInfo (List Byte) :=
  (s.commitParts who k ps).rdParts who sc stash va ps

/-- Write after the checks have passed. -/
def State.doWr (s : State) (who : Who) (k : AKind) (sc : Scope) (stash : Bool) (va : Nat) (ps : List Part) (bs : List Byte) :
    State × Option TrapInfo :=
  (s.commitParts who k ps).wrParts who sc stash va ps bs

/-- Does an access stay on the caches' side? FAR pages are reached at their base die or the host (R290, 21 R394). -/
def nearParts (ps : List Part) : Bool := ps.all (fun p => pteAttr p.leaf.pte ≠ 3)

/-! ## Vector accesses: the runs of active lanes -/

/-- Add a lane to runs, joining the last run when `merge` and the bytes follow on within the line. -/
def addLane (merge : Bool) (n va i : Nat) (rs : List LaneRun) : List LaneRun :=
  match rs with
  | r :: rest =>
    if merge && va == r.va + n * r.lanes.length && va / 64 == r.va / 64 then { r with lanes := r.lanes ++ [i] } :: rest
    else { va := va, lanes := [i] } :: rs
  | [] => [{ va := va, lanes := [i] }]

/-- The runs of the lanes of a mask, in lane order. -/
def laneRuns (merge : Bool) (n : Nat) (mask : Word) (addr : Nat → Nat) : List LaneRun :=
  ((List.range 64).foldl (fun rs i => if mask.getLsbD i then addLane merge n (addr i) i rs else rs) []).reverse

/-- The address of lane `i`: contiguous, or base plus the signed offset of the lane (R286, R287). -/
def laneAddr (r : FixReq) (n i : Nat) : Nat :=
  match r.instr with
  | .vgath .. | .vscat .. => (r.addr + sext 32 (lane r.voff i).toNat).toNat
  | _ => (r.addr.toNat + i * n) % 2 ^ 64

/-- Check runs in lane order: alignment, then the page or the scratchpad (R288). -/
def State.checkLanes (s : State) (sid : Nat) (k : AKind) (n : Nat) (sp : Bool) (rs : List LaneRun) :
    State × Except TrapInfo (List (LaneRun × List Part)) :=
  match rs with
  | [] => (s, .ok [])
  | r :: rest =>
    if r.va % n ≠ 0 then (s, .error (alignTrap k (Nat.log2 n) r.va))
    else if sp then
      match s.scratchBad sid k r.va (n * r.lanes.length) with
      | some t => (s, .error t)
      | none =>
        let (s, x) := s.checkLanes sid k n sp rest
        (s, match x with | .error t => .error t | .ok l => .ok ((r, []) :: l))
    else
      let (s, x) := s.checkPage (s.whoOf sid) k r.va (n * r.lanes.length)
      match x with
      | .error t => (s, .error t)
      | .ok p =>
        let (s, x) := s.checkLanes sid k n sp rest
        (s, match x with | .error t => .error t | .ok l => .ok ((r, [p]) :: l))

/-- Elements of a run of bytes put into lanes. -/
def putLanes (v : Vec) (n : Nat) (lanes : List Nat) (bs : List Byte) : Vec :=
  lanes.zipIdx.foldl (fun (v : Vec) (i, j) =>
    if h : i < 64 then v.set i (BitVec.ofNat 32 (leNat ((bs.drop (n * j)).take n))) else v) v

/-- The bytes that lanes store. -/
def laneBytes (v : Vec) (n : Nat) (lanes : List Nat) : List Byte := lanes.flatMap (fun i => leBytes n (lane v i).toNat)

/-! ## A fixed-latency access -/

/-- The kind of a fixed-latency access, for the aux. -/
def fixKind : Instr → AKind
  | .trace .. => { write := true, cohOnly := true }
  | .sts .. | .stg .. | .stv .. | .vscat .. => { write := true }
  | .samo .. | .samof .. => { amo := true, write := true }
  | _ => {}

/-- The checks of a fixed-latency access (R280-R282, R285, R288): precise, nothing performed. -/
def State.fixCheck (s : State) (sid : Nat) (r : FixReq) : State × Except TrapInfo FixPlan :=
  let k := fixKind r.instr
  let a := r.addr.toNat
  let scratch (n : Nat) : State × Except TrapInfo FixPlan :=
    match s.scratchBad sid k a n with
    | some t => (s, .error t)
    | none => (s, .ok (.sp a n))
  let glob (n : Nat) : State × Except TrapInfo FixPlan :=
    let (s, x) := s.checkScalar (s.whoOf sid) k a n
    (s, match x with | .error t => .error t | .ok ps => .ok (.mem ps))
  let vec (sz : VecSize) (merge : Bool) : State × Except TrapInfo FixPlan :=
    let (s, x) := s.checkLanes sid k sz.n sz.sp (laneRuns merge sz.n r.mask (laneAddr r sz.n))
    (s, match x with | .error t => .error t | .ok l => .ok (.lanes sz.sp sz.n l))
  match r.instr with
  | .lds _ sz .. => scratch sz.n
  | .sts _ sz .. => scratch sz.n
  | .samo _ _ sz .. | .samof _ _ sz .. =>
    if a % sz.n ≠ 0 then (s, .error (alignTrap k (Nat.log2 sz.n) a)) else scratch sz.n
  | .ldg _ sz .. => glob sz.n
  | .stg _ sz .. => glob sz.n
  | .trace .. => glob 32
  | .ldv _ sz .. | .stv _ sz .. => vec sz true
  | .vgath _ sz .. | .vscat _ sz .. => vec sz false
  | _ => (s, .ok (.sp 0 0))

/-- The scope field of an access. -/
def scopeOf : Instr → Scope
  | .ldg _ _ sc .. | .stg _ _ sc .. | .ldv _ _ sc .. | .stv _ _ sc .. | .vgath _ _ sc .. | .vscat _ _ sc .. => sc
  | .qld _ _ sc .. | .qst _ _ sc .. | .qldp _ sc .. => sc
  | _ => .package

/-- Load the lanes of passed runs into a vector. -/
def State.rdLanes (s : State) (sid : Nat) (r : FixReq) (sp : Bool) (n : Nat) (rs : List (LaneRun × List Part)) (old : Vec) :
    State × Except TrapInfo Vec :=
  rs.foldl (fun (s, v) (run, ps) =>
    let len := n * run.lanes.length
    if sp then (s, match v with | .ok v => .ok (putLanes v n run.lanes (s.spRd (coreOf sid) run.va len)) | e => e)
    else
      let (s, x) := s.doRd (s.whoOf sid) (fixKind r.instr) (scopeOf r.instr) true run.va ps
      (s, match v, x with
        | .ok v, .ok bs => .ok (putLanes v n run.lanes bs)
        | .ok _, .error t => .error t
        | .error t, _ => .error t)) (s, .ok old)

/-- Store the lanes of passed runs; where one meets an uncorrectable error none is stored (18 R389). -/
def State.wrLanes (s : State) (sid : Nat) (r : FixReq) (sp : Bool) (n : Nat) (rs : List (LaneRun × List Part)) :
    State × Option TrapInfo :=
  let x := rs.foldl (fun (s, e) (run, ps) =>
    let bs := laneBytes r.vdata n run.lanes
    if sp then (s.spWr (coreOf sid) run.va bs, e)
    else
      let (s, e') := s.doWr (s.whoOf sid) (fixKind r.instr) (scopeOf r.instr) true run.va ps bs
      (s, e.orElse (fun _ => e'))) (s, (none : Option TrapInfo))
  match x.2 with
  | some t => (s.setMs (undo s.ms x.1.ms), some t)
  | none => (x.1, none)

/-- The record of a TRACE (21 R410): its time in `mask`, its payload in `data`, CYCLE in `data2`. -/
def State.traceBytes (s : State) (sid : Nat) (code : BitVec 16) (r : FixReq) : List Byte :=
  leBytes 8 r.mask.toNat ++ leBytes 2 code.toNat ++ leBytes 1 (s.xs sid).role.toNat ++ leBytes 1 (s.asidOf sid) ++
    leBytes 4 (((s.teamOf sid).map (·.num)).getD 0) ++ leBytes 8 r.data.toNat ++ leBytes 8 r.data2.toNat

/-- Perform a passed fixed-latency access: the value for its destination, its flags, or an uncorrectable error. `old` is the
destination vector as it stands. -/
def State.fixDo (s : State) (sid : Nat) (r : FixReq) (p : FixPlan) (old : Vec) :
    State × Except TrapInfo (Option RVal × Flags) :=
  let core := coreOf sid
  let k := fixKind r.instr
  let fin (s : State) (e : Option TrapInfo) : State × Except TrapInfo (Option RVal × Flags) :=
    (s, match e with | some t => .error t | none => .ok (none, 0))
  match r.instr, p with
  | .lds _ sz .., .sp off n => (s, .ok (some (.w (sz.ext (s.spRd core off n))), 0))
  | .sts .., .sp off n => (s.spWr core off (leBytes n r.data.toNat), .ok (none, 0))
  | .samo _ op sz .., .sp off _ =>
    let m := leNat (s.spRd core off sz.n)
    (s.spWr core off (leBytes sz.n (amoNew op sz.n m r.data.toNat r.data2.toNat)), .ok (some (.w (BitVec.ofNat 64 m)), 0))
  | .samof _ op sz .., .sp off _ =>
    let m := leNat (s.spRd core off sz.n)
    let (x, fl) := famoNew op sz r.rm r.rnd m (r.data.toNat % 2 ^ (8 * sz.n))
    (s.spWr core off (leBytes sz.n x), .ok (some (.w (BitVec.ofNat 64 m)), fl))
  | .ldg _ sz sc .., .mem ps =>
    let (s, x) := s.doRd (s.whoOf sid) k sc true r.addr.toNat ps
    (s, match x with | .ok bs => .ok (some (.w (sz.ext bs)), 0) | .error t => .error t)
  | .stg _ sz sc .., .mem ps =>
    let (s, e) := s.doWr (s.whoOf sid) k sc true r.addr.toNat ps (leBytes sz.n r.data.toNat)
    fin s e
  | .trace _ _ _ _ code, .mem ps =>
    let (s, e) := s.doWr (s.whoOf sid) k .package false r.addr.toNat ps (s.traceBytes sid code r)
    fin s e
  | .ldv .., .lanes sp n rs | .vgath .., .lanes sp n rs =>
    let (s, x) := s.rdLanes sid r sp n rs old
    (s, match x with | .ok v => .ok (some (.v v), 0) | .error t => .error t)
  | .stv .., .lanes sp n rs | .vscat .., .lanes sp n rs =>
    let (s, e) := s.wrLanes sid r sp n rs
    fin s e
  | _, _ => (s, .ok (none, 0))

/-- The pages of global memory that a passed access touches. -/
def FixPlan.parts : FixPlan → List Part
  | .mem ps => ps
  | .lanes false _ rs => rs.flatMap (·.2)
  | _ => []
/-- Does an access write memory? -/
def AKind.writes (k : AKind) : Bool := k.write || k.amo
/-- Does a passed access allocate in the stash? All but a trace record's. -/
def usesPath : Instr → Bool | .trace .. => false | _ => true
/-- Must a passed access wait for a tile store that has locked one of its lines (17 R344)? -/
def State.fixLocked (s : State) (sid : Nat) (r : FixReq) (p : FixPlan) : Bool :=
  s.anyLocked (s.whoOf sid) (scopeOf r.instr) (usesPath r.instr) (fixKind r.instr).writes p.parts

/-- Does the stash serve an access to bytes of a line: a coherent copy with the sectors; a software-coherent one for an access at core
scope, or for a load of what is dirty there (17 R350)? -/
def stashHas (ms : MemSys) (a : Acc) (write : Bool) (line off n : Nat) : Bool :=
  let secs := secMask off n
  usesStash a && (if a.attr == 1 then
    secs &&& ~~~swcSecs ms (hStash a.core) line (swcLevel a == 0) = 0 && (swcLevel a == 0 || !write)
  else secs &&& ~~~coherentSecs ms (hStash a.core) line = 0)
/-- Does a passed access hit in the core's TLB, as `tlb` held it before its check, and in the stash? Its reply is then never late
(05 R119; 12 R285). -/
def State.fixHit (s : State) (tlb : MemSys) (sid : Nat) (r : FixReq) (p : FixPlan) : Bool :=
  let who := s.whoOf sid
  p.parts.all (fun q => (tlbAt tlb who.core who.asid q.va 0).isSome &&
    (lineRuns (q.len / 64 + 2) q.pa q.len).all (fun x =>
      stashHas s.ms (s.accOf who (scopeOf r.instr) (usesPath r.instr) q) (fixKind r.instr).writes (x.1 / 64) (x.1 % 64) x.2))

/-! ## The order of one strand's accesses (R292; 17 R341) -/

/-- Do two runs of bytes meet when both are widened to multiples of `g`? -/
def runsMeet (g : Nat) (p q : Part) : Bool :=
  p.pa / g * g < (q.pa + q.len + g - 1) / g * g && q.pa / g * g < (p.pa + p.len + g - 1) / g * g
/-- Must an access be performed after an earlier one of its strand: both are COH (17 R341), or they share bytes and one of them writes
(R292); at a base die, a request also follows an earlier write to its granule (14 R334)? -/
def follows (w : Bool) (ps : List Part) (w' : Bool) (qs : List Part) : Bool :=
  ps.any (fun p => qs.any (fun q =>
    (pteAttr p.leaf.pte == 0 && pteAttr q.leaf.pte == 0) || ((w || w') && runsMeet 1 p q) ||
      (w && pteAttr p.leaf.pte == 3 && pteAttr q.leaf.pte == 3 && runsMeet 32 p q)))

/-- The destination of a fixed-latency access. -/
def fixDst : Instr → Option Reg
  | .lds _ _ _ d .. | .ldg _ _ _ d .. | .samo _ _ _ _ d .. | .samof _ _ _ _ d .. => some ⟨.s, d.toNat⟩
  | .ldv _ _ _ d .. | .vgath _ _ _ d .. => some ⟨.v, d.toNat⟩
  | _ => none

/-! ## A queued request -/

/-- The kind of a queued request. -/
def qKind : Instr → AKind
  | .qst .. | .fxw .. => { write := true, far := true }
  | .gamo .. | .gamof .. | .fxamo .. | .fxsig .. => { amo := true, write := true, far := true }
  | _ => { far := true }

/-- The bytes a queued request covers, and the alignment it needs. -/
def qSize : Instr → Nat × Nat
  | .qld _ sz .. => (sz.n, 1)
  | .qldp .. => (16, 16)
  | .qst _ sz .. => (sz.n, 1)
  | .gamo _ _ sz .. | .gamof _ _ sz .. => (sz.n, sz.n)
  | .fxr _ sz .. => (sz.n, sz.n)
  | .fxw _ sz .. => (sz.n, sz.n)
  | .fxamo _ _ sz .. => (sz.n, sz.n)
  | _ => (8, 8)

/-- The check made at issue (R280, R290). -/
def State.qCheck (s : State) (sid : Nat) (r : QReq) : State × Except TrapInfo (List Part) :=
  let (n, al) := qSize r.instr
  let k := qKind r.instr
  let a := r.addr.toNat
  if a % al ≠ 0 then (s, .error (alignTrap k (Nat.log2 al) a))
  else s.checkScalar (s.whoOf sid) k a n

/-- The bytes that a masked store writes over what is there; each written byte on its own (R290). -/
def maskRuns (mask : Nat) : List Nat := (List.range 8).filter (fun j => mask.testBit j)

/-- Write the selected bytes of a masked store: per line, one access; nothing where a merge meets an uncorrectable error. -/
def State.wrMasked (s : State) (who : Who) (sc : Scope) (va : Nat) (ps : List Part) (data mask : Nat) :
    State × Option TrapInfo :=
  if keyLost s.ms ps then (s, some (keyTrap { write := true } va))
  else
  let r := ps.foldl (fun (s, e, off) p =>
    let a := (s : State).accOf who sc false p
    let (ms, e', _) := (lineRuns (p.len / 64 + 2) p.pa p.len).foldl (fun (ms, e, o) (q, m) =>
      let w : LineWrite := ((List.range m).filter (fun i => mask.testBit (o + i))).map (fun i =>
        (q % 64 + i, BitVec.ofNat 8 (data >>> (8 * (o + i)))))
      let (ms, e') := writeLine ms a (q / 64) w
      (ms, (match e, e' with | some t, _ => some t | none, x => x), o + m)) (s.ms, (none : Option Nat), off)
    (s.setMs ms, (match e, e' with | some t, _ => some t | none, some h => some (eccu h va) | none, none => none), off + p.len))
    (s, (none : Option TrapInfo), 0)
  match r.2.1 with
  | some t => (s.setMs (undo s.ms r.1.ms), some t)
  | none => (r.1, none)

/-- An atomic on its one page: at the home slice, past any software-coherent copy, or at the base die, as one access (R298, R299). -/
def State.rmwParts (s : State) (who : Who) (va : Nat) (ps : List Part) (f : Nat → Nat × Flags) (n : Nat) :
    State × Except TrapInfo (Nat × Flags) :=
  match ps with
  | [] => (s, .ok (0, 0))
  | p :: _ =>
    if keyLost s.ms ps then (s, .error (keyTrap { amo := true, write := true } va))
    else
      let (s, r) := s.rmwPart who p n (fun bs => leBytes n (f (leNat bs)).1)
      (s, match r with | .error h => .error (eccu h va) | .ok bs => .ok (leNat bs, (f (leNat bs)).2))

/-- Perform a passed queued request, whose pages were committed at issue: the values for its destinations and its flags, or an
uncorrectable error. -/
def State.qDo (s : State) (sid : Nat) (r : QReq) : State × Except TrapInfo (List RVal × Flags) :=
  let who := s.whoOf sid
  let ps := r.parts
  let sc := scopeOf r.instr
  let va := r.addr.toNat
  match r.instr with
  | .qld _ sz .. =>
    let (s, x) := s.rdParts who sc false va ps
    (s, match x with | .ok bs => .ok ([.w (sz.ext bs)], 0) | .error t => .error t)
  | .qldp .. =>
    let (s, x) := s.rdParts who sc false va ps
    (s, match x with | .ok bs => .ok ([.w (leWord (bs.take 8)), .w (leWord (bs.drop 8))], 0) | .error t => .error t)
  | .qst _ sz .. =>
    let (s, e) := if sz == .mask then s.wrMasked who sc va ps r.data.toNat (r.data2.toNat % 256)
      else s.wrParts who sc false va ps (leBytes sz.n r.data.toNat)
    (s, match e with | some t => .error t | none => .ok ([], 0))
  | .gamo _ op sz .. =>
    let (s, x) := s.rmwParts who va ps (fun m => (amoNew op sz.n m r.data.toNat r.data2.toNat, 0)) sz.n
    (s, match x with | .ok (m, fl) => .ok ([.w (BitVec.ofNat 64 m)], fl) | .error t => .error t)
  | .gamof _ op sz .. =>
    let (s, x) := s.rmwParts who va ps (fun m => famoNew op sz r.rm r.rnd m (r.data.toNat % 2 ^ (8 * sz.n))) sz.n
    (s, match x with | .ok (m, fl) => .ok ([.w (BitVec.ofNat 64 m)], fl) | .error t => .error t)
  | _ => (s, .ok ([], 0))

/-- The destinations of a queued request. -/
def qDst : Instr → List Reg
  | .qld _ _ _ _ d .. => [⟨.s, d.toNat⟩]
  | .qldp _ _ _ d .. => [⟨.s, d.toNat⟩, ⟨.s, d.toNat + 1⟩]
  | .gamo _ _ _ _ d .. | .gamof _ _ _ _ d .. => [⟨.s, d.toNat⟩]
  | .fxr _ _ _ d .. | .fxamo _ _ _ _ d .. => [⟨.s, d.toNat⟩]
  | _ => []

/-- The tag that a queued request names. -/
def qTag : Instr → BitVec 3
  | .qld _ _ _ tag .. | .qst _ _ _ tag .. | .qldp _ _ tag .. => tag
  | .gamo _ _ _ tag .. | .gamof _ _ _ tag .. => tag
  | .fxr _ _ tag .. | .fxw _ _ tag .. | .fxsig _ tag .. => tag
  | .fxamo _ _ _ tag .. => tag
  | _ => 0

/-- Is the request one for another package (21 R400)? -/
def isFx : Instr → Bool
  | .fxr .. | .fxw .. | .fxamo .. | .fxsig .. => true
  | _ => false

end Machine
end Sys2Proof
end

