-- ==== Sys2Proof/Machine/Frame.lean ====
section
/-! DEFINITION. The trap frame and its replay entries (18 R373-R375, R381), byte by byte. -/

namespace Sys2Proof
namespace Machine

/-! ## What a replay entry holds -/

/-- The number of the operation that an entry stands for. -/
def RepBody.id : RepBody → Nat
  | .fix r => r.id | .queued r _ => r.id | .code r => r.id | .engine c => c.id | .copy c => c.id

/-- The word that an entry stands for. -/
def RepBody.word : RepBody → Word
  | .fix r => r.word | .queued r _ => r.word | .code r => r.word | .engine c => c.word | .copy c => c.word

/-- The bytes of a vector, lane i at 4i. -/
def vecBytes (v : Vec) : List Byte := v.toList.flatMap (fun x => leBytes 4 x.toNat)
/-- A vector from its 256 bytes. -/
def vecRead (bs : List Byte) : Vec := vecOf (fun i => BitVec.ofNat 32 (field bs (4 * i) 4))

/-- The vectors that an entry captured: engine captures, then access captures (R375, R381). -/
def RepBody.vcaps : RepBody → List Vec
  | .engine c => c.vcap.toList
  | .fix r => match r.instr with
    | .stv .. => [r.vdata]
    | .vgath .. => [r.voff]
    | .vscat .. => [r.vdata, r.voff]
    | _ => []
  | _ => []

/-- The capture numbers and vectors that an access holds in the strand's access captures, 8 to 29 (R375). -/
def FixReq.caps (r : FixReq) : List (Nat × Vec) :=
  if 8 ≤ r.cap && r.cap < 30 then (RepBody.vcaps (.fix r)).zipIdx.map (fun (v, i) => (r.cap + i, v)) else []
/-- The access captures in use: those of accesses still to be performed, and of entries of the replay queue. -/
def Strand.capsUsed (x : Strand) : List Nat :=
  (x.lates.flatMap (fun e => e.1.caps) ++ x.replay.flatMap (fun e => match e.body with | .fix r => r.caps | _ => [])).map (·.1)
/-- The lowest access captures that are free, as many as an access needs, one after another; 255 for an access that needs none. -/
def Strand.freeCap (x : Strand) (r : FixReq) : Option Nat :=
  let n := (RepBody.vcaps (.fix r)).length
  if n == 0 then some 255
  else (List.range 22).find? (fun i => i + n ≤ 22 && (List.range n).all (fun j => !x.capsUsed.contains (8 + i + j))) |>.map (8 + ·)

/-- What a rounding atomic keeps: its mode and its drawn bits (log 30). -/
def rndWord (rm : RMode) (rnd : Nat) : Word := BitVec.ofNat 64 ((RMode.enc rm).toNat + 256 * rnd)

/-- The fields queue, data and rec of an entry (R375; what a rounding atomic, a trace record, a remote request and a codebook word keep,
log 30; the rows that a band copy has moved, log 77). -/
def RepBody.fields : RepBody → Nat × List Word × List Word
  | .fix r =>
    let data := match r.instr with
      | .ldv .. | .stv .. | .vgath .. | .vscat .. => [r.mask, 0]
      | _ => [r.data, r.data2]
    (0, data, match r.instr with | .trace .. => [r.mask] | _ => [rndWord r.rm r.rnd])
  | .queued r _ => (1, [r.data, r.data2], [rndWord r.rm r.rnd, r.target])
  | .code r => (1, [r.data, 0], [rndWord r.rm 0, r.gen])
  | .engine c => (2, [c.sop, BitVec.ofNat 64 c.idx], [])
  | .copy c => (3, [BitVec.ofNat 64 c.first, BitVec.ofNat 64 c.last], c.record.toList)

def RepBody.pc : RepBody → Word
  | .fix r => r.pc | .queued r _ => r.pc | .code r => r.pc | .engine c => c.pc | .copy c => c.pc

/-- The field addr of an entry: the effective address of an access, else where the command failed. -/
def RepEntry.ea (e : RepEntry) : Word :=
  match e.body with
  | .fix r => r.addr | .queued r _ => r.addr | _ => e.addr

/-- Bytes padded with zeros to a length. -/
def padTo (n : Nat) (bs : List Byte) : List Byte := bs ++ zeros (n - bs.length)

/-- The 128 bytes of an entry whose first capture has number `cap`. -/
def RepEntry.bytes (e : RepEntry) (cap : Nat) : List Byte :=
  let (queue, data, rec) := e.body.fields
  leBytes 8 e.body.word.toNat ++ leBytes 8 e.body.pc.toNat ++ leBytes 1 e.state ++
  leBytes 1 (if e.state == 1 then e.cause else 0) ++ leBytes 1 queue ++ leBytes 1 cap ++ zeros 4 ++
  leBytes 8 (if e.state == 1 then e.aux.toNat else 0) ++ leBytes 8 e.ea.toNat ++ zeros 8 ++
  padTo 16 (data.flatMap (fun w => leBytes 8 w.toNat)) ++ padTo 64 (rec.flatMap (fun w => leBytes 8 w.toNat))

/-- Entries with their capture numbers, and the engine captures they use, in order. -/
def layCaps (es : List RepEntry) : List (RepEntry × Nat) × List Vec :=
  es.foldl (fun (out, eng) e =>
    match e.body with
    | .engine c => match c.vcap with
      | some v => (out ++ [(e, eng.length)], eng ++ [v])
      | none => (out ++ [(e, 255)], eng)
    | .fix r => (out ++ [(e, r.cap)], eng)
    | _ => (out ++ [(e, 255)], eng)) ([], [])
/-- The access captures of entries, 256 bytes each; zeros where no entry has one. -/
def acapBytes (es : List RepEntry) : List Byte :=
  let cs := es.flatMap (fun e => match e.body with | .fix r => r.caps | _ => [])
  (List.range 22).flatMap (fun i => match cs.find? (fun c => c.1 == 8 + i) with | some c => vecBytes c.2 | none => zeros 256)

/-! ## The frame (R373) -/

/-- The two mode bits: U in bit 1, S in bit 0. -/
def Strand.modeBits (x : Strand) : Nat := 2 * b2n x.modeU + b2n x.modeS

/-- The word `barwait` of a strand (17 R361). -/
def barWord (b : Option BarPend) : Nat :=
  match b with
  | none => 0
  | some p => 2 ^ 63 + p.entry % 256 * 2 ^ 32 + p.gen.toNat

/-- The bytes of scalar or predicate registers `lo .. hi-1`. -/
def regBytes (r : Vector Word 64) (lo n : Nat) : List Byte :=
  ((r.toList.drop lo).take n).flatMap (fun w => leBytes 8 w.toNat)

/-- The 16 KiB image of a frame. -/
def Strand.frameBytes (x : Strand) (t : TrapInfo) (pc : Word) (ns : Nat) : List Byte :=
  let es := x.replay.take 64
  let (ents, eng) := layCaps es
  leBytes 8 pc.toNat ++ leBytes 1 t.cause ++ leBytes 1 x.modeBits ++ leBytes 1 (b2n x.rep.isSome) ++
  leBytes 1 ((x.rep.map (·.k)).getD 0) ++ leBytes 4 es.length ++ leBytes 8 t.aux.toNat ++ leBytes 8 t.addr.toNat ++
  leBytes 8 ((x.rep.map (·.addr.toNat)).getD 0) ++ leBytes 8 (barWord x.barWait) ++ leBytes 8 ns ++
  leBytes 8 x.fpctl.toNat ++ zeros 192 ++
  zeros 8 ++ regBytes x.s 1 15 ++ zeros 8 ++ regBytes x.p 1 3 ++ zeros 96 ++
  padTo 8192 (ents.flatMap (fun (e, c) => e.bytes c)) ++
  padTo 2048 (eng.flatMap vecBytes) ++ acapBytes es

/-- Bytes in a frame. -/
def frameLen : Nat := 0x4000

/-! ## Reading an entry back -/

/-- What an entry of a frame says: state, queue and body. An entry whose word is no instruction of its queue has no body
(log 31). -/
structure FrameEntry where
  state : Nat
  body  : Option RepBody
  deriving DecidableEq, Repr

/-- The rounding mode that an entry kept. -/
def rndMode (w : Word) : RMode := (RMode.dec (BitVec.ofNat 3 (slc w 7 0))).getD .rne

/-- Is an instruction a fixed-latency access? -/
def isFixed : Instr → Bool
  | .lds .. | .sts .. | .ldg .. | .stg .. | .samo .. | .samof .. | .ldv .. | .stv .. | .vgath .. | .vscat .. | .trace .. => true
  | _ => false
/-- Is an instruction a queued request? -/
def isQueued : Instr → Bool
  | .qld .. | .qldp .. | .qst .. | .gamo .. | .gamof .. | .fxr .. | .fxw .. | .fxamo .. | .fxsig .. => true
  | _ => false
/-- Is an instruction a codebook word that a version miss can fail (09 R208)? -/
def isCode : Instr → Bool
  | .cbld .. | .cbpin .. | .cbenc .. | .cbdec .. => true
  | _ => false
/-- Is an instruction a matrix-engine word (10 R228)? -/
def isEngineWord : Instr → Bool
  | .tcfg .. | .tzero .. | .tmovv .. | .tmovt .. | .tcopy .. | .tdec .. | .tenc .. | .mma .. | .mpt .. | .mga .. | .mhad ..
  | .azero .. | .amovv .. | .awrv .. | .acvt .. | .ascl .. | .abmax .. | .rzero .. | .rmovv .. | .mmode .. => true
  | _ => false
/-- The notify role and the window of a copy command's word; none for other words. -/
def copyWord : Instr → Option (Option (BitVec 4) × Option Nat)
  | .tld _ _ nr .. | .tst _ _ nr .. | .cpy _ _ nr .. | .cpyz _ _ nr .. => some (nr, none)
  | .wopen _ _ w _ => some (none, some w.toNat)
  | .wadv _ _ w => some (none, some w.toNat)
  | _ => none

/-- Entry `n` of a frame image; `id` is the number of its operation, `sid` its strand. -/
def readEntry (img : List Byte) (n id sid : Nat) : FrameEntry :=
  let b := (img.drop (0x200 + 128 * n)).take 128
  let w : Word := BitVec.ofNat 64 (field b 0 8)
  let pc : Word := BitVec.ofNat 64 (field b 8 8)
  let cap := field b 0x13 1
  let vc (k : Nat) : Vec := if 30 ≤ k then Vector.replicate 64 0
    else vecRead ((img.drop (if k < 8 then 0x2200 + 256 * k else 0x2A00 + 256 * (k - 8))).take 256)
  let addr : Word := BitVec.ofNat 64 (field b 0x20 8)
  let d0 : Word := BitVec.ofNat 64 (field b 0x30 8)
  let d1 : Word := BitVec.ofNat 64 (field b 0x38 8)
  let r0 : Word := BitVec.ofNat 64 (field b 0x40 8)
  let r1 : Word := BitVec.ofNat 64 (field b 0x48 8)
  let body : Option RepBody := match decodeWord w, field b 0x12 1 with
    | .ok i, 0 =>
      if !isFixed i then none
      else
        let vec := match i with | .ldv .. | .stv .. | .vgath .. | .vscat .. => true | _ => false
        let voff := match i with | .vgath .. => vc cap | .vscat .. => vc (cap + 1) | _ => Vector.replicate 64 0
        let vdata := match i with | .stv .. | .vscat .. => vc cap | _ => Vector.replicate 64 0
        some (.fix { id := id, instr := i, word := w, pc := pc, addr := addr, data := d0, data2 := d1,
                     mask := match i with | .trace .. => r0 | _ => if vec then d0 else 0, vdata := vdata, voff := voff, rm := rndMode r0, rnd := slc r0 23 8, cap := cap })
    | .ok i, 1 =>
      if isCode i then some (.code { id := id, instr := i, word := w, pc := pc, data := d0, rm := rndMode r0, gen := r1 })
      else if !isQueued i then none
      else some (.queued { id := id, instr := i, word := w, pc := pc, addr := addr, data := d0, data2 := d1, rm := rndMode r0,
                           rnd := slc r0 23 8, target := r1 } (qTag i).toNat)
    | .ok i, 2 =>
      if !isEngineWord i then none
      else some (.engine { id := id, sid := sid, instr := i, word := w, pc := pc, sop := d0, idx := slc d1 6 0,
                           vcap := if cap < 8 then some (vc cap) else none })
    | .ok i, 3 =>
      match copyWord i with
      | none => none
      | some (nr, win) =>
        some (.copy { id := id, sid := sid, instr := i, word := w, pc := pc,
                      record := words8 (fun k => BitVec.ofNat 64 (field b (0x40 + 8 * k) 8)), win := win,
                      first := d0.toNat, last := d1.toNat, nr := nr.map (·.toNat) })
    | _, _ => none
  { state := field b 0x10 1, body := body }

end Machine
end Sys2Proof
end

