-- ==== Sys2Proof/Machine/Ops.lean ====
section
/-! DEFINITION. The named operations of a strand: registers and their counters, blocking results, tokens, releases and acquires,
the replay queue, killing a context, taking a trap, and the issue of a word (05, 17, 18). -/

namespace Sys2Proof
namespace Machine

/-! ## Registers (00 R7; 05 R115-R118) -/

def rS (r : SReg) : Reg := ⟨.s, r.toNat⟩
def rP (r : PReg) : Reg := ⟨.p, r.toNat⟩
def rV (r : VReg) : Reg := ⟨.v, r.toNat⟩

/-- s0 and p0 are hard-wired: writes are discarded, and they are never pending and never await a result. -/
def Reg.zero (r : Reg) : Bool := r.num == 0 && r.file ≠ .v

/-- A scalar register; s0 reads 0. -/
def Strand.sr (x : Strand) (r : SReg) : Word := if r = 0 then 0 else x.s[r.toNat]'r.isLt
/-- A predicate register; p0 reads all ones. -/
def Strand.pr (x : Strand) (r : PReg) : Word := if r = 0 then BitVec.allOnes 64 else x.p[r.toNat]'r.isLt
/-- A vector register. -/
def Strand.vr (x : Strand) (r : VReg) : Vec := x.v[r.toNat]'r.isLt
def State.sr (s : State) (r : SReg) : Word := s.st.sr r
def State.pr (s : State) (r : PReg) : Word := s.st.pr r
def State.vr (s : State) (r : VReg) : Vec := s.st.vr r
/-- The scalar register after `r`, for pairs and records. -/
def State.srN (s : State) (n : Nat) : Word := s.sr (BitVec.ofNat 6 n)

/-- Write a register, with the core-clock instant at which its counter is zero; a write to s0 or p0 is discarded. -/
def Strand.setReg (x : Strand) (r : Reg) (v : RVal) (due : Nat) : Strand :=
  if r.zero then x
  else match r.file, v with
  | .s, .w w => if h : r.num < 64 then { x with s := x.s.set r.num w, sDue := x.sDue.set r.num due } else x
  | .p, .w w => if h : r.num < 64 then { x with p := x.p.set r.num w, pDue := x.pDue.set r.num due } else x
  | .v, .v w => if h : r.num < 32 then { x with v := x.v.set r.num w, vDue := x.vDue.set r.num due } else x
  | _, _ => x

/-- Set the counter of a register whose value is still to come. -/
def Strand.setDue (x : Strand) (r : Reg) (due : Nat) : Strand :=
  if r.zero then x
  else match r.file with
  | .s => if h : r.num < 64 then { x with sDue := x.sDue.set r.num due } else x
  | .p => if h : r.num < 64 then { x with pDue := x.pDue.set r.num due } else x
  | .v => if h : r.num < 32 then { x with vDue := x.vDue.set r.num due } else x

/-- The counter of a register at a core-clock instant. -/
def Strand.left (x : Strand) (now : Nat) (r : Reg) : Nat :=
  if r.zero then 0
  else (match r.file with
    | .s => x.sDue.toList.getD r.num 0
    | .p => x.pDue.toList.getD r.num 0
    | .v => x.vDue.toList.getD r.num 0) - now

/-- Does a register await a blocking result? -/
def Strand.awaits (x : Strand) (r : Reg) : Bool := !r.zero && x.ops.any (fun o => o.frame.isNone && o.dst.contains r)

/-- The union of flags. -/
def orFlags (l : List (Nat × BitVec 5)) : Flags := l.foldl (fun f e => f ||| e.2) 0

/-- Every counter at zero, and every flag landed (18 R370). -/
def Strand.settleRegs (x : Strand) : Strand :=
  { x with
    sDue := Vector.replicate 64 0, pDue := Vector.replicate 64 0, vDue := Vector.replicate 32 0
    fpctl := x.fpctl ||| BitVec.ofNat 64 ((orFlags x.flagQ).toNat * 16)
    flagQ := [] }

/-- The strand with every flag due by an instant in fpctl (05 R133). -/
def Strand.landFlags (x : Strand) (now : Nat) : Strand :=
  { x with
    fpctl := x.fpctl ||| BitVec.ofNat 64 ((orFlags (x.flagQ.filter (fun e => decide (e.1 ≤ now)))).toNat * 16)
    flagQ := x.flagQ.filter (fun e => decide (now < e.1)) }

/-- A fixed-latency write of the current strand. -/
def State.wrS (s : State) (d : SReg) (w : Word) (lat : Nat) : State := s.modSt (fun x => x.setReg (rS d) (.w w) (s.now + lat))
def State.wrP (s : State) (d : PReg) (w : Word) (lat : Nat) : State := s.modSt (fun x => x.setReg (rP d) (.w w) (s.now + lat))
/-- A vector write under a lane mask: inactive lanes keep their data (02 R43). -/
def State.wrV (s : State) (d : VReg) (w : Vec) (mask : Word) (lat : Nat) : State :=
  s.modSt (fun x => x.setReg (rV d) (.v (vecOf (fun i => if mask.getLsbD i then lane w i else lane (x.vr d) i))) (s.now + lat))
/-- Flags of an operation of latency `lat` (05 R133). -/
def State.addFlags (s : State) (fl : Flags) (lat : Nat) : State :=
  if fl = 0 then s else s.modSt (fun x => { x with flagQ := x.flagQ ++ [(s.now + lat, fl)] })

/-- fpctl.rm; 6 and 7 are never stored. -/
def Strand.rmode (x : Strand) : RMode := (RMode.dec (x.fpctl.extractLsb' 0 3)).getD .rne
def State.rmode (s : State) : RMode := s.st.rmode

/-! ## The place of a word -/

def blkOf (pc : Word) : Word := pc &&& ~~~(63 : Word)
/-- The slot 0-6 that an address names. -/
def slotOf (pc : Word) : Nat := slc pc 5 3 - 1
/-- The next slot (05 R124). -/
def nextPc (pc : Word) : Word := if slc pc 5 3 < 7 then pc + 8 else blkOf pc + 72

def Block.word (b : Block) (i : Nat) : Word := b.words.toList.getD i 0
def Block.valid (b : Block) (i : Nat) : Bool := b.header.getLsbD (16 + i)
/-- The target slot of a REP word: the next valid slot of its role code (02 R57). -/
def Block.repTarget (b : Block) (slot : Nat) : Option Nat :=
  (List.range 7).find? (fun j => slot < j && b.valid j && fRole (b.word j) == fRole (b.word slot))

/-- The REP in force whose target is the strand's word, with its word. -/
def Strand.repHere (x : Strand) : Option (Rep × Word) :=
  match x.rep, x.blk with
  | some r, some (a, b) =>
    if blkOf r.addr == a && blkOf x.pc == a && b.repTarget (slotOf r.addr) == some (slotOf x.pc) then
      some (r, b.word (slotOf r.addr)) else none
  | _, _ => none

/-- The strand on its way into the block at `t` (05 R105): a REP is dropped. -/
def Strand.enter (x : Strand) (t : Word) : Strand :=
  { x with pc := t, entry := some t, blk := none, rep := none, quiet := false }

/-- The strand after its word, on to the next slot or repetition (05 R126). -/
def Strand.advance (x : Strand) : Strand :=
  let next (x : Strand) : Strand := if slc x.pc 5 3 < 7 then { x with pc := nextPc x.pc } else x.enter (nextPc x.pc)
  match x.repHere with
  | some (r, w) =>
    if r.k + 1 < (fD w).toNat + 1 then { x with rep := some { r with k := r.k + 1 } } else next { x with rep := none }
  | none => next x

/-- A word of the strand has issued: it waits no more and has used its cycle. -/
def Strand.didIssue (x : Strand) : Strand :=
  { x with issued := true, wait := none, vSince := none, paused := false }

/-! ## What a strand has in flight -/

/-- The engine and copy commands of a strand that are not complete. -/
def State.commands (s : State) (sid : Nat) : List Nat :=
  if sid < 768 then
    let c := s.core (coreOf sid)
    ((c.erun.toList ++ c.equeue).filter (fun e => e.sid == sid)).map (·.id) ++
    ((c.crLd.toList ++ c.cqLd ++ c.crSt.toList ++ c.cqSt).filter (fun e => e.sid == sid)).map (·.id)
  else ((s.teamOf sid).map (fun t => t.savedIds.flatMap (fun e => if e.1 == (sid - 768) % 16 then e.2.2 else []))).getD []
/-- The PTEAMOs of a strand that are not performed, with their numbers (18 R384). -/
def Strand.pteOps (x : Strand) : List (Nat × PteReq) :=
  x.ops.filterMap (fun o => match o.cls with | .pte r => if o.done then none else some (o.id, r) | _ => none)
/-- The bytes of a PTEAMO: COH, by physical address alone. -/
def PteReq.part (r : PteReq) : Part := { va := 2 ^ 64, pa := r.pa, len := 8, leaf := { pte := 0, ptePa := 0, block := false } }
/-- The requests and commands of a strand that are not performed and have not failed (17 R351); those for other packages are awaited
at domain scope alone (17 R356). -/
def State.inFlight (s : State) (sid : Nat) : List Nat :=
  let x := s.xs sid
  let tags := x.tags.toList.filterMap (fun t => t.req.bind (fun r => if r.performed || isFx r.instr then none else some r.id))
  let late := x.lates.map (fun e => e.1.id)
  tags ++ late ++ x.pteOps.map (·.1) ++ s.commands sid

/-- Those, and what stands in the replay queue and in the frames of its handlers: what holds back a token (05 R130). -/
def State.unperf (s : State) (sid : Nat) : List Nat :=
  let x := s.xs sid
  s.inFlight sid ++ x.replay.map (fun e => e.body.id) ++ x.frameIds.flatMap (·.2)

/-- The copy commands of a strand that have memory or scratchpad accesses to make (13 R332). -/
def State.copyPending (s : State) (sid : Nat) : List CCmd :=
  let c := s.core (coreOf sid)
  (c.cqLd ++ c.cqSt ++ (c.crSt.toList ++ c.crLd.toList).filter CCmd.working).filter (fun e => e.sid == sid)

/-! ## Ordering of one strand's accesses (12 R292; 13 R332, R333; 17 R341) -/

/-- Does a copy command cover COH memory? -/
def State.copyCoh (s : State) (core : Nat) (e : CCmd) : Bool :=
  e.spans.any (fun x => match (s.findLeaf core (s.asidOf e.sid) x.1).2 with | .ok l => pteAttr l.pte == 0 | .error _ => false)
/-- Must an access follow a copy command of its strand: both are COH, or they share bytes and one of them writes? -/
def State.behindCopy (s : State) (core : Nat) (e : CCmd) (w : Bool) (ps : List Part) : Bool :=
  ((w || e.writesMem) && ps.any (fun p => e.spans.any (fun x => p.va < x.1 + x.2 && x.1 < p.va + p.len))) ||
    (ps.any (fun p => pteAttr p.leaf.pte == 0) && s.copyCoh core e)
/-- Has the strand an access or a copy command, issued before number `id` and not performed, that an access must follow? -/
def State.behind (s : State) (sid id : Nat) (w : Bool) (ps : List Part) : Bool :=
  let x := s.xs sid
  x.tags.toList.any (fun t => match t.req with
    | some r => r.id < id && !r.performed && follows (qKind r.instr).writes r.parts w ps
    | none => false) ||
  x.lates.any (fun e => e.1.id < id && follows (fixKind e.1.instr).writes e.2.parts w ps) ||
  x.pteOps.any (fun e => e.1 < id && follows true [e.2.part] w ps) ||
  (sid < 768 && (s.copyPending sid).any (fun e => e.id < id && s.behindCopy (coreOf sid) e w ps))
/-- Must a late access still wait: for a tile store's lock, or for what its strand issued before it? -/
def State.lateHeld (s : State) (sid : Nat) (e : FixReq × FixPlan) : Bool :=
  s.fixLocked sid e.1 e.2 || s.behind sid e.1.id (fixKind e.1.instr).writes e.2.parts
/-- Has a strand a late access that must still wait? -/
def State.lateStuck (s : State) (sid : Nat) : Bool := (s.strand sid).lates.any (s.lateHeld sid)
/-- The strands of a core. -/
def coreSids (core : Nat) : List Nat := (List.range 4).map (4 * core + ·)

/-! ## Releases and acquires (17 R349-R354) -/

/-- Team scope (17 R353). -/
def teamScope (shape : Nat) : Scope := if shape == 1 then .core else .cluster
def State.teamScopeOf (s : State) (sid : Nat) : Scope := ((s.teamOf sid).map (fun t => teamScope t.shape)).getD .core

/-- The write-backs of a release at a scope. -/
def State.releaseAt (s : State) (sid : Nat) (sc : Scope) : State :=
  s.setMs (releaseLines s.ms (coreOf sid) (s.asidOf sid) sc)
/-- The drops of an acquire at a scope. -/
def State.acquireAt (s : State) (sid : Nat) (sc : Scope) : State :=
  s.setMs (acquireLines s.ms (coreOf sid) (s.asidOf sid) sc)
/-- Is everything that a release of the strand covers performed? -/
def State.performed (s : State) (sid : Nat) : Bool := (s.inFlight sid).isEmpty
/-- And at domain scope: also its requests for other packages. -/
def State.performedAt (s : State) (sid : Nat) (sc : Scope) : Bool :=
  s.performed sid && (sc ≠ .domain || (s.xs sid).tags.toList.all (fun t => match t.req with | some r => r.performed | none => true))

/-! ## Tokens (05 R127-R130) -/

def handKey (frm tgt : Nat) : Nat := 16 * frm + tgt
def Team.handQ (t : Team) (frm tgt : Nat) : HandQ := Sparse.get t.hand {} (handKey frm tgt)
def Team.setHandQ (t : Team) (frm tgt : Nat) (q : HandQ) : Team := { t with hand := Sparse.set t.hand {} (handKey frm tgt) q }

/-- The strand that holds a role of a team, resident or not. -/
def Team.sidFor (t : Team) (id role : Nat) : Nat := if t.place = .resident then t.sidOf role else awaySid id role

/-- Push tokens: they cannot be popped before what the push releases is performed. -/
def State.pushTok (s : State) (tid frm tgt n : Nat) (lines : Option (List Nat)) : State :=
  s.modTeam tid (fun t =>
    let q := t.handQ frm tgt
    let needs := if lines.isSome then [] else s.unperf (t.sidFor tid frm)
    t.setHandQ frm tgt { q with toks := q.toks ++ List.replicate n { src := frm, at' := s.cycle, needs := needs, lines := lines } })

/-- Reserve a place for a command's token. -/
def State.reserveTok (s : State) (tid frm tgt : Nat) : State :=
  s.modTeam tid (fun t => let q := t.handQ frm tgt; t.setHandQ frm tgt { q with resv := q.resv + 1 })

/-- A command's reservation becomes a token, which acquires the lines it wrote (13 R332). -/
def State.fillTok (s : State) (tid frm tgt : Nat) (lines : List Nat) : State :=
  State.pushTok (s.modTeam tid (fun t => let q := t.handQ frm tgt; t.setHandQ frm tgt { q with resv := q.resv - 1 }))
    tid frm tgt 1 (some lines)

/-- Can a token be popped now by the strand that holds role `to`? -/
def State.popOk (s : State) (tid : Nat) (t : Team) (tok : Token) (tgt : Nat) : Bool :=
  tok.at' + (if tok.src / 4 == tgt / 4 then 1 else 6) ≤ s.cycle &&
    tok.needs.all (fun i => !(s.unperf (t.sidFor tid tok.src)).contains i)

/-- The acquire of a popped token (17 R353): the release of the push is complete for what was performed after it, and another core's popper
drops the software-coherent lines of its stash; for a command's token, that command's lines. -/
def State.popAcquire (s : State) (t : Team) (tok : Token) (sid : Nat) : State :=
  let core := coreOf sid
  let from' := t.base + tok.src / 4
  match tok.lines with
  | some ls => s.setMs (ls.foldl (fun ms l => if (getCopy ms (hStash core) l).swc then evictLine ms (hStash core) l else ms) s.ms)
  | none =>
    let ms := releaseLines s.ms from' (s.asidOf sid) (teamScope t.shape)
    s.setMs (if from' == core then ms else acquireLines ms core (s.asidOf sid) .cluster)

/-! ## Blocking results (05 R118) -/

/-- Begin an operation with a blocking result; its values may be known already. -/
def State.block (s : State) (sid : Nat) (cls : OpClass) (dst : List Reg) (vals : List RVal) (flags : Flags) (done : Bool)
    (frame : Option Word := none) : Nat × State :=
  let id := s.nextId
  (id, State.modXs { s with nextId := id + 1 } sid (fun x =>
    { x with ops := x.ops ++ [{ id := id, cls := cls, dst := dst, frame := frame, vals := vals, flags := flags, done := done }] }))

/-- A system operation whose result is known and arrives later. -/
def State.sysResult (s : State) (d : SReg) (w : Word) : State := (s.block s.cur .system [rS d] [.w w] 0 true).2

/-- An operation ends with no result: its registers keep their values and stop awaiting. -/
def State.dropOp (s : State) (sid id : Nat) : State :=
  s.modXs sid (fun x => { x with ops := x.ops.filter (fun o => o.id ≠ id) })

/-! ## The replay queue (18 R369) -/

/-- Free the tag that holds an operation, its arrived flag clear (12 R294). -/
def Strand.freeTag (x : Strand) (id : Nat) : Strand :=
  { x with tags := x.tags.map (fun t => if (t.req.map (·.id)) == some id then {} else t) }

/-- Put an entry among others in the order in which the operations issued (18 R373). -/
def insertEntry (e : RepEntry) : List RepEntry → List RepEntry
  | [] => [e]
  | f :: r => if e.body.id < f.body.id then e :: f :: r else f :: insertEntry e r
/-- A strand is sent ECCU: its launch's completion record says so (03 R76, 22 R413). -/
def State.sentEccu (s : State) (sid cause : Nat) : State :=
  if cause ≠ cECCU then s
  else match s.teamOf sid with
  | none => s
  | some t => s.modLaunch t.launch (fun l => { l with eccu := true })
/-- Enter a failed or an unstarted operation in the replay queue. -/
def State.defer (s : State) (sid : Nat) (e : RepEntry) : State :=
  let s := (s.dropOp sid e.body.id).modXs sid (fun x => { (x.freeTag e.body.id) with replay := insertEntry e x.replay })
  if e.state == 1 then s.sentEccu sid e.cause else s

/-- Enter a failed operation with what failed it. -/
def State.deferTrap (s : State) (sid : Nat) (b : RepBody) (t : TrapInfo) : State :=
  s.defer sid { body := b, state := 1, cause := t.cause, aux := t.aux, addr := t.addr }

/-- Perform one late access of a strand: its destination is written, or an uncorrectable error is entered. -/
def State.performOne (s : State) (sid : Nat) (r : FixReq) (p : FixPlan) : State :=
  let s := s.modStrand sid (fun x => { x with lates := x.lates.filter (fun e => e.1.id ≠ r.id) })
  let dst := fixDst r.instr
  let old := match dst with | some ⟨.v, n⟩ => (s.strand sid).vr (BitVec.ofNat 5 n) | _ => Vector.replicate 64 0
  let (s, x) := s.fixDo sid r p old
  match x with
  | .error t => (s.deferTrap sid (.fix r) t).modStrand sid (fun x => match dst with | some d => x.setDue d 0 | none => x)
  | .ok (v, fl) => s.modStrand sid (fun x =>
    let x := match dst, v with | some d, some v => x.setReg d v r.due | _, _ => x
    if fl = 0 then x else { x with flagQ := x.flagQ ++ [(r.due, fl)] })
/-- Perform a strand's late accesses (05 R119), oldest first, but for those that must still wait. -/
def State.performLate (s : State) (sid : Nat) : State :=
  (s.strand sid).lates.foldl (fun (s : State) e => if s.lateHeld sid e then s else s.performOne sid e.1 e.2) s

/-! ## Killing a context (18 R388) -/

/-- Release the locks of a tile store. -/
def State.unlock (s : State) (id : Nat) : State := s.setMs (s.ms.unlock id)

/-- The bytes of a row that a CPYZ writes are those of empty segments: index 0 everywhere, scales 0x7F (13 R330). -/
def zeroRow (l : Lay) : List Byte :=
  let stamp := if l.fmt < 10 then 0 else l.ver
  let seg := leBytes 1 stamp ++ leBytes 1 l.fmt ++ zeros 2 ++ List.replicate 4 127 ++ zeros (l.S - 8)
  (List.range (l.segs - l.col0)).flatMap (fun _ => seg)
/-- Write one row of a band copy that writes memory; `i` is its number in the band. -/
def State.bandOut (s : State) (core : Nat) (e : CCmd) (i : Nat) (ps : List Part) : State × Option TrapInfo :=
  let l := Lay.of e.record
  let who := s.whoOf e.sid
  let bs := match e.instr with | .cpyz .. => zeroRow l | _ => s.spRd core (l.ring + i * l.stride) l.rowBytes
  let (s', x) := s.wrParts who e.scope false (l.rowSpan i).1 ps bs
  match x with
  | some t => (s', some t)
  | none => (ps.foldl (fun (s : State) p => s.setUsed who.core who.asid true p.leaf p.va) s', none)

/-- A started copy command finishes what it writes to memory (18 R388): a tile store commits, a band copy writes its other rows. -/
def State.finishCopy (s : State) (core : Nat) (st : Bool) (e : CCmd) : State :=
  if !e.store.isEmpty then (if e.keyless s.ms then s else s.commitTst core st e)
  else if !e.writesMem then s
  else (e.parts.foldl (fun (x : State × Nat) ps =>
    (((x.1.letCommit (ps.flatMap (fun p => (linesOf [p]).map (fun l => lockKey l (orderAt (x.1.accOf (x.1.whoOf e.sid) e.scope false p)))))
      (2 * x.1.cores.length)).bandOut core e x.2 ps).1, x.2 + 1)) (s, e.first)).1

/-- Step 1: no queue of the context is enabled. -/
def State.disableQueues (s : State) (asid : Nat) : State :=
  (List.range 64).foldl (fun s q =>
    let d := qParse (peekBytes s.ms 0 (s.qPa q) 64)
    if d.asid == asid && d.enabled then s.partWr (s.qPa q + 0x11) (leBytes 1 (d.flags / 2 * 2)) else s) s

/-- Steps 2 to 5 for one team: started copy commands finish, KILL frames are written for its resident strands, abort flits leave, its
accesses are released at package scope (03 R79), and its strands and cores are cleared. -/
def State.killTeam (s : State) (asid reason : Nat) (t : Team) : State :=
  let s := if t.place ≠ .resident then s
    else
      let s := t.cores.foldl (fun s c =>
        let s := match (s.core c).crLd with | some e => s.finishCopy c false e | none => s
        match (s.core c).crSt with | some e => s.finishCopy c true e | none => s) s
      let s := t.sids.foldl (fun s sid =>
        let x : Strand := { (s.strand sid).settleRegs with replay := [] }
        (s.supWr (coreOf sid) asid kCohWr (x.tframe &&& ~~~(63 : Word)).toNat
          (x.frameBytes { cause := cKILL, aux := BitVec.ofNat 64 reason } x.pc s.clock.ns)).1) s
      let s := t.cores.foldl (fun s c => s.setMs (releaseLines (flushStash s.ms c) c asid .package)) s
      let s := t.sids.foldl (fun s sid => s.setStrand sid {}) s
      t.cores.foldl (fun s c => s.modCore c (fun k => { clk := k.clk, gate := k.gate })) s
  let flits := t.colls.toList.zipIdx.filterMap (fun (c, i) =>
    if c.state == 1 then some (FabricMsg.abort asid c.group i c.ordinal 3) else none)
  { s with pkg := { s.pkg with fabricOut := s.pkg.fabricOut ++ flits } }

/-- A context is killed. -/
def State.kill (s : State) (asid reason : Nat) : State :=
  let s := s.disableQueues asid
  let mine : List (Nat × Team) := s.teams.filterMap (fun e => match e.2 with
    | some t => if ((s.launch t.launch).map (·.asid)) == some asid then some (e.1, t) else none
    | none => none)
  let s := mine.foldl (fun s (_, t) => s.killTeam asid reason t) s
  let ls : List (Nat × Launch) := s.launches.filterMap (fun e => match e.2 with
    | some l => if l.asid == asid then some (e.1, l) else none
    | none => none)
  let s := ls.foldl (fun s (id, l) => s.retireLaunch id l stKILLED) s
  let s := mine.foldl (fun s (id, _) => s.setTeam id none) s
  let s := { s with pkg := { s.pkg with
    swapUsed := s.pkg.swapUsed.filter (fun e => e.1 ≠ asid)
    aborts := s.pkg.aborts.filter (fun a => !(mine.any (fun e => e.1 == a.1))) } }
  let s := s.postErr 0x0006 asid 0 (BitVec.ofNat 64 reason) 0
  s.postMsg 0x8002 asid 1 (BitVec.ofNat 64 reason) 0

/-! ## A blocking result arrives -/

/-- Does RFT restore the register (18 R374)? -/
def Reg.inFrame (r : Reg) : Bool :=
  (r.file == .s && 1 ≤ r.num && r.num ≤ 15) || (r.file == .p && 1 ≤ r.num && r.num ≤ 3)

/-- Write a late result into the copy in a frame; a fault kills the context (18 R372). -/
def State.frameWrite (s : State) (sid : Nat) (f : Word) (r : Reg) (w : Word) : State :=
  let off := (if r.file == .s then 0x100 else 0x180) + 8 * r.num
  let (s, e) := s.supWr (coreOf sid) (s.asidOf sid) kCohWr ((f.toNat + off) % 2 ^ 64) (leBytes 8 w.toNat)
  match e with
  | none => s
  | some _ => s.kill (s.asidOf sid) 3

/-- Write the values of an operation to its registers, or to a frame's copies, and its flags to fpctl. -/
def State.deliver (s : State) (sid id : Nat) : State :=
  match (s.xs sid).ops.find? (fun o => o.id == id) with
  | none => s
  | some o =>
    let s := (s.dropOp sid id).modXs sid (fun x => { x with fpctl := x.fpctl ||| BitVec.ofNat 64 (o.flags.toNat * 16) })
    (o.dst.zip o.vals).foldl (fun s (r, v) =>
      match o.frame, v with
      | some f, .w w => if r.inFrame then s.frameWrite sid f r w else s.modXs sid (fun x => x.setReg r v 0)
      | _, _ => s.modXs sid (fun x => x.setReg r v 0)) s

/-! ## Taking a trap (18 R369-R374) -/

/-- The utrapmask bit of a cause (18 R368). -/
def userBit (cause : Nat) : Option Nat :=
  match cause with
  | 0x20 => some 0 | 0x04 => some 1 | 0x0C => some 2 | 0x07 => some 3 | 0x10 => some 4
  | 0x12 => some 5 | 0x13 => some 6 | 0x14 => some 7 | 0x18 => some 8 | 0x19 => some 9
  | _ => none

/-- Does the user handler take a trap with these causes (R371)? -/
def Strand.toUser (x : Strand) (causes : List Nat) : Bool :=
  !x.modeU && !x.modeS && x.utrapvec ≠ 0 &&
    causes.all (fun c => match userBit c with | some b => x.utrapmask.getLsbD b | none => false)

/-- The strand at its handler's entry, once its frame at `f` has been written. -/
def Strand.inHandler (x : Strand) (user : Bool) (f : Word) : Strand :=
  let vec := (if user then x.utrapvec else x.strapvec) &&& ~~~(63 : Word)
  { x with
    modeU := x.modeU || user, modeS := x.modeS || !user
    pc := vec, entry := some vec, quiet := true, blk := none, rep := none
    wait := none, barWait := none, mwait := none, until' := none, yieldTo := none, paused := false
    vSince := none, issued := true, replay := [], handlers := x.handlers + 1
    ops := x.ops.map (fun o => if o.frame.isNone && o.dst.any Reg.inFrame then { o with frame := some f } else o)
    frameIds := x.frameIds ++ [(f, x.replay.map (fun e => e.body.id))] }

/-- A strand whose in-flight accesses cannot complete yet takes its trap later: its core's clock stands still until they can (log 76). -/
def State.trapLater (s : State) (sid : Nat) : State :=
  (s.modCore (coreOf sid) (fun c => { c with frozen := some (c.frozen.getD { cause := 1, since := s.cycle }) })).modStrand sid
    (fun x => { x with wait := some .late, tried := true })

/-- A strand takes a trap: its in-flight accesses are performed, and the handler is entered with its frame written, or the context is
killed (R371, R372). -/
def State.trapIn (s : State) (sid : Nat) (t : TrapInfo) (pc : Word) : State :=
  if s.lateStuck sid then s.trapLater sid
  else
  let s := (s.performLate sid).sentEccu sid t.cause
  let s := s.modStrand sid Strand.settleRegs
  let x := s.strand sid
  let asid := s.asidOf sid
  let user := x.toUser (t.cause :: (x.replay.filter (fun e => e.state == 1)).map (·.cause))
  if x.modeS then s.kill asid 2
  else if !user && x.strapvec = 0 then s.kill asid 4
  else
    let f := (x.tframe &&& ~~~(63 : Word)) + (if user then 0x4000 else 0)
    let (s, e) := s.supWr (coreOf sid) asid kCohWr f.toNat (x.frameBytes t pc s.clock.ns)
    match e with
    | some _ => s.kill asid 3
    | none => s.modStrand sid (fun x => x.inHandler user f)

/-! ## The issue of a word (05 R111, R112, R116, R117; 02 R43, R61, R66) -/

/-- The whole-word guard. -/
def State.guardOn (s : State) (h : Hdr) : Bool := (s.pr h.g).getLsbD 0 != h.gn
/-- The lanes that a per-lane guard makes active. -/
def State.laneMask (s : State) (h : Hdr) : Word := if h.gn then ~~~s.pr h.g else s.pr h.g
/-- Is some lane active? -/
def State.lanesOn (s : State) (h : Hdr) : Bool := s.laneMask h ≠ 0

/-- What a word does once it has issued: it is done; it enters a block; it stays where its meaning has put the strand; it takes a
trap before any effect, or after it at the next word; or it waits. -/
inductive Eff where
  | done (s : State) | jump (s : State) (t : Word) | stay (s : State) | trap (s : State) (t : TrapInfo)
  | trapNext (s : State) (t : TrapInfo) | wait (s : State) (w : Wait)

/-- What a word uses: the registers it reads and writes when it has an effect, those it reads in every case, whether it has an
effect, whether it needs a vector pipe, and the PRIVOP aux of a supervisor-only word (18 R368). -/
structure Use where
  rd   : List Reg := []
  wr   : List Reg := []
  base : List Reg := []
  on   : State → Hdr → Bool := State.guardOn
  vec  : Bool := false
  priv : Option Nat := none

/-- The number of a register file (05 R117). -/
def RegFile.num : RegFile → Nat
  | .s => 0 | .p => 1 | .v => 2

/-- SCHED: the lowest register, by file and number, whose counter is not zero (05 R116, R117). -/
def Strand.sched (x : Strand) (now : Nat) (regs wr : List Reg) : Option TrapInfo :=
  let bad := regs.filter (fun r => x.left now r ≠ 0)
  match bad.foldl (fun b r => match b with
      | none => some r
      | some q => if r.file.num * 256 + r.num < q.file.num * 256 + q.num then some r else some q) (none : Option Reg) with
  | none => none
  | some r =>
    let aux := b2n (wr.contains r) * 2 ^ 24 + x.left now r * 2 ^ 16 + r.file.num * 256 + r.num
    some { cause := cSCHED, aux := BitVec.ofNat 64 aux }

/-- Has a strand a failed operation to trap on (18 R369)? -/
def Strand.failed (x : Strand) : Bool := x.replay.any (fun e => e.state == 1)

/-- Is every vector pipe taken, or due to a strand that has waited longer (05 R112)? The strands of a core take their turns in the order
ctl, ld, mx, st, so that of equal waits the lower kind has gone first. -/
def State.pipeLost (s : State) : Bool :=
  let own := s.st.vSince.getD s.cycle
  let ahead := (List.range 4).filter (fun k =>
    let y := s.strand (4 * s.cc + k)
    k ≠ kindOf s.cur && !y.issued && !y.failed && (match y.vSince with | some t => decide (t < own) | none => false))
  2 ≤ s.co.vUsed + ahead.length

/-- The current strand waits: it has nothing more to do in this cycle. -/
def State.waits (s : State) (w : Wait) : State :=
  s.modSt (fun x => { x with wait := some w, tried := true, paused := x.paused && w == .fill })

/-- The outcome of a word's effect. -/
def Eff.run : Eff → Host.Outcome State Fault Refusal
  | .done s => out (s.modSt (fun x => { x.advance.didIssue with barWait := none, mwait := none }))
  | .jump s t => out (s.modSt (fun x => { (x.enter t).didIssue with barWait := none, mwait := none }))
  | .stay s => out (s.modSt Strand.didIssue)
  | .trap s t => out (s.trapIn s.cur t s.st.pc)
  | .trapNext s t => out (s.trapIn s.cur t (nextPc s.st.pc))
  | .wait s w => out (s.waits w)

/-- The registers a word is held to. -/
def Use.regs (u : Use) (s : State) (h : Hdr) : List Reg :=
  rP h.g :: u.base ++ (if u.on s h then u.rd ++ u.wr else [])

/-- The effect of a word that the current strand presents. -/
def issueEff (h : Hdr) (u : Use) (body : State → Eff) (s : State) : Eff :=
  let x := s.st
  let on := u.on s h
  let regs := u.regs s h
  if regs.any x.awaits then .wait s .result
  else if u.vec && s.pipeLost then .wait (s.modSt (fun x => { x with vSince := some (x.vSince.getD s.cycle) })) .vpipe
  else match x.sched s.now regs (if on then u.wr else []) with
  | some t => .trap s t
  | none =>
    let s := if u.vec then s.modCore s.cc (fun c => { c with vUsed := c.vUsed + 1 }) else s
    if !on then .done s
    else match u.priv with
      | some aux => if x.modeS then body s else .trap s { cause := cPRIVOP, aux := BitVec.ofNat 64 aux }
      | none => body s

/-- The issue of a word. -/
def issue (h : Hdr) (u : Use) (body : State → Eff) (s : State) : Host.Outcome State Fault Refusal := (issueEff h u body s).run

/-- ILLENC found at issue (02 R65, R66). -/
def illencAt (s : State) (reason : Nat) : TrapInfo :=
  { cause := cILLENC, aux := BitVec.ofNat 64 (slotOf s.st.pc * 256 + reason) }

end Machine
end Sys2Proof
end

