-- ==== Sys2Proof/Machine/Fetch.lean ====
section
/-! DEFINITION. Fetch blocks: the check of a filled block (02 R62-R65), the instruction cache (05 R102-R104), entering and
skipping blocks with the beat and tightrope rules (05 R105-R110), and the words of a REP (02 R58). -/

namespace Sys2Proof
namespace Machine

/-! ## The check of a block (02 R63) -/

/-- The kinds of strand that a role code reaches. -/
def roleKinds (r : Nat) : List Nat := if r < 16 then [r % 4] else if r < 20 then [r - 16] else [0, 1, 2, 3]

/-- Does an opcode allow a kind (02 R60)? -/
def kindOk (opc k : Nat) : Bool :=
  if 0xC0 ≤ opc && opc ≤ 0xD3 then k == 2
  else if opc == 0x94 || opc == 0x95 || opc == 0x96 || opc == 0x97 || opc == 0x98 || opc == 0x9A || opc == 0x9B then k == 1 || k == 3
  else if opc == 0x1F || opc == 0xD5 || opc == 0xD6 then k == 0
  else true

/-- The format letter of an assigned opcode (02 R59), `x` for every other. -/
def fmtOf (opc : Nat) : Char :=
  if !assigned opc then 'x'
  else if opc ≤ 0x1F then
    if opc == 0x02 || opc == 0x03 || opc == 0x04 || opc == 0x07 then 'B'
    else if opc == 0x09 || opc == 0x0A then 'H'
    else if opc == 0x0D || opc == 0x1E then 'M'
    else if opc == 0x1F then 'X'
    else if opc == 0x0B || opc == 0x0C || opc == 0x0E || (0x12 ≤ opc && opc ≤ 0x17) then 'I'
    else 'R'
  else if 0x40 ≤ opc && opc ≤ 0x4E then 'I'
  else if (0x80 ≤ opc && opc ≤ 0x86) || (0x89 ≤ opc && opc ≤ 0x93) then 'M'
  else if opc == 0x94 || opc == 0x95 || opc == 0x96 || opc == 0x9A || opc == 0x9B || opc == 0xE0 then 'X'
  else if 0xC0 ≤ opc && opc ≤ 0xD2 then 'T'
  else if 0xD3 ≤ opc && opc ≤ 0xD6 || opc == 0xD9 || opc == 0xDA || opc == 0xEA || opc == 0xEB then 'I'
  else if 0xE3 ≤ opc && opc ≤ 0xE6 then 'M'
  else 'R'

/-- Has the REP word of a slot a legal target (02 R57)? -/
def Block.repOk (b : Block) (slot : Nat) : Bool :=
  match b.repTarget slot with
  | none => false
  | some j =>
    let opc := (fOpc (b.word j)).toNat
    let w := b.word slot
    let ib := bits w 11 3
    let ic := bits w 8 3
    0x20 ≤ opc && (match fmtOf opc with
      | 'R' => true | 'I' => ib == 0 && ic == 0 | 'M' => ic == 0 | _ => false)

/-- The check of a header: its first failure. -/
def headerBad (h : Word) : Option Byte :=
  if slc h 62 52 ≠ 0 then some 3 else if slc h 30 23 ≠ 0 || slc h 15 0 ≠ 0 then some 1 else none

/-- Is a role code in a header's rmask? -/
def inRmask (h : Word) (r : Nat) : Bool := h.getLsbD (32 + r)

/-- The check of one valid slot: (ILLOP, reason). -/
def Block.slotBad (b : Block) (i : Nat) : Option (Bool × Byte) :=
  let w := b.word i
  let role := (fRole w).toNat
  if !(fHdr w).wf then some (false, 3)
  else if !inRmask b.header role then some (false, 2)
  else match decodeWord w with
    | .error (.illop o) => some (true, o)
    | .error (.illenc r) => some (false, r)
    | .ok ins =>
      let opc := (fOpc w).toNat
      let tgt? : Option Nat := match ins with | .hand _ _ tgt _ => some tgt.toNat | _ => none
      if (match tgt? with | some t => !inRmask b.header t | none => false) then some (false, 2)
      else if (match ins with | .rep .. => !b.repOk i | _ => false) then some (false, 5)
      else if !(roleKinds role ++ (match tgt? with | some t => [t % 4] | none => [])).all (kindOk opc) then some (false, 6)
      else none

/-- The first failure of a block. -/
def Block.check (b : Block) : Option BadBlock :=
  match headerBad b.header with
  | some r => some { slot := none, illop := false, reason := r }
  | none =>
    (List.range 7).findSome? (fun i =>
      if b.valid i then (b.slotBad i).map (fun e => { slot := some i, illop := e.1, reason := e.2 }) else none)

/-- A block from its 64 bytes, checked. -/
def mkBlock (bs : List Byte) : Block :=
  let w (i : Nat) : Word := BitVec.ofNat 64 (field bs (8 * i) 8)
  let b : Block := { header := w 0, words := ⟨⟨(List.range 7).map (fun i => w (i + 1))⟩, by simp⟩, bad := none }
  { b with bad := b.check }

/-- The trap of a malformed block (02 R64, R65). -/
def BadBlock.trap (b : BadBlock) : TrapInfo :=
  { cause := if b.illop then cILLOP else cILLENC, aux := BitVec.ofNat 64 ((b.slot.getD 255) * 256 + b.reason.toNat) }

/-! ## The instruction cache (05 R102, R103) -/

def icKey (cluster pa : Nat) : Nat := cluster * 2 ^ 42 + pa / 64
def emptyBlock : Block := { header := 0, words := Vector.replicate 7 0, bad := none }
/-- A cached block of a cluster. -/
def State.icGet (s : State) (cluster pa : Nat) : Option Block := (s.ms.icache.find? (fun e => e.1 == icKey cluster pa)).map (·.2)

/-- Note that a cached block has been used. -/
def icTouch (ms : MemSys) (k : Nat) : MemSys :=
  { ms with useClock := ms.useClock + 1, icUse := Sparse.set ms.icUse 0 k (ms.useClock + 1) }
/-- A block leaves a cluster's instruction cache. -/
def icEvict (ms : MemSys) (k : Nat) : MemSys :=
  { ms with icache := ms.icache.filter (fun e => e.1 ≠ k), icUse := Sparse.set ms.icUse 0 k 0 }
/-- Room for a block: where the 16 ways of its set are taken (R102; the sets are free, log 71), the block used least recently leaves. -/
def icRoom (ms : MemSys) (k : Nat) : MemSys :=
  let mine := ms.icache.filter (fun e => e.1 / 2 ^ 42 == k / 2 ^ 42 && e.1 ≠ k)
  if mine.length < 16 then ms
  else
    let peers := mine.filter (fun e => Config.cacheSet 4 (e.1 % 2 ^ 42) == Config.cacheSet 4 (k % 2 ^ 42))
    if peers.length < 16 then ms
    else match (peers.map (·.1)).foldl (fun (b : Option Nat) i => match b with
        | none => some i
        | some j => if Sparse.get ms.icUse 0 i < Sparse.get ms.icUse 0 j then some i else b) none with
      | some v => icEvict ms v
      | none => ms

/-- A miss asks for a fill under the page's key, or joins the one on its way. -/
def State.askFill (s : State) (cluster pa key asid va : Nat) : State :=
  if s.ms.fills.any (fun e => e.at' == icKey cluster pa) then s
  else s.setMs { s.ms with fills := s.ms.fills ++ [{ at' := icKey cluster pa, key := key, asid := asid, va := va }] }

/-- The strands of a cluster that wait for a fill of a block. -/
def State.fillWaiters (s : State) (cluster pa : Nat) : List (Nat × Word) :=
  ((List.range 16).map (16 * cluster + ·)).filterMap (fun sid =>
    let x := s.strand sid
    match x.wait, x.entry with
    | some .fill, some va => match (s.findLeaf (coreOf sid) (s.asidOf sid) (blkOf va).toNat).2 with
      | .ok l => if leafPa l.pte l.block (blkOf va).toNat / 64 == pa / 64 then some (sid, va) else none
      | .error _ => none
    | _, _ => none)

/-- A fill arrives, once no tile store has its line locked (17 R344): the block is read whole, checked, and kept. An uncorrectable error
traps ECCU in the strands that wait for it (22 R417; log 27); the key of its page may have been destroyed meanwhile, which is PROT for them
(11 R256). -/
def State.doFill (s : State) (cluster pa : Nat) : State :=
  let k := icKey cluster pa
  match s.ms.fills.find? (fun e => e.at' == k) with
  | none => s
  | some f =>
    if Sparse.get s.ms.locks 0 (lockKey (pa / 64) hL2) ≠ 0 then s
    else
    let s := s.setMs { s.ms with fills := s.ms.fills.filter (fun e => e.at' ≠ k) }
    let fail (s : State) (t : Word → TrapInfo) : State :=
      (s.fillWaiters cluster pa).foldl (fun (s : State) (sid, va) => s.trapIn sid (t (blkOf va)) va) s
    if keyGenOf s.ms f.key == 0 then
      fail s (fun b => { cause := cPROT, aux := AKind.aux { fetch := true } 4, addr := b })
    else
      let (bs, ms, e) := readPa s.ms { partAcc with core := 4 * cluster, key := f.key } (pa / 64 * 64) 64
      match e with
      | some (h, _) => fail (s.setMs ms) (fun b => eccu h b.toNat)
      | none =>
        let ms := icRoom ms k
        s.setMs (icTouch { ms with icache := Sparse.insert (ms.icache.filter (fun e => e.1 ≠ k)) k (mkBlock bs) } k)

/-! ## Which words are a strand's (02 R42; 05 R106) -/

/-- Does a strand of this role match a word? -/
def matchesRole (w : Word) (role : Nat) : Bool :=
  let r := (fRole w).toNat
  r == role || (16 ≤ r && r < 20 && r - 16 == role % 4) || r == 31 || (fOpc w == 0x09 && (fTo w).toNat == role)

/-- The first slot from `slot` on that is bad or holds a word of the strand. -/
def Block.nextSlot (b : Block) (role slot : Nat) : Option Nat :=
  (List.range 7).find? (fun i => slot ≤ i &&
    ((match b.bad with | some e => e.slot == some i | none => false) || (b.valid i && matchesRole (b.word i) role)))

/-- Is a slot the block's first bad word? -/
def Block.badAt (b : Block) (slot : Nat) : Bool := match b.bad with | some e => e.slot == some slot | none => false

/-- Does the block hold work for the strand at or after a slot? A malformed block does: its check counts for every strand. -/
def Block.holdsWork (b : Block) (role slot : Nat) : Bool :=
  b.bad.isSome ||
  ((inRmask b.header role || inRmask b.header (16 + role % 4) || inRmask b.header 31) && (b.nextSlot role slot).isSome)

/-! ## Beats and the tightrope (05 R108-R110) -/

/-- The signed difference of two beat counts. -/
def beatDiff (a b : BitVec 32) : Int := sval 32 (a - b).toNat

/-- The lead of a strand: the greatest difference to a live strand's count at the end of the last cycle.
A strand that halts in this cycle still counts (05 R109). -/
def State.lead (s : State) (sid : Nat) : Nat :=
  let b := (s.strand sid).beat
  match s.teamOf sid with
  | none => 0
  | some t => ((t.sids.filter (fun j => (s.strand j).life = .live || ((s.strand j).life = .halted && (s.strand j).issued))).map (fun j => (beatDiff b (s.strand j).beatPrev).toNat)).foldl max 0

/-- May the strand enter a beat block? -/
def State.ropeOk (s : State) (sid : Nat) : Bool :=
  match s.launchOf sid with
  | none => true
  | some l => s.lead sid + 1 ≤ l.drift

/-! ## Entering a block (05 R104-R106, 02 R64) -/

/-- The kind of access that a fetch is. -/
def kFetch : AKind := { fetch := true, cohOnly := true }

/-- The entry slot that an address names. -/
def entrySlot (va : Word) : Nat := slc va 5 3 - 1

/-- The strand with a block captured, standing at its entry slot. -/
def Strand.capture (x : Strand) (va : Word) (b : Block) : Strand :=
  { x with blk := some (blkOf va, b), entry := none, quiet := false, wait := none
           pc := if slc va 5 3 == 0 then blkOf va + 8 else va }

/-- The beat rules, and then the block's words, or the next block when it holds no work. -/
def State.passHeader (s : State) (va : Word) (b : Block) (work : Bool) : State :=
  let x := s.st
  let beat := b.header.getLsbD 31 && !x.quiet && x.handlers == 0
  if beat && !s.ropeOk s.cur then s.waits .tight
  else s.modSt (fun x =>
    let x := if beat then { x with beat := x.beat + 1 } else x
    let x := x.capture va b
    if work then x else { x.enter (blkOf va + 72) with skips := x.skips + 1 })

/-- The current strand enters, or goes on in, the block at `va`. -/
def State.enterBlock (s : State) (va : Word) : State :=
  let sid := s.cur
  let x := s.st
  let base := blkOf va
  let (s, r) := s.checkPage (s.whoOf sid) kFetch base.toNat 64
  match r with
  | .error t => s.trapIn sid t va
  | .ok p =>
    let s := s.commitPage (s.whoOf sid) kFetch p
    match s.icGet (clusterOf s.cc) p.pa with
    | none => (s.askFill (clusterOf s.cc) p.pa (slc p.leaf.pte 15 10) (s.asidOf sid) base.toNat).waits .fill
    | some b =>
      let s := s.setMs (icTouch s.ms (icKey (clusterOf s.cc) p.pa))
      let slot := entrySlot va
      let work := b.holdsWork x.role.toNat slot
      if 0 < x.skips && (work || 4 ≤ x.skips) then s.modSt (fun x => { x with tried := true })
      else match b.bad with
      | some ⟨none, _, _⟩ => s.trapIn sid (b.bad.getD ⟨none, false, 0⟩).trap base
      | some e =>
        if e.slot.getD 0 < slot then s.trapIn sid e.trap (base + BitVec.ofNat 64 (8 + 8 * e.slot.getD 0))
        else s.passHeader va b work
      | none => s.passHeader va b work

/-- The block in which the strand stands has no more words of it: a bad word traps, or the next block is entered. -/
def State.leaveBlock (s : State) : State :=
  match s.st.blk with
  | none => s.modSt (fun x => { x with entry := some x.pc, quiet := true })
  | some (base, b) =>
    match b.nextSlot s.st.role.toNat (slotOf s.st.pc), b.bad with
    | some i, some e =>
      if b.badAt i then s.trapIn s.cur e.trap (base + BitVec.ofNat 64 (8 + 8 * i)) else s
    | some _, none => s
    | none, _ => s.modSt (fun x => x.enter (base + 72))

/-! ## REP (02 R58) -/

/-- A word with a 6-bit field at bit `lo` replaced. -/
def setField (w : Word) (lo : Nat) (v : Nat) : Word :=
  (w &&& ~~~(BitVec.ofNat 64 (63 * 2 ^ lo))) ||| BitVec.ofNat 64 (v % 64 * 2 ^ lo)

/-- Is a word a well-formed instruction? -/
def decodes (w : Word) : Bool := match decodeWord w with | .ok _ => true | .error _ => false

/-- Does a field of a word name a vector register: are 2 and 18 numbers of its file, and 34 not? -/
def namesVector (w : Word) (lo : Nat) : Bool :=
  decodes (setField w lo 2) && decodes (setField w lo 18) && !decodes (setField w lo 34)
/-- A field plus k times an increment: modulo 32 where it names a vector register, else modulo 64. -/
def stepField (w : Word) (lo inc k : Nat) : Word :=
  let m := if namesVector w lo then 32 else 64
  let v : Int := (slc w (lo + 5) lo : Int) + (k : Int) * sval 3 inc
  setField w lo (v % (m : Int)).toNat

/-- Repetition k of a REP's target. -/
def stepWord (rep w : Word) (k : Nat) : Word :=
  let w1 := stepField w 38 (slc rep 19 17) k
  let w2 := stepField w1 32 (slc rep 16 14) k
  if fmtOf (fOpc w).toNat == 'I' then w2
  else
    let w3 := stepField w2 26 (slc rep 13 11) k
    if fmtOf (fOpc w).toNat == 'M' then w3 else stepField w3 20 (slc rep 10 8) k

/-! ## The strand's next word -/

/-- What the current strand presents: nothing yet (its block must be entered or left), or a word. -/
inductive Present where
  | block | word (slot : Nat) (w : Word)
  deriving DecidableEq, Repr

/-- The word at the strand's place, with its REP applied. -/
def State.present (s : State) : Present :=
  let x := s.st
  match x.entry, x.blk with
  | some _, _ => .block
  | none, none => .block
  | none, some (base, b) =>
    match b.nextSlot x.role.toNat (slotOf x.pc) with
    | none => .block
    | some i =>
      if b.badAt i then .block
      else
        let x := { x with pc := base + BitVec.ofNat 64 (8 + 8 * i) }
        match x.repHere with
        | some (r, rw) => .word i (stepWord rw (b.word i) r.k)
        | none => .word i (b.word i)

/-- The strand's place at the slot of its word. -/
def State.atSlot (s : State) (i : Nat) : State :=
  s.modSt (fun x => match x.blk with
    | some (base, _) => { x with pc := base + BitVec.ofNat 64 (8 + 8 * i) }
    | none => x)

end Machine
end Sys2Proof
end

