-- ==== Sys2Proof/Machine/Operands.lean ====
section
/-! DEFINITION. The operand forms of instruction words: immediates, the destination of a compare, vector operands, the address of a
memory word, the record of eight registers, and the slice of a tile word (02 R46-R53). -/

namespace Sys2Proof
namespace Machine

/-- A signed immediate as a word. -/
def simm {n : Nat} (x : BitVec n) : Word := x.signExtend 64

/-- The register that a compare writes. -/
def CmpDst.reg : CmpDst → Reg
  | .p d => rP d | .s d => rS d
/-- Write the result of a compare: all 64 bits of a predicate, or 1 or 0 in a scalar (06 R143). -/
def State.wrCmp (s : State) (d : CmpDst) (t : Bool) (lat : Nat) : State :=
  match d with
  | .p d => s.wrP d (allOnes t) lat
  | .s d => s.wrS d (if t then 1 else 0) lat

/-- The register that a vector word's b operand reads, and its lanes (08 R185). -/
def VOpB.reg : VOpB → Reg
  | .v b => rV b | .s b => rS b
def State.vopB (s : State) (b : VOpB) : Vec :=
  match b with
  | .v b => s.vr b
  | .s b => Vector.replicate 64 (BitVec.setWidth 32 (s.sr b))

/-- The effective address of a memory word with a base, an index and a signed offset (12 R279). -/
def State.ea (s : State) (a b : SReg) {n : Nat} (off : BitVec n) : Word := s.sr a + s.sr b + simm off
/-- The effective address without an index. -/
def State.ea0 (s : State) (a : SReg) {n : Nat} (off : BitVec n) : Word := s.sr a + simm off

/-- The eight registers that a record operand names, and the record in them (02 R52). -/
def recRegs (x : BitVec 3) : List Reg := (List.range 8).map (fun i => ⟨.s, 8 * x.toNat + i⟩)
def State.record (s : State) (x : BitVec 3) : Vector Word 8 := words8 (fun i => s.srN (8 * x.toNat + i))

/-- The pair of scalar registers from an even number. -/
def pairRegs (r : SReg) : List Reg := [rS r, ⟨.s, r.toNat + 1⟩]

/-- The register that a slice reads for its row or column (02 R51). -/
def Slice.regs : Slice → List Reg
  | .whole => [] | .row xs _ | .col xs _ => [rS xs]
/-- The row or column that a slice names: (s[xs] + ximm) modulo 128. -/
def State.sliceIdx (s : State) (sl : Slice) : Nat :=
  match sl with
  | .whole => 0
  | .row xs xi | .col xs xi => ((s.sr xs).toNat + xi.toNat) % 128

end Machine
end Sys2Proof
end

