-- ==== Sys2Proof/Machine/Flags.lean ====
section
/-! DEFINITION. Conditions and flags: the conditions of CMP (06 R143), and how an operation's floating-point flags reach fpctl
(05 R133). -/

namespace Sys2Proof
namespace Machine

/-- The condition of CMP, CMPI and the integer VCMP on two values of any width (06 R143). -/
def condOf {n : Nat} (cc : Cc) (x y : BitVec n) : Bool :=
  match cc with
  | .eq => x == y | .ne => x != y
  | .lt => x.slt y | .ge => !x.slt y | .ltu => x.ult y | .geu => !x.ult y
  | .gt => y.slt x | .le => !y.slt x | .gtu => y.ult x | .leu => !y.ult x
  | .tst => x &&& y != 0 | .ntst => x &&& y == 0

/-- A scalar result with its flags, both at the operation's latency. -/
def State.wrSF (s : State) (d : SReg) (w : Word) (fl : Flags) (lat : Nat) : State := (s.wrS d w lat).addFlags fl lat
/-- A vector result with the flags of its active lanes. -/
def State.wrVF (s : State) (d : VReg) (v : Vec) (mask : Word) (fl : Flags) (lat : Nat) : State :=
  (s.wrV d v mask lat).addFlags fl lat

end Machine
end Sys2Proof
end

