-- ==== Sys2Proof/Machine/Int.lean ====
section
/-! DEFINITION. Scalar integer instructions (06 R135-R147). -/

namespace Sys2Proof
namespace Machine

/-- The meaning of a row: from a state to an outcome. -/
abbrev Meaning := State → Host.Outcome State Fault Refusal

/-! ## The functions of R139-R142 -/

/-- Sign-extend bits 31:0. -/
def sx32 (x : Word) : Word := (x.setWidth 32).signExtend 64
/-- The high half of the exact signed product. -/
def mulhS (x y : Word) : Word := BitVec.ofInt 64 ((x.toInt * y.toInt) / 2 ^ 64)
/-- The high half of the exact unsigned product. -/
def mulhU (x y : Word) : Word := BitVec.ofNat 64 (x.toNat * y.toNat / 2 ^ 64)
/-- Division (R140): by zero all ones; the most negative number by -1 wraps to itself. -/
def divS (x y : Word) : Word := if y = 0 then BitVec.allOnes 64 else BitVec.ofInt 64 (x.toInt.tdiv y.toInt)
def divU (x y : Word) : Word := if y = 0 then BitVec.allOnes 64 else BitVec.ofNat 64 (x.toNat / y.toNat)
def remS (x y : Word) : Word := if y = 0 then x else BitVec.ofInt 64 (x.toInt.tmod y.toInt)
def remU (x y : Word) : Word := if y = 0 then x else BitVec.ofNat 64 (x.toNat % y.toNat)
/-- Shifts by any amount (R141). -/
def shlW (x : Word) (n : Nat) : Word := if 64 ≤ n then 0 else x <<< n
def shrW (x : Word) (n : Nat) : Word := if 64 ≤ n then 0 else x >>> n
def sarW (x : Word) (n : Nat) : Word := x.sshiftRight (min n 63)
def rolW (x : Word) (n : Nat) : Word := x.rotateLeft (n % 64)
/-- Counts of bits. -/
def clzW (x : Word) : Word := BitVec.ofNat 64 (if x = 0 then 64 else 63 - Nat.log2 x.toNat)
def ctzW (x : Word) : Word := BitVec.ofNat 64 (((List.range 64).find? (fun i => x.getLsbD i)).getD 64)
def popW (x : Word) : Word := BitVec.ofNat 64 ((List.range 64).filter (fun i => x.getLsbD i)).length
/-- The bytes of a word in reverse order. -/
def bswapW (x : Word) : Word := leWord (leBytes 8 x.toNat).reverse
/-- The bits lsb+w-1 : lsb of a word. -/
def fieldW (x : Word) (lsb w : Nat) : Nat := (x.toNat >>> lsb) % 2 ^ w
/-- A word with those bits replaced by the low bits of another. -/
def insertW (x y : Word) (lsb w : Nat) : Word :=
  BitVec.ofNat 64 (x.toNat - fieldW x lsb w * 2 ^ lsb + y.toNat % 2 ^ w * 2 ^ lsb)

/-! ## The shapes -/

/-- s[d] := f(s[a], s[b]) at a latency. -/
def alu3 (h : Hdr) (d a b : SReg) (lat : Nat) (f : Word → Word → Word) : Meaning :=
  issue h { rd := [rS a, rS b], wr := [rS d] } (fun s => .done (s.wrS d (f (s.sr a) (s.sr b)) lat))
/-- s[d] := f(s[a]). -/
def alu2 (h : Hdr) (d a : SReg) (lat : Nat) (f : Word → Word) : Meaning :=
  issue h { rd := [rS a], wr := [rS d] } (fun s => .done (s.wrS d (f (s.sr a)) lat))
/-- s[d] := f(s[a], SXimm). -/
def aluI (h : Hdr) (d a : SReg) (imm : BitVec 32) (lat : Nat) (f : Word → Word → Word) : Meaning :=
  alu2 h d a lat (fun x => f x (simm imm))

/-! ## Class 1 (R138-R144) -/

def execAdd (h : Hdr) (d a b : SReg) : Meaning := alu3 h d a b 1 (fun x y => x + y)
def execSub (h : Hdr) (d a b : SReg) : Meaning := alu3 h d a b 1 (fun x y => x - y)
def execMul (h : Hdr) (d a b : SReg) : Meaning := alu3 h d a b 3 (fun x y => x * y)
def execMulh (h : Hdr) (d a b : SReg) : Meaning := alu3 h d a b 3 (fun x y => mulhS x y)
def execMulhu (h : Hdr) (d a b : SReg) : Meaning := alu3 h d a b 3 (fun x y => mulhU x y)
def execDiv (h : Hdr) (d a b : SReg) : Meaning := alu3 h d a b 24 (fun x y => divS x y)
def execDivu (h : Hdr) (d a b : SReg) : Meaning := alu3 h d a b 24 (fun x y => divU x y)
def execRem (h : Hdr) (d a b : SReg) : Meaning := alu3 h d a b 24 (fun x y => remS x y)
def execRemu (h : Hdr) (d a b : SReg) : Meaning := alu3 h d a b 24 (fun x y => remU x y)
def execAnd (h : Hdr) (d a b : SReg) : Meaning := alu3 h d a b 1 (fun x y => x &&& y)
def execOr (h : Hdr) (d a b : SReg) : Meaning := alu3 h d a b 1 (fun x y => x ||| y)
def execXor (h : Hdr) (d a b : SReg) : Meaning := alu3 h d a b 1 (fun x y => x ^^^ y)
def execAndn (h : Hdr) (d a b : SReg) : Meaning := alu3 h d a b 1 (fun x y => x &&& ~~~y)
def execShl (h : Hdr) (d a b : SReg) : Meaning := alu3 h d a b 1 (fun x y => shlW x y.toNat)
def execShr (h : Hdr) (d a b : SReg) : Meaning := alu3 h d a b 1 (fun x y => shrW x y.toNat)
def execSar (h : Hdr) (d a b : SReg) : Meaning := alu3 h d a b 1 (fun x y => sarW x y.toNat)
def execRol (h : Hdr) (d a b : SReg) : Meaning := alu3 h d a b 1 (fun x y => rolW x y.toNat)
def execMin (h : Hdr) (d a b : SReg) : Meaning := alu3 h d a b 1 (fun x y => if x.sle y then x else y)
def execMax (h : Hdr) (d a b : SReg) : Meaning := alu3 h d a b 1 (fun x y => if y.sle x then x else y)
def execMinu (h : Hdr) (d a b : SReg) : Meaning := alu3 h d a b 1 (fun x y => if x.ule y then x else y)
def execMaxu (h : Hdr) (d a b : SReg) : Meaning := alu3 h d a b 1 (fun x y => if y.ule x then x else y)
def execClz (h : Hdr) (d a : SReg) : Meaning := alu2 h d a 1 (fun x => clzW x)
def execCtz (h : Hdr) (d a : SReg) : Meaning := alu2 h d a 1 (fun x => ctzW x)
def execPopc (h : Hdr) (d a : SReg) : Meaning := alu2 h d a 1 (fun x => popW x)
/-- R142. -/
def execBfx (h : Hdr) (d a : SReg) (sx : Bool) (wid lsb : BitVec 6) : Meaning :=
  let w := wid.toNat + 1
  alu2 h d a 1 (fun x => if sx then sext w (fieldW x lsb.toNat w) else BitVec.ofNat 64 (fieldW x lsb.toNat w))
def execBfi (h : Hdr) (d a b : SReg) (wid lsb : BitVec 6) : Meaning :=
  alu3 h d a b 1 (fun x y => insertW x y lsb.toNat (wid.toNat + 1))
/-- R144. -/
def execSel (h : Hdr) (d a b : SReg) (c : PReg) : Meaning :=
  issue h { rd := [rS a, rS b, rP c], wr := [rS d] }
    (fun s => .done (s.wrS d (if (s.pr c).getLsbD 0 then s.sr a else s.sr b) 1))
/-- R143. -/
def execCmp (h : Hdr) (d : CmpDst) (a b : SReg) (cc : Cc) : Meaning :=
  issue h { rd := [rS a, rS b], wr := [CmpDst.reg d] } (fun s => .done (s.wrCmp d (condOf cc (s.sr a) (s.sr b)) 1))
def execAddw (h : Hdr) (d a b : SReg) : Meaning := alu3 h d a b 1 (fun x y => sx32 (x + y))
def execSubw (h : Hdr) (d a b : SReg) : Meaning := alu3 h d a b 1 (fun x y => sx32 (x - y))
def execMulw (h : Hdr) (d a b : SReg) : Meaning := alu3 h d a b 3 (fun x y => sx32 (x * y))
def execBswap (h : Hdr) (d a : SReg) : Meaning := alu2 h d a 1 (fun x => bswapW x)

/-! ## Class 2, immediate forms (R145-R147) -/

def execAddi (h : Hdr) (d a : SReg) (imm : BitVec 32) : Meaning := aluI h d a imm 1 (fun x y => x + y)
def execAndi (h : Hdr) (d a : SReg) (imm : BitVec 32) : Meaning := aluI h d a imm 1 (fun x y => x &&& y)
def execOri (h : Hdr) (d a : SReg) (imm : BitVec 32) : Meaning := aluI h d a imm 1 (fun x y => x ||| y)
def execXori (h : Hdr) (d a : SReg) (imm : BitVec 32) : Meaning := aluI h d a imm 1 (fun x y => x ^^^ y)
def execShli (h : Hdr) (d a : SReg) (n : BitVec 6) : Meaning := alu2 h d a 1 (fun x => shlW x n.toNat)
def execShri (h : Hdr) (d a : SReg) (n : BitVec 6) : Meaning := alu2 h d a 1 (fun x => shrW x n.toNat)
def execSari (h : Hdr) (d a : SReg) (n : BitVec 6) : Meaning := alu2 h d a 1 (fun x => sarW x n.toNat)
def execRoli (h : Hdr) (d a : SReg) (n : BitVec 6) : Meaning := alu2 h d a 1 (fun x => rolW x n.toNat)
def execMovi (h : Hdr) (d : SReg) (imm : BitVec 32) : Meaning :=
  issue h { wr := [rS d] } (fun s => .done (s.wrS d (simm imm) 1))
def execMovhi (h : Hdr) (d a : SReg) (imm : BitVec 32) : Meaning :=
  alu2 h d a 1 (fun x => imm ++ x.setWidth 32)
def execCmpi (h : Hdr) (d : CmpDst) (a : SReg) (cc : Cc) (val : BitVec 27) : Meaning :=
  issue h { rd := [rS a], wr := [CmpDst.reg d] } (fun s => .done (s.wrCmp d (condOf cc (s.sr a) (simm val)) 1))
def execMuli (h : Hdr) (d a : SReg) (imm : BitVec 32) : Meaning := aluI h d a imm 3 (fun x y => x * y)
def execMini (h : Hdr) (d a : SReg) (imm : BitVec 32) : Meaning := aluI h d a imm 1 (fun x y => if x.sle y then x else y)
def execMaxi (h : Hdr) (d a : SReg) (imm : BitVec 32) : Meaning := aluI h d a imm 1 (fun x y => if y.sle x then x else y)
def execAddpc (h : Hdr) (d : SReg) (imm : BitVec 32) : Meaning :=
  issue h { wr := [rS d] } (fun s => .done (s.wrS d (blkOf s.st.pc + simm imm) 1))

end Machine
end Sys2Proof
end

