-- ==== Sys2Proof/Machine/Pred.lean ====
section
/-! DEFINITION. Predicate instructions (06 R148, R149). -/

namespace Sys2Proof
namespace Machine

/-- p[d] := f(p[a], p[b]) at latency 1. -/
def pred3 (h : Hdr) (d a b : PReg) (f : Word → Word → Word) : Meaning :=
  issue h { rd := [rP a, rP b], wr := [rP d] } (fun s => .done (s.wrP d (f (s.pr a) (s.pr b)) 1))

/-- The word whose bit i is f(i). -/
def maskOf (f : Nat → Bool) : Word := BitVec.ofNat 64 ((List.range 64).foldl (fun n i => if f i then n + 2 ^ i else n) 0)

def execPset (h : Hdr) (d : PReg) (n : BitVec 7) : Meaning :=
  issue h { wr := [rP d] } (fun s => .done (s.wrP d (maskOf (fun i => i < n.toNat)) 1))
def execPand (h : Hdr) (d a b : PReg) : Meaning := pred3 h d a b (fun x y => x &&& y)
def execPor (h : Hdr) (d a b : PReg) : Meaning := pred3 h d a b (fun x y => x ||| y)
def execPxor (h : Hdr) (d a b : PReg) : Meaning := pred3 h d a b (fun x y => x ^^^ y)
def execPandn (h : Hdr) (d a b : PReg) : Meaning := pred3 h d a b (fun x y => x &&& ~~~y)
def execPfrom (h : Hdr) (d : PReg) (a : SReg) : Meaning :=
  issue h { rd := [rS a], wr := [rP d] } (fun s => .done (s.wrP d (s.sr a) 1))
def execPto (h : Hdr) (d : SReg) (a : PReg) : Meaning :=
  issue h { rd := [rP a], wr := [rS d] } (fun s => .done (s.wrS d (s.pr a) 1))
def execPany (h : Hdr) (d a b : PReg) : Meaning := pred3 h d a b (fun x y => allOnes (x &&& y != 0))
def execPall (h : Hdr) (d a b : PReg) : Meaning := pred3 h d a b (fun x y => allOnes (x &&& y == y))
def execPcnt (h : Hdr) (d : SReg) (a b : PReg) : Meaning :=
  issue h { rd := [rP a, rP b], wr := [rS d] } (fun s => .done (s.wrS d (popW (s.pr a &&& s.pr b)) 1))
def execPfirst (h : Hdr) (d a b : PReg) : Meaning := pred3 h d a b (fun x y => (x &&& y) &&& (0 - (x &&& y)))
def execPlanes (h : Hdr) (d : PReg) (a b : SReg) : Meaning :=
  issue h { rd := [rS a, rS b], wr := [rP d] } (fun s =>
    .done (s.wrP d (maskOf (fun i => (s.sr a).toNat ≤ i && i < (s.sr a).toNat + (s.sr b).toNat)) 1))

end Machine
end Sys2Proof
end

