-- ==== Sys2Proof/Machine/Clock.lean ====
section
/-! DEFINITION. One cycle of the arithmetic clock passes: package time (21 R408, R409), the cores' clocks and freezes (05 R115,
R119), the hang count (05 R121), and what a strand counts by the cycle. -/

namespace Sys2Proof
namespace Machine

/-! ## Package time -/

/-- What one clock cycle adds to package time at a rate word, in units of 1/(21 x 10^12) ns. -/
def rateUnits (rate : BitVec 32) : Nat := (20000000000000 + 20000 * rate.toInt).toNat

/-- Package time after one cycle; while a slew is left it advances at 0.999. -/
def Clock.tick (c : Clock) : Clock :=
  let full := rateUnits c.rate
  let left := c.slew * Config.subPerNs + c.slewSub
  let a := min left (full / 1000)
  let sub := c.sub + (full - a)
  { c with
    ns := c.ns + sub / Config.subPerNs, sub := sub % Config.subPerNs
    slew := (left - a) / Config.subPerNs, slewSub := (left - a) % Config.subPerNs }

/-! ## Gating and freezing -/

/-- Is a core gated in this cycle (05 R113, 22 R424)? -/
def State.gated (s : State) (core : Nat) : Bool := s.cycle % 16 < (s.core core).gate.toNat

/-- Is a core's clock enable off? -/
def State.frozen (s : State) (core : Nat) : Bool := (s.core core).frozen.isSome

/-- Has a core a late access whose latency has passed? -/
def State.lateDue (s : State) (core : Nat) : Bool :=
  (List.range 4).any (fun k => (s.strand (4 * core + k)).lates.any (fun e => e.1.due ≤ (s.core core).clk))

/-- A core after a cycle that has passed: its clock goes on unless it is frozen; what has been said of one cycle is forgotten. -/
def Core.tick (c : Core) : Core := { c with clk := if c.frozen.isNone then c.clk + 1 else c.clk, vUsed := 0, banks := [] }

/-- Has a core a codebook word whose slots are late (09 R209)? -/
def State.slotsDue (s : State) (core : Nat) : Bool :=
  (List.range 4).any (fun k => (s.strand (4 * core + k)).cbs.any (·.late))

/-- A freeze is over: the clock enable returns, and a monitor counts its cycles (11 R273). -/
def State.freezeOver (s : State) (core : Nat) : State :=
  match (s.core core).frozen with
  | none => s
  | some f =>
    (s.setMs (monEvent s.ms (dieOf core) 0x0030 (s.asidOf (4 * core)) 0 (min (s.cycle - f.since) (2 ^ 32 - 1)))).modCore core
      (fun c => { c with frozen := none })

/-- The freeze of a core in the cycle that begins: a late access whose latency has passed (cause 1), late codebook slots (cause 3), or a
bank wait beyond its budget (cause 2, log 75) begin one. -/
def State.freezeNow (s : State) (core : Nat) : Option Freeze :=
  let c := s.core core
  match c.frozen with
  | some f => some f
  | none =>
    if s.lateDue core then some { cause := 1, since := s.cycle }
    else if s.slotsDue core then some { cause := 3, since := s.cycle }
    else match (c.stalls.filter (fun e => e.1 ≤ c.clk)).map (·.2) with
      | [] => none
      | n :: r => some { cause := 2, since := s.cycle, ends := some (s.cycle + r.foldl max n) }
/-- A core's freeze as a cycle begins: one for a bank conflict ends when its cycles are over, and another may begin. -/
def State.freezeLate (s : State) (core : Nat) : State :=
  let s := if (s.core core).frozen.any (fun f => f.ends.any (· ≤ s.cycle)) then s.freezeOver core else s
  let f := s.freezeNow core
  s.modCore core (fun c => { c with
    frozen := f, stalls := if f.any (fun f => f.cause == 2 && f.since == s.cycle) then c.stalls.filter (fun e => c.clk < e.1) else c.stalls })

/-! ## The hang count (05 R121) -/

/-- Is a live strand stopped? One in its user handler, or trapped to the supervisor, is not (18 R370). -/
def Strand.stopped (x : Strand) : Bool :=
  x.handlers == 0 && (x.paused ||
  match x.wait with
   | some .tight | some .hand | some .result | some .bar | some .mwait | some .halt | some .spill => true
   | _ => false)

/-- Has the team anything outstanding? -/
def State.teamBusy (s : State) (t : Team) : Bool :=
  t.sids.any (fun i => (s.strand i).tags.toList.any (fun g => g.req.isSome)) ||
  t.cores.any (fun i =>
    let c := s.core i
    !c.equeue.isEmpty || c.erun.isSome || !c.cqLd.isEmpty || !c.cqSt.isEmpty || c.crLd.isSome || c.crSt.isSome ||
      !c.miss.isEmpty || c.frozen.isSome || s.gated i) ||
  t.colls.toList.any (fun c => c.state == 1)

/-- The hang count of a resident team after this cycle. -/
def State.hangNext (s : State) (t : Team) : Nat :=
  let live := t.sids.filter (fun i => (s.strand i).life = .live)
  if live.all (fun i => (s.strand i).stopped) && !s.teamBusy t then t.hang + 1 else 0

/-- Count a cycle for every resident team. -/
def State.countHang (s : State) : State :=
  { s with teams := s.teams.map (fun (i, t) => match t with
      | some t => (i, some (if t.place = .resident then { t with hang := s.hangNext t } else t))
      | none => (i, none)) }

/-! ## The cycle -/

/-- One cycle of the arithmetic clock; spilled entries for which a cluster has room have returned to it (17 R366). -/
def State.tick (s : State) : State :=
  let s := s.unspill.countHang
  let s := { s with
    cycle := s.cycle + 1, clock := s.clock.tick
    strands := s.strands.map (fun ((i, x) : Nat × Strand) => (i, { x with issued := false, tried := false, skips := 0, beatPrev := x.beat }))
    cores := s.cores.map (fun ((i, c) : Nat × Core) => (i, c.tick)) }
  s.cores.foldl (fun (s : State) (e : Nat × Core) => s.freezeLate e.1) s

end Machine
end Sys2Proof
end

