-- ==== Sys2Proof/Machine/Turn.lean ====
section
/-! DEFINITION. What a step does before the meaning of a row is called: which turn of the schedule it is (log 1), which row the
strand's turn is, and whether the strand may take it. -/

namespace Sys2Proof
namespace Machine

/-- What a step is: a row of the table with the state it starts from, a change that no row names, or a clock cycle. -/
inductive Plan where
  | run (i : Instr) (s : State)
  | quiet (s : State)
  | cycle (s : State)

/-- Is an instruction an event? -/
def Instr.isEvent (i : Instr) : Bool := i.hdr?.isNone

/-- May the current strand take a turn in this cycle (05 R111, R113, R119, R122; 04 R95; 22 R424)? After HANG only a strand that is
trapped to the supervisor issues. -/
def State.mayIssue (s : State) : Bool :=
  let x := s.st
  x.life = .live && !x.issued && !x.tried && !s.frozen s.cc && !s.gated s.cc &&
  (match s.teamOf s.cur with
   | none => true
   | some t => !t.stop && !(t.hangHold && !(x.modeS && 0 < x.handlers)))

/-- The row that a word is for the current strand: HAND is HAND_POP at its to role (05 R127). -/
def State.rowOf (s : State) (i : Instr) : Instr :=
  match i with
  | .hand h frm tgt n => if s.st.role == tgt && s.st.role ≠ frm then .handPop h frm tgt n else i
  | i => i

/-- The row of the current strand's presented word. -/
def State.wordTurn (s : State) : Option (Instr × State) :=
  match s.present with
  | .block => some (.blockEntry, s)
  | .word slot w =>
    let s := s.atSlot slot
    match decodeWord w with
    | .ok i => some (s.rowOf i, s)
    | .error _ => some (.trapEntry, s)

/-- The row that the current strand's turn is; none where it has nothing to do in this cycle. -/
def State.strandTurn (s : State) : Option (Instr × State) :=
  let x := s.st
  if !s.mayIssue then none
  else if x.rftAt == 0 && x.failed && (s.present ≠ .block || x.wait == some .tight) then some (.trapEntry, s)
  else match x.until', x.yieldTo, x.mwait with
  | some t, _, _ => if t ≤ s.clock.ns then some (.wakeatExpiry, s) else none
  | none, some c, _ => if c < s.cycle then some (.yieldExpiry, s) else none
  | none, none, some m =>
    if x.wake then s.wordTurn
    else match m.until' with
    | some t => if t ≤ s.clock.ns then some (.mwaitTimeout, s) else none
    | none => none
  | none, none, none => s.wordTurn

/-- Has a strand a turn left in this cycle? -/
def State.hasTurn (s : State) (sid : Nat) : Bool := State.strandTurn { s with cur := sid } |>.isSome
/-- The strand that goes next where the schedule says nothing: the lowest that has a turn left. -/
def State.nextTurn (s : State) : Option Nat := (s.strands.map (·.1)).find? s.hasTurn
/-- Has a strand of the same core and of a lower kind a turn left? It goes first (12 R283; 05 R112). -/
def State.behindKind (s : State) (sid : Nat) : Bool := (List.range (kindOf sid)).any (fun k => s.hasTurn (4 * coreOf sid + k))

/-- A strand's turn. -/
def State.issuePlan (s : State) (sid : Nat) (late : Bool) : Plan :=
  let s := { s with cur := sid, late := late, ev := .none }
  if s.behindKind sid then .quiet s
  else match s.strandTurn with
  | none => .quiet s
  | some (i, s) => .run i s

/-- A cycle passes once no strand has a turn left in it (05 R111). -/
def State.cyclePlan (s : State) : Plan := if s.nextTurn.isNone then .cycle s else .quiet s

/-- What a turn of the schedule takes away from the caches, or does to stored bits. -/
def State.lose (s : State) (t : Turn) : State :=
  match t with
  | .evict h l => s.setMs (if h < 256 then evictLine s.ms h l else icEvict s.ms (icKey (h - 256) (l * 64)))
  | .tlbDrop level unit vpn =>
    if level == 3 then s.setMs { s.ms with walks := s.ms.walks.filter (fun e => !(e.die == unit && e.pre == vpn)) }
    else s.setMs { s.ms with tlb := s.ms.tlb.filter (fun e => !(e.level == level && e.unit == unit && e.vpn == vpn)) }
  | .flip code gran mask =>
    if code < 3 && mask < 2 ^ 256 then s.setMs { s.ms with flips := Sparse.set s.ms.flips 0 (flipKey code gran) mask } else s
  | _ => s

/-- The step at a state: the next turn of the schedule; where it is empty, the next strand's turn, or a clock cycle. -/
def State.plan (s : State) : Plan :=
  match s.agenda with
  | [] => match s.nextTurn with
    | some sid => s.issuePlan sid false
    | none => .cycle s
  | t :: rest =>
    let s := { s with agenda := rest, late := false, ev := .none }
    match t with
    | .issue sid late => s.issuePlan sid late
    | .event i arg => if Instr.isEvent i then .run i { s with ev := arg } else .quiet s
    | .tick => s.cyclePlan
    | t => .quiet (s.lose t)

/-- A state after its step: the step's inputs are cleared. -/
def State.finish (s : State) : State := { s with late := false, ev := .none }

/-! ## Running one given word (for the host's own questions about the decoder and the step) -/

/-- The strand that runs a word: the first whose role the word names. -/
def wordSid (w : Word) : Nat :=
  let r := (fRole w).toNat
  if r < 16 then r else if r < 20 then r - 16 else 0

/-- A filler word of the same role: ADD s0, s0, s0. -/
def fillerWord (w : Word) : Word := encode (.add { role := fRole w, g := 0, gn := false } 0 0 0)

/-- A block that holds a word in slot 0 and the filler in slot 1. -/
def wordBlock (w : Word) : Block :=
  { header := 0x00000FFFFFFFFFFF <<< 32 ||| 0x30000, words := (Vector.replicate 7 0).set 0 w |>.set 1 (fillerWord w), bad := none }

/-- The state with a live strand of the word's role standing at the word, and its turn next. -/
def State.withWord (s : State) (w : Word) : State :=
  let sid := wordSid w
  let s := { s with cur := sid, agenda := [.issue sid false] }
  s.setStrand sid { s.strand sid with
    life := .live, role := BitVec.ofNat 4 sid, pc := 8, blk := some (0, wordBlock w), entry := none, rep := none
    wait := none, issued := false, tried := false, replay := [], rftAt := 0, until' := none, yieldTo := none, mwait := none }

end Machine
end Sys2Proof
end

