-- ==== Sys2Proof/Machine/Control.lean ====
section
/-! DEFINITION. Control flow, REP, hand-overs, time and CSRs (05 R102-R134), and the events of a strand's fetch and waits. -/

namespace Sys2Proof
namespace Machine

/-! ## Control flow (R123-R126) -/

/-- Target(b) (R124). -/
def target (b : Word) (slot : BitVec 3) (boff : BitVec 20) : Word :=
  b + 64 * simm boff + 8 + 8 * BitVec.ofNat 64 slot.toNat

/-- ALIGN of a branch target: the access aux of a fetch (R124). -/
def alignFetch (reason : Nat) (v : Word) : TrapInfo := alignTrap { fetch := true } reason v.toNat

/-- CheckWord (R124). -/
def checkWord (v : Word) : Option TrapInfo :=
  if slc v 2 0 ≠ 0 then some (alignFetch 3 v) else if slc v 5 3 = 0 then some (alignFetch 0 v) else none

def execNop (h : Hdr) : Meaning := issue h {} (fun s => .done s)
def execBr (h : Hdr) (slot : BitVec 3) (boff : BitVec 20) : Meaning :=
  issue h {} (fun s => .jump s (target (blkOf s.st.pc) slot boff))
def execJmp (h : Hdr) (a : SReg) (slot : BitVec 3) (boff : BitVec 20) : Meaning :=
  issue h { rd := [rS a] } (fun s =>
    let v := s.sr a
    if slc v 5 0 ≠ 0 then .trap s (alignFetch 6 v) else .jump s (target v slot boff))
def execCall (h : Hdr) (d : SReg) (slot : BitVec 3) (boff : BitVec 20) : Meaning :=
  issue h { wr := [rS d] } (fun s => .jump (s.wrS d (nextPc s.st.pc) 1) (target (blkOf s.st.pc) slot boff))
def execCallr (h : Hdr) (d a : SReg) : Meaning :=
  issue h { rd := [rS a], wr := [rS d] } (fun s =>
    let v := s.sr a
    match checkWord v with
    | some t => .trap s t
    | none => .jump (s.wrS d (nextPc s.st.pc) 1) v)
def execRet (h : Hdr) (a : SReg) : Meaning :=
  issue h { rd := [rS a] } (fun s =>
    let v := s.sr a
    match checkWord v with
    | some t => .trap s t
    | none => .jump s v)
def execLoop (h : Hdr) (d a : SReg) (slot : BitVec 3) (boff : BitVec 20) : Meaning :=
  issue h { rd := [rS a], wr := [rS d] } (fun s =>
    let n := s.sr a - 1
    let t := s.wrS d n 1
    if n = 0 then .done t else .jump t (target (blkOf s.st.pc) slot boff))
/-- A true-guarded REP comes into force, in place of one that still waited for its target (log 33). -/
def execRep (h : Hdr) (_count : BitVec 6) (_id _ia _ib _ic : BitVec 3) : Meaning :=
  issue h {} (fun s => .done (s.modSt (fun x => { x with rep := some { addr := x.pc, k := 0 } })))

/-- Has everything that HALT waits for come back (R125): the queued requests, the engine and copy commands (log 52), the LAUNCHes? Other
results still on their way do not hold it (19 R391). -/
def State.allBack (s : State) : Bool :=
  s.st.ops.all (fun o => o.cls ≠ .launch) && s.st.tags.toList.all (fun t => t.req.isNone) && (s.commands s.cur).isEmpty
/-- HALT waits for the strand's requests and commands, and ends it; in a handler it is a faulting halt (22 R412). -/
def execHalt (h : Hdr) : Meaning :=
  issue h {} (fun s => if s.allBack then .stay (s.modSt (fun x => { x with life := .halted, faultHalt := 0 < x.handlers })) else .wait s .halt)

/-! ## Hand-overs (R127-R130) -/

/-- Does a role lie outside the strand's team (02 R53)? -/
def State.outside (s : State) (role : Nat) : Bool :=
  match s.teamOf s.cur with
  | none => true
  | some t => t.shape ≤ role / 4

/-- The work of a hand-over word of the strand's team, with the team's number and its queue. -/
def handWord (h : Hdr) (u : Use) (frm tgt : BitVec 4) (body : State → Nat → Team → HandQ → Eff) : Meaning :=
  issue h u (fun s =>
    if s.outside frm.toNat || s.outside tgt.toNat then .trap s (illencAt s 3)
    else match s.st.team, s.teamOf s.cur with
      | some tid, some t => body s tid t (t.handQ frm.toNat tgt.toNat)
      | _, _ => .done s)

/-- HAND at its from role: push, with a release at team scope that does not stop the strand (17 R351, R353). -/
def execHand (h : Hdr) (frm tgt n : BitVec 4) : Meaning :=
  handWord h {} frm tgt (fun s tid _ q =>
    let k := n.toNat + 1
    if q.toks.length + q.resv + k ≤ 16 then .done ((s.releaseAt s.cur (s.teamScopeOf s.cur)).pushTok tid frm.toNat tgt.toNat k none) else .wait s .hand)
/-- HAND at its to role: pop. -/
def execHandPop (h : Hdr) (frm tgt n : BitVec 4) : Meaning :=
  handWord h {} frm tgt (fun s tid t q =>
    let k := n.toNat + 1
    let old := q.toks.take k
    if k ≤ q.toks.length && old.all (fun tok => s.popOk tid t tok tgt.toNat) then
      let s := old.foldl (fun (s : State) tok => s.popAcquire t tok s.cur) s
      .done (s.modTeam tid (fun t => t.setHandQ frm.toNat tgt.toNat { q with toks := q.toks.drop k }))
    else .wait s .hand)
/-- HTEST counts the tokens of the queue, those that cannot be popped yet included (log 29). -/
def execHtest (h : Hdr) (d : PReg) (frm tgt : BitVec 4) : Meaning :=
  handWord h { wr := [rP d] } frm tgt (fun s _ _ q => .done (s.wrP d (maskOf (fun i => i < q.toks.length)) 1))

/-! ## Time (R131) -/

def execTime (h : Hdr) (d : SReg) : Meaning :=
  issue h { wr := [rS d] } (fun s => .done (s.wrS d (BitVec.ofNat 64 s.clock.ns) 2))
def execCycle (h : Hdr) (d : SReg) : Meaning :=
  issue h { wr := [rS d] } (fun s => .done (s.wrS d (BitVec.ofNat 64 s.cycle) 2))
/-- WAKEAT keeps the strand at its word until the instant; one already past is met at once. -/
def execWakeat (h : Hdr) (a : SReg) : Meaning :=
  issue h { rd := [rS a] } (fun s =>
    let t := (s.sr a).toNat
    if t ≤ s.clock.ns then .done s else .stay (s.modSt (fun x => { x with until' := some t })))
/-- YIELD keeps the strand at its word in the next s[a][15:0] cycles. -/
def execYield (h : Hdr) (a : SReg) : Meaning :=
  issue h { rd := [rS a] } (fun s =>
    let n := slc (s.sr a) 15 0
    if n = 0 then .done s else .stay (s.modSt (fun x => { x with yieldTo := some (s.cycle + n) })))

/-! ## CSRs (R132-R134) -/

/-- The supervisor CSRs. -/
def Csr.sup : Csr → Bool
  | .strapvec | .mode | .tframe | .asid | .ptbase => true
  | _ => false

/-- The value of a CSR of the current strand. -/
def State.csrGet (s : State) (c : Csr) : Word :=
  let x := s.st
  let l := s.launchOf s.cur
  let core := s.cc
  match c with
  | .fpctl => x.fpctl
  | .srstate => x.srstate
  | .roleinfo =>
    BitVec.ofNat 64 (core % 4 * 2 ^ 22 + core / 48 % 4 * 2 ^ 20 + core / 4 % 12 * 2 ^ 16 +
      ((s.teamOf s.cur).map (·.shape)).getD 0 * 2 ^ 8 + x.role.toNat)
  | .teamid => BitVec.ofNat 64 (((s.teamOf s.cur).map (·.num)).getD 0)
  | .gridsz => BitVec.ofNat 64 ((l.map Launch.grid).getD 0)
  | .argp => (l.map Launch.argp).getD 0
  | .beat => x.beat.setWidth 64
  | .drift => BitVec.ofNat 64 ((l.map Launch.drift).getD 0 * 256 + s.lead s.cur % 256)
  | .latgen => BitVec.ofNat 64 (Config.generation * 256 + (l.map (·.latgen)).getD 0)
  | .carbase => x.carbase.setWidth 64
  | .cardepth => x.cardepth.setWidth 64
  | .utrapvec => x.utrapvec
  | .utrapmask => x.utrapmask.setWidth 64
  | .strapvec => x.strapvec
  | .mode => BitVec.ofNat 64 x.modeBits
  | .tframe => x.tframe
  | .asid => BitVec.ofNat 64 (s.asidOf s.cur)
  | .ptbase => BitVec.ofNat 64 (s.ptbase (s.asidOf s.cur))

/-- A strand with a CSR written; fields that are read-only or reserved keep their value. -/
def Strand.csrPut (x : Strand) (c : Csr) (w : Word) : Strand :=
  let vec := w &&& ~~~(63 : Word)
  match c with
  | .fpctl =>
    let rm := if slc w 2 0 < 6 then slc w 2 0 else slc x.fpctl 2 0
    { x with fpctl := BitVec.ofNat 64 (slc w 8 4 * 16 + rm) }
  | .srstate => { x with srstate := w }
  | .carbase => { x with carbase := w.setWidth 8 }
  | .cardepth => if 1 ≤ slc w 4 0 && slc w 4 0 ≤ 16 then { x with cardepth := w.setWidth 5 } else x
  | .utrapvec => { x with utrapvec := vec }
  | .utrapmask => { x with utrapmask := w.setWidth 10 }
  | .strapvec => { x with strapvec := vec }
  | .tframe => { x with tframe := vec }
  | _ => x

/-- A CSR instruction: the old value at latency 2, then the write, which the flags due later are ORed into (R133). -/
def csrWord (h : Hdr) (opc : BitVec 8) (d : SReg) (rd : List Reg) (c : Csr) (f : Option (State → Word → Word)) : Meaning :=
  issue h { rd := rd, wr := [rS d], priv := if Csr.sup c then some (opc.toNat + 256 * (Csr.enc c).toNat) else none } (fun s =>
    let s := s.modSt (fun x => x.landFlags s.now)
    let old := s.csrGet c
    let t := match f with
      | none => s
      | some f => s.modSt (fun x => x.csrPut c (f s old))
    .done (t.wrS d old 2))
def execCsrr (h : Hdr) (d : SReg) (csr : Csr) : Meaning := csrWord h 0x12 d [] csr none
def execCsrw (h : Hdr) (d a : SReg) (csr : Csr) : Meaning := csrWord h 0x13 d [rS a] csr (some (fun s _ => s.sr a))
def execCsrs (h : Hdr) (d a : SReg) (csr : Csr) : Meaning := csrWord h 0x14 d [rS a] csr (some (fun s w => w ||| s.sr a))
def execCsrc (h : Hdr) (d a : SReg) (csr : Csr) : Meaning := csrWord h 0x15 d [rS a] csr (some (fun s w => w &&& ~~~s.sr a))

/-! ## Events of a strand -/

/-- An event that happens to a strand only when `ok`. -/
def onlyIf (ok : Bool) (f : State → State) (s : State) : Host.Outcome State Fault Refusal := out (if ok then f s else s)

/-- The strand that an event names; with no name it is the current one. -/
def State.evSid (s : State) : Nat := match s.ev with | .strand i => i | _ => s.cur

/-- The instant of a WAKEAT has come: the strand goes on. -/
def execWakeatExpiry : Meaning := fun s =>
  let s := { s with cur := s.evSid }
  onlyIf (match s.st.until' with | some t => t ≤ s.clock.ns | none => false)
    (fun s => s.modSt (fun x => { x with until' := none }.advance)) s
/-- The cycles of a YIELD have passed. -/
def execYieldExpiry : Meaning := fun s =>
  let s := { s with cur := s.evSid }
  onlyIf (match s.st.yieldTo with | some c => c < s.cycle | none => false)
    (fun s => s.modSt (fun x => { x with yieldTo := none }.advance)) s
/-- The strand enters the block at its place, goes on in it, or leaves it (R105, R106). -/
def execBlockEntry : Meaning := fun s =>
  let s := { s with cur := s.evSid }
  onlyIf (s.mayIssue && s.present == .block)
    (fun s => match s.st.entry with
      | some va => s.enterBlock va
      | none => s.leaveBlock) s
/-- A fill arrives in a cluster's instruction cache (R102, R103). -/
def execIcFillComplete : Meaning := fun s =>
  match s.ev with
  | .fill cluster pa => out (s.doFill cluster pa)
  | _ => out s

end Machine
end Sys2Proof
end

