-- ==== Sys2Proof/Machine/Fp.lean ====
section
/-! DEFINITION. Scalar floating point (08 R172-R184). -/

namespace Sys2Proof
namespace Machine

/-- The mode of a conversion: the word's own, else fpctl.rm (08 R172). -/
def State.modeOr (s : State) (rm : Option RMode) : RMode := rm.getD s.rmode

/-- One draw of the strand in mode SR (07 R163): the bits and the state after it. -/
def State.drawSr (s : State) (m : RMode) : Nat × State :=
  let (r, g) := drawIf m s.st.srstate
  (r, if m = .sr then s.modSt (fun x => { x with srstate := g }) else s)

/-- Write a rounded result in type T, the bits above it zero, with its flags. -/
def State.wrF (s : State) (d : SReg) (x : Nat × Flags) (lat : Nat) : State := s.wrSF d (BitVec.ofNat 64 x.1) x.2 lat

/-- A result rounded once into type `f` in a mode. -/
def State.roundTo (s : State) (d : SReg) (f : FpFmt) (m : RMode) (lat : Nat) (x : XRes) : State :=
  let (r, s) := s.drawSr m
  s.wrF d (f.fin m r x) lat

/-- The value of a scalar register read as a type. -/
def State.fr (s : State) (f : FpFmt) (a : SReg) : XVal := f.read (s.sr a).toNat

/-! ## Shapes -/

def fp3 (h : Hdr) (ty : FType) (d a b : SReg) (lat : Nat) (f : RMode → XVal → XVal → XRes) : Meaning :=
  let T := ftFmt ty
  issue h { rd := [rS a, rS b], wr := [rS d] } (fun s => .done (s.roundTo d T s.rmode lat (f s.rmode (s.fr T a) (s.fr T b))))
def fp4 (h : Hdr) (ty : FType) (d a b c : SReg) (f : RMode → XVal → XVal → XVal → XRes) : Meaning :=
  let T := ftFmt ty
  issue h { rd := [rS a, rS b, rS c], wr := [rS d] }
    (fun s => .done (s.roundTo d T s.rmode 4 (f s.rmode (s.fr T a) (s.fr T b) (s.fr T c))))
def fp2 (h : Hdr) (ty : FType) (d a : SReg) (lat : Nat) (f : XVal → XRes) : Meaning :=
  let T := ftFmt ty
  issue h { rd := [rS a], wr := [rS d] } (fun s => .done (s.roundTo d T s.rmode lat (f (s.fr T a))))
/-- Minimum and maximum deliver an operand unrounded (R177). -/
def fpMinMax (h : Hdr) (ty : FType) (d a b : SReg) (isMax num : Bool) : Meaning :=
  issue h { rd := [rS a, rS b], wr := [rS d] }
    (fun s => .done (s.wrF d (fminmax (ftFmt ty) isMax num (s.sr a).toNat (s.sr b).toNat) 4))

/-! ## The opcodes (R175-R183) -/

def execFadd (h : Hdr) (ty : FType) (d a b : SReg) : Meaning := fp3 h ty d a b 4 (fun _m x y => xadd _m x y)
def execFsub (h : Hdr) (ty : FType) (d a b : SReg) : Meaning := fp3 h ty d a b 4 (fun _m x y => xadd _m x y.neg)
def execFmul (h : Hdr) (ty : FType) (d a b : SReg) : Meaning := fp3 h ty d a b 4 (fun _m x y => xmul x y)
def execFma (h : Hdr) (ty : FType) (d a b c : SReg) : Meaning := fp4 h ty d a b c (fun m x y z => xfma m false x y z)
def execFms (h : Hdr) (ty : FType) (d a b c : SReg) : Meaning := fp4 h ty d a b c (fun m x y z => xfma m false x y z.neg)
def execFnma (h : Hdr) (ty : FType) (d a b c : SReg) : Meaning := fp4 h ty d a b c (fun m x y z => xfma m true x y z)
def execFdiv (h : Hdr) (ty : FType) (d a b : SReg) : Meaning := fp3 h ty d a b 14 (fun _m x y => xdiv x y)
def execFsqrt (h : Hdr) (ty : FType) (d a : SReg) : Meaning := fp2 h ty d a 14 xsqrt
def execFmin (h : Hdr) (ty : FType) (d a b : SReg) : Meaning := fpMinMax h ty d a b false false
def execFmax (h : Hdr) (ty : FType) (d a b : SReg) : Meaning := fpMinMax h ty d a b true false
def execFminm (h : Hdr) (ty : FType) (d a b : SReg) : Meaning := fpMinMax h ty d a b false true
def execFmaxm (h : Hdr) (ty : FType) (d a b : SReg) : Meaning := fpMinMax h ty d a b true true
/-- R178. -/
def execFcmp (h : Hdr) (ty : FType) (d : CmpDst) (a b : SReg) (cc : FCc) : Meaning :=
  issue h { rd := [rS a, rS b], wr := [CmpDst.reg d] } (fun s =>
    let (t, fl) := fcompare cc (s.fr (ftFmt ty) a) (s.fr (ftFmt ty) b)
    .done ((s.wrCmp d t 1).addFlags fl 1))

/-- The bit of FCLASS (R179). -/
def fclass (f : FpFmt) (x : XVal) : Nat :=
  match x with
  | .inf neg => if neg then 0 else 7
  | .nan sig => if sig then 8 else 9
  | .fin neg m _ =>
    if m == 0 then (if neg then 3 else 4)
    else if m < 2 ^ f.m then (if neg then 2 else 5) else (if neg then 1 else 6)
def execFclass (h : Hdr) (ty : FType) (d a : SReg) : Meaning :=
  issue h { rd := [rS a], wr := [rS d] } (fun s =>
    .done (s.wrS d (BitVec.ofNat 64 (2 ^ fclass (ftFmt ty) (s.fr (ftFmt ty) a))) 1))

/-- R180. -/
def execFcvt (h : Hdr) (ty ty2 : FType) (rm : Option RMode) (d a : SReg) : Meaning :=
  issue h { rd := [rS a], wr := [rS d] } (fun s =>
    .done (s.roundTo d (ftFmt ty) (s.modeOr rm) 4 { v := s.fr (ftFmt ty2) a }))

/-- The range of an integer type. -/
def itRange : IType → Int × Int
  | .i64 => intRange 64 true | .u64 => intRange 64 false | .i32 => intRange 32 true | .u32 => intRange 32 false
/-- The integer that a register holds as a type. -/
def itValue (t : IType) (x : Word) : Int :=
  match t with
  | .i64 => x.toInt | .u64 => x.toNat | .i32 => sval 32 x.toNat | .u32 => ((x.toNat % 2 ^ 32 : Nat) : Int)
def execFcvti (h : Hdr) (ty : FType) (ity : IType) (rm : Option RMode) (d a : SReg) : Meaning :=
  issue h { rd := [rS a], wr := [rS d] } (fun s =>
    let m := s.modeOr rm
    let x := s.fr (ftFmt ty) a
    let (r, s) := s.drawSr m
    let (lo, hi) := itRange ity
    let (v, fl) := roundInt m r lo hi x
    .done (s.wrSF d (BitVec.ofInt 64 v) fl 4))
def execIcvtf (h : Hdr) (ty : FType) (ity : IType) (rm : Option RMode) (d a : SReg) : Meaning :=
  issue h { rd := [rS a], wr := [rS d] } (fun s =>
    .done (s.roundTo d (ftFmt ty) (s.modeOr rm) 4 { v := xint (itValue ity (s.sr a)) }))

/-- The sign of FSGN's result (R181). -/
def sgnOf (op : SgnOp) (neg : Bool) (y : SReg → Bool) : Bool :=
  match op with
  | .cpy b => y b | .ncpy b => !y b | .xor b => neg != y b | .abs => false | .neg => !neg
def SgnOp.regs : SgnOp → List Reg
  | .cpy b | .ncpy b | .xor b => [rS b]
  | .abs | .neg => []
def execFsgn (h : Hdr) (ty : FType) (op : SgnOp) (d a : SReg) : Meaning :=
  let T := ftFmt ty
  issue h { rd := rS a :: SgnOp.regs op, wr := [rS d] } (fun s =>
    let x := (s.sr a).toNat % 2 ^ T.width
    let v := T.read x
    if v.isNan then .done (s.wrF d (T.nanBits, sigFlag [v]) 1)
    else
      let neg := sgnOf op (T.signBit ≤ x) (fun b => T.signBit ≤ (s.sr b).toNat % 2 ^ T.width)
      .done (s.wrF d (x % T.signBit + (if neg then T.signBit else 0), 0) 1))

/-- A value rounded to an integral value of its own type: NX alone is raised. -/
def frndTo (f : FpFmt) (m : RMode) (r : Nat) (x : XVal) : Nat × Flags :=
  match x with
  | .fin neg k e =>
    if 0 ≤ e then f.round .rne 0 x
    else
      let (n, inexact) := roundAt m r neg k e 0 false
      ((f.round .rne 0 (.fin neg n 0)).1, if inexact then fNX else 0)
  | _ => f.round .rne 0 x
def execFrnd (h : Hdr) (ty : FType) (rm : Option RMode) (d a : SReg) : Meaning :=
  let T := ftFmt ty
  issue h { rd := [rS a], wr := [rS d] } (fun s =>
    let m := s.modeOr rm
    let x := s.fr T a
    let (r, s) := s.drawSr m
    .done (s.wrF d (frndTo T m r x) 4))

/-- FSCALB: an amount far outside every format is cut short of its end, where the result is the same. -/
def scalbAmount (y : Word) : Int := max (-100000) (min 100000 y.toInt)
def execFscalb (h : Hdr) (ty : FType) (d a b : SReg) : Meaning :=
  let T := ftFmt ty
  issue h { rd := [rS a, rS b], wr := [rS d] } (fun s =>
    let x := s.fr T a
    .done (s.roundTo d T s.rmode 4 { v := x.scale (scalbAmount (s.sr b)), fl := sigFlag [x] }))
def execFexp2 (h : Hdr) (ty : FType) (d a : SReg) : Meaning := fp2 h ty d a 8 xexp2
def execFlog2 (h : Hdr) (ty : FType) (d a : SReg) : Meaning := fp2 h ty d a 8 xlog2v
def execFrcp (h : Hdr) (ty : FType) (d a : SReg) : Meaning := fp2 h ty d a 8 xrcp
def execFrsq (h : Hdr) (ty : FType) (d a : SReg) : Meaning := fp2 h ty d a 8 xrsq

/-- R183. -/
def execFrand (h : Hdr) (op : RandOp) (d : SReg) : Meaning :=
  issue h { wr := [rS d] } (fun s =>
    let g := xorshift s.st.srstate
    let s := s.modSt (fun x => { x with srstate := g })
    match op with
    | .raw => .done (s.wrS d g 4)
    | .unif ty =>
      let T := ftFmt ty
      let p := T.m + 1
      .done (s.wrF d (T.round .rne 0 (.fin false (g.toNat / 2 ^ (64 - p)) (-(p : Int)))) 4))

end Machine
end Sys2Proof
end

