-- ==== Sys2Proof/Machine/Vec.lean ====
section
/-! DEFINITION. Vector instructions (08 R185-R194). -/

namespace Sys2Proof
namespace Machine

/-! ## Shapes -/

/-- What a vector word uses: the per-lane guard and a vector pipe (R173, R186). -/
def vUse (rd wr : List Reg) : Use := { rd := rd, wr := wr, on := State.lanesOn, vec := true }

/-- d_i := f(i) in each active lane. -/
def vecMap (h : Hdr) (d : VReg) (rd : List Reg) (lat : Nat) (f : State → Nat → Lane) : Meaning :=
  issue h (vUse rd [rV d]) (fun s => .done (s.wrV d (vecOf (f s)) (s.laneMask h) lat))

/-- d_i := f(a_i, b_i) on integer lanes, at latency 4. -/
def vec3 (h : Hdr) (d a : VReg) (b : VOpB) (f : Lane → Lane → Lane) : Meaning :=
  vecMap h d [rV a, VOpB.reg b] 4 (fun s => let x := s.vr a; let y := s.vopB b; fun i => f (lane x i) (lane y i))

/-- A lane read as a float type. -/
def State.lf (_s : State) (lt : LType) (v : Vec) (i : Nat) : XVal := (ltFmt lt).read (lane v i).toNat

/-- Active lanes in ascending order, each with one draw in mode SR: the encodings, the flags, the generator after them. -/
def lanesFold (m : RMode) (g : Word) (mask : Word) (f : Nat → Nat → Nat × Flags) : List (Nat × Nat) × Flags × Word :=
  (List.range 64).foldl (fun (out, fl, g) i =>
    if mask.getLsbD i then
      let (r, g) := drawIf m g
      let (x, e) := f i r
      (out ++ [(i, x)], fl ||| e, g)
    else (out, fl, g)) ([], 0, g)

/-- The vector that numbered values make. -/
def vecPut (l : List (Nat × Nat)) : Vec :=
  l.foldl (fun (v : Vec) (e : Nat × Nat) => if h : e.1 < 64 then v.set e.1 (BitVec.ofNat 32 e.2) else v) (Vector.replicate 64 0)

/-- Write the lanes of a rounding operation in mode `m`. -/
def State.wrLanesF (s : State) (h : Hdr) (d : VReg) (m : RMode) (lat : Nat) (f : Nat → Nat → Nat × Flags) : State :=
  let mask := s.laneMask h
  let (l, fl, g) := lanesFold m s.st.srstate mask f
  (s.modSt (fun x => { x with srstate := g })).wrVF d (vecPut l) mask fl lat

/-- A float vector operation that rounds each active lane once. -/
def vfp (h : Hdr) (lt : LType) (d : VReg) (rd : List Reg) (lat : Nat) (f : RMode → State → Nat → XRes) : Meaning :=
  issue h (vUse rd [rV d]) (fun s =>
    let m := s.rmode
    let g := f m s
    .done (s.wrLanesF h d m lat (fun i r => (ltFmt lt).fin m r (g i))))

/-- Minimum and maximum: no rounding, no draw (R189). -/
def vfMinMax (h : Hdr) (lt : LType) (d a : VReg) (b : VOpB) (isMax num : Bool) : Meaning :=
  issue h (vUse [rV a, VOpB.reg b] [rV d]) (fun s =>
    let x := s.vr a
    let y := s.vopB b
    .done (s.wrLanesF h d .rne 4 (fun i _ => fminmax (ltFmt lt) isMax num (lane x i).toNat (lane y i).toNat)))

/-! ## Integer lanes (R188) -/

/-- The high half of a 32-bit product. -/
def mulh32 (u : Bool) (x y : Lane) : Lane :=
  if u then BitVec.ofNat 32 (x.toNat * y.toNat / 2 ^ 32) else BitVec.ofInt 32 (x.toInt * y.toInt / 2 ^ 32)

def execVadd (h : Hdr) (d a : VReg) (b : VOpB) : Meaning := vec3 h d a b (fun x y => x + y)
def execVsub (h : Hdr) (d a : VReg) (b : VOpB) : Meaning := vec3 h d a b (fun x y => x - y)
def execVmul (h : Hdr) (d a : VReg) (b : VOpB) : Meaning := vec3 h d a b (fun x y => x * y)
def execVmulh (h : Hdr) (u : Bool) (d a : VReg) (b : VOpB) : Meaning := vec3 h d a b (fun x y => mulh32 u x y)
def execVmin (h : Hdr) (u : Bool) (d a : VReg) (b : VOpB) : Meaning := vec3 h d a b (fun x y => if (if u then x.ule y else x.sle y) then x else y)
def execVmax (h : Hdr) (u : Bool) (d a : VReg) (b : VOpB) : Meaning := vec3 h d a b (fun x y => if (if u then y.ule x else y.sle x) then x else y)
def execVand (h : Hdr) (d a : VReg) (b : VOpB) : Meaning := vec3 h d a b (fun x y => x &&& y)
def execVor (h : Hdr) (d a : VReg) (b : VOpB) : Meaning := vec3 h d a b (fun x y => x ||| y)
def execVxor (h : Hdr) (d a : VReg) (b : VOpB) : Meaning := vec3 h d a b (fun x y => x ^^^ y)
def execVshl (h : Hdr) (d a : VReg) (b : VOpB) : Meaning := vec3 h d a b (fun x y => if 32 ≤ y.toNat then 0 else x <<< y.toNat)
def execVshr (h : Hdr) (d a : VReg) (b : VOpB) : Meaning := vec3 h d a b (fun x y => if 32 ≤ y.toNat then 0 else x >>> y.toNat)
def execVsar (h : Hdr) (d a : VReg) (b : VOpB) : Meaning := vec3 h d a b (fun x y => x.sshiftRight (min y.toNat 31))

/-! ## Float lanes (R189) -/

def execVfadd (h : Hdr) (lt : LType) (d a : VReg) (b : VOpB) : Meaning := vfp h lt d [rV a, VOpB.reg b] 4 (fun m s => let x := s.vr a; let y := s.vopB b; fun i => xadd m (s.lf lt x i) (s.lf lt y i))
def execVfsub (h : Hdr) (lt : LType) (d a : VReg) (b : VOpB) : Meaning := vfp h lt d [rV a, VOpB.reg b] 4 (fun m s => let x := s.vr a; let y := s.vopB b; fun i => xadd m (s.lf lt x i) (s.lf lt y i).neg)
def execVfmul (h : Hdr) (lt : LType) (d a : VReg) (b : VOpB) : Meaning := vfp h lt d [rV a, VOpB.reg b] 4 (fun m s => let _ := m; let x := s.vr a; let y := s.vopB b; fun i => xmul (s.lf lt x i) (s.lf lt y i))
def execVfma (h : Hdr) (lt : LType) (d a : VReg) (b : VOpB) (c : VReg) : Meaning :=
  vfp h lt d [rV a, VOpB.reg b, rV c] 4 (fun m s => let x := s.vr a; let y := s.vopB b; let z := s.vr c
    fun i => xfma m false (s.lf lt x i) (s.lf lt y i) (s.lf lt z i))
def execVfmin (h : Hdr) (num : Bool) (lt : LType) (d a : VReg) (b : VOpB) : Meaning := vfMinMax h lt d a b false num
def execVfmax (h : Hdr) (num : Bool) (lt : LType) (d a : VReg) (b : VOpB) : Meaning := vfMinMax h lt d a b true num
def execVfdiv (h : Hdr) (lt : LType) (d a : VReg) (b : VOpB) : Meaning := vfp h lt d [rV a, VOpB.reg b] 16 (fun m s => let _ := m; let x := s.vr a; let y := s.vopB b; fun i => xdiv (s.lf lt x i) (s.lf lt y i))
def execVfsqrt (h : Hdr) (lt : LType) (d a : VReg) : Meaning := vfp h lt d [rV a] 16 (fun _ s => fun i => xsqrt (s.lf lt (s.vr a) i))
def execVfexp2 (h : Hdr) (lt : LType) (d a : VReg) : Meaning := vfp h lt d [rV a] 10 (fun _ s => fun i => xexp2 (s.lf lt (s.vr a) i))
def execVfrcp (h : Hdr) (lt : LType) (d a : VReg) : Meaning := vfp h lt d [rV a] 10 (fun _ s => fun i => xrcp (s.lf lt (s.vr a) i))
def execVfrsq (h : Hdr) (lt : LType) (d a : VReg) : Meaning := vfp h lt d [rV a] 10 (fun _ s => fun i => xrsq (s.lf lt (s.vr a) i))

/-- R190. -/
def execVcmp (h : Hdr) (op : VCmpOp) (d : PReg) (a : VReg) (b : VOpB) : Meaning :=
  issue h (vUse [rV a, VOpB.reg b] [rP d]) (fun s =>
    let mask := s.laneMask h
    let x := s.vr a
    let y := s.vopB b
    let t (i : Nat) : Bool × Flags := match op with
      | .int cc => (condOf cc (lane x i) (lane y i), 0)
      | .flt cc lt => fcompare cc (s.lf lt x i) (s.lf lt y i)
    let fl := (List.range 64).foldl (fun f i => if mask.getLsbD i then f ||| (t i).2 else f) (0 : Flags)
    let res := maskOf (fun i => (t i).1)
    .done ((s.wrP d ((s.pr d &&& ~~~mask) ||| (res &&& mask)) 4).addFlags fl 4))

/-- The value of one side of a conversion (R191). -/
def CvtSide.read (c : CvtSide) (sgn : Bool) (x : Nat) : XVal :=
  match c with
  | .i32 => xint (if sgn then sval 32 x else ((x % 2 ^ 32 : Nat) : Int))
  | .fmt f => elemValue f sgn x
/-- Round a value into the target of a conversion. -/
def CvtSide.round (c : CvtSide) (sgn : Bool) (m : RMode) (r : Nat) (x : XVal) : Nat × Flags :=
  match c with
  | .i32 =>
    let (lo, hi) := intRange 32 sgn
    let (v, fl) := roundInt m r lo hi x
    ((v % (2 ^ 32 : Nat)).toNat, fl)
  | .fmt f => elemRound f sgn m r x
/-- An integer side. -/
def CvtSide.isInt : CvtSide → Bool
  | .i32 | .fmt .int8 | .fmt .int4 => true | _ => false
def execVcvt (h : Hdr) (tgt frm : CvtSide) (sgn : Bool) (rm : Option RMode) (d a : VReg) : Meaning :=
  issue h (vUse [rV a] [rV d]) (fun s =>
    let m := if CvtSide.isInt tgt && CvtSide.isInt frm then .rne else s.modeOr rm
    let x := s.vr a
    .done (s.wrLanesF h d m 4 (fun i r => CvtSide.round tgt sgn m r (CvtSide.read frm sgn (lane x i).toNat))))

/-! ## VRED (R192) -/

/-- One level of the tree: nodes with one absent input pass the other unchanged. The state is the generator and the flags. -/
def redLevel (f : Nat → Nat → Word → Nat × Flags × Word) : List (Option Nat) → Word → Flags → List (Option Nat) × Word × Flags
  | some x :: some y :: rest, g, fl =>
    let (z, e, g) := f x y g
    let (l, g, fl) := redLevel f rest g (fl ||| e)
    (some z :: l, g, fl)
  | x :: y :: rest, g, fl =>
    let (l, g, fl) := redLevel f rest g fl
    ((match x with | some a => some a | none => y) :: l, g, fl)
  | l, g, fl => (l, g, fl)

/-- `n` levels. -/
def redTree (f : Nat → Nat → Word → Nat × Flags × Word) : (n : Nat) → List (Option Nat) → Word → Flags →
    List (Option Nat) × Word × Flags
  | 0, l, g, fl => (l, g, fl)
  | n + 1, l, g, fl =>
    let (l, g, fl) := redLevel f l g fl
    redTree f n l g fl

/-- One node of a reduction. -/
def redNode (op : RedOp) (m : RMode) (x y : Nat) (g : Word) : Nat × Flags × Word :=
  let a := BitVec.ofNat 32 x
  let b := BitVec.ofNat 32 y
  match op with
  | .iadd => ((a + b).toNat, 0, g)
  | .fadd lt =>
    let f := ltFmt lt
    let (r, g) := drawIf m g
    let (z, fl) := f.fin m r (xadd m (f.read x) (f.read y))
    (z, fl, g)
  | .fmax lt => let (z, fl) := fminmax (ltFmt lt) true false x y; (z, fl, g)
  | .fmin lt => let (z, fl) := fminmax (ltFmt lt) false false x y; (z, fl, g)
  | .smax => ((if b.sle a then a else b).toNat, 0, g)
  | .smin => ((if a.sle b then a else b).toNat, 0, g)
  | .umax => (max x y, 0, g)
  | .umin => (min x y, 0, g)
/-- The float type of a reduction. -/
def RedOp.lt? : RedOp → Option LType
  | .fadd lt | .fmax lt | .fmin lt => some lt
  | _ => none
def execVred (h : Hdr) (op : RedOp) (d a : VReg) : Meaning :=
  issue h (vUse [rV a] [rV d]) (fun s =>
    let mask := s.laneMask h
    let x := s.vr a
    let m := s.rmode
    let leaves : List (Option Nat) := (List.range 64).map (fun i => if mask.getLsbD i then some (lane x i).toNat else none)
    let (l, g, fl) := redTree (redNode op m) 6 leaves s.st.srstate 0
    let root := (l.head?.getD none).getD 0
    let (root, fl) := match RedOp.lt? op with
      | none => (root, fl)
      | some lt =>
        let f := ltFmt lt
        let sig := sigFlag (leaves.filterMap (fun o => o.map f.read))
        ((if (f.read root).isNan then f.nanBits else root % 2 ^ f.width), fl ||| sig)
    .done ((s.modSt (fun y => { y with srstate := g })).wrVF d (Vector.replicate 64 (BitVec.ofNat 32 root)) mask fl 8))

/-! ## Movement (R193, R194) -/

def execVperm (h : Hdr) (wrap : Bool) (d a : VReg) (b : VOpB) : Meaning :=
  vecMap h d [rV a, VOpB.reg b] 6 (fun s => let x := s.vr a; let y := s.vopB b; fun i =>
    let k := (lane y i).toNat
    if k < 64 then lane x k else if wrap then lane x (k % 64) else 0)
def execVsplat (h : Hdr) (d : VReg) (a : SReg) : Meaning :=
  vecMap h d [rS a] 4 (fun s _ => (s.sr a).setWidth 32)
def execVsel (h : Hdr) (d a : VReg) (b : VOpB) (c : PReg) : Meaning :=
  vecMap h d [rV a, VOpB.reg b, rP c] 4 (fun s => let x := s.vr a; let y := s.vopB b; fun i =>
    if (s.pr c).getLsbD i then lane x i else lane y i)
def execViota (h : Hdr) (d : VReg) (a b : SReg) : Meaning :=
  vecMap h d [rS a, rS b] 4 (fun s i => (s.sr a).setWidth 32 + BitVec.ofNat 32 i * (s.sr b).setWidth 32)
/-- VEXT tests lane (s[b] + k) mod 64 alone, and reads s[b] in every case (R173). -/
def execVext (h : Hdr) (sx : Bool) (k : BitVec 6) (d : SReg) (a : VReg) (b : SReg) : Meaning :=
  let at' (s : State) : Nat := ((s.sr b).toNat + k.toNat) % 64
  let u : Use := { rd := [rV a], wr := [rS d], base := [rS b], on := fun s h => (s.laneMask h).getLsbD (at' s), vec := true }
  issue h u (fun s =>
    let x := lane (s.vr a) (at' s)
    .done (s.wrS d (if sx then x.signExtend 64 else x.setWidth 64) 4))
/-- Points of the transform and the exponent of its normaliser (R194). -/
def HadN.points : HadN → Nat
  | .n16 => 16 | .n32 => 32 | .n64 => 64
def HadN.exp : HadN → Int
  | .n16 => -2 | .n32 => -5 | .n64 => -3
def execVhad (h : Hdr) (n : HadN) (nrm : Bool) (lt : LType) (d a : VReg) : Meaning :=
  issue h (vUse [rV a] [rV d]) (fun s =>
    let mask := s.laneMask h
    let x := s.vr a
    let m := s.rmode
    let p := HadN.points n
    let xs : List XVal := (List.range 64).map (fun i => if mask.getLsbD i then s.lf lt x i else .fin false 0 0)
    .done (s.wrLanesF h d m 6 (fun i r =>
      (ltFmt lt).fin m r (hadamardAt m (if nrm then HadN.exp n else 0) ((xs.drop (i / p * p)).take p) (i % p)))))

end Machine
end Sys2Proof
end

