-- ==== Sys2Proof/Machine/Cb.lean ====
section
/-! DEFINITION. Codebooks (09): the directory, stamps, the versions a core holds, decoding and the search. -/

namespace Sys2Proof
namespace Machine

/-! ## The directory (R197-R203) -/

/-- The index width of an arithmetic cbid (R201). -/
def arithW (cbid : Nat) : Nat := [32, 16, 16, 8, 8, 6, 6, 4, 8, 4].getD cbid 0

/-- An entry's fields as the part takes them: cbids 0-9 are arithmetic and 10-15 free, whatever the entry holds. -/
def Dir.parse (cbid : Nat) (b : List Byte) : Dir :=
  if cbid < 10 then { kind := 3, w := arithW cbid }
  else if cbid < 16 then {}
  else
    let k := field b 0 1
    { kind := if k == 1 || k == 2 then k else 0, d := field b 1 1, w := field b 2 1, comp := field b 3 1, count := field b 4 2
      current := field b 6 1, floor := field b 7 1, emax := sval 16 (field b 8 2), slots := field b 10 1
      archive := field b 0x10 8, vstride := field b 0x18 4, revs := field b 0x1C 4 }

def State.dirVa (s : State) (asid cbid : Nat) : Nat := s.cbdir asid + 64 * cbid
/-- The entry of a cbid, read as a COH load of the part. -/
def State.dirRead (s : State) (core asid cbid : Nat) : State × Except TrapInfo Dir :=
  if cbid < 16 then (s, .ok (Dir.parse cbid []))
  else
    let (s, r) := s.supRd core asid kCohRd (s.dirVa asid cbid) 64
    (s, match r with | .ok b => .ok (Dir.parse cbid b) | .error t => .error t)

/-- Is a stamp in the window (R203)? -/
def Dir.valid (d : Dir) (v : Nat) : Bool := (v + 256 - d.floor) % 256 ≤ (d.current + 256 - d.floor) % 256

/-- STALECB (R206). -/
def staleCb (reason cbid stamp : Nat) (addr : Word) : TrapInfo :=
  { cause := cSTALECB, aux := BitVec.ofNat 64 (reason * 2 ^ 20 + cbid * 2 ^ 8 + stamp), addr := addr }
/-- CheckLearned (R217). -/
def Dir.checkLearned (d : Dir) (cbid v : Nat) (addr : Word) : Option TrapInfo :=
  if d.kind == 0 then some (staleCb 2 cbid 0 addr)
  else if d.kind == 3 then some (staleCb 3 cbid 0 addr)
  else if !d.valid v then some (staleCb 1 cbid v addr)
  else none

/-- The VA of a version's archive record (R202). -/
def Dir.record (d : Dir) (v : Nat) : Nat := d.archive + v * d.vstride
/-- Bytes of a version's payload, and the slots it takes (R207). -/
def Dir.bytes (d : Dir) : Nat := d.count * d.d * 2
def Dir.k (d : Dir) : Nat := max 1 (cdiv d.bytes 16384)

/-! ## Decoding (R198) -/

/-- A component of 16 bits. -/
def compFmt (comp : Nat) : FpFmt := if comp == 2 then bf16 else fp16
/-- The payload's components. -/
def halves : List Byte → List (BitVec 16)
  | a :: b :: r => (b ++ a) :: halves r
  | _ => []
/-- The components of index i. -/
def Dir.codeword (d : Dir) (data : List (BitVec 16)) (i : Nat) : List XVal :=
  let f := compFmt d.comp
  if d.kind == 2 then
    (List.range 8).map (fun k =>
      let r := f.read (data.getD (i % 256 * 8 + k) 0).toNat
      if i.testBit (8 + k) then r.neg else r)
  else if d.count ≤ i then List.replicate d.d (.nan false)
  else (List.range d.d).map (fun k => f.read (data.getD (i * d.d + k) 0).toNat)

/-- A value under a block scale (07 R166, R167). -/
def XVal.under (x : XVal) (b : Nat) : XVal := if b == 255 then .nan false else x.scale ((b : Int) - 127)

/-- emax of a payload: floor(log2 of the largest component magnitude); for a payload of zeros it is free (log 35). -/
def emaxOf (comp : Nat) (data : List (BitVec 16)) : Int :=
  let f := compFmt comp
  let m := data.foldl (fun m x => max m (x.toNat % f.signBit)) 0
  match f.read m with
  | .fin _ m e => if m == 0 then (Config.emaxOfZero comp).toInt else xlog2 m e
  | _ => 0

/-! ## Encoding (07 R168; 09 R210-R212) -/

/-- Is any value of a block a NaN or an infinity? -/
def anySpecial (xs : List XVal) : Bool := xs.any (fun x => x.isNan || x.isInf)

/-- The scale byte of a block in scale mode 1. -/
def blockScale (emax : Int) (xs : List XVal) : Nat :=
  if anySpecial xs then 255
  else
    let mx := xs.foldl (fun m x => if XVal.cmp m x.abs == .lt then x.abs else m) (XVal.fin false 0 0)
    match mx with
    | .fin _ m e => if m == 0 then 0 else (max (-127) (min 127 (xlog2 m e - emax)) + 127).toNat
    | _ => 255

/-- The exact squared distance of two vectors. -/
def sqDist (xs cs : List XVal) : XVal :=
  (xsum .rne ((xs.zip cs).map (fun (x, c) => let d := (xadd .rne x c.neg).v; (xmul d d).v))).v

/-- The number of the least distance, ties to the lowest. -/
def nearest (xs : List XVal) (code : Nat → List XVal) (n : Nat) : Nat :=
  ((List.range n).foldl (fun (b : Option (Nat × XVal)) i =>
    let d := sqDist xs (code i)
    match b with
    | none => some (i, d)
    | some (_, e) => if XVal.cmp d e == .lt then some (i, d) else b) none).elim 0 (·.1)

/-- The search for a scaled vector (R210, R211). -/
def Dir.search (d : Dir) (data : List (BitVec 16)) (xs : List XVal) : Nat :=
  if anySpecial xs then 0
  else if d.kind == 2 then
    let q := nearest (xs.map XVal.abs) (fun i => d.codeword data i) 256
    let signs := xs.zipIdx.foldl (fun n (x, k) => if x.isNeg && !x.isZero then n + 2 ^ k else n) 0
    q + 256 * signs
  else nearest xs (fun i => d.codeword data i) d.count

/-! ## Residency (R207-R209) -/

/-- The first slot of a version on a core. -/
def Core.resident (c : Core) (cbid stamp : Nat) : Option Nat :=
  (List.range 16).find? (fun i => match c.slot.toList[i]? with
    | some t => t.first && t.cbid == some (BitVec.ofNat 12 cbid) && t.stamp.toNat == stamp
    | none => false)
def Core.slotAt (c : Core) (i : Nat) : Slot := c.slot.toList.getD i {}
def Core.setSlot (c : Core) (i : Nat) (t : Slot) : Core := if h : i < 16 then { c with slot := c.slot.set i t } else c
/-- The payload of the version in a first slot. -/
def Core.payload (c : Core) (i : Nat) : List (BitVec 16) := (c.slotAt i).data
/-- A use of a version. -/
def Core.touchSlot (c : Core) (i : Nat) : Core :=
  { (c.setSlot i { c.slotAt i with used := c.useClock }) with useClock := c.useClock + 1 }
/-- Drop the version whose first slot this is. -/
def Core.dropSlot (c : Core) (i : Nat) : Core := (List.range (max 1 (c.slotAt i).k)).foldl (fun c j => c.setSlot (i + j) {}) c
/-- The first slot of the version that holds a slot. -/
def Core.headOf (c : Core) (i : Nat) : Nat :=
  ((List.range (i + 1)).reverse.find? (fun j => (c.slotAt j).first)).getD i

/-- First slots in use by commands in flight (R208): those they use, those of the versions they wait to use. -/
def State.busySlots (s : State) (core : Nat) : List Nat :=
  let c := s.core core
  let held (l : List (Nat × Nat × Dir)) : List Nat := l.filterMap (fun (b, v, _) => c.resident b v)
  c.erun.toList.flatMap (fun e => e.slots ++ held e.need) ++
  (c.crLd.toList ++ c.crSt.toList).flatMap (fun e => e.slots ++ held e.need.toList) ++
  (List.range 4).flatMap (fun k =>
    let x := s.strand (4 * core + k)
    x.cbs.filterMap (fun r => c.resident r.cbid r.stamp) ++
    x.ops.filterMap (fun o => match o.cls with | .codebook (i + 1) => some i | _ => none))

/-- The slots for k consecutive ones: free ones first, else those used least recently that are neither pinned nor in use; `keep` are
first slots that the same command needs. -/
def State.chooseSlots (s : State) (core plan k : Nat) (keep : List Nat) : Option Nat :=
  let c := s.core core
  let busy := keep ++ s.busySlots core
  let taken (i : Nat) : Bool := c.miss.any (fun m => m.slot ≤ i && i < m.slot + m.k)
  let groups := (List.range 16).filter (fun i => i % k == 0 && i + k ≤ plan)
  let members (i : Nat) : List Nat := (List.range k).map (i + ·)
  match groups.find? (fun i => (members i).all (fun j => (c.slotAt j).cbid.isNone && !taken j)) with
  | some i => some i
  | none =>
    let ok := groups.filter (fun i => (members i).all (fun j =>
      !taken j && ((c.slotAt j).cbid.isNone || (!(c.slotAt (c.headOf j)).pinned && !busy.contains (c.headOf j)))))
    let age (i : Nat) : Nat := (members i).foldl (fun a j => max a (c.slotAt (c.headOf j)).used) 0
    (ok.foldl (fun (b : Option Nat) i => match b with
      | none => some i
      | some j => if age i < age j then some i else b) none)

/-- The launch's codebook slots on a core. -/
def State.planSlots (s : State) (core : Nat) : Nat :=
  (((s.core core).team.bind s.team).bind (fun t => s.launch t.launch)).elim 0 Launch.cbslots

/-- What a need of a version finds: the version resident, a miss to wait for, or no slot to be had. -/
inductive Need where
  | have' (slot : Nat) | miss | noSlot
  deriving DecidableEq, Repr

/-- Ask for a version on a core: a miss is started where none is in progress. -/
def State.needVersion (s : State) (core cbid stamp : Nat) (d : Dir) (keep : List Nat := []) : State × Need :=
  let c := s.core core
  match c.resident cbid stamp with
  | some i => (s.modCore core (fun c => c.touchSlot i), .have' i)
  | none =>
    if c.miss.any (fun m => m.cbid.toNat == cbid && m.stamp.toNat == stamp) then (s, .miss)
    else match s.chooseSlots core (s.planSlots core) d.k keep with
      | none => (s, .noSlot)
      | some i =>
        let m : VMiss := { cbid := BitVec.ofNat 12 cbid, stamp := BitVec.ofNat 8 stamp, slot := i, k := d.k, start := s.cycle }
        let drop (c : Core) : Core := (List.range d.k).foldl (fun c j =>
          if (c.slotAt (i + j)).cbid.isSome then c.dropSlot (c.headOf (i + j)) else c) c
        (s.modCore core (fun c => { (drop c) with miss := c.miss ++ [m] }), .miss)

/-- Fill the slots of a miss. -/
def Core.fillMiss (c : Core) (m : VMiss) (data : List (BitVec 16)) : Core :=
  let c := (List.range m.k).foldl (fun c j => c.setSlot (m.slot + j)
    { cbid := some m.cbid, stamp := m.stamp, first := j == 0, k := m.k, data := if j == 0 then data else [], used := c.useClock }) c
  { c with miss := c.miss.filter (fun x => x ≠ m), useClock := c.useClock + 1 }

end Machine
end Sys2Proof
end

