-- ==== Sys2Proof/Machine/Codebook.lean ====
section
/-! DEFINITION. The codebook instructions and the events of version misses (09 R208, R215-R223). -/

namespace Sys2Proof
namespace Machine

/-- A codebook result: known at issue, it arrives later; `slot` is the version in use until then. -/
def State.cbResult (s : State) (d : Reg) (v : RVal) (fl : Flags) (slot : Option Nat) : State :=
  (s.block s.cur (.codebook ((slot.map (· + 1)).getD 0)) [d] [v] fl true).2

/-- The word at which a strand stands. -/
def State.wordAt (s : State) (sid : Nat) : Word := match State.present { s with cur := sid } with | .word _ w => w | .block => 0

/-- The stamp that a stamp word names (R215). -/
def stampOf (w : Word) (d : Dir) : Nat := if w.getLsbD 8 then d.current else slc w 7 0

/-- A codebook word: a strand's codebook words take effect in issue order (R223), so one waits while an earlier one does; its directory
entry is read, then its work. -/
def cbWord (h : Hdr) (rd wr : List Reg) (cbid : State → Nat) (body : State → Dir → Eff) : Meaning :=
  issue h { rd := rd, wr := wr } (fun s =>
    if !s.st.cbs.isEmpty then .wait s .result
    else
      let (s, r) := s.dirRead s.cc (s.asidOf s.cur) (cbid s)
      match r with
      | .error t => .trap s t
      | .ok d => body s d)

/-- The status word (R216). -/
def cbStatus (code v : Nat) : Word := BitVec.ofNat 64 ((if code == 0 then 0 else 2 ^ 63) + code * 256 + v)

/-- The lanes of a vector listed. -/
def vecOfList (l : List Nat) : Vec := vecOf (fun i => BitVec.ofNat 32 (l.getD i 0))
/-- The format of an arithmetic cbid. -/
def arithFmt (cbid : Nat) : Fmt := (Fmt.dec (BitVec.ofNat 4 cbid)).getD .fp32
/-- The blocks of 32 lanes with their scale bytes. -/
def laneScales (sc : Bool) (emax : Int) (xs : List XVal) : List Nat :=
  if sc then [blockScale emax (xs.take 32), blockScale emax (xs.drop 32)] else [127, 127]
/-- A lane's value with its block's scale taken off. -/
def XVal.over (x : XVal) (b : Nat) : XVal := x.scale (127 - (b : Int))

/-- The indices of a learned encode. -/
def Dir.encLanes (d : Dir) (data : List (BitVec 16)) (sc : Bool) (xs : List XVal) : List Nat :=
  let bs := laneScales sc (emaxOf d.comp data) xs
  (List.range (64 / max 1 d.d)).map (fun j =>
    let b := bs.getD (j * d.d / 32) 127
    let v := ((xs.drop (j * d.d)).take d.d).map (fun x => x.over b)
    (if b == 255 then 0 else d.search data v) + (if sc then b * 65536 else 0))
/-- Round decoded values to FP32 lanes, one draw a lane in mode SR; only a rounding raises flags. -/
def decLanes (m : RMode) (g : Word) (xs : List XVal) : List Nat × Flags × Word :=
  xs.foldl (fun (out, fl, g) x =>
    let (r, g) := drawIf m g
    let (v, e) := Machine.fp32.round m r (if x.isNan then .nan false else x)
    (out ++ [v], fl ||| e, g)) ([], 0, g)

/-! ## Words that need a version (R208, R217, R220, R221) -/

/-- Pin or unpin the version in a first slot. -/
def Core.pin (c : Core) (i : Nat) (p : Bool) : Core :=
  (List.range (max 1 (c.slotAt i).k)).foldl (fun c j => c.setSlot (i + j) { c.slotAt (i + j) with pinned := p }) c

/-- The register that a codebook word writes. -/
def codeDst : Instr → List Reg
  | .cbld _ d .. | .cbpin _ d .. => [rS d]
  | .cbenc _ _ d .. | .cbdec _ _ d .. => [rV d]
  | _ => []

/-- The value and the flags of a codebook word whose version's payload is at hand. -/
def CbReq.value (r : CbReq) (data : List (BitVec 16)) : RVal × Flags :=
  match r.instr with
  | .cbenc _ sc .. =>
    (.v (vecOfList (r.dir.encLanes data sc (r.vec.toList.map (fun x => Machine.fp32.read x.toNat)))), 0)
  | .cbdec _ sc .. =>
    let (l, fl, _) := decLanes r.rm r.gen ((r.vec.toList.take (64 / max 1 r.dir.d)).flatMap (fun x =>
      (r.dir.codeword data (x.toNat % 2 ^ r.dir.w)).map (fun c => c.under (if sc then x.toNat / 65536 % 256 else 127))))
    (.v (vecOfList l), fl)
  | _ => (.w (BitVec.ofNat 64 r.stamp), 0)

/-- A codebook word has its version in the slots from `i`: its effect on the core, and its result, which arrives later; an encode or a
decode has the slots in use until then. -/
def State.cbFinish (s : State) (sid : Nat) (r : CbReq) (i : Nat) : State :=
  let core := coreOf sid
  let (v, fl) := r.value ((s.core core).payload i)
  let s := match r.instr with | .cbpin .. => s.modCore core (fun c => c.pin i true) | _ => s
  let cls : OpClass := match r.instr with | .cbenc .. | .cbdec .. => .codebook (i + 1) | _ => .codebook 0
  s.modStrand sid (fun x => { x with
    cbs := x.cbs.filter (fun q => q.id ≠ r.id)
    ops := x.ops.map (fun o => if o.id == r.id then { o with cls := cls, vals := [v], flags := fl, done := true } else o) })

/-- Does a fill into the slots' bank delay a read of them? Only where the turn says so, while a version comes to the core (R209). -/
def State.slotLate (s : State) (r : CbReq) : Bool :=
  s.late && !s.co.miss.isEmpty && (match r.instr with | .cbenc .. | .cbdec .. => true | _ => false)

/-- A codebook word of the current strand that needs a version issues: it has its version, or waits for it with its result awaited. None
where no slots can be had. -/
def State.cbIssue (s : State) (r : CbReq) : Option State :=
  let (s, n) := s.needVersion s.cc r.cbid r.stamp r.dir
  let go (s : State) (r : CbReq) : State × CbReq :=
    let (id, s) := s.block s.cur (.codebook 0) (codeDst r.instr) [] 0 false
    (s.modSt (fun x => { x with cbs := x.cbs ++ [{ r with id := id }] }), { r with id := id })
  match n with
  | .noSlot => none
  | .miss => some (go s r).1
  | .have' i =>
    if s.slotLate r then some (go s { r with late := true }).1
    else let (s, r) := go s r; some (s.cbFinish s.cur r i)

/-- The same as what a word does. -/
def cbVersion (s : State) (r : CbReq) : Eff :=
  match s.cbIssue r with
  | some s => .done s
  | none => .trap s (illencAt s 7)

/-- What a codebook word captures when it issues, its stamp in place of cur (18 R375). -/
def State.cbReq (s : State) (i : Instr) (cbid v : Nat) (d : Dir) (data : Word) : CbReq :=
  { instr := i, word := s.wordAt s.cur, pc := s.st.pc, cbid := cbid, stamp := v, dir := d, data := data, rm := s.rmode, gen := s.st.srstate }
/-- A stamp word, and an operand word, that name a stamp outright. -/
def stampWord (w : Word) (v : Nat) : Word := (w &&& ~~~(0x1FF : Word)) ||| BitVec.ofNat 64 v
def operandWord (w : Word) (v : Nat) : Word := (w &&& ~~~(0x1FF000 : Word)) ||| BitVec.ofNat 64 (v * 2 ^ 12)

def execCbld (h : Hdr) (d a : SReg) (cbid : BitVec 12) : Meaning :=
  cbWord h [rS a] [rS d] (fun _ => cbid.toNat) (fun s dir =>
    let v := stampOf (s.sr a) dir
    match dir.checkLearned cbid.toNat v 0 with
    | some t => .trap s t
    | none => cbVersion s (s.cbReq (.cbld h d a cbid) cbid.toNat v dir (stampWord (s.sr a) v)))

/-- Slots of the pinned versions of a core. -/
def Core.pinnedSlots (c : Core) : Nat := (c.slot.toList.filter (·.pinned)).length
def execCbpin (h : Hdr) (d a : SReg) (cbid : BitVec 12) : Meaning :=
  cbWord h [rS a] [rS d] (fun _ => cbid.toNat) (fun s dir =>
    let v := stampOf (s.sr a) dir
    match dir.checkLearned cbid.toNat v 0 with
    | some t => .trap s t
    | none =>
      let fin (s : State) (code : Nat) : Eff := .done (s.cbResult (rS d) (.w (cbStatus code v)) 0 none)
      let held := s.co.resident cbid.toNat v
      let pinned := match held with | some i => (s.co.slotAt i).pinned | none => false
      if (s.sr a).getLsbD 9 then
        match held with
        | some i => fin (s.modCore s.cc (fun c => c.pin i false)) 0
        | none => fin s 0
      else if pinned then fin s 0
      else if s.planSlots s.cc < s.co.pinnedSlots + dir.k then fin s 2
      else cbVersion s (s.cbReq (.cbpin h d a cbid) cbid.toNat v dir (stampWord (s.sr a) v)))

/-- emax of a valid version: the entry's for the current one, else its archive record's. -/
def State.versionEmax (s : State) (dir : Dir) (v : Nat) : State × Except TrapInfo Nat :=
  if dir.kind == 3 || !dir.valid v then (s, .ok 0)
  else if v == dir.current then (s, .ok (dir.emax % 65536).toNat)
  else
    let (s, r) := s.supRd s.cc (s.asidOf s.cur) kCohRd (dir.record v + 2) 2
    (s, match r with | .ok b => .ok (leNat b) | .error t => .error t)
def execCbstat (h : Hdr) (d a : SReg) (cbid : BitVec 12) : Meaning :=
  cbWord h [rS a] [rS d] (fun _ => cbid.toNat) (fun s dir =>
    let v := stampOf (s.sr a) dir
    if dir.kind == 0 then .trap s (staleCb 2 cbid.toNat 0 0)
    else
      let (s, em) := s.versionEmax dir v
      match em with
      | .error t => .trap s t
      | .ok em =>
        let held := s.co.resident cbid.toNat v
        let ok := if dir.kind == 3 then v == 0 else dir.valid v
        let pinned := match held with | some i => (s.co.slotAt i).pinned | none => false
        .done (s.cbResult (rS d) (.w (BitVec.ofNat 64 (em * 2 ^ 48 + dir.kind * 2 ^ 40 + held.getD 0 * 2 ^ 36 +
          b2n pinned * 2 ^ 26 + b2n held.isSome * 2 ^ 25 + b2n ok * 2 ^ 24 + v * 2 ^ 16 + dir.floor * 256 + dir.current))) 0 none))

/-- The payload checks of the loader (01 R21). -/
def badPayload (kind comp : Nat) (data : List (BitVec 16)) : Bool :=
  let f := compFmt comp
  data.any (fun x => match f.read x.toNat with | .fin .. => false | _ => true) ||
  (kind == 2 && data.any (fun x => f.signBit ≤ x.toNat)) || data.all (fun x => x.toNat % f.signBit == 0)

/-- An archive record (R202). -/
def recordBytes (v : Nat) (em : Int) (payload : List Byte) : List Byte :=
  leBytes 1 v ++ [1] ++ leBytes 2 (em % 65536).toNat ++ zeros 4 ++ leBytes 8 payload.length ++ zeros 48 ++ payload

/-- Read bytes as a load of the strand. -/
def State.loadRun (s : State) (sid va n : Nat) : State × Except TrapInfo (List Byte) :=
  let (s, r) := s.checkRuns (s.whoOf sid) {} (runsOf va n)
  match r with
  | .error t => (s, .error t)
  | .ok ps => s.doRd (s.whoOf sid) {} .package false va ps

/-- Write the version after current: archive record, then the directory entry. -/
def State.writeVersion (s : State) (cbid n : Nat) (dir : Dir) (payload : List Byte) : State × Option TrapInfo :=
  let asid := s.asidOf s.cur
  let em := emaxOf dir.comp (halves payload)
  let (s, e) := s.supWr s.cc asid kCohWr (dir.record n) (recordBytes n em payload)
  match e with
  | some t => (s, some t)
  | none =>
    let va := s.dirVa asid cbid
    let (s, e1) := s.supWr s.cc asid kCohWr (va + 6) (leBytes 1 n)
    let (s, e2) := s.supWr s.cc asid kCohWr (va + 8) (leBytes 2 (em % 65536).toNat)
    let (s, e3) := s.supWr s.cc asid kCohWr (va + 0x1C) (leBytes 4 (dir.revs + 1))
    (s, e1.orElse (fun _ => e2.orElse (fun _ => e3)))

def execCbrev (h : Hdr) (d a : SReg) (cbid : BitVec 12) : Meaning :=
  issue h { rd := [rS a], wr := [rS d] } (fun s =>
    let va := (s.sr a).toNat
    if va % 8 ≠ 0 then .trap s (alignTrap {} 3 va)
    else if !s.performed s.cur || !s.st.cbs.isEmpty then .wait s .result
    else
      let s := s.releaseAt s.cur .package
      let (s, r) := s.dirRead s.cc (s.asidOf s.cur) cbid.toNat
      match r with
      | .error t => .trap s t
      | .ok dir =>
        match dir.checkLearned cbid.toNat dir.current 0 with
        | some t => .trap s t
        | none =>
          let n := (dir.current + 1) % 256
          if (n + 256 - dir.floor) % 256 == 255 then
            .trap s { cause := cCBWIN, aux := BitVec.ofNat 64 (cbid.toNat * 256 + dir.current) }
          else
            let (s, p) := s.loadRun s.cur va dir.bytes
            match p with
            | .error t => .trap s t
            | .ok payload =>
              if badPayload dir.kind dir.comp (halves payload) then .done (s.cbResult (rS d) (.w (cbStatus 1 n)) 0 none)
              else
                let (s, e) := s.writeVersion cbid.toNat n dir payload
                match e with
                | some t => .trap s t
                | none => .done (s.cbResult (rS d) (.w (cbStatus 0 n)) 0 none))

/-- The cores that run a context. -/
def State.coresOf (s : State) (asid : Nat) : List Nat :=
  s.cores.filterMap (fun (i, c) =>
    match (c.team.bind s.team).bind (fun t => s.launch t.launch) with
    | some l => if l.asid == asid then some i else none
    | none => none)
/-- Is a stamp one of lo to hi - 1, modulo 256: those that a floor moved from `lo` to `hi` retires? -/
def stampIn (lo hi v : Nat) : Bool := (v + 256 - lo) % 256 < (hi + 256 - lo) % 256
/-- First slots of a core that hold retired versions. -/
def Core.retired (c : Core) (cbid lo hi : Nat) : List Nat :=
  (List.range 16).filter (fun i =>
    let t := c.slotAt i
    t.first && t.cbid == some (BitVec.ofNat 12 cbid) && stampIn lo hi t.stamp.toNat)
/-- Drop the residency and the pin of every retired version that no command in flight uses, on every core of the context. -/
def State.dropRetired (s : State) (asid cbid lo hi : Nat) : State :=
  (s.coresOf asid).foldl (fun (s : State) c =>
    let busy := s.busySlots c
    s.modCore c (fun k => ((k.retired cbid lo hi).filter (fun i => !busy.contains i)).foldl Core.dropSlot k)) s
/-- Does a core still hold a retired version, or wait for one? -/
def State.holdsRetired (s : State) (asid cbid lo hi : Nat) : Bool :=
  (s.coresOf asid).any (fun c =>
    !((s.core c).retired cbid lo hi).isEmpty || (s.core c).miss.any (fun m => m.cbid.toNat == cbid && stampIn lo hi m.stamp.toNat))
/-- CBFLOOR: the floor moves at once; the result waits until no core holds a retired version (R219, R223). -/
def execCbfloor (h : Hdr) (d a : SReg) (cbid : BitVec 12) : Meaning :=
  cbWord h [rS a] [rS d] (fun _ => cbid.toNat) (fun s dir =>
    let f := slc (s.sr a) 7 0
    match dir.checkLearned cbid.toNat f 0 with
    | some t => .trap s t
    | none =>
      let (s, e) := s.supWr s.cc (s.asidOf s.cur) kCohWr (s.dirVa (s.asidOf s.cur) cbid.toNat + 7) (leBytes 1 f)
      match e with
      | some t => .trap s t
      | none =>
        let s := s.dropRetired (s.asidOf s.cur) cbid.toNat dir.floor f
        .done (s.block s.cur (.floor cbid.toNat dir.floor f) [rS d] [.w (cbStatus 0 f)] 0 false).2)
/-- The result of a CBFLOOR arrives once nothing is left of what it retired. -/
def State.floorArrives (s : State) (sid id cbid lo hi : Nat) : State :=
  let s := s.dropRetired (s.asidOf sid) cbid lo hi
  if s.holdsRetired (s.asidOf sid) cbid lo hi then s else s.deliver sid id

/-! ## CBENC and CBDEC (R220, R221) -/

/-- The lanes of an arithmetic encode: one draw a lane in mode SR; under scale 0xFF every element is encoding 0. -/
def arithEnc (f : Fmt) (signed sc : Bool) (m : RMode) (g : Word) (xs : List XVal) : List Nat × Flags × Word :=
  let bs := laneScales sc (elemEmax f signed) xs
  xs.zipIdx.foldl (fun (out, fl, g) (x, i) =>
    let b := bs.getD (i / 32) 127
    let (r, g) := drawIf m g
    let (v, e) := if b == 255 then (0, (0 : Flags)) else elemRound f signed m r (x.over b)
    (out ++ [v + (if sc then b * 65536 else 0)], fl ||| e, g)) ([], 0, g)

def execCbenc (h : Hdr) (sc : Bool) (d a : VReg) (b : SReg) : Meaning :=
  cbWord h [rV a, rS b] [rV d] (fun s => slc (s.sr b) 11 0) (fun s dir =>
    let w := s.sr b
    let cbid := slc w 11 0
    let v := if w.getLsbD 20 then dir.current else slc w 19 12
    let xs := (s.vr a).toList.map (fun x => Machine.fp32.read x.toNat)
    if dir.kind == 3 then
      if cbid == 0 then
        .done (s.cbResult (rV d) (.v (vecOf (fun i => let x := xs.getD i (.fin false 0 0)
          if x.isNan then BitVec.ofNat 32 Machine.fp32.nanBits else lane (s.vr a) i))) (sigFlag xs) none)
      else
        let m := s.rmode
        let (l, fl, g) := arithEnc (arithFmt cbid) (w.getLsbD 21) sc m s.st.srstate xs
        .done ((s.modSt (fun x => { x with srstate := g })).cbResult (rV d) (.v (vecOfList l)) fl none)
    else match dir.checkLearned cbid v 0 with
    | some t => .trap s t
    | none => cbVersion s { s.cbReq (.cbenc h sc d a b) cbid v dir (operandWord w v) with vec := s.vr a })

def execCbdec (h : Hdr) (sc : Bool) (d a : VReg) (b : SReg) : Meaning :=
  cbWord h [rV a, rS b] [rV d] (fun s => slc (s.sr b) 11 0) (fun s dir =>
    let w := s.sr b
    let cbid := slc w 11 0
    let v := if w.getLsbD 20 then dir.current else slc w 19 12
    let idx := (s.vr a).toList.map (·.toNat)
    let scale (x : Nat) : Nat := if sc then x / 65536 % 256 else 127
    if dir.kind == 3 then
      if cbid == 0 then
        .done (s.cbResult (rV d) (.v (vecOf (fun i => let x := lane (s.vr a) i
          if (Machine.fp32.read x.toNat).isNan then BitVec.ofNat 32 Machine.fp32.nanBits else x))) 0 none)
      else
        let (l, fl, g) := decLanes s.rmode s.st.srstate
          (idx.map (fun x => (elemValue (arithFmt cbid) (w.getLsbD 21) (x % 2 ^ dir.w)).under (scale x)))
        .done ((s.modSt (fun x => { x with srstate := g })).cbResult (rV d) (.v (vecOfList l)) fl none)
    else match dir.checkLearned cbid v 0 with
    | some t => .trap s t
    | none =>
      let r := { s.cbReq (.cbdec h sc d a b) cbid v dir (operandWord w v) with vec := s.vr a }
      -- the draws of its lanes are made at issue (07 R164)
      let g := (List.range 64).foldl (fun g _ => (drawIf s.rmode g).2) s.st.srstate
      match cbVersion s r with
      | .done s => .done (s.modSt (fun x => { x with srstate := g }))
      | e => e)

/-! ## Version misses (R208) -/

/-- The miss that an event names. -/
def State.evMiss (s : State) : Option (Nat × VMiss) :=
  match s.ev with
  | .version core cbid stamp => ((s.core core).miss.find? (fun m => m.cbid == cbid && m.stamp == stamp)).map (fun m => (core, m))
  | _ => none

/-- A version is resident on a core: the codebook words of its strands that wait for it have it. -/
def State.cbArrived (s : State) (core : Nat) (m : VMiss) : State :=
  match (s.core core).resident m.cbid.toNat m.stamp.toNat with
  | none => s
  | some i => (List.range 4).foldl (fun (s : State) k =>
    ((s.strand (4 * core + k)).cbs.filter (fun r => !r.late && r.cbid == m.cbid.toNat && r.stamp == m.stamp.toNat)).foldl
      (fun (s : State) r => s.cbFinish (4 * core + k) r i) s) s
/-- The archive has answered: the slots are filled, and a monitor event 0x0031 is sampled (11 R273, log 20). -/
def execVersionMissComplete : Meaning := fun s =>
  match s.evMiss with
  | none => out s
  | some (core, m) =>
    let asid := (((s.core core).team.bind s.team).bind (fun t => s.launch t.launch)).elim 0 (·.asid)
    let (s, r) := s.dirRead core asid m.cbid.toNat
    match r with
    | .error _ => out s
    | .ok d =>
      let (s, p) := s.supRd core asid kCohRd (d.record m.stamp.toNat + 64) d.bytes
      match p with
      | .error _ => out s
      | .ok bs => out (((s.setMs (monTimed s.ms (dieOf core) 0x0031 asid 0)).modCore core (fun c => c.fillMiss m (halves bs))).cbArrived core m)

/-- MEMTO of a word that takes no tag (18 R368). -/
def memtoWord (w : Word) : TrapInfo := { cause := cMEMTO, aux := BitVec.ofNat 64 (fOpc w).toNat }

/-- A codebook word that waits fails: it is entered in the replay queue as a queued request is (12 R294). -/
def State.cbFail (s : State) (sid : Nat) (r : CbReq) (t : TrapInfo) : State :=
  (s.modStrand sid (fun x => { x with cbs := x.cbs.filter (fun q => q.id ≠ r.id) })).deferTrap sid (.code r) t
/-- The archive has not answered in time: the slots stay empty, and the codebook words that wait fail with MEMTO. -/
def State.missTimeout (s : State) (core : Nat) (m : VMiss) : State :=
  let s := s.modCore core (fun c => { c with miss := c.miss.filter (fun x => x ≠ m) })
  (List.range 4).foldl (fun (s : State) k =>
    ((s.strand (4 * core + k)).cbs.filter (fun r => !r.late && r.cbid == m.cbid.toNat && r.stamp == m.stamp.toNat)).foldl
      (fun (s : State) r => s.cbFail (4 * core + k) r (memtoWord r.word)) s) s

end Machine
end Sys2Proof
end

