-- ==== Sys2Proof/Machine/Engine.lean ====
section
/-! DEFINITION. The matrix engine's state and its arithmetic (10 R224-R243): tiles, tags, accumulators, elements, and each command's
effect on its core. -/

namespace Sys2Proof
namespace Machine

/-! ## Runs of sparse cells -/

/-- Merge cells in rising order into a sparse map; cells equal to the default are removed. -/
def Sparse.merge {α : Type} [DecidableEq α] (d : α) : (fuel : Nat) → Sparse α → Sparse α → Sparse α
  | 0, _, _ => []
  | _ + 1, m, [] => m
  | f + 1, [], (k, v) :: u => if v = d then Sparse.merge d f [] u else (k, v) :: Sparse.merge d f [] u
  | f + 1, (i, x) :: m, (k, v) :: u =>
    if i < k then (i, x) :: Sparse.merge d f m ((k, v) :: u)
    else if i = k then Sparse.merge d f m ((k, v) :: u)
    else if v = d then Sparse.merge d f ((i, x) :: m) u else (k, v) :: Sparse.merge d f ((i, x) :: m) u
/-- Are the cells in rising order? -/
def Sparse.rising {α : Type} : Sparse α → Bool
  | (i, _) :: (j, y) :: r => decide (i < j) && Sparse.rising ((j, y) :: r)
  | _ => true
/-- Write cells, the later ones last; in rising order they are merged in one pass. -/
def Sparse.setMany {α : Type} [DecidableEq α] (m : Sparse α) (d : α) (u : Sparse α) : Sparse α :=
  if Sparse.wf m d && Sparse.rising u then Sparse.merge d (m.length + u.length + 1) m u
  else u.foldl (fun m e => Sparse.set m d e.1 e.2) m

/-! ## Tags (R225) -/

/-- FP32 with no scaling. -/
def tagFp32 : Word := 0x7F7F7F7F00000000
def tagFmt (g : Word) : Nat := slc g 3 0
def tagSigned (g : Word) : Bool := g.getLsbD 4
def tagHad (g : Word) : Bool := g.getLsbD 5
def tagCbid (g : Word) : Nat := slc g 19 8
def tagStamp (g : Word) : Nat := slc g 27 20
def tagScale (g : Word) (i : Nat) : Nat := (g.toNat >>> (32 + 8 * i)) % 256
def mkTag (fmt : Nat) (signed had : Bool) (cbid stamp : Nat) (scales : List Nat) : Word :=
  BitVec.ofNat 64 (fmt + b2n signed * 16 + b2n had * 32 + cbid * 256 + stamp * 2 ^ 20 +
    (scales.zipIdx.foldl (fun n (b, i) => n + b * 2 ^ (32 + 8 * i)) 0))

def Core.tagAt (c : Core) (t row : Nat) : Word := Sparse.get c.tag tagFp32 (t * 128 + row)
def Core.setTag (c : Core) (t row : Nat) (g : Word) : Core := { c with tag := Sparse.set c.tag tagFp32 (t * 128 + row) g }
/-- Set the tags of rows. -/
def Core.setTags (c : Core) (t : Nat) (rows : List Nat) (g : Nat → Word) : Core :=
  rows.foldl (fun c r => c.setTag t r (g r)) c

/-- Well formed but for the directory. -/
def tagOk (g : Word) : Bool :=
  slc g 31 28 == 0 && slc g 7 6 == 0 && tagFmt g < 12 &&
    (if tagFmt g < 10 then tagCbid g == tagFmt g && tagStamp g == 0 else 16 ≤ tagCbid g)
/-- Is a tag well formed (R225)? -/
def State.tagWf (s : State) (core asid : Nat) (g : Word) : State × Bool :=
  if !tagOk g then (s, false)
  else if tagFmt g < 10 then (s, true)
  else
    let (s, r) := s.dirRead core asid (tagCbid g)
    (s, match r with | .ok d => d.kind + 9 == tagFmt g | .error _ => false)

/-! ## Cells -/

/-- The cells of a slice of a 128 x 128 plane, in order. -/
def sliceCells (sl : Slice) (idx : Nat) : List Nat :=
  match sl with
  | .whole => List.range 16384
  | .row _ _ => (List.range 128).map (fun j => idx * 128 + j)
  | .col _ _ => (List.range 128).map (fun i => i * 128 + idx)
/-- Cells of a slice for a vector: 64 from position 64 x hi. -/
def halfCells (sl : Slice) (idx : Nat) (hi : Bool) : List Nat := ((sliceCells sl idx).drop (64 * b2n hi)).take 64
/-- The rows whose tags a slice covers. -/
def sliceRows (sl : Slice) (idx : Nat) : List Nat :=
  match sl with
  | .whole => List.range 128 | .row _ _ => [idx] | .col _ _ => []

/-- The cells of one plane, listed for fast reading. -/
def planeOf {α : Type} (m : Sparse α) (n : Nat) : Sparse α :=
  (m.filter (fun e => n * 16384 ≤ e.1 && e.1 < (n + 1) * 16384)).map (fun e => (e.1 - n * 16384, e.2))
/-- Write cells of a plane, given in rising order of cell. -/
def Core.putTile (c : Core) (t : Nat) (u : List (Nat × Lane)) : Core :=
  { c with tile := Sparse.setMany c.tile 0 (u.map (fun e => (t * 16384 + e.1, e.2))) }
def Core.putAcc (c : Core) (a : Nat) (u : List (Nat × Lane)) : Core :=
  { c with acc := Sparse.setMany c.acc 0 (u.map (fun e => (a * 16384 + e.1, e.2))) }
def Core.putRes (c : Core) (a : Nat) (u : List (Nat × BitVec 16)) : Core :=
  { c with res := Sparse.setMany c.res 0 (u.map (fun e => (a * 16384 + e.1, e.2))) }
/-- The cells of a row of a tile. -/
def Core.tileRow (c : Core) (t row : Nat) : List Lane := Sparse.slice c.tile 0 (t * 16384 + row * 128) 128
def Core.accRow (c : Core) (a row : Nat) : List Lane := Sparse.slice c.acc 0 (a * 16384 + row * 128) 128
def Core.resRow (c : Core) (a row : Nat) : List (BitVec 16) := Sparse.slice c.res 0 (a * 16384 + row * 128) 128
/-- The column of a plane. -/
def colOf {α : Type} (rows : List (List α)) (d : α) (j : Nat) : List α := rows.map (fun r => r.getD j d)

/-! ## Versions at hand -/

/-- A version that a command reads: cbid, stamp, entry, payload. -/
structure Book where
  cbid  : Nat
  stamp : Nat
  dir   : Dir
  data  : List (BitVec 16)
  deriving DecidableEq, Repr
abbrev Books := List Book
def Books.find (bs : Books) (cbid stamp : Nat) : Book :=
  (List.find? (fun b => b.cbid == cbid && b.stamp == stamp) bs).getD { cbid := cbid, stamp := stamp, dir := {}, data := [] }

/-! ## Elements (R226) -/

/-- The values of the codewords of one row's indices. -/
def rowCode (b : Book) (cells : List Lane) : List XVal :=
  let d := max 1 b.dir.d
  (List.range (128 / d)).flatMap (fun j => b.dir.codeword b.data ((cells.getD (j * d) 0).toNat % 2 ^ b.dir.w))
/-- The unscaled values of a row. -/
def rowRaw (bs : Books) (g : Word) (signed : Bool) (cells : List Lane) : List XVal :=
  if tagFmt g < 10 then cells.map (fun x => elemValue (arithFmt (tagFmt g)) signed (x.toNat % 2 ^ arithW (tagFmt g)))
  else rowCode (bs.find (tagCbid g) (tagStamp g)) cells
/-- Elem(t, row, ·). -/
def Core.elemRow (c : Core) (bs : Books) (t row : Nat) : List XVal :=
  let g := c.tagAt t row
  (rowRaw bs g (tagSigned g) (c.tileRow t row)).zipIdx.map (fun (x, p) => x.under (tagScale g (p / 32)))

/-- An element of an MMA operand: its value and what chooses its path (R237). -/
structure El where
  v    : XVal
  fp32 : Bool
  int  : Bool
  deriving DecidableEq, Repr
/-- The elements of a row, with the signedness that the word may override. -/
def Core.elRow (c : Core) (bs : Books) (t row : Nat) (ov : Option Bool) : List El :=
  let g := c.tagAt t row
  let isInt := tagFmt g == 8 || tagFmt g == 9
  (rowRaw bs g (ov.getD (tagSigned g)) (c.tileRow t row)).zipIdx.map (fun (x, p) =>
    { v := x.under (tagScale g (p / 32)), fp32 := tagFmt g == 0, int := isInt && tagScale g (p / 32) == 127 })
/-- The operand of an MMA as lines over k: rows, or columns of the rows over k when transposed. -/
def Core.mmaSide (c : Core) (bs : Books) (t : Nat) (tr : Bool) (ov : Option Bool) (lines k : Nat) : List (List El) :=
  let z : El := { v := .fin false 0 0, fp32 := false, int := false }
  if tr then
    let rows := (List.range k).map (fun r => c.elRow bs t r ov)
    (List.range lines).map (fun i => colOf rows z i)
  else (List.range lines).map (fun i => (c.elRow bs t i ov).take k)

/-- The exact integer of a value that is one. -/
def XVal.toInt : XVal → Int
  | .fin n m e => let v : Int := ((m <<< e.toNat : Nat) : Int); if n then -v else v
  | _ => 0

/-- Split a list into runs of n. -/
def runsBy {α : Type} (n : Nat) : (fuel : Nat) → List α → List (List α)
  | 0, _ => []
  | f + 1, l => if l.isEmpty then [] else l.take n :: runsBy n f (l.drop n)

/-- One draw of the engine in mode SR, and a rounding into FP32. -/
def round32 (m : RMode) (g : Word) (x : XRes) : Nat × Word :=
  let (r, g) := drawIf m g
  ((Machine.fp32.fin m r x).1, g)

/-- One output cell of an MMA. -/
def mmaCell (m : RMode) (a b : List El) (acc : Nat) (g : Word) : Nat × Word :=
  let ab := a.zip b
  if ab.any (fun (x, y) => x.fp32 || y.fp32) then
    ab.foldl (fun (acc, g) (x, y) => round32 m g (xfma m false x.v y.v (Machine.fp32.read acc))) (acc, g)
  else if ab.all (fun (x, y) => x.int && y.int) then
    let t := ab.foldl (fun (t : Int) (x, y) => t + x.v.toInt * y.v.toInt) acc
    ((t % (2 ^ 32 : Nat)).toNat, g)
  else
    (runsBy 32 4 ab).foldl (fun (acc, g) run =>
      let t := xsum m (run.map (fun (x, y) => (xmul x.v y.v).v))
      round32 m g (xadd m (Machine.fp32.read acc) t.v)) (acc, g)

/-- MMA (R237). -/
def Core.mma (c : Core) (bs : Books) (ta tb acc : Nat) (at' bt sov sa sb clr : Bool) : Core :=
  let ov (x : Bool) : Option Bool := if sov then some x else none
  let A := c.mmaSide bs ta at' (ov sa) c.eM c.eK
  let B := c.mmaSide bs tb bt (ov sb) c.eN c.eK
  let (out, g) := A.zipIdx.foldl (fun (out, g) (a, i) =>
    let old := c.accRow acc i
    B.zipIdx.foldl (fun (out, g) (b, j) =>
      let (v, g) := mmaCell c.eMode a b (if clr then 0 else (old.getD j 0).toNat) g
      (out ++ [(i * 128 + j, BitVec.ofNat 32 v)], g)) (out, g)) (([] : List (Nat × Lane)), c.eGen)
  { c.putAcc acc out with eGen := g }

/-! ## Product-gather (R239, R240) -/

/-- The codewords of a codebook: count, dimension, and the components of each index. -/
structure Code where
  n  : Nat
  d  : Nat
  w  : Nat
  at' : Nat → List XVal
/-- The codewords that a conversion word names. -/
def Books.code (bs : Books) (cbid stamp : Nat) (signed : Bool) : Code :=
  if cbid < 10 then { n := 2 ^ arithW cbid, d := 1, w := arithW cbid, at' := fun i => [elemValue (arithFmt cbid) signed i] }
  else
    let b := bs.find cbid stamp
    { n := if b.dir.kind == 2 then 65536 else b.dir.count, d := max 1 b.dir.d, w := b.dir.w, at' := b.dir.codeword b.data }

/-- MPT: the table of partial products. -/
def Core.mpt (c : Core) (bs : Books) (ta cbid stamp : Nat) (signed : Bool) (kb : Nat) : Core :=
  let code := bs.code cbid stamp signed
  let G := cdiv c.eK code.d
  let rows := (List.range c.eN).map (fun b => c.elemRow bs ta b)
  let (out, g) := rows.foldl (fun (out, g) row =>
    (List.range G).foldl (fun (out, g) gi =>
      let xs := (List.range code.d).map (fun k =>
        let p := kb + gi * code.d + k
        if gi * code.d + k < c.eK && p ≤ 127 then row.getD p (.fin false 0 0) else XVal.fin false 0 0)
      (List.range code.n).foldl (fun (out, g) i =>
        let t := xsum c.eMode (((code.at' i).zip xs).map (fun (a, b) => (xmul a b).v))
        let (v, g) := round32 c.eMode g t
        (out ++ [BitVec.ofNat 32 v], g)) (out, g)) (out, g)) (([] : List Lane), c.eGen)
  { c with
    ptab := Sparse.setRun c.ptab 0 0 out, eGen := g
    tableId := some { cbid := BitVec.ofNat 12 cbid, stamp := BitVec.ofNat 8 stamp, n := c.eN, g := G, c := code.n, d := code.d, kb := kb } }

/-- An entry of the table under a scale: rounded when it falls below the normal range (log 36). -/
def gatherTerm (m : RMode) (g : Word) (x : XVal) (scale : Nat) : XVal × Word :=
  match x.under scale with
  | .fin n k e =>
    if k ≠ 0 && xlog2 k e < -126 then
      let (v, g) := round32 m g { v := .fin n k e }
      (Machine.fp32.read v, g)
    else (.fin n k e, g)
  | v => (v, g)

/-- MGA. -/
def Core.mga (c : Core) (w : Nat) (t : TableId) (ta acc : Nat) (clr : Bool) : Core :=
  let (out, g) := (List.range c.eM).foldl (fun (out, g) i =>
    let tag := c.tagAt ta i
    let cells := c.tileRow ta i
    let old := c.accRow acc i
    (List.range t.n).foldl (fun (out, g) b =>
      let (v, g) := (List.range t.g).foldl (fun (a, g) gi =>
        let p := t.kb + gi * t.d
        if p ≤ 127 then
          let q := (cells.getD p 0).toNat % 2 ^ w
          let e : XVal := if t.c ≤ q then .nan false
            else Machine.fp32.read (Sparse.get c.ptab 0 ((b * t.g + gi) * t.c + q)).toNat
          let (u, g) := gatherTerm c.eMode g e (tagScale tag (p / 32))
          round32 c.eMode g (xadd c.eMode (Machine.fp32.read a) u)
        else (a, g)) ((if clr then 0 else (old.getD b 0).toNat), g)
      (out ++ [(i * 128 + b, BitVec.ofNat 32 v)], g)) (out, g)) (([] : List (Nat × Lane)), c.eGen)
  { c.putAcc acc out with eGen := g }

/-! ## Encoding a line (R241, R243; 09 R210-R214) -/

/-- A conversion word. -/
structure Conv where
  cbid : Nat
  stamp : Nat
  signed : Bool
  had : Nat
  deriving DecidableEq, Repr
def Conv.of (w : Word) : Conv :=
  { cbid := slc w 11 0, stamp := if slc w 11 0 < 10 then 0 else slc w 19 12, signed := w.getLsbD 21, had := slc w 23 22 }
/-- The format code of what a conversion writes. -/
def Conv.fmt (k : Conv) (bs : Books) : Nat := if k.cbid < 10 then k.cbid else (bs.find k.cbid k.stamp).dir.kind + 9

/-- The unnormalised pre-search transform over runs of n of 128 positions. -/
def preHad (m : RMode) (had : Nat) (ts : List XVal) : List XVal :=
  if had == 0 then ts
  else
    let n := 8 * 2 ^ had
    let xs := ts ++ List.replicate (128 - ts.length) (XVal.fin false 0 0)
    (List.range ts.length).map (fun p => (hadamardAt m 0 ((xs.drop (p / n * n)).take n) (p % n)).v)

/-- An encoded line: the cells, the four scales, the decoded value of each position, the generator. -/
structure Line where
  cells  : List Nat
  scales : List Nat
  dec    : List XVal
  gen    : Word
  deriving DecidableEq, Repr

/-- Encode the values of a line of up to 128 positions, with scale mode `sc`. -/
def encLine (bs : Books) (k : Conv) (sc : Bool) (m : RMode) (g : Word) (ts0 : List XVal) : Line :=
  let ts := preHad m k.had ts0
  let P := ts.length
  let emax : Int := if k.cbid < 10 then elemEmax (arithFmt k.cbid) k.signed
    else let b := bs.find k.cbid k.stamp; emaxOf b.dir.comp b.data
  let scales := (List.range 4).map (fun i =>
    if sc && 32 * i < P then blockScale emax ((ts.drop (32 * i)).take 32) else 127)
  let sAt (p : Nat) : Nat := scales.getD (p / 32) 127
  if k.cbid < 10 then
    let f := arithFmt k.cbid
    let (cells, dec, g) := ts.zipIdx.foldl (fun (cs, ds, g) (x, p) =>
      let b := sAt p
      let (r, g) := drawIf m g
      if b == 255 then (cs ++ [0], ds ++ [XVal.nan false], g)
      else
        let v := (elemRound f k.signed m r (x.over b)).1
        (cs ++ [v], ds ++ [(elemValue f k.signed v).under b], g)) (([] : List Nat), ([] : List XVal), g)
    { cells := cells, scales := scales, dec := dec, gen := g }
  else
    let b := bs.find k.cbid k.stamp
    let d := max 1 b.dir.d
    let words := (List.range (cdiv P d)).map (fun j =>
      let xs := (List.range d).map (fun i => (ts.getD (j * d + i) (.fin false 0 0)).over (sAt (j * d)))
      if sAt (j * d) == 255 then 0 else b.dir.search b.data xs)
    { cells := ((words.flatMap (fun w => w :: List.replicate (d - 1) 0)).take P), scales := scales
      dec := ((words.zipIdx.flatMap (fun (w, j) => (b.dir.codeword b.data w).map (fun c => c.under (sAt (j * d))))).take P)
      gen := g }

/-- TENC: rows of tb into rows of ta. -/
def Core.tenc (c : Core) (bs : Books) (ta tb : Nat) (rows : List Nat) (k : Conv) (sc : Bool) : Core :=
  let src := rows.map (fun r => (r, c.elemRow bs tb r))
  src.foldl (fun c (r, xs) =>
    let l := encLine bs k (sc && k.cbid ≠ 0) c.eMode c.eGen xs
    { ((c.putTile ta (l.cells.zipIdx.map (fun (v, p) => (r * 128 + p, BitVec.ofNat 32 v)))).setTag ta r
        (mkTag (k.fmt bs) k.signed (k.had ≠ 0) k.cbid k.stamp l.scales)) with eGen := l.gen }) c

/-- ACVT: one line of the accumulator into its tile row, with its residues. -/
def Core.acvtLine (c : Core) (bs : Books) (ta acc row : Nat) (k : Conv) (tr res sc int : Bool) : Core :=
  let P := if tr then c.eM else c.eN
  let keys := (List.range P).map (fun p => if tr then p * 128 + row else row * 128 + p)
  let plane := planeOf c.acc acc
  let rplane := planeOf c.res acc
  let t := keys.map (fun key =>
    let v := Sparse.get plane 0 key
    let y : XVal := if int then xint v.toInt else Machine.fp32.read v.toNat
    if res then (xadd c.eMode y (Machine.fp16.read (Sparse.get rplane 0 key).toNat)).v else y)
  let l := encLine bs k (sc && k.cbid ≠ 0) c.eMode c.eGen t
  let c := c.putTile ta (l.cells.zipIdx.map (fun (v, p) => (row * 128 + p, BitVec.ofNat 32 v)))
  let c := c.setTag ta row (mkTag (k.fmt bs) k.signed (k.had ≠ 0) k.cbid k.stamp l.scales)
  let rho := (t.zip l.dec).zipIdx.map (fun ((x, y), p) =>
    let r := if l.scales.getD (p / 32) 127 == 255 then (Machine.fp16.round .rne 0 x).1
      else (Machine.fp16.fin .rne 0 (xadd .rne x y.neg)).1
    (keys.getD p 0, BitVec.ofNat 16 r))
  { (if res then c.putRes acc rho else c) with eGen := l.gen }
/-- The lines that an ACVT encodes. -/
def acvtLines (lines : Nat) (sl : Slice) (idx : Nat) : List Nat :=
  match sl with
  | .whole => List.range lines
  | _ => if idx < lines then [idx] else []

/-! ## Moving (R241, R242) -/

/-- Round lists of values into FP32 cells, with the draws in order. -/
def roundCells (m : RMode) (g : Word) (xs : List (Nat × XRes)) : List (Nat × Lane) × Word :=
  xs.foldl (fun (out, g) (k, x) =>
    let (v, g) := round32 m g x
    (out ++ [(k, BitVec.ofNat 32 v)], g)) ([], g)
/-- Write rounded values into rows of a tile, whose tags become FP32 unscaled. -/
def Core.writeRows (c : Core) (ta : Nat) (rows : List (Nat × List XRes)) : Core :=
  rows.foldl (fun c (r, xs) =>
    let (u, g) := roundCells c.eMode c.eGen (xs.zipIdx.map (fun (x, p) => (r * 128 + p, x)))
    { ((c.putTile ta u).setTag ta r tagFp32) with eGen := g }) c
def Core.tdec (c : Core) (bs : Books) (ta tb : Nat) (rows : List Nat) : Core :=
  c.writeRows ta (rows.map (fun r => (r, (c.elemRow bs tb r).map (fun x => { v := x }))))
def Core.tmovt (c : Core) (bs : Books) (ta tb : Nat) : Core :=
  let src := (List.range 128).map (fun r => c.elemRow bs tb r)
  c.writeRows ta ((List.range 128).map (fun i => (i, (colOf src (.fin false 0 0) i).map (fun x => { v := x }))))
def Core.mhad (c : Core) (bs : Books) (ta tb : Nat) (rows : List Nat) (n : HadN) (nrm : Bool) : Core :=
  let p := HadN.points n
  c.writeRows ta (rows.map (fun r =>
    let xs := c.elemRow bs tb r
    (r, (List.range 128).map (fun i =>
      hadamardAt c.eMode (if nrm then HadN.exp n else 0) ((xs.drop (i / p * p)).take p) (i % p)))))
def Core.tcopy (c : Core) (ta tb : Nat) (sl : Slice) (idx : Nat) : Core :=
  let src := planeOf c.tile tb
  let d := c.putTile ta ((sliceCells sl idx).map (fun k => (k, Sparse.get src 0 k)))
  d.setTags ta (sliceRows sl idx) (fun r => c.tagAt tb r)

/-- The maximum magnitude of cells (R242). -/
def absMax (int : Bool) (xs : List Lane) : Nat :=
  if int then xs.foldl (fun m x => max m x.toInt.natAbs) 0
  else if xs.any (fun x => (Machine.fp32.read x.toNat).isNan) then Machine.fp32.nanBits
  else xs.foldl (fun m x => max m (x.toNat % 2 ^ 31)) 0
/-- ABMAX. -/
def Core.abmax (c : Core) (acc : Nat) (sl : Slice) (idx : Nat) (int : Bool) : Vec :=
  let plane := planeOf c.acc acc
  let cells := (sliceCells sl idx).map (fun k => Sparse.get plane 0 k)
  match sl with
  | .whole => vecOfList [absMax int ((plane.map (·.2)) ++ [0])]
  | _ => vecOfList ((List.range 4).map (fun b => absMax int ((cells.drop (32 * b)).take 32)))

end Machine
end Sys2Proof
end

