-- ==== Sys2Proof/Machine/Matrix.lean ====
section
/-! DEFINITION. The matrix-engine words (10 R228-R243): what each captures when it issues, and how the engine starts and completes
commands. -/

namespace Sys2Proof
namespace Machine

/-! ## Issue (R228) -/

/-- The launch of the current strand's plan: tiles, accumulators. -/
def State.planTiles (s : State) : Nat := (s.launchOf s.cur).elim 0 Launch.tiles
def State.planAccs (s : State) : Nat := (s.launchOf s.cur).elim 0 Launch.accs

/-- A conversion word with current captured (09 R205): the stamp is written into it and cur is cleared. -/
def State.captureCur (s : State) (w : Word) : State × Except TrapInfo Word :=
  if w.getLsbD 20 && 16 ≤ slc w 11 0 then
    let (s, r) := s.dirRead s.cc (s.asidOf s.cur) (slc w 11 0)
    (s, match r with
      | .error t => .error t
      | .ok d => .ok ((w &&& ~~~(0x1FF000 : Word)) ||| BitVec.ofNat 64 (d.current * 2 ^ 12)))
  else (s, .ok w)

/-- What a matrix-engine word names and captures. -/
structure EngUse where
  rd    : List Reg := []
  dst   : List Reg := []
  tiles : List (BitVec 3) := []
  accs  : List (BitVec 2) := []
  sl    : Slice := .whole
  sop   : State → Word := fun _ => 0
  conv  : Bool := false
  vcap  : Option VReg := none

/-- Vector captures in use on a core (18 R381). -/
def Core.engCaps (c : Core) : Nat := ((c.erun.toList ++ c.equeue).filter (fun e => e.vcap.isSome)).length

/-- A matrix-engine word enters the engine queue with what it captured, as a team-scope release that does not stop the strand (17 R351,
R354). -/
def engWord (h : Hdr) (i : Instr) (u : EngUse) : Meaning :=
  issue h { rd := u.rd ++ Slice.regs u.sl ++ (u.vcap.map rV).toList, wr := u.dst } (fun s =>
    if u.tiles.any (fun t => s.planTiles ≤ t.toNat) || u.accs.any (fun a => s.planAccs ≤ a.toNat) then .trap s (illencAt s 7)
    else if Config.engineQueueLen ≤ s.co.equeue.length then .wait s .queue
    else if u.vcap.isSome && Config.engineCaptures ≤ s.co.engCaps then .wait s .caps
    else
      let (s, w) := if u.conv then s.captureCur (u.sop s) else (s, .ok (u.sop s))
      match w with
      | .error t => .trap s t
      | .ok w =>
        let (id, s) := s.block s.cur .engine u.dst [] 0 false
        let e : ECmd := { id := id, sid := s.cur, instr := i, word := s.wordAt s.cur, pc := s.st.pc, sop := w
                          idx := s.sliceIdx u.sl, vcap := u.vcap.map s.vr }
        .done ((s.releaseAt s.cur (s.teamScopeOf s.cur)).modCore s.cc (fun c => { c with equeue := c.equeue ++ [e] })))

def execTcfg (h : Hdr) (reg : SReg) : Meaning := engWord h (.tcfg h reg) { rd := [rS reg], sop := fun s => s.sr reg }
def execTzero (h : Hdr) (ta : BitVec 3) (sl : Slice) (tag : Option SReg) : Meaning :=
  engWord h (.tzero h ta sl tag) { rd := (tag.map rS).toList, tiles := [ta], sl := sl, sop := fun s => (tag.map s.sr).getD 0 }
def execTmovv (h : Hdr) (ta : BitVec 3) (sl : Slice) (reg : VReg) (wr hi tag : Bool) : Meaning :=
  engWord h (.tmovv h ta sl reg wr hi tag)
    { dst := if wr then [] else [rV reg], tiles := [ta], sl := sl, vcap := if wr then some reg else none }
def execTmovt (h : Hdr) (ta tb : BitVec 3) : Meaning := engWord h (.tmovt h ta tb) { tiles := [ta, tb] }
def execTcopy (h : Hdr) (ta tb : BitVec 3) (sl : Slice) : Meaning := engWord h (.tcopy h ta tb sl) { tiles := [ta, tb], sl := sl }
def execTdec (h : Hdr) (ta tb : BitVec 3) (sl : Slice) : Meaning := engWord h (.tdec h ta tb sl) { tiles := [ta, tb], sl := sl }
def execTenc (h : Hdr) (ta tb : BitVec 3) (sl : Slice) (reg : SReg) (sc : Bool) : Meaning :=
  engWord h (.tenc h ta tb sl reg sc) { rd := [rS reg], tiles := [ta, tb], sl := sl, sop := fun s => s.sr reg, conv := true }
def execMma (h : Hdr) (ta tb : BitVec 3) (acc : BitVec 2) (at' bt sov sa sb clr : Bool) : Meaning :=
  engWord h (.mma h ta tb acc at' bt sov sa sb clr) { tiles := [ta, tb], accs := [acc] }
def execMpt (h : Hdr) (ta : BitVec 3) (reg : SReg) (kb : BitVec 7) : Meaning :=
  engWord h (.mpt h ta reg kb) { rd := [rS reg], tiles := [ta], sop := fun s => s.sr reg, conv := true }
def execMga (h : Hdr) (ta : BitVec 3) (acc : BitVec 2) (clr : Bool) : Meaning :=
  engWord h (.mga h ta acc clr) { tiles := [ta], accs := [acc] }
def execMhad (h : Hdr) (ta tb : BitVec 3) (sl : Slice) (n : HadN) (nrm : Bool) : Meaning :=
  engWord h (.mhad h ta tb sl n nrm) { tiles := [ta, tb], sl := sl }
def execAzero (h : Hdr) (acc : BitVec 2) (sl : Slice) (res : Bool) : Meaning :=
  engWord h (.azero h acc sl res) { accs := [acc], sl := sl }
def execAmovv (h : Hdr) (acc : BitVec 2) (sl : Slice) (reg : VReg) (hi : Bool) : Meaning :=
  engWord h (.amovv h acc sl reg hi) { dst := [rV reg], accs := [acc], sl := sl }
def execAwrv (h : Hdr) (acc : BitVec 2) (sl : Slice) (reg : VReg) (hi add int : Bool) : Meaning :=
  engWord h (.awrv h acc sl reg hi add int) { accs := [acc], sl := sl, vcap := some reg }
def execAcvt (h : Hdr) (ta : BitVec 3) (acc : BitVec 2) (sl : Slice) (reg : SReg) (tr res sc int : Bool) : Meaning :=
  engWord h (.acvt h ta acc sl reg tr res sc int)
    { rd := [rS reg], tiles := [ta], accs := [acc], sl := sl, sop := fun s => s.sr reg, conv := true }
def execAscl (h : Hdr) (acc : BitVec 2) (sl : Slice) (reg : SReg) : Meaning :=
  engWord h (.ascl h acc sl reg) { rd := [rS reg], accs := [acc], sl := sl, sop := fun s => s.sr reg }
def execAbmax (h : Hdr) (acc : BitVec 2) (sl : Slice) (reg : VReg) (int : Bool) : Meaning :=
  engWord h (.abmax h acc sl reg int) { dst := [rV reg], accs := [acc], sl := sl }
def execRzero (h : Hdr) (acc : BitVec 2) (sl : Slice) : Meaning := engWord h (.rzero h acc sl) { accs := [acc], sl := sl }
def execRmovv (h : Hdr) (acc : BitVec 2) (sl : Slice) (reg : VReg) (wr hi : Bool) : Meaning :=
  engWord h (.rmovv h acc sl reg wr hi)
    { dst := if wr then [] else [rV reg], accs := [acc], sl := sl, vcap := if wr then some reg else none }
def execMmode (h : Hdr) (rm : RMode) (ld : Option SReg) : Meaning :=
  engWord h (.mmode h rm ld) { rd := (ld.map rS).toList, sop := fun s => (ld.map s.sr).getD 0 }

/-! ## What a command reads (R231) -/

/-- The rows whose tags a command reads. -/
def Core.engRows (c : Core) (e : ECmd) : List (Nat × Nat) :=
  let side (t : BitVec 3) (n : Nat) : List (Nat × Nat) := (List.range n).map (fun r => (t.toNat, r))
  match e.instr with
  | .tmovt _ _ tb => side tb 128
  | .tdec _ _ tb sl | .tenc _ _ tb sl _ _ | .mhad _ _ tb sl _ _ => (sliceRows sl e.idx).map (fun r => (tb.toNat, r))
  | .mma _ ta tb _ at' bt .. => side ta (if at' then c.eK else c.eM) ++ side tb (if bt then c.eK else c.eN)
  | .mpt _ ta .. => side ta c.eN
  | .mga _ ta .. => side ta c.eM
  | _ => []
/-- The conversion word that a command uses. -/
def engConv (e : ECmd) : Option Conv :=
  match e.instr with
  | .tenc .. | .acvt .. | .mpt .. => some (Conv.of e.sop)
  | _ => none
/-- The learned versions that a command names: its conversion word's, then its row tags', rows ascending. -/
def Core.engKeys (c : Core) (e : ECmd) : List (Nat × Nat) :=
  let k := match engConv e with | some k => if 10 ≤ k.cbid then [(k.cbid, k.stamp)] else [] | none => []
  let r := ((c.engRows e).map (fun (t, r) => c.tagAt t r)).filter (fun g => 10 ≤ tagFmt g)
  (k ++ r.map (fun g => (tagCbid g, tagStamp g))).eraseDups

/-- Read the entries of codebooks. -/
def State.dirs (s : State) (core asid : Nat) : List (Nat × Nat) → State × Except TrapInfo (List (Nat × Nat × Dir))
  | [] => (s, .ok [])
  | (cbid, v) :: rest =>
    let (s, r) := s.dirRead core asid cbid
    match r with
    | .error t => (s, .error t)
    | .ok d =>
      let (s, l) := s.dirs core asid rest
      (s, match l with | .error t => .error t | .ok l => .ok ((cbid, v, d) :: l))

/-- The first free codebook, then the first stamp that is not valid (R232, orders 1 and 2). -/
def dirFail (l : List (Nat × Nat × Dir)) (addr : Word) : Option TrapInfo :=
  match l.find? (fun (_, _, d) => d.kind == 0 || d.kind == 3) with
  | some (cbid, _, d) => some (staleCb (if d.kind == 0 then 2 else 3) cbid 0 addr)
  | none => (l.find? (fun (_, v, d) => !d.valid v)).map (fun (cbid, v, _) => staleCb 1 cbid v addr)

/-- Ask for every version: an error where one can get no slots, none where a miss must be waited for, else the books and their
slots. -/
def State.needAll (s : State) (core : Nat) (keep : List Nat) :
    List (Nat × Nat × Dir) → State × Except TrapInfo (Option (Books × List Nat))
  | [] => (s, .ok (some ([], [])))
  | (cbid, v, d) :: rest =>
    let (s, n) := s.needVersion core cbid v d keep
    match n with
    | .noSlot => (s, .error { cause := cILLENC, aux := 0xFF07 })
    | .miss =>
      let (s, r) := s.needAll core keep rest
      (s, match r with | .error t => .error t | .ok _ => .ok none)
    | .have' i =>
      let data := (s.core core).payload i
      let (s, r) := s.needAll core (keep ++ [i]) rest
      (s, match r with
        | .error t => .error t
        | .ok none => .ok none
        | .ok (some (bs, is)) => .ok (some ({ cbid := cbid, stamp := v, dir := d, data := data } :: bs, i :: is)))

/-- LAYOUT of an engine command (R232). -/
def engLayout (row reason : Nat) : TrapInfo := { cause := cLAYOUT, aux := BitVec.ofNat 64 (row * 256 + reason) }

/-- The tag that a TMOVV carries in lanes 0 and 1. -/
def vecTag (v : Vec) : Word := (lane v 1) ++ (lane v 0)

/-- The first of some rows whose tag, which a command would write, is not well formed. -/
def State.firstIll (s : State) (core asid : Nat) : List (Nat × Word) → State × Option Nat
  | [] => (s, none)
  | (r, g) :: rest =>
    let (s, ok) := s.tagWf core asid g
    if ok then s.firstIll core asid rest else (s, some r)

/-- A command's own checks (R232, order 3). -/
def State.engCheck (s : State) (core asid : Nat) (e : ECmd) (ds : List (Nat × Nat × Dir)) : State × Option TrapInfo :=
  let c := s.core core
  match e.instr with
  | .tzero _ _ _ (some _) =>
    let (s, ok) := s.tagWf core asid e.sop
    (s, if ok then none else some (engLayout e.idx 0x40))
  | .tmovv _ _ _ _ true _ true =>
    let (s, ok) := s.tagWf core asid (vecTag (e.vcap.getD (Vector.replicate 64 0)))
    (s, if ok then none else some (engLayout e.idx 0x40))
  | .tcopy _ _ tb sl =>
    let (s, r) := s.firstIll core asid ((sliceRows sl e.idx).map (fun r => (r, c.tagAt tb.toNat r)))
    (s, r.map (fun r => engLayout r 0x40))
  | .mpt _ _ _ kb =>
    let k := Conv.of e.sop
    let (n, d) : Nat × Nat := if k.cbid < 10 then (2 ^ arithW k.cbid, 1)
      else match ds.find? (fun x => x.1 == k.cbid) with
        | some (_, _, dir) => (if dir.kind == 2 then 65536 else dir.count, max 1 dir.d)
        | none => (0, 1)
    (s, if kb.toNat % d ≠ 0 then some (engLayout 0xFF 0x46)
        else if 16384 < c.eN * cdiv c.eK d * n then some { cause := cILLENC, aux := 0xFF07 } else none)
  | .mga _ ta _ _ =>
    (s, match c.tableId with
      | none => some (engLayout 0xFF 0x41)
      | some t => ((List.range c.eM).find? (fun i =>
          let g := c.tagAt ta.toNat i
          tagCbid g ≠ t.cbid.toNat || tagStamp g ≠ t.stamp.toNat)).map (fun i => engLayout i 0x41))
  | .acvt _ _ _ _ _ _ true _ _ => (s, if (Conv.of e.sop).had ≠ 0 then some (engLayout 0xFF 0x42) else none)
  | _ => (s, none)

/-! ## What a command does (R236-R243) -/

/-- The effect of a command on its core, and the value of its blocking result. -/
def Core.engDo (c : Core) (bs : Books) (e : ECmd) : Core × List RVal :=
  let v := e.vcap.getD (Vector.replicate 64 0)
  let idx := e.idx
  match e.instr with
  | .tcfg .. => ({ c with eM := slc e.sop 6 0 + 1, eN := slc e.sop 14 8 + 1, eK := slc e.sop 22 16 + 1 }, [])
  | .mmode _ rm ld => ({ c with eMode := rm, eGen := if ld.isSome then e.sop else c.eGen }, [])
  | .tzero _ ta sl tag =>
    let d := c.putTile ta.toNat ((sliceCells sl idx).map (fun k => (k, 0)))
    (if tag.isSome then d.setTags ta.toNat (sliceRows sl idx) (fun _ => e.sop) else d, [])
  | .tmovv _ ta sl _ wr hi tag =>
    let t := ta.toNat
    if tag then
      if wr then (c.setTag t idx (vecTag v), [])
      else
        let g := c.tagAt t idx
        (c, [.v (vecOfList [g.toNat % 2 ^ 32, g.toNat / 2 ^ 32])])
    else
      let cells := halfCells sl idx hi
      if wr then (c.putTile t (cells.zipIdx.map (fun (k, l) => (k, lane v l))), [])
      else
        let p := planeOf c.tile t
        (c, [.v (vecOf (fun l => Sparse.get p 0 (cells.getD l 0)))])
  | .tmovt _ ta tb => (c.tmovt bs ta.toNat tb.toNat, [])
  | .tcopy _ ta tb sl => (c.tcopy ta.toNat tb.toNat sl idx, [])
  | .tdec _ ta tb sl => (c.tdec bs ta.toNat tb.toNat (sliceRows sl idx), [])
  | .tenc _ ta tb sl _ sc => (c.tenc bs ta.toNat tb.toNat (sliceRows sl idx) (Conv.of e.sop) sc, [])
  | .mma _ ta tb acc at' bt sov sa sb clr => (c.mma bs ta.toNat tb.toNat acc.toNat at' bt sov sa sb clr, [])
  | .mpt _ ta _ kb =>
    let k := Conv.of e.sop
    (c.mpt bs ta.toNat k.cbid k.stamp k.signed kb.toNat, [])
  | .mga _ ta acc clr =>
    (match c.tableId with
      | none => c
      | some t => c.mga (if t.cbid.toNat < 10 then arithW t.cbid.toNat else (bs.find t.cbid.toNat t.stamp.toNat).dir.w) t
          ta.toNat acc.toNat clr, [])
  | .mhad _ ta tb sl n nrm => (c.mhad bs ta.toNat tb.toNat (sliceRows sl idx) n nrm, [])
  | .azero _ acc sl res =>
    let ks := sliceCells sl idx
    let d := c.putAcc acc.toNat (ks.map (fun k => (k, 0)))
    (if res then d.putRes acc.toNat (ks.map (fun k => (k, 0))) else d, [])
  | .amovv _ acc sl _ hi =>
    let p := planeOf c.acc acc.toNat
    let cells := halfCells sl idx hi
    (c, [.v (vecOf (fun l => Sparse.get p 0 (cells.getD l 0)))])
  | .awrv _ acc sl _ hi add int =>
    let p := planeOf c.acc acc.toNat
    let cells := halfCells sl idx hi
    if !add then (c.putAcc acc.toNat (cells.zipIdx.map (fun (k, l) => (k, lane v l))), [])
    else if int then (c.putAcc acc.toNat (cells.zipIdx.map (fun (k, l) => (k, Sparse.get p 0 k + lane v l))), [])
    else
      let (u, g) := roundCells c.eMode c.eGen (cells.zipIdx.map (fun (k, l) =>
        (k, xadd c.eMode (Machine.fp32.read (Sparse.get p 0 k).toNat) (Machine.fp32.read (lane v l).toNat))))
      ({ c.putAcc acc.toNat u with eGen := g }, [])
  | .acvt _ ta acc sl _ tr res sc int =>
    ((acvtLines (if tr then c.eN else c.eM) sl idx).foldl (fun c r =>
      c.acvtLine bs ta.toNat acc.toNat r (Conv.of e.sop) tr res sc int) c, [])
  | .ascl _ acc sl _ =>
    let p := planeOf c.acc acc.toNat
    let f := Machine.fp32.read e.sop.toNat
    let (u, g) := roundCells c.eMode c.eGen ((sliceCells sl idx).map (fun k =>
      (k, xmul (Machine.fp32.read (Sparse.get p 0 k).toNat) f)))
    ({ c.putAcc acc.toNat u with eGen := g }, [])
  | .abmax _ acc sl _ int => (c, [.v (c.abmax acc.toNat sl idx int)])
  | .rzero _ acc sl => (c.putRes acc.toNat ((sliceCells sl idx).map (fun k => (k, 0))), [])
  | .rmovv _ acc sl _ wr hi =>
    let cells := halfCells sl idx hi
    if wr then (c.putRes acc.toNat (cells.zipIdx.map (fun (k, l) => (k, (lane v l).setWidth 16))), [])
    else
      let p := planeOf c.res acc.toNat
      (c, [.v (vecOf (fun l => (Sparse.get p 0 (cells.getD l 0)).setWidth 32))])
  | _ => (c, [])

/-! ## Start and completion (R228, R232) -/

/-- The command that the engine has taken fails: it and those behind it go into the mx strand's replay queue. -/
def State.engFail (s : State) (core : Nat) (t : TrapInfo) : State :=
  match (s.core core).erun with
  | none => s
  | some e =>
    let rest := (s.core core).equeue
    let s := s.modCore core (fun c => { c with equeue := [], erun := none })
    let s := s.deferTrap e.sid (.engine { e with need := [], slots := [], acted := false }) t
    rest.foldl (fun s e => s.defer e.sid { body := .engine e, state := 2 }) s

/-- May a core's engines take a command now (05 R119; 04 R95; 22 R424)? -/
def State.mayStart (s : State) (core : Nat) : Bool :=
  !s.frozen core && !s.gated core && (match (s.core core).team.bind s.team with | some t => !t.stop | none => true)

/-- The versions that a command needs: those it has started with, and what the tags that it reads name besides. -/
def Core.engNeed (c : Core) (e : ECmd) : List (Nat × Nat × Dir) × List (Nat × Nat) :=
  let keys := c.engKeys e
  (e.need.filter (fun n => keys.contains (n.1, n.2.1)), keys.filter (fun k => !(e.need.any (fun n => (n.1, n.2.1) == k))))
/-- The command that the engine has taken makes its checks, and acts once every version that it needs is resident. A version that it
has started with is not checked again (R231). -/
def State.engTry (s : State) (core : Nat) (e : ECmd) : State :=
  let asid := s.asidOf e.sid
  let (old, keys) := (s.core core).engNeed e
  let (s, ds) := s.dirs core asid keys
  match ds with
  | .error t => s.engFail core t
  | .ok new =>
    let ds := old ++ new
    let (s, f) := match dirFail new 0 with
      | some t => (s, some t)
      | none => s.engCheck core asid e ds
    match f with
    | some t => s.engFail core t
    | none =>
      let (s, n) := s.needAll core [] ds
      match n with
      | .error t => s.engFail core t
      | .ok none => s.modCore core (fun c => { c with erun := some { e with need := ds } })
      | .ok (some (bs, slots)) =>
        let (c', vals) := (s.core core).engDo bs e
        let s := s.setCore core { c' with erun := some { e with need := ds, slots := slots, acted := true } }
        s.modXs e.sid (fun x => { x with ops := x.ops.map (fun o => if o.id == e.id then { o with vals := vals } else o) })
/-- The engine takes the command at its head. -/
def State.engStart (s : State) (core : Nat) : State :=
  match (s.core core).equeue with
  | [] => s
  | e :: rest => (s.modCore core (fun c => { c with equeue := rest, erun := some e })).engTry core e

/-- The core that an event names. -/
def State.evCore (s : State) : Option Nat := match s.ev with | .core c => some c | _ => none

/-- The engine takes its next command, or goes on with one that has waited for versions. -/
def execEngineCommandStart : Meaning := fun s =>
  match s.evCore with
  | none => out s
  | some core => match (s.core core).erun with
    | none => onlyIf (s.mayStart core) (fun s => s.engStart core) s
    | some e => onlyIf (!s.frozen core && !e.acted) (fun s => s.engTry core e) s
def execEngineCommandComplete : Meaning := fun s =>
  match s.evCore with
  | none => out s
  | some core =>
    match (s.core core).erun with
    | none => out s
    | some e =>
      onlyIf (!s.frozen core && e.acted)
        (fun s => (s.modCore core (fun c => { c with erun := none })).deliver e.sid e.id) s

end Machine
end Sys2Proof
end

