-- ==== Sys2Proof/Machine/Segment.lean ====
section
/-! DEFINITION. Layout records and segments (13 R304-R316): checks, headers, payloads, compression. -/

namespace Sys2Proof
namespace Machine

/-! ## The layout record (R304, R315) -/

/-- The commands that read a record. -/
inductive LayCmd where | tld | tst | cpy | cpyz | wopen
  deriving DecidableEq, Repr

/-- Is the format part of a record legal (R315, reason 0x04)? -/
def Lay.fmtOk (l : Lay) : Bool :=
  l.scale < 2 && (if l.fmt < 10 then l.cbid == l.fmt && l.d == 1 && l.w == arithW l.fmt
    else if l.fmt == 10 then 16 ≤ l.cbid && (l.d == 1 || l.d == 2 || l.d == 4 || l.d == 8) && 2 ≤ l.w && l.w ≤ 16
    else l.fmt == 11 && 16 ≤ l.cbid && l.d == 8 && l.w == 16)

/-- Does a window's ring lie in the window-ring part of the plan (04 R90)? -/
def ringOk (p : Launch) (lo len : Nat) : Bool :=
  let b := 1024 * p.scratchK + 1024 * p.stashK
  b ≤ lo && lo + len ≤ b + 1024 * p.ringK

/-- The first check of R315 that a record fails: (word, reason). -/
def layBad (r : Vector Word 8) (c : LayCmd) (n : Nat) (tr : Bool) (p : Launch) : Option (Nat × Nat) :=
  let l := Lay.of r
  let w3 := rword r 3
  if slc w3 7 5 ≠ 0 || slc w3 63 56 ≠ 0 then some (3, 1)
  else if rword r 7 ≠ 0 then some (7, 1)
  else if l.base % 8 ≠ 0 then some (0, 2)
  else if l.pitch % 8 ≠ 0 then some (1, 2)
  else if l.rows == 0 || l.segs == 0 then some (2, 3)
  else if !l.fmtOk then some (3, 4)
  else if l.pitch < l.segs * l.S then some (1, 5)
  else if l.rows < l.row0 + n || l.segs ≤ l.col0 then some (5, 6)
  else if (c == .tst || c == .cpyz) && l.cmp && (l.ctab == 0 || l.ctab % 64 ≠ 0) then some (6, 7)
  else if c == .wopen && (l.ring % 64 ≠ 0 || l.ringrows == 0 || 4096 < l.ringrows || !ringOk p l.ring (l.stride * l.ringrows)) then
    some (4, 8)
  else if c == .cpy && l.ring % 64 ≠ 0 then some (4, 8)
  else if tr && l.d ≠ 1 then some (3, 9)
  else if c == .cpyz && 2 ^ 20 < n * l.rowBytes then some (2, 11)
  else none

/-- LAYOUT of a record. -/
def layTrap (e : Nat × Nat) : TrapInfo := { cause := cLAYOUT, aux := BitVec.ofNat 64 (e.1 * 256 + e.2) }

/-- A record with current captured (R304, 09 R205). -/
def State.captureRec (s : State) (r : Vector Word 8) : State × Except TrapInfo (Vector Word 8) :=
  let w3 := rword r 3
  if !w3.getLsbD 36 then (s, .ok r)
  else
    let l := Lay.of r
    let (s, d) := s.dirRead s.cc (s.asidOf s.cur) l.cbid
    (s, match d with
      | .error t => .error t
      | .ok d =>
        let w := (w3 &&& ~~~(0x1FF0000000 : Word)) ||| BitVec.ofNat 64 (d.current * 2 ^ 28)
        .ok (words8 (fun k => if k == 3 then w else rword r k)))

/-- The directory checks of a command that starts (R316). -/
def State.layDir (s : State) (core asid : Nat) (l : Lay) : State × Except TrapInfo Dir :=
  if l.fmt < 10 then (s, .ok (Dir.parse l.fmt []))
  else
    let (s, r) := s.dirRead core asid l.cbid
    (s, match r with
      | .error t => .error t
      | .ok d =>
        if d.kind == 0 then .error (staleCb 2 l.cbid 0 0)
        else if d.kind + 9 ≠ l.fmt || d.d ≠ l.d || d.w ≠ l.w then .error (layTrap (3, 0x0A))
        else .ok d)

/-! ## Headers (R306, R309) -/

/-- A segment header. -/
structure SegHdr where
  stamp : Nat
  had : Bool
  cmp : Bool
  fmt : Nat
  len : Nat
  scales : List Nat
  deriving DecidableEq, Repr
def SegHdr.of (b : List Byte) : SegHdr :=
  let f := field b 1 1
  { stamp := field b 0 1, had := f.testBit 5, cmp := f.testBit 4, fmt := f % 16, len := field b 2 2
    scales := (List.range 4).map (fun i => field b (4 + i) 1) }
/-- The reason of a bad header. -/
def segHdrBad (l : Lay) (b : List Byte) : Option Nat :=
  let h := SegHdr.of b
  if h.fmt ≠ l.fmt then some 1
  else if 64 ≤ field b 1 1 then some 2
  else if (!h.cmp && h.len ≠ 0) || (h.cmp && (h.len < 17 || l.S - 8 < h.len)) then some 3
  else if h.cmp && l.ctab == 0 then some 4
  else none
def segHdrTrap (row reason : Nat) (va : Nat) : TrapInfo :=
  { cause := cSEGHDR, aux := BitVec.ofNat 64 (row % 256 * 256 + reason), addr := BitVec.ofNat 64 va }

/-! ## Payloads (R307) -/

/-- The indices of an uncompressed payload. -/
def unpackIdx (d w : Nat) (payload : List Byte) : List Nat :=
  let n := leNat payload
  (List.range (128 / d)).map (fun j => (n >>> (j * w)) % 2 ^ w)
/-- The payload of indices. -/
def packIdx (d w : Nat) (idx : List Nat) : List Byte :=
  leBytes (segSize d w - 8) (idx.zipIdx.foldl (fun n (x, j) => n + (x % 2 ^ w) * 2 ^ (j * w)) 0)

/-! ## Compression (R310-R314) -/

/-- A compression table: its longest code, and each symbol's length and code. -/
structure CTab where
  maxlen : Nat
  codes  : List (Nat × Nat × Nat)
  deriving DecidableEq, Repr

/-- Canonical codes: `counts` for lengths L, L+1, ... -/
def canon : (counts : List Nat) → (len code : Nat) → (syms : List Nat) → List (Nat × Nat × Nat)
  | [], _, _, _ => []
  | n :: rest, len, code, syms =>
    ((syms.take n).zipIdx.map (fun (s, i) => (s, len, code + i))) ++ canon rest (len + 1) (2 * (code + n)) (syms.drop n)

/-- A table from its first 64 bytes and its symbols; none where it is bad (R311). -/
def CTab.of (w : Nat) (b symb : List Byte) : Option CTab :=
  let maxlen := field b 1 1
  let nsym := field b 4 4
  let counts := (List.range 24).map (fun i => field b (8 + 2 * i) 2)
  let syms := (List.range nsym).map (fun i => field symb (2 * i) 2)
  let bad := field b 2 2 ≠ 0 || field b 0x38 8 ≠ 0 || field b 0 1 ≠ w || maxlen == 0 || 24 < maxlen || nsym == 0 || 2 ^ w < nsym ||
    (counts.drop maxlen).any (· ≠ 0) || counts.foldl (· + ·) 0 ≠ nsym ||
    2 ^ 24 < counts.zipIdx.foldl (fun t (n, i) => t + n * 2 ^ (23 - i)) 0 || syms.any (2 ^ w ≤ ·) || syms.eraseDups.length ≠ nsym
  if bad then none else some { maxlen := maxlen, codes := canon counts 1 0 syms }

/-- Decode `n` codes of a sub-stream whose next bit is bit `pos` of the stream and that has `left` bits: the indices and the
bits left; none where a decoder fails over. -/
def decodeSub (t : CTab) (stream : Nat) : (n fuel pos left len code : Nat) → Option (List Nat × Nat)
  | 0, _, _, left, _, _ => some ([], left)
  | _, 0, _, _, _, _ => none
  | n + 1, f + 1, pos, left, len, code =>
    if left == 0 then none
    else
      let code := code * 2 + b2n (stream.testBit pos)
      let len := len + 1
      match t.codes.find? (fun e => e.2.1 == len && e.2.2 == code) with
      | some e => (decodeSub t stream n f (pos + 1) (left - 1) 0 0).map (fun (l, r) => (e.1 :: l, r))
      | none => if t.maxlen ≤ len then none else decodeSub t stream (n + 1) f (pos + 1) (left - 1) len code

/-- What decompression gives: the indices, or the cause and the sub-stream (15 for the whole payload). -/
def decompress (t : CTab) (d len : Nat) (payload : List Byte) : Except (Nat × Nat) (List Nat) :=
  let bs := (List.range 16).map (fun j => field payload j 1)
  let stream := leNat ((payload.take len).drop 16)
  let total := bs.foldl (· + ·) 0
  if 8 * (len - 16) < total then .error (cCMPOVER, 15)
  else
    let r := bs.zipIdx.foldl (fun (acc : Except (Nat × Nat) (List Nat × Nat)) (b, j) =>
      match acc with
      | .error e => .error e
      | .ok (out, pos) =>
        match decodeSub t stream (8 / d) (b + 8 / d + 1) pos b 0 0 with
        | none => .error (cCMPOVER, j)
        | some (l, left) => if left ≠ 0 then .error (cCMPUNDER, j) else .ok (out ++ l, pos + b)) (.ok ([], 0))
    match r with
    | .error e => .error e
    | .ok (out, _) => if 7 < 8 * (len - 16) - total then .error (cCMPUNDER, 15) else .ok out

/-- The bits of a code, most significant first. -/
def codeBits (len code : Nat) : List Bool := (List.range len).map (fun i => code.testBit (len - 1 - i))
/-- The compressed payload of indices, if it is to be used (R314): its bytes. -/
def compress (t : CTab) (d w : Nat) (idx : List Nat) : Option (List Byte) :=
  let code (x : Nat) : Option (List Bool) := (t.codes.find? (fun e => e.1 == x)).map (fun e => codeBits e.2.1 e.2.2)
  let cs := idx.map code
  if cs.any Option.isNone then none
  else
    let subs := (runsBy (8 / d) 17 cs).map (fun l => l.flatMap (fun o => o.getD []))
    let bits := subs.flatMap id
    let len := 16 + cdiv bits.length 8
    if len < segSize d w - 8 then
      let n := bits.zipIdx.foldl (fun n (b, i) => if b then n + 2 ^ i else n) 0
      some (subs.map (fun l => BitVec.ofNat 8 l.length) ++ leBytes (len - 16) n)
    else none

/-! ## Segments -/

/-- The trap of a payload that does not decode (R313). -/
def cmpTrap (row : Nat) (e : Nat × Nat) (va : Nat) : TrapInfo :=
  { cause := e.1, aux := BitVec.ofNat 64 (row % 256 * 256 + e.2), addr := BitVec.ofNat 64 va }

/-- The indices of a segment whose header is good. -/
def segIdx (l : Lay) (t : Option CTab) (b : List Byte) : Except (Nat × Nat) (List Nat) :=
  let h := SegHdr.of b
  if h.cmp then
    match t with
    | some t => decompress t l.d h.len (b.drop 8)
    | none => .error (cCMPOVER, 15)
  else .ok (unpackIdx l.d l.w (b.drop 8))

/-- The bytes that a store of a segment writes; `t` is its compression table where it compresses. -/
def segBytes (l : Lay) (t : Option CTab) (stamp : Nat) (had : Bool) (scales idx : List Nat) : List Byte :=
  let hdr (cmp : Bool) (len : Nat) : List Byte :=
    leBytes 1 stamp ++ leBytes 1 (l.fmt + b2n cmp * 16 + b2n had * 32) ++ leBytes 2 len ++
      scales.map (fun x => BitVec.ofNat 8 x)
  match t.bind (fun t => compress t l.d l.w idx) with
  | some p => padTo (roundUp (8 + p.length) 8) (hdr true p.length ++ p)
  | none => hdr false 0 ++ packIdx l.d l.w idx

end Machine
end Sys2Proof
end

