-- ==== Sys2Proof/Machine/Copy.lean ====
section
/-! DEFINITION. Tile loads and stores, windows and band copies (13 R317-R333): what each word checks and queues when it issues, how
the copy engine starts, performs and completes commands, and the locks and commits of tile stores (17 R344, R345). -/

namespace Sys2Proof
namespace Machine

/-! ## Copy queues (R329) -/

/-- Is a strand's copy queue the st queue? -/
def copySt (sid : Nat) : Bool := kindOf sid == 3
def Core.cq (c : Core) (st : Bool) : List CCmd := if st then c.cqSt else c.cqLd
def Core.cr (c : Core) (st : Bool) : Option CCmd := if st then c.crSt else c.crLd
def Core.setCq (c : Core) (st : Bool) (q : List CCmd) : Core := if st then { c with cqSt := q } else { c with cqLd := q }
def Core.setCr (c : Core) (st : Bool) (r : Option CCmd) : Core := if st then { c with crSt := r } else { c with crLd := r }
/-- The commands of a queue, the running one first. -/
def Core.copies (c : Core) (st : Bool) : List CCmd := (c.cr st).toList ++ c.cq st
/-- The number of a strand's copy commands that have neither completed nor failed (R331). -/
def State.copyCount (s : State) (sid : Nat) : Nat :=
  let c := s.core (coreOf sid)
  ((c.copies false ++ c.copies true).filter (fun e => e.sid == sid)).length

/-! ## Scratchpad bands (R315, R330) -/

/-- The first byte of a run that lies in no part of the scratchpad that the plan opens to accesses. -/
def firstBadScratch (l : Launch) (lo len : Nat) : Option Nat :=
  let a := 1024 * l.scratchK
  let b := a + 1024 * l.stashK
  let c := min (2 ^ 20) (b + 1024 * l.ringK)
  let e := if lo < a then (if a == b then c else a) else if b ≤ lo && lo < c then c else lo
  if len == 0 || lo + len ≤ e then none else some (max lo e)
/-- PROT of a band (R330, 04 R91). -/
def bandBad (l : Launch) (r : Vector Word 8) (n : Nat) (write : Bool) : Option TrapInfo :=
  let y := Lay.of r
  ((List.range n).findSome? (fun i => firstBadScratch l (y.ring + i * y.stride) y.rowBytes)).map (fun a =>
    { cause := cPROT, aux := AKind.aux { bulk := true, write := write } 5, addr := BitVec.ofNat 64 a })

/-! ## Issue (R304, R315, R317, R324, R330) -/

/-- What a copy word is: its record, notify role, tile, the command that checks the record, the rows it moves, whether it transposes,
whether it captures current, and the scratchpad band it checks (`some write`). -/
structure CopyUse where
  x    : BitVec 3
  sc   : Scope
  nr   : Option (BitVec 4) := none
  tile : Option (BitVec 3) := none
  cmd  : LayCmd
  n    : Nat
  tr   : Bool := false
  cur  : Bool := false
  band : Option Bool := none

/-- Does a notify role name the strand itself or lie outside its team (02 R52)? -/
def State.badNr (s : State) (nr : Option (BitVec 4)) : Bool :=
  match nr with | none => false | some r => r == s.st.role || s.outside r.toNat

/-- The checks of a copy word at issue, in order. -/
def State.copyCheck (s : State) (u : CopyUse) (r : Vector Word 8) : Option TrapInfo :=
  if s.badNr u.nr then some (illencAt s 3)
  else if u.tile.elim false (fun t => s.planTiles ≤ t.toNat) then some (illencAt s 7)
  else match s.launchOf s.cur with
  | none => some (layTrap (4, 8))
  | some l =>
    match layBad r u.cmd u.n u.tr l with
    | some e => some (layTrap e)
    | none => u.band.bind (bandBad l r u.n)

/-- Is there a place for the token of a notify role (05 R127)? -/
def State.nrRoom (s : State) (nr : Option (BitVec 4)) : Bool :=
  match nr, s.teamOf s.cur with
  | some r, some t => let q := t.handQ s.st.role.toNat r.toNat; q.toks.length + q.resv < 16
  | _, _ => true
/-- Reserve it. -/
def State.reserveNr (s : State) (nr : Option (BitVec 4)) : State :=
  match nr, s.st.team with
  | some r, some tid => s.reserveTok tid s.st.role.toNat r.toNat
  | _, _ => s

/-- The team-scope release of the current strand's earlier accesses that the issue of a command is (R332). -/
def State.copyRelease (s : State) : State := s.releaseAt s.cur (s.teamScopeOf s.cur)
/-- A command enters the copy queue of the current strand. -/
def State.pushCopy (s : State) (mk : Nat → CCmd) : State :=
  let (id, s) := s.fresh
  s.modCore s.cc (fun c => c.setCq (copySt s.cur) (c.cq (copySt s.cur) ++ [mk id]))
/-- Is the current strand's copy queue full? -/
def State.copyFull (s : State) : Bool := Config.copyQueueLen ≤ (s.co.copies (copySt s.cur)).length

/-- A TLD, TST, CPY or CPYZ word. -/
def copyWordIssue (h : Hdr) (i : Instr) (u : CopyUse) : Meaning :=
  issue h { rd := recRegs u.x } (fun s =>
    let r := s.record u.x
    match s.copyCheck u r with
    | some t => .trap s t
    | none =>
      let (s, r) := if u.cur then s.captureRec r else (s, .ok r)
      match r with
      | .error t => .trap s t
      | .ok r =>
        if s.copyFull then .wait s .queue
        else if !s.nrRoom u.nr then .wait s .notify
        else
          let s := (s.reserveNr u.nr).copyRelease
          .done (s.pushCopy (fun id => { id := id, sid := s.cur, instr := i, word := s.wordAt s.cur, pc := s.st.pc, record := r
                                         scope := u.sc, nr := u.nr.map (·.toNat) })))

def execTld (h : Hdr) (x : BitVec 3) (nr : Option (BitVec 4)) (t : BitVec 3) (sc : Scope) (trow : BitVec 7) (tr : Bool)
    (n : BitVec 7) : Meaning :=
  copyWordIssue h (.tld h x nr t sc trow tr n) { x := x, sc := sc, nr := nr, tile := some t, cmd := .tld, n := tileN n, tr := tr }
def execTst (h : Hdr) (x : BitVec 3) (nr : Option (BitVec 4)) (t : BitVec 3) (sc : Scope) (trow : BitVec 7) (tr : Bool)
    (n : BitVec 7) : Meaning :=
  copyWordIssue h (.tst h x nr t sc trow tr n)
    { x := x, sc := sc, nr := nr, tile := some t, cmd := .tst, n := tileN n, tr := tr, cur := true }
def execCpy (h : Hdr) (x : BitVec 3) (nr : Option (BitVec 4)) (sc : Scope) (out : Bool) (n : BitVec 13) : Meaning :=
  copyWordIssue h (.cpy h x nr sc out n) { x := x, sc := sc, nr := nr, cmd := .cpy, n := bandN n, band := some !out }
def execCpyz (h : Hdr) (x : BitVec 3) (nr : Option (BitVec 4)) (sc : Scope) (n : BitVec 13) : Meaning :=
  copyWordIssue h (.cpyz h x nr sc n) { x := x, sc := sc, nr := nr, cmd := .cpyz, n := bandN n, cur := true }

/-! ## Windows (R323-R328) -/

def Core.winAt (c : Core) (w : Nat) : Window := c.win.toList.getD w {}
def Core.setWin (c : Core) (w : Nat) (x : Window) : Core := if h : w < 8 then { c with win := c.win.set w x } else c

/-- The ring slot of a tensor row (R325). -/
def ringSlot (row0 R r : Nat) : Nat := (r - row0) % R
/-- The first tensor row of a window. -/
def Window.row0 (w : Window) : Nat := (Lay.of w.record).row0
/-- The tensor rows of a window's tensor. -/
def Window.tensorRows (w : Window) : Nat := (Lay.of w.record).rows
/-- The scratchpad offset of a row's slot. -/
def Window.offset (w : Window) (r : Nat) : Nat := w.base + w.stride * ringSlot w.row0 w.rows r

/-- What WROW of a row gives now: all-ones of a window that is no longer the one it asked, the row's place once it has arrived, else
nothing yet. -/
def Core.rowNow (c : Core) (w gen r : Nat) : Option Word :=
  let x := c.winAt w
  if !x.isOpen || x.gen ≠ gen then some (BitVec.allOnes 64)
  else if x.arrived.contains r then some (BitVec.ofNat 64 (x.offset r))
  else none
/-- A strand's WROWs of a window that have their result now (R327). -/
def Strand.rowsNow (x : Strand) (c : Core) (w : Nat) : Strand :=
  { x with ops := x.ops.map (fun o => match o.cls, o.done with
      | .row w' gen r, false => if w' ≠ w then o else (match c.rowNow w gen r with
        | some v => { o with vals := [.w v], done := true }
        | none => o)
      | _, _ => o) }
/-- A window changes: the WROWs that wait for it have their results. -/
def State.setWin (s : State) (core w : Nat) (x : Window) : State :=
  let s := s.modCore core (fun c => c.setWin w x)
  (List.range 4).foldl (fun (s : State) k => s.modStrand (4 * core + k) (fun y => y.rowsNow (s.core core) w)) s

/-- Queue a fetch of rows lo .. hi of a window. -/
def State.pushFetch (s : State) (i : Instr) (w : Nat) (lo hi : Nat) : State :=
  let x := s.co.winAt w
  s.pushCopy (fun id => { id := id, sid := s.cur, instr := i, word := s.wordAt s.cur, pc := s.st.pc, record := x.record
                          scope := x.scope, win := some w, first := lo, last := hi, gen := x.gen })

/-- A window closed (R327). -/
def Window.closed (w : Window) : Window := { w with isOpen := false, gen := w.gen + 1 }

def execWopen (h : Hdr) (x w : BitVec 3) (sc : Scope) : Meaning :=
  issue h { rd := recRegs x } (fun s =>
    let r := s.record x
    let y := Lay.of r
    match s.copyCheck { x := x, sc := sc, cmd := .wopen, n := min y.ringrows (y.rows - y.row0) } r with
    | some t => .trap s t
    | none =>
      if s.copyFull then .wait s .queue
      else
        let s := s.copyRelease.setWin s.cc w.toNat
          { isOpen := true, record := r, h := y.row0, base := y.ring, rows := y.ringrows, stride := y.stride
            arrived := [], gen := (s.co.winAt w.toNat).closed.gen + 1, scope := sc }
        let hi := min (y.row0 + y.ringrows) y.rows
        .done (if y.row0 < hi then s.pushFetch (.wopen h x w sc) w.toNat y.row0 (hi - 1) else s))
def execWadv (h : Hdr) (a : SReg) (w : BitVec 3) : Meaning :=
  issue h { rd := [rS a] } (fun s =>
    let x := s.co.winAt w.toNat
    if !x.isOpen then .done s
    else if s.copyFull then .wait s .queue
    else
      let h' := (x.h + (s.sr a).toNat) % 2 ^ 64
      let s := s.copyRelease.setWin s.cc w.toNat { x with h := h' }
      let lo := max (x.h + x.rows) h'
      let hi := min (h' + x.rows) x.tensorRows
      .done (if lo < hi then s.pushFetch (.wadv h a w) w.toNat lo (hi - 1) else s))
def execWclose (h : Hdr) (w : BitVec 3) : Meaning :=
  issue h {} (fun s => .done (s.setWin s.cc w.toNat (s.co.winAt w.toNat).closed))

def execWrow (h : Hdr) (d a : SReg) (w : BitVec 3) : Meaning :=
  issue h { rd := [rS a], wr := [rS d] } (fun s =>
    let x := s.co.winAt w.toNat
    let r := x.h + (s.sr a).toNat
    if !x.isOpen || x.rows ≤ (s.sr a).toNat || x.tensorRows ≤ r then .done (s.sysResult d (BitVec.allOnes 64))
    else match s.co.rowNow w.toNat x.gen r with
      | some v => .done (s.sysResult d v)
      | none => .done (s.block s.cur (.row w.toNat x.gen r) [rS d] [] 0 false).2)

/-- CPYST: the number at issue; with `wait` the strand first waits at the word until there are none. -/
def execCpyst (h : Hdr) (d : SReg) (wait : Bool) : Meaning :=
  issue h { wr := [rS d] } (fun s =>
    if wait && s.copyCount s.cur ≠ 0 then .wait s .result
    else .done (s.sysResult d (BitVec.ofNat 64 (s.copyCount s.cur))))

/-! ## Bulk accesses (R320, R321) -/

/-- The kind of a bulk access: FAR and host pages are allowed to band copies; to window rows they are as R263 and R325 leave it (log 55). -/
def bulkKind (write far : Bool) : AKind := { bulk := true, write := write, far := far, noHost := !far }

/-- Keep the lowest run of each page, pages rising. -/
def insertPage (r : Nat × Nat) : List (Nat × Nat) → List (Nat × Nat)
  | [] => [r]
  | q :: l =>
    if r.1 / 65536 == q.1 / 65536 then (if r.1 < q.1 then r else q) :: l
    else if r.1 < q.1 then r :: q :: l
    else q :: insertPage r l
def pageFirst (rs : List (Nat × Nat)) : List (Nat × Nat) := rs.foldl (fun out r => insertPage r out) []

/-- Check every page of runs of bytes, lowest first: the parts of each run. -/
def State.checkBulk (s : State) (who : Who) (k : AKind) (spans : List (Nat × Nat)) :
    State × Except TrapInfo (List (List Part)) :=
  let (s, r) := s.checkRuns who k (pageFirst (spans.flatMap (fun (va, n) => runsOf va n)))
  (s, match r with
    | .error t => .error t
    | .ok ps => .ok (spans.map (fun (va, n) => (runsOf va n).filterMap (fun (v, m) =>
        (ps.find? (fun p => p.va / 65536 == v / 65536)).map (fun p =>
          { va := v, pa := leafPa p.leaf.pte p.leaf.block v, len := m, leaf := p.leaf })))))

/-- Bytes off .. off+n-1 of parts. -/
def subParts : List Part → (off n : Nat) → List Part
  | [], _, _ => []
  | p :: r, off, n =>
    if n == 0 then []
    else if p.len ≤ off then subParts r (off - p.len) n
    else
      let k := min n (p.len - off)
      { p with va := p.va + off, pa := p.pa + off, len := k } :: subParts r 0 (n - k)

/-- Read parts past an uncorrectable error, with the holder that found the first. -/
def State.readSpan (s : State) (who : Who) (sc : Scope) (ps : List Part) : State × List Byte × Option Nat :=
  ps.foldl (fun (s, bs, e) p =>
    let (b, ms, e') := readPa (s : State).ms (s.accOf who sc false p) p.pa p.len
    (s.setMs ms, bs ++ b, match e with | some h => some h | none => e'.map (·.1))) (s, ([] : List Byte), (none : Option Nat))

/-- The compression table of a record, read as the command starts (R311). -/
def State.readCtab (s : State) (who : Who) (sc : Scope) (l : Lay) : State × Except TrapInfo CTab :=
  let k : AKind := { bulk := true, noPriv := true }
  let rd (s : State) (va n : Nat) : State × Except TrapInfo (List Byte) :=
    let (s, r) := s.checkRuns who k (runsOf va n)
    match r with
    | .error t => (s, .error t)
    | .ok ps => (s.commitParts who k ps).rdParts who sc false va ps
  let bad : TrapInfo := layTrap (6, 0x0C)
  let (s, b) := rd s l.ctab 64
  match b with
  | .error t => (s, .error t)
  | .ok b =>
    let n := field b 4 4
    if n == 0 || 2 ^ l.w < n then (s, .error bad)
    else
      let (s, y) := rd s (l.ctab + 64) (2 * n)
      (s, match y with
        | .error t => .error t
        | .ok y => match CTab.of l.w b y with | some t => .ok t | none => .error bad)

/-! ## What the start of a command finds -/

/-- A command cannot start yet, fails, or starts. -/
inductive CopyGo where
  | hold (s : State) | fail (s : State) (t : TrapInfo) | go (s : State) (c : CCmd)

/-- A segment that a tile load reads: its tile row, address, parts, header bytes. -/
structure SegIn where
  row : Nat
  va  : Nat
  ps  : List Part
  hdr : List Byte

/-- The failure of a load's headers, row by row (R321, step 3). -/
def hdrFail (l : Lay) (d : Dir) : List SegIn → Option TrapInfo
  | [] => none
  | g :: rest =>
    match segHdrBad l g.hdr with
    | some e => some (segHdrTrap g.row e g.va)
    | none =>
      let v := (SegHdr.of g.hdr).stamp
      if 10 ≤ l.fmt && !d.valid v then some (staleCb 1 l.cbid v (BitVec.ofNat 64 g.va)) else hdrFail l d rest

/-- Reason 5 of a transposing load (R318). -/
def trFail (gs : List SegIn) : Option TrapInfo :=
  match gs with
  | [] => none
  | g0 :: _ =>
    let h0 := SegHdr.of g0.hdr
    (gs.find? (fun g =>
      let h := SegHdr.of g.hdr
      h.stamp ≠ h0.stamp || h.had ≠ h0.had || h.scales.any (· ≠ 127))).map (fun g => segHdrTrap g.row 5 g.va)

/-- Read and decode the segments, ascending row: the indices of each, or the first failure; the first uncorrectable error. -/
def State.readSegs (s : State) (who : Who) (sc : Scope) (l : Lay) (t : Option CTab) :
    List SegIn → State × Except TrapInfo (List (List Nat)) × Option TrapInfo
  | [] => (s, .ok [], none)
  | g :: rest =>
    let h := SegHdr.of g.hdr
    let (s, b, e) := s.readSpan who sc (subParts g.ps 8 (if h.cmp then h.len else l.S - 8))
    match segIdx l t (g.hdr ++ b) with
    | .error x => (s, .error (cmpTrap g.row x g.va), none)
    | .ok is =>
      let (s, r, e') := s.readSegs who sc l t rest
      (s, (match r with | .ok m => .ok (is :: m) | x => x), match e with | some hd => some (eccu hd g.va) | none => e')

/-- The cells of a row that indices fill (R318). -/
def idxCells (d : Nat) (is : List Nat) : List Nat := is.flatMap (fun x => x :: List.replicate (d - 1) 0)

/-- The tag of a loaded row. -/
def loadTag (l : Lay) (h : SegHdr) (scales : List Nat) : Word :=
  mkTag l.fmt l.signed h.had l.cbid (if l.fmt < 10 then 0 else h.stamp) scales

/-- Start a tile load (R318, R321). -/
def State.tldGo (s0 : State) (core : Nat) (e : CCmd) (trow : Nat) (tr : Bool) (n : Nat) (sc : Scope) : CopyGo :=
  let s := s0
  let l := Lay.of e.record
  let who := s.whoOf e.sid
  let k := bulkKind false false
  let (s, d) := s.layDir core (s.asidOf e.sid) l
  match d with
  | .error t => .fail s t
  | .ok d =>
    let vas := (List.range n).map (fun i => l.segVa (l.row0 + i) l.col0)
    let (s, ps) := s.checkBulk who k (vas.map (fun v => (v, l.S)))
    match ps with
    | .error t => .fail s t
    | .ok ps =>
      if s.anyLocked who sc false false ps.flatten then .hold s0
      else
        let s := s.commitParts who k ps.flatten
        let (s, gs, he) := ((vas.zip ps).zipIdx).foldl (fun ((s, gs, he) : State × List SegIn × Option TrapInfo) ((va, p), i) =>
          let (s, b, x) := s.readSpan who sc (subParts p 0 8)
          (s, gs ++ [{ row := trow + i, va := va, ps := p, hdr := b }],
            match he with | some t => some t | none => x.map (fun h => eccu h va))) (s, [], none)
        match (hdrFail l d gs).orElse (fun _ => if tr then trFail gs else none) with
        | some t => .fail s t
        | none =>
          let (s, tab) := if gs.any (fun g => (SegHdr.of g.hdr).cmp) then
              (let (s, t) := s.readCtab who sc l
               (s, match t with | .error x => Except.error x | .ok t => Except.ok (some t)))
            else (s, Except.ok none)
          match tab with
          | .error t => .fail s t
          | .ok tab =>
            let (s, is, be) := s.readSegs who sc l tab gs
            match is, he.orElse (fun _ => be) with
            | .error t, _ => .fail s t
            | .ok _, some t => .fail s t
            | .ok is, none =>
              let hs := gs.map (fun g => SegHdr.of g.hdr)
              let cells := is.map (idxCells l.d)
              let img : List (Nat × Lane) :=
                if tr then (List.range 128).flatMap (fun p => cells.zipIdx.map (fun (c, i) =>
                  (p * 128 + trow + i, BitVec.ofNat 32 (c.getD p 0))))
                else cells.zipIdx.flatMap (fun (c, i) => c.zipIdx.map (fun (x, p) =>
                  ((trow + i) * 128 + p, BitVec.ofNat 32 x)))
              let tags : List (Nat × Word) :=
                if tr then match hs with
                  | h :: _ => (List.range 128).map (fun r => (r, loadTag l h [127, 127, 127, 127]))
                  | [] => []
                else hs.zipIdx.map (fun (h, i) => (trow + i, loadTag l h h.scales))
              .go s { e with img := img, tagImg := tags }

/-! ## Tile stores (R319, R321) -/

/-- The indices of a row of cells (R319, R307). -/
def rowIdx (l : Lay) (cells : List Nat) : List Nat :=
  (List.range (128 / l.d)).map (fun j => cells.getD (j * l.d) 0 % 2 ^ l.w)

/-- Does a tag have the record's fmt, cbid and signed? -/
def Lay.sameTag (l : Lay) (g : Word) : Bool := tagFmt g == l.fmt && tagCbid g == l.cbid && tagSigned g == l.signed
/-- The version with which a record encodes. -/
def Lay.stamp (l : Lay) : Nat := if l.fmt < 10 then 0 else l.ver

/-- What a store does with a row: copies it, encodes it, or fails. -/
inductive RowUse where
  | copy | enc | bad (t : TrapInfo)

def rowUse (l : Lay) (d : Dir) (g : Word) (row va : Nat) : RowUse :=
  let stale (v : Nat) : Option TrapInfo :=
    if 10 ≤ l.fmt && !d.valid v then some (staleCb 1 l.cbid v (BitVec.ofNat 64 va)) else none
  if l.sameTag g then (match stale (tagStamp g) with | some t => .bad t | none => .copy)
  else if g == tagFp32 && l.fmt ≠ 0 then (match stale l.ver with | some t => .bad t | none => .enc)
  else .bad (layTrap (row % 256, 0x44))

/-- The failure of a transposing store's row tags. -/
def trTagFail (l : Lay) (d : Dir) (tags : List Word) (va : Nat) : Option TrapInfo :=
  let g0 := tags.headD 0
  match (tags.zipIdx.find? (fun (g, _) => !l.sameTag g || tagStamp g ≠ tagStamp g0 || tagHad g ≠ tagHad g0 ||
      (List.range 4).any (fun i => tagScale g i ≠ 127))) with
  | some (_, r) => some (layTrap (r, 0x45))
  | none => if 10 ≤ l.fmt && !d.valid (tagStamp g0) then some (staleCb 1 l.cbid (tagStamp g0) (BitVec.ofNat 64 va)) else none

/-- The stamp, had flag, scales and indices of one segment of a store. -/
structure SegOut where
  stamp  : Nat
  had    : Bool
  scales : List Nat
  idx    : List Nat

/-- A row that is copied. -/
def copySeg (l : Lay) (g : Word) (cells : List Lane) : SegOut :=
  { stamp := tagStamp g, had := tagHad g, scales := (List.range 4).map (tagScale g), idx := rowIdx l (cells.map (·.toNat)) }
/-- A row that is encoded: RNE, no draw. -/
def encSeg (l : Lay) (bs : Books) (xs : List XVal) : SegOut :=
  let k : Conv := { cbid := l.cbid, stamp := l.stamp, signed := l.signed, had := l.had }
  let y := encLine bs k (l.scale == 1 && l.cbid ≠ 0) .rne 0 xs
  { stamp := l.stamp, had := l.had ≠ 0, scales := y.scales, idx := rowIdx l y.cells }

/-- The bytes of a segment as stores to its parts. -/
def segStores (ps : List Part) (bs : List Byte) : List (Part × List Byte) :=
  (ps.foldl (fun ((out, b) : List (Part × List Byte) × List Byte) p =>
    let x := b.take p.len
    (if x.isEmpty then out else out ++ [({ p with len := x.length }, x)], b.drop p.len)) ([], bs)).1

/-- The image that a tile store takes of a tile as it starts: a core with that tile as its tile 0 (R320). -/
def Core.image (c : Core) (t : Nat) : Core :=
  { tile := planeOf c.tile t
    tag := (c.tag.filter (fun e => t * 128 ≤ e.1 && e.1 < (t + 1) * 128)).map (fun e => (e.1 - t * 128, e.2)) }

/-- What a store makes of its image: its segments, encoded with the books. -/
def Lay.segsOut (l : Lay) (d : Dir) (bs : Books) (im : Core) (trow : Nat) (tr : Bool) (n : Nat) : List SegOut :=
  let rows := (List.range 128).map (fun r => im.tileRow 0 r)
  (List.range n).map (fun i =>
    if tr then copySeg l (im.tagAt 0 0) (colOf rows 0 (trow + i))
    else match rowUse l d (im.tagAt 0 (trow + i)) (trow + i) 0 with
      | .enc => encSeg l bs (im.elemRow bs 0 (trow + i))
      | _ => copySeg l (im.tagAt 0 (trow + i)) (rows.getD (trow + i) []))

/-- A store whose image is taken and whose version is at hand: its pages, its compression table, and what it is to commit. -/
def State.tstEnd (s : State) (e : CCmd) (d : Dir) (bs : Books) (slots : List Nat) (im : Core) : CopyGo :=
  match e.instr with
  | .tst _ _ _ _ _ trow tr n =>
    let l := Lay.of e.record
    let who := s.whoOf e.sid
    let k := bulkKind true false
    let segs := l.segsOut d bs im trow.toNat tr (tileN n)
    let (s, ps) := s.checkBulk who k e.spans
    match ps with
    | .error x => .fail s x
    | .ok ps =>
      let (s, tab) := if l.cmp then
          (let (s, t) := s.readCtab who e.scope l
           (s, match t with | .error x => Except.error x | .ok t => Except.ok (some t)))
        else (s, Except.ok none)
      match tab with
      | .error x => .fail s x
      | .ok tab =>
        let st := (segs.zip ps).flatMap (fun (g, p) => segStores p (segBytes l tab g.stamp g.had g.scales g.idx))
        .go (s.commitParts who k ps.flatten)
          { e with store := st, lines := (linesOf (st.map (·.1))).eraseDups, slots := slots, need := none, img := [], tagImg := [] }
  | _ => .go s e

/-- A store that needs a version to encode with, which a miss may have to bring (09 R208): it waits with its image, or goes on. -/
def State.tstNeed (s : State) (core : Nat) (e : CCmd) (d : Dir) (im : Core) : CopyGo :=
  let l := Lay.of e.record
  let (s, r) := s.needAll core [] [(l.cbid, l.ver, d)]
  match r with
  | .error x => .fail s x
  | .ok none => .go s { e with need := some (l.cbid, l.ver, d), img := im.tile, tagImg := im.tag }
  | .ok (some (bs, slots)) => s.tstEnd e d bs slots im

/-- Start a tile store: its directory entry, its row tags and stamps, and its image. -/
def State.tstGo (s : State) (core : Nat) (e : CCmd) (t trow : Nat) (tr : Bool) (n : Nat) : CopyGo :=
  let l := Lay.of e.record
  let (s, d) := s.layDir core (s.asidOf e.sid) l
  match d with
  | .error x => .fail s x
  | .ok d =>
    let im := (s.core core).image t
    let vas := (List.range n).map (fun i => l.segVa (l.row0 + i) l.col0)
    let uses := vas.zipIdx.map (fun (va, i) => rowUse l d (im.tagAt 0 (trow + i)) (trow + i) va)
    let bad : Option TrapInfo := if tr then trTagFail l d ((List.range 128).map (im.tagAt 0)) (vas.headD 0)
      else uses.findSome? (fun u => match u with | .bad x => some x | _ => none)
    match bad with
    | some x => .fail s x
    | none =>
      if !tr && 10 ≤ l.fmt && uses.any (fun u => match u with | .enc => true | _ => false) then s.tstNeed core e d im
      else s.tstEnd e d [] [] im

/-! ## Band copies and window fetches (R325, R330) -/

/-- Start a band copy, or go on with one that failed at row `first`: its band, and every page, are checked before any byte moves. -/
def State.bandGo (s : State) (core : Nat) (e : CCmd) (n : Nat) (write zero : Bool) : CopyGo :=
  let l := Lay.of e.record
  let who := s.whoOf e.sid
  let k := bulkKind write true
  let (s, d) := s.layDir core (s.asidOf e.sid) l
  match d with
  | .error x => .fail s x
  | .ok d =>
    if zero && 10 ≤ l.fmt && !d.valid l.ver then .fail s (staleCb 1 l.cbid l.ver 0)
    else match if zero then none else (s.launchOf e.sid).bind (fun p => bandBad p e.record n (!write)) with
    | some x => .fail s x
    | none =>
      let (s, ps) := s.checkBulk who k (((List.range n).drop e.first).map l.rowSpan)
      match ps with
      | .error x => .fail s x
      | .ok ps => .go (s.commitParts who k ps.flatten) { e with parts := ps }

/-- The scratchpad offset of a row that a fetch brings. -/
def Lay.slot (l : Lay) (r : Nat) : Nat := l.ring + l.stride * ringSlot l.row0 l.ringrows r
/-- PROT of a fetch whose record names a ring outside the window-ring part: an entry that a handler has edited (R91). -/
def ringBad (p : Launch) (l : Lay) (rows : List Nat) : Option TrapInfo :=
  (rows.findSome? (fun r => firstBadScratch p (l.slot r) l.rowBytes)).map (fun a =>
    { cause := cPROT, aux := AKind.aux { bulk := true, write := true } 5, addr := BitVec.ofNat 64 a })
/-- Start a window fetch: every row is read at one logical time; the rows then arrive in the ring one by one. -/
def State.fetchGo (s0 : State) (core : Nat) (e : CCmd) : CopyGo :=
  let s := s0
  let l := Lay.of e.record
  let who := s.whoOf e.sid
  let sc := e.scope
  let k := bulkKind false Config.windowFar
  let (s, d) := s.layDir core (s.asidOf e.sid) l
  match d with
  | .error x => .fail s x
  | .ok _ =>
    let rows := (List.range (e.last + 1 - e.first)).map (e.first + ·)
    match (s.launchOf e.sid).bind (fun p => ringBad p l rows) with
    | some x => .fail s x
    | none =>
    let spans := rows.map (fun r => (l.segVa r l.col0, l.rowBytes))
    let (s, ps) := s.checkBulk who k spans
    match ps with
    | .error x => .fail s x
    | .ok ps =>
      if s.anyLocked who sc false false ps.flatten then .hold s0
      else
        let s := s.commitParts who k ps.flatten
        let (s, ws, er) := ((rows.zip spans).zip ps).foldl
          (fun ((s, ws, er) : State × List (Nat × Nat × List Byte) × Option TrapInfo) ((r, sp), p) =>
            let (s, b, x) := s.readSpan who sc p
            (s, ws ++ [(l.slot r, r, b)],
              match er with | some t => some t | none => x.map (fun h => eccu h sp.1))) (s, [], none)
        match er with
        | some t => .fail s t
        | none => .go s { e with writes := ws }

/-! ## The copy engine (R322, R329, R332) -/

/-- The scope of a copy command's word; that of a WADV is its window's. -/
def copyScope (i : Instr) (win : Scope) : Scope :=
  match i with
  | .tld _ _ _ _ sc .. | .tst _ _ _ _ sc .. | .cpy _ _ _ sc .. | .cpyz _ _ _ sc .. | .wopen _ _ _ sc => sc
  | _ => win
/-- The start of a command. -/
def State.copyGo (s : State) (core : Nat) (e : CCmd) : CopyGo :=
  match e.instr with
  | .tld _ _ _ _ _ trow tr n => s.tldGo core e trow.toNat tr (tileN n) e.scope
  | .tst _ _ _ t _ trow tr n => s.tstGo core e t.toNat trow.toNat tr (tileN n)
  | .cpy _ _ _ _ out n => s.bandGo core e (bandN n) out false
  | .cpyz _ _ _ _ n => s.bandGo core e (bandN n) true true
  | _ => s.fetchGo core e

/-- A command as a replay entry holds it; a band copy's keeps the number of its first row that has not moved (log 77). -/
def CCmd.fresh (e : CCmd) : CCmd :=
  { e with started := 0, since := 0, store := [], writes := [], img := [], tagImg := [], parts := [], lines := [], need := none, slots := [] }

/-- A queue's oldest command fails: it and those behind it go into its strand's replay queue (R322). -/
def State.copyFail (s : State) (core : Nat) (st : Bool) (t : TrapInfo) : State :=
  match (s.core core).copies st with
  | [] => s
  | e :: rest =>
    let s := (s.modCore core (fun c => (c.setCr st none).setCq st [])).unlock e.id
    let s := s.deferTrap e.sid (.copy e.fresh) t
    rest.foldl (fun s e => s.defer e.sid { body := .copy e, state := 2 }) s

/-- Has the strand an access before a command that is not performed and that the command must follow (R332, R333)? -/
def State.olderAccess (s : State) (core : Nat) (e : CCmd) : Bool :=
  let x := s.xs e.sid
  x.lates.any (fun r => r.1.id < e.id && s.behindCopy core e (fixKind r.1.instr).writes r.2.parts) ||
  x.tags.toList.any (fun t => match t.req with
    | some r => !r.performed && r.id < e.id && s.behindCopy core e (qKind r.instr).writes r.parts
    | none => false)

/-- The numbers of the locks that a tile store needs: those of the lines of its coherent pages at the home slice, of its
software-coherent ones at the holder of its scope's level (17 R344, R348). -/
def State.lockKeys (s : State) (core : Nat) (e : CCmd) : List Nat :=
  (e.store.flatMap (fun x =>
    if 2 ≤ pteAttr x.1.leaf.pte then [] else (linesOf [x.1]).map (fun l => lockKey l (orderAt (copyAcc s core e x.1))))).eraseDups
/-- Request the locks that a tile store lacks: a younger holder gives up all of its own (17 R344, R345). -/
def State.tryLocks (s : State) (core : Nat) (st : Bool) (e : CCmd) : State :=
  (s.lockKeys core e).foldl (fun (s : State) l =>
    match Sparse.get s.ms.locks 0 l with
    | 0 => s.setMs { s.ms with locks := Sparse.set s.ms.locks 0 l (e.id + 1) }
    | v + 1 =>
      if v == e.id then s
      else match s.runningCopies.find? (fun x => x.2.2.id == v) with
        | some x =>
          if olderTst (core, st, e) x then
            let s := s.unlock v
            s.setMs { s.ms with locks := Sparse.set s.ms.locks 0 l (e.id + 1) }
          else s
        | none => s) s
/-- Does a tile store hold every lock? -/
def State.allLocks (s : State) (core : Nat) (e : CCmd) : Bool :=
  (s.lockKeys core e).all (fun l => Sparse.get s.ms.locks 0 l == e.id + 1)

/-- A command runs, or goes on: a tile store that has its bytes asks for its locks. -/
def State.copyRun (s : State) (core : Nat) (st : Bool) (e : CCmd) : State :=
  (s.modCore core (fun c => c.setCr st (some e))).tryLocks core st e
/-- Start the command at the head of a queue. -/
def State.copyStart (s : State) (core : Nat) (st : Bool) : State :=
  match (s.core core).cq st with
  | [] => s
  | e :: rest =>
    if s.olderAccess core e then s
    else match s.copyGo core e with
    | .hold s => s
    | .fail s t => s.copyFail core st t
    | .go s e =>
      (s.modCore core (fun c => c.setCq st rest)).copyRun core st { e with started := s.clock.ns, since := s.cycle }
/-- A tile store that waits for its version tries again. -/
def State.copyRetry (s : State) (core : Nat) (st : Bool) (e : CCmd) : State :=
  match e.need with
  | none => s
  | some (_, _, d) => match s.tstNeed core e d { tile := e.img, tag := e.tagImg } with
    | .hold s => s
    | .fail s t => s.copyFail core st t
    | .go s e => s.copyRun core st e

/-- Move the next row of a running band copy or fetch. -/
def State.copyRow (s : State) (core : Nat) (st : Bool) (e : CCmd) : State :=
  let l := Lay.of e.record
  let put (s : State) (e : CCmd) : State := s.modCore core (fun c => c.setCr st (some e))
  match e.win, e.writes, e.parts with
  | some w, (off, r, bs) :: rest, _ =>
    let s := s.spWr core off bs
    let x := (s.core core).winAt w
    let s := if x.gen ≠ e.gen then s else
      s.setWin core w
        { x with arrived := x.arrived.filter (fun q => ringSlot x.row0 x.rows q ≠ ringSlot x.row0 x.rows r) ++ [r] }
    put s { e with writes := rest }
  | none, _, ps :: rest =>
    let who := s.whoOf e.sid
    if s.anyLocked who e.scope false e.writesMem ps then s
    else
      let next (s : State) (ls : List Nat) : State := put s { e with parts := rest, first := e.first + 1, lines := e.lines ++ ls }
      if e.writesMem then
        let (s, x) := s.bandOut core e e.first ps
        match x with | some t => s.copyFail core st t | none => next s (linesOf ps)
      else
        let (s, r) := s.rdParts who e.scope false (l.rowSpan e.first).1 ps
        match r with
        | .error t => s.copyFail core st t
        | .ok bs => next (s.spWr core (l.ring + e.first * l.stride) bs) []
  | _, _, _ => s

/-- The queue that an event names. -/
def State.evCopy (s : State) : Option (Nat × Bool) := match s.ev with | .copyQueue c st => some (c, st) | _ => none

/-- Has a copy queue work while a late access of its core must still wait, for a command, for a request that follows one, or for a tile
store's lock? The core stands still for the access, and the queue goes on (R332; log 80). -/
def State.copyNeeded (s : State) (core : Nat) (st : Bool) : Bool :=
  !((s.core core).copies st).isEmpty && (coreSids core).any s.lateStuck
/-- May a copy queue go on while its core stands as it does (05 R119)? -/
def State.copyMoves (s : State) (core : Nat) (st : Bool) : Bool := !s.frozen core || s.copyNeeded core st
/-- The copy engine takes the next command of a queue, or goes on with the one it runs: a store that waits for a version, the next row of
another. -/
def execCopyCommandStart : Meaning := fun s =>
  match s.evCopy with
  | none => out s
  | some (core, st) =>
    match (s.core core).cr st with
    | none => onlyIf (s.mayStart core || (!s.gated core && s.copyNeeded core st)) (fun s => s.copyStart core st) s
    | some e => onlyIf (s.copyMoves core st) (fun s => if e.isTst then s.copyRetry core st e else s.copyRow core st e) s

/-- The tile that a load writes. -/
def CCmd.tile (e : CCmd) : Nat := match e.instr with | .tld _ _ _ t .. => t.toNat | _ => 0

/-- A command completes: a load's tile is written at one instant, and the token is pushed (R332). -/
def State.copyDone (s : State) (core : Nat) (st : Bool) (e : CCmd) : State :=
  let s := s.modCore core (fun c =>
    let c := c.setCr st none
    if e.img.isEmpty then c
    else e.tagImg.foldl (fun c (r, g) => c.setTag e.tile r g) (c.putTile e.tile e.img))
  match e.nr, (s.xs e.sid).team with
  | some nr, some tid => s.fillTok tid (s.xs e.sid).role.toNat nr e.lines
  | _, _ => s
def execCopyCommandComplete : Meaning := fun s =>
  match s.evCopy with
  | none => out s
  | some (core, st) =>
    match (s.core core).cr st with
    | none => out s
    | some e => onlyIf (s.copyMoves core st && !e.working) (fun s => s.copyDone core st e) s

/-- Can a running command still be without a reply: a store not committed, a load, a band copy with rows to move, a fetch of which no row
has arrived? -/
def CCmd.noReply (e : CCmd) : Bool :=
  !e.store.isEmpty || (!e.isTst && !e.img.isEmpty) || !e.parts.isEmpty || (e.win.isSome && e.writes.length == e.last + 1 - e.first)

/-- MEMTO after 2^22 cycles without a reply (R321). -/
def execCopyTimeout : Meaning := fun s =>
  match s.evCopy with
  | none => out s
  | some (core, st) =>
    match (s.core core).cr st with
    | none => out s
    | some e => onlyIf (e.since + Config.timeoutCycles ≤ s.cycle && (e.noReply)) (fun s => s.copyFail core st (memtoWord e.word)) s

/-- PROT of a tile store one of whose key slots has been emptied since it was checked. -/
def CCmd.keyTrap (ms : MemSys) (e : CCmd) : TrapInfo :=
  Machine.keyTrap (bulkKind true false)
    (((e.store.find? (fun x => keyGenOf ms (slc x.1.leaf.pte 15 10) == 0)).map (fun x => x.1.va)).getD 0)
/-- A tile store that holds every lock commits; one that lacks some asks again. -/
def execTileStoreCommit : Meaning := fun s =>
  match s.evCopy with
  | none => out s
  | some (core, st) =>
    match (s.core core).cr st with
    | none => out s
    | some e => onlyIf (!e.store.isEmpty) (fun s =>
        let s := s.tryLocks core st e
        if !s.allLocks core e then s
        else if e.keyless s.ms then s.copyFail core st (e.keyTrap s.ms)
        else s.commitTst core st e) s

/-! ## Version misses of commands (09 R208) -/

/-- The archive has not answered in time: every unit that waits for the version fails with MEMTO. -/
def State.versionTimeout (s : State) (core : Nat) (m : VMiss) : State :=
  let key := (m.cbid.toNat, m.stamp.toNat)
  let s := s.missTimeout core m
  let c := s.core core
  let s := match c.erun with
    | some e => if !e.acted && (e.need.map (fun n => (n.1, n.2.1))).contains key then s.engFail core (memtoWord e.word) else s
    | none => s
  [false, true].foldl (fun (s : State) st => match (s.core core).cr st with
    | some e => if e.need.map (fun n => (n.1, n.2.1)) == some key then s.copyFail core st (memtoWord e.word) else s
    | none => s) s
def execVersionMissTimeout : Meaning := fun s =>
  match s.evMiss with
  | none => out s
  | some (core, m) => onlyIf (m.start + Config.timeoutCycles ≤ s.cycle) (fun s => s.versionTimeout core m) s

end Machine
end Sys2Proof
end

