-- ==== Sys2Proof/Machine/LoadStore.lean ====
section
/-! DEFINITION. Fixed-latency accesses: scratchpad and global loads and stores, scratchpad atomics, vector accesses (12 R278-R288,
R296, R297). -/

namespace Sys2Proof
namespace Machine

/-! ## The order of one strand's accesses (R283, R292; 13 R332, R333) -/

/-- The runs of scratchpad bytes that it touches: offset and length. -/
def FixPlan.bytes : FixPlan → List (Nat × Nat)
  | .sp off n => [(off, n)]
  | .lanes true n rs => rs.map (fun e => (e.1.va, n * e.1.lanes.length))
  | _ => []
/-- Does it act on the scratchpad? -/
def FixPlan.isSp : FixPlan → Bool
  | .sp _ _ => true | .lanes b _ _ => b | .mem _ => false

/-- The scratchpad bands that a copy command moves: offset and length. -/
def CCmd.bands (e : CCmd) : List (Nat × Nat) :=
  let l := Lay.of e.record
  match e.instr with
  | .cpy _ _ _ _ _ n => (List.range (bandN n)).map (fun i => (l.ring + i * l.stride, l.rowBytes))
  | .wopen .. | .wadv .. => (List.range (e.last + 1 - e.first)).map (fun i =>
      (l.ring + l.stride * ringSlot l.row0 l.ringrows (e.first + i), l.rowBytes))
  | _ => []

/-- Does a passed scratchpad access wait at its word for a copy command of its strand that moves bytes of it (R332; log 52)? -/
def State.bandWait (s : State) (p : FixPlan) : Bool :=
  (s.copyPending s.cur).any (fun e => e.bands.any (fun b => p.bytes.any (fun x => x.1 < b.1 + b.2 && b.1 < x.1 + x.2)))

/-! ## Performing -/

/-- A passed access whose reply is late: its destination waits on its counter (05 R119). -/
def State.fixLater (s : State) (r : FixReq) (p : FixPlan) (lat : Nat) : State :=
  let r := { r with due := s.now + lat }
  s.modSt (fun x =>
    let x := match fixDst r.instr with | some d => x.setDue d r.due | none => x
    { x with lates := x.lates ++ [(r, p)] })

/-- A passed access performed as it issues: its destination at its latency, or an uncorrectable error deferred (R294). -/
def State.fixNow (s : State) (r : FixReq) (p : FixPlan) (lat : Nat) : State :=
  let old := match fixDst r.instr with | some ⟨.v, n⟩ => s.st.vr (BitVec.ofNat 5 n) | _ => Vector.replicate 64 0
  let (s, x) := s.fixDo s.cur r p old
  match x with
  | .error t => s.deferTrap s.cur (.fix r) t
  | .ok (v, fl) =>
    let s := match fixDst r.instr, v with
      | some d, some v => s.modSt (fun y => y.setReg d v (s.now + lat))
      | _, _ => s
    s.addFlags fl lat

/-! ## Bank conflicts (R282, R284) -/

/-- The rows that an access touches, each as its bank and its number in the bank. -/
def FixPlan.rows (p : FixPlan) : List (Nat × Nat) :=
  (p.bytes.flatMap (fun b => (List.range ((b.1 % 64 + b.2 + 63) / 64)).map (fun i => (b.1 / 64 + i) % 2 ^ 14))).eraseDups.map
    (fun r => (r % 16, r / 16))
/-- The greatest of some numbers; 0 for none. -/
def maxOf (l : List Nat) : Nat := l.foldl max 0
/-- The rows of an access in a bank. -/
def bankRows (rows : List (Nat × Nat)) (b : Nat) : Nat := (rows.filter (fun r => r.1 == b)).length
/-- The wait of an access: the bank cycles that it needs beyond the first, and those that it spends behind the accesses of this cycle ahead
of it, in the bank where they are most (log 75). -/
def bankWait (ahead : Sparse Nat) (rows : List (Nat × Nat)) : Nat :=
  maxOf (rows.map (fun r => bankRows rows r.1)) - 1 + maxOf (rows.map (fun r => Sparse.get ahead 0 r.1))
/-- A scratchpad access has been made: its rows are noted, and a wait beyond the two cycles that its latency absorbs freezes the core when
its latency has passed. -/
def State.spDone (s : State) (p : FixPlan) (lat : Nat) : State :=
  s.modCore s.cc (fun c =>
    let w := bankWait c.banks p.rows
    { c with
      banks := (p.rows.map (·.1)).eraseDups.foldl (fun m b => Sparse.set m 0 b (Sparse.get m 0 b + bankRows p.rows b)) c.banks
      stalls := if 2 < w then c.stalls ++ [(c.clk + lat, w - 2)] else c.stalls })

/-! ## The word of a fixed-latency access -/

/-- Is the reply of a passed access late: its line is locked, the strand has earlier accesses that it must follow, or it misses and the
turn of the schedule says so? -/
def State.fixLate (s : State) (tlb : MemSys) (r : FixReq) (p : FixPlan) : Bool :=
  s.fixLocked s.cur r p || s.behind s.cur r.id (fixKind r.instr).writes p.parts || (s.late && !s.fixHit tlb s.cur r p)

/-- A fixed-latency access: checked, then performed, or made late. A vector access that finds too few access captures free waits (05
R111; 18 R375). -/
def fixAccess (h : Hdr) (u : Use) (lat : Nat) (mk : State → State × FixReq) : Meaning :=
  issue h u (fun s =>
    let (t, r) := mk s
    match s.st.freeCap r with
    | none => .wait s .caps
    | some cap =>
      let r := { r with cap := cap }
      let (t, x) := t.fixCheck s.cur r
      match x with
      | .error e => .trap { t with strands := s.strands, nextId := s.nextId } e
      | .ok p =>
        if p.isSp then
          if t.bandWait p then .wait { t with strands := s.strands, nextId := s.nextId } .late
          else .done ((t.fixNow r p lat).spDone p lat)
        else if t.fixLate s.ms r p then .done (t.fixLater r p lat)
        else .done (t.fixNow r p lat))

/-- The request of a word at an address, with a fresh number. -/
def State.fixReq (s : State) (i : Instr) (addr : Word) : State × FixReq :=
  let (id, s) := s.fresh
  (s, { id := id, instr := i, word := s.wordAt s.cur, pc := s.st.pc, addr := addr })

/-! ## Scalar accesses (R283, R285) -/

def execLds (h : Hdr) (sz : LdSize) (sc : Scope) (d a b : SReg) (off : BitVec 20) : Meaning :=
  fixAccess h { rd := [rS a, rS b], wr := [rS d] } 8 (fun s => s.fixReq (.lds h sz sc d a b off) (s.ea a b off))
def execLdg (h : Hdr) (sz : LdSize) (sc : Scope) (d a b : SReg) (off : BitVec 20) : Meaning :=
  fixAccess h { rd := [rS a, rS b], wr := [rS d] } 8 (fun s => s.fixReq (.ldg h sz sc d a b off) (s.ea a b off))
/-- A request with the data that it stores. -/
def storing (d : SReg) (s : State) (r : State × FixReq) : State × FixReq := (r.1, { r.2 with data := s.sr d })
def execSts (h : Hdr) (sz : StSize) (sc : Scope) (d a b : SReg) (off : BitVec 20) : Meaning :=
  fixAccess h { rd := [rS d, rS a, rS b] } 1 (fun s => storing d s (s.fixReq (.sts h sz sc d a b off) (s.ea a b off)))
def execStg (h : Hdr) (sz : StSize) (sc : Scope) (d a b : SReg) (off : BitVec 20) : Meaning :=
  fixAccess h { rd := [rS d, rS a, rS b] } 1 (fun s => storing d s (s.fixReq (.stg h sz sc d a b off) (s.ea a b off)))

/-! ## Scratchpad atomics (R296, R297) -/

/-- The operand registers of an atomic: b, and the new value of cas. -/
def amoRegs (op : AmoOp) (b : SReg) : List Reg := if op = .cas then [rS b, ⟨.s, b.toNat + 1⟩] else [rS b]
/-- The new value of cas. -/
def State.casNew (s : State) (op : AmoOp) (b : SReg) : Word := if op = .cas then s.srN (b.toNat + 1) else 0
/-- Does a float atomic draw? -/
def famoMode (op : FAmoOp) (m : RMode) : RMode := if op = .fadd then m else .rne

def execSamo (h : Hdr) (op : AmoOp) (sz : AmoSize) (sc : Scope) (d a b : SReg) (off : BitVec 16) : Meaning :=
  fixAccess h { rd := rS a :: amoRegs op b, wr := [rS d] } 10 (fun s =>
    let (t, r) := s.fixReq (.samo h op sz sc d a b off) (s.ea0 a off)
    (t, { r with data := s.sr b, data2 := s.casNew op b }))
def execSamof (h : Hdr) (op : FAmoOp) (sz : AmoSize) (sc : Scope) (d a b : SReg) (off : BitVec 16) : Meaning :=
  fixAccess h { rd := [rS a, rS b], wr := [rS d] } 10 (fun s =>
    let (t, r) := s.fixReq (.samof h op sz sc d a b off) (s.ea0 a off)
    let (n, t) := t.drawSr (famoMode op s.rmode)
    (t, { r with data := s.sr b, rm := s.rmode, rnd := n }))

/-! ## Vector accesses (R286-R288) -/

/-- The use of a vector access: active lanes, no vector pipe. -/
def vmUse (rd wr : List Reg) : Use := { rd := rd, wr := wr, on := State.lanesOn }

def execLdv (h : Hdr) (sz : VecSize) (sc : Scope) (d : VReg) (a b : SReg) (off : BitVec 20) : Meaning :=
  fixAccess h (vmUse [rS a, rS b] [rV d]) 10 (fun s =>
    let (t, r) := s.fixReq (.ldv h sz sc d a b off) (s.ea a b off)
    (t, { r with mask := s.laneMask h }))
def execStv (h : Hdr) (sz : VecSize) (sc : Scope) (d : VReg) (a b : SReg) (off : BitVec 20) : Meaning :=
  fixAccess h (vmUse [rV d, rS a, rS b] []) 1 (fun s =>
    let (t, r) := s.fixReq (.stv h sz sc d a b off) (s.ea a b off)
    (t, { r with mask := s.laneMask h, vdata := s.vr d }))
def execVgath (h : Hdr) (sz : VecSize) (sc : Scope) (d : VReg) (a : SReg) (b : VReg) (off : BitVec 20) : Meaning :=
  fixAccess h (vmUse [rS a, rV b] [rV d]) 12 (fun s =>
    let (t, r) := s.fixReq (.vgath h sz sc d a b off) (s.ea0 a off)
    (t, { r with mask := s.laneMask h, voff := s.vr b }))
def execVscat (h : Hdr) (sz : VecSize) (sc : Scope) (d : VReg) (a : SReg) (b : VReg) (off : BitVec 20) : Meaning :=
  fixAccess h (vmUse [rV d, rS a, rV b] []) 1 (fun s =>
    let (t, r) := s.fixReq (.vscat h sz sc d a b off) (s.ea0 a off)
    (t, { r with mask := s.laneMask h, vdata := s.vr d, voff := s.vr b }))

end Machine
end Sys2Proof
end

