-- ==== Sys2Proof/Machine/Queued.lean ====
section
/-! DEFINITION. Queued requests and their tags: QLD, QLDP, QST, GAMO, GAMOF, QWAIT, QPOP, and the events of their replies (12
R289-R298). -/

namespace Sys2Proof
namespace Machine

/-! ## Tags (R289) -/

def Strand.tagAt (x : Strand) (t : BitVec 3) : Tag := x.tags[t.toNat]'t.isLt
def Strand.setTag (x : Strand) (t : BitVec 3) (g : Tag) : Strand := { x with tags := x.tags.set t.toNat g t.isLt }
def Tag.busy (g : Tag) : Bool := g.req.isSome
/-- A tag whose reply has been written in a cycle can be used again from the next (14 R335). -/
def Tag.used (g : Tag) (now : Nat) : Bool := g.busy || (g.arrived && g.rank / 8 == now)
/-- The request of a word that names a tag, with its operation's number and the registers that await it. -/
def State.takeTag (s : State) (sid : Nat) (t : BitVec 3) (r : QReq) : State × QReq :=
  let (id, s) := s.block sid (.queued t.toNat) (qDst r.instr) [] 0 false
  let r := { r with id := id, issued := s.cycle }
  (s.modXs sid (fun x => x.setTag t { req := some r, arrived := false }), r)

/-! ## Performing a request -/

/-- A performed request's values are known, or it fails (R294). -/
def State.qDone (s : State) (sid : Nat) (t : BitVec 3) (r : QReq) (x : Except TrapInfo (List RVal × Flags)) : State :=
  match x with
  | .error e => s.deferTrap sid (.queued r t.toNat) e
  | .ok (vals, fl) => s.modXs sid (fun y =>
    let y := y.setTag t { req := some { r with performed := true }, arrived := false }
    { y with ops := y.ops.map (fun o => if o.id == r.id then { o with vals := vals, flags := fl, done := true } else o) })

/-- Perform a request on its parts. -/
def State.qPerform (s : State) (sid : Nat) (t : BitVec 3) (r : QReq) : State :=
  let (s, x) := s.qDo sid r
  s.qDone sid t r x

/-- Must a request still wait: for a tile store's lock, or for what its strand issued before it (R292; 17 R341)? -/
def State.qHeld (s : State) (sid : Nat) (r : QReq) : Bool :=
  let k := qKind r.instr
  s.behind sid r.id k.writes r.parts || s.anyLocked (s.whoOf sid) (scopeOf r.instr) false k.writes r.parts
/-- An issued request whose pages have passed: performed at the home side at once (log 54), or later (FAR pages, one that must wait, one
that the turn of the schedule holds back). -/
def State.qIssue (s : State) (sid : Nat) (t : BitVec 3) (r : QReq) (ps : List Part) (lost : Bool) : State :=
  let s := s.commitParts (s.whoOf sid) (qKind r.instr) ps
  let (s, r) := s.takeTag sid t { r with parts := ps, lost := lost }
  if nearParts ps && !lost && !s.qHeld sid r then s.qPerform sid t r else s

/-- A queued request word. -/
def queuedAccess (h : Hdr) (u : Use) (t : BitVec 3) (mk : State → State × QReq) : Meaning :=
  issue h u (fun s =>
    if (s.st.tagAt t).used s.cycle then .wait s .queue
    else
      let (t', r) := mk s
      let (t', x) := t'.qCheck s.cur r
      match x with
      | .error e => .trap { t' with strands := s.strands } e
      | .ok ps => .done (t'.qIssue s.cur t r ps s.late))

/-- The request of a word at an address. -/
def State.qReq (s : State) (i : Instr) (addr : Word) : State × QReq :=
  (s, { id := 0, instr := i, word := s.wordAt s.cur, pc := s.st.pc, addr := addr })

/-! ## The words (R290, R296, R298) -/

def execQld (h : Hdr) (sz : LdSize) (sc : Scope) (tag : BitVec 3) (d a : SReg) (off : BitVec 20) : Meaning :=
  queuedAccess h { rd := [rS a], wr := [rS d] } tag (fun s => s.qReq (.qld h sz sc tag d a off) (s.ea0 a off))
def execQldp (h : Hdr) (sc : Scope) (tag : BitVec 3) (d a : SReg) (off : BitVec 20) : Meaning :=
  queuedAccess h { rd := [rS a], wr := pairRegs d } tag (fun s => s.qReq (.qldp h sc tag d a off) (s.ea0 a off))
/-- The registers that a queued store captures: its data, and its mask. -/
def qstRegs (sz : QstSize) (d : SReg) : List Reg := if sz = .mask then pairRegs d else [rS d]
def execQst (h : Hdr) (sz : QstSize) (sc : Scope) (tag : BitVec 3) (d a : SReg) (off : BitVec 20) : Meaning :=
  queuedAccess h { rd := rS a :: qstRegs sz d } tag (fun s =>
    let (t, r) := s.qReq (.qst h sz sc tag d a off) (s.ea0 a off)
    (t, { r with data := s.sr d, data2 := if sz = .mask then s.srN (d.toNat + 1) &&& 0xFF else 0 }))
def execGamo (h : Hdr) (op : AmoOp) (sz : AmoSize) (tag : BitVec 3) (d a b : SReg) (off : BitVec 16) : Meaning :=
  queuedAccess h { rd := rS a :: amoRegs op b, wr := [rS d] } tag (fun s =>
    let (t, r) := s.qReq (.gamo h op sz tag d a b off) (s.ea0 a off)
    (t, { r with data := s.sr b, data2 := s.casNew op b }))
def execGamof (h : Hdr) (op : FAmoOp) (sz : AmoSize) (tag : BitVec 3) (d a b : SReg) (off : BitVec 16) : Meaning :=
  queuedAccess h { rd := [rS a, rS b], wr := [rS d] } tag (fun s =>
    let (t, r) := s.qReq (.gamof h op sz tag d a b off) (s.ea0 a off)
    let (n, t) := t.drawSr (famoMode op s.rmode)
    (t, { r with data := s.sr b, rm := s.rmode, rnd := n }))

/-! ## QWAIT and QPOP (R293) -/

/-- The tags that QWAIT names. -/
def waitTags (tag : Option (BitVec 3)) : List (BitVec 3) :=
  match tag with | some t => [t] | none => (List.range 8).map (fun i => BitVec.ofNat 3 i)
def execQwait (h : Hdr) (tag : Option (BitVec 3)) : Meaning :=
  issue h {} (fun s =>
    if (waitTags tag).any (fun t => (s.st.tagAt t).used s.cycle) then .wait s .result
    else .done (s.modSt (fun x => (waitTags tag).foldl (fun x t => x.setTag t { x.tagAt t with arrived := false }) x)))

/-- The tag whose arrived flag was set earliest, of those that can be used. -/
def Strand.firstArrived (x : Strand) (now : Nat) : Option (BitVec 3) :=
  ((waitTags none).filter (fun t => (x.tagAt t).arrived && !(x.tagAt t).used now)).foldl (fun (b : Option (BitVec 3)) t => match b with
    | none => some t
    | some u => if (x.tagAt t).rank < (x.tagAt u).rank then some t else b) none
def execQpop (h : Hdr) (d : SReg) : Meaning :=
  issue h { wr := [rS d] } (fun s =>
    match s.st.firstArrived s.cycle with
    | some t =>
      .done ((s.modSt (fun x => x.setTag t { x.tagAt t with arrived := false })).sysResult d (BitVec.ofNat 64 t.toNat))
    | none =>
      if (waitTags none).any (fun t => (s.st.tagAt t).used s.cycle) then .wait s .result
      else .done (s.sysResult d (BitVec.allOnes 64)))

/-! ## Requests for other packages (21 R398-R401) -/

/-- MEMTO of a queued request (18 R368). -/
def memtoQueued (r : QReq) (t : BitVec 3) : TrapInfo :=
  { cause := cMEMTO, aux := BitVec.ofNat 64 ((fOpc r.word).toNat + 256 * t.toNat + 2048), addr := r.addr }

/-- A fabric group of a context. -/
def State.group (s : State) (asid g : Nat) : FabricGroup :=
  Sparse.get s.pkg.groups { valid := false, n := 0, rank := 0, members := [] } (64 * asid + g)
/-- The member that a target word names: none where the group, the rank, or a context of this package is not valid. -/
def State.member (s : State) (asid : Nat) (target : Word) : Option (Nat × Nat) :=
  let g := s.group asid (slc target 13 8)
  let r := slc target 7 0
  if !g.valid || g.n ≤ r then none
  else match g.members[r]? with
    | none => none
    | some m => if m.1 == s.sys.pkgid.toNat && !s.ctxValid m.2 then none else some m
/-- A request for another package issues: it leaves, or it fails with MEMTO. -/
def State.fxIssue (s : State) (sid : Nat) (t : BitVec 3) (r : QReq) : State :=
  let m := s.member (s.asidOf sid) r.target
  let (s, r) := s.takeTag sid t { r with member := m }
  if m.isNone then s.deferTrap sid (.queued r t.toNat) (memtoQueued r t) else s

/-! ## Replies (R289, R292, R294, R295) -/

/-- Is an older unperformed request of the strand for the same member, and for bytes of this one (21 R401)? -/
def State.fxBehind (s : State) (sid : Nat) (r : QReq) : Bool :=
  (s.xs sid).tags.toList.any (fun g => match g.req with
    | some q => q.id < r.id && !q.performed && q.member.isSome && q.member == r.member &&
        q.addr.toNat < r.addr.toNat + (qSize r.instr).1 && r.addr.toNat < q.addr.toNat + (qSize q.instr).1
    | none => false)

/-! ## Remote accesses as a package performs them (21 R400) -/

/-- The bytes a remote request covers, and its kind of access. -/
def RemoteOp.size : RemoteOp → Nat
  | .read n => n | .write bs => bs.length | .atomic _ sz _ _ => sz.n | .signal _ => 8
def RemoteOp.kind : RemoteOp → AKind
  | .read _ => { far := true, noPriv := true }
  | .write _ => { write := true, far := true, noPriv := true }
  | _ => { amo := true, write := true, far := true, noPriv := true }
/-- The new value of a remote atomic. -/
def RemoteOp.new (op : RemoteOp) (m : Nat) : Nat :=
  match op with
  | .atomic o sz x y => amoNew o sz.n m x.toNat y.toNat
  | .signal x => (m + x.toNat) % 2 ^ 64
  | _ => m

/-- How a remote request reaches its page: the home slice, past software-coherent copies, or the base die. -/
def State.remoteAcc (s : State) (who : Who) (p : Part) : Acc :=
  let a := s.accOf who .package false p
  { a with attr := if a.attr == 1 then 0 else a.attr }

/-- A store to a line that is performed at a base die wakes the monitors armed on it, too (R400). -/
def State.noteWake (s : State) (line : Nat) : State := s.setMs { s.ms with wakes := s.ms.wakes ++ [line] }
/-- Perform a checked request on its page. -/
def State.remotePerform (s : State) (who : Who) (va : Word) (op : RemoteOp) (p : Part) : State × RemoteAns :=
  let a := s.remoteAcc who p
  let s := match op with | .read _ => s | _ => s.noteWake (p.pa / 64)
  let bad (h : Nat) : RemoteAns := .fail cECCU (BitVec.ofNat 64 h)
  match op with
  | .write bs =>
    let (ms, e) := writePa s.ms a p.pa bs
    (s.setMs ms, match e with | some (h, _) => bad h | none => .data 0)
  | .read _ =>
    let (bs, ms, e) := readPa s.ms a p.pa p.len
    (s.setMs ms, match e with | some (h, _) => bad h | none => .data (leWord bs))
  | _ =>
    let (s, r) := s.rmwParts who va.toNat [p] (fun m => (RemoteOp.new op m, 0)) p.len
    (s, match r with | .ok (m, _) => .data (BitVec.ofNat 64 m) | .error t => .fail t.cause t.aux)

/-- A request for memory of a context of this package: its page is checked under that context's tables, and it is performed; none while a
tile store has its line locked. -/
def State.remoteDo (s : State) (asid : Nat) (va : Word) (op : RemoteOp) : Option (State × RemoteAns) :=
  let who : Who := { core := rmCore, asid := asid }
  let k := RemoteOp.kind op
  let (t, x) := s.checkRuns who k (runsOf va.toNat (RemoteOp.size op))
  match x with
  | .error e => some (t, .fail e.cause e.aux)
  | .ok [p] => if t.anyLocked who .package false k.writes [p] then none else some ((t.commitParts who k [p]).remotePerform who va op p)
  | .ok _ => none

/-! ## The swap block of a team that is not resident (04 R97, R98; 18 R379) -/

/-- Bytes of a core region, and of a swap block as the pool lays them out (log 43). -/
def regionLen : Nat := 0x210000
def blockLen : Nat := 0x10000 + 4 * regionLen
/-- The VA of a swap block; the spill table comes first in the pool (17 R367). -/
def State.blockVa (s : State) (asid b : Nat) : Nat := s.ctxField asid 0x20 8 + 0x10000 + b * blockLen
/-- The VA of a role's strand frame in a swap block. -/
def frameVa (block role : Nat) : Nat := block + 0x10000 + role / 4 * regionLen + 0x2000 + 0x4000 * (role % 4)
/-- The swap block of a team. -/
def Team.block (t : Team) : Option Nat := match t.place with | .swapped b | .preempted b => some b | _ => none
/-- A reply's data, its tag's state and its flags written into the swap block; an access that fails kills the context. -/
def State.swapReply (s : State) (sid : Nat) (t : BitVec 3) (vals : List RVal) (flags : BitVec 5) : State :=
  match (s.teamOf sid).bind Team.block with
  | none => s
  | some b =>
    let asid := s.asidOf sid
    let frame := frameVa (s.blockVa asid b) ((sid - 768) % 16)
    let va := frame + 0x2500 + 32 * t.toNat
    let w (i : Nat) : Nat := match vals[i]? with | some (.w x) => x.toNat | _ => 0
    let rank := ((s.xs sid).tags.toList.filter (·.arrived)).length
    let (s, e1) := s.supWr rmCore asid kCohWr va (leBytes 8 (w 0) ++ leBytes 8 (w 1) ++ [2 + BitVec.ofNat 8 (4 * b2n (1 < vals.length))])
    let (s, e2) := s.supWr rmCore asid kCohWr (va + 18) (leBytes 1 rank)
    if e1.isSome || e2.isSome then s.kill asid 3
    else if flags = 0 then s
    else
      let (s, r) := s.supRd rmCore asid kCohRd (frame + 0x2408) 8
      match r with
      | .error _ => s.kill asid 3
      | .ok b =>
        let (s, e) := s.supWr rmCore asid kCohWr (frame + 0x2408) (leBytes 8 (leNat b ||| flags.toNat * 16))
        if e.isSome then s.kill asid 3 else s

/-- A token pushed while its team is away is counted in the swap block, as a reply is written there (21 R405). -/
def State.swapTok (s : State) (tid frm tgt : Nat) : State :=
  match s.team tid with
  | none => s
  | some t => match t.block, s.launch t.launch with
    | some b, some l =>
      let (s, e) := s.supWr rmCore l.asid kCohWr (s.blockVa l.asid b + 0x100 + handKey frm tgt) (leBytes 1 (t.handQ frm tgt).toks.length)
      if e.isSome then s.kill l.asid 3 else s
    | _, _ => s

/-- A reply is written: to its registers, the frame copies or the swap block; its tag is no longer busy and has arrived. -/
def State.qArrive (s : State) (sid : Nat) (t : BitVec 3) (r : QReq) : State :=
  let op := (s.xs sid).ops.find? (fun o => o.id == r.id)
  let s := if 768 ≤ sid then s.swapReply sid t (match op with | some o => if o.frame.isNone then o.vals else [] | none => [])
      ((op.map (·.flags)).getD 0) else s
  let s := s.deliver sid r.id
  s.modXs sid (fun x =>
    if ((x.tagAt t).req.map (·.id)) == some r.id then
      x.setTag t { req := none, arrived := true, rank := s.cycle * 8 + t.toNat }
    else x)

/-- What a remote package's answer gives a request: its data extended by size, or its failure (21 R400, R401). -/
def remoteResult (r : QReq) (ans : RemoteAns) : Except TrapInfo (List RVal × Flags) :=
  match ans, r.instr with
  | .fail cause aux, _ => .error { cause := cause, aux := aux, addr := r.addr }
  | .data w, .fxr _ sz .. => .ok ([.w (sz.ext (leBytes sz.n w.toNat))], 0)
  | .data w, .fxamo _ _ sz .. => .ok ([.w (BitVec.ofNat 64 (w.toNat % 2 ^ (8 * sz.n)))], 0)
  | .data _, _ => .ok ([], 0)

/-- Are a strand's replies held back (05 R119)? -/
def State.repliesHeld (s : State) (sid : Nat) : Bool := sid < 768 && s.frozen (coreOf sid)

/-- The request that an event names. -/
def State.evTag (s : State) : Option (Nat × BitVec 3 × QReq × RemoteAns) :=
  match s.ev with
  | .tag sid t ans => (((s.xs sid).tagAt t).req).map (fun r => (sid, t, r, ans))
  | _ => none

/-- A remote access as the package of its member performs it. -/
def QReq.remoteOp (r : QReq) : RemoteOp :=
  match r.instr with
  | .fxw _ sz .. => .write (leBytes sz.n r.data.toNat)
  | .fxamo _ op sz .. => .atomic op sz r.data r.data2
  | .fxsig .. => .signal r.data
  | .fxr _ sz .. => .read sz.n
  | _ => .read 8
/-- A remote request is performed: on this package's own memory where its member is this package, else by the answer that the event
brings. -/
def State.fxPerform (s : State) (sid : Nat) (t : BitVec 3) (r : QReq) (ans : RemoteAns) : State :=
  match r.member with
  | some (p, asid) =>
    if p == s.sys.pkgid.toNat then
      match s.remoteDo asid r.addr r.remoteOp with
      | some (s, a) => s.qDone sid t r (remoteResult r a)
      | none => s
    else s.qDone sid t r (remoteResult r ans)
  | none => s
/-- Make a request performed if it is not, and write its reply, unless the core holds replies back: a request is performed while its core
stands still, and its reply is then written by a later event (log 80). -/
def State.qReply (s : State) (sid : Nat) (t : BitVec 3) (r : QReq) (ans : RemoteAns) : State :=
  let w := if r.performed then s
    else if isFx r.instr then if s.fxBehind sid r then s else s.fxPerform sid t r ans
    else if s.qHeld sid r then s
    else s.qPerform sid t r
  if s.repliesHeld sid then w
  else match ((w.xs sid).tagAt t).req with
    | some q => if q.performed && q.id == r.id then w.qArrive sid t q else w
    | none => w

/-- Is a request past its time without a reply (R294)? A store or an atomic that has been performed has its reply in time (log 79). -/
def State.qOverdue (s : State) (r : QReq) : Bool :=
  r.issued + Config.timeoutCycles ≤ s.cycle && !(r.performed && (qKind r.instr).writes)
def execQueuedReply : Meaning := fun s =>
  match s.evTag with
  | none => out s
  | some (sid, t, r, ans) =>
    onlyIf (!(r.lost && !r.performed) && !s.qOverdue r) (fun s => s.qReply sid t r ans) s

def execQueuedTimeout : Meaning := fun s =>
  match s.evTag with
  | none => out s
  | some (sid, t, r, _) => onlyIf (s.qOverdue r)
      (fun s => s.deferTrap sid (.queued r t.toNat) (memtoQueued r t)) s

end Machine
end Sys2Proof
end

