-- ==== Sys2Proof/Machine/Maint.lean ====
section
/-! DEFINITION. Maintenance: CLEAN, INVAL, PFETCH (12 R300-R302). -/

namespace Sys2Proof
namespace Machine

/-- The lines of a physical page of 64 KiB, or the line of an address, that some holder or instruction cache has. -/
def State.maintLines (s : State) (sz : MaintSize) (pa : Nat) : List Nat :=
  match sz with
  | .line => [pa / 64]
  | .page =>
    let base := pa / 65536 * 1024
    let a : List Nat := s.ms.copies.map (fun (e : Nat × Copy) => e.1 / 256)
    let b : List Nat := s.ms.icache.map (fun (e : Nat × Block) => e.1 % 2 ^ 42)
    ((a ++ b).filter (fun l => base ≤ l && l < base + 1024)).eraseDups

/-- The bytes on which a maintenance word acts, and its A set (11 R261): none for a page that is not present or is FAR. -/
def State.maintPart (s : State) (sz : MaintSize) (va : Nat) : State × Option Part :=
  let asid := s.asidOf s.cur
  let (s, r) := s.findLeaf s.cc asid va
  match r with
  | .error _ => (s, none)
  | .ok l =>
    if pteAttr l.pte == 3 then (s, none)
    else
      let n := match sz with | .line => 64 | .page => 65536
      let va := va / n * n
      (s.setUsed s.cc asid false l va, some { va := va, pa := leafPa l.pte l.block va, len := n, leaf := l })

/-- A maintenance word: after the strand's earlier accesses to the bytes (R302), `f` on each line. -/
def maint (h : Hdr) (sz : MaintSize) (a b : SReg) (off : BitVec 20) (f : MemSys → Nat → Nat → MemSys) : Meaning :=
  issue h { rd := [rS a, rS b] } (fun s =>
    let (t, p) := s.maintPart sz (s.ea a b off).toNat
    match p with
    | none => .done t
    | some p =>
      if s.behind s.cur s.nextId true [p] then .wait s .late
      else .done (t.setMs ((t.maintLines sz p.pa).foldl (fun ms l => f ms s.cc l) t.ms)))

def execClean (h : Hdr) (sz : MaintSize) (sc : Scope) (a b : SReg) (off : BitVec 20) : Meaning :=
  maint h sz a b off (fun ms core l => cleanLine ms core l sc)
def execInval (h : Hdr) (sz : MaintSize) (sc : Scope) (a b : SReg) (off : BitVec 20) : Meaning :=
  maint h sz a b off (fun ms core l => invalLine ms core l sc)

/-- Fill a line into the holder that a level names. -/
def prefetchLine (ms : MemSys) (a : Acc) (line : Nat) (sc : Scope) : MemSys :=
  match sc with
  | .core => if a.hK == 0 then ms else (readLine ms { a with scope := .core, stash := true } line 0 64).2.1
  | .cluster => (readLine ms { a with scope := .cluster, stash := false } line 0 64).2.1
  | _ => (fillL2 (sameKey ms a line) a line 15).1
def execPfetch (h : Hdr) (sc : Scope) (a b : SReg) (off : BitVec 20) : Meaning :=
  issue h { rd := [rS a, rS b] } (fun s =>
    let va := (s.ea a b off).toNat / 64 * 64
    let who := s.whoOf s.cur
    let (t, r) := s.checkPage who { noHost := true } va 64
    match r with
    | .error _ => .done s
    | .ok p => .done (t.setMs (prefetchLine t.ms (t.accOf who sc false p) (p.pa / 64) sc)))

end Machine
end Sys2Proof
end

