-- ==== Sys2Proof/Machine/Sync.lean ====
section
/-! DEFINITION. Synchronising: FENCE, barriers and the Carousel, monitors (17 R355-R367). -/

namespace Sys2Proof
namespace Machine

/-! ## FENCE (R355, R356) -/

/-- FENCE: a release waits until everything it covers is performed; then the write-backs, then the drops. -/
def execFence (h : Hdr) (acq rel : Bool) (sc : Scope) : Meaning :=
  issue h {} (fun s =>
    if rel && !s.performedAt s.cur sc then .wait s .result
    else
      let s := if rel then s.releaseAt s.cur sc else s
      .done (if acq then s.acquireAt s.cur sc else s))

/-! ## Barriers (R357-R361) -/

def Team.bar (t : Team) (e : Nat) : BarEntry := Sparse.get t.bars {} e
def Team.setBar (t : Team) (e : Nat) (b : BarEntry) : Team := { t with bars := Sparse.set t.bars {} e b }

/-- The entry that a BAR names (R359). -/
def Strand.barEntry (x : Strand) (ring : Byte) (off : BitVec 4) : Nat :=
  ring.toNat + (x.carbase.toNat + off.toNat) % x.cardepth.toNat
/-- A role's bit. -/
def roleBit (r : BitVec 4) : BitVec 16 := 1#16 <<< r.toNat
/-- Is a participant mask illegal for a role of a team of a shape? -/
def badMask (m : BitVec 16) (own : BitVec 4) (shape : Nat) : Bool :=
  m = 0 || m &&& roleBit own = 0 || 2 ^ (4 * shape) ≤ m.toNat

/-- An entry whose arrived set equals its mask completes its generation. -/
def BarEntry.complete (b : BarEntry) : BarEntry := if b.arrived = b.mask then { b with g := b.g + 1, arrived := 0 } else b
/-- The arrival of a role with a mask. -/
def BarEntry.arrive (b : BarEntry) (own : BitVec 4) (m : BitVec 16) : BarEntry :=
  BarEntry.complete { b with
    taken := true
    mask := if b.arrived = 0 then m else b.mask
    arrived := b.arrived ||| roleBit own
    joined := b.joined ||| roleBit own
    last := b.last.set own.toNat b.g own.isLt }
/-- Has a generation completed? -/
def BarEntry.over (b : BarEntry) (gen : BitVec 32) : Bool := b.g ≠ gen

/-- What a BAR that has no pending arrival does. -/
inductive BarDo where
  | stop (code : Nat) | wait | arrive (m : BitVec 16) | join (gen : BitVec 32)
  deriving DecidableEq, Repr

/-- The checks of R359. -/
def barDo (t : Team) (b : BarEntry) (e bars : Nat) (own : BitVec 4) (m : Option (BitVec 16)) : BarDo :=
  if bars ≤ e then .stop 3
  else match m with
  | some m =>
    if badMask m own t.shape then .stop 2
    else if b.arrived &&& roleBit own ≠ 0 then .wait
    else if b.arrived ≠ 0 && b.mask ≠ m then .stop 1
    else .arrive m
  | none => if b.joined &&& roleBit own = 0 then .stop 4 else .join (b.last[own.toNat]'own.isLt)

/-- The mask register that a mode reads, and whether it waits. -/
def BarMode.reg : BarMode → Option SReg
  | .aw a => some a | .arr a => some a | .wait => none
def BarMode.waits : BarMode → Bool
  | .arr _ => false | _ => true

/-- Wait for a generation, or acquire and give its number. -/
def barWaitFor (s : State) (t : Team) (d : SReg) (e : Nat) (gen : BitVec 32) : Eff :=
  if (t.bar e).over gen then .done ((s.acquireAt s.cur (teamScope t.shape)).sysResult d (gen.setWidth 64))
  else .wait (s.modSt (fun x => { x with barWait := some { entry := e, gen := gen } })) .bar

def execBar (h : Hdr) (d : SReg) (mode : BarMode) (ring : Byte) (off : BitVec 4) : Meaning :=
  issue h { rd := ((BarMode.reg mode).map rS).toList, wr := [rS d] } (fun s =>
    match s.st.team, s.teamOf s.cur with
    | some tid, some t =>
      let e := (s.st.barWait.map (·.entry)).getD (s.st.barEntry ring off)
      let s := s.useKey (.bar tid e)
      let t := (s.team tid).getD t
      match s.st.barWait with
      | some p => barWaitFor s t d p.entry p.gen
      | none =>
        let own := s.st.role
        match barDo t (t.bar e) e ((s.launchOf s.cur).elim 0 Launch.barriers) own
            ((BarMode.reg mode).map (fun a => (s.sr a).setWidth 16)) with
        | .stop code => .done (s.sysResult d (errWord code))
        | .wait => .wait s .bar
        | .join gen => barWaitFor s t d e gen
        | .arrive m =>
          if !s.performed s.cur then .wait s .result
          else match s.takeKey (s.asidOf s.cur) (clusterOf s.cc) (.bar tid e) with
          | none => .wait s .spill
          | some s =>
            let t := (s.team tid).getD t
            let pending := (t.bar e).g
            let t' := t.setBar e ((t.bar e).arrive own m)
            let s := (s.releaseAt s.cur (teamScope t.shape)).setTeam tid (some t')
            if BarMode.waits mode then barWaitFor s t' d e pending
            else .done (s.sysResult d (pending.setWidth 64))
    | _, _ => .done (s.sysResult d (errWord 3)))

/-- BARB rotates carbase. -/
def execBarb (h : Hdr) (k : BitVec 4) : Meaning :=
  issue h {} (fun s => .done (s.modSt (fun x =>
    { x with carbase := BitVec.ofNat 8 ((x.carbase.toNat + k.toNat + 1) % x.cardepth.toNat) })))

/-! ## Monitors (R362-R365) -/

/-- Arm a line: the oldest arm of eight makes room. -/
def armLine (l : Nat) (arms : List Nat) : List Nat :=
  if arms.contains l then arms else (if 8 ≤ arms.length then arms.drop 1 else arms) ++ [l]
def execMarm (h : Hdr) (a b : SReg) (_sc : Scope) (off : BitVec 20) : Meaning :=
  issue h { rd := [rS a, rS b] } (fun s =>
    let va := (s.ea a b off).toNat / 64 * 64
    let who := s.whoOf s.cur
    let k : AKind := { noHost := true }
    let (t, r) := s.checkPage who k va 64
    match r with
    | .error e => .trap t e
    | .ok p =>
      if s.behind s.cur s.nextId false [p] then .wait s .late
      else
        let arms := armLine (p.pa / 64) s.st.arms
        let t := t.commitPage who k p
        match (t.modSt (fun x => { x with arms := arms.filter x.arms.contains })).takeKey who.asid (clusterOf s.cc)
            (.line (clusterOf s.cc) (p.pa / 64)) with
        | none => .wait s .spill
        | some t => .done ((t.useKey (.line (clusterOf s.cc) (p.pa / 64))).modSt (fun x => { x with arms := arms })))

/-- MWAIT ends: every line disarmed, the wake flag clear. -/
def Strand.disarm (x : Strand) : Strand := { x with arms := [], wake := false, mwait := none }
def execMwait (h : Hdr) (d : SReg) (tgt : Option SReg) : Meaning :=
  issue h { rd := (tgt.map rS).toList, wr := [rS d] } (fun s =>
    let x := s.st
    let fin (v : Word) : Eff := .done ((s.modSt Strand.disarm).sysResult d v)
    if x.wake then fin 0
    else if x.arms.isEmpty then fin 2
    else match tgt with
    | none => .wait (s.modSt (fun x => { x with mwait := some { until' := none, d := d.toNat } })) .mwait
    | some a =>
      let T := (s.sr a).toNat
      if T ≤ s.clock.ns then fin 1
      else .wait (s.modSt (fun x => { x with mwait := some { until' := some T, d := d.toNat } })) .mwaitTo)

/-- The instant of an MWAIT has come: it returns 1. -/
def execMwaitTimeout : Meaning := fun s =>
  let s := { s with cur := s.evSid }
  match s.st.mwait with
  | some { until' := some t, d := d } =>
    onlyIf (t ≤ s.clock.ns && !s.st.wake && !s.frozen s.cc)
      (fun s => ((s.modSt (fun x => x.disarm.advance.didIssue)).sysResult (BitVec.ofNat 6 d) 1)) s
  | _ => out s

end Machine
end Sys2Proof
end

