-- ==== Sys2Proof/Machine/Trap.lean ====
section
/-! DEFINITION. Trapping and returning: TRAP, SYSC, RFT, the taking of deferred traps, freezes and hangs (05 R119-R122; 18
R368-R377). -/

namespace Sys2Proof
namespace Machine

/-! ## TRAP and SYSC (R376) -/

def execTrap (h : Hdr) (a : SReg) (code : BitVec 16) : Meaning :=
  issue h { rd := [rS a] } (fun s => .trapNext s { cause := cTRAPI, aux := code.setWidth 64, addr := s.sr a })
def execSysc (h : Hdr) (a : SReg) (code : BitVec 16) : Meaning :=
  issue h { rd := [rS a] } (fun s => .trapNext s { cause := cSYSCALL, aux := code.setWidth 64, addr := s.sr a })

/-! ## Deferred traps (R369) -/

/-- The trap of the oldest failed entry of a strand's replay queue. -/
def Strand.oldestFailed (x : Strand) : Option TrapInfo :=
  (x.replay.find? (fun e => e.state == 1)).map (fun e => { cause := e.cause, aux := e.aux, addr := e.addr })

/-- The current strand at its next word. -/
def State.atWord (s : State) : State := match s.present with | .word i _ => s.atSlot i | .block => s
/-- The PC of a deferred trap: the word that would issue next, or the block that the strand waits to enter. -/
def State.trapPc (s : State) : Word := s.st.entry.getD s.st.pc

/-- Does a word's guard act per lane (02 R43)? -/
def laneGuarded (opc : BitVec 8) : Bool := opc.toNat / 32 == 5 || (0x8D ≤ opc.toNat && opc.toNat ≤ 0x90)
/-- The trap of a presented word that is no instruction: a REP repetition whose fields are reserved (02 R58). -/
def State.badWord (s : State) : Option (Word × TrapInfo) :=
  match s.present with
  | .block => none
  | .word _ w => match decodeWord w with
    | .error (.illop o) => some (w, { cause := cILLOP, aux := BitVec.ofNat 64 (slotOf s.st.pc * 256 + o.toNat) })
    | .error (.illenc r) => some (w, illencAt s r.toNat)
    | .ok _ => none
/-- The current strand takes its deferred trap at its next issue (R369), or the trap of an ill-formed repetition, which a false guard turns
into a word with no effect (02 R43, R66). -/
def execTrapEntry : Meaning := fun s =>
  let s := { s with cur := s.evSid }.atWord
  match s.st.oldestFailed, s.badWord with
  | some t, _ => onlyIf (s.mayIssue) (fun s => s.trapIn s.cur t s.trapPc) s
  | none, some (w, t) =>
    if s.mayIssue then
      issue (fHdr w) { on := if laneGuarded (fOpc w) then State.lanesOn else State.guardOn, vec := (fOpc w).toNat / 32 == 5 }
        (fun s => .trap s t) s
    else out s
  | none, none => out s

/-! ## Freezes (05 R119, R120) -/

/-- The accesses that a strand has to have its replies for now: those whose latency has passed, or all where it waits to take a trap. -/
def State.lateNow (s : State) (sid : Nat) : List (FixReq × FixPlan) :=
  let x := s.strand sid
  x.lates.filter (fun e => e.1.due ≤ (s.core (coreOf sid)).clk || x.wait == some .late)
/-- The late replies have arrived: the accesses are performed, the late codebook slots read, and the clock enable returns. -/
def State.thaw (s : State) (core : Nat) : State :=
  let s := (coreSids core).foldl (fun (s : State) sid => s.performLate sid) s
  let s := (coreSids core).foldl (fun (s : State) sid =>
    ((s.strand sid).cbs.filter (·.late)).foldl (fun (s : State) r => match (s.core core).resident r.cbid r.stamp with
      | some i => s.cbFinish sid r i
      | none => s) s) s
  s.freezeOver core
/-- A freeze may end: it is not one for a bank conflict, it has not lasted 2^22 cycles, and no access that must be performed still waits. -/
def State.mayThaw (s : State) (core : Nat) : Bool :=
  (s.core core).frozen.any (fun f => f.ends.isNone && s.cycle < f.since + Config.timeoutCycles) &&
    (coreSids core).all (fun sid => (s.lateNow sid).all (fun e => !s.lateHeld sid e))
def execFreezeEnd : Meaning := fun s =>
  match s.evCore with
  | none => out s
  | some core => onlyIf (s.mayThaw core) (fun s => s.thaw core) s

/-- FREEZE of a strand's late requests: they are entered failed, and their destinations keep their old values. -/
def State.freezeFail (s : State) (sid : Nat) : State :=
  let bad (cause : Nat) (addr : Word) : TrapInfo := { cause := cFREEZE, aux := BitVec.ofNat 64 cause, addr := addr }
  let s := (s.lateNow sid).foldl (fun (s : State) (e : FixReq × FixPlan) =>
    (s.modStrand sid (fun x =>
      let x := { x with lates := x.lates.filter (fun q => q.1.id ≠ e.1.id) }
      match fixDst e.1.instr with | some d => x.setDue d 0 | none => x)).deferTrap sid (.fix e.1) (bad 1 e.1.addr)) s
  ((s.strand sid).cbs.filter (·.late)).foldl (fun (s : State) r => s.cbFail sid { r with late := false } (bad 3 0)) s
def execFreezeTimeout : Meaning := fun s =>
  match s.evCore with
  | none => out s
  | some core => match (s.core core).frozen with
    | none => out s
    | some f => onlyIf (f.since + Config.timeoutCycles ≤ s.cycle)
        (fun s => ((coreSids core).foldl (fun (s : State) sid => s.freezeFail sid) s).freezeOver core) s

/-! ## Hangs (05 R122) -/

/-- The roles of a team that satisfy a test, as a mask. -/
def State.roleMask (s : State) (t : Team) (f : Strand → Bool) : Nat :=
  t.sids.zipIdx.foldl (fun n (sid, i) => if f (s.strand sid) then n + 2 ^ i else n) 0
/-- HANG's aux. -/
def State.hangAux (s : State) (t : Team) : Word :=
  let live (x : Strand) : Bool := x.life = .live
  BitVec.ofNat 64 (s.roleMask t (fun x => live x && x.wait == some .hand) * 2 ^ 32 +
    s.roleMask t (fun x => live x && x.wait == some .tight) * 2 ^ 16 + s.roleMask t live)
/-- The live strands stop issuing, and the one with the lowest role takes HANG. -/
def State.hang (s : State) (tid : Nat) (t : Team) : State :=
  let aux := s.hangAux t
  let s := s.setTeam tid (some { t with hangHold := true })
  match t.sids.find? (fun sid => (s.strand sid).life = .live) with
  | none => s
  | some sid =>
    let s := { s with cur := sid }.atWord
    s.trapIn sid { cause := cHANG, aux := aux } s.trapPc

/-- The team that an event names. -/
def State.evTeam (s : State) : Option (Nat × Team) :=
  match s.ev with | .team id => (s.team id).map (fun t => (id, t)) | _ => none
def execHangDetect : Meaning := fun s =>
  match s.evTeam with
  | none => out s
  | some (id, t) => onlyIf (t.place = .resident && Config.hangLimit ≤ t.hang && !t.hangHold)
      (fun s => { s.hang id t with cur := s.cur }) s

/-! ## RFT (R377) -/

/-- The registers that a matrix-engine word writes. -/
def engDst : Instr → List Reg
  | .tmovv _ _ _ reg wr .. | .rmovv _ _ _ reg wr _ => if wr then [] else [rV reg]
  | .amovv _ _ _ reg _ | .abmax _ _ _ reg _ => [rV reg]
  | _ => []

/-- The tokens that wait for one operation now wait for another: its re-injection. -/
def Team.renameNeed (t : Team) (old new : Nat) : Team :=
  { t with hand := t.hand.map (fun ((k, q) : Nat × HandQ) =>
      (k, { q with toks := q.toks.map (fun g => { g with needs := g.needs.map (fun i => if i == old then new else i) }) })) }

/-- What one entry of a frame does: done, or it must wait. -/
inductive Inject where
  | ok (s : State) | wait

/-- Re-inject a fixed-latency access: performed at once; its result goes to the registers with the frame's. Its captures are taken
anew. -/
def State.injectFix (s : State) (r : FixReq) (F : Word) : Inject :=
  match s.st.freeCap r with
  | none => .wait
  | some cap =>
  let r := { r with cap := cap }
  let (s, x) := s.fixCheck s.cur r
  match x with
  | .error t => .ok (s.deferTrap s.cur (.fix r) t)
  | .ok p =>
    if s.fixLocked s.cur r p || s.behind s.cur r.id (fixKind r.instr).writes p.parts then .wait
    else
      let dst := fixDst r.instr
      let old := match dst with | some ⟨.v, n⟩ => s.st.vr (BitVec.ofNat 5 n) | _ => Vector.replicate 64 0
      let (s, y) := s.fixDo s.cur r p old
      match y with
      | .error t => .ok (s.deferTrap s.cur (.fix r) t)
      | .ok (v, fl) => .ok (s.block s.cur .system dst.toList v.toList fl true (some F)).2

/-- Re-inject a queued request with its tag. -/
def State.injectQueued (s : State) (r : QReq) (t : BitVec 3) : Inject :=
  if (s.st.tagAt t).used s.cycle then .wait
  else if isFx r.instr then .ok (s.fxIssue s.cur t r)
  else
    let (s, x) := s.qCheck s.cur r
    match x with
    | .error e => .ok (s.deferTrap s.cur (.queued r t.toNat) e)
    | .ok ps => .ok (s.qIssue s.cur t r ps false)

/-- What a codebook word's entry names: codebook, stamp, and the vector that it reads, as the registers hold it now (log 34). -/
def CbReq.again (r : CbReq) (x : Strand) (d : Nat → Dir) : CbReq :=
  match r.instr with
  | .cbenc _ _ _ a _ | .cbdec _ _ _ a _ =>
    let c := slc r.data 11 0
    { r with cbid := c, stamp := if r.data.getLsbD 20 then (d c).current else slc r.data 19 12, dir := d c, vec := x.vr a }
  | .cbld _ _ _ c | .cbpin _ _ _ c =>
    { r with cbid := c.toNat, stamp := stampOf r.data (d c.toNat), dir := d c.toNat }
  | _ => r
/-- The codebook that a codebook word's entry names. -/
def CbReq.book (r : CbReq) : Nat :=
  match r.instr with
  | .cbld _ _ _ c | .cbpin _ _ _ c => c.toNat
  | _ => slc r.data 11 0
/-- Re-inject a codebook word: its directory entry and its stamp are checked again. -/
def State.injectCode (s : State) (r : CbReq) : Inject :=
  if !s.st.cbs.isEmpty then .wait
  else
    let (s, d) := s.dirRead s.cc (s.asidOf s.cur) r.book
    match d with
    | .error t => .ok (s.deferTrap s.cur (.code r) t)
    | .ok d =>
      let q := r.again s.st (fun _ => d)
      match d.checkLearned q.cbid q.stamp 0 with
      | some t => .ok (s.deferTrap s.cur (.code r) t)
      | none => match s.cbIssue q with
        | some s => .ok s
        | none => .ok (s.deferTrap s.cur (.code r) { cause := cILLENC, aux := 0xFF07 })

/-- Re-inject an engine command at the tail of the engine queue. -/
def State.injectEngine (s : State) (e : ECmd) : Inject :=
  if Config.engineQueueLen ≤ s.co.equeue.length || (e.vcap.isSome && Config.engineCaptures ≤ s.co.engCaps) then .wait
  else
    let (id, s) := s.block s.cur .engine (engDst e.instr) [] 0 false
    .ok (s.modCore s.cc (fun c => { c with equeue := c.equeue ++ [{ e with id := id }] }))

/-- Re-inject a copy command at the tail of its copy queue; a fetch belongs to its window while that is the one it was for. -/
def State.injectCopy (s : State) (e : CCmd) : Inject :=
  if s.copyFull then .wait
  else
    let (id, s) := s.fresh
    let x := s.co.winAt (e.win.getD 0)
    let gen := if e.win.isSome && x.isOpen && x.record = e.record then x.gen else 0
    let e := { e with id := id, gen := gen, scope := copyScope e.instr x.scope }
    .ok (s.modCore s.cc (fun c => c.setCq (copySt s.cur) (c.cq (copySt s.cur) ++ [e])))

def State.inject (s : State) (b : RepBody) (F : Word) : Inject :=
  match b with
  | .fix r => s.injectFix r F
  | .queued r t => s.injectQueued r (BitVec.ofNat 3 t)
  | .code r => s.injectCode r
  | .engine e => s.injectEngine e
  | .copy e => s.injectCopy e

/-- A dropped copy command pushes its token without acting. -/
def State.dropEntry (s : State) (b : Option RepBody) : State :=
  match b, s.st.team with
  | some (.copy { nr := some nr, .. }), some tid => s.fillTok tid s.st.role.toNat nr []
  | _, _ => s

/-- Re-inject or drop the entries of a frame from entry `n` on; the number of the first that must wait, if one must. -/
def State.injectAll (img : List Byte) (F : Word) (nrep : Nat) (old : List Nat) : (fuel n : Nat) → State → State × Option Nat
  | 0, _, s => (s, none)
  | f + 1, n, s =>
    if nrep ≤ n then (s, none)
    else
      let id := s.nextId
      let e := readEntry img n id s.cur
      match e.body, e.state == 1 || e.state == 2 with
      | some b, true =>
        match s.inject b F with
        | .wait => (s, some n)
        | .ok t =>
          let t := match s.st.team, old[n]? with
            | some tid, some o => t.modTeam tid (fun x => x.renameNeed o id)
            | _, _ => t
          State.injectAll img F nrep old f (n + 1) { t with nextId := max t.nextId (id + 1) }
      | b, _ => State.injectAll img F nrep old f (n + 1) (s.dropEntry b)

/-- The current strand's registers and mode restored from a frame, and its place. -/
def Strand.restore (x : Strand) (img : List Byte) (F : Word) : Strand :=
  let w (off : Nat) : Word := BitVec.ofNat 64 (field img off 8)
  let x := (List.range 15).foldl (fun (x : Strand) i => x.setReg ⟨.s, i + 1⟩ (.w (w (0x100 + 8 * (i + 1)))) 0) x
  let x := (List.range 3).foldl (fun (x : Strand) i => x.setReg ⟨.p, i + 1⟩ (.w (w (0x180 + 8 * (i + 1)))) 0) x
  let x := x.csrPut .fpctl (w 0x38)
  let bw := w 0x28
  let old := field img 9 1
  let pc := w 0 &&& ~~~(7 : Word)
  { x with
    modeU := x.modeS && old.testBit 1, modeS := x.modeS && old.testBit 0
    barWait := if bw.getLsbD 63 then some { entry := slc bw 39 32, gen := BitVec.ofNat 32 (slc bw 31 0) } else none
    pc := pc, entry := some pc, quiet := true, blk := none, wait := none
    rep := if (field img 10 1).testBit 0 then some { addr := w 0x20, k := field img 11 1 % 64 } else none
    handlers := x.handlers - 1, rftAt := 0
    ops := x.ops.map (fun o => if o.frame == some F then { o with frame := none } else o)
    frameIds := x.frameIds.filter (fun e => e.1 ≠ F) }

/-- The frame has been gone through: the strand is restored, and after a HANG frame its team issues again. -/
def State.rftEnd (s : State) (img : List Byte) (F : Word) : State :=
  let ids := (s.st.ops.filter (fun o => o.frame == some F && o.done && o.cls == .system)).map (·.id)
  let s := s.modSt (fun x => x.restore img F)
  let s := ids.foldl (fun (s : State) id => s.deliver s.cur id) s
  if field img 8 1 == cHANG then
    match s.st.team with
    | some tid => s.modTeam tid (fun t => { t with hangHold := false, hang := 0 })
    | none => s
  else s

/-- The frame that RFT reads. -/
def Strand.rftFrame (x : Strand) : Option Word :=
  let f := x.tframe &&& ~~~(63 : Word)
  if x.modeS then some f else if x.modeU then some (f + 0x4000) else none
def execRft (h : Hdr) : Meaning :=
  issue h {} (fun s =>
    match s.st.rftFrame with
    | none => .trap s { cause := cPRIVOP, aux := 0x18 }
    | some F =>
      let (t, r) := s.supRd s.cc (s.asidOf s.cur) kCohRd F.toNat frameLen
      match r with
      | .error e => .trap t e
      | .ok img =>
        let old := ((s.st.frameIds.find? (fun e => e.1 == F)).map (·.2)).getD []
        let (t, w) := State.injectAll img F (min (field img 0xC 4) 64) old 65 (s.st.rftAt - 1) t
        match w with
        | some n => .wait (t.modSt (fun x => { x with rftAt := n + 1 })) .queue
        | none => .stay (t.rftEnd img F))

end Machine
end Sys2Proof
end

