-- ==== Sys2Proof/Machine/PageTable.lean ====
section
/-! DEFINITION. Page-table atomics and TLBINV (18 R383-R386). -/

namespace Sys2Proof
namespace Machine

/-! ## PTEAMO (R383, R384) -/

def pteShare (m : Word) : Nat := slc m 23 16
/-- A PTE with a share count. -/
def withShare (m : Word) (n : Nat) : Word := (m &&& ~~~(0xFF0000 : Word)) ||| BitVec.ofNat 64 (n % 256 * 65536)

/-- PTEAMO's operations; `rel`: the frame is released. -/
structure PteNew where
  pte : Word
  rel : Bool := false
  deriving DecidableEq, Repr
def pteInc (m : Word) : PteNew := { pte := if pteShare m = 255 then m else withShare m (pteShare m + 1) }
def pteDec (m : Word) : PteNew :=
  if pteShare m = 0 then { pte := m }
  else if pteShare m = 1 then { pte := withShare m 0 &&& ~~~(1 : Word), rel := true }
  else { pte := withShare m (pteShare m - 1) }

/-- What a PTEAMO makes of the entry. -/
def PteReq.new (r : PteReq) (m : Word) : PteNew :=
  match r.instr with
  | .pteamoInc .. => pteInc m
  | .pteamoDec .. => pteDec m
  | .pteamoCas .. => { pte := if m = r.x then r.y else m }
  | .pteamoOr .. => { pte := m ||| r.x }
  | .pteamoAndn .. => { pte := m &&& ~~~r.x }
  | _ => { pte := m }

/-- The free-frame ring of a context: its VA, its entries. -/
def State.freeRing (s : State) (asid : Nat) : Nat × Nat := (s.ctxField asid 0x10 8, s.ctxField asid 0x18 4)

/-- What the free-frame ring's header says: the tail, and whether there is room; an access of the part that fails traps (log 39). -/
def State.ringRoom (s : State) (asid : Nat) : State × Except TrapInfo (Nat × Bool) :=
  let (va, n) := s.freeRing asid
  let (s, r) := s.supRd rmCore asid kCohRd va 16
  (s, match r with
    | .error t => .error t
    | .ok b => let tail := field b 0 8; .ok (tail, (tail + 2 ^ 64 - field b 8 8) % 2 ^ 64 < n))

/-- Write a released frame into the ring and advance the tail. -/
def State.ringPush (s : State) (asid tail : Nat) (pte : Word) : State × Option TrapInfo :=
  let (va, n) := s.freeRing asid
  let (s, e) := s.supWr rmCore asid kCohWr (va + 64 + 8 * (tail % max 1 n)) (leBytes 8 (slc pte 63 32 * 65536))
  match e with
  | some t => (s, some t)
  | none => s.supWr rmCore asid kCohWr va (leBytes 8 (tail + 1))

/-- What becomes of a PTEAMO that is to be performed: it waits, it fails, or it is performed and has the old entry. -/
inductive PteEnd where
  | wait | fail (s : State) (t : TrapInfo) | done (s : State) (m : Word)

/-- Perform the change of an entry at its home slice, in one operation. -/
def State.pteWrite (s : State) (r : PteReq) : PteEnd :=
  let (s, x) := (s.freeLines r.pa 8).rmwPart { core := rmCore, asid := 255 } r.part 8 (fun b => leBytes 8 (r.new (leWord b)).pte.toNat)
  match x with
  | .error h => .fail s (eccu h r.pa)
  | .ok b => .done s (leWord b)

/-- PTEAMO number `id` of a strand (R384): after the strand's earlier accesses and while no tile store has the line locked; a dec that
releases the frame once the ring has room, the frame's entry and the tail being written with it. -/
def State.pteGo (s : State) (sid id : Nat) (r : PteReq) : PteEnd :=
  if s.behind sid id true [r.part] || Sparse.get s.ms.locks 0 (lockKey (r.pa / 64) hL2) ≠ 0 then .wait
  else
    let m := leWord (peekBytes s.ms 0 r.pa 8)
    if !(r.new m).rel then s.pteWrite r
    else
      let asid := s.asidOf sid
      let (t, x) := s.ringRoom asid
      match x with
      | .error e => .fail t e
      | .ok (tail, room) =>
        if !room then .wait
        else
          let (t, e) := t.ringPush asid tail m
          match e with
          | some e => .fail t e
          | none => t.pteWrite r

/-- A PTEAMO word: it issues, and is performed at once where it can be. -/
def pteamo (h : Hdr) (d a : SReg) (rd : List Reg) (off : BitVec 16) (i : Instr) (x y : State → Word) : Meaning :=
  issue h { rd := rS a :: rd, wr := [rS d], priv := some 0x1E } (fun s =>
    let pa := (s.ea0 a off).toNat
    let k : AKind := { amo := true, write := true }
    if pa % 8 ≠ 0 then .trap s (alignTrap k 3 pa)
    else if 2 ^ 39 ≤ pa then .trap s { cause := cATTR, aux := k.aux 5, addr := BitVec.ofNat 64 pa }
    else
      let r : PteReq := { instr := i, pa := pa, x := x s, y := y s }
      match s.pteGo s.cur s.nextId r with
      | .wait => .done (s.block s.cur (.pte r) [rS d] [] 0 false).2
      | .fail t e => .trap t e
      | .done t m => .done (t.sysResult d m))

def execPteamoInc (h : Hdr) (d a b : SReg) (sc : Scope) (off : BitVec 16) : Meaning :=
  pteamo h d a [] off (.pteamoInc h d a b sc off) (fun _ => 0) (fun _ => 0)
def execPteamoDec (h : Hdr) (d a b : SReg) (sc : Scope) (off : BitVec 16) : Meaning :=
  pteamo h d a [] off (.pteamoDec h d a b sc off) (fun _ => 0) (fun _ => 0)
def execPteamoCas (h : Hdr) (d a b : SReg) (sc : Scope) (off : BitVec 16) : Meaning :=
  pteamo h d a (pairRegs b) off (.pteamoCas h d a b sc off) (fun s => s.sr b) (fun s => s.srN (b.toNat + 1))
def execPteamoOr (h : Hdr) (d a b : SReg) (sc : Scope) (off : BitVec 16) : Meaning :=
  pteamo h d a [rS b] off (.pteamoOr h d a b sc off) (fun s => s.sr b) (fun _ => 0)
def execPteamoAndn (h : Hdr) (d a b : SReg) (sc : Scope) (off : BitVec 16) : Meaning :=
  pteamo h d a [rS b] off (.pteamoAndn h d a b sc off) (fun s => s.sr b) (fun _ => 0)

/-- A PTEAMO that has issued is performed, if it can be now, and its result is then known. One that fails then traps in supervisor mode,
which kills its context (18 R371; log 39). -/
def State.pteStep (s : State) (sid : Nat) (id : Nat) (r : PteReq) : State :=
  match s.pteGo sid id r with
  | .wait => s
  | .fail t _ => t.kill (t.asidOf sid) 2
  | .done t m => t.modXs sid (fun x => { x with ops := x.ops.map (fun o => if o.id == id then { o with vals := [.w m], done := true } else o) })
/-- The ring has room, or what a PTEAMO waits for is over: the strand's oldest PTEAMO that has issued is performed. -/
def execFreeFrameRelease : Meaning := fun s =>
  match s.ev with
  | .strand sid => match (s.xs sid).pteOps with
    | (id, r) :: _ => out (s.pteStep sid id r)
    | [] => out s
  | _ => out s

/-! ## TLBINV (R385, R386) -/

/-- What a TLBINV covers: an ASID or all, and a page of it or all. -/
def covers (asid : Option Nat) (va : Option Nat) (a : Nat) (p : Part) : Bool :=
  (asid.isNone || asid == some a) &&
  (match va with | none => true | some v => vpnOf p.leaf.block v == vpnOf p.leaf.block p.va)

/-- The pages of a strand's accesses that have translated and are not performed. -/
def State.translated (s : State) (sid : Nat) : List Part :=
  let x := s.xs sid
  x.tags.toList.flatMap (fun t => match t.req with | some r => if r.performed then [] else r.parts | none => []) ++
  x.lates.flatMap (fun e => e.2.parts)

/-- Every strand number in use: on cores, and of teams that are away. -/
def State.allSids (s : State) : List Nat :=
  s.strands.map (fun (e : Nat × Strand) => e.1) ++
  s.teams.flatMap (fun ((i, t) : Nat × Option Team) => match t with
    | some t => t.away.map (fun a => awaySid i a.1)
    | none => [])

/-- Is an access under a dropped entry still to be performed: a strand's, a started copy command's, an instruction fill? -/
def State.tlbBusy (s : State) (asid va : Option Nat) : Bool :=
  s.allSids.any (fun sid => (s.translated sid).any (covers asid va (s.asidOf sid))) ||
  s.runningCopies.any (fun (_, _, e) => (e.parts.flatten ++ e.store.map (·.1)).any (covers asid va (s.asidOf e.sid))) ||
  s.ms.fills.any (fun f => (asid.isNone || asid == some f.asid) &&
    (match va with | none => true | some v => vpnOf true v == vpnOf true f.va))

/-- Drop translations, and the table entries on their paths, from every TLB and walk cache (R385). -/
def dropTlb (ms : MemSys) (asid va : Option Nat) : MemSys :=
  { ms with
    tlb := ms.tlb.filter (fun e => !((asid.isNone || asid == some e.asid) &&
      (match va with | none => true | some v => e.vpn == vpnOf e.block v)))
    walks := ms.walks.filter (fun e => !((asid.isNone || asid == some e.asid) &&
      (match va with | none => true | some v => e.pre == v / 2 ^ (16 + 10 * e.level)))) }

/-- A TLBINV word: a package release that stays until it is complete. -/
def tlbinv (h : Hdr) (d : SReg) (rd : List Reg) (asid va : State → Option Nat) : Meaning :=
  issue h { rd := rd, wr := [rS d], priv := some 0x1D } (fun s =>
    if !s.performed s.cur || s.tlbBusy (asid s) (va s) then .wait s .result
    else
      let t := s.releaseAt s.cur .package
      .done ((t.setMs (dropTlb t.ms (asid s) (va s))).sysResult d 0))

def asidReg (b : SReg) (s : State) : Option Nat := some (slc (s.sr b) 5 0)
def execTlbinvPage (h : Hdr) (d a b : SReg) : Meaning :=
  tlbinv h d [rS a, rS b] (asidReg b) (fun s => some (s.sr a).toNat)
def execTlbinvAsid (h : Hdr) (d _a b : SReg) : Meaning := tlbinv h d [rS b] (asidReg b) (fun _ => none)
def execTlbinvAll (h : Hdr) (d _a _b : SReg) : Meaning := tlbinv h d [] (fun _ => none) (fun _ => none)

end Machine
end Sys2Proof
end

