-- ==== Sys2Proof/Machine/System.lean ====
section
/-! DEFINITION. The instructions of the memory system: system registers, chains, keys, monitors (11 R266-R276), and the arrival of
blocking results (05 R118). -/

namespace Sys2Proof
namespace Machine

/-- A supervisor word that is a package release, performed once every earlier access of the strand is (R268, R276). -/
def sysRelease (h : Hdr) (opc : Nat) (d a : SReg) (f : State → State × Word) : Meaning :=
  issue h { rd := [rS a], wr := [rS d], priv := some opc } (fun s =>
    if !s.performed s.cur then .wait s .result
    else
      let (t, w) := f (s.releaseAt s.cur .package)
      .done (t.sysResult d w))

/-! ## System registers (R266, R268, 22 R425) -/

/-- The bit of each live key slot. -/
def keyLive (ms : MemSys) : Word :=
  BitVec.ofNat 64 (ms.keyGen.foldl (fun n ((k, g) : Nat × Nat) => if g ≠ 0 && k < 64 then n + 2 ^ k else n) 0)
/-- The value of a system register. -/
def State.sysGet (s : State) (r : SysReg) : Word :=
  match r with
  | .pkgid => s.sys.pkgid.setWidth 64
  | .qtbase => s.sys.qtbase
  | .ctxbase => s.sys.ctxbase
  | .errbase => s.sys.errbase
  | .evac => s.sys.evac.setWidth 64
  | .hmask n => (s.ms.hmask[n.toNat]'n.isLt).setWidth 64
  | .keylive => keyLive s.ms
  | .pwrcap => s.sys.pwrcap.setWidth 64
  | .pwrst => BitVec.ofNat 64 (s.sys.watts.toNat * 65536 + s.sys.gated.toNat)

/-- Bits 47:12 of a word. -/
def baseBits (w : Word) : Word := w &&& 0x0000FFFFFFFFF000
/-- A register written: read-only and reserved bits are unchanged. -/
def SysRegs.put (x : SysRegs) (r : SysReg) (w : Word) : SysRegs :=
  match r with
  | .qtbase => { x with qtbase := baseBits w }
  | .ctxbase => { x with ctxbase := baseBits w }
  | .errbase =>
    let size := if slc w 3 0 ≤ 10 then slc w 3 0 else slc x.errbase 3 0
    { x with errbase := baseBits w ||| BitVec.ofNat 64 size }
  | .evac => { x with evac := w.setWidth 8 }
  | .pwrcap => if 600 ≤ slc w 11 0 && slc w 11 0 ≤ 2600 then { x with pwrcap := w.setWidth 12 } else x
  | _ => x

def execSysr (h : Hdr) (d : SReg) (reg : SysReg) : Meaning :=
  issue h { wr := [rS d], priv := some 0xEA } (fun s => .done (s.sysResult d (s.sysGet reg)))
def execSysw (h : Hdr) (d a : SReg) (reg : SysReg) : Meaning :=
  sysRelease h 0xEB d a (fun s => ({ s with sys := s.sys.put reg (s.sr a) }, s.sysGet reg))
/-- SYSW to a hash mask: the stack's lines are written back and dropped first, and its stored data moves (R253). -/
def execSyswHmask (h : Hdr) (d a : SReg) (n : BitVec 3) : Meaning :=
  sysRelease h 0xEB d a (fun s =>
    if !s.sys.evac.getLsbD n.toNat then (s, errWord 1)
    else
      (s.setMs (setHmask (flushStack s.ms n.toNat) n.toNat n.isLt ((s.sr a).setWidth 24)), s.sysGet (.hmask n)))

/-! ## Chains and keys (R269-R271) -/

def State.setChain (s : State) (id v : Nat) : State := { s with pkg := { s.pkg with chains := Sparse.set s.pkg.chains 0 id v } }

def execChainOpen (h : Hdr) (d a : SReg) : Meaning :=
  sysRelease h 0xE7 d a (fun s =>
    match (List.range 255).find? (fun i => s.chainOwner (i + 1) == 0) with
    | some i =>
      let t := s.setChain (i + 1) (slc (s.sr a) 5 0 + 1)
      ({ t with pkg := { t.pkg with chainEnd := t.pkg.chainEnd.filter (· ≠ i + 1) } }, BitVec.ofNat 64 (i + 1))
    | none => (s, errWord 1))
def execChainClose (h : Hdr) (d a : SReg) : Meaning :=
  sysRelease h 0xE7 d a (fun s =>
    let id := slc (s.sr a) 7 0
    if s.chainOwner id == 0 then (s, errWord 2)
    else if s.chainCount id ≠ 0 then (s, errWord 3)
    else
      let t := (s.setMs (demoteChain s.ms id)).setChain id 0
      ({ t with pkg := { t.pkg with chainEnd := t.pkg.chainEnd.filter (· ≠ id) } }, 0))
/-- CHAIN query: an id that is not open has no owner, and the field is free (log 59). -/
def execChainQuery (h : Hdr) (d a : SReg) : Meaning :=
  sysRelease h 0xE7 d a (fun s =>
    let id := slc (s.sr a) 7 0
    let o := s.chainOwner id
    let n := s.chainCount id % 2 ^ 32 * 65536
    if o == 0 then let (w, s) := s.free; (s, BitVec.ofNat 64 (slc w 5 0 * 256 + n))
    else (s, BitVec.ofNat 64 (1 + (o - 1) * 256 + n)))
def execDemote (h : Hdr) (d a : SReg) : Meaning :=
  issue h { rd := [rS a], wr := [rS d] } (fun s =>
    let id := slc (s.sr a) 7 0
    let o := s.chainOwner id
    if o == 0 || (!s.st.modeS && o ≠ s.asidOf s.cur + 1) then .done (s.sysResult d (errWord 2))
    else .done ((s.setMs (demoteChain s.ms id)).sysResult d 0))

def execKeyopGen (h : Hdr) (d a : SReg) : Meaning :=
  sysRelease h 0xE9 d a (fun s =>
    let k := slc (s.sr a) 5 0
    if keyGenOf s.ms k ≠ 0 then (s, errWord 1)
    else (s.setMs { s.ms with keyGen := Sparse.set s.ms.keyGen 0 k s.ms.nextGen, nextGen := s.ms.nextGen + 1 }, 0))
def execKeyopDestroy (h : Hdr) (d a : SReg) : Meaning :=
  sysRelease h 0xE9 d a (fun s =>
    let k := slc (s.sr a) 5 0
    if k == 0 then (s, errWord 2)
    else if keyGenOf s.ms k == 0 then (s, errWord 3)
    else
      let (n, ms) := destroyKey s.ms k
      (s.setMs ms, BitVec.ofNat 64 (n % 2 ^ 32)))
def execKeyopQuery (h : Hdr) (d a : SReg) : Meaning :=
  sysRelease h 0xE9 d a (fun s => (s, if keyGenOf s.ms (slc (s.sr a) 5 0) ≠ 0 then 1 else 0))

/-! ## Monitors (R272-R275) -/

/-- Is an event assigned, and is its target PCSEL or h? -/
def monTarget (ev : Nat) : Option Nat :=
  if ev == 1 || ev == 2 || ev == 3 || ev == 0x12 || ev == 0x13 then some 1
  else if ev == 0x10 || ev == 0x11 then some 2
  else if ev == 0x20 || ev == 0x30 || ev == 0x31 then some 0 else none
/-- Is a config word legal for a monitor? -/
def monCfgOk (id : Nat) (w : Word) : Bool :=
  let mode := slc w 35 33
  match monTarget (slc w 63 48) with
  | none => false
  | some t =>
    slc w 47 46 == 0 && mode < 5 && slc w 32 2 == 0 &&
    (match mode with
     | 2 => t == 1 && slc w 38 36 / 2 == id / 64
     | 3 | 4 => t == 2
     | _ => true)

def State.mon (s : State) (id : Nat) : Mon := Sparse.get s.ms.mons {} id
def State.setMon (s : State) (id : Nat) (m : Mon) : State := s.setMs { s.ms with mons := Sparse.set s.ms.mons {} id m }
/-- A monitor's state cleared. -/
def Mon.cleared (m : Mon) : Mon := { cfg := m.cfg }
/-- May a user of an ASID read a monitor (R274)? -/
def Mon.readable (m : Mon) (asid : Nat) : Bool := !m.cfg.getLsbD 39 && slc m.cfg 47 40 == asid

/-- MONCFG (R273). The clear bit acts and is not kept: a config reads back with it 0, as the table of 15 shows. -/
def execMoncfg (h : Hdr) (d a b : SReg) : Meaning :=
  issue h { rd := [rS a, rS b], wr := [rS d], priv := some 0x1B } (fun s =>
    let id := slc (s.sr a) 7 0
    let w := s.sr b
    if !monCfgOk id w then .done (s.sysResult d (errWord 1))
    else
      let m : Mon := { s.mon id with cfg := w &&& ~~~(2 : Word) }
      .done ((s.setMon id (if w.getLsbD 1 then m.cleared else m)).sysResult d 0))

/-- Word `i` of a monitor (R274). -/
def Mon.word (m : Mon) (i : Nat) : Word :=
  match i with
  | 0 => m.cfg
  | 1 => m.count
  | 2 => m.sum
  | 3 => m.min.setWidth 64
  | 4 => m.max.setWidth 64
  | i => if 16 ≤ i && i ≤ 79 then (Sparse.get m.bins 0 (i - 16)).setWidth 64 else 0
def execMonrd (h : Hdr) (d a b : SReg) : Meaning :=
  issue h { rd := [rS a, rS b], wr := [rS d] } (fun s =>
    let m := s.mon (slc (s.sr a) 7 0)
    if !s.st.modeS && !m.readable (s.asidOf s.cur) then .trap s { cause := cPRIVOP, aux := 0x1C }
    else .done (s.sysResult d (m.word (slc (s.sr b) 7 0))))

/-- The 320 bytes of a monitor's record at time T. -/
def Mon.bytes (m : Mon) (T : Nat) : List Byte :=
  leBytes 8 m.cfg.toNat ++ leBytes 8 m.count.toNat ++ leBytes 8 m.sum.toNat ++ leBytes 4 m.min.toNat ++ leBytes 4 m.max.toNat ++
    leBytes 8 T ++ zeros 24 ++ (List.range 64).flatMap (fun i => leBytes 4 (Sparse.get m.bins 0 i).toNat)
/-- The monitors that a die mask names, in order. -/
def snapIds (dies : Nat) : List Nat :=
  ((List.range 4).filter (fun i => dies.testBit i)).flatMap (fun i => (List.range 64).map (64 * i + ·))
/-- MONSNAP: what the buffer's own stores show to the monitors that have stopped is not counted. -/
def execMonsnap (h : Hdr) (d a b : SReg) : Meaning :=
  issue h { rd := [rS a, rS b], wr := [rS d] } (fun s =>
    let va := (s.sr a).toNat
    let ids := snapIds (slc (s.sr b) 3 0)
    let k : AKind := { write := true }
    if va % 64 ≠ 0 then .trap s (alignTrap k 6 va)
    else
      let (t, r) := s.checkRuns (s.whoOf s.cur) k (runsOf va (320 * ids.length))
      match r with
      | .error e => .trap t e
      | .ok ps =>
        if s.behind s.cur s.nextId true ps || s.anyLocked (s.whoOf s.cur) .package false true ps then .wait s .late
        else
          let T := t.clock.ns
          let asid := s.asidOf s.cur
          let may (id : Nat) : Bool := s.st.modeS || (t.mon id).readable asid
          let bs := ids.flatMap (fun id => if may id then (t.mon id).bytes T else zeros 320)
          let after (id : Nat) : Mon := if (s.sr b).getLsbD 4 && may id then (t.mon id).cleared else t.mon id
          let (t, e) := t.doWr (s.whoOf s.cur) k .package false va ps bs
          match e with
          | some e => .trap (ids.foldl (fun (u : State) id => u.setMon id (s.mon id)) t) e
          | none => .done ((ids.foldl (fun (u : State) id => u.setMon id (after id)) t).sysResult d (BitVec.ofNat 64 T)))

/-! ## The arrival of a blocking result (05 R118, R119) -/

/-- The operation that an event names. -/
def State.evOp (s : State) : Option (Nat × Pend) :=
  match s.ev with
  | .result sid op => ((s.xs sid).ops.find? (fun o => o.id == op)).map (fun o => (sid, o))
  | _ => none
/-- A result arrives: one whose value is known, or CBFLOOR's once no core holds a retired version. Queued replies and engine results have events of
their own; a strand that is not on a core waits for its swap-in. -/
def execBlockingResultArrival : Meaning := fun s =>
  match s.evOp with
  | none => out s
  | some (sid, o) =>
    if 768 ≤ sid || s.frozen (coreOf sid) then out s
    else match o.cls with
    | .queued _ | .engine => out s
    | .floor cbid lo hi => onlyIf (!o.done) (fun s => s.floorArrives sid o.id cbid lo hi) s
    | _ => onlyIf o.done (fun s => s.deliver sid o.id) s

end Machine
end Sys2Proof
end

