-- ==== Sys2Proof/Machine/HostLink.lean ====
section
/-! DEFINITION. The host link and package time: HOSTSIG, TIMEADJ, TRACE, and the events of the host (21 R393-R397, R408-R410; 03
R68). -/

namespace Sys2Proof
namespace Machine

/-! ## HOSTSIG (R396, R397) -/

/-- The slot where a HOSTSIG's message goes: base, j and tail; none where the ring is full or absent (log 15). -/
def State.sigRoom (s : State) : Option (Nat × Nat × Nat) :=
  match s.pkg.hostRing with
  | none => none
  | some (base, j) =>
    let (n, tail) := s.ringFill base
    if n + s.pkg.hostQ.length < 2 ^ j then some (base, j, tail) else none
def execHostsig (h : Hdr) (d a b : SReg) (code : BitVec 15) : Meaning :=
  issue h { rd := [rS a, rS b], wr := [rS d] } (fun s =>
    if !s.performed s.cur then .wait s .result
    else
      let t := s.releaseAt s.cur .package
      match t.sigRoom with
      | none => .done (t.sysResult d (errWord 1))
      | some (base, j, tail) =>
        let m : HostMsg := { code := code.toNat, asid := s.asidOf s.cur, source := 0, team := ((s.teamOf s.cur).map (·.num)).getD 0,
                             word0 := s.sr a, word1 := s.sr b }
        .done ((t.putMsg base j tail m).sysResult d 0))

/-! ## Package time (R409) -/

/-- The slew still left, as a signed word. -/
def Clock.left (c : Clock) : Word := -BitVec.ofNat 64 c.slew
/-- A step: a positive one at once, a negative one slewed. -/
def Clock.step (c : Clock) (x : Int) : Clock :=
  if 0 ≤ x then { c with ns := c.ns + x.toNat } else { c with slew := c.slew + (-x).toNat }
/-- The rate that a word asks for, within its bounds. -/
def rateOf (w : Word) : BitVec 32 := BitVec.ofInt 32 (max (-500000) (min 500000 (sval 32 w.toNat)))

/-- A supervisor word that returns a blocking result at once. -/
def supNow (h : Hdr) (opc : Nat) (d : SReg) (rd : List Reg) (f : State → State × Word) : Meaning :=
  issue h { rd := rd, wr := [rS d], priv := some opc } (fun s => let (t, w) := f s; .done (t.sysResult d w))

def execTimeadjStep (h : Hdr) (d a : SReg) : Meaning :=
  supNow h 0xED d [rS a] (fun s => ({ s with clock := s.clock.step (s.sr a).toInt }, s.clock.left))
def execTimeadjRate (h : Hdr) (d a : SReg) : Meaning :=
  supNow h 0xED d [rS a] (fun s => ({ s with clock := { s.clock with rate := rateOf (s.sr a) } }, s.clock.rate.setWidth 64))
def execTimeadjQuery (h : Hdr) (d _a : SReg) : Meaning := supNow h 0xED d [] (fun s => (s, s.clock.left))

/-! ## TRACE (R410) -/

/-- A trace ring's descriptor: record base, entries, tail, enable. -/
structure TraceRing where
  base   : Nat
  count  : Nat
  tail   : Nat
  enable : Bool
  deriving DecidableEq, Repr
def traceRing (b : List Byte) : TraceRing :=
  { base := field b 0 8, count := field b 8 8, tail := field b 16 8, enable := field b 24 1 % 2 == 1 }

/-- Part of a checked page. -/
def Part.sub (p : Part) (off len : Nat) : Part := { p with va := p.va + off, pa := p.pa + off, len := len }

/-- The place of the record with a number; a ring of no entries has none (log 40). -/
def State.recordSlot (s : State) (count i : Nat) : State × Nat :=
  if count == 0 then let (w, s) := s.free; (s, w.toNat) else (s, i % count)

/-- The record's store, once the tail has been fetched: a failure is deferred. -/
def State.traceStore (s : State) (r : FixReq) : State :=
  let (t, x) := s.fixCheck s.cur r
  match x with
  | .error e => t.deferTrap s.cur (.fix r) e
  | .ok p => if t.fixLate s.ms r p then t.fixLater r p 1 else t.fixNow r p 1

def execTrace (h : Hdr) (d a b : SReg) (code : BitVec 16) : Meaning :=
  issue h { rd := [rS a, rS b], wr := [rS d] } (fun s =>
    let va := (s.sr a).toNat
    let k : AKind := { amo := true, write := true, cohOnly := true }
    let who := s.whoOf s.cur
    if va % 64 ≠ 0 then .trap s (alignTrap k 6 va)
    else
      let (t, x) := s.checkPage who k va 64
      match x with
      | .error e => .trap { t with strands := s.strands } e
      | .ok p =>
        if s.behind s.cur s.nextId true [p] || s.anyLocked who .package false true [p] then .wait s .late
        else
          let (t, y) := t.doRd who k .package false va [p]
          match y with
          | .error e => .trap t e
          | .ok bs =>
            let ring := traceRing bs
            if !ring.enable then .done (t.sysResult d (errWord 1))
            else
              let (t, z) := t.rmwPart who (p.sub 16 8) 8 (fun b => leBytes 8 (leNat b + 1))
              match z with
              | .error h => .trap t (eccu h (va + 16))
              | .ok _ =>
                let (t, i) := t.recordSlot ring.count ring.tail
                let (t, r) := t.fixReq (.trace h d a b code) (BitVec.ofNat 64 (ring.base + 32 * i))
                let r := { r with mask := BitVec.ofNat 64 s.clock.ns, data := s.sr b, data2 := BitVec.ofNat 64 s.cycle }
                .done ((t.traceStore r).sysResult d (BitVec.ofNat 64 ring.tail)))

/-! ## The host's events -/

/-- The bytes of a host write that the part takes: a store to a device-fed queue's tail is ignored (03 R68). -/
def State.hostTakes (s : State) (pa : Nat) : Bool :=
  !((List.range 64).any (fun q => s.qPa q + 0x20 ≤ pa && pa < s.qPa q + 0x28 &&
    (qParse (peekBytes s.ms 0 (s.qPa q) 64)).deviceFed))
/-- A host write: its bytes are performed at package scope, line by line, at the home slice under key slot 0, or in the host's own
memory (log 41). -/
def State.hostPut (s : State) (pa : Nat) (bs : List Byte) : State :=
  (lineRuns (bs.length / 64 + 2) pa bs.length).foldl (fun (s : State) (p, n) =>
    let w := (contig (p % 64) ((bs.drop (p - pa)).take n)).filter (fun e => s.hostTakes (p / 64 * 64 + e.1))
    if isHost p then s.setMs (dramStore s.ms (p / 64) 0 w)
    else
      let s := s.freeLines p n
      let (ms, e) := writeLine s.ms partAcc (p / 64) w
      s.setMs (noteEcc ms (e.map (fun h => (h, p))))) s
/-- An address range that exists. -/
def rangeOk (pa n : Nat) : Bool := paOk pa && (n == 0 || (paOk (pa + n - 1) && isHost pa == isHost (pa + n - 1)))
def execHostWrite : Meaning := fun s =>
  match s.ev with
  | .hostWrite pa bs => onlyIf (rangeOk pa bs.length) (fun s => s.hostPut pa bs) s
  | _ => out s
/-- The firmware places the host message ring, once: 2^6 to 2^16 entries at an address that exists (R396; log 15). -/
def State.placeRing (s : State) (pa j : Nat) : State :=
  if s.pkg.hostRing.isNone && 6 ≤ j && j ≤ 16 && pa % 64 == 0 && rangeOk pa (64 + 32 * 2 ^ j) then
    { s with pkg := { s.pkg with hostRing := some (pa, j) } }
  else s
/-- Room in the ring, or the ring is there: waiting messages are posted. -/
def execHostMessagePost : Meaning := fun s =>
  let s := match s.ev with | .ring pa j => s.placeRing pa j | _ => s
  out (s.pumpMsgs s.pkg.hostQ.length)
def execHostKillRequest : Meaning := fun s =>
  match s.ev with
  | .kill asid => out (s.kill asid.toNat 1)
  | _ => out s
def execHostSyncRequest : Meaning := fun s =>
  match s.ev with
  | .sync seq => out (s.postMsg 0x8004 0xFF 2 (BitVec.ofNat 64 s.clock.ns) seq)
  | _ => out s

end Machine
end Sys2Proof
end

