-- ==== Sys2Proof/Machine/Health.lean ====
section
/-! DEFINITION. Watchdog, spares, ECC injection and counts, power and heat, reset (22 R417-R426; 11 R429). -/

namespace Sys2Proof
namespace Machine

/-! ## The watchdog (R423) -/

def State.setWdog (s : State) (w : Wdog) : State := { s with pkg := { s.pkg with wdog := w } }
/-- A success result that the manual gives no value: free but for its clear bit 63 (R418; log 42). -/
def State.freeOk (s : State) : State × Word := let (w, s) := s.free; (s, w &&& 0x7FFFFFFFFFFFFFFF)
/-- The us left, with bit 63 once the watchdog has expired. -/
def Wdog.left (w : Wdog) (ns : Nat) : Word :=
  BitVec.ofNat 64 (b2n w.fired * 2 ^ 63 + (if w.on then (w.due - ns) / 1000 else 0))

def execWdogArm (h : Hdr) (d a : SReg) : Meaning :=
  supNow h 0xF0 d [rS a] (fun s =>
    let n := (s.sr a).toNat
    if n == 0 || 2 ^ 32 ≤ n then (s, errWord 1)
    else (s.setWdog { s.pkg.wdog with on := true, us := n, due := s.clock.ns + 1000 * n }).freeOk)
def execWdogOff (h : Hdr) (d _a : SReg) : Meaning :=
  supNow h 0xF0 d [] (fun s => (s.setWdog { s.pkg.wdog with on := false }).freeOk)
def execWdogQuery (h : Hdr) (d _a : SReg) : Meaning :=
  supNow h 0xF0 d [] (fun s => (s.setWdog { s.pkg.wdog with fired := false }, s.pkg.wdog.left s.clock.ns))
def execWdogExpiry : Meaning := fun s =>
  onlyIf (s.pkg.wdog.on && s.pkg.wdog.due ≤ s.clock.ns) (fun s =>
    let t := s.postErr 0x0009 0xFF 0xFF (BitVec.ofNat 64 s.pkg.wdog.us) 0
    t.setWdog { s.pkg.wdog with on := false, fired := true }) s

/-! ## The spare map (R421, R422; 04 R85, R86) -/

/-- Is a selector's index in range? -/
def spareIndexOk (kind idx : Nat) : Bool :=
  match kind with
  | 0 | 2 => idx / 16 < 4 && idx % 16 < 12
  | 1 => idx / 128 < 4
  | 3 | 4 => idx < 8
  | 5 => idx < 17
  | _ => false
/-- The selector's key in the map. -/
def spareKey (kind idx : Nat) : Nat := kind * 4096 + idx
/-- The in-service mask of a cluster, numbered 12 x die + cluster. -/
def State.serviceMask (s : State) (cluster : Nat) : BitVec 4 := Sparse.get s.pkg.service 15 cluster
/-- A value within what the selector can report. -/
def spareRange (kind : Nat) (w : Word) : Word :=
  match kind with
  | 0 => w % 13
  | 1 => w % 132
  | 3 => w &&& 0xFFFF
  | _ => w
/-- What SPAREMAP reports: what a change has set, or the factory's map (log 19). -/
def State.spareGet (s : State) (kind idx : Nat) : Word :=
  if kind == 2 then (s.serviceMask (idx / 16 * 12 + idx % 16)).setWidth 64
  else match Sparse.get s.pkg.spare 0 (spareKey kind idx) with
  | 0 => spareRange kind (Config.factoryMap kind idx)
  | n + 1 => BitVec.ofNat 64 n
def execSparemap (h : Hdr) (d a : SReg) : Meaning :=
  supNow h 0xF1 d [rS a] (fun s =>
    let kind := slc (s.sr a) 15 12
    let idx := slc (s.sr a) 11 0
    (s, if spareIndexOk kind idx then s.spareGet kind idx else errWord 1))

/-- The selector and the new value of a change. -/
def SpareChange.sel : SpareChange → Nat × Nat × Nat
  | .cluster i p => (0, i, p)
  | .slice i p => (1, i, p)
  | .service i m => (2, i, m.toNat)
  | .ways i b => (3, i, b.toNat)
  | .rows i n => (4, i, n.toNat)
  | .lanes i b => (5, i, b.toNat)
/-- Is a change's value one that the selector can report? -/
def spareValueOk (kind v : Nat) : Bool :=
  match kind with
  | 0 => v < 13
  | 1 => v < 132
  | _ => true
/-- Is no team placed on the units that a change affects? A change of the memory side waits until no team is placed. -/
def State.spareFree (s : State) (kind idx : Nat) : Bool :=
  s.cores.all (fun ((i, c) : Nat × Core) => c.team.isNone ||
    ((kind == 0 || kind == 2) && clusterOf i ≠ idx / 16 * 12 + idx % 16))
/-- The change made, and reported. -/
def State.spareSet (s : State) (kind idx v : Nat) : State :=
  let p := if kind == 2 then { s.pkg with service := Sparse.set s.pkg.service 15 (idx / 16 * 12 + idx % 16) (BitVec.ofNat 4 v) }
    else { s.pkg with spare := Sparse.set s.pkg.spare 0 (spareKey kind idx) (v + 1) }
  State.postErr { s with pkg := p } 0x0008 0xFF 0xFF (BitVec.ofNat 64 (spareKey kind idx)) (BitVec.ofNat 64 v)
def execSpareMapChange : Meaning := fun s =>
  match s.ev with
  | .spare c =>
    let (kind, idx, v) := SpareChange.sel c
    onlyIf (spareIndexOk kind idx && spareValueOk kind v && s.spareFree kind idx) (fun s => s.spareSet kind idx v) s
  | _ => out s

/-! ## ECC (R417-R420) -/

/-- The bits of a 256-bit granule that an injection flips. -/
def flipMask (bit : Nat) (dbl : Bool) : Nat :=
  2 ^ (bit % 256) ||| (if dbl then 2 ^ ((bit + 1) % 256) else 0)
/-- ECCINJ: the injection waits for the next write of the granule in the holder. -/
def execEccinj (h : Hdr) (d a b : SReg) (hold : BitVec 3) (dbl : Bool) : Meaning :=
  supNow h 0xF2 d [rS a, rS b] (fun s =>
    let pa := (s.sr a).toNat
    if 2 ^ 39 ≤ pa then (s, errWord 2)
    else
      let j := Sparse.set s.ms.inject (0, 0) (dieKey (homeDie pa) hold.toNat) (pa / 32 + 1, flipMask (slc (s.sr b) 7 0) dbl)
      (s.setMs { s.ms with inject := j }, 0))
def execEccst (h : Hdr) (d a : SReg) (clr : Bool) : Meaning :=
  supNow h 0xF3 d [rS a] (fun s =>
    let holder := slc (s.sr a) 6 4
    let k := dieKey (slc (s.sr a) 1 0) holder
    if holder == 7 then (s, errWord 1)
    else
      let w := BitVec.ofNat 64 (Sparse.get s.ms.uncorr 0 k * 2 ^ 32 + Sparse.get s.ms.corr 0 k)
      (if clr then s.setMs { s.ms with uncorr := Sparse.set s.ms.uncorr 0 k 0, corr := Sparse.set s.ms.corr 0 k 0 } else s, w))

/-! ## Power and heat (R424-R426) -/

/-- The controller's law (R424, R426): no gate count falls while power is above the cap, and none rises while it is not, unless a die is hot,
which counts as a lower cap. Its steps and the junction temperatures are the outside's (log 82). -/
def State.gatesOk (s : State) (watts : BitVec 16) (gates : List (BitVec 4)) : Bool :=
  gates.length == 192 &&
  (watts.toNat ≤ s.sys.pwrcap.toNat || gates.zipIdx.all (fun (g, i) => decide ((s.core i).gate ≤ g)))
/-- The controller's tick: measured power, and a gate count for each core. -/
def State.setPower (s : State) (watts : BitVec 16) (g : List (BitVec 4)) : State :=
  let s := { s with sys := { s.sys with watts := watts, gated := BitVec.ofNat 16 (g.foldl (fun n x => n + x.toNat) 0 * 4096 / 192) } }
  g.zipIdx.foldl (fun (s : State) (x, i) => s.modCore i (fun c => { c with gate := x })) s
def execPowerControlTick : Meaning := fun s =>
  match s.ev with
  | .power watts gates => onlyIf (s.gatesOk watts gates) (fun s => s.setPower watts gates) s
  | _ => out s
/-- 115 degrees: every context is killed. -/
def State.killAll (s : State) : State :=
  (List.range 64).foldl (fun (s : State) a =>
    if s.ctxValid a || s.launches.any (fun (e : Nat × Option Launch) => (e.2.map (·.asid)) == some a)
      then s.kill a 5 else s) s
def execThermalLimit : Meaning := fun s => out s.killAll

/-! ## Reset (R429 and every reset value) -/

/-- The machine after a reset: what the host's memory holds stays, as do the package's straps and its repairs, and the model's own
counters and schedule go on. -/
def State.restart (s : State) : State :=
  { State.reset with
    sys := { State.reset.sys with pkgid := s.sys.pkgid }
    ms := { State.reset.ms with mem := s.ms.mem.filter (fun (e : Host.Cell) => isHost e.1), useClock := s.ms.useClock }
    pkg := { State.reset.pkg with spare := s.pkg.spare, service := s.pkg.service }
    nextId := s.nextId, draw := s.draw, cur := s.cur, agenda := s.agenda }
def execReset : Meaning := fun s => out s.restart

end Machine
end Sys2Proof
end

