-- ==== Sys2Proof/Machine/Fabric.lean ====
section
/-! DEFINITION. The fabric: groups, remote accesses of this package and of others, and collectives (21 R398-R407). -/

namespace Sys2Proof
namespace Machine

/-! ## Remote accesses (R399-R401) -/

/-- A remote access word: alignment, the release of FXSIG, and the request. -/
def fxAccess (h : Hdr) (u : Use) (tag : BitVec 3) (i : Instr) (a b : SReg) (addr : State → Word) (data data2 : State → Word)
    (sig : Bool) : Meaning :=
  issue h { u with rd := rS a :: rS b :: u.rd } (fun s =>
    let al := (qSize i).2
    let va := addr s
    if (s.st.tagAt tag).used s.cycle then .wait s .queue
    else if va.toNat % al ≠ 0 then .trap s (alignTrap (qKind i) (Nat.log2 al) va.toNat)
    else if sig && !s.performedAt s.cur .domain then .wait s .result
    else
      let (t, r) := s.qReq i va
      let t := if sig then t.releaseAt t.cur .domain else t
      .done (t.fxIssue s.cur tag { r with data := data s, data2 := data2 s, target := s.sr b }))

def execFxr (h : Hdr) (sz : LdSize) (tag : BitVec 3) (d a b : SReg) (off : BitVec 20) : Meaning :=
  fxAccess h { wr := [rS d] } tag (.fxr h sz tag d a b off) a b (fun s => s.ea0 a off) (fun _ => 0) (fun _ => 0) false
def execFxw (h : Hdr) (sz : StSize) (tag : BitVec 3) (d a b : SReg) (off : BitVec 20) : Meaning :=
  fxAccess h { rd := [rS d] } tag (.fxw h sz tag d a b off) a b (fun s => s.ea0 a off) (fun s => s.sr d) (fun _ => 0) false
def execFxamo (h : Hdr) (op : AmoOp) (sz : AmoSize) (tag : BitVec 3) (d a b : SReg) (off : BitVec 16) : Meaning :=
  fxAccess h { rd := amoRegs op d, wr := [rS d] } tag (.fxamo h op sz tag d a b off) a b (fun s => s.ea0 a off)
    (fun s => s.sr d) (fun s => s.casNew op d) false
def execFxsig (h : Hdr) (tag : BitVec 3) (d a b : SReg) (off : BitVec 20) : Meaning :=
  fxAccess h { rd := [rS d] } tag (.fxsig h tag d a b off) a b (fun s => s.ea0 a off) (fun s => s.sr d) (fun _ => 0) true

/-! ## Requests of other packages (R400, R401) -/

/-- The reply that leaves. -/
def State.answer (s : State) (a : RemoteAns) : State :=
  { s with pkg := { s.pkg with fabricOut := s.pkg.fabricOut ++ [.answer a] } }
/-- A request from another package. -/
def State.remote (s : State) (r : RemoteReq) : State :=
  if !s.ctxValid r.asid then s.answer (.fail cMEMTO 0)
  else match s.remoteDo r.asid r.va r.op with
    | some (s, a) => s.answer a
    | none => s
/-- A request that arrives keeps to the sizes and the alignment that R399 and R400 allow. -/
def RemoteReq.ok (r : RemoteReq) : Bool :=
  let n := (RemoteOp.size r.op)
  (n == 1 || n == 2 || n == 4 || n == 8) && r.va.toNat % n == 0 && r.asid < 64
def execRemoteRequest : Meaning := fun s =>
  match s.ev with
  | .remote r => onlyIf (RemoteReq.ok r) (fun s => s.remote r) s
  | _ => out s

/-! ## Groups (R398) -/

def FabricGroup.ok (g : FabricGroup) : Bool :=
  1 ≤ g.n && g.n ≤ 256 && g.rank < g.n && g.members.length == g.n && g.members.all (fun m => m.1 < 65536 && m.2 < 64)
def execFabricGroupWrite : Meaning := fun s =>
  match s.ev with
  | .group asid g x => onlyIf (FabricGroup.ok x || !x.valid) (fun s =>
      let gs := Sparse.set s.pkg.groups { valid := false, n := 0, rank := 0, members := [] } (64 * asid.toNat + g.toNat) x
      { s with pkg := { s.pkg with groups := gs } }) s
  | _ => out s

/-! ## The collective record (R402) -/

/-- The fields of a collective record. -/
structure CollRec where
  src : Nat
  dst : Nat
  n : Nat
  group : Nat
  fmt : Nat
  cbid : Nat
  ver : Nat
  cur : Bool
  res : Nat
  chunk : Nat
  deriving DecidableEq, Repr
def CollRec.of (r : Vector Word 8) : CollRec :=
  { src := (rword r 0).toNat, dst := (rword r 1).toNat, n := slc (rword r 2) 31 0, group := slc (rword r 2) 37 32
    fmt := slc (rword r 3) 3 0, cbid := slc (rword r 3) 27 16, ver := slc (rword r 3) 35 28, cur := (rword r 3).getLsbD 36
    res := (rword r 4).toNat, chunk := (rword r 5).toNat }
/-- Is the reduction an integer one? -/
def CollOp.iadd : CollOp → Bool
  | .allReduce .iadd | .reduceScatter .iadd => true | _ => false

/-- The first check that a record fails: word and reason; `count0` is the reason of a count of 0, which the manual does not name
(log 44). -/
def collBad (r : Vector Word 8) (op : CollOp) (cmp : Bool) (g : FabricGroup) (count0 : Nat) : Option (Nat × Nat) :=
  let c := CollRec.of r
  if slc (rword r 2) 63 38 ≠ 0 then some (2, 0x20)
  else if slc (rword r 3) 15 4 ≠ 0 || slc (rword r 3) 63 37 ≠ 0 then some (3, 0x20)
  else if rword r 6 ≠ 0 then some (6, 0x20)
  else if rword r 7 ≠ 0 then some (7, 0x20)
  else if c.n == 0 then some (2, count0)
  else if c.src % 8 ≠ 0 then some (0, 0x21)
  else if c.dst % 8 ≠ 0 then some (1, 0x21)
  else if cmp && c.n % 128 ≠ 0 then some (2, 0x21)
  else if 2 < c.fmt || (CollOp.iadd op && c.fmt ≠ 0) then some (3, 0x22)
  else if !g.valid then some (2, 0x23)
  else none

/-! ## The slots (R405) -/

def Team.coll (t : Team) (i : BitVec 3) : Coll := t.colls[i.toNat]'i.isLt
def Team.setColl (t : Team) (i : BitVec 3) (c : Coll) : Team := { t with colls := t.colls.set i.toNat c i.isLt }
/-- The status word. -/
def Coll.status (c : Coll) : Word :=
  BitVec.ofNat 64 ((if c.state == 3 || c.state == 4 then 2 ^ 63 else 0) + c.chunks % 2 ^ 32 * 65536 + c.reason % 256 * 256 + c.state)

/-- The strand that issued a collective. -/
def Coll.sid (c : Coll) (tid : Nat) (t : Team) : Nat := t.sidFor tid c.role
/-- How a collective accesses memory: as its strand, in the mode of its issue. -/
def State.collWho (s : State) (tid : Nat) (t : Team) (c : Coll) : Who := { s.whoOf (c.sid tid t) with sup := c.sup }

/-- Elements of the source and of the destination (R403), and the bytes of an element. -/
def Coll.srcN (c : Coll) : Nat := match c.op with | .reduceScatter _ => (CollRec.of c.record).n * c.members | _ => (CollRec.of c.record).n
def Coll.dstN (c : Coll) : Nat := match c.op with | .allGather => (CollRec.of c.record).n * c.members | _ => (CollRec.of c.record).n
def Coll.esz (c : Coll) : Nat := if (CollRec.of c.record).fmt == 0 then 4 else 2
/-- Chunks of 4 KiB of the destination. -/
def Coll.chunkN (c : Coll) : Nat := cdiv (c.dstN * c.esz) 4096

/-- Read or write a run for a collective; a fault or an uncorrectable error stops it. -/
def State.collRd (s : State) (who : Who) (va n : Nat) : State × Option (List Byte) :=
  let k : AKind := { far := true }
  let (s, r) := s.checkRuns who k (runsOf va n)
  match r with
  | .error _ => (s, none)
  | .ok ps =>
    let (s, b) := (s.commitParts who k ps).rdParts who .package false va ps
    (s, match b with | .ok b => some b | .error _ => none)
def kCollWr : AKind := { write := true, far := true }
def State.collWr (s : State) (who : Who) (va : Nat) (ps : List Part) (bs : List Byte) : State × Bool :=
  let (s, e) := (s.commitParts who kCollWr ps).wrParts who .package false va ps bs
  (s, e.isNone)

/-- A collective ends: its status is set and its token pushed (R407). -/
def State.collEnd (s : State) (tid : Nat) (i : BitVec 3) (c : Coll) : State :=
  let s := s.modTeam tid (fun t => t.setColl i c)
  match c.nr with
  | some nr => (s.fillTok tid c.role nr c.lines).swapTok tid c.role nr
  | none => s

/-- A collective stops early: its chunk bytes are written, and it ends; what it has written is acquired as at a completion (R406, R407). -/
def State.collStop (s : State) (tid : Nat) (t : Team) (i : BitVec 3) (c : Coll) (state reason : Nat)
    (chunks : List Byte := zeros c.chunkN) : State :=
  let who := s.collWho tid t c
  let (s, r) := s.checkRuns who kCollWr (runsOf (CollRec.of c.record).chunk c.chunkN)
  let (s, ls) := match r with
    | .error _ => (s, [])
    | .ok ps => ((s.collWr who (CollRec.of c.record).chunk ps chunks).1, linesOf ps)
  s.collEnd tid i { c with state := state, reason := reason, chunks := chunks.count 1, lines := c.lines ++ ls }
/-- And sends abort flits to every member (R406). -/
def State.collAbort (s : State) (tid : Nat) (t : Team) (i : BitVec 3) (c : Coll) (state reason : Nat)
    (chunks : List Byte := zeros c.chunkN) : State :=
  let s := s.collStop tid t i c state reason chunks
  let asid := ((s.launch t.launch).map (·.asid)).getD 0
  { s with pkg := { s.pkg with fabricOut := s.pkg.fabricOut ++ [.abort asid c.group i.toNat c.ordinal reason] } }

/-! ## COLL, COLLST, COLLAB (R402-R407) -/

/-- The abort that arrived before its COLL. -/
def State.earlyAbort (s : State) (tid key ordinal : Nat) : Option Nat :=
  (s.pkg.aborts.find? (fun a => a.1 == tid && a.2.1 == key && a.2.2.1 == ordinal)).map (·.2.2.2)

/-- A collective starts on its slot. -/
def State.collStart (s : State) (tid : Nat) (i : BitVec 3) (r : Vector Word 8) (nr : Option (BitVec 4)) (op : CollOp) (cmp : Bool)
    (g : FabricGroup) : State :=
  let c := CollRec.of r
  let key := 8 * c.group + i.toNat
  let no := ((s.team tid).map (fun t => Sparse.get t.collNo 0 key)).getD 0
  let x : Coll := { state := 1, record := r, op := op, cmp := cmp, group := c.group, ordinal := no, members := g.n, rank := g.rank
                    stamp := c.ver, nr := nr.map (·.toNat), role := s.st.role.toNat, sup := s.st.modeS }
  let s := s.modTeam tid (fun t => { (t.setColl i x) with collNo := Sparse.set t.collNo 0 key (no + 1) })
  match s.earlyAbort tid key no, s.team tid with
  | some reason, some t =>
    let s := s.collStop tid t i x 3 reason
    { s with pkg := { s.pkg with aborts := s.pkg.aborts.filter (fun a => !(a.1 == tid && a.2.1 == key && a.2.2.1 == no)) } }
  | _, _ => s

/-- The record with current captured, for cmp, and the reason of the failure where the directory cannot be read: a collective's faults
are no traps (R405). -/
def State.captureColl (s : State) (r : Vector Word 8) (cmp : Bool) : State × Vector Word 8 × Option Nat :=
  if !cmp then (s, r, none)
  else
    let (s, x) := s.captureRec r
    (s, match x with
      | .ok r => (r, none)
      | .error _ => (r, some 5))
/-- A collective that has just started fails. -/
def State.collCannot (s : State) (tid : Nat) (i : BitVec 3) (reason : Nat) : State :=
  match s.team tid with
  | some t => if (t.coll i).state == 1 then s.collAbort tid t i (t.coll i) 4 reason else s
  | none => s

def execColl (h : Hdr) (d : SReg) (x : BitVec 3) (nr : Option (BitVec 4)) (op : CollOp) (cmp : Bool) (slot : BitVec 3) : Meaning :=
  issue h { rd := recRegs x, wr := [rS d] } (fun s =>
    let r := s.record x
    let g := s.group (s.asidOf s.cur) (CollRec.of r).group
    let (w, s') := s.free
    match s.badNr nr, collBad r op cmp g (slc w 7 0) with
    | true, _ => .trap s (illencAt s 3)
    | _, some e => .trap s' (layTrap e)
    | _, none =>
      if !s.performed s.cur then .wait s .result
      else
        match s.st.team, s.teamOf s.cur with
        | some tid, some tm =>
          if (tm.coll slot).state == 1 then .done ((s.releaseAt s.cur .package).sysResult d (errWord 1))
          else if !s.nrRoom nr then .wait s .notify
          else
            let (t, r, bad) := s.captureColl r cmp
            let t := ((t.releaseAt s.cur .package).reserveNr nr).collStart tid slot r nr op cmp g
            .done ((match bad with | some n => t.collCannot tid slot n | none => t).sysResult d 0)
        | _, _ => .done (s.sysResult d 0))

/-- The writes of an ended collective are acquired: stash copies of its lines are dropped. -/
def State.collAcquire (s : State) (core : Nat) (c : Coll) : State :=
  s.setMs (c.lines.foldl (fun ms l => if (getCopy ms (hStash core) l).swc then evictLine ms (hStash core) l else ms) s.ms)
/-- The current strand's team, and its slot. -/
def State.myColl (s : State) (slot : BitVec 3) : Option (Nat × Team × Coll) :=
  match s.st.team, s.teamOf s.cur with
  | some tid, some t => some (tid, t, t.coll slot)
  | _, _ => none
def execCollst (h : Hdr) (d : SReg) (wait : Bool) (slot : BitVec 3) : Meaning :=
  issue h { wr := [rS d] } (fun s =>
    match s.myColl slot with
    | none => .done (s.sysResult d 0)
    | some (_, _, c) =>
      if wait && c.state == 1 then .wait s .result
      else .done ((if 2 ≤ c.state then s.collAcquire s.cc c else s).sysResult d c.status))
def execCollab (h : Hdr) (d : SReg) (slot : BitVec 3) : Meaning :=
  issue h { wr := [rS d] } (fun s =>
    match s.myColl slot with
    | none => .done (s.sysResult d 0)
    | some (tid, t, c) =>
      if c.state == 1 then
        let s := s.collAbort tid t slot c 3 4
        .done (s.sysResult d ((s.myColl slot).elim 0 (fun e => e.2.2.status)))
      else .done (s.sysResult d c.status))

/-! ## Folding (R403) -/

/-- The format of an element. -/
def collFmt (fmt : Nat) : FpFmt := if fmt == 1 then fp16 else if fmt == 2 then bf16 else fp32
/-- The elements of bytes. -/
def elemsOf (esz : Nat) (bs : List Byte) : List Nat := (runsBy esz (bs.length + 1) bs).map leNat
/-- The fold of one element's values in rank order, into the element's format. -/
def foldElem (red : CollRed) (fmt : Nat) (vs : List XVal) (is : List Nat) : Nat :=
  match red with
  | .iadd => is.foldl (fun a x => (a + x) % 2 ^ 32) 0
  | .fadd => match vs with
    | [] => 0
    | v :: rest => ((collFmt fmt).round .rne 0 (rest.foldl (fun a x => Machine.fp32.read (Machine.fp32.fin .rne 0 (xadd .rne a x)).1) v)).1
  | .fmax => match vs with
    | [] => 0
    | v :: rest => ((collFmt fmt).round .rne 0 (rest.foldl (fun a x =>
        Machine.fp32.read (fminmax Machine.fp32 true false (Machine.fp32.round .rne 0 a).1 (Machine.fp32.round .rne 0 x).1).1) v)).1

/-! ## Compressed contributions (R404) -/

/-- The layout that a collective's segments have. -/
def collLay (c : Coll) (d : Dir) : Lay :=
  let r := CollRec.of c.record
  { Lay.of (Vector.replicate 8 0) with fmt := if r.cbid < 10 then r.cbid else d.kind + 9, cbid := r.cbid, ver := c.stamp
                                       d := if r.cbid < 10 then 1 else max 1 d.d, w := if r.cbid < 10 then arithW r.cbid else d.w, scale := 1 }
/-- One segment encoded with residue feedback: its bytes, and the new residues. -/
def collEnc (l : Lay) (bs : Books) (ys : List XVal) (rho : List Nat) : List Byte × List Nat :=
  let k : Conv := { cbid := l.cbid, stamp := l.stamp, signed := false, had := 0 }
  let ts := (ys.zip rho).map (fun (y, r) => (xadd .rne y (Machine.fp16.read r)).v)
  let e := encLine bs k true .rne 0 ts
  (segBytes l none l.stamp false e.scales (rowIdx l e.cells),
    ((ts.zip e.dec).zipIdx.map (fun ((x, y), p) =>
      if e.scales.getD (p / 32) 127 == 255 then (Machine.fp16.round .rne 0 x).1
      else (Machine.fp16.fin .rne 0 (xadd .rne x y.neg)).1)))
/-- The values of a segment. -/
def collDec (l : Lay) (bs : Books) (b : List Byte) : List XVal :=
  let h := SegHdr.of b
  let is := unpackIdx l.d l.w (b.drop 8)
  let g := mkTag l.fmt false false l.cbid h.stamp h.scales
  (rowRaw bs g false ((idxCells l.d is).map (fun x => BitVec.ofNat 32 x))).zipIdx.map (fun (x, p) => x.under (tagScale g (p / 32)))

/-- The versions that segments name, read from the archive; reason 2 where a stamp is not valid, 5 where the archive cannot be read. -/
def State.collBooks (s : State) (asid cbid : Nat) (d : Dir) : List Nat → State × Except Nat Books
  | [] => (s, .ok [])
  | v :: rest =>
    if cbid < 10 then (s, .ok [])
    else if !d.valid v then (s, .error 2)
    else
      let (s, r) := s.supRd rmCore asid kCohRd (d.record v + 64) d.bytes
      match r with
      | .error _ => (s, .error 5)
      | .ok b =>
        let (s, bs) := s.collBooks asid cbid d rest
        (s, match bs with
          | .ok l => .ok ({ cbid := cbid, stamp := v, dir := d, data := halves b } :: l)
          | .error n => .error n)

/-- What a completion finds: the destination's bytes with the residues, or the reason of a failure. -/
inductive CollGo where
  | ok (dst res : List Byte) | fail (reason : Nat)

/-- The contributions of all members for the destination: `mine` is this member's, the others came as flits. -/
def contribs (c : Coll) (mine : List Byte) (peers : List (List Byte)) : List (List Byte) :=
  peers.zipIdx.map (fun (b, q) => if q == c.rank then mine else b)
/-- This member's part of its contribution: its own block for a reduce-scatter. -/
def Coll.part {α : Type} (c : Coll) (block : Nat) (l : List α) : List α :=
  match c.op with | .reduceScatter _ => (l.drop (c.rank * block)).take block | _ => l
/-- The reduction of an operation. -/
def CollOp.red : CollOp → Option CollRed
  | .allReduce r | .reduceScatter r => some r | .allGather => none

/-- A collective without cmp. -/
def collPlain (c : Coll) (src : List Byte) (peers : List (List Byte)) : CollGo :=
  let r := CollRec.of c.record
  let all := contribs c (c.part (r.n * c.esz) src) peers
  if all.any (fun b => b.length ≠ r.n * c.esz) then .fail 1
  else match CollOp.red c.op with
  | none => .ok all.flatten []
  | some red =>
    let es := all.map (elemsOf c.esz)
    .ok ((List.range r.n).flatMap (fun j =>
      let is := es.map (fun l => l.getD j 0)
      leBytes c.esz (foldElem red r.fmt (is.map (fun x => (collFmt r.fmt).read x)) is))) []

/-- A collective with cmp: this member's segments, every member's values, the fold. -/
def State.collCmp (s : State) (c : Coll) (asid : Nat) (src res : List Byte) (peers : List (List Byte)) : State × CollGo :=
  let r := CollRec.of c.record
  let (s, d) := s.dirRead rmCore asid r.cbid
  match d with
  | .error _ => (s, .fail 5)
  | .ok d =>
    if d.kind == 0 then (s, .fail 2)
    else
      let l := collLay c d
      let (s, own) := s.collBooks asid r.cbid d [c.stamp]
      match own with
      | .error n => (s, .fail n)
      | .ok own =>
        let ys := (elemsOf c.esz src).map (fun x => (collFmt r.fmt).read x)
        let rho := elemsOf 2 res
        let segs := (List.range (c.srcN / 128)).map (fun i => collEnc l own ((ys.drop (128 * i)).take 128) ((rho.drop (128 * i)).take 128))
        let mine := (c.part (r.n / 128) (segs.map (·.1))).flatten
        let all := (contribs c mine peers).map (fun b => runsBy l.S (b.length + 1) b)
        if all.any (fun g => g.length ≠ r.n / 128 || g.any (fun b => b.length ≠ l.S || (segHdrBad l b).isSome)) then (s, .fail 1)
        else
          let (s, bs) := s.collBooks asid r.cbid d ((all.flatMap (fun g => g.map (fun b => field b 0 1))).eraseDups)
          match bs with
          | .error n => (s, .fail n)
          | .ok bs =>
            let vals := all.map (fun g => g.flatMap (collDec l bs))
            (s, .ok ((List.range r.n).flatMap (fun j => leBytes c.esz (foldElem .fadd r.fmt (vals.map (fun v => v.getD j (.fin false 0 0))) [])))
              ((segs.flatMap (·.2)).flatMap (leBytes 2)))

/-! ## The events (R406, R407) -/

/-- The running collective that an event names. -/
def State.evColl (s : State) : Option (Nat × Team × BitVec 3 × Coll × Nat × List (List Byte)) :=
  match s.ev with
  | .collSlot tid g i no reason peers =>
    match s.team tid with
    | none => none
    | some t =>
      let c := t.coll i
      if c.state == 1 && c.group == g.toNat && c.ordinal == no then some (tid, t, i, c, reason.toNat, peers) else none
  | _ => none

/-- The runs of a destination, each with its chunk of 4 KiB. -/
def chunkRuns (va n : Nat) : List (Nat × Nat × Nat) :=
  (List.range (cdiv n 4096)).flatMap (fun j => (runsOf ((va + 4096 * j) % 2 ^ 64) (min 4096 (n - 4096 * j))).map (fun r => (j, r)))
/-- Write a destination piece by piece, up to the first that fails: which pieces have been written. -/
def State.collPut (s : State) (who : Who) : List Part → List Byte → State × List Bool
  | [], _ => (s, [])
  | p :: ps, bs =>
    let (s, ok) := s.collWr who p.va [p] (bs.take p.len)
    if !ok then (s, false :: ps.map (fun _ => false))
    else
      let (s, l) := s.collPut who ps (bs.drop p.len)
      (s, true :: l)
/-- The chunk bytes of a destination of which some pieces have been written (R406). -/
def chunkBytes (n : Nat) (done : List (Nat × Bool)) : List Byte :=
  (List.range n).map (fun j =>
    let mine := (done.filter (fun e => e.1 == j)).map (·.2)
    if mine.all id then 1 else if mine.any id then 2 else 0)
/-- The writes of a completion: destination, residues, chunk bytes; reason 5 where one cannot be made. -/
def State.collFinish (s : State) (tid : Nat) (t : Team) (i : BitVec 3) (c : Coll) (dst res : List Byte) : State :=
  let r := CollRec.of c.record
  let who := s.collWho tid t c
  let cs := chunkRuns r.dst dst.length
  let (s, a) := s.checkRuns who kCollWr (cs.map (·.2))
  let (s, b) := s.checkRuns who kCollWr (runsOf r.res res.length)
  let (s, k) := s.checkRuns who kCollWr (runsOf r.chunk c.chunkN)
  match a, b, k with
  | .ok a, .ok b, .ok k =>
    if s.anyLocked who .package false true (a ++ b ++ k) then s
    else
      let (s, o1) := s.collPut who a dst
      let bytes := chunkBytes c.chunkN ((cs.map (·.1)).zip o1)
      let (s, o2) := if o1.all id then s.collWr who r.res b res else (s, false)
      let (s, o3) := if o2 then s.collWr who r.chunk k bytes else (s, false)
      if o3 then s.collEnd tid i { c with state := 2, chunks := c.chunkN, lines := linesOf (a ++ b ++ k) }
      else s.collAbort tid t i { c with lines := linesOf (a ++ b) } 4 5 bytes
  | _, _, _ => s.collAbort tid t i c 4 5

/-- Must a collective wait for a tile store before it reads a run (17 R344)? -/
def State.collHeld (s : State) (who : Who) (va n : Nat) : Bool :=
  match (s.checkRuns who { far := true } (runsOf va n)).2 with
  | .ok ps => s.anyLocked who .package false false ps
  | .error _ => false
/-- A collective completes: every member's contribution has come. -/
def State.collComplete (s : State) (tid : Nat) (t : Team) (i : BitVec 3) (c : Coll) (peers : List (List Byte)) : State :=
  let r := CollRec.of c.record
  let who := s.collWho tid t c
  if s.collHeld who r.src (c.srcN * c.esz) || (c.cmp && s.collHeld who r.res (2 * c.srcN)) then s
  else
  let (s, src) := s.collRd who r.src (c.srcN * c.esz)
  let (s, res) := if c.cmp then s.collRd who r.res (2 * c.srcN) else (s, some [])
  match src, res with
  | some src, some res =>
    let (s, g) := if c.cmp then s.collCmp c who.asid src res peers else (s, collPlain c src peers)
    match g with
    | .fail n => s.collAbort tid t i c 4 n
    | .ok dst res => s.collFinish tid t i c dst res
  | _, _ => s.collAbort tid t i c 4 5
def execCollectiveComplete : Meaning := fun s =>
  match s.evColl with
  | none => out s
  | some (tid, t, i, c, _, peers) => onlyIf (peers.length == c.members) (fun s => s.collComplete tid t i c peers) s
def execCollectiveFailure : Meaning := fun s =>
  match s.evColl with
  | none => out s
  | some (tid, t, i, c, reason, _) =>
    onlyIf (reason == 1 || reason == 2 || reason == 5) (fun s => s.collAbort tid t i c 4 reason) s
/-- An abort flit for a COLL still to come, which will end aborted at once; its team may still have to be placed. -/
def State.abortFlit (s : State) (tid key ordinal reason : Nat) : State :=
  let no := ((s.team tid).map (fun t => Sparse.get t.collNo 0 key)).getD 0
  if no ≤ ordinal && (s.earlyAbort tid key ordinal).isNone then
    { s with pkg := { s.pkg with aborts := s.pkg.aborts ++ [(tid, key, ordinal, reason)] } }
  else s
def execCollectiveAbortFlit : Meaning := fun s =>
  match s.ev with
  | .collSlot tid g i no reason _ =>
    onlyIf (1 ≤ reason.toNat && reason.toNat ≤ 5) (fun s => match s.evColl with
      | some (tid, t, i, c, reason, _) => s.collStop tid t i c 3 reason
      | none => s.abortFlit tid (8 * g.toNat + i.toNat) no reason.toNat) s
  | _ => out s

end Machine
end Sys2Proof
end

