-- ==== Sys2Proof/Machine/Ringmaster.lean ====
section
/-! DEFINITION. The Ringmaster: queues, taking and validating records, wait counters, dispatch, and LAUNCH (03). -/

namespace Sys2Proof
namespace Machine

/-! ## Queues (R67-R71, R428) -/

/-- Entries of a queue between head and tail, modulo 2^64: a tail below head counts as an overrun (R69 gives the difference no modulus; log
83). -/
def QDesc.fill (d : QDesc) : Nat := (d.tail + 2 ^ 64 - d.head) % 2 ^ 64

/-- Look at an enabled queue: a bad descriptor or a tail overrun is a queue error. -/
def State.scanQueue (s : State) (q : Nat) : State :=
  let (d, s) := s.qDesc q
  if !d.enabled then s
  else if !d.ok then s.queueError q 2
  else if d.entries < d.fill then s.queueError q 1
  else s
def execQueueMonitorWake : Meaning := fun s =>
  match s.ev with
  | .queue q => out (s.scanQueue q.toNat)
  | _ => out s
def execQueueRescan : Meaning := fun s => out ((List.range 64).foldl (fun (s : State) q => s.scanQueue q) s)

/-- The launches in the table, with their numbers. -/
def State.launchList (s : State) : List (Nat × Launch) :=
  s.launches.filterMap (fun ((i, l) : Nat × Option Launch) => l.map (fun l => (i, l)))
/-- The lowest number that no launch has. -/
def State.freeLaunch (s : State) : Nat :=
  ((List.range (s.launches.length + 1)).find? (fun i => (s.launch i).isNone)).getD s.launches.length

/-- May the record at a queue's head be taken (R70, R71)? -/
def State.mayTake (s : State) (q : Nat) (d : QDesc) : Bool :=
  let ls := s.launchList
  d.fill ≠ 0 && ls.length < Config.launchTableLen && (ls.filter (fun e => e.2.queue == q)).length < Config.launchPerQueue &&
    !(ls.any (fun e => e.2.queue == q && e.2.index + d.entries == d.head))

/-! ## Groups (04 R85, R86) -/

/-- The cores of a group, by its first core. -/
def groupCores (shape base : Nat) : List Nat := (List.range shape).map (base + ·)
/-- Is a core in service? -/
def State.inService (s : State) (core : Nat) : Bool := (s.serviceMask (clusterOf core)).getLsbD (core % 4)
/-- The groups of a shape that the in-service cores form, by their first cores, in order of group number. -/
def State.groups (s : State) (shape : Nat) : List Nat :=
  ((List.range (192 / shape)).map (· * shape)).filter (fun b => (groupCores shape b).all s.inService)

/-! ## Validation (R73, R74) -/

/-- Frame slots of a context (R89). -/
def State.framen (s : State) (asid : Nat) : Nat := s.ctxField asid 0x50 4
/-- Are the record's reserved fields zero, and its grid not? -/
def Launch.fieldsOk (l : Launch) : Bool :=
  l.fld 1 47 47 == 0 && l.fld 1 55 54 == 0 && l.fld 3 31 24 == 0 && l.fld 3 63 48 == 0 && l.fld 5 63 63 == 0 && l.grid ≠ 0
/-- Every role of a descriptor has its core slot in the team. -/
def rolesFit (roles team : Nat) : Bool := (List.range 16).all (fun r => !roles.testBit r || r / 4 < team)
/-- Is the plan at least the descriptor's? -/
def Launch.covers (l : Launch) (d : List Byte) : Bool :=
  field d 0x20 2 ≤ l.scratchK && field d 0x22 2 ≤ l.stashK && field d 0x24 2 ≤ l.ringK && field d 0x26 1 ≤ l.tiles &&
    field d 0x27 1 ≤ l.accs && field d 0x28 1 ≤ l.cbslots && field d 0x2A 2 ≤ l.barriers
/-- The routine of a record, with its object. -/
def State.routineOf (s : State) (l : Launch) : Option (Obj × Routine) :=
  match s.objects.find? (fun o => o.handle == l.handle' && o.asid == l.asid && l.handle' ≠ 0) with
  | none => none
  | some o => (o.routines[l.routine]?).map (fun r => (o, r))
/-- The resource limits of steps 9 to 13: the code of the first that a plan of scratch, stash, ring, tiles, accumulators, codebook slots and
barriers exceeds. -/
def planCode (s h g t a c b : Nat) : Option Nat :=
  if h % 64 ≠ 0 || 1024 < s + h + g then some 0x02
  else if 8 < t then some 0x03
  else if 4 < a then some 0x04
  else if 16 < c then some 0x08
  else if 256 < b then some 0x0B
  else none
/-- The first of those steps that the record or the descriptor fails (R15, R73): the lowest step of the two (log 84). -/
def Launch.limits (l : Launch) (d : List Byte) : Option Nat :=
  let step (c : Nat) : Nat := [0x02, 0x03, 0x04, 0x08, 0x0B].findIdx (· == c)
  match planCode l.scratchK l.stashK l.ringK l.tiles l.accs l.cbslots l.barriers,
    planCode (field d 0x20 2) (field d 0x22 2) (field d 0x24 2) (field d 0x26 1) (field d 0x27 1) (field d 0x28 1) (field d 0x2A 2) with
  | some x, some y => some (if step x ≤ step y then x else y)
  | some x, none | none, some x => some x
  | none, none => none
/-- Is a team shape one of the three? -/
def shapeOk (n : Nat) : Bool := n == 1 || n == 2 || n == 4
/-- Is a drift bound one that the part has? -/
def driftOk (n : Nat) : Bool := 1 ≤ n && n ≤ 64
/-- Is a counter address 0 or good (step 15)? -/
def State.counterOk (s : State) (asid va : Nat) (k : AKind) : State × Bool :=
  if va == 0 then (s, true) else let (s, p) := s.counterParts asid va k; (s, p.isSome)

/-- The steps of R73 in order: the first failure's code, else the routine. The limits hold for the descriptor's values as for the record's
(R15). -/
def State.validate (s : State) (l : Launch) : State × Except Nat (Obj × Routine) :=
  if !l.fieldsOk then (s, .error 0x0D)
  else match s.routineOf l with
  | none => (s, .error 0x01)
  | some (o, r) =>
    let d := r.desc
    if Config.generation < o.latgen || Config.generation < field d 0x1E 1 then (s, .error 0x09)
    else if field d 0x1F 1 % 2 == 0 then (s, .error 0x0A)
    else if !(shapeOk l.shape && shapeOk (field d 0x1C 1)) then (s, .error 0x05)
    else if !(driftOk l.drift && driftOk (field d 0x1D 1)) then (s, .error 0x07)
    else if l.shape ≠ field d 0x1C 1 || l.drift ≠ field d 0x1D 1 then (s, .error 0x01)
    else if !rolesFit (field d 0x18 4) l.shape then (s, .error 0x06)
    else match l.limits d with
    | some code => (s, .error code)
    | none =>
    if !l.covers d then (s, .error 0x01)
    else
      let (s, a) := s.counterOk l.asid l.waitaddr kCohRd
      let (s, b) := s.counterOk l.asid l.doneaddr kCohWr
      if !a || !b then (s, .error 0x0E)
      else if l.chain ≠ 0 && s.chainOwner l.chain ≠ l.asid + 1 then (s, .error 0x0F)
      else if !l.swap && ((s.groups l.shape).length < l.grid || s.framen l.asid < l.grid) then (s, .error 0x0C)
      else (s, .ok (o, r))

/-- A validated launch waits for its counter, or is ready at once (R78). -/
def State.accept (s : State) (id : Nat) (l : Launch) (o : Obj) (r : Routine) : State :=
  let l := { l with entry := r.entry, handle := o.handle, latgen := field r.desc 0x1E 1 }
  s.setLaunch id (some (if l.waitaddr == 0 then { l with phase := .ready, readyAt := s.clock.ns } else l))

/-! ## Taking a record (R71) -/

/-- A record's words; a priority above the queue's greatest is taken as that one (R72). -/
def recordWords (d : QDesc) (b : List Byte) : Vector Word 8 :=
  words8 (fun k =>
    let w := BitVec.ofNat 64 (field b (8 * k) 8)
    if k == 1 && d.maxprio < slc w 50 48 then (w &&& ~~~(0x7000000000000 : Word)) ||| BitVec.ofNat 64 (d.maxprio * 2 ^ 48) else w)
/-- Is the completion slot of an index usable (R428)? -/
def State.slotUsable (s : State) (asid va : Nat) : State × Bool :=
  let (s, r) := s.checkRuns { core := rmCore, asid := asid, sup := true } kCohWr (runsOf va 32)
  (s, match r with | .ok _ => true | .error _ => false)
/-- The record at the head is taken: captured, head advanced, status 0 written, validated. A record that meets an uncorrectable error makes
its slot unusable (log 83). -/
def State.takeNow (s : State) (q : Nat) (d : QDesc) : State :=
  let (s, r) := s.supRd rmCore d.asid kCohRd (d.ring + 64 * (d.head % d.entries)) 64
  let (s, c) := s.slotUsable d.asid (d.cring + 32 * (d.head % d.entries))
  match r, c with
  | .ok b, true =>
    let l : Launch := { queue := q, index := d.head, record := recordWords d b, asid := d.asid, takenAt := s.clock.ns }
    let id := s.freeLaunch
    let s := s.partWr (s.qPa q + 0x28) (leBytes 8 (d.head + 1))
    let s := (s.setLaunch id (some l)).writeCompletion l 0 0 0
    let (s, v) := s.validate l
    match v with
    | .error code => s.rejectLaunch id l code
    | .ok (o, r) => s.accept id l o r
  | _, _ => s.queueError q 2
def State.takeRecord (s : State) (q : Nat) : State :=
  let (d, t) := s.qDesc q
  if !d.enabled then s
  else if !d.ok || d.entries < d.fill then s.scanQueue q
  else if t.mayTake q d then t.takeNow q d
  else s
def execTakeRecord : Meaning := fun s =>
  match s.ev with
  | .queue q => out (s.takeRecord q.toNat)
  | _ => out s

/-! ## Wait counters (R78) -/

/-- The launch that an event names. -/
def State.evLaunch (s : State) : Option (Nat × Launch) :=
  match s.ev with | .launch id => (s.launch id).map (fun l => (id, l)) | _ => none
/-- A reading decides: DEPFAIL, ready, or nothing yet; one that meets an uncorrectable error decides nothing (log 83). -/
def State.readCounter (s : State) (id : Nat) (l : Launch) : State :=
  let (s, p) := s.counterParts l.asid l.waitaddr kCohRd
  match p with
  | none =>
    (s.retireLaunch id l stDEPFAIL).postErr 0x0003 l.asid 0 (BitVec.ofNat 64 l.waitaddr) l.word
  | some ps =>
    let who : Who := { core := rmCore, asid := l.asid }
    let (s, r) := (s.commitParts who kCohRd ps).rdParts who .package false l.waitaddr ps
    match r with
    | .error _ => s
    | .ok b =>
      let n := leNat b
      if 2 ^ 63 ≤ n then s.retireLaunch id l stDEPFAIL
      else if l.waitval ≤ n then s.setLaunch id (some { l with phase := .ready, readyAt := s.clock.ns })
      else s
def execWaitCounterRead : Meaning := fun s =>
  match s.evLaunch with
  | none => out s
  | some (id, l) => onlyIf (l.phase = .waiting) (fun s => s.readCounter id l) s

/-! ## Dispatch (R80) -/

/-- The effective priority of a ready launch. -/
def Launch.effPrio (l : Launch) (ns : Nat) : Nat := min 7 (l.prio + (ns - l.readyAt) / 1000000)
/-- Does one ready launch come before another? -/
def Launch.before (ns last : Nat) (a b : Launch) : Bool :=
  let turn (l : Launch) : Nat := (l.queue + 63 - last) % 64
  b.effPrio ns < a.effPrio ns || (a.effPrio ns == b.effPrio ns && (turn a < turn b || (turn a == turn b && a.index < b.index)))
/-- The launch that dispatch chooses. -/
def State.bestReady (s : State) : Option (Nat × Launch) :=
  (s.launchList.filter (fun e => e.2.phase = .ready)).foldl (fun (b : Option (Nat × Launch)) e => match b with
    | none => some e
    | some x => if Launch.before s.clock.ns s.lastQueue e.2 x.2 then some e else b) none

/-! ## LAUNCH (R82-R84) -/

/-- The bytes of a record in registers. -/
def recordBytes8 (r : Vector Word 8) : List Byte := r.toList.flatMap (fun w => leBytes 8 w.toNat)
/-- The effect on the queue, and the result. A descriptor with a bad field is no queue error here: R83 names none (log 83). -/
def State.launchDo (s : State) (q : Nat) (r : Vector Word 8) : State × Word :=
  let (d, s) := s.qDesc q
  let asid := s.asidOf s.cur
  let va := d.ring + 64 * (d.tail % d.entries)
  if !d.enabled || !d.deviceFed || d.asid ≠ asid then (s, errWord 2)
  else
    let (s, u) := s.checkRuns { core := rmCore, asid := asid, sup := true } kCohWr (runsOf va 64)
    match u with
    | .error _ => (s, errWord 2)
    | .ok _ =>
      if d.fill == d.entries then (s, errWord 1)
      else
        let (s, _) := s.supWr rmCore asid kCohWr va (recordBytes8 r)
        (s.partWr (s.qPa q + 0x20) (leBytes 8 (d.tail + 1)), BitVec.ofNat 64 d.tail)
def execLaunch (h : Hdr) (d : SReg) (x : BitVec 3) (q : BitVec 6) : Meaning :=
  issue h { rd := recRegs x, wr := [rS d] } (fun s =>
    if !s.performed s.cur then .wait s .result
    else
      let (t, w) := (s.releaseAt s.cur .package).launchDo q.toNat (s.record x)
      .done (t.block t.cur .launch [rS d] [.w w] 0 true).2)

end Machine
end Sys2Proof
end

