-- ==== Sys2Proof/Machine/SwapBlock.lean ====
section
/-! DEFINITION. The swap block of a team: what is written at a swap-out or pre-emption and read back at a swap-in (04 R97, R98; 18
R378-R382). -/

namespace Sys2Proof
namespace Machine

/-! ## What each structure of the block holds -/

/-- Bytes at an offset. -/
abbrev Piece := Nat × List Byte

/-- The place of an arrived tag in the order of arrival. -/
def Strand.rankOf (x : Strand) (g : Tag) : Nat := (x.tags.toList.filter (fun o => o.arrived && o.rank < g.rank)).length
/-- The register to which a tag's reply goes: file and number in one byte, and whether it is a pair; s0 where there is none. -/
def Strand.tagDest (x : Strand) (g : Tag) : Nat × Bool :=
  match g.req.bind (fun r => x.ops.find? (fun o => o.id == r.id)) with
  | some o => if o.frame.isSome then (0, false) else match o.dst with
    | [r] => (r.file.num * 64 + r.num, false)
    | r :: _ => (r.file.num * 64 + r.num, true)
    | [] => (0, false)
  | none => (0, false)
/-- A tag's 32 bytes (R379). -/
def Strand.tagBytes (x : Strand) (g : Tag) : List Byte :=
  let (d, pair) := x.tagDest g
  zeros 16 ++ leBytes 1 (b2n g.req.isSome + 2 * b2n g.arrived + 4 * b2n pair) ++ leBytes 1 d ++
    leBytes 1 (if g.arrived then x.rankOf g else 0) ++ zeros 13
/-- The LAUNCH that awaits its result: the result, its destination. Of several, all but the last have arrived before the save (log 85). -/
def Strand.launchOp (x : Strand) : Option Pend := x.ops.find? (fun o => o.cls == .launch && o.frame.isNone)
def launchBytes (o : Option Pend) : List Byte :=
  match o with
  | none => zeros 16
  | some o => leBytes 8 (match o.vals with | [.w w] => w.toNat | _ => 0) ++ leBytes 8 (2 ^ 63 + (o.dst.head?.map (·.num)).getD 0)

/-- The instant that a strand waits for. -/
def Strand.instant (x : Strand) : Nat := x.until'.getD ((x.mwait.bind (·.until')).getD 0)
/-- A strand frame (R379). -/
def Strand.swapPieces (x : Strand) (pc : Word) (cycle : Nat) (c : Core) (kind : Nat) : List Piece :=
  [(0, x.v.toList.flatMap vecBytes),
   (0x2000, regBytes x.s 0 64),
   (0x2200, leBytes 8 (2 ^ 64 - 1) ++ regBytes x.p 1 63),
   (0x2400, [pc, x.fpctl, x.srstate, x.carbase.setWidth 64, x.cardepth.setWidth 64, x.utrapvec, x.utrapmask.setWidth 64,
      BitVec.ofNat 64 x.modeBits, x.tframe, x.strapvec].flatMap (fun w => leBytes 8 w.toNat)),
   (0x2500, x.tags.toList.flatMap x.tagBytes),
   (0x2600, leBytes 8 ((x.rep.map (·.addr.toNat)).getD 0) ++ leBytes 8 ((x.rep.map (·.k)).getD 0) ++ leBytes 8 (barWord x.barWait) ++
      leBytes 8 (b2n x.wake + 2 * b2n x.mwait.isSome + 4 * b2n ((x.mwait.bind (·.until')).isSome)) ++ leBytes 8 x.instant ++
      leBytes 8 ((x.yieldTo.map (· + 1 - cycle)).getD 0) ++ launchBytes x.launchOp),
   (0x2640, padTo 64 (x.arms.flatMap (fun l => leBytes 8 (l * 64 + 1))) ++ zeros 4480),
   (0x3800, (List.range 256).flatMap (fun i => leBytes 8 (c.tagAt (2 * kind + i / 128) (i % 128)).toNat))]

def windowBytes (w : Window) : List Byte :=
  recordBytes8 w.record ++ leBytes 8 w.h ++ leBytes 4 w.base ++ leBytes 4 w.rows ++ leBytes 4 w.stride ++ leBytes 1 (b2n w.isOpen) ++ zeros 43
def slotBytes (t : Slot) : List Byte :=
  leBytes 2 ((t.cbid.map (·.toNat)).getD 0xFFFF) ++ [t.stamp] ++ leBytes 1 (b2n t.first + 2 * b2n t.pinned) ++ leBytes 1 t.k ++ zeros 11
def engineBytes (c : Core) : List Byte :=
  leBytes 1 c.eM ++ leBytes 1 c.eN ++ leBytes 1 c.eK ++ leBytes 1 (RMode.enc c.eMode).toNat ++ zeros 4 ++ leBytes 8 c.eGen.toNat ++
  (match c.tableId with
   | none => zeros 12
   | some t => leBytes 2 t.cbid.toNat ++ [t.stamp] ++ leBytes 1 t.n ++ leBytes 1 t.g ++ leBytes 1 t.d ++ leBytes 1 t.kb ++ [1] ++ leBytes 4 t.c) ++
  zeros 36
/-- Engine entries with the numbers of their captures. -/
def layEngine (es : List ECmd) : List (ECmd × Nat) :=
  (es.foldl (fun (out, n) e => if e.vcap.isSome then (out ++ [(e, n)], n + 1) else (out ++ [(e, 0xFF)], n)) ([], 0)).1
def ecmdBytes (e : ECmd) (cap : Nat) : List Byte :=
  leBytes 8 e.word.toNat ++ leBytes 8 e.sop.toNat ++ leBytes 1 e.idx ++ leBytes 1 cap ++ zeros 46
def ccmdBytes (e : CCmd) : List Byte :=
  leBytes 8 e.word.toNat ++ (if e.win.isSome then leBytes 8 e.first ++ leBytes 8 e.last ++ zeros 40 else (recordBytes8 e.record).take 56)
/-- The first 8 KiB of a core region (R380, R381). -/
def Core.headBytes (c : Core) : List Byte :=
  c.win.toList.flatMap windowBytes ++ c.slot.toList.flatMap slotBytes ++ engineBytes c ++ zeros 704 ++
  padTo 2048 ((c.equeue.filterMap (·.vcap)).flatMap vecBytes) ++
  padTo 2048 ((layEngine c.equeue).flatMap (fun e => ecmdBytes e.1 e.2)) ++
  padTo 1024 (c.cqLd.flatMap ccmdBytes) ++ padTo 1024 (c.cqSt.flatMap ccmdBytes)

/-- The data areas (R382), as far as the plan has them. -/
def Core.dataPieces (c : Core) (l : Launch) : List Piece :=
  let sK := 1024 * l.scratchK
  let r0 := sK + 1024 * l.stashK
  let rK := 1024 * l.ringK
  [(0x12000, (Sparse.slice c.tile 0 0 (16384 * l.tiles)).flatMap (fun x => leBytes 4 x.toNat)),
   (0x92000, (Sparse.slice c.acc 0 0 (16384 * l.accs)).flatMap (fun x => leBytes 4 x.toNat)),
   (0xD2000, (Sparse.slice c.res 0 0 (16384 * l.accs)).flatMap (fun x => leBytes 2 x.toNat)),
   (0xF2000, (Sparse.slice c.ptab 0 0 16384).flatMap (fun x => leBytes 4 x.toNat)),
   (0x102000, Sparse.slice c.scratch 0 0 sK),
   (0x102000 + r0, Sparse.slice c.scratch 0 r0 rK)]

/-- The header's token counts and beats (R98). -/
def Team.headBytes (t : Team) (l : Launch) (beat : Nat → Nat) : List Byte :=
  leBytes 8 l.word.toNat ++ leBytes 4 t.num ++ leBytes 1 t.shape ++ zeros 243 ++
  (List.range 256).flatMap (fun i => leBytes 1 (t.handQ (i / 16) (i % 16)).toks.length) ++
  (List.range 16).flatMap (fun r => leBytes 4 (beat r))

/-- The PC at which a strand is saved. -/
def State.savePc (s : State) (sid : Nat) : Word := (State.atWord { s with cur := sid }).xs sid |>.entry.getD ((State.atWord { s with cur := sid }).xs sid).pc

/-- Everything that is written for a team; the sync field is in a format of the part's own (log 53). -/
def State.blockPieces (s : State) (t : Team) (l : Launch) : List Piece :=
  (0, t.headBytes l (fun r => if r < 4 * t.shape then (s.strand (t.sidOf r)).beat.toNat else 0)) ::
  (0x1000, (List.range 1024).flatMap (fun i => leBytes 8 (Config.freeWord (s.draw + i)).toNat)) :: (0x3000, zeros 0xD000) ::
  (List.range t.shape).flatMap (fun k =>
    let core := t.base + k
    let c := s.core core
    let off := 0x10000 + k * regionLen
    (off, c.headBytes) ::
    (List.range 4).flatMap (fun kind =>
      let sid := 4 * core + kind
      ((s.strand sid).swapPieces (s.savePc sid) s.cycle c kind).map (fun p => (off + 0x2000 + 0x4000 * kind + p.1, p.2))) ++
    (c.dataPieces l).map (fun p => (off + p.1, p.2)))

/-- Is a block's whole range usable by the part (log 46)? -/
def State.blockUsable (s : State) (asid b shape : Nat) : State × Bool :=
  let (s, r) := s.checkRuns { core := rmCore, asid := asid, sup := true } kCohWr (runsOf (s.blockVa asid b) (0x10000 + shape * regionLen))
  (s, match r with | .ok _ => true | .error _ => false)
/-- Write pieces at a block. -/
def State.writePieces (s : State) (asid va : Nat) (ps : List Piece) : State :=
  ps.foldl (fun (s : State) p => (s.supWr rmCore asid kCohWr (va + p.1) p.2).1) s

/-! ## Reading back -/

def wordsOf (bs : List Byte) : List Word := (runsBy 8 (bs.length + 1) bs).map leWord
def lanesOf (bs : List Byte) : List Lane := (runsBy 4 (bs.length + 1) bs).map (fun b => BitVec.ofNat 32 (leNat b))
def vecsOf (bs : List Byte) : List Vec := (runsBy 256 (bs.length + 1) bs).map vecRead
/-- A vector of n things from a list. -/
def fillVec {α : Type} {n : Nat} (old : Vector α n) (l : List α) : Vector α n :=
  (List.range n).foldl (fun (v : Vector α n) i => match l[i]? with
    | some x => if h : i < n then v.set i x else v
    | none => v) old

/-- The tags of a frame over those of a strand whose requests are still out. -/
def overTags (tags : Vector Tag 8) (b : List Byte) : Vector Tag 8 :=
  fillVec tags (tags.toList.zipIdx.map (fun (g, i) =>
    { g with arrived := (field b (32 * i + 16) 1).testBit 1, rank := field b (32 * i + 18) 1 }))
/-- The replies that a frame holds, written to their registers. -/
def Strand.takeReplies (x : Strand) (b : List Byte) : Strand :=
  (List.range 8).foldl (fun (x : Strand) i =>
    let e := (b.drop (32 * i)).take 32
    let f := field e 16 1
    let d := field e 17 1
    if !f.testBit 1 || d / 64 ≠ 0 then x
    else
      let x := x.setReg ⟨.s, d % 64⟩ (.w (BitVec.ofNat 64 (field e 0 8))) 0
      if f.testBit 2 then x.setReg ⟨.s, d % 64 + 1⟩ (.w (BitVec.ofNat 64 (field e 8 8))) 0 else x) x

/-- A LAUNCH still pending has the result and the destination that its frame holds. -/
def relaunch (res st : Word) (o : Pend) : Pend :=
  if o.cls == .launch && st.getLsbD 63 && o.frame.isNone then
    let d : Reg := { file := .s, num := slc st 5 0 }
    { o with vals := [.w res], dst := [d] }
  else o

/-- A strand restored from its frame, over what was kept of it. -/
def Strand.unswap (x : Strand) (img : List Byte) (beat cycle : Nat) : Strand :=
  let w (off : Nat) : Word := BitVec.ofNat 64 (field img off 8)
  let wait := w 0x2618
  let bar := w 0x2610
  let pc := w 0x2400 &&& ~~~(7 : Word)
  let x := { x with
    v := fillVec x.v (vecsOf (img.take 0x2000))
    s := fillVec x.s (wordsOf ((img.drop 0x2000).take 512)), p := fillVec x.p (wordsOf ((img.drop 0x2200).take 512)) }
  let x := { x with s := x.s.set 0 0, p := x.p.set 0 (BitVec.allOnes 64) }
  let x := [(Csr.fpctl, 0x2408), (.srstate, 0x2410), (.carbase, 0x2418), (.cardepth, 0x2420), (.utrapvec, 0x2428), (.utrapmask, 0x2430),
            (.tframe, 0x2440), (.strapvec, 0x2448)].foldl (fun (x : Strand) (c, o) => x.csrPut c (w o)) x
  let x := { x with
    tags := overTags x.tags ((img.drop 0x2500).take 256), modeU := (w 0x2438).getLsbD 1, modeS := (w 0x2438).getLsbD 0
    pc := pc, entry := some pc, quiet := true, blk := none, wait := none, vSince := none, issued := true
    rep := if w 0x2600 = 0 then none else some { addr := w 0x2600, k := slc (w 0x2608) 5 0 }
    barWait := if bar.getLsbD 63 then some { entry := slc bar 39 32, gen := BitVec.ofNat 32 (slc bar 31 0) } else none
    wake := true, mwait := none, paused := x.stopped
    until' := if !wait.getLsbD 1 && w 0x2620 ≠ 0 then some (w 0x2620).toNat else none
    yieldTo := if slc (w 0x2628) 15 0 = 0 then none else some (cycle + slc (w 0x2628) 15 0 - 1)
    arms := (wordsOf ((img.drop 0x2640).take 64)).filterMap (fun (a : Word) => if a.getLsbD 0 then some (a.toNat / 64) else none)
    beat := BitVec.ofNat 32 beat, beatPrev := BitVec.ofNat 32 beat
    ops := x.ops.map (relaunch (w 0x2630) (w 0x2638)) }
  x.takeReplies ((img.drop 0x2500).take 256)

/-- The captured record and state of a window. -/
def windowOf (old : Window) (b : List Byte) : Window :=
  { old with isOpen := (field b 84 1).testBit 0, record := words8 (fun k => BitVec.ofNat 64 (field b (8 * k) 8)), h := field b 64 8
             base := field b 72 4, rows := max 1 (field b 76 4), stride := field b 80 4 }
/-- Unstarted engine entries; `caps` are the captures. -/
def ecmdsOf (sid : Nat) (caps : List Vec) (ids : List Nat) (b : List Byte) : List ECmd :=
  ((runsBy 64 33 b).zip ids).filterMap (fun (e, id) =>
    let w : Word := BitVec.ofNat 64 (field e 0 8)
    match decodeWord w with
    | .ok i => if w = 0 || !isEngineWord i then none
      else some { id := id, sid := sid, instr := i, word := w, pc := 0, sop := BitVec.ofNat 64 (field e 8 8), idx := field e 16 1 % 128
                  vcap := if field e 17 1 < 8 then caps[field e 17 1]? else none }
    | .error _ => none)
/-- Unstarted copy entries; a fetch has the record of its window, and a band copy that was re-injected goes on at the row where it failed
(log 77). -/
def ccmdsOf (sid : Nat) (win : Nat → Window) (ids rows : List Nat) (b : List Byte) : List CCmd :=
  ((runsBy 64 17 b).zip (ids.zip (rows ++ List.replicate 16 0))).filterMap (fun (e, id, row) =>
    let w : Word := BitVec.ofNat 64 (field e 0 8)
    match decodeWord w with
    | .ok i => match copyWord i with
      | none => none
      | some (nr, wn) =>
        let r : Vector Word 8 := match wn with
          | some n => (win n).record
          | none => words8 (fun k => if k == 7 then 0 else BitVec.ofNat 64 (field e (8 + 8 * k) 8))
        some { id := id, sid := sid, instr := i, word := w, pc := 0, record := r, win := wn, nr := nr.map (·.toNat)
               gen := match wn with | some n => (win n).gen | none => 0
               scope := copyScope i (match wn with | some n => (win n).scope | none => .package)
               first := if wn.isSome then field e 8 8 else row, last := if wn.isSome then field e 16 8 else 0 }
    | .error _ => none)

/-- The core's state from the first 8 KiB of its region; codebook slots are loaded apart. -/
def Core.unswapHead (c : Core) (core : Nat) (b : List Byte) (old : Vector Window 8) (ids : Nat → List Nat) : Core :=
  let win := fillVec old ((old.toList.zip (runsBy 128 9 (b.take 1024))).map (fun (o, x) => windowOf o x))
  let e := (b.drop 0x500).take 64
  let ext (i : Nat) : Nat := max 1 (min 128 (field e i 1))
  let at' (n : Nat) : Window := win.toList.getD n {}
  { c with
    win := win, eM := ext 0, eN := ext 1, eK := ext 2, eMode := (RMode.dec (BitVec.ofNat 3 (field e 3 1))).getD .rne
    eGen := BitVec.ofNat 64 (field e 8 8)
    tableId := if (field e 23 1).testBit 0 then some { cbid := BitVec.ofNat 12 (field e 16 2), stamp := BitVec.ofNat 8 (field e 18 1)
                                                       n := field e 19 1, g := field e 20 1, c := field e 24 4, d := max 1 (field e 21 1)
                                                       kb := field e 22 1 } else none
    equeue := ecmdsOf (4 * core + 2) (vecsOf ((b.drop 0x800).take 2048)) (ids 0) ((b.drop 0x1000).take 2048)
    cqLd := ccmdsOf (4 * core + 1) at' (ids 1) (ids 3) ((b.drop 0x1800).take 1024)
    cqSt := ccmdsOf (4 * core + 3) at' (ids 2) (ids 4) ((b.drop 0x1C00).take 1024) }

/-- Read part of a block; none where its pages fail. -/
def State.blockRd (s : State) (asid va n : Nat) : State × Option (List Byte) :=
  if n == 0 then (s, some [])
  else
    let (s, r) := s.supRd rmCore asid kCohRd va n
    (s, match r with | .ok b => some b | .error _ => none)

/-- The data areas read into a core. -/
def State.unswapData (s : State) (asid va core : Nat) (l : Launch) : State :=
  let sK := 1024 * l.scratchK
  let r0 := sK + 1024 * l.stashK
  let rd (s : State) (off n : Nat) : State × List Byte := let (s, b) := s.blockRd asid (va + off) n; (s, b.getD (zeros n))
  let (s, t) := rd s 0x12000 (65536 * l.tiles)
  let (s, a) := rd s 0x92000 (65536 * l.accs)
  let (s, e) := rd s 0xD2000 (32768 * l.accs)
  let (s, p) := rd s 0xF2000 65536
  let (s, x) := rd s 0x102000 sK
  let (s, y) := rd s (0x102000 + r0) (1024 * l.ringK)
  s.modCore core (fun c => { c with
    tile := Sparse.run 0 0 (lanesOf t), acc := Sparse.run 0 0 (lanesOf a), res := Sparse.run 0 0 (halves e), ptab := Sparse.run 0 0 (lanesOf p)
    scratch := Sparse.run 0 0 (x.take sK) ++ Sparse.run 0 r0 y })

/-- A saved codebook slot loaded again: a version that has been retired is not (R378). -/
def State.unswapSlot (s : State) (asid core i : Nat) (b : List Byte) : State :=
  let cbid := field b 0 2
  let v := field b 2 1
  if cbid == 0xFFFF || !(field b 3 1).testBit 0 then s
  else
    let (s, d) := s.dirRead core asid cbid
    match d with
    | .error _ => s
    | .ok d =>
      if !(d.kind == 1 || d.kind == 2) || !d.valid v || 16 < i + d.k then s
      else
        let (s, r) := s.supRd core asid kCohRd (d.record v + 64) d.bytes
        match r with
        | .error _ => s
        | .ok bs =>
          s.modCore core (fun c =>
            let c := c.fillMiss { cbid := BitVec.ofNat 12 cbid, stamp := BitVec.ofNat 8 v, slot := i, k := d.k, start := 0 } (halves bs)
            if (field b 3 1).testBit 1 then
              (List.range d.k).foldl (fun c j => c.setSlot (i + j) { c.slotAt (i + j) with pinned := true }) c
            else c)

end Machine
end Sys2Proof
end

