-- ==== Sys2Proof/Machine/Placement.lean ====
section
/-! DEFINITION. Dispatch, placement, quanta, swapping, pre-emption and retirement of teams (03 R80; 04 R85-R101; 22 R411-R414). -/

namespace Sys2Proof
namespace Machine

/-- Insert into a list that is in order. -/
def insertBy {α : Type} (le : α → α → Bool) (x : α) : List α → List α
  | [] => [x]
  | y :: r => if le x y then x :: y :: r else y :: insertBy le x r
/-- A list in order; equal entries keep theirs. -/
def sortBy {α : Type} (le : α → α → Bool) (l : List α) : List α := l.foldr (insertBy le) []

/-! ## The teams of a launch -/

/-- The teams of a launch, with their numbers in the model. -/
def State.teamsOf (s : State) (id : Nat) : List (Nat × Team) :=
  s.teams.filterMap (fun ((i, t) : Nat × Option Team) => match t with
    | some t => if t.launch == id then some (i, t) else none
    | none => none)
/-- The lowest number that no team has. -/
def State.freeTeam (s : State) : Nat :=
  ((List.range (s.teams.length + 1)).find? (fun i => (s.team i).isNone)).getD s.teams.length
def Team.isResident (t : Team) : Bool := t.place = .resident
/-- Teams of a launch that are neither resident nor retired. -/
def State.waitingN (s : State) (id : Nat) (l : Launch) : Nat :=
  l.grid - l.retired - ((s.teamsOf id).filter (fun e => e.2.isResident)).length

/-- The frame slots of a context that a launch cannot have: those of teams, and those held for others (R89). -/
def State.slotsUsed (s : State) (id asid : Nat) : List Nat :=
  s.teams.filterMap (fun ((_, t) : Nat × Option Team) => match t with
    | some t => if ((s.launch t.launch).map (·.asid)) == some asid then some t.slot else none
    | none => none) ++
  (s.launchList.filter (fun e => e.1 ≠ id && e.2.asid == asid)).flatMap (fun e => e.2.slots)
/-- The lowest frame slots that a launch can have, at most `want`. -/
def State.freeSlots (s : State) (id asid want : Nat) : List Nat :=
  let used := s.slotsUsed id asid
  let n := s.framen asid
  ((List.range (used.length + want)).filter (fun i => i < n && !used.contains i)).take want
/-- The lowest frame slot that a launch can have. -/
def State.frameSlot (s : State) (id asid : Nat) : Option Nat := (s.freeSlots id asid 1).head?

/-- A waiting team: one never placed, or one that is saved. -/
inductive NextTeam where | fresh | saved (tid : Nat)
  deriving DecidableEq, Repr
/-- The next waiting team in the cycle after the team placed last (R96). A team that waits for a frame slot is passed over
(log 47). -/
def State.nextInCycle (s : State) (id : Nat) (l : Launch) : Option NextTeam :=
  let saved := ((s.teamsOf id).filter (fun e => !e.2.isResident)).map (fun e => (e.2.num, NextTeam.saved e.1))
  let fresh := if l.nextTeam < l.grid && (s.frameSlot id l.asid).isSome then [(l.nextTeam, NextTeam.fresh)] else []
  let least (c : List (Nat × NextTeam)) : Option (Nat × NextTeam) := c.foldl (fun (b : Option (Nat × NextTeam)) e => match b with
    | none => some e
    | some x => if e.1 < x.1 then some e else b) none
  let all := saved ++ fresh
  match least (all.filter (fun e => match l.lastTeam with | some n => decide (n < e.1) | none => true)) with
  | some e => some e.2
  | none => (least all).map (·.2)

/-! ## Free groups (R85, R92, R93) -/

/-- The cores that are held for launches other than one. -/
def State.heldByOthers (s : State) (id : Nat) : List Nat :=
  (s.launchList.filter (fun e => e.1 ≠ id)).flatMap (fun e => e.2.held.flatMap (groupCores e.2.shape))
/-- The groups of a launch's shape that are free for it. -/
def State.freeGroups (s : State) (id : Nat) (l : Launch) : List Nat :=
  let held := s.heldByOthers id
  (s.groups l.shape).filter (fun b => (groupCores l.shape b).all (fun c => (s.core c).team.isNone && !held.contains c))
/-- Is a launch dispatched with teams still to be placed? -/
def State.placing (s : State) (id : Nat) (l : Launch) : Bool :=
  l.phase = .dispatched && (l.nextTeam < l.grid || (s.teamsOf id).any (fun e => match e.2.place with | .preempted _ => true | _ => false))
/-- The home die of a launch (R92). -/
def State.homeDieOf (s : State) (l : Launch) : State × Option Nat :=
  if l.argp = 0 then (s, none)
  else
    let (s, r) := s.findLeaf rmCore l.asid l.argp.toNat
    (s, match r with
      | .error _ => none
      | .ok f => let pa := leafPa f.pte f.block l.argp.toNat; if pa < 2 ^ 39 then some (stackOf pa / 2) else none)
/-- The group that R92 chooses among some. -/
def pickGroup (home : Option Nat) (gs : List Nat) : Option Nat :=
  match gs.find? (fun b => some (dieOf b) == home) with
  | some b => some b
  | none => gs.head?

/-- The groups of R92's order: those on the home die first. -/
def homeFirst (home : Option Nat) (gs : List Nat) : List Nat :=
  gs.filter (fun b => some (dieOf b) == home) ++ gs.filter (fun b => some (dieOf b) ≠ home)
/-- Hold free groups, in the order of R92, and frame slots (R89) for the dispatched launches with swap clear, the one dispatched first going
first. -/
def State.holdGroups (s : State) : State :=
  let ls := sortBy (fun a b => decide (a.2.order ≤ b.2.order)) (s.launchList.filter (fun e => !e.2.swap && s.placing e.1 e.2))
  ls.foldl (fun (s : State) (id, _) => match s.launch id with
    | none => s
    | some l =>
      let (s, home) := s.homeDieOf l
      let more := (homeFirst home ((s.freeGroups id l).filter (fun b => !l.held.contains b))).take (s.waitingN id l - l.held.length)
      let slots := if l.nextTeam == 0 then s.freeSlots id l.asid l.grid else []
      s.setLaunch id (some { l with held := l.held ++ more, slots := slots })) s

/-! ## Placing (R87-R89) -/

/-- A strand as it starts. -/
def State.startStrand (s : State) (tid num slot role : Nat) (l : Launch) : Strand :=
  { life := .live, team := some tid, role := BitVec.ofNat 4 role
    pc := l.entry + 8, entry := some (l.entry + 8), quiet := true
    srstate := 0x9E3779B900000000 + BitVec.ofNat 64 (num * 16 + role)
    strapvec := BitVec.ofNat 64 (s.ctxField l.asid 0x40 8) &&& ~~~(63 : Word)
    tframe := BitVec.ofNat 64 (s.ctxField l.asid 0x48 8 + 0x80000 * slot + 0x8000 * role)
    modeS := l.asid == 0 }
/-- A core as it starts for a team. -/
def startCore (c : Core) (tid num k : Nat) : Core :=
  { clk := c.clk, gate := c.gate, team := some tid, eGen := 0x9E3779B900000000 + BitVec.ofNat 64 (num * 16 + 16 + k) }

/-- A launch with a group no longer held, and a team placed now. -/
def Launch.placed (l : Launch) (base num ns : Nat) : Launch :=
  { l with held := l.held.filter (· ≠ base), lastTeam := some num, startAt := some (l.startAt.getD ns) }
/-- Groups held for a launch with swap set beyond the teams that wait are released, the last first (R94). The first in the list is taken
next: those that teams have left, in order of number (R96), or those of a pre-emption in the order of R92. -/
def State.trimHeld (s : State) (id : Nat) : State :=
  s.modLaunch id (fun l => if l.swap then { l with held := l.held.take (s.waitingN id l) } else l)
/-- The next team of a launch placed for the first time on a group. -/
def State.placeFresh (s : State) (id : Nat) (base slot : Nat) : State :=
  match s.launch id with
  | none => s
  | some l =>
    let tid := s.freeTeam
    let num := l.nextTeam
    let t : Team := { launch := id, num := num, shape := l.shape, base := base, slot := slot, quantumAt := s.clock.ns }
    let s := s.setLaunch id (some { (l.placed base num s.clock.ns) with nextTeam := num + 1, slots := l.slots.filter (· ≠ slot) })
    let s := s.setTeam tid (some t)
    let s := t.cores.foldl (fun (s : State) c =>
      State.setMs (s.modCore c (fun x => startCore x tid num (c - base))) (acquireLines s.ms c l.asid .package)) s
    ((List.range (4 * l.shape)).foldl (fun (s : State) r => s.setStrand (t.sidOf r) (s.startStrand tid num slot r l)) s).trimHeld id

/-- No frame slot is free: reported once for a launch. -/
def State.noFrame (s : State) (id : Nat) (l : Launch) : State :=
  if l.frameErr then s
  else (s.setLaunch id (some { l with frameErr := true })).postErr 0x000A l.asid 0 l.word (BitVec.ofNat 64 l.nextTeam)
/-- Place the next team of a launch with swap set. -/
def State.placeOne (s : State) (id : Nat) (l : Launch) : State :=
  if l.grid ≤ l.nextTeam then s
  else match s.frameSlot id l.asid with
  | none => s.noFrame id l
  | some slot =>
    if !l.held.isEmpty && s.nextInCycle id l == some .fresh then s.placeFresh id (l.held.headD 0) slot
    else
      let (s, home) := s.homeDieOf l
      match pickGroup home ((s.freeGroups id l).filter (fun b => !l.held.contains b)) with
      | none => s
      | some b => s.placeFresh id b slot
/-- Place every team of a launch with swap clear, once it holds its groups and its frame slots (R93). -/
def State.placeAll (s : State) (id : Nat) (l : Launch) : State :=
  if l.nextTeam ≠ 0 then s
  else if l.slots.length < l.grid then s.noFrame id l
  else if l.held.length < l.grid then s
  else
    let (s, home) := s.homeDieOf l
    (List.range l.grid).foldl (fun (s : State) _ => match s.launch id with
      | none => s
      | some l => match pickGroup home (sortBy (fun a b => decide (a ≤ b)) l.held), l.slots.head? with
        | some b, some slot => s.placeFresh id b slot
        | _, _ => s) s
def execPlaceTeam : Meaning := fun s =>
  let s := s.holdGroups
  match s.evLaunch with
  | none => out s
  | some (id, l) => onlyIf (l.phase = .dispatched) (fun s => if l.swap then s.placeOne id l else s.placeAll id l) s

/-- May a launch be dispatched: every dispatched launch has its teams placed, or groups remain free, which is read as some in-service core
on which no team is and which is held for no launch (R80; log 65)? -/
def State.mayDispatch (s : State) : Bool :=
  let held := s.launchList.flatMap (fun e => e.2.held.flatMap (groupCores e.2.shape))
  s.launchList.all (fun e => !s.placing e.1 e.2) ||
    (List.range 192).any (fun c => (s.core c).team.isNone && !held.contains c && s.inService c)
/-- The launch that is chosen is dispatched, and free groups are held for it. -/
def State.dispatch (s : State) (id : Nat) (l : Launch) : State :=
  let (n, s) := s.fresh
  State.holdGroups { s.setLaunch id (some { l with phase := .dispatched, order := n }) with lastQueue := l.queue }
/-- Dispatch (R80). -/
def execDispatch : Meaning := fun s =>
  match s.bestReady with
  | none => out s
  | some (id, l) => onlyIf s.mayDispatch (fun s => s.dispatch id l) s

/-! ## Saving a team (R95, R97, R378) -/

/-- The first block from `i` on that is free and usable. -/
def State.findBlock (s : State) (asid shape : Nat) (used : List Nat) : (fuel i : Nat) → State × Option Nat
  | 0, _ => (s, none)
  | f + 1, i =>
    if used.contains i then s.findBlock asid shape used f (i + 1)
    else
      let (t, ok) := s.blockUsable asid i shape
      if ok then (t, some i) else t.findBlock asid shape used f (i + 1)
/-- The swap block that a team is given: the lowest-numbered free one of its context (R98 names no choice among them; log 43). -/
def State.freeBlock (s : State) (asid shape : Nat) : State × Option Nat :=
  s.findBlock asid shape ((s.pkg.swapUsed.filter (fun e => e.1 == asid)).map (·.2)) (s.ctxField asid 0x28 4) 0
def State.useBlock (s : State) (asid b : Nat) : State := { s with pkg := { s.pkg with swapUsed := s.pkg.swapUsed ++ [(asid, b)] } }
def State.returnBlock (s : State) (asid b : Nat) : State :=
  { s with pkg := { s.pkg with swapUsed := s.pkg.swapUsed.filter (fun e => e ≠ (asid, b)) } }
/-- Have the team's started commands finished, and its late accesses been made? The save area has no place for an access or a codebook word
that waits, so they and the freeze end first (log 81). -/
def State.quiescent (s : State) (t : Team) : Bool :=
  t.cores.all (fun c => let k := s.core c; k.erun.isNone && k.crLd.isNone && k.crSt.isNone && k.frozen.isNone) &&
    t.sids.all (fun i => (s.strand i).lates.isEmpty && (s.strand i).cbs.isEmpty)

/-- Does a strand's block have no place for an operation's known result? It has one for the last LAUNCH and for the tags. -/
def Strand.noPlace (x : Strand) (o : Pend) : Bool :=
  o.done && (match o.cls with
    | .queued _ => false
    | .launch => o.frame.isNone && x.ops.any (fun q => q.cls = .launch && q.frame.isNone && decide (o.id < q.id))
    | _ => true)
/-- Results that are known and have no place in the block arrive before the save. -/
def State.flushResults (s : State) (sid : Nat) : State :=
  (((s.strand sid).ops.filter (s.strand sid).noPlace).map (·.id)).foldl (fun (s : State) id => s.deliver sid id) s
/-- A strand leaves its waits, and takes a deferred trap that is pending. -/
def State.settleStrand (s : State) (sid : Nat) : State :=
  let s := s.flushResults sid
  let s := s.modStrand sid Strand.settleRegs
  let x := s.strand sid
  match x.oldestFailed with
  | some t => if x.life = .live && x.rftAt == 0 then State.trapIn s sid t (s.savePc sid) else s
  | none => s

/-- Scopes by the numbers that the model keeps them under. -/
def Scope.num : Scope → Nat
  | .package => 0 | .core => 1 | .cluster => 2 | .die => 3 | .domain => 4
def Scope.ofNum : Nat → Scope
  | 1 => .core | 2 => .cluster | 3 => .die | 4 => .domain | _ => .package
/-- What the queues and windows keep of a team that leaves: the numbers that its image has no place for (log 48). -/
def State.keepIds (s : State) (t : Team) : List (Nat × Nat × List Nat) :=
  (List.range t.shape).flatMap (fun k =>
    let c := s.core (t.base + k)
    [(4 * k + 2, 0, c.equeue.map (·.id)), (4 * k + 1, 1, c.cqLd.map (·.id)), (4 * k + 3, 2, c.cqSt.map (·.id)),
     (4 * k + 1, 3, c.cqLd.map (·.first)), (4 * k + 3, 4, c.cqSt.map (·.first)),
     (16 + k, 3, c.win.toList.map (·.gen)), (16 + k, 4, c.win.toList.map (fun w => Scope.num w.scope))] ++
    (List.range 8).map (fun w => (16 + k, 5 + w, (c.winAt w).arrived)))

/-- A quiescent team is saved into a block that is its own, as a package-scope release, and leaves its cores; `place` says why. Its barrier
entries go to the spill table. -/
def State.saveTeam (s : State) (tid b : Nat) (l : Launch) (place : TeamPlace) : State :=
  match s.team tid with
  | none => s
  | some t =>
    let s := t.sids.foldl (fun (s : State) sid => s.settleStrand sid) s
    match s.team tid with
    | none => s
    | some t =>
      let s := t.cores.foldl (fun (s : State) c => s.setMs (releaseLines (flushStash s.ms c) c l.asid .package)) s
      let s := s.writePieces l.asid (s.blockVa l.asid b) (s.blockPieces t l)
      let s := { (s.spillTeam l.asid tid t).getD s with draw := s.draw + 1024 + t.bars.length }
      let t' : Team := { t with
        place := place, stop := false, swapDue := false, preempt := none, savedIds := s.keepIds t
        away := (List.range (4 * t.shape)).map (fun r => (r, s.strand (t.sidOf r))) }
      let s := s.setTeam tid (some t')
      let s := t.sids.foldl (fun (s : State) sid => s.setStrand sid {}) s
      t.cores.foldl (fun (s : State) c => s.modCore c (fun k => { clk := k.clk, gate := k.gate })) s

/-! ## Quanta (R95) and swap-out (R97, R100) -/

def execQuantumDecision : Meaning := fun s =>
  match s.evTeam with
  | none => out s
  | some (tid, t) => match s.launch t.launch with
    | none => out s
    | some l => onlyIf (t.isResident && l.swap && !t.stop && t.quantumAt + l.quantumNs ≤ s.clock.ns + 60000) (fun s =>
        if 0 < s.waitingN t.launch l then s.setTeam tid (some { t with stop := true, swapDue := true })
        else s.setTeam tid (some { t with quantumAt := t.quantumAt + l.quantumNs })) s

/-- The group of a launch passes to its next waiting team, if one waits that no group is held for; else it is released (R94). -/
def State.passGroup (s : State) (id base : Nat) : State :=
  match s.launch id with
  | none => s
  | some l => if l.swap then (s.setLaunch id (some { l with held := insertBy (fun a b => decide (a ≤ b)) base l.held })).trimHeld id else s
/-- The swap-out of a team whose quantum has ended: with no block it stays, and the error is posted; with no slot of the spill table for its
barrier entries it waits (17 R367). -/
def State.swapOut (s : State) (tid : Nat) (t : Team) (l : Launch) : State :=
  let none' (s : State) : State :=
    (s.setTeam tid (some { t with stop := false, swapDue := false, quantumAt := s.clock.ns })).postErr 0x0004 l.asid 0 l.word (BitVec.ofNat 64 t.num)
  let (s, b) := s.freeBlock l.asid t.shape
  match b with
  | none => none' s
  | some b =>
    if (s.spillTeam l.asid tid t).isNone then s
    else ((s.useBlock l.asid b).saveTeam tid b l (.swapped b)).passGroup t.launch t.base
def execSwapOut : Meaning := fun s =>
  match s.evTeam with
  | none => out s
  | some (tid, t) => match s.launch t.launch with
    | none => out s
    | some l => onlyIf (t.isResident && t.swapDue && t.preempt.isNone && t.quantumAt + l.quantumNs ≤ s.clock.ns && s.quiescent t)
        (fun s => s.swapOut tid t l) s

/-! ## Swap-in (R96, R97, R378) -/

/-- The tokens of a queue as the image counts them. -/
def HandQ.unswap (q : HandQ) (frm n : Nat) : HandQ :=
  { q with toks := q.toks.take n ++ List.replicate (n - q.toks.length) { src := frm, at' := 0, needs := [] } }
/-- The lines that the strands of a block have armed find monitor entries in a cluster (17 R366). -/
def State.armLines (s : State) (asid cluster : Nat) (f : List Byte) : State :=
  (wordsOf ((f.drop 0x2640).take 64)).foldl (fun (s : State) w =>
    if w.getLsbD 0 then (s.takeKey asid cluster (.line cluster (w.toNat / 64))).getD s else s) s
/-- Can a whole block be read? -/
def State.blockReadable (s : State) (asid va shape : Nat) : State × Bool :=
  let (s, r) := s.checkRuns { core := rmCore, asid := asid, sup := true } kCohRd (runsOf va (0x10000 + shape * regionLen))
  (s, match r with | .ok _ => true | .error _ => false)
/-- A saved team restored onto a group. -/
def State.restoreTeam (s : State) (tid base : Nat) : State :=
  match s.team tid with
  | none => s
  | some t => match s.launch t.launch, t.block with
    | some l, some b =>
      let va := s.blockVa l.asid b
      let (s, ok) := s.blockReadable l.asid va t.shape
      let (s, hd) := s.blockRd l.asid va 0x240
      match ok, hd with
      | false, _ | _, none => s
      | true, some hd =>
        let t' : Team := { t with
          base := base, place := .resident, away := [], savedIds := [], quantumAt := s.clock.ns
          hand := (List.range 256).foldl (fun h i =>
            let q := Sparse.get h {} i
            let n := field hd (0x100 + i) 1
            if q.toks.length == n then h else Sparse.set h {} i (q.unswap (i / 16) n)) t.hand }
        let ids (key queue : Nat) : List Nat := ((t.savedIds.find? (fun e => e.1 == key && e.2.1 == queue)).map (·.2.2)).getD []
        let s := (s.setTeam tid (some t')).unspillTeam tid base
        let s := (s.setLaunch t.launch (some (l.placed base t.num s.clock.ns))).trimHeld t.launch
        let s := s.returnBlock l.asid b
        (List.range t.shape).foldl (fun (s : State) k =>
          let core := base + k
          let off := va + 0x10000 + k * regionLen
          let (s, h8) := s.blockRd l.asid off 0x2000
          let img := h8.getD (zeros 0x2000)
          let wins : Vector Window 8 := fillVec (Vector.replicate 8 {}) ((List.range 8).map (fun w =>
            { gen := (ids (16 + k) 3).getD w 0, scope := Scope.ofNum ((ids (16 + k) 4).getD w 0), arrived := ids (16 + k) (5 + w) }))
          let more (q : Nat) : List Nat :=
            if 3 ≤ q then ids (4 * k + (if q == 3 then 1 else 3)) q
            else ids (4 * k + (match q with | 0 => 2 | 1 => 1 | _ => 3)) q ++ (List.range 32).map (s.nextId + 32 * q + ·)
          let s := { s with nextId := s.nextId + 96 }
          let s := s.modCore core (fun c => ({ clk := c.clk, gate := c.gate, team := some tid } : Core).unswapHead core img wins more)
          let s := s.unswapData l.asid off core l
          let s := s.setMs (acquireLines s.ms core l.asid .package)
          let s := (List.range 4).foldl (fun (s : State) kind =>
            let (s, f) := s.blockRd l.asid (off + 0x2000 + 0x4000 * kind) 0x4000
            let role := 4 * k + kind
            let old := ((t.away.find? (fun e => e.1 == role)).map (·.2)).getD {}
            let f := f.getD (zeros 0x4000)
            let s := s.armLines l.asid (clusterOf core) f
            let s := s.setStrand (4 * core + kind) (old.unswap f (field hd (0x200 + 4 * role) 4) s.cycle)
            s.modCore core (fun c => (List.range 256).foldl (fun c i =>
              c.setTag (2 * kind + i / 128) (i % 128) (BitVec.ofNat 64 (field f (0x3800 + 8 * i) 8))) c)) s
          (List.range 16).foldl (fun (s : State) i => s.unswapSlot l.asid core i ((img.drop (0x400 + 16 * i)).take 16)) s) s
    | _, _ => s

/-- Swap in one team of a launch with swap set: onto a group passed to it, or onto any free group while its launch is placing. -/
def State.swapInOne (s : State) (tid : Nat) (t : Team) (l : Launch) : State :=
  if s.nextInCycle t.launch l ≠ some (.saved tid) then s
  else if !l.held.isEmpty then s.restoreTeam tid (l.held.headD 0)
  else if l.phase ≠ .dispatched then s
  else
    let (s, home) := s.homeDieOf l
    match pickGroup home (s.freeGroups t.launch l) with
    | none => s
    | some b => s.restoreTeam tid b
/-- The pre-empted teams of a launch with swap clear are placed all at once. -/
def State.swapInAll (s : State) (id : Nat) (l : Launch) : State :=
  let ts := sortBy (fun a b => decide (a.2.num ≤ b.2.num)) ((s.teamsOf id).filter (fun e => !e.2.isResident))
  if l.phase ≠ .dispatched || l.held.length < ts.length then s
  else
    let (s, home) := s.homeDieOf l
    ts.foldl (fun (s : State) (tid, _) => match s.launch id with
      | none => s
      | some l => match pickGroup home (sortBy (fun a b => decide (a ≤ b)) l.held) with
        | some b => s.restoreTeam tid b
        | none => s) s
def execSwapIn : Meaning := fun s =>
  let s := s.holdGroups
  match s.evTeam with
  | none => out s
  | some (tid, t) => match s.launch t.launch with
    | none => out s
    | some l => onlyIf (!t.isResident) (fun s => if l.swap then s.swapInOne tid t l else s.swapInAll t.launch l) s

/-! ## Pre-emption (R99, R100) -/

/-- The teams that a launch may pre-empt, in the order of R99. -/
def State.victims (s : State) (p : Launch) : List (Nat × Team × Launch) :=
  let all := s.teams.filterMap (fun ((i, t) : Nat × Option Team) => match t with
    | some t => match s.launch t.launch with
      | some v => if t.isResident && t.preempt.isNone && v.preempt && v.prio < p.prio then some (i, t, v) else none
      | none => none
    | none => none)
  sortBy (fun a b =>
    decide (a.2.2.prio < b.2.2.prio) || (a.2.2.prio == b.2.2.prio &&
      (decide (b.2.2.order < a.2.2.order) || (a.2.2.order == b.2.2.order && decide (b.2.1.num ≤ a.2.1.num))))) all
/-- How many groups of a shape would be free for a launch without some teams. -/
def State.groupsWithout (s : State) (id : Nat) (p : Launch) (gone : List (Nat × Team × Launch)) : List Nat :=
  let held := s.heldByOthers id
  (s.groups p.shape).filter (fun b => (groupCores p.shape b).all (fun c =>
    !held.contains c && (match (s.core c).team with | none => true | some t => gone.any (fun e => e.1 == t))))
/-- Choose victims until enough groups would be free. -/
def State.chooseVictims (s : State) (id : Nat) (p : Launch) (need : Nat) :
    List (Nat × Team × Launch) → List (Nat × Team × Launch) → List (Nat × Team × Launch)
  | [], got => got
  | v :: rest, got =>
    if need ≤ (s.groupsWithout id p got).length || got.any (fun e => e.1 == v.1) then s.chooseVictims id p need rest got
    else
      let more := if v.2.2.swap then [v] else (v :: rest).filter (fun e => e.2.1.launch == v.2.1.launch)
      s.chooseVictims id p need rest (got ++ more)
/-- A swap block for each victim; none unless all find one (R100). -/
def State.reserve (s : State) (id : Nat) : List (Nat × Team × Launch) → Option State
  | [] => some s
  | (tid, t, v) :: rest =>
    let (s, b) := s.freeBlock v.asid t.shape
    match b with
    | none => none
    | some b => ((s.useBlock v.asid b).setTeam tid (some { t with stop := true, preempt := some (id, b) })).reserve id rest
/-- The victims that have been chosen for a launch and are still to be saved, with their blocks. -/
def State.chosen (s : State) (id : Nat) : List (Nat × Team × Launch × Nat) :=
  s.teams.filterMap (fun ((i, t) : Nat × Option Team) => match t with
    | some t => match s.launch t.launch, t.preempt with
      | some v, some (p, b) => if p == id then some (i, t, v, b) else none
      | _, _ => none
    | none => none)
/-- Can every victim's block still be used? -/
def State.allUsable (s : State) : List (Nat × Team × Launch × Nat) → State × Bool
  | [] => (s, true)
  | (_, t, v, b) :: rest =>
    let (s, ok) := s.blockUsable v.asid b t.shape
    if ok then s.allUsable rest else (s, false)
/-- Save one victim, whose launch waits again (R99). -/
def State.preemptOne (s : State) (v : Nat × Team × Launch × Nat) : State :=
  let s := s.saveTeam v.1 v.2.2.2 v.2.2.1 (.preempted v.2.2.2)
  s.modLaunch v.2.1.launch (fun l => { l with phase := .ready, readyAt := s.clock.ns })
/-- The groups that a pre-emption has freed are held for its launch, in the order of R92. -/
def State.holdFreed (s : State) (id : Nat) : State :=
  match s.launch id with
  | none => s
  | some p =>
    if !s.placing id p then s
    else
      let (s, home) := s.homeDieOf p
      let more := (homeFirst home ((s.freeGroups id p).filter (fun b => !p.held.contains b))).take (s.waitingN id p - p.held.length)
      s.setLaunch id (some { p with held := p.held ++ more })
/-- Once every victim is quiescent, all are saved, and the groups that they free are held for the launch. Where a block can no longer be used,
none is taken (R100); where the spill table has no slot for their barrier entries, they wait. -/
def State.preemptSave (s : State) (id : Nat) : State :=
  let vs := s.chosen id
  if vs.isEmpty || !(vs.all (fun v => s.quiescent v.2.1)) then s
  else
    let (s, ok) := s.allUsable vs
    if !ok then s.dropPreempt id
    else if vs.any (fun v => (s.spillTeam v.2.2.1.asid v.1 v.2.1).isNone) then s
    else (vs.foldl (fun (s : State) v => s.preemptOne v) s).holdFreed id
/-- Does a dispatched launch have a team that waits for a group? -/
def State.needsGroup (s : State) (id : Nat) (p : Launch) : Bool :=
  s.placing id p && (if p.swap then p.held.isEmpty && (s.freeGroups id p).isEmpty && (s.nextInCycle id p).isSome
    else p.held.length < s.waitingN id p)
/-- Pre-empt: save the victims that have been chosen for the launch, or choose them and stop them. -/
def State.preempt (s : State) (id : Nat) (p : Launch) : State :=
  if !(s.chosen id).isEmpty then s.preemptSave id
  else if !s.needsGroup id p then s
  else match s.reserve id (s.chooseVictims id p (s.waitingN id p) (s.victims p) []) with
  | some t => t.preemptSave id
  | none => s
def execPreempt : Meaning := fun s =>
  let s := s.holdGroups
  match s.evLaunch with
  | none => out s
  | some (id, p) => out (s.preempt id p)

/-! ## Retirement (22 R411-R414) -/

/-- Has a team done everything (R411)? An access that has issued is performed first (19 R391; log 81). -/
def State.teamDone (s : State) (t : Team) : Bool :=
  t.sids.all (fun i => let x := s.strand i; x.life = .halted && x.lates.isEmpty && x.pteOps.isEmpty) &&
  t.cores.all (fun c => let k := s.core c
    k.erun.isNone && k.equeue.isEmpty && k.crLd.isNone && k.cqLd.isEmpty && k.crSt.isNone && k.cqSt.isEmpty) &&
  t.colls.toList.all (fun c => c.state ≠ 1)
/-- The status of a grid whose teams have all retired (R413). -/
def Launch.finalStatus (l : Launch) : Nat := if l.faulted then stFAULTED else stOK
/-- A team retires, and its grid with its last team. -/
def State.retireTeam (s : State) (tid : Nat) (t : Team) : State :=
  let asid := ((s.launch t.launch).map (·.asid)).getD 0
  let bad := t.sids.any (fun i => (s.strand i).faultHalt)
  let s := t.cores.foldl (fun (s : State) c => s.setMs (releaseLines (flushStash s.ms c) c asid .package)) s
  let s := t.sids.foldl (fun (s : State) sid => s.setStrand sid {}) s
  let s := t.cores.foldl (fun (s : State) c => s.modCore c (fun k => { clk := k.clk, gate := k.gate })) s
  let s := match t.preempt with | some (_, b) => s.returnBlock asid b | none => s
  let s := State.setTeam { s with pkg := { s.pkg with aborts := s.pkg.aborts.filter (fun a => a.1 ≠ tid) } } tid none
  match s.launch t.launch with
  | none => s
  | some l =>
    let l := { l with retired := l.retired + 1, okTeams := if bad then l.okTeams else l.okTeams + 1, faulted := l.faulted || bad }
    let s := s.setLaunch t.launch (some l)
    if l.grid ≤ l.retired then s.retireLaunch t.launch l l.finalStatus
    else s.passGroup t.launch t.base
def execTeamRetire : Meaning := fun s =>
  match s.evTeam with
  | none => out s
  | some (tid, t) => onlyIf (t.isResident && s.teamDone t) (fun s => s.retireTeam tid t) s

end Machine
end Sys2Proof
end

