-- ==== Sys2Proof/Machine/Loader.lean ====
section
/-! DEFINITION. The firmware loader: checking, placing, linking and publishing a code object, and unloading it (01 R11-R27). -/

namespace Sys2Proof
namespace Machine

/-! ## Status codes (R27) -/

def ldBADHDR : Nat := 1
def ldBADSECT : Nat := 2
def ldBADROUT : Nat := 3
def ldBADSYM : Nat := 4
def ldBADRELOC : Nat := 5
def ldUNDEF : Nat := 6
def ldDUPGLOBAL : Nat := 7
def ldBADCB : Nat := 8
def ldCBFULL : Nat := 9
def ldNOMEM : Nat := 10
def ldBUSY : Nat := 11
def ldBADHANDLE : Nat := 12

/-! ## The parts of a file (R11-R20) -/

/-- A section-table entry (R12). -/
structure Sect where
  type : Nat
  align : Nat
  name : Nat
  off : Nat
  filesz : Nat
  memsz : Nat
  link : Nat
  info : Nat
  deriving DecidableEq, Repr
def Sect.parse (b : List Byte) : Sect :=
  { type := field b 0 1, align := field b 2 1, name := field b 4 4, off := field b 8 8, filesz := field b 0x10 8
    memsz := field b 0x18 8, link := field b 0x20 4, info := field b 0x24 4 }

/-- A symbol (R17). -/
structure Sym where
  name : List Byte
  bind : Nat
  kind : Nat
  sect : Nat
  value : Nat
  size : Nat
  deriving DecidableEq, Repr

/-- A codebook block (R20): its section and its offset there, its header's fields and its bytes. -/
structure CbBlk where
  sect : Nat
  off : Nat
  sym : Nat
  dir : Dir
  nver : Nat
  first : Nat
  bytes : List Byte
  deriving DecidableEq, Repr

/-- A code object as it has passed the checks of step 1; `data`: the bytes of each section; `tabs`: of each SYMTAB its section and
where its entries begin and end in `syms`, which holds the entries of all, in the order of the sections. -/
structure Zof where
  latgen : Nat
  sects : List Sect
  data : List (List Byte)
  descs : List (List Byte)
  tabs : List (Nat × Nat × Nat)
  syms : List Sym
  books : List CbBlk
  deriving DecidableEq, Repr

/-- Pieces of `n` bytes. -/
def pieces (n : Nat) (b : List Byte) : List (List Byte) := (List.range (b.length / max 1 n)).map (fun i => (b.drop (i * n)).take n)
/-- Are bytes `off .. off+n-1` zero? -/
def zeroAt (b : List Byte) (off n : Nat) : Bool := field b off n == 0
/-- A name at an offset of a string table, none where no NUL ends it. -/
def nameAt (strs : List Byte) (off : Nat) : Option (List Byte) :=
  let r := strs.drop off
  if r.contains 0 then some (r.takeWhile (· ≠ 0)) else none

/-- Mapped section types and their protection: 1 Read and X, 2 Read, 3 Read and W (R13). -/
def Sect.prot (x : Sect) : Option Nat :=
  match x.type with
  | 1 => some 1
  | 2 => some 2
  | 3 => some 3
  | 4 => some 3
  | 6 => some 2
  | _ => none
def sectAt (l : List Sect) (i : Nat) : Sect := l.getD i { type := 0, align := 0, name := 0, off := 0, filesz := 0, memsz := 0, link := 0, info := 0 }

/-! ## Step 1: the checks -/

/-- The header (R11), but for the type of the section that shstr names. -/
def hdrOk (f : List Byte) : Bool :=
  128 ≤ f.length && field f 0 4 == 0x464F5A && field f 4 2 == 1 && 1 ≤ field f 6 1 && zeroAt f 7 1 && field f 8 4 < 2 &&
    1 ≤ field f 0xC 4 && field f 0xC 4 ≤ 1024 && field f 0x10 8 % 8 == 0 && field f 0x18 8 == f.length &&
    field f 0x20 4 < field f 0xC 4 && zeroAt f 0x24 92 && field f 0x10 8 + 48 * field f 0xC 4 ≤ f.length

/-- The size that a section's contents are a multiple of (R13, R15, R17, R18). -/
def Sect.unit (x : Sect) : Nat :=
  match x.type with | 1 => 64 | 6 => 64 | 7 => 64 | 8 => 24 | 10 => 24 | _ => 1
/-- A section-table entry (R12). DESIGN CHOICE (log 86): the section that a RELOC patches may be any mapped one. -/
def sectOk (f : List Byte) (all : List Sect) (b : List Byte) : Bool :=
  let x := Sect.parse b
  let lo := if x.type == 1 || x.type == 6 then 6 else 3
  let sh := sectAt all (field f 0x20 4)
  1 ≤ x.type && x.type ≤ 11 && zeroAt b 1 1 && zeroAt b 3 1 && zeroAt b 0x28 8 && lo ≤ x.align && x.align ≤ 16 &&
    (nameAt ((f.drop sh.off).take sh.filesz) x.name).isSome && x.off % 8 == 0 && x.off + x.filesz ≤ f.length &&
    (if x.type == 4 then x.filesz == 0 else x.memsz == x.filesz) && x.filesz % x.unit == 0 &&
    (match x.type with
      | 10 => x.link < all.length && ((sectAt all x.link).prot).isSome && x.info < all.length && (sectAt all x.info).type == 8
      | 8 => x.link < all.length && (sectAt all x.link).type == 9 && x.info == 0
      | _ => x.link == 0 && x.info == 0)

/-- A routine descriptor (R15). Its symbol is one of the first SYMTAB (DEDUCED, log 25), which has `nsym` entries. -/
def descOk (sects : List Sect) (nsym : Nat) (d : List Byte) : Bool :=
  let t := sectAt sects (field d 4 4)
  field d 0 4 < nsym && field d 4 4 < sects.length && t.type == 1 && field d 8 8 % 64 == 0 && field d 0x10 8 % 64 == 0 &&
    field d 8 8 + field d 0x10 8 ≤ t.memsz && field d 0x18 4 / 2 ^ 20 % 2 ^ 11 == 0 && field d 0x1F 1 < 2 && zeroAt d 0x29 1 &&
    zeroAt d 0x2C 20

/-- A symbol from its entry. -/
def symParse (strs b : List Byte) : Option Sym :=
  (nameAt strs (field b 0 4)).map (fun n =>
    { name := n, bind := field b 4 1, kind := field b 5 1, sect := field b 6 2, value := field b 8 8, size := field b 0x10 8 })
def Sym.undef (y : Sym) : Bool := y.sect == 0xFFFF
def Sym.isAbs (y : Sym) : Bool := y.sect == 0xFFFE || y.kind == 6
/-- The fields of a symbol (R17): a definition lies in a section of its kind and within it. DESIGN CHOICE (log 86): of kinds 0, 1, 2
and 5 in a mapped section, and of kind 4 in a CBOOK section; another section is BADSYM. -/
def Sym.ok (sects : List Sect) (ndesc : Nat) (y : Sym) : Bool :=
  let x := sectAt sects y.sect
  y.bind < 2 && y.kind < 7 && (y.undef || y.sect == 0xFFFE || y.sect < sects.length) &&
    (y.undef || y.isAbs || (if y.kind == 3 then y.value < ndesc
      else (if y.kind == 4 then x.type == 5 else x.prot.isSome) && y.value + y.size ≤ x.memsz))
/-- Is a global defined twice in the object (R25)? -/
def dupGlobals (l : List Sym) : Bool :=
  let g := (l.filter (fun y => y.bind == 1 && !y.undef)).map (·.name)
  g.zipIdx.any (fun (n, i) => (g.drop (i + 1)).contains n)

/-- Bytes of a version within a block: prefix and padded components. -/
def CbBlk.verLen (c : CbBlk) : Nat := 8 + roundUp c.dir.bytes 8
/-- The bytes of version k of a block, prefix first. -/
def CbBlk.ver (c : CbBlk) (k : Nat) : List Byte := (c.bytes.drop (32 + k * c.verLen)).take c.verLen
/-- The payload of version k. -/
def CbBlk.payload (c : CbBlk) (k : Nat) : List Byte := ((c.ver k).drop 8).take c.dir.bytes
def CbBlk.lastStamp (c : CbBlk) : Nat := (c.first + c.nver - 1) % 256
/-- A block from its bytes (R20). -/
def cbParse (sect off : Nat) (b : List Byte) : CbBlk :=
  { sect := sect, off := off, sym := field b 0 4
    dir := { kind := field b 4 1, d := field b 5 1, w := field b 6 1, comp := field b 7 1, count := field b 8 4 }
    nver := field b 0xC 2, first := field b 0xE 1, bytes := b }
/-- The header of a block and the symbol that it names (R20, R21). -/
def CbBlk.hdrOk (c : CbBlk) (syms : List Sym) : Bool :=
  let d := c.dir
  (match syms[c.sym]? with | some y => y.kind == 4 && !y.undef | none => false) &&
    (d.comp == 1 || d.comp == 2) && zeroAt c.bytes 0xF 1 && zeroAt c.bytes 0x18 8 && 1 ≤ c.nver && c.nver ≤ 255 &&
    (if d.kind == 1 then [1, 2, 4, 8].contains d.d && 2 ≤ d.w && d.w ≤ 16 && 1 ≤ d.count && d.count ≤ min 4096 (2 ^ d.w)
     else d.kind == 2 && d.d == 8 && d.w == 16 && d.count == 256) &&
    field c.bytes 0x10 8 == 32 + c.nver * c.verLen
/-- The versions of a block (R20, R21). -/
def CbBlk.versOk (c : CbBlk) : Bool :=
  (List.range c.nver).all (fun k =>
    let v := c.ver k
    field v 0 1 == (c.first + k) % 256 && zeroAt v 1 3 && field v 4 4 == c.dir.bytes && !badPayload c.dir.kind c.dir.comp (halves (c.payload k)) &&
      zeroAt v (8 + c.dir.bytes) (c.verLen - 8 - c.dir.bytes))
/-- The blocks of a CBOOK section from offset `off` on, none where one is bad. -/
def cbBlocks (syms : List Sym) (sect : Nat) : (fuel off : Nat) → List Byte → Option (List CbBlk)
  | 0, _, b => if b.isEmpty then some [] else none
  | f + 1, off, b =>
    if b.isEmpty then some []
    else
      let n := field b 0x10 8
      let c := cbParse sect off (b.take n)
      if n ≤ b.length && 32 ≤ n && c.hdrOk syms && c.versOk then (cbBlocks syms sect f (off + n) (b.drop n)).map (c :: ·) else none
/-- The blocks of every CBOOK section. -/
def allBlocks (syms : List Sym) : List (Nat × List Byte) → Option (List CbBlk)
  | [] => some []
  | (i, d) :: rest => match cbBlocks syms i (d.length / 32 + 1) 0 d, allBlocks syms rest with
    | some a, some b => some (a ++ b)
    | _, _ => none

/-- The ranges of symbol tables of these lengths, one after another. -/
def tabsOf : Nat → List (Nat × Nat) → List (Nat × Nat × Nat)
  | _, [] => []
  | base, (i, n) :: rest => (i, base, base + n) :: tabsOf (base + n) rest

/-- The codebook block of a symbol: the one whose header names it, else the one that begins where the symbol is defined. -/
def bookOf (books : List CbBlk) (y : Sym) (i : Nat) : Option CbBlk :=
  match books.find? (fun c => c.sym == i) with
  | some c => some c
  | none => books.find? (fun c => c.sect == y.sect && c.off == y.value)

/-- Step 1 of R23: the checks, in its order; the file's parts. DEDUCED (log 25): blocks name symbols of the first SYMTAB. DESIGN CHOICE
(log 86): a defined codebook symbol that no block names and at whose place none begins is BADCB. -/
def zofParse (f : List Byte) : Except Nat Zof :=
  if !hdrOk f then .error ldBADHDR
  else
    let ents := pieces 48 ((f.drop (field f 0x10 8)).take (48 * field f 0xC 4))
    let sects := ents.map Sect.parse
    if (sectAt sects (field f 0x20 4)).type ≠ 9 then .error ldBADHDR
    else if !ents.all (sectOk f sects) then .error ldBADSECT
    else
      let data := sects.map (fun x => if x.type == 4 then zeros x.memsz else (f.drop x.off).take x.filesz)
      let of (t : Nat) : List (Nat × List Byte) := data.zipIdx.filterMap (fun (d, i) => if (sectAt sects i).type == t then some (i, d) else none)
      let descs := (of 7).flatMap (fun (_, d) => pieces 64 d)
      let tabs := tabsOf 0 ((of 8).map (fun (i, d) => (i, d.length / 24)))
      let first := (tabs.head?).elim 0 (·.2.2)
      let raw := (of 8).flatMap (fun (i, d) => (pieces 24 d).map (symParse (data.getD (sectAt sects i).link [])))
      let syms := raw.filterMap id
      if !descs.all (descOk sects first) then .error ldBADROUT
      else if syms.length ≠ raw.length || !syms.all (Sym.ok sects descs.length) || dupGlobals syms then .error ldBADSYM
      else match allBlocks (syms.take first) (of 5) with
        | none => .error ldBADCB
        | some books =>
          if syms.zipIdx.any (fun (y, i) => y.kind == 4 && !y.undef && !y.isAbs && (bookOf books y i).isNone) then .error ldBADCB
          else .ok { latgen := field f 6 1, sects := sects, data := data, descs := descs, tabs := tabs, syms := syms, books := books }

/-! ## Step 2: placement (R14) -/

/-- The page numbers of a range. -/
def pagesOf (va n : Nat) : List Nat := (List.range ((va % 65536 + n + 65535) / 65536)).map (va / 65536 + ·)
/-- The VA of a section. -/
def LoadPlan.va (p : LoadPlan) (i : Nat) : Nat := p.secVa.getD i 0
/-- The mapped sections: number, VA, length, protection. -/
def placed (z : Zof) (p : LoadPlan) : List (Nat × Nat × Nat × Nat) :=
  z.sects.zipIdx.filterMap (fun (x, i) => x.prot.map (fun q => (i, LoadPlan.va p i, x.memsz, q)))
/-- Do the plan's addresses obey R14? -/
def placeOk (z : Zof) (p : LoadPlan) : Bool :=
  let l := placed z p
  l.all (fun (i, va, n, q) => va % 2 ^ (sectAt z.sects i).align == 0 && va + n ≤ 2 ^ 56 &&
    (l.any (fun (j, _, _, r) => j < i && r == q) || va % 65536 == 0) &&
    l.all (fun (j, wa, m, r) => j == i || ((va + n ≤ wa || wa + m ≤ va) &&
      (r == q || !(pagesOf va n).any ((pagesOf wa m).contains ·)))))

/-! ## Steps 3 to 5: symbols, duplicates, cbids (R22, R23, R25) -/

/-- The objects of a context in load order. -/
def State.objsOf (s : State) (asid : Nat) : List Obj := s.objects.filter (fun o => o.asid == asid)
/-- The earliest global of a name, with its object. -/
def findGlobal (os : List Obj) (name : List Byte) : Option (Obj × Global) :=
  os.findSome? (fun o => (o.globals.find? (fun g => g.name == name)).map (fun g => (o, g)))

/-- A relocation entry (R18); `sym`: the place of its symbol among those of all tables. -/
structure Rel where
  sect : Nat
  off : Nat
  sym : Nat
  type : Nat
  form : Nat
  pair : Nat
  addend : Word
  deriving DecidableEq, Repr
/-- The place of symbol `i` of the SYMTAB in section `tab`; past the last where the table has no such symbol. -/
def Zof.symIx (z : Zof) (tab i : Nat) : Nat :=
  match z.tabs.find? (fun t => t.1 == tab) with
  | some (_, lo, hi) => if lo + i < hi then lo + i else z.syms.length
  | none => z.syms.length
/-- Every relocation of an object, with the section it patches; its symbol is one of the SYMTAB that the RELOC names (R12). -/
def Zof.rels (z : Zof) : List Rel :=
  (z.sects.zip z.data).flatMap (fun (x, d) => if x.type == 10 then (pieces 24 d).map (fun b =>
    { sect := x.link, off := field b 0 8, sym := z.symIx x.info (field b 8 4), type := field b 0xC 1, form := field b 0xD 1, pair := field b 0xE 2,
      addend := BitVec.ofNat 64 (field b 0x10 8) }) else [])

/-- The section and the offset that a definition covers: for a routine, its entry block. -/
def Zof.place (z : Zof) (y : Sym) : Nat × Nat :=
  if y.kind == 3 then let d := z.descs.getD y.value []; (field d 4 4, field d 8 8) else (y.sect, y.value)

/-- What R25 compares of a definition. -/
def Zof.global (z : Zof) (y : Sym) (i : Nat) (value : Word) : Global :=
  let (k, off) := z.place y
  let inside (r : Rel) : Bool := !y.isAbs && y.kind ≠ 4 && r.sect == k && off ≤ r.off && r.off < off + y.size
  { name := y.name, kind := y.kind, size := y.size, value := value
    body := if y.isAbs then leBytes 8 y.value
      else match (if y.kind == 4 then bookOf z.books y i else none) with
        | some c => c.bytes
        | none => ((z.data.getD k []).drop off).take y.size
    rels := (sortBy (fun a b => a.off ≤ b.off) (z.rels.filter inside)).map (fun r =>
      { type := r.type, form := r.form, pair := r.pair, addend := r.addend, target := (z.syms[r.sym]?).elim [] (·.name) }) }
/-- Are two definitions identical (R25)? -/
def Global.same (a b : Global) : Bool := a.size == b.size && a.kind == b.kind && a.body == b.body && a.rels == b.rels

/-- The entry of a codebook in the directory, none where the part cannot read it; nothing is changed. -/
def State.dirLook (s : State) (asid cbid : Nat) : Option Dir :=
  match (s.dirRead rmCore asid cbid).2 with | .ok d => some d | .error _ => none
/-- The lowest `n` free cbids of a context from `cbid` on, of the `fuel` next ones; fewer where the directory is full. -/
def State.freeFrom (s : State) (asid : Nat) : (fuel cbid n : Nat) → List Nat
  | 0, _, _ => []
  | _, _, 0 => []
  | f + 1, cbid, n + 1 => match s.dirLook asid cbid with
    | some d => if d.kind == 0 then cbid :: s.freeFrom asid f (cbid + 1) n else s.freeFrom asid f (cbid + 1) (n + 1)
    | none => s.freeFrom asid f (cbid + 1) (n + 1)
def State.freeCbids (s : State) (asid n : Nat) : List Nat := s.freeFrom asid 4080 16 n

/-- What a symbol stands for: its S, its kind, and whether an earlier object gives it. -/
structure Bound where
  value : Word := 0
  kind : Nat := 0
  ext : Bool := false
  deriving DecidableEq, Repr

/-- The earlier definition that a symbol binds to: for an undefined one, the first of its name; for a global, one of its name. -/
def earlier (os : List Obj) (y : Sym) : Option Global := if y.undef || y.bind == 1 then (findGlobal os y.name).map (·.2) else none
/-- The cbid of a block: its own, or the one of the earlier block that it is merged with; `cb`: those of the blocks that get one, by
symbol. -/
def Zof.cbidOf (z : Zof) (os : List Obj) (cb : List (Nat × Nat)) (c : CbBlk) : Nat :=
  match cb.find? (fun e => e.1 == c.sym) with
  | some e => e.2
  | none => ((z.syms[c.sym]?).bind (earlier os)).elim 0 (fun g => g.value.toNat)
/-- The S of an object's own definition (R17). -/
def Zof.own (z : Zof) (os : List Obj) (p : LoadPlan) (cb : List (Nat × Nat)) (y : Sym) (i : Nat) : Word :=
  if y.isAbs then BitVec.ofNat 64 y.value
  else if y.kind == 4 then BitVec.ofNat 64 ((bookOf z.books y i).elim 0 (z.cbidOf os cb))
  else let (k, off) := z.place y; BitVec.ofNat 64 (LoadPlan.va p k + off)
/-- Every symbol bound. -/
def Zof.bind (z : Zof) (os : List Obj) (p : LoadPlan) (cb : List (Nat × Nat)) : List Bound :=
  z.syms.zipIdx.map (fun (y, i) => match earlier os y with
    | some g => { value := g.value, kind := g.kind, ext := true }
    | none => { value := z.own os p cb y i, kind := y.kind })

/-! ## Step 6: relocation (R19) -/

def isBOpc (o : Nat) : Bool := [2, 3, 4, 7].contains o
def isIOpc (o : Nat) : Bool :=
  [0x0B, 0x0C, 0x0E, 0xD3, 0xD4, 0xD5, 0xD6, 0xD9, 0xDA, 0xEA, 0xEB].contains o || (0x12 ≤ o && o ≤ 0x17) || (0x40 ≤ o && o ≤ 0x4E)
/-- The word at an offset of a section. -/
def wordOf (d : List Byte) (off : Nat) : Word := BitVec.ofNat 64 (field d off 8)
/-- Put a word at an offset. -/
def putWord (d : List Byte) (off : Nat) (w : Word) : List Byte := d.take off ++ leBytes 8 w.toNat ++ d.drop (off + 8)
/-- Replace bits hi..lo of a word. -/
def setBits (w : Word) (hi lo x : Nat) : Word :=
  let m : Word := BitVec.ofNat 64 ((2 ^ (hi + 1 - lo) - 1) * 2 ^ lo)
  (w &&& ~~~m) ||| BitVec.ofNat 64 (x % 2 ^ (hi + 1 - lo) * 2 ^ lo)

/-- One relocation on the bytes of its section at `va`; none is BADRELOC. DESIGN CHOICE (log 86): so is an offset that is no multiple of 8
or whose word does not lie in the section. -/
def relocate (type va : Nat) (d : List Byte) (r : Rel) (b : Bound) : Option (List Byte) :=
  let w := wordOf d r.off
  let o := slc w 58 51
  let v : Word := b.value + r.addend
  let p := va + r.off
  let text := type == 1 && r.off % 64 ≠ 0
  if r.off % 8 ≠ 0 || d.length < r.off + 8 || (r.type ≠ 5 && r.form ≠ 0) || (r.type ≠ 2 && r.pair ≠ 0) then none
  else match r.type with
  | 1 =>
    let x : Int := (slc v 55 6 : Int) - (p / 64 % 2 ^ 50 : Nat)
    if text && isBOpc o && slc v 2 0 == 0 && slc v 5 3 ≠ 0 && -524288 ≤ x && x < 524288 then
      some (putWord d r.off (setBits (setBits w 19 0 (x % 2 ^ 20).toNat) 22 20 (slc v 5 3 - 1)))
    else none
  | 2 =>
    let q := r.off + r.pair
    let w2 := wordOf d q
    if text && 0 < r.pair && r.pair % 8 == 0 && q + 8 ≤ d.length && q % 64 ≠ 0 && o == 0x48 && slc w2 58 51 == 0x49 && fRole w == fRole w2 then
      some (putWord (putWord d r.off (setBits w 31 0 (slc v 31 0))) q (setBits w2 31 0 (slc v 63 32)))
    else none
  | 3 =>
    let x := (v - BitVec.ofNat 64 (p / 64 * 64)).toInt
    if text && o == 0x4E && -2147483648 ≤ x && x < 2147483648 then some (putWord d r.off (setBits w 31 0 (x % 2 ^ 32).toNat)) else none
  | 4 => if type == 6 && (p % 64 == 0 || p % 64 == 48) && v.toNat % 8 == 0 then some (putWord d r.off v) else none
  | 5 =>
    if b.kind ≠ 4 || r.addend ≠ 0 then none
    else if r.form == 0 then
      if type == 6 && p % 64 == 24 then some (putWord d r.off (setBits w 27 16 b.value.toNat)) else none
    else if r.form == 1 && text && isIOpc o && slc w 31 12 == 0 then some (putWord d r.off (setBits w 11 0 b.value.toNat))
    else none
  | _ => none

/-- Every relocation in order. DESIGN CHOICE (log 86): a symbol index beyond the SYMTAB is BADRELOC. -/
def Zof.relocAll (z : Zof) (p : LoadPlan) (bs : List Bound) : Option (List (List Byte)) :=
  z.rels.foldl (fun (d : Option (List (List Byte))) r => match d, bs[r.sym]? with
    | some d, some b => (relocate (sectAt z.sects r.sect).type (LoadPlan.va p r.sect) (d.getD r.sect []) r b).map (fun x => d.set r.sect x)
    | _, _ => none) (some z.data)

/-! ## Step 7: publishing -/

/-- What is free for page tables, and what has been written so far: the state, or none where memory or a place is lacking. -/
abbrev Mapping := Option (State × List Nat)

/-- The part's access with a key. -/
def keyAcc (key : Nat) : Acc := { partAcc with key := key }

/-- Map one page: from level `l` down, with the tables that are missing; a place that is mapped already is refused. -/
def mapWalk (va : Nat) (leaf : Word) : (l base : Nat) → State → List Nat → Mapping
  | l, base, s, tables =>
    let e := base + 8 * (va / 2 ^ (16 + 10 * l) % 1024)
    if !paOk e then none
    else
      let (b, s) := s.partRd e 8
      let w := leWord b
      match l with
      | 0 => if w.getLsbD 0 then none else some (s.partWr e (leBytes 8 leaf.toNat), tables)
      | l' + 1 =>
        if w.getLsbD 0 then
          if w.getLsbD 9 || slc w 28 1 ≠ 0 then none else mapWalk va leaf l' (slc w 63 32 * 2 ^ 16 + slc w 31 29 * 2 ^ 13) s tables
        else match tables with
          | [] => none
          | t :: rest =>
            if t % 8192 ≠ 0 || 2 ^ 48 ≤ t || !paOk t then none
            else
              let s := (s.partWr t (zeros 8192)).partWr e (leBytes 8 (t / 2 ^ 16 * 2 ^ 32 + t / 2 ^ 13 % 8 * 2 ^ 29 + 1))
              mapWalk va leaf l' t s rest

/-- A COH leaf with a protection of R13. -/
def leafOf (frame prot : Nat) (key : BitVec 6) : Word :=
  BitVec.ofNat 64 (frame / 2 ^ 16 * 2 ^ 32 + key.toNat * 2 ^ 10 + (if prot == 1 then 8 else 0) + (if prot == 3 then 4 else 0) + 3)

/-- Map pages on the plan's frames. -/
def mapPages (asid : Nat) (key : BitVec 6) : List (Nat × Nat × Nat) → State → List Nat → Mapping
  | [], s, tables => some (s, tables)
  | (page, frame, prot) :: rest, s, tables =>
    if 2 ^ 40 ≤ page || frame % 65536 ≠ 0 || !paOk frame || isHost frame then none
    else match mapWalk (page * 65536) (leafOf frame prot key) 3 (s.ptbase asid) s tables with
      | none => none
      | some (s, t) => mapPages asid key rest s t

/-- Write bytes at a virtual address through a list of (page, frame). -/
def State.fillPages (s : State) (key : BitVec 6) (frames : List (Nat × Nat × Nat)) (va : Nat) (bs : List Byte) : State :=
  (runsOf va bs.length).foldl (fun s (a, n) =>
    match frames.find? (fun e => e.1 == a / 65536) with
    | none => s
    | some (_, f, _) =>
      let pa := f + a % 65536
      let stale (k : Nat) : Bool := pa / 64 ≤ k % 2 ^ 42 && k % 2 ^ 42 ≤ (pa + n - 1) / 64
      let s := s.freeLines pa n
      let (ms, e) := writePa s.ms (keyAcc key.toNat) pa ((bs.drop (a - va)).take n)
      let ms := noteEcc ms e
      s.setMs { ms with icache := ms.icache.filter (fun e => !stale e.1), icUse := ms.icUse.filter (fun e => !stale e.1) }) s

/-- Remove what is listed twice. -/
def dedup (l : List Nat) : List Nat := l.foldr (fun x r => if r.contains x then r else x :: r) []

/-- The length of a codebook's archive (R202). -/
def Dir.stride (d : Dir) : Nat := 64 + roundUp d.bytes 64
def Dir.archiveLen (d : Dir) : Nat := 256 * d.stride

/-- A new directory entry's bytes (R200). -/
def Dir.toBytes (d : Dir) : List Byte :=
  leBytes 1 d.kind ++ leBytes 1 d.d ++ leBytes 1 d.w ++ leBytes 1 d.comp ++ leBytes 2 d.count ++ leBytes 1 d.current ++ leBytes 1 d.floor ++
    leBytes 2 (d.emax % 65536).toNat ++ leBytes 1 d.k ++ zeros 5 ++ leBytes 8 d.archive ++ leBytes 4 d.stride ++ leBytes 4 d.revs ++ zeros 32
/-- The entry of a block with its archive (R22). -/
def CbBlk.entry (c : CbBlk) (archive : Nat) : Dir :=
  { c.dir with current := c.lastStamp, floor := c.first, emax := emaxOf c.dir.comp (halves (c.payload (c.nver - 1))), archive := archive }

/-- Write pieces for the part in a context, none where one fails. -/
def State.supPieces (s : State) (asid : Nat) : List (Nat × List Byte) → Option State
  | [] => some s
  | (va, bs) :: rest => match s.supWr rmCore asid kCohWr va bs with
    | (s, none) => s.supPieces asid rest
    | (_, some _) => none
/-- What a block puts into its archive (R202): a record of each of its versions, and the prefixes of the absent ones, but for their emax,
of which no rule gives a value (log 86). -/
def CbBlk.records (c : CbBlk) (d : Dir) : List (Nat × List Byte) :=
  (List.range 256).flatMap (fun v =>
    let at' := d.archive + v * d.stride
    let k := (v + 256 - c.first) % 256
    if k < c.nver then [(at', recordBytes v (emaxOf d.comp (halves (c.payload k))) (c.payload k))]
    else [(at', leBytes 1 v ++ [0]), (at' + 4, zeros 4 ++ leBytes 8 d.bytes ++ zeros 48)])
/-- Write a block's archive and its directory entry (R22). -/
def State.putBook (s : State) (asid cbid archive : Nat) (c : CbBlk) : Option State :=
  let d := c.entry archive
  s.supPieces asid (c.records d ++ [(s.dirVa asid cbid, d.toBytes)])

/-- A status is returned (R27), with the handle. -/
def State.loadReturn (s : State) (status handle : Nat) : State :=
  { s with pkg := { s.pkg with loadStatus := (status, handle) :: s.pkg.loadStatus } }
/-- Can the plan's handle be returned? It is not zero (R23), and no loaded object has it (log 9). -/
def State.handleFree (s : State) (p : LoadPlan) : Bool := p.handle ≠ 0 && !s.objects.any (fun o => o.handle == p.handle.toNat)

/-- Write the blocks that get a cbid. -/
def State.putBooks (s : State) (asid : Nat) : List (Nat × Nat × CbBlk) → Option State
  | [] => some s
  | (cbid, va, c) :: rest => match s.putBook asid cbid va c with
    | some s => s.putBooks asid rest
    | none => none

/-- Publish an object that has passed the other steps; none: the memory is lacking, or the archive or the directory cannot be written
(log 86). -/
def State.publish (s : State) (asid : Nat) (p : LoadPlan) (z : Zof) (img : List (List Byte)) (arch : List (Nat × Nat × CbBlk)) (o : Obj) :
    Option State :=
  let secs := (placed z p).flatMap (fun (_, va, n, q) => (pagesOf va n).map (fun g => (g, q)))
  let pages := dedup (secs.map (·.1))
  let prot (g : Nat) : Nat := (secs.find? (fun e => e.1 == g)).elim 2 (·.2)
  let archPages := arch.flatMap (fun (_, va, c) => pagesOf va c.dir.archiveLen)
  let all := pages ++ archPages
  if p.frames.length < all.length || dedup p.frames ≠ p.frames || dedup p.tables ≠ p.tables || dedup archPages ≠ archPages ||
      keyGenOf s.ms p.key.toNat == 0 || arch.any (fun (_, va, _) => va % 65536 ≠ 0) then none
  else
    let frames := (all.zip p.frames).map (fun (g, f) => (g, f, prot g))
    match mapPages asid p.key frames s p.tables with
    | none => none
    | some (s, _) =>
      let s := (placed z p).foldl (fun (s : State) ((i, va, _, _) : Nat × Nat × Nat × Nat) => s.fillPages p.key frames va (img.getD i [])) s
      match s.putBooks asid arch with
      | none => none
      | some s => some { s with objects := s.objects ++ [{ o with pages := pages }] }

/-- Does the context hold a different global of a symbol's name (R25)? -/
def Zof.clash (z : Zof) (os : List Obj) (y : Sym) (i : Nat) : Bool :=
  y.bind == 1 && !y.undef && (match findGlobal os y.name with
    | some (_, g) => !g.same (z.global y i 0)
    | none => false)

/-- Steps 2 to 7 of R23. -/
def State.loadObj (s : State) (asid : Nat) (p : LoadPlan) (z : Zof) : Except Nat State :=
  let os := s.objsOf asid
  if !s.ctxValid asid || !placeOk z p then .error ldNOMEM
  else if z.syms.any (fun y => y.undef && (findGlobal os y.name).isNone) then .error ldUNDEF
  else if z.syms.zipIdx.any (fun (y, i) => z.clash os y i) then .error ldDUPGLOBAL
  else
    let new := z.books.filter (fun c => match z.syms[c.sym]? with | some y => (earlier os y).isNone | none => false)
    let ids := s.freeCbids asid new.length
    if ids.length < new.length then .error ldCBFULL
    else
      let cb := (new.map (·.sym)).zip ids
      let bs := z.bind os p cb
      match z.relocAll p bs with
      | none => .error ldBADRELOC
      | some img =>
        let used (i : Nat) : Bool := (bs[i]?).elim false (·.ext) && ((z.syms[i]?).elim false Sym.undef || z.rels.any (fun r => r.sym == i))
        let o : Obj := { handle := p.handle.toNat, asid := asid, latgen := z.latgen
                         routines := z.descs.map (fun d => { entry := BitVec.ofNat 64 (LoadPlan.va p (field d 4 4) + field d 8 8), desc := d })
                         globals := z.syms.zipIdx.filterMap (fun (y, i) => if y.bind == 1 && !y.undef then
                           some (z.global y i (if y.kind == 4 then ((bs[i]?).elim 0 (·.value)) else z.own os p cb y i)) else none)
                         uses := z.syms.zipIdx.filterMap (fun (y, i) => if used i then some y.name else none)
                         cbids := ids ++ z.books.map (z.cbidOf os cb)
                         pages := [] }
        let arch := (ids.zip p.archVa).zip new |>.map (fun ((i, va), c) => (i, va, c))
        if arch.length < new.length then .error ldNOMEM
        else match s.publish asid p z img arch o with
          | none => .error ldNOMEM
          | some s => .ok s

/-- LOAD (R23): the firmware loads a code object; a failure leaves the context as it was. It chooses no handle that is in use. -/
def execLoad : Meaning := fun s =>
  match s.ev with
  | .load asid file plan =>
    if !s.handleFree plan then out s
    else match zofParse file with
      | .error c => out (s.loadReturn c 0)
      | .ok z =>
        match s.loadObj asid.toNat plan z with
        | .error c => out (s.loadReturn c 0)
        | .ok t => out (t.loadReturn 0 plan.handle.toNat)
  | _ => out s

/-! ## Unloading (R26) -/

/-- Does an untaken record of an enabled queue of the context name a handle? DESIGN CHOICE (log 86): a record in a queue that is not
enabled is no queued launch. -/
def State.queuedUse (s : State) (asid handle : Nat) : Bool :=
  (List.range 64).any (fun q =>
    let (d, t) := s.qDesc q
    d.enabled && d.asid == asid && (List.range (min d.fill d.entries)).any (fun i =>
      match (t.supRd rmCore asid kCohRd (d.ring + 64 * ((d.head + i) % d.entries)) 4).2 with
      | .ok b => leNat b == handle
      | .error _ => false))
/-- Is an object in use? -/
def State.objBusy (s : State) (o : Obj) : Bool :=
  s.launchList.any (fun e => e.2.asid == o.asid && e.2.handle' == o.handle) || s.queuedUse o.asid o.handle ||
  (s.objsOf o.asid).any (fun x => x.handle ≠ o.handle && x.uses.any (fun n =>
    match findGlobal ((s.objsOf o.asid).filter (fun y => y.handle ≠ x.handle)) n with
    | some (y, _) => y.handle == o.handle
    | none => false))

/-- Clear the leaf of a page and drop the translations held of it. -/
def State.unmapPage (s : State) (asid page : Nat) : State :=
  let (ms, r) := walk s.ms none (page * 65536) 3 (s.ptbase asid)
  match r with
  | .ok l => (s.setMs (dropTlb ms (some asid) (some (page * 65536)))).partWr l.ptePa (zeros 8)
  | .error _ => s
/-- Free cbids with their archives, none where a directory entry cannot be read or written. -/
def State.freeBooks (s : State) (asid : Nat) : List Nat → Option State
  | [] => some s
  | cbid :: rest => match s.dirLook asid cbid with
    | none => none
    | some d => match s.supWr rmCore asid kCohWr (s.dirVa asid cbid) (zeros 64) with
      | (_, some _) => none
      | (s, none) => ((pagesOf d.archive d.archiveLen).foldl (fun s g => s.unmapPage asid g) s).freeBooks asid rest

/-- UNLOAD (R26). DESIGN CHOICE (log 86): where a cbid cannot be freed because the directory cannot be read or written, the unload is
refused (BUSY) and nothing is changed. -/
def execUnload : Meaning := fun s =>
  match s.ev with
  | .unload asid handle =>
    match (s.objsOf asid.toNat).find? (fun o => o.handle == handle.toNat) with
    | none => out (s.loadReturn ldBADHANDLE handle.toNat)
    | some o =>
      if s.objBusy o then out (s.loadReturn ldBUSY handle.toNat)
      else
        let rest := (s.objsOf o.asid).filter (fun x => x.handle ≠ o.handle)
        let gone := (dedup o.cbids).filter (fun c => !rest.any (fun x => x.cbids.contains c))
        match s.freeBooks o.asid gone with
        | none => out (s.loadReturn ldBUSY handle.toNat)
        | some s =>
          let s := { s with objects := s.objects.filter (fun x => !(x.asid == o.asid && x.handle == o.handle)) }
          let s := o.pages.foldl (fun (s : State) g => s.unmapPage o.asid g) s
          out (s.loadReturn 0 handle.toNat)
  | _ => out s

end Machine
end Sys2Proof
end

