-- ==== Sys2Proof/Machine/Dispatch.lean ====
section
/-! DEFINITION. One arm per instruction and event: the meaning it calls. -/

namespace Sys2Proof
namespace Machine

/-- The meaning of each row of the opcode table. -/
def exec (i : Instr) (s : State) : Host.Outcome State Fault Refusal :=
  match i with
  | .nop h => Sys2Proof.Machine.execNop h s
  | .halt h => Sys2Proof.Machine.execHalt h s
  | .br h slot boff => Sys2Proof.Machine.execBr h slot boff s
  | .jmp h a slot boff => Sys2Proof.Machine.execJmp h a slot boff s
  | .call h d slot boff => Sys2Proof.Machine.execCall h d slot boff s
  | .callr h d a => Sys2Proof.Machine.execCallr h d a s
  | .ret h a => Sys2Proof.Machine.execRet h a s
  | .loop h d a slot boff => Sys2Proof.Machine.execLoop h d a slot boff s
  | .rep h count id ia ib ic => Sys2Proof.Machine.execRep h count id ia ib ic s
  | .hand h frm tgt n => Sys2Proof.Machine.execHand h frm tgt n s
  | .htest h d frm tgt => Sys2Proof.Machine.execHtest h d frm tgt s
  | .bar h d mode ring off => Sys2Proof.Machine.execBar h d mode ring off s
  | .barb h k => Sys2Proof.Machine.execBarb h k s
  | .marm h a b sc off => Sys2Proof.Machine.execMarm h a b sc off s
  | .mwait h d tgt => Sys2Proof.Machine.execMwait h d tgt s
  | .wakeat h a => Sys2Proof.Machine.execWakeat h a s
  | .time h d => Sys2Proof.Machine.execTime h d s
  | .cycle h d => Sys2Proof.Machine.execCycle h d s
  | .csrr h d csr => Sys2Proof.Machine.execCsrr h d csr s
  | .csrw h d a csr => Sys2Proof.Machine.execCsrw h d a csr s
  | .csrs h d a csr => Sys2Proof.Machine.execCsrs h d a csr s
  | .csrc h d a csr => Sys2Proof.Machine.execCsrc h d a csr s
  | .trap h a code => Sys2Proof.Machine.execTrap h a code s
  | .sysc h a code => Sys2Proof.Machine.execSysc h a code s
  | .rft h => Sys2Proof.Machine.execRft h s
  | .fence h acq rel sc => Sys2Proof.Machine.execFence h acq rel sc s
  | .yield h a => Sys2Proof.Machine.execYield h a s
  | .moncfg h d a b => Sys2Proof.Machine.execMoncfg h d a b s
  | .monrd h d a b => Sys2Proof.Machine.execMonrd h d a b s
  | .tlbinvPage h d a b => Sys2Proof.Machine.execTlbinvPage h d a b s
  | .tlbinvAsid h d a b => Sys2Proof.Machine.execTlbinvAsid h d a b s
  | .tlbinvAll h d a b => Sys2Proof.Machine.execTlbinvAll h d a b s
  | .pteamoInc h d a b sc off => Sys2Proof.Machine.execPteamoInc h d a b sc off s
  | .pteamoDec h d a b sc off => Sys2Proof.Machine.execPteamoDec h d a b sc off s
  | .pteamoCas h d a b sc off => Sys2Proof.Machine.execPteamoCas h d a b sc off s
  | .pteamoOr h d a b sc off => Sys2Proof.Machine.execPteamoOr h d a b sc off s
  | .pteamoAndn h d a b sc off => Sys2Proof.Machine.execPteamoAndn h d a b sc off s
  | .launch h d x q => Sys2Proof.Machine.execLaunch h d x q s
  | .add h d a b => Sys2Proof.Machine.execAdd h d a b s
  | .sub h d a b => Sys2Proof.Machine.execSub h d a b s
  | .mul h d a b => Sys2Proof.Machine.execMul h d a b s
  | .mulh h d a b => Sys2Proof.Machine.execMulh h d a b s
  | .mulhu h d a b => Sys2Proof.Machine.execMulhu h d a b s
  | .div h d a b => Sys2Proof.Machine.execDiv h d a b s
  | .divu h d a b => Sys2Proof.Machine.execDivu h d a b s
  | .rem h d a b => Sys2Proof.Machine.execRem h d a b s
  | .remu h d a b => Sys2Proof.Machine.execRemu h d a b s
  | .and h d a b => Sys2Proof.Machine.execAnd h d a b s
  | .or h d a b => Sys2Proof.Machine.execOr h d a b s
  | .xor h d a b => Sys2Proof.Machine.execXor h d a b s
  | .andn h d a b => Sys2Proof.Machine.execAndn h d a b s
  | .shl h d a b => Sys2Proof.Machine.execShl h d a b s
  | .shr h d a b => Sys2Proof.Machine.execShr h d a b s
  | .sar h d a b => Sys2Proof.Machine.execSar h d a b s
  | .rol h d a b => Sys2Proof.Machine.execRol h d a b s
  | .min h d a b => Sys2Proof.Machine.execMin h d a b s
  | .max h d a b => Sys2Proof.Machine.execMax h d a b s
  | .minu h d a b => Sys2Proof.Machine.execMinu h d a b s
  | .maxu h d a b => Sys2Proof.Machine.execMaxu h d a b s
  | .clz h d a => Sys2Proof.Machine.execClz h d a s
  | .ctz h d a => Sys2Proof.Machine.execCtz h d a s
  | .popc h d a => Sys2Proof.Machine.execPopc h d a s
  | .bfx h d a sx wid lsb => Sys2Proof.Machine.execBfx h d a sx wid lsb s
  | .bfi h d a b wid lsb => Sys2Proof.Machine.execBfi h d a b wid lsb s
  | .sel h d a b c => Sys2Proof.Machine.execSel h d a b c s
  | .cmp h d a b cc => Sys2Proof.Machine.execCmp h d a b cc s
  | .addw h d a b => Sys2Proof.Machine.execAddw h d a b s
  | .subw h d a b => Sys2Proof.Machine.execSubw h d a b s
  | .mulw h d a b => Sys2Proof.Machine.execMulw h d a b s
  | .bswap h d a => Sys2Proof.Machine.execBswap h d a s
  | .addi h d a imm => Sys2Proof.Machine.execAddi h d a imm s
  | .andi h d a imm => Sys2Proof.Machine.execAndi h d a imm s
  | .ori h d a imm => Sys2Proof.Machine.execOri h d a imm s
  | .xori h d a imm => Sys2Proof.Machine.execXori h d a imm s
  | .shli h d a n => Sys2Proof.Machine.execShli h d a n s
  | .shri h d a n => Sys2Proof.Machine.execShri h d a n s
  | .sari h d a n => Sys2Proof.Machine.execSari h d a n s
  | .roli h d a n => Sys2Proof.Machine.execRoli h d a n s
  | .movi h d imm => Sys2Proof.Machine.execMovi h d imm s
  | .movhi h d a imm => Sys2Proof.Machine.execMovhi h d a imm s
  | .cmpi h d a cc val => Sys2Proof.Machine.execCmpi h d a cc val s
  | .muli h d a imm => Sys2Proof.Machine.execMuli h d a imm s
  | .mini h d a imm => Sys2Proof.Machine.execMini h d a imm s
  | .maxi h d a imm => Sys2Proof.Machine.execMaxi h d a imm s
  | .addpc h d imm => Sys2Proof.Machine.execAddpc h d imm s
  | .pset h d n => Sys2Proof.Machine.execPset h d n s
  | .pand h d a b => Sys2Proof.Machine.execPand h d a b s
  | .por h d a b => Sys2Proof.Machine.execPor h d a b s
  | .pxor h d a b => Sys2Proof.Machine.execPxor h d a b s
  | .pandn h d a b => Sys2Proof.Machine.execPandn h d a b s
  | .pfrom h d a => Sys2Proof.Machine.execPfrom h d a s
  | .pto h d a => Sys2Proof.Machine.execPto h d a s
  | .pany h d a b => Sys2Proof.Machine.execPany h d a b s
  | .pall h d a b => Sys2Proof.Machine.execPall h d a b s
  | .pcnt h d a b => Sys2Proof.Machine.execPcnt h d a b s
  | .pfirst h d a b => Sys2Proof.Machine.execPfirst h d a b s
  | .planes h d a b => Sys2Proof.Machine.execPlanes h d a b s
  | .fadd h ty d a b => Sys2Proof.Machine.execFadd h ty d a b s
  | .fsub h ty d a b => Sys2Proof.Machine.execFsub h ty d a b s
  | .fmul h ty d a b => Sys2Proof.Machine.execFmul h ty d a b s
  | .fma h ty d a b c => Sys2Proof.Machine.execFma h ty d a b c s
  | .fms h ty d a b c => Sys2Proof.Machine.execFms h ty d a b c s
  | .fnma h ty d a b c => Sys2Proof.Machine.execFnma h ty d a b c s
  | .fdiv h ty d a b => Sys2Proof.Machine.execFdiv h ty d a b s
  | .fsqrt h ty d a => Sys2Proof.Machine.execFsqrt h ty d a s
  | .fmin h ty d a b => Sys2Proof.Machine.execFmin h ty d a b s
  | .fmax h ty d a b => Sys2Proof.Machine.execFmax h ty d a b s
  | .fminm h ty d a b => Sys2Proof.Machine.execFminm h ty d a b s
  | .fmaxm h ty d a b => Sys2Proof.Machine.execFmaxm h ty d a b s
  | .fcmp h ty d a b cc => Sys2Proof.Machine.execFcmp h ty d a b cc s
  | .fclass h ty d a => Sys2Proof.Machine.execFclass h ty d a s
  | .fcvt h ty ty2 rm d a => Sys2Proof.Machine.execFcvt h ty ty2 rm d a s
  | .fcvti h ty ity rm d a => Sys2Proof.Machine.execFcvti h ty ity rm d a s
  | .icvtf h ty ity rm d a => Sys2Proof.Machine.execIcvtf h ty ity rm d a s
  | .fsgn h ty op d a => Sys2Proof.Machine.execFsgn h ty op d a s
  | .frnd h ty rm d a => Sys2Proof.Machine.execFrnd h ty rm d a s
  | .fscalb h ty d a b => Sys2Proof.Machine.execFscalb h ty d a b s
  | .fexp2 h ty d a => Sys2Proof.Machine.execFexp2 h ty d a s
  | .flog2 h ty d a => Sys2Proof.Machine.execFlog2 h ty d a s
  | .frcp h ty d a => Sys2Proof.Machine.execFrcp h ty d a s
  | .frsq h ty d a => Sys2Proof.Machine.execFrsq h ty d a s
  | .frand h op d => Sys2Proof.Machine.execFrand h op d s
  | .lds h sz sc d a b off => Sys2Proof.Machine.execLds h sz sc d a b off s
  | .sts h sz sc d a b off => Sys2Proof.Machine.execSts h sz sc d a b off s
  | .ldg h sz sc d a b off => Sys2Proof.Machine.execLdg h sz sc d a b off s
  | .stg h sz sc d a b off => Sys2Proof.Machine.execStg h sz sc d a b off s
  | .qld h sz sc tag d a off => Sys2Proof.Machine.execQld h sz sc tag d a off s
  | .qldp h sc tag d a off => Sys2Proof.Machine.execQldp h sc tag d a off s
  | .qst h sz sc tag d a off => Sys2Proof.Machine.execQst h sz sc tag d a off s
  | .qwait h tag => Sys2Proof.Machine.execQwait h tag s
  | .qpop h d => Sys2Proof.Machine.execQpop h d s
  | .samo h op sz sc d a b off => Sys2Proof.Machine.execSamo h op sz sc d a b off s
  | .samof h op sz sc d a b off => Sys2Proof.Machine.execSamof h op sz sc d a b off s
  | .gamo h op sz tag d a b off => Sys2Proof.Machine.execGamo h op sz tag d a b off s
  | .gamof h op sz tag d a b off => Sys2Proof.Machine.execGamof h op sz tag d a b off s
  | .ldv h sz sc d a b off => Sys2Proof.Machine.execLdv h sz sc d a b off s
  | .stv h sz sc d a b off => Sys2Proof.Machine.execStv h sz sc d a b off s
  | .vgath h sz sc d a b off => Sys2Proof.Machine.execVgath h sz sc d a b off s
  | .vscat h sz sc d a b off => Sys2Proof.Machine.execVscat h sz sc d a b off s
  | .clean h sz sc a b off => Sys2Proof.Machine.execClean h sz sc a b off s
  | .inval h sz sc a b off => Sys2Proof.Machine.execInval h sz sc a b off s
  | .pfetch h sc a b off => Sys2Proof.Machine.execPfetch h sc a b off s
  | .tld h x nr t sc trow tr n => Sys2Proof.Machine.execTld h x nr t sc trow tr n s
  | .tst h x nr t sc trow tr n => Sys2Proof.Machine.execTst h x nr t sc trow tr n s
  | .wopen h x w sc => Sys2Proof.Machine.execWopen h x w sc s
  | .wadv h a w => Sys2Proof.Machine.execWadv h a w s
  | .wclose h w => Sys2Proof.Machine.execWclose h w s
  | .wrow h d a w => Sys2Proof.Machine.execWrow h d a w s
  | .cpy h x nr sc out n => Sys2Proof.Machine.execCpy h x nr sc out n s
  | .cpyz h x nr sc n => Sys2Proof.Machine.execCpyz h x nr sc n s
  | .cpyst h d wait => Sys2Proof.Machine.execCpyst h d wait s
  | .vadd h d a b => Sys2Proof.Machine.execVadd h d a b s
  | .vsub h d a b => Sys2Proof.Machine.execVsub h d a b s
  | .vmul h d a b => Sys2Proof.Machine.execVmul h d a b s
  | .vmulh h u d a b => Sys2Proof.Machine.execVmulh h u d a b s
  | .vmin h u d a b => Sys2Proof.Machine.execVmin h u d a b s
  | .vmax h u d a b => Sys2Proof.Machine.execVmax h u d a b s
  | .vand h d a b => Sys2Proof.Machine.execVand h d a b s
  | .vor h d a b => Sys2Proof.Machine.execVor h d a b s
  | .vxor h d a b => Sys2Proof.Machine.execVxor h d a b s
  | .vshl h d a b => Sys2Proof.Machine.execVshl h d a b s
  | .vshr h d a b => Sys2Proof.Machine.execVshr h d a b s
  | .vsar h d a b => Sys2Proof.Machine.execVsar h d a b s
  | .vfadd h lt d a b => Sys2Proof.Machine.execVfadd h lt d a b s
  | .vfsub h lt d a b => Sys2Proof.Machine.execVfsub h lt d a b s
  | .vfmul h lt d a b => Sys2Proof.Machine.execVfmul h lt d a b s
  | .vfma h lt d a b c => Sys2Proof.Machine.execVfma h lt d a b c s
  | .vfmin h num lt d a b => Sys2Proof.Machine.execVfmin h num lt d a b s
  | .vfmax h num lt d a b => Sys2Proof.Machine.execVfmax h num lt d a b s
  | .vfdiv h lt d a b => Sys2Proof.Machine.execVfdiv h lt d a b s
  | .vfsqrt h lt d a => Sys2Proof.Machine.execVfsqrt h lt d a s
  | .vfexp2 h lt d a => Sys2Proof.Machine.execVfexp2 h lt d a s
  | .vfrcp h lt d a => Sys2Proof.Machine.execVfrcp h lt d a s
  | .vfrsq h lt d a => Sys2Proof.Machine.execVfrsq h lt d a s
  | .vcmp h op d a b => Sys2Proof.Machine.execVcmp h op d a b s
  | .vcvt h tgt frm sgn rm d a => Sys2Proof.Machine.execVcvt h tgt frm sgn rm d a s
  | .vred h op d a => Sys2Proof.Machine.execVred h op d a s
  | .vperm h wrap d a b => Sys2Proof.Machine.execVperm h wrap d a b s
  | .vsplat h d a => Sys2Proof.Machine.execVsplat h d a s
  | .vext h sx k d a b => Sys2Proof.Machine.execVext h sx k d a b s
  | .vhad h n nrm lt d a => Sys2Proof.Machine.execVhad h n nrm lt d a s
  | .vsel h d a b c => Sys2Proof.Machine.execVsel h d a b c s
  | .viota h d a b => Sys2Proof.Machine.execViota h d a b s
  | .tcfg h reg => Sys2Proof.Machine.execTcfg h reg s
  | .tzero h ta sl tag => Sys2Proof.Machine.execTzero h ta sl tag s
  | .tmovv h ta sl reg wr hi tag => Sys2Proof.Machine.execTmovv h ta sl reg wr hi tag s
  | .tmovt h ta tb => Sys2Proof.Machine.execTmovt h ta tb s
  | .tcopy h ta tb sl => Sys2Proof.Machine.execTcopy h ta tb sl s
  | .tdec h ta tb sl => Sys2Proof.Machine.execTdec h ta tb sl s
  | .tenc h ta tb sl reg sc => Sys2Proof.Machine.execTenc h ta tb sl reg sc s
  | .mma h ta tb acc at' bt sov sa sb clr => Sys2Proof.Machine.execMma h ta tb acc at' bt sov sa sb clr s
  | .mpt h ta reg kb => Sys2Proof.Machine.execMpt h ta reg kb s
  | .mga h ta acc clr => Sys2Proof.Machine.execMga h ta acc clr s
  | .mhad h ta tb sl n nrm => Sys2Proof.Machine.execMhad h ta tb sl n nrm s
  | .azero h acc sl res => Sys2Proof.Machine.execAzero h acc sl res s
  | .amovv h acc sl reg hi => Sys2Proof.Machine.execAmovv h acc sl reg hi s
  | .awrv h acc sl reg hi add int => Sys2Proof.Machine.execAwrv h acc sl reg hi add int s
  | .acvt h ta acc sl reg tr res sc int => Sys2Proof.Machine.execAcvt h ta acc sl reg tr res sc int s
  | .ascl h acc sl reg => Sys2Proof.Machine.execAscl h acc sl reg s
  | .abmax h acc sl reg int => Sys2Proof.Machine.execAbmax h acc sl reg int s
  | .rzero h acc sl => Sys2Proof.Machine.execRzero h acc sl s
  | .rmovv h acc sl reg wr hi => Sys2Proof.Machine.execRmovv h acc sl reg wr hi s
  | .mmode h rm ld => Sys2Proof.Machine.execMmode h rm ld s
  | .cbld h d a cbid => Sys2Proof.Machine.execCbld h d a cbid s
  | .cbrev h d a cbid => Sys2Proof.Machine.execCbrev h d a cbid s
  | .cbfloor h d a cbid => Sys2Proof.Machine.execCbfloor h d a cbid s
  | .cbenc h sc d a b => Sys2Proof.Machine.execCbenc h sc d a b s
  | .cbdec h sc d a b => Sys2Proof.Machine.execCbdec h sc d a b s
  | .cbstat h d a cbid => Sys2Proof.Machine.execCbstat h d a cbid s
  | .cbpin h d a cbid => Sys2Proof.Machine.execCbpin h d a cbid s
  | .coll h d x nr op cmp slot => Sys2Proof.Machine.execColl h d x nr op cmp slot s
  | .collst h d wait slot => Sys2Proof.Machine.execCollst h d wait slot s
  | .collab h d slot => Sys2Proof.Machine.execCollab h d slot s
  | .fxr h sz tag d a b off => Sys2Proof.Machine.execFxr h sz tag d a b off s
  | .fxw h sz tag d a b off => Sys2Proof.Machine.execFxw h sz tag d a b off s
  | .fxamo h op sz tag d a b off => Sys2Proof.Machine.execFxamo h op sz tag d a b off s
  | .fxsig h tag d a b off => Sys2Proof.Machine.execFxsig h tag d a b off s
  | .chainOpen h d a => Sys2Proof.Machine.execChainOpen h d a s
  | .chainClose h d a => Sys2Proof.Machine.execChainClose h d a s
  | .chainQuery h d a => Sys2Proof.Machine.execChainQuery h d a s
  | .demote h d a => Sys2Proof.Machine.execDemote h d a s
  | .keyopGen h d a => Sys2Proof.Machine.execKeyopGen h d a s
  | .keyopDestroy h d a => Sys2Proof.Machine.execKeyopDestroy h d a s
  | .keyopQuery h d a => Sys2Proof.Machine.execKeyopQuery h d a s
  | .sysr h d reg => Sys2Proof.Machine.execSysr h d reg s
  | .syswHmask h d a n => Sys2Proof.Machine.execSyswHmask h d a n s
  | .sysw h d a reg => Sys2Proof.Machine.execSysw h d a reg s
  | .hostsig h d a b code => Sys2Proof.Machine.execHostsig h d a b code s
  | .timeadjStep h d a => Sys2Proof.Machine.execTimeadjStep h d a s
  | .timeadjRate h d a => Sys2Proof.Machine.execTimeadjRate h d a s
  | .timeadjQuery h d a => Sys2Proof.Machine.execTimeadjQuery h d a s
  | .trace h d a b code => Sys2Proof.Machine.execTrace h d a b code s
  | .monsnap h d a b => Sys2Proof.Machine.execMonsnap h d a b s
  | .wdogArm h d a => Sys2Proof.Machine.execWdogArm h d a s
  | .wdogOff h d a => Sys2Proof.Machine.execWdogOff h d a s
  | .wdogQuery h d a => Sys2Proof.Machine.execWdogQuery h d a s
  | .sparemap h d a => Sys2Proof.Machine.execSparemap h d a s
  | .eccinj h d a b hold dbl => Sys2Proof.Machine.execEccinj h d a b hold dbl s
  | .eccst h d a clr => Sys2Proof.Machine.execEccst h d a clr s
  | .handPop h frm tgt n => Sys2Proof.Machine.execHandPop h frm tgt n s
  | .load => Sys2Proof.Machine.execLoad s
  | .unload => Sys2Proof.Machine.execUnload s
  | .hostWrite => Sys2Proof.Machine.execHostWrite s
  | .queueMonitorWake => Sys2Proof.Machine.execQueueMonitorWake s
  | .queueRescan => Sys2Proof.Machine.execQueueRescan s
  | .takeRecord => Sys2Proof.Machine.execTakeRecord s
  | .waitCounterRead => Sys2Proof.Machine.execWaitCounterRead s
  | .dispatch => Sys2Proof.Machine.execDispatch s
  | .placeTeam => Sys2Proof.Machine.execPlaceTeam s
  | .quantumDecision => Sys2Proof.Machine.execQuantumDecision s
  | .swapOut => Sys2Proof.Machine.execSwapOut s
  | .swapIn => Sys2Proof.Machine.execSwapIn s
  | .preempt => Sys2Proof.Machine.execPreempt s
  | .teamRetire => Sys2Proof.Machine.execTeamRetire s
  | .icFillComplete => Sys2Proof.Machine.execIcFillComplete s
  | .blockEntry => Sys2Proof.Machine.execBlockEntry s
  | .freezeEnd => Sys2Proof.Machine.execFreezeEnd s
  | .freezeTimeout => Sys2Proof.Machine.execFreezeTimeout s
  | .hangDetect => Sys2Proof.Machine.execHangDetect s
  | .trapEntry => Sys2Proof.Machine.execTrapEntry s
  | .queuedReply => Sys2Proof.Machine.execQueuedReply s
  | .queuedTimeout => Sys2Proof.Machine.execQueuedTimeout s
  | .engineCommandStart => Sys2Proof.Machine.execEngineCommandStart s
  | .engineCommandComplete => Sys2Proof.Machine.execEngineCommandComplete s
  | .versionMissComplete => Sys2Proof.Machine.execVersionMissComplete s
  | .versionMissTimeout => Sys2Proof.Machine.execVersionMissTimeout s
  | .copyCommandStart => Sys2Proof.Machine.execCopyCommandStart s
  | .copyCommandComplete => Sys2Proof.Machine.execCopyCommandComplete s
  | .copyTimeout => Sys2Proof.Machine.execCopyTimeout s
  | .tileStoreCommit => Sys2Proof.Machine.execTileStoreCommit s
  | .freeFrameRelease => Sys2Proof.Machine.execFreeFrameRelease s
  | .wakeatExpiry => Sys2Proof.Machine.execWakeatExpiry s
  | .yieldExpiry => Sys2Proof.Machine.execYieldExpiry s
  | .mwaitTimeout => Sys2Proof.Machine.execMwaitTimeout s
  | .hostKillRequest => Sys2Proof.Machine.execHostKillRequest s
  | .hostSyncRequest => Sys2Proof.Machine.execHostSyncRequest s
  | .hostMessagePost => Sys2Proof.Machine.execHostMessagePost s
  | .remoteRequest => Sys2Proof.Machine.execRemoteRequest s
  | .collectiveAbortFlit => Sys2Proof.Machine.execCollectiveAbortFlit s
  | .collectiveComplete => Sys2Proof.Machine.execCollectiveComplete s
  | .powerControlTick => Sys2Proof.Machine.execPowerControlTick s
  | .thermalLimit => Sys2Proof.Machine.execThermalLimit s
  | .wdogExpiry => Sys2Proof.Machine.execWdogExpiry s
  | .reset => Sys2Proof.Machine.execReset s
  | .blockingResultArrival => Sys2Proof.Machine.execBlockingResultArrival s
  | .collectiveFailure => Sys2Proof.Machine.execCollectiveFailure s
  | .spareMapChange => Sys2Proof.Machine.execSpareMapChange s
  | .fabricGroupWrite => Sys2Proof.Machine.execFabricGroupWrite s

end Machine
end Sys2Proof
end

