-- ==== Sys2Proof/Machine/Step.lean ====
section
/-! DEFINITION. One step of the machine: one row of the opcode table, or a turn in which no row happens (log 1). -/

namespace Sys2Proof.Machine

/-- The outcome of a row, the step's inputs cleared. -/
def after (o : Host.Outcome State Fault Refusal) : Host.Outcome State Fault Refusal :=
  match o with
  | .next s => .next s.finish
  | .fault f => .fault f
  | .refused r => .refused r

/-- One step. -/
def step (s : State) : Host.Outcome State Fault Refusal :=
  match s.plan with
  | .run i s => after (exec i s)
  | .quiet s => after (out s)
  | .cycle s => after (out s.tick)

/-- The state in which a word is the next to run: a live strand of its role stands at it (log 1). -/
def State.withFetchWord (s : State) (nbits w : Nat) : State := s.withWord (BitVec.ofNat 64 (w % 2 ^ nbits))

end Sys2Proof.Machine
end

