-- ==== Sys2Proof/Laws/Encode.lean ====
section
/-! SUPPORT. The fields of a packed word: what each field of the seven layouts reads back as. -/

namespace Sys2Proof

@[simp] theorem packR_fRole (h : Hdr) (opc : BitVec 8) (d a b c : BitVec 6) (fn : BitVec 20) : fRole (packR h opc d a b c fn) = h.role := by
  show @BitVec.extractLsb' (5+8+6+1+6+6+6+6+20) 59 5 (h.role ++ opc ++ h.g ++ BitVec.ofBool h.gn ++ d ++ a ++ b ++ c ++ fn) = _
  simp (disch := omega) only [BitVec.extractLsb'_append_eq_of_le]
  simp
@[simp] theorem packR_fOpc (h : Hdr) (opc : BitVec 8) (d a b c : BitVec 6) (fn : BitVec 20) : fOpc (packR h opc d a b c fn) = opc := by
  show @BitVec.extractLsb' (5+8+6+1+6+6+6+6+20) 51 8 (h.role ++ opc ++ h.g ++ BitVec.ofBool h.gn ++ d ++ a ++ b ++ c ++ fn) = _
  simp (disch := omega) only [BitVec.extractLsb'_append_eq_of_le, BitVec.extractLsb'_append_eq_of_add_le]
  simp
@[simp] theorem packR_fG (h : Hdr) (opc : BitVec 8) (d a b c : BitVec 6) (fn : BitVec 20) : fG (packR h opc d a b c fn) = h.g := by
  show @BitVec.extractLsb' (5+8+6+1+6+6+6+6+20) 45 6 (h.role ++ opc ++ h.g ++ BitVec.ofBool h.gn ++ d ++ a ++ b ++ c ++ fn) = _
  simp (disch := omega) only [BitVec.extractLsb'_append_eq_of_le, BitVec.extractLsb'_append_eq_of_add_le]
  simp
@[simp] theorem packR_fGn (h : Hdr) (opc : BitVec 8) (d a b c : BitVec 6) (fn : BitVec 20) : fGn (packR h opc d a b c fn) = BitVec.ofBool h.gn := by
  show @BitVec.extractLsb' (5+8+6+1+6+6+6+6+20) 44 1 (h.role ++ opc ++ h.g ++ BitVec.ofBool h.gn ++ d ++ a ++ b ++ c ++ fn) = _
  simp (disch := omega) only [BitVec.extractLsb'_append_eq_of_le, BitVec.extractLsb'_append_eq_of_add_le]
  simp
@[simp] theorem packR_fD (h : Hdr) (opc : BitVec 8) (d a b c : BitVec 6) (fn : BitVec 20) : fD (packR h opc d a b c fn) = d := by
  show @BitVec.extractLsb' (5+8+6+1+6+6+6+6+20) 38 6 (h.role ++ opc ++ h.g ++ BitVec.ofBool h.gn ++ d ++ a ++ b ++ c ++ fn) = _
  simp (disch := omega) only [BitVec.extractLsb'_append_eq_of_le, BitVec.extractLsb'_append_eq_of_add_le]
  simp
@[simp] theorem packR_fA (h : Hdr) (opc : BitVec 8) (d a b c : BitVec 6) (fn : BitVec 20) : fA (packR h opc d a b c fn) = a := by
  show @BitVec.extractLsb' (5+8+6+1+6+6+6+6+20) 32 6 (h.role ++ opc ++ h.g ++ BitVec.ofBool h.gn ++ d ++ a ++ b ++ c ++ fn) = _
  simp (disch := omega) only [BitVec.extractLsb'_append_eq_of_le, BitVec.extractLsb'_append_eq_of_add_le]
  simp
@[simp] theorem packR_fB (h : Hdr) (opc : BitVec 8) (d a b c : BitVec 6) (fn : BitVec 20) : fB (packR h opc d a b c fn) = b := by
  show @BitVec.extractLsb' (5+8+6+1+6+6+6+6+20) 26 6 (h.role ++ opc ++ h.g ++ BitVec.ofBool h.gn ++ d ++ a ++ b ++ c ++ fn) = _
  simp (disch := omega) only [BitVec.extractLsb'_append_eq_of_le, BitVec.extractLsb'_append_eq_of_add_le]
  simp
@[simp] theorem packR_fC (h : Hdr) (opc : BitVec 8) (d a b c : BitVec 6) (fn : BitVec 20) : fC (packR h opc d a b c fn) = c := by
  show @BitVec.extractLsb' (5+8+6+1+6+6+6+6+20) 20 6 (h.role ++ opc ++ h.g ++ BitVec.ofBool h.gn ++ d ++ a ++ b ++ c ++ fn) = _
  simp (disch := omega) only [BitVec.extractLsb'_append_eq_of_le, BitVec.extractLsb'_append_eq_of_add_le]
  simp
@[simp] theorem packR_fFn (h : Hdr) (opc : BitVec 8) (d a b c : BitVec 6) (fn : BitVec 20) : fFn (packR h opc d a b c fn) = fn := by
  show @BitVec.extractLsb' (5+8+6+1+6+6+6+6+20) 0 20 (h.role ++ opc ++ h.g ++ BitVec.ofBool h.gn ++ d ++ a ++ b ++ c ++ fn) = _
  simp (disch := omega) only [BitVec.extractLsb'_append_eq_of_add_le]
  simp
theorem packR_bits (h : Hdr) (opc : BitVec 8) (d a b c : BitVec 6) (fn : BitVec 20) (lo len : Nat) (hl : lo + len ≤ 20) : bits (packR h opc d a b c fn) lo len = bits fn lo len := by
  show @BitVec.extractLsb' (5+8+6+1+6+6+6+6+20) lo len (h.role ++ opc ++ h.g ++ BitVec.ofBool h.gn ++ d ++ a ++ b ++ c ++ fn) = _
  simp (disch := omega) only [BitVec.extractLsb'_append_eq_of_add_le, bits]
theorem packR_bit (h : Hdr) (opc : BitVec 8) (d a b c : BitVec 6) (fn : BitVec 20) (i : Nat) (hi : i < 20) : bit (packR h opc d a b c fn) i = bit fn i := by
  show @BitVec.getLsbD (5+8+6+1+6+6+6+6+20) (h.role ++ opc ++ h.g ++ BitVec.ofBool h.gn ++ d ++ a ++ b ++ c ++ fn) i = _
  simp only [bit, BitVec.getLsbD_append, hi, if_true]

@[simp] theorem packI_fRole (h : Hdr) (opc : BitVec 8) (d a : BitVec 6) (imm : BitVec 32) : fRole (packI h opc d a imm) = h.role := by
  show @BitVec.extractLsb' (5+8+6+1+6+6+32) 59 5 (h.role ++ opc ++ h.g ++ BitVec.ofBool h.gn ++ d ++ a ++ imm) = _
  simp (disch := omega) only [BitVec.extractLsb'_append_eq_of_le]
  simp
@[simp] theorem packI_fOpc (h : Hdr) (opc : BitVec 8) (d a : BitVec 6) (imm : BitVec 32) : fOpc (packI h opc d a imm) = opc := by
  show @BitVec.extractLsb' (5+8+6+1+6+6+32) 51 8 (h.role ++ opc ++ h.g ++ BitVec.ofBool h.gn ++ d ++ a ++ imm) = _
  simp (disch := omega) only [BitVec.extractLsb'_append_eq_of_le, BitVec.extractLsb'_append_eq_of_add_le]
  simp
@[simp] theorem packI_fG (h : Hdr) (opc : BitVec 8) (d a : BitVec 6) (imm : BitVec 32) : fG (packI h opc d a imm) = h.g := by
  show @BitVec.extractLsb' (5+8+6+1+6+6+32) 45 6 (h.role ++ opc ++ h.g ++ BitVec.ofBool h.gn ++ d ++ a ++ imm) = _
  simp (disch := omega) only [BitVec.extractLsb'_append_eq_of_le, BitVec.extractLsb'_append_eq_of_add_le]
  simp
@[simp] theorem packI_fGn (h : Hdr) (opc : BitVec 8) (d a : BitVec 6) (imm : BitVec 32) : fGn (packI h opc d a imm) = BitVec.ofBool h.gn := by
  show @BitVec.extractLsb' (5+8+6+1+6+6+32) 44 1 (h.role ++ opc ++ h.g ++ BitVec.ofBool h.gn ++ d ++ a ++ imm) = _
  simp (disch := omega) only [BitVec.extractLsb'_append_eq_of_le, BitVec.extractLsb'_append_eq_of_add_le]
  simp
@[simp] theorem packI_fD (h : Hdr) (opc : BitVec 8) (d a : BitVec 6) (imm : BitVec 32) : fD (packI h opc d a imm) = d := by
  show @BitVec.extractLsb' (5+8+6+1+6+6+32) 38 6 (h.role ++ opc ++ h.g ++ BitVec.ofBool h.gn ++ d ++ a ++ imm) = _
  simp (disch := omega) only [BitVec.extractLsb'_append_eq_of_le, BitVec.extractLsb'_append_eq_of_add_le]
  simp
@[simp] theorem packI_fA (h : Hdr) (opc : BitVec 8) (d a : BitVec 6) (imm : BitVec 32) : fA (packI h opc d a imm) = a := by
  show @BitVec.extractLsb' (5+8+6+1+6+6+32) 32 6 (h.role ++ opc ++ h.g ++ BitVec.ofBool h.gn ++ d ++ a ++ imm) = _
  simp (disch := omega) only [BitVec.extractLsb'_append_eq_of_le, BitVec.extractLsb'_append_eq_of_add_le]
  simp
@[simp] theorem packI_fImm (h : Hdr) (opc : BitVec 8) (d a : BitVec 6) (imm : BitVec 32) : fImm (packI h opc d a imm) = imm := by
  show @BitVec.extractLsb' (5+8+6+1+6+6+32) 0 32 (h.role ++ opc ++ h.g ++ BitVec.ofBool h.gn ++ d ++ a ++ imm) = _
  simp (disch := omega) only [BitVec.extractLsb'_append_eq_of_add_le]
  simp
theorem packI_bits (h : Hdr) (opc : BitVec 8) (d a : BitVec 6) (imm : BitVec 32) (lo len : Nat) (hl : lo + len ≤ 32) : bits (packI h opc d a imm) lo len = bits imm lo len := by
  show @BitVec.extractLsb' (5+8+6+1+6+6+32) lo len (h.role ++ opc ++ h.g ++ BitVec.ofBool h.gn ++ d ++ a ++ imm) = _
  simp (disch := omega) only [BitVec.extractLsb'_append_eq_of_add_le, bits]
theorem packI_bit (h : Hdr) (opc : BitVec 8) (d a : BitVec 6) (imm : BitVec 32) (i : Nat) (hi : i < 32) : bit (packI h opc d a imm) i = bit imm i := by
  show @BitVec.getLsbD (5+8+6+1+6+6+32) (h.role ++ opc ++ h.g ++ BitVec.ofBool h.gn ++ d ++ a ++ imm) i = _
  simp only [bit, BitVec.getLsbD_append, hi, if_true]

@[simp] theorem packM_fRole (h : Hdr) (opc : BitVec 8) (d a b : BitVec 6) (sc sz : BitVec 3) (off : BitVec 20) : fRole (packM h opc d a b sc sz off) = h.role := by
  show @BitVec.extractLsb' (5+8+6+1+6+6+6+3+3+20) 59 5 (h.role ++ opc ++ h.g ++ BitVec.ofBool h.gn ++ d ++ a ++ b ++ sc ++ sz ++ off) = _
  simp (disch := omega) only [BitVec.extractLsb'_append_eq_of_le]
  simp
@[simp] theorem packM_fOpc (h : Hdr) (opc : BitVec 8) (d a b : BitVec 6) (sc sz : BitVec 3) (off : BitVec 20) : fOpc (packM h opc d a b sc sz off) = opc := by
  show @BitVec.extractLsb' (5+8+6+1+6+6+6+3+3+20) 51 8 (h.role ++ opc ++ h.g ++ BitVec.ofBool h.gn ++ d ++ a ++ b ++ sc ++ sz ++ off) = _
  simp (disch := omega) only [BitVec.extractLsb'_append_eq_of_le, BitVec.extractLsb'_append_eq_of_add_le]
  simp
@[simp] theorem packM_fG (h : Hdr) (opc : BitVec 8) (d a b : BitVec 6) (sc sz : BitVec 3) (off : BitVec 20) : fG (packM h opc d a b sc sz off) = h.g := by
  show @BitVec.extractLsb' (5+8+6+1+6+6+6+3+3+20) 45 6 (h.role ++ opc ++ h.g ++ BitVec.ofBool h.gn ++ d ++ a ++ b ++ sc ++ sz ++ off) = _
  simp (disch := omega) only [BitVec.extractLsb'_append_eq_of_le, BitVec.extractLsb'_append_eq_of_add_le]
  simp
@[simp] theorem packM_fGn (h : Hdr) (opc : BitVec 8) (d a b : BitVec 6) (sc sz : BitVec 3) (off : BitVec 20) : fGn (packM h opc d a b sc sz off) = BitVec.ofBool h.gn := by
  show @BitVec.extractLsb' (5+8+6+1+6+6+6+3+3+20) 44 1 (h.role ++ opc ++ h.g ++ BitVec.ofBool h.gn ++ d ++ a ++ b ++ sc ++ sz ++ off) = _
  simp (disch := omega) only [BitVec.extractLsb'_append_eq_of_le, BitVec.extractLsb'_append_eq_of_add_le]
  simp
@[simp] theorem packM_fD (h : Hdr) (opc : BitVec 8) (d a b : BitVec 6) (sc sz : BitVec 3) (off : BitVec 20) : fD (packM h opc d a b sc sz off) = d := by
  show @BitVec.extractLsb' (5+8+6+1+6+6+6+3+3+20) 38 6 (h.role ++ opc ++ h.g ++ BitVec.ofBool h.gn ++ d ++ a ++ b ++ sc ++ sz ++ off) = _
  simp (disch := omega) only [BitVec.extractLsb'_append_eq_of_le, BitVec.extractLsb'_append_eq_of_add_le]
  simp
@[simp] theorem packM_fA (h : Hdr) (opc : BitVec 8) (d a b : BitVec 6) (sc sz : BitVec 3) (off : BitVec 20) : fA (packM h opc d a b sc sz off) = a := by
  show @BitVec.extractLsb' (5+8+6+1+6+6+6+3+3+20) 32 6 (h.role ++ opc ++ h.g ++ BitVec.ofBool h.gn ++ d ++ a ++ b ++ sc ++ sz ++ off) = _
  simp (disch := omega) only [BitVec.extractLsb'_append_eq_of_le, BitVec.extractLsb'_append_eq_of_add_le]
  simp
@[simp] theorem packM_fB (h : Hdr) (opc : BitVec 8) (d a b : BitVec 6) (sc sz : BitVec 3) (off : BitVec 20) : fB (packM h opc d a b sc sz off) = b := by
  show @BitVec.extractLsb' (5+8+6+1+6+6+6+3+3+20) 26 6 (h.role ++ opc ++ h.g ++ BitVec.ofBool h.gn ++ d ++ a ++ b ++ sc ++ sz ++ off) = _
  simp (disch := omega) only [BitVec.extractLsb'_append_eq_of_le, BitVec.extractLsb'_append_eq_of_add_le]
  simp
@[simp] theorem packM_fSc (h : Hdr) (opc : BitVec 8) (d a b : BitVec 6) (sc sz : BitVec 3) (off : BitVec 20) : fSc (packM h opc d a b sc sz off) = sc := by
  show @BitVec.extractLsb' (5+8+6+1+6+6+6+3+3+20) 23 3 (h.role ++ opc ++ h.g ++ BitVec.ofBool h.gn ++ d ++ a ++ b ++ sc ++ sz ++ off) = _
  simp (disch := omega) only [BitVec.extractLsb'_append_eq_of_le, BitVec.extractLsb'_append_eq_of_add_le]
  simp
@[simp] theorem packM_fSz (h : Hdr) (opc : BitVec 8) (d a b : BitVec 6) (sc sz : BitVec 3) (off : BitVec 20) : fSz (packM h opc d a b sc sz off) = sz := by
  show @BitVec.extractLsb' (5+8+6+1+6+6+6+3+3+20) 20 3 (h.role ++ opc ++ h.g ++ BitVec.ofBool h.gn ++ d ++ a ++ b ++ sc ++ sz ++ off) = _
  simp (disch := omega) only [BitVec.extractLsb'_append_eq_of_le, BitVec.extractLsb'_append_eq_of_add_le]
  simp
@[simp] theorem packM_fOff (h : Hdr) (opc : BitVec 8) (d a b : BitVec 6) (sc sz : BitVec 3) (off : BitVec 20) : fOff (packM h opc d a b sc sz off) = off := by
  show @BitVec.extractLsb' (5+8+6+1+6+6+6+3+3+20) 0 20 (h.role ++ opc ++ h.g ++ BitVec.ofBool h.gn ++ d ++ a ++ b ++ sc ++ sz ++ off) = _
  simp (disch := omega) only [BitVec.extractLsb'_append_eq_of_add_le]
  simp
theorem packM_bits (h : Hdr) (opc : BitVec 8) (d a b : BitVec 6) (sc sz : BitVec 3) (off : BitVec 20) (lo len : Nat) (hl : lo + len ≤ 20) : bits (packM h opc d a b sc sz off) lo len = bits off lo len := by
  show @BitVec.extractLsb' (5+8+6+1+6+6+6+3+3+20) lo len (h.role ++ opc ++ h.g ++ BitVec.ofBool h.gn ++ d ++ a ++ b ++ sc ++ sz ++ off) = _
  simp (disch := omega) only [BitVec.extractLsb'_append_eq_of_add_le, bits]
theorem packM_bit (h : Hdr) (opc : BitVec 8) (d a b : BitVec 6) (sc sz : BitVec 3) (off : BitVec 20) (i : Nat) (hi : i < 20) : bit (packM h opc d a b sc sz off) i = bit off i := by
  show @BitVec.getLsbD (5+8+6+1+6+6+6+3+3+20) (h.role ++ opc ++ h.g ++ BitVec.ofBool h.gn ++ d ++ a ++ b ++ sc ++ sz ++ off) i = _
  simp only [bit, BitVec.getLsbD_append, hi, if_true]

@[simp] theorem packB_fRole (h : Hdr) (opc : BitVec 8) (d a : BitVec 6) (slot : BitVec 3) (boff : BitVec 20) : fRole (packB h opc d a slot boff) = h.role := by
  show @BitVec.extractLsb' (5+8+6+1+6+6+9+3+20) 59 5 (h.role ++ opc ++ h.g ++ BitVec.ofBool h.gn ++ d ++ a ++ (0#9) ++ slot ++ boff) = _
  simp (disch := omega) only [BitVec.extractLsb'_append_eq_of_le]
  simp
@[simp] theorem packB_fOpc (h : Hdr) (opc : BitVec 8) (d a : BitVec 6) (slot : BitVec 3) (boff : BitVec 20) : fOpc (packB h opc d a slot boff) = opc := by
  show @BitVec.extractLsb' (5+8+6+1+6+6+9+3+20) 51 8 (h.role ++ opc ++ h.g ++ BitVec.ofBool h.gn ++ d ++ a ++ (0#9) ++ slot ++ boff) = _
  simp (disch := omega) only [BitVec.extractLsb'_append_eq_of_le, BitVec.extractLsb'_append_eq_of_add_le]
  simp
@[simp] theorem packB_fG (h : Hdr) (opc : BitVec 8) (d a : BitVec 6) (slot : BitVec 3) (boff : BitVec 20) : fG (packB h opc d a slot boff) = h.g := by
  show @BitVec.extractLsb' (5+8+6+1+6+6+9+3+20) 45 6 (h.role ++ opc ++ h.g ++ BitVec.ofBool h.gn ++ d ++ a ++ (0#9) ++ slot ++ boff) = _
  simp (disch := omega) only [BitVec.extractLsb'_append_eq_of_le, BitVec.extractLsb'_append_eq_of_add_le]
  simp
@[simp] theorem packB_fGn (h : Hdr) (opc : BitVec 8) (d a : BitVec 6) (slot : BitVec 3) (boff : BitVec 20) : fGn (packB h opc d a slot boff) = BitVec.ofBool h.gn := by
  show @BitVec.extractLsb' (5+8+6+1+6+6+9+3+20) 44 1 (h.role ++ opc ++ h.g ++ BitVec.ofBool h.gn ++ d ++ a ++ (0#9) ++ slot ++ boff) = _
  simp (disch := omega) only [BitVec.extractLsb'_append_eq_of_le, BitVec.extractLsb'_append_eq_of_add_le]
  simp
@[simp] theorem packB_fD (h : Hdr) (opc : BitVec 8) (d a : BitVec 6) (slot : BitVec 3) (boff : BitVec 20) : fD (packB h opc d a slot boff) = d := by
  show @BitVec.extractLsb' (5+8+6+1+6+6+9+3+20) 38 6 (h.role ++ opc ++ h.g ++ BitVec.ofBool h.gn ++ d ++ a ++ (0#9) ++ slot ++ boff) = _
  simp (disch := omega) only [BitVec.extractLsb'_append_eq_of_le, BitVec.extractLsb'_append_eq_of_add_le]
  simp
@[simp] theorem packB_fA (h : Hdr) (opc : BitVec 8) (d a : BitVec 6) (slot : BitVec 3) (boff : BitVec 20) : fA (packB h opc d a slot boff) = a := by
  show @BitVec.extractLsb' (5+8+6+1+6+6+9+3+20) 32 6 (h.role ++ opc ++ h.g ++ BitVec.ofBool h.gn ++ d ++ a ++ (0#9) ++ slot ++ boff) = _
  simp (disch := omega) only [BitVec.extractLsb'_append_eq_of_le, BitVec.extractLsb'_append_eq_of_add_le]
  simp
@[simp] theorem packB_fBRes (h : Hdr) (opc : BitVec 8) (d a : BitVec 6) (slot : BitVec 3) (boff : BitVec 20) : fBRes (packB h opc d a slot boff) = (0#9) := by
  show @BitVec.extractLsb' (5+8+6+1+6+6+9+3+20) 23 9 (h.role ++ opc ++ h.g ++ BitVec.ofBool h.gn ++ d ++ a ++ (0#9) ++ slot ++ boff) = _
  simp (disch := omega) only [BitVec.extractLsb'_append_eq_of_le, BitVec.extractLsb'_append_eq_of_add_le]
  simp
@[simp] theorem packB_fSlot (h : Hdr) (opc : BitVec 8) (d a : BitVec 6) (slot : BitVec 3) (boff : BitVec 20) : fSlot (packB h opc d a slot boff) = slot := by
  show @BitVec.extractLsb' (5+8+6+1+6+6+9+3+20) 20 3 (h.role ++ opc ++ h.g ++ BitVec.ofBool h.gn ++ d ++ a ++ (0#9) ++ slot ++ boff) = _
  simp (disch := omega) only [BitVec.extractLsb'_append_eq_of_le, BitVec.extractLsb'_append_eq_of_add_le]
  simp
@[simp] theorem packB_fOff (h : Hdr) (opc : BitVec 8) (d a : BitVec 6) (slot : BitVec 3) (boff : BitVec 20) : fOff (packB h opc d a slot boff) = boff := by
  show @BitVec.extractLsb' (5+8+6+1+6+6+9+3+20) 0 20 (h.role ++ opc ++ h.g ++ BitVec.ofBool h.gn ++ d ++ a ++ (0#9) ++ slot ++ boff) = _
  simp (disch := omega) only [BitVec.extractLsb'_append_eq_of_add_le]
  simp
theorem packB_bits (h : Hdr) (opc : BitVec 8) (d a : BitVec 6) (slot : BitVec 3) (boff : BitVec 20) (lo len : Nat) (hl : lo + len ≤ 20) : bits (packB h opc d a slot boff) lo len = bits boff lo len := by
  show @BitVec.extractLsb' (5+8+6+1+6+6+9+3+20) lo len (h.role ++ opc ++ h.g ++ BitVec.ofBool h.gn ++ d ++ a ++ (0#9) ++ slot ++ boff) = _
  simp (disch := omega) only [BitVec.extractLsb'_append_eq_of_add_le, bits]
theorem packB_bit (h : Hdr) (opc : BitVec 8) (d a : BitVec 6) (slot : BitVec 3) (boff : BitVec 20) (i : Nat) (hi : i < 20) : bit (packB h opc d a slot boff) i = bit boff i := by
  show @BitVec.getLsbD (5+8+6+1+6+6+9+3+20) (h.role ++ opc ++ h.g ++ BitVec.ofBool h.gn ++ d ++ a ++ (0#9) ++ slot ++ boff) i = _
  simp only [bit, BitVec.getLsbD_append, hi, if_true]

@[simp] theorem packT_fRole (h : Hdr) (opc : BitVec 8) (ta tb : BitVec 3) (acc : BitVec 2) (reg : BitVec 6) (sl : BitVec 2 × BitVec 6 × BitVec 7) (fn : BitVec 15) : fRole (packT h opc ta tb acc reg sl fn) = h.role := by
  show @BitVec.extractLsb' (5+8+6+1+3+3+2+6+2+6+7+15) 59 5 (h.role ++ opc ++ h.g ++ BitVec.ofBool h.gn ++ ta ++ tb ++ acc ++ reg ++ sl.1 ++ sl.2.1 ++ sl.2.2 ++ fn) = _
  simp (disch := omega) only [BitVec.extractLsb'_append_eq_of_le]
  simp
@[simp] theorem packT_fOpc (h : Hdr) (opc : BitVec 8) (ta tb : BitVec 3) (acc : BitVec 2) (reg : BitVec 6) (sl : BitVec 2 × BitVec 6 × BitVec 7) (fn : BitVec 15) : fOpc (packT h opc ta tb acc reg sl fn) = opc := by
  show @BitVec.extractLsb' (5+8+6+1+3+3+2+6+2+6+7+15) 51 8 (h.role ++ opc ++ h.g ++ BitVec.ofBool h.gn ++ ta ++ tb ++ acc ++ reg ++ sl.1 ++ sl.2.1 ++ sl.2.2 ++ fn) = _
  simp (disch := omega) only [BitVec.extractLsb'_append_eq_of_le, BitVec.extractLsb'_append_eq_of_add_le]
  simp
@[simp] theorem packT_fG (h : Hdr) (opc : BitVec 8) (ta tb : BitVec 3) (acc : BitVec 2) (reg : BitVec 6) (sl : BitVec 2 × BitVec 6 × BitVec 7) (fn : BitVec 15) : fG (packT h opc ta tb acc reg sl fn) = h.g := by
  show @BitVec.extractLsb' (5+8+6+1+3+3+2+6+2+6+7+15) 45 6 (h.role ++ opc ++ h.g ++ BitVec.ofBool h.gn ++ ta ++ tb ++ acc ++ reg ++ sl.1 ++ sl.2.1 ++ sl.2.2 ++ fn) = _
  simp (disch := omega) only [BitVec.extractLsb'_append_eq_of_le, BitVec.extractLsb'_append_eq_of_add_le]
  simp
@[simp] theorem packT_fGn (h : Hdr) (opc : BitVec 8) (ta tb : BitVec 3) (acc : BitVec 2) (reg : BitVec 6) (sl : BitVec 2 × BitVec 6 × BitVec 7) (fn : BitVec 15) : fGn (packT h opc ta tb acc reg sl fn) = BitVec.ofBool h.gn := by
  show @BitVec.extractLsb' (5+8+6+1+3+3+2+6+2+6+7+15) 44 1 (h.role ++ opc ++ h.g ++ BitVec.ofBool h.gn ++ ta ++ tb ++ acc ++ reg ++ sl.1 ++ sl.2.1 ++ sl.2.2 ++ fn) = _
  simp (disch := omega) only [BitVec.extractLsb'_append_eq_of_le, BitVec.extractLsb'_append_eq_of_add_le]
  simp
@[simp] theorem packT_fTa (h : Hdr) (opc : BitVec 8) (ta tb : BitVec 3) (acc : BitVec 2) (reg : BitVec 6) (sl : BitVec 2 × BitVec 6 × BitVec 7) (fn : BitVec 15) : fTa (packT h opc ta tb acc reg sl fn) = ta := by
  show @BitVec.extractLsb' (5+8+6+1+3+3+2+6+2+6+7+15) 41 3 (h.role ++ opc ++ h.g ++ BitVec.ofBool h.gn ++ ta ++ tb ++ acc ++ reg ++ sl.1 ++ sl.2.1 ++ sl.2.2 ++ fn) = _
  simp (disch := omega) only [BitVec.extractLsb'_append_eq_of_le, BitVec.extractLsb'_append_eq_of_add_le]
  simp
@[simp] theorem packT_fTb (h : Hdr) (opc : BitVec 8) (ta tb : BitVec 3) (acc : BitVec 2) (reg : BitVec 6) (sl : BitVec 2 × BitVec 6 × BitVec 7) (fn : BitVec 15) : fTb (packT h opc ta tb acc reg sl fn) = tb := by
  show @BitVec.extractLsb' (5+8+6+1+3+3+2+6+2+6+7+15) 38 3 (h.role ++ opc ++ h.g ++ BitVec.ofBool h.gn ++ ta ++ tb ++ acc ++ reg ++ sl.1 ++ sl.2.1 ++ sl.2.2 ++ fn) = _
  simp (disch := omega) only [BitVec.extractLsb'_append_eq_of_le, BitVec.extractLsb'_append_eq_of_add_le]
  simp
@[simp] theorem packT_fAcc (h : Hdr) (opc : BitVec 8) (ta tb : BitVec 3) (acc : BitVec 2) (reg : BitVec 6) (sl : BitVec 2 × BitVec 6 × BitVec 7) (fn : BitVec 15) : fAcc (packT h opc ta tb acc reg sl fn) = acc := by
  show @BitVec.extractLsb' (5+8+6+1+3+3+2+6+2+6+7+15) 36 2 (h.role ++ opc ++ h.g ++ BitVec.ofBool h.gn ++ ta ++ tb ++ acc ++ reg ++ sl.1 ++ sl.2.1 ++ sl.2.2 ++ fn) = _
  simp (disch := omega) only [BitVec.extractLsb'_append_eq_of_le, BitVec.extractLsb'_append_eq_of_add_le]
  simp
@[simp] theorem packT_fReg (h : Hdr) (opc : BitVec 8) (ta tb : BitVec 3) (acc : BitVec 2) (reg : BitVec 6) (sl : BitVec 2 × BitVec 6 × BitVec 7) (fn : BitVec 15) : fReg (packT h opc ta tb acc reg sl fn) = reg := by
  show @BitVec.extractLsb' (5+8+6+1+3+3+2+6+2+6+7+15) 30 6 (h.role ++ opc ++ h.g ++ BitVec.ofBool h.gn ++ ta ++ tb ++ acc ++ reg ++ sl.1 ++ sl.2.1 ++ sl.2.2 ++ fn) = _
  simp (disch := omega) only [BitVec.extractLsb'_append_eq_of_le, BitVec.extractLsb'_append_eq_of_add_le]
  simp
@[simp] theorem packT_fSel (h : Hdr) (opc : BitVec 8) (ta tb : BitVec 3) (acc : BitVec 2) (reg : BitVec 6) (sl : BitVec 2 × BitVec 6 × BitVec 7) (fn : BitVec 15) : fSel (packT h opc ta tb acc reg sl fn) = sl.1 := by
  show @BitVec.extractLsb' (5+8+6+1+3+3+2+6+2+6+7+15) 28 2 (h.role ++ opc ++ h.g ++ BitVec.ofBool h.gn ++ ta ++ tb ++ acc ++ reg ++ sl.1 ++ sl.2.1 ++ sl.2.2 ++ fn) = _
  simp (disch := omega) only [BitVec.extractLsb'_append_eq_of_le, BitVec.extractLsb'_append_eq_of_add_le]
  simp
@[simp] theorem packT_fXs (h : Hdr) (opc : BitVec 8) (ta tb : BitVec 3) (acc : BitVec 2) (reg : BitVec 6) (sl : BitVec 2 × BitVec 6 × BitVec 7) (fn : BitVec 15) : fXs (packT h opc ta tb acc reg sl fn) = sl.2.1 := by
  show @BitVec.extractLsb' (5+8+6+1+3+3+2+6+2+6+7+15) 22 6 (h.role ++ opc ++ h.g ++ BitVec.ofBool h.gn ++ ta ++ tb ++ acc ++ reg ++ sl.1 ++ sl.2.1 ++ sl.2.2 ++ fn) = _
  simp (disch := omega) only [BitVec.extractLsb'_append_eq_of_le, BitVec.extractLsb'_append_eq_of_add_le]
  simp
@[simp] theorem packT_fXimm (h : Hdr) (opc : BitVec 8) (ta tb : BitVec 3) (acc : BitVec 2) (reg : BitVec 6) (sl : BitVec 2 × BitVec 6 × BitVec 7) (fn : BitVec 15) : fXimm (packT h opc ta tb acc reg sl fn) = sl.2.2 := by
  show @BitVec.extractLsb' (5+8+6+1+3+3+2+6+2+6+7+15) 15 7 (h.role ++ opc ++ h.g ++ BitVec.ofBool h.gn ++ ta ++ tb ++ acc ++ reg ++ sl.1 ++ sl.2.1 ++ sl.2.2 ++ fn) = _
  simp (disch := omega) only [BitVec.extractLsb'_append_eq_of_le, BitVec.extractLsb'_append_eq_of_add_le]
  simp
theorem packT_bits (h : Hdr) (opc : BitVec 8) (ta tb : BitVec 3) (acc : BitVec 2) (reg : BitVec 6) (sl : BitVec 2 × BitVec 6 × BitVec 7) (fn : BitVec 15) (lo len : Nat) (hl : lo + len ≤ 15) : bits (packT h opc ta tb acc reg sl fn) lo len = bits fn lo len := by
  show @BitVec.extractLsb' (5+8+6+1+3+3+2+6+2+6+7+15) lo len (h.role ++ opc ++ h.g ++ BitVec.ofBool h.gn ++ ta ++ tb ++ acc ++ reg ++ sl.1 ++ sl.2.1 ++ sl.2.2 ++ fn) = _
  simp (disch := omega) only [BitVec.extractLsb'_append_eq_of_add_le, bits]
theorem packT_bit (h : Hdr) (opc : BitVec 8) (ta tb : BitVec 3) (acc : BitVec 2) (reg : BitVec 6) (sl : BitVec 2 × BitVec 6 × BitVec 7) (fn : BitVec 15) (i : Nat) (hi : i < 15) : bit (packT h opc ta tb acc reg sl fn) i = bit fn i := by
  show @BitVec.getLsbD (5+8+6+1+3+3+2+6+2+6+7+15) (h.role ++ opc ++ h.g ++ BitVec.ofBool h.gn ++ ta ++ tb ++ acc ++ reg ++ sl.1 ++ sl.2.1 ++ sl.2.2 ++ fn) i = _
  simp only [bit, BitVec.getLsbD_append, hi, if_true]

@[simp] theorem packX_fRole (h : Hdr) (opc : BitVec 8) (d : BitVec 6) (x : BitVec 3) (nr : BitVec 5) (t w : BitVec 3) (fn : BitVec 21) : fRole (packX h opc d x nr t w fn) = h.role := by
  show @BitVec.extractLsb' (5+8+6+1+6+3+3+5+3+3+21) 59 5 (h.role ++ opc ++ h.g ++ BitVec.ofBool h.gn ++ d ++ x ++ (0#3) ++ nr ++ t ++ w ++ fn) = _
  simp (disch := omega) only [BitVec.extractLsb'_append_eq_of_le]
  simp
@[simp] theorem packX_fOpc (h : Hdr) (opc : BitVec 8) (d : BitVec 6) (x : BitVec 3) (nr : BitVec 5) (t w : BitVec 3) (fn : BitVec 21) : fOpc (packX h opc d x nr t w fn) = opc := by
  show @BitVec.extractLsb' (5+8+6+1+6+3+3+5+3+3+21) 51 8 (h.role ++ opc ++ h.g ++ BitVec.ofBool h.gn ++ d ++ x ++ (0#3) ++ nr ++ t ++ w ++ fn) = _
  simp (disch := omega) only [BitVec.extractLsb'_append_eq_of_le, BitVec.extractLsb'_append_eq_of_add_le]
  simp
@[simp] theorem packX_fG (h : Hdr) (opc : BitVec 8) (d : BitVec 6) (x : BitVec 3) (nr : BitVec 5) (t w : BitVec 3) (fn : BitVec 21) : fG (packX h opc d x nr t w fn) = h.g := by
  show @BitVec.extractLsb' (5+8+6+1+6+3+3+5+3+3+21) 45 6 (h.role ++ opc ++ h.g ++ BitVec.ofBool h.gn ++ d ++ x ++ (0#3) ++ nr ++ t ++ w ++ fn) = _
  simp (disch := omega) only [BitVec.extractLsb'_append_eq_of_le, BitVec.extractLsb'_append_eq_of_add_le]
  simp
@[simp] theorem packX_fGn (h : Hdr) (opc : BitVec 8) (d : BitVec 6) (x : BitVec 3) (nr : BitVec 5) (t w : BitVec 3) (fn : BitVec 21) : fGn (packX h opc d x nr t w fn) = BitVec.ofBool h.gn := by
  show @BitVec.extractLsb' (5+8+6+1+6+3+3+5+3+3+21) 44 1 (h.role ++ opc ++ h.g ++ BitVec.ofBool h.gn ++ d ++ x ++ (0#3) ++ nr ++ t ++ w ++ fn) = _
  simp (disch := omega) only [BitVec.extractLsb'_append_eq_of_le, BitVec.extractLsb'_append_eq_of_add_le]
  simp
@[simp] theorem packX_fD (h : Hdr) (opc : BitVec 8) (d : BitVec 6) (x : BitVec 3) (nr : BitVec 5) (t w : BitVec 3) (fn : BitVec 21) : fD (packX h opc d x nr t w fn) = d := by
  show @BitVec.extractLsb' (5+8+6+1+6+3+3+5+3+3+21) 38 6 (h.role ++ opc ++ h.g ++ BitVec.ofBool h.gn ++ d ++ x ++ (0#3) ++ nr ++ t ++ w ++ fn) = _
  simp (disch := omega) only [BitVec.extractLsb'_append_eq_of_le, BitVec.extractLsb'_append_eq_of_add_le]
  simp
@[simp] theorem packX_fXLow (h : Hdr) (opc : BitVec 8) (d : BitVec 6) (x : BitVec 3) (nr : BitVec 5) (t w : BitVec 3) (fn : BitVec 21) : fXLow (packX h opc d x nr t w fn) = (0#3) := by
  show @BitVec.extractLsb' (5+8+6+1+6+3+3+5+3+3+21) 32 3 (h.role ++ opc ++ h.g ++ BitVec.ofBool h.gn ++ d ++ x ++ (0#3) ++ nr ++ t ++ w ++ fn) = _
  simp (disch := omega) only [BitVec.extractLsb'_append_eq_of_le, BitVec.extractLsb'_append_eq_of_add_le]
  simp
@[simp] theorem packX_fXHi (h : Hdr) (opc : BitVec 8) (d : BitVec 6) (x : BitVec 3) (nr : BitVec 5) (t w : BitVec 3) (fn : BitVec 21) : fXHi (packX h opc d x nr t w fn) = x := by
  show @BitVec.extractLsb' (5+8+6+1+6+3+3+5+3+3+21) 35 3 (h.role ++ opc ++ h.g ++ BitVec.ofBool h.gn ++ d ++ x ++ (0#3) ++ nr ++ t ++ w ++ fn) = _
  simp (disch := omega) only [BitVec.extractLsb'_append_eq_of_le, BitVec.extractLsb'_append_eq_of_add_le]
  simp
@[simp] theorem packX_fNr (h : Hdr) (opc : BitVec 8) (d : BitVec 6) (x : BitVec 3) (nr : BitVec 5) (t w : BitVec 3) (fn : BitVec 21) : fNr (packX h opc d x nr t w fn) = nr := by
  show @BitVec.extractLsb' (5+8+6+1+6+3+3+5+3+3+21) 27 5 (h.role ++ opc ++ h.g ++ BitVec.ofBool h.gn ++ d ++ x ++ (0#3) ++ nr ++ t ++ w ++ fn) = _
  simp (disch := omega) only [BitVec.extractLsb'_append_eq_of_le, BitVec.extractLsb'_append_eq_of_add_le]
  simp
@[simp] theorem packX_fXT (h : Hdr) (opc : BitVec 8) (d : BitVec 6) (x : BitVec 3) (nr : BitVec 5) (t w : BitVec 3) (fn : BitVec 21) : fXT (packX h opc d x nr t w fn) = t := by
  show @BitVec.extractLsb' (5+8+6+1+6+3+3+5+3+3+21) 24 3 (h.role ++ opc ++ h.g ++ BitVec.ofBool h.gn ++ d ++ x ++ (0#3) ++ nr ++ t ++ w ++ fn) = _
  simp (disch := omega) only [BitVec.extractLsb'_append_eq_of_le, BitVec.extractLsb'_append_eq_of_add_le]
  simp
@[simp] theorem packX_fXW (h : Hdr) (opc : BitVec 8) (d : BitVec 6) (x : BitVec 3) (nr : BitVec 5) (t w : BitVec 3) (fn : BitVec 21) : fXW (packX h opc d x nr t w fn) = w := by
  show @BitVec.extractLsb' (5+8+6+1+6+3+3+5+3+3+21) 21 3 (h.role ++ opc ++ h.g ++ BitVec.ofBool h.gn ++ d ++ x ++ (0#3) ++ nr ++ t ++ w ++ fn) = _
  simp (disch := omega) only [BitVec.extractLsb'_append_eq_of_le, BitVec.extractLsb'_append_eq_of_add_le]
  simp
theorem packX_bits (h : Hdr) (opc : BitVec 8) (d : BitVec 6) (x : BitVec 3) (nr : BitVec 5) (t w : BitVec 3) (fn : BitVec 21) (lo len : Nat) (hl : lo + len ≤ 21) : bits (packX h opc d x nr t w fn) lo len = bits fn lo len := by
  show @BitVec.extractLsb' (5+8+6+1+6+3+3+5+3+3+21) lo len (h.role ++ opc ++ h.g ++ BitVec.ofBool h.gn ++ d ++ x ++ (0#3) ++ nr ++ t ++ w ++ fn) = _
  simp (disch := omega) only [BitVec.extractLsb'_append_eq_of_add_le, bits]
theorem packX_bit (h : Hdr) (opc : BitVec 8) (d : BitVec 6) (x : BitVec 3) (nr : BitVec 5) (t w : BitVec 3) (fn : BitVec 21) (i : Nat) (hi : i < 21) : bit (packX h opc d x nr t w fn) i = bit fn i := by
  show @BitVec.getLsbD (5+8+6+1+6+3+3+5+3+3+21) (h.role ++ opc ++ h.g ++ BitVec.ofBool h.gn ++ d ++ x ++ (0#3) ++ nr ++ t ++ w ++ fn) i = _
  simp only [bit, BitVec.getLsbD_append, hi, if_true]

@[simp] theorem packH_fRole (h : Hdr) (opc : BitVec 8) (d : BitVec 6) (frm tgt n : BitVec 4) : fRole (packH h opc d frm tgt n) = h.role := by
  show @BitVec.extractLsb' (5+8+6+1+6+1+4+1+4+4+24) 59 5 (h.role ++ opc ++ h.g ++ BitVec.ofBool h.gn ++ d ++ (0#1) ++ frm ++ (0#1) ++ tgt ++ n ++ (0#24)) = _
  simp (disch := omega) only [BitVec.extractLsb'_append_eq_of_le]
  simp
@[simp] theorem packH_fOpc (h : Hdr) (opc : BitVec 8) (d : BitVec 6) (frm tgt n : BitVec 4) : fOpc (packH h opc d frm tgt n) = opc := by
  show @BitVec.extractLsb' (5+8+6+1+6+1+4+1+4+4+24) 51 8 (h.role ++ opc ++ h.g ++ BitVec.ofBool h.gn ++ d ++ (0#1) ++ frm ++ (0#1) ++ tgt ++ n ++ (0#24)) = _
  simp (disch := omega) only [BitVec.extractLsb'_append_eq_of_le, BitVec.extractLsb'_append_eq_of_add_le]
  simp
@[simp] theorem packH_fG (h : Hdr) (opc : BitVec 8) (d : BitVec 6) (frm tgt n : BitVec 4) : fG (packH h opc d frm tgt n) = h.g := by
  show @BitVec.extractLsb' (5+8+6+1+6+1+4+1+4+4+24) 45 6 (h.role ++ opc ++ h.g ++ BitVec.ofBool h.gn ++ d ++ (0#1) ++ frm ++ (0#1) ++ tgt ++ n ++ (0#24)) = _
  simp (disch := omega) only [BitVec.extractLsb'_append_eq_of_le, BitVec.extractLsb'_append_eq_of_add_le]
  simp
@[simp] theorem packH_fGn (h : Hdr) (opc : BitVec 8) (d : BitVec 6) (frm tgt n : BitVec 4) : fGn (packH h opc d frm tgt n) = BitVec.ofBool h.gn := by
  show @BitVec.extractLsb' (5+8+6+1+6+1+4+1+4+4+24) 44 1 (h.role ++ opc ++ h.g ++ BitVec.ofBool h.gn ++ d ++ (0#1) ++ frm ++ (0#1) ++ tgt ++ n ++ (0#24)) = _
  simp (disch := omega) only [BitVec.extractLsb'_append_eq_of_le, BitVec.extractLsb'_append_eq_of_add_le]
  simp
@[simp] theorem packH_fD (h : Hdr) (opc : BitVec 8) (d : BitVec 6) (frm tgt n : BitVec 4) : fD (packH h opc d frm tgt n) = d := by
  show @BitVec.extractLsb' (5+8+6+1+6+1+4+1+4+4+24) 38 6 (h.role ++ opc ++ h.g ++ BitVec.ofBool h.gn ++ d ++ (0#1) ++ frm ++ (0#1) ++ tgt ++ n ++ (0#24)) = _
  simp (disch := omega) only [BitVec.extractLsb'_append_eq_of_le, BitVec.extractLsb'_append_eq_of_add_le]
  simp
@[simp] theorem packH_fFrom (h : Hdr) (opc : BitVec 8) (d : BitVec 6) (frm tgt n : BitVec 4) : fFrom (packH h opc d frm tgt n) = (0#1) ++ frm := by
  apply BitVec.eq_of_getLsbD_eq
  intro i hi
  show @BitVec.getLsbD 5 (@BitVec.extractLsb' (5+8+6+1+6+1+4+1+4+4+24) 33 5 (h.role ++ opc ++ h.g ++ BitVec.ofBool h.gn ++ d ++ (0#1) ++ frm ++ (0#1) ++ tgt ++ n ++ (0#24))) i = _
  simp only [BitVec.getLsbD_extractLsb', BitVec.getLsbD_append, hi, decide_true, Bool.true_and]
  have : i = 0 ∨ i = 1 ∨ i = 2 ∨ i = 3 ∨ i = 4 := by omega
  rcases this with rfl | rfl | rfl | rfl | rfl <;> simp
@[simp] theorem packH_fTo (h : Hdr) (opc : BitVec 8) (d : BitVec 6) (frm tgt n : BitVec 4) : fTo (packH h opc d frm tgt n) = (0#1) ++ tgt := by
  apply BitVec.eq_of_getLsbD_eq
  intro i hi
  show @BitVec.getLsbD 5 (@BitVec.extractLsb' (5+8+6+1+6+1+4+1+4+4+24) 28 5 (h.role ++ opc ++ h.g ++ BitVec.ofBool h.gn ++ d ++ (0#1) ++ frm ++ (0#1) ++ tgt ++ n ++ (0#24))) i = _
  simp only [BitVec.getLsbD_extractLsb', BitVec.getLsbD_append, hi, decide_true, Bool.true_and]
  have : i = 0 ∨ i = 1 ∨ i = 2 ∨ i = 3 ∨ i = 4 := by omega
  rcases this with rfl | rfl | rfl | rfl | rfl <;> simp
@[simp] theorem packH_fN (h : Hdr) (opc : BitVec 8) (d : BitVec 6) (frm tgt n : BitVec 4) : fN (packH h opc d frm tgt n) = n := by
  show @BitVec.extractLsb' (5+8+6+1+6+1+4+1+4+4+24) 24 4 (h.role ++ opc ++ h.g ++ BitVec.ofBool h.gn ++ d ++ (0#1) ++ frm ++ (0#1) ++ tgt ++ n ++ (0#24)) = _
  simp (disch := omega) only [BitVec.extractLsb'_append_eq_of_le, BitVec.extractLsb'_append_eq_of_add_le]
  simp
@[simp] theorem packH_fHRes (h : Hdr) (opc : BitVec 8) (d : BitVec 6) (frm tgt n : BitVec 4) : fHRes (packH h opc d frm tgt n) = (0#24) := by
  show @BitVec.extractLsb' (5+8+6+1+6+1+4+1+4+4+24) 0 24 (h.role ++ opc ++ h.g ++ BitVec.ofBool h.gn ++ d ++ (0#1) ++ frm ++ (0#1) ++ tgt ++ n ++ (0#24)) = _
  simp (disch := omega) only [BitVec.extractLsb'_append_eq_of_add_le]
  simp
theorem packH_bits (h : Hdr) (opc : BitVec 8) (d : BitVec 6) (frm tgt n : BitVec 4) (lo len : Nat) (hl : lo + len ≤ 24) : bits (packH h opc d frm tgt n) lo len = bits (0#24) lo len := by
  show @BitVec.extractLsb' (5+8+6+1+6+1+4+1+4+4+24) lo len (h.role ++ opc ++ h.g ++ BitVec.ofBool h.gn ++ d ++ (0#1) ++ frm ++ (0#1) ++ tgt ++ n ++ (0#24)) = _
  simp (disch := omega) only [BitVec.extractLsb'_append_eq_of_add_le, bits]
theorem packH_bit (h : Hdr) (opc : BitVec 8) (d : BitVec 6) (frm tgt n : BitVec 4) (i : Nat) (hi : i < 24) : bit (packH h opc d frm tgt n) i = bit (0#24) i := by
  show @BitVec.getLsbD (5+8+6+1+6+1+4+1+4+4+24) (h.role ++ opc ++ h.g ++ BitVec.ofBool h.gn ++ d ++ (0#1) ++ frm ++ (0#1) ++ tgt ++ n ++ (0#24)) i = _
  simp only [bit, BitVec.getLsbD_append, hi, if_true]

/-! ## Bits of fields -/

theorem bits_hi {v w : Nat} (x : BitVec v) (y : BitVec w) (lo len : Nat) (h : w ≤ lo) :
    bits (x ++ y) lo len = bits x (lo - w) len := BitVec.extractLsb'_append_eq_of_le h
theorem bits_lo {v w : Nat} (x : BitVec v) (y : BitVec w) (lo len : Nat) (h : lo + len ≤ w) :
    bits (x ++ y) lo len = bits y lo len := BitVec.extractLsb'_append_eq_of_add_le h
theorem bit_hi {v w : Nat} (x : BitVec v) (y : BitVec w) (i : Nat) (h : w ≤ i) : bit (x ++ y) i = bit x (i - w) := by
  simp only [bit, BitVec.getLsbD_append, Nat.not_lt.2 h, if_false]
theorem bit_lo {v w : Nat} (x : BitVec v) (y : BitVec w) (i : Nat) (h : i < w) : bit (x ++ y) i = bit y i := by
  simp only [bit, BitVec.getLsbD_append, h, if_true]
@[simp] theorem bits_zero {n : Nat} (lo len : Nat) : bits (0#n) lo len = 0#len := by simp [bits]
@[simp] theorem bits_all {n : Nat} (x : BitVec n) : bits x 0 n = x := by simp [bits]
@[simp] theorem bit_zero {n : Nat} (i : Nat) : bit (0#n) i = false := by simp [bit]
@[simp] theorem bit_ofBool (b : Bool) : bit (BitVec.ofBool b) 0 = b := by cases b <;> rfl
@[simp] theorem bit_one1 : bit (1#1) 0 = true := rfl
@[simp] theorem vreg_vf (r : VReg) : vreg (vf r) = some r := by
  simp (disch := omega) only [vreg, vf, bit_hi, bits_lo]
  simp
theorem fOff16_eq (w : Word) : fOff16 w = bits w 0 16 := rfl
theorem fAmo_eq (w : Word) : fAmo w = bits w 16 4 := rfl
@[simp] theorem bits_sub1 : bits (1#20) 2 18 = 0#18 := rfl
@[simp] theorem bits_sub2 : bits (2#20) 2 18 = 0#18 := rfl
@[simp] theorem bits_low1 : bits (1#20) 0 2 = 1#2 := rfl
@[simp] theorem bits_low2 : bits (2#20) 0 2 = 2#2 := rfl
theorem gn_eq (b : Bool) : (BitVec.ofBool b == 1#1) = b := by cases b <;> rfl
theorem packM_tag (h : Hdr) (opc : BitVec 8) (d a b : BitVec 6) (sc sz : BitVec 3) (off : BitVec 20) (lo len : Nat)
    (h1 : 26 ≤ lo) (h2 : lo + len ≤ 32) : bits (packM h opc d a b sc sz off) lo len = bits b (lo - 26) len := by
  show @BitVec.extractLsb' (5+8+6+1+6+6+6+3+3+20) lo len
    (h.role ++ opc ++ h.g ++ BitVec.ofBool h.gn ++ d ++ a ++ b ++ sc ++ sz ++ off) = _
  simp (disch := omega) only [BitVec.extractLsb'_append_eq_of_le, BitVec.extractLsb'_append_eq_of_add_le, bits]
  rfl

theorem ext5_inj (x y : BitVec 4) : ((0#1) ++ x = (0#1) ++ y) ↔ x = y := by revert x y; decide
theorem ext5_toNat (x : BitVec 5) (y : BitVec 4) (e : x.toNat = y.toNat) : x = (0#1) ++ y := by
  apply BitVec.eq_of_toNat_eq
  rw [e, BitVec.toNat_append]
  simp
theorem packX_low26 (h : Hdr) (opc : BitVec 8) (d : BitVec 6) (x : BitVec 3) (fn : BitVec 21) :
    bits (packX h opc d x 0 0 0 fn) 6 26 = (0#11) ++ bits fn 6 15 := by
  apply BitVec.eq_of_getLsbD_eq
  intro i hi
  show @BitVec.getLsbD 26 (@BitVec.extractLsb' (5+8+6+1+6+3+3+5+3+3+21) 6 26
    (h.role ++ opc ++ h.g ++ BitVec.ofBool h.gn ++ d ++ x ++ (0#3) ++ (0#5) ++ (0#3) ++ (0#3) ++ fn)) i = _
  simp only [BitVec.getLsbD_extractLsb', BitVec.getLsbD_append, hi, decide_true, Bool.true_and, bits, BitVec.getLsbD_zero]
  by_cases h1 : i < 15
  · simp [h1, show 6 + i < 21 by omega]
  · by_cases h2 : 6 + i - 21 < 3
    · simp [h1, h2, show ¬ 6 + i < 21 by omega]
    · by_cases h3 : 6 + i - 21 - 3 < 3
      · simp [h1, h2, h3, show ¬ 6 + i < 21 by omega]
      · simp [h1, h2, h3, show ¬ 6 + i < 21 by omega, show 6 + i - 21 - 3 - 3 < 5 by omega]

/-! ## Coded fields read back -/

@[simp] theorem Scope.dec_enc (x : Scope) : Scope.dec x.enc = some x := by cases x <;> rfl
@[simp] theorem LdSize.dec_enc (x : LdSize) : LdSize.dec x.enc = some x := by cases x <;> rfl
@[simp] theorem StSize.dec_enc (x : StSize) : StSize.dec x.enc = some x := by cases x <;> rfl
@[simp] theorem QstSize.dec_enc (x : QstSize) : QstSize.dec x.enc = some x := by cases x <;> rfl
@[simp] theorem AmoSize.dec_enc (x : AmoSize) : AmoSize.dec x.enc = some x := by cases x <;> rfl
@[simp] theorem VecSize.dec_enc (x : VecSize) : VecSize.dec x.enc = some x := by cases x <;> rfl
@[simp] theorem MaintSize.dec_enc (x : MaintSize) : MaintSize.dec x.enc = some x := by cases x <;> rfl
@[simp] theorem RMode.dec_enc (x : RMode) : RMode.dec x.enc = some x := by cases x <;> rfl
@[simp] theorem FType.dec_enc (x : FType) : FType.dec x.enc = some x := by cases x <;> rfl
@[simp] theorem LType.dec_enc (x : LType) : LType.dec x.enc = some x := by cases x <;> rfl
@[simp] theorem IType.dec_enc (x : IType) : IType.dec x.enc = some x := by cases x <;> rfl
@[simp] theorem Cc.dec_enc (x : Cc) : Cc.dec x.enc = some x := by cases x <;> rfl
@[simp] theorem FCc.dec_enc (x : FCc) : FCc.dec x.enc = some x := by cases x <;> rfl
@[simp] theorem Fmt.dec_enc (x : Fmt) : Fmt.dec x.enc = some x := by cases x <;> rfl
@[simp] theorem HadN.dec_enc (x : HadN) : HadN.dec x.enc = some x := by cases x <;> rfl
@[simp] theorem AmoOp.dec_enc (x : AmoOp) : AmoOp.dec x.enc = some x := by cases x <;> rfl
@[simp] theorem FAmoOp.dec_enc (x : FAmoOp) : FAmoOp.dec x.enc = some x := by cases x <;> rfl
@[simp] theorem Csr.dec_enc (x : Csr) : Csr.dec x.enc = some x := by cases x <;> rfl
@[simp] theorem CollRed.dec_enc (x : CollRed) : CollRed.dec x.enc = some x := by cases x <;> rfl
@[simp] theorem SysReg.dec_enc (x : SysReg) : SysReg.dec x.enc = some x := by
  cases x with
  | hmask n => revert n; decide
  | _ => rfl
@[simp] theorem decRm_enc (x : Option RMode) : decRm (encRm x).1 (encRm x).2 = some x := by
  cases x with
  | none => rfl
  | some m => cases m <;> rfl
@[simp] theorem CmpDst.dec_enc (x : CmpDst) : CmpDst.dec x.enc.1 x.enc.2 = x := by cases x <;> rfl
@[simp] theorem SgnOp.dec_enc (x : SgnOp) : SgnOp.dec x.enc.1 x.enc.2 = some x := by cases x <;> rfl
@[simp] theorem RandOp.dec_enc (x : RandOp) : RandOp.dec x.enc.1 x.enc.2 = some x := by
  cases x with
  | unif ty => cases ty <;> rfl
  | raw => rfl
@[simp] theorem VOpB.dec_enc (x : VOpB) : VOpB.dec x.enc.1 x.enc.2 = some x := by
  cases x with
  | v b => exact congrArg (Option.map VOpB.v) (vreg_vf b)
  | s b => rfl
@[simp] theorem VCmpOp.dec_enc (x : VCmpOp) : VCmpOp.dec x.enc.1 x.enc.2.1 x.enc.2.2 = some x := by
  cases x with
  | int cc => cases cc <;> rfl
  | flt cc lt => cases cc <;> cases lt <;> rfl
@[simp] theorem CvtSide.dec_enc (x : CvtSide) : CvtSide.dec x.enc.1 x.enc.2 = some x := by
  cases x with
  | fmt f => cases f <;> rfl
  | i32 => rfl
@[simp] theorem RedOp.dec_enc (x : RedOp) : RedOp.dec x.enc.1 x.enc.2 = some x := by
  cases x with
  | fadd lt => cases lt <;> rfl
  | fmax lt => cases lt <;> rfl
  | fmin lt => cases lt <;> rfl
  | _ => rfl
@[simp] theorem Slice.dec_enc (x : Slice) : Slice.dec x.enc.1 x.enc.2.1 x.enc.2.2 = some x := by cases x <;> rfl
@[simp] theorem Slice.dec_whole : Slice.dec 0#2 0#6 0#7 = some .whole := rfl
@[simp] theorem decNr_enc (x : Option (BitVec 4)) : decNr (encNr x) = some x := by
  cases x with
  | none => rfl
  | some r => revert r; decide
@[simp] theorem decOptReg_enc (x : Option SReg) : decOptReg (encOptReg x).1 (encOptReg x).2 = some x := by cases x <;> rfl
@[simp] theorem BarMode.dec_enc (x : BarMode) : BarMode.dec x.enc.1 x.enc.2 = some x := by cases x <;> rfl
@[simp] theorem CollOp.dec_enc (x : CollOp) : CollOp.dec x.enc.1 x.enc.2 = some x := by
  cases x with
  | allReduce r => cases r <;> rfl
  | reduceScatter r => cases r <;> rfl
  | allGather => rfl

/-! ## The row of an opcode -/

theorem row_00 (h : Hdr) (w : Word) : decodeClass0 0x00 h w =
    (req (fD w == 0 && fA w == 0 && fB w == 0 && fC w == 0 && fFn w == 0) (.nop h)) := rfl
theorem row_01 (h : Hdr) (w : Word) : decodeClass0 0x01 h w =
    (req (fD w == 0 && fA w == 0 && fB w == 0 && fC w == 0 && fFn w == 0) (.halt h)) := rfl
theorem row_02 (h : Hdr) (w : Word) : decodeClass0 0x02 h w =
    (req (fD w == 0 && fA w == 0 && fBRes w == 0 && fSlot w ≠ 7) (.br h (fSlot w) (fOff w))) := rfl
theorem row_03 (h : Hdr) (w : Word) : decodeClass0 0x03 h w =
    (req (fD w == 0 && fA w ≠ 0 && fBRes w == 0 && fSlot w ≠ 7) (.jmp h (fA w) (fSlot w) (fOff w))) := rfl
theorem row_04 (h : Hdr) (w : Word) : decodeClass0 0x04 h w =
    (req (fA w == 0 && fBRes w == 0 && fSlot w ≠ 7) (.call h (fD w) (fSlot w) (fOff w))) := rfl
theorem row_05 (h : Hdr) (w : Word) : decodeClass0 0x05 h w =
    (req (fB w == 0 && fC w == 0 && fFn w == 0) (.callr h (fD w) (fA w))) := rfl
theorem row_06 (h : Hdr) (w : Word) : decodeClass0 0x06 h w =
    (req (fD w == 0 && fB w == 0 && fC w == 0 && fFn w == 0) (.ret h (fA w))) := rfl
theorem row_07 (h : Hdr) (w : Word) : decodeClass0 0x07 h w =
    (req (fBRes w == 0 && fSlot w ≠ 7) (.loop h (fD w) (fA w) (fSlot w) (fOff w))) := rfl
theorem row_08 (h : Hdr) (w : Word) : decodeClass0 0x08 h w =
    (req (fA w == 0 && fB w == 0 && fC w == 0 && bits w 0 8 == 0)
      (.rep h (fD w) (bits w 17 3) (bits w 14 3) (bits w 11 3) (bits w 8 3))) := rfl
theorem row_0B (h : Hdr) (w : Word) : decodeClass0 0x0B h w =
    ((BarMode.dec (bits w 4 2) (fA w)).bind fun m =>
      req (bits w 16 16 == 0 && bits w 6 2 == 0) (.bar h (fD w) m (bits w 8 8) (bits w 0 4))) := rfl
theorem row_0C (h : Hdr) (w : Word) : decodeClass0 0x0C h w =
    (req (fD w == 0 && fA w == 0 && bits w 4 28 == 0) (.barb h (bits w 0 4))) := rfl
theorem row_0D (h : Hdr) (w : Word) : decodeClass0 0x0D h w =
    ((Scope.dec (fSc w)).bind fun sc => req (fD w == 0 && fSz w == 0) (.marm h (fA w) (fB w) sc (fOff w))) := rfl
theorem row_0E (h : Hdr) (w : Word) : decodeClass0 0x0E h w =
    ((decOptReg (bits w 0 1) (fA w)).bind fun t => req (bits w 1 31 == 0) (.mwait h (fD w) t)) := rfl
theorem row_0F (h : Hdr) (w : Word) : decodeClass0 0x0F h w =
    (req (fD w == 0 && fB w == 0 && fC w == 0 && fFn w == 0) (.wakeat h (fA w))) := rfl
theorem row_10 (h : Hdr) (w : Word) : decodeClass0 0x10 h w =
    (req (fA w == 0 && fB w == 0 && fC w == 0 && fFn w == 0) (.time h (fD w))) := rfl
theorem row_11 (h : Hdr) (w : Word) : decodeClass0 0x11 h w =
    (req (fA w == 0 && fB w == 0 && fC w == 0 && fFn w == 0) (.cycle h (fD w))) := rfl
theorem row_12 (h : Hdr) (w : Word) : decodeClass0 0x12 h w =
    ((Csr.dec (bits w 0 12)).bind fun c => req (fA w == 0 && bits w 12 20 == 0) (.csrr h (fD w) c)) := rfl
theorem row_13 (h : Hdr) (w : Word) : decodeClass0 0x13 h w =
    ((Csr.dec (bits w 0 12)).bind fun c => req (bits w 12 20 == 0 && c.writable) (.csrw h (fD w) (fA w) c)) := rfl
theorem row_14 (h : Hdr) (w : Word) : decodeClass0 0x14 h w =
    ((Csr.dec (bits w 0 12)).bind fun c => req (bits w 12 20 == 0 && c.writable) (.csrs h (fD w) (fA w) c)) := rfl
theorem row_15 (h : Hdr) (w : Word) : decodeClass0 0x15 h w =
    ((Csr.dec (bits w 0 12)).bind fun c => req (bits w 12 20 == 0 && c.writable) (.csrc h (fD w) (fA w) c)) := rfl
theorem row_16 (h : Hdr) (w : Word) : decodeClass0 0x16 h w =
    (req (fD w == 0 && bits w 16 16 == 0) (.trap h (fA w) (fOff16 w))) := rfl
theorem row_17 (h : Hdr) (w : Word) : decodeClass0 0x17 h w =
    (req (fD w == 0 && bits w 16 16 == 0) (.sysc h (fA w) (fOff16 w))) := rfl
theorem row_18 (h : Hdr) (w : Word) : decodeClass0 0x18 h w =
    (req (fD w == 0 && fA w == 0 && fB w == 0 && fC w == 0 && fFn w == 0) (.rft h)) := rfl
theorem row_19 (h : Hdr) (w : Word) : decodeClass0 0x19 h w =
    ((Scope.dec (bits w 0 3)).bind fun sc =>
      req (fD w == 0 && fA w == 0 && fB w == 0 && fC w == 0 && bits w 5 15 == 0 && (bit w 4 || bit w 3))
        (.fence h (bit w 4) (bit w 3) sc)) := rfl
theorem row_1A (h : Hdr) (w : Word) : decodeClass0 0x1A h w =
    (req (fD w == 0 && fB w == 0 && fC w == 0 && fFn w == 0) (.yield h (fA w))) := rfl
theorem row_1B (h : Hdr) (w : Word) : decodeClass0 0x1B h w =
    (req (fC w == 0 && fFn w == 0) (.moncfg h (fD w) (fA w) (fB w))) := rfl
theorem row_1C (h : Hdr) (w : Word) : decodeClass0 0x1C h w =
    (req (fC w == 0 && fFn w == 0) (.monrd h (fD w) (fA w) (fB w))) := rfl
theorem row_1D (h : Hdr) (w : Word) : decodeClass0 0x1D h w =
    (if fC w == 0 && bits w 2 18 == 0 then
      (match (bits w 0 2).toNat with
      | 0 => some (.tlbinvPage h (fD w) (fA w) (fB w)) | 1 => some (.tlbinvAsid h (fD w) (fA w) (fB w))
      | 2 => some (.tlbinvAll h (fD w) (fA w) (fB w)) | _ => none) else none) := rfl
theorem row_1E (h : Hdr) (w : Word) : decodeClass0 0x1E h w =
    ((Scope.dec (fSc w)).bind fun sc => if fSz w == 0 then
      (match (fAmo w).toNat with
      | 0 => some (.pteamoInc h (fD w) (fA w) (fB w) sc (fOff16 w))
      | 1 => some (.pteamoDec h (fD w) (fA w) (fB w) sc (fOff16 w))
      | 2 => req (evenReg (fB w)) (.pteamoCas h (fD w) (fA w) (fB w) sc (fOff16 w))
      | 3 => some (.pteamoOr h (fD w) (fA w) (fB w) sc (fOff16 w))
      | 4 => some (.pteamoAndn h (fD w) (fA w) (fB w) sc (fOff16 w))
      | _ => none) else none) := rfl
theorem row_20 (h : Hdr) (w : Word) : decodeClass1 0x20 h w =
    (req (fC w == 0 && fFn w == 0) (.add h (fD w) (fA w) (fB w))) := rfl
theorem row_21 (h : Hdr) (w : Word) : decodeClass1 0x21 h w =
    (req (fC w == 0 && fFn w == 0) (.sub h (fD w) (fA w) (fB w))) := rfl
theorem row_22 (h : Hdr) (w : Word) : decodeClass1 0x22 h w =
    (req (fC w == 0 && fFn w == 0) (.mul h (fD w) (fA w) (fB w))) := rfl
theorem row_23 (h : Hdr) (w : Word) : decodeClass1 0x23 h w =
    (req (fC w == 0 && fFn w == 0) (.mulh h (fD w) (fA w) (fB w))) := rfl
theorem row_24 (h : Hdr) (w : Word) : decodeClass1 0x24 h w =
    (req (fC w == 0 && fFn w == 0) (.mulhu h (fD w) (fA w) (fB w))) := rfl
theorem row_25 (h : Hdr) (w : Word) : decodeClass1 0x25 h w =
    (req (fC w == 0 && fFn w == 0) (.div h (fD w) (fA w) (fB w))) := rfl
theorem row_26 (h : Hdr) (w : Word) : decodeClass1 0x26 h w =
    (req (fC w == 0 && fFn w == 0) (.divu h (fD w) (fA w) (fB w))) := rfl
theorem row_27 (h : Hdr) (w : Word) : decodeClass1 0x27 h w =
    (req (fC w == 0 && fFn w == 0) (.rem h (fD w) (fA w) (fB w))) := rfl
theorem row_28 (h : Hdr) (w : Word) : decodeClass1 0x28 h w =
    (req (fC w == 0 && fFn w == 0) (.remu h (fD w) (fA w) (fB w))) := rfl
theorem row_29 (h : Hdr) (w : Word) : decodeClass1 0x29 h w =
    (req (fC w == 0 && fFn w == 0) (.and h (fD w) (fA w) (fB w))) := rfl
theorem row_2A (h : Hdr) (w : Word) : decodeClass1 0x2A h w =
    (req (fC w == 0 && fFn w == 0) (.or h (fD w) (fA w) (fB w))) := rfl
theorem row_2B (h : Hdr) (w : Word) : decodeClass1 0x2B h w =
    (req (fC w == 0 && fFn w == 0) (.xor h (fD w) (fA w) (fB w))) := rfl
theorem row_2C (h : Hdr) (w : Word) : decodeClass1 0x2C h w =
    (req (fC w == 0 && fFn w == 0) (.andn h (fD w) (fA w) (fB w))) := rfl
theorem row_2D (h : Hdr) (w : Word) : decodeClass1 0x2D h w =
    (req (fC w == 0 && fFn w == 0) (.shl h (fD w) (fA w) (fB w))) := rfl
theorem row_2E (h : Hdr) (w : Word) : decodeClass1 0x2E h w =
    (req (fC w == 0 && fFn w == 0) (.shr h (fD w) (fA w) (fB w))) := rfl
theorem row_2F (h : Hdr) (w : Word) : decodeClass1 0x2F h w =
    (req (fC w == 0 && fFn w == 0) (.sar h (fD w) (fA w) (fB w))) := rfl
theorem row_30 (h : Hdr) (w : Word) : decodeClass1 0x30 h w =
    (req (fC w == 0 && fFn w == 0) (.rol h (fD w) (fA w) (fB w))) := rfl
theorem row_31 (h : Hdr) (w : Word) : decodeClass1 0x31 h w =
    (req (fC w == 0 && fFn w == 0) (.min h (fD w) (fA w) (fB w))) := rfl
theorem row_32 (h : Hdr) (w : Word) : decodeClass1 0x32 h w =
    (req (fC w == 0 && fFn w == 0) (.max h (fD w) (fA w) (fB w))) := rfl
theorem row_33 (h : Hdr) (w : Word) : decodeClass1 0x33 h w =
    (req (fC w == 0 && fFn w == 0) (.minu h (fD w) (fA w) (fB w))) := rfl
theorem row_34 (h : Hdr) (w : Word) : decodeClass1 0x34 h w =
    (req (fC w == 0 && fFn w == 0) (.maxu h (fD w) (fA w) (fB w))) := rfl
theorem row_35 (h : Hdr) (w : Word) : decodeClass1 0x35 h w =
    (req (fB w == 0 && fC w == 0 && fFn w == 0) (.clz h (fD w) (fA w))) := rfl
theorem row_36 (h : Hdr) (w : Word) : decodeClass1 0x36 h w =
    (req (fB w == 0 && fC w == 0 && fFn w == 0) (.ctz h (fD w) (fA w))) := rfl
theorem row_37 (h : Hdr) (w : Word) : decodeClass1 0x37 h w =
    (req (fB w == 0 && fC w == 0 && fFn w == 0) (.popc h (fD w) (fA w))) := rfl
theorem row_38 (h : Hdr) (w : Word) : decodeClass1 0x38 h w =
    (req (fB w == 0 && fC w == 0 && bits w 13 7 == 0 && (bits w 0 6).toNat + (bits w 6 6).toNat + 1 ≤ 64)
      (.bfx h (fD w) (fA w) (bit w 12) (bits w 6 6) (bits w 0 6))) := rfl
theorem row_39 (h : Hdr) (w : Word) : decodeClass1 0x39 h w =
    (req (fC w == 0 && bits w 12 8 == 0 && (bits w 0 6).toNat + (bits w 6 6).toNat + 1 ≤ 64)
      (.bfi h (fD w) (fA w) (fB w) (bits w 6 6) (bits w 0 6))) := rfl
theorem row_3A (h : Hdr) (w : Word) : decodeClass1 0x3A h w =
    (req (fFn w == 0) (.sel h (fD w) (fA w) (fB w) (fC w))) := rfl
theorem row_3B (h : Hdr) (w : Word) : decodeClass1 0x3B h w =
    ((Cc.dec (bits w 0 4)).bind fun cc => req (fC w == 0 && bits w 5 15 == 0)
      (.cmp h (CmpDst.dec (bits w 4 1) (fD w)) (fA w) (fB w) cc)) := rfl
theorem row_3C (h : Hdr) (w : Word) : decodeClass1 0x3C h w =
    (req (fC w == 0 && fFn w == 0) (.addw h (fD w) (fA w) (fB w))) := rfl
theorem row_3D (h : Hdr) (w : Word) : decodeClass1 0x3D h w =
    (req (fC w == 0 && fFn w == 0) (.subw h (fD w) (fA w) (fB w))) := rfl
theorem row_3E (h : Hdr) (w : Word) : decodeClass1 0x3E h w =
    (req (fC w == 0 && fFn w == 0) (.mulw h (fD w) (fA w) (fB w))) := rfl
theorem row_3F (h : Hdr) (w : Word) : decodeClass1 0x3F h w =
    (req (fB w == 0 && fC w == 0 && fFn w == 0) (.bswap h (fD w) (fA w))) := rfl
theorem row_40 (h : Hdr) (w : Word) : decodeClass2 0x40 h w =
    (some (.addi h (fD w) (fA w) (fImm w))) := rfl
theorem row_41 (h : Hdr) (w : Word) : decodeClass2 0x41 h w =
    (some (.andi h (fD w) (fA w) (fImm w))) := rfl
theorem row_42 (h : Hdr) (w : Word) : decodeClass2 0x42 h w =
    (some (.ori h (fD w) (fA w) (fImm w))) := rfl
theorem row_43 (h : Hdr) (w : Word) : decodeClass2 0x43 h w =
    (some (.xori h (fD w) (fA w) (fImm w))) := rfl
theorem row_44 (h : Hdr) (w : Word) : decodeClass2 0x44 h w =
    (req (bits w 6 26 == 0) (.shli h (fD w) (fA w) (bits w 0 6))) := rfl
theorem row_45 (h : Hdr) (w : Word) : decodeClass2 0x45 h w =
    (req (bits w 6 26 == 0) (.shri h (fD w) (fA w) (bits w 0 6))) := rfl
theorem row_46 (h : Hdr) (w : Word) : decodeClass2 0x46 h w =
    (req (bits w 6 26 == 0) (.sari h (fD w) (fA w) (bits w 0 6))) := rfl
theorem row_47 (h : Hdr) (w : Word) : decodeClass2 0x47 h w =
    (req (bits w 6 26 == 0) (.roli h (fD w) (fA w) (bits w 0 6))) := rfl
theorem row_48 (h : Hdr) (w : Word) : decodeClass2 0x48 h w =
    (req (fA w == 0) (.movi h (fD w) (fImm w))) := rfl
theorem row_49 (h : Hdr) (w : Word) : decodeClass2 0x49 h w =
    (some (.movhi h (fD w) (fA w) (fImm w))) := rfl
theorem row_4A (h : Hdr) (w : Word) : decodeClass2 0x4A h w =
    ((Cc.dec (bits w 28 4)).bind fun cc => some (.cmpi h (CmpDst.dec (bits w 27 1) (fD w)) (fA w) cc (bits w 0 27))) := rfl
theorem row_4B (h : Hdr) (w : Word) : decodeClass2 0x4B h w =
    (some (.muli h (fD w) (fA w) (fImm w))) := rfl
theorem row_4C (h : Hdr) (w : Word) : decodeClass2 0x4C h w =
    (some (.mini h (fD w) (fA w) (fImm w))) := rfl
theorem row_4D (h : Hdr) (w : Word) : decodeClass2 0x4D h w =
    (some (.maxi h (fD w) (fA w) (fImm w))) := rfl
theorem row_4E (h : Hdr) (w : Word) : decodeClass2 0x4E h w =
    (req (fA w == 0) (.addpc h (fD w) (fImm w))) := rfl
theorem row_4F (h : Hdr) (w : Word) : decodeClass2 0x4F h w =
    (req (fA w == 0 && fB w == 0 && fC w == 0 && bits w 7 13 == 0 && (bits w 0 7).toNat ≤ 64) (.pset h (fD w) (bits w 0 7))) := rfl
theorem row_50 (h : Hdr) (w : Word) : decodeClass2 0x50 h w =
    (req (fC w == 0 && fFn w == 0) (.pand h (fD w) (fA w) (fB w))) := rfl
theorem row_51 (h : Hdr) (w : Word) : decodeClass2 0x51 h w =
    (req (fC w == 0 && fFn w == 0) (.por h (fD w) (fA w) (fB w))) := rfl
theorem row_52 (h : Hdr) (w : Word) : decodeClass2 0x52 h w =
    (req (fC w == 0 && fFn w == 0) (.pxor h (fD w) (fA w) (fB w))) := rfl
theorem row_53 (h : Hdr) (w : Word) : decodeClass2 0x53 h w =
    (req (fC w == 0 && fFn w == 0) (.pandn h (fD w) (fA w) (fB w))) := rfl
theorem row_54 (h : Hdr) (w : Word) : decodeClass2 0x54 h w =
    (req (fB w == 0 && fC w == 0 && fFn w == 0) (.pfrom h (fD w) (fA w))) := rfl
theorem row_55 (h : Hdr) (w : Word) : decodeClass2 0x55 h w =
    (req (fB w == 0 && fC w == 0 && fFn w == 0) (.pto h (fD w) (fA w))) := rfl
theorem row_56 (h : Hdr) (w : Word) : decodeClass2 0x56 h w =
    (req (fC w == 0 && fFn w == 0) (.pany h (fD w) (fA w) (fB w))) := rfl
theorem row_57 (h : Hdr) (w : Word) : decodeClass2 0x57 h w =
    (req (fC w == 0 && fFn w == 0) (.pall h (fD w) (fA w) (fB w))) := rfl
theorem row_58 (h : Hdr) (w : Word) : decodeClass2 0x58 h w =
    (req (fC w == 0 && fFn w == 0) (.pcnt h (fD w) (fA w) (fB w))) := rfl
theorem row_59 (h : Hdr) (w : Word) : decodeClass2 0x59 h w =
    (req (fC w == 0 && fFn w == 0) (.pfirst h (fD w) (fA w) (fB w))) := rfl
theorem row_5A (h : Hdr) (w : Word) : decodeClass2 0x5A h w =
    (req (fC w == 0 && fFn w == 0) (.planes h (fD w) (fA w) (fB w))) := rfl
theorem row_60 (h : Hdr) (w : Word) : decodeClass3 0x60 h w =
    ((FType.dec (bits w 0 2)).bind fun ty => req (fC w == 0 && bits w 2 18 == 0) (.fadd h ty (fD w) (fA w) (fB w))) := rfl
theorem row_61 (h : Hdr) (w : Word) : decodeClass3 0x61 h w =
    ((FType.dec (bits w 0 2)).bind fun ty => req (fC w == 0 && bits w 2 18 == 0) (.fsub h ty (fD w) (fA w) (fB w))) := rfl
theorem row_62 (h : Hdr) (w : Word) : decodeClass3 0x62 h w =
    ((FType.dec (bits w 0 2)).bind fun ty => req (fC w == 0 && bits w 2 18 == 0) (.fmul h ty (fD w) (fA w) (fB w))) := rfl
theorem row_63 (h : Hdr) (w : Word) : decodeClass3 0x63 h w =
    ((FType.dec (bits w 0 2)).bind fun ty => req (bits w 2 18 == 0) (.fma h ty (fD w) (fA w) (fB w) (fC w))) := rfl
theorem row_64 (h : Hdr) (w : Word) : decodeClass3 0x64 h w =
    ((FType.dec (bits w 0 2)).bind fun ty => req (bits w 2 18 == 0) (.fms h ty (fD w) (fA w) (fB w) (fC w))) := rfl
theorem row_65 (h : Hdr) (w : Word) : decodeClass3 0x65 h w =
    ((FType.dec (bits w 0 2)).bind fun ty => req (bits w 2 18 == 0) (.fnma h ty (fD w) (fA w) (fB w) (fC w))) := rfl
theorem row_66 (h : Hdr) (w : Word) : decodeClass3 0x66 h w =
    ((FType.dec (bits w 0 2)).bind fun ty => req (fC w == 0 && bits w 2 18 == 0) (.fdiv h ty (fD w) (fA w) (fB w))) := rfl
theorem row_67 (h : Hdr) (w : Word) : decodeClass3 0x67 h w =
    ((FType.dec (bits w 0 2)).bind fun ty => req (fB w == 0 && fC w == 0 && bits w 2 18 == 0) (.fsqrt h ty (fD w) (fA w))) := rfl
theorem row_68 (h : Hdr) (w : Word) : decodeClass3 0x68 h w =
    ((FType.dec (bits w 0 2)).bind fun ty => req (fC w == 0 && bits w 2 18 == 0) (.fmin h ty (fD w) (fA w) (fB w))) := rfl
theorem row_69 (h : Hdr) (w : Word) : decodeClass3 0x69 h w =
    ((FType.dec (bits w 0 2)).bind fun ty => req (fC w == 0 && bits w 2 18 == 0) (.fmax h ty (fD w) (fA w) (fB w))) := rfl
theorem row_6A (h : Hdr) (w : Word) : decodeClass3 0x6A h w =
    ((FType.dec (bits w 0 2)).bind fun ty => req (fC w == 0 && bits w 2 18 == 0) (.fminm h ty (fD w) (fA w) (fB w))) := rfl
theorem row_6B (h : Hdr) (w : Word) : decodeClass3 0x6B h w =
    ((FType.dec (bits w 0 2)).bind fun ty => req (fC w == 0 && bits w 2 18 == 0) (.fmaxm h ty (fD w) (fA w) (fB w))) := rfl
theorem row_6C (h : Hdr) (w : Word) : decodeClass3 0x6C h w =
    ((FType.dec (bits w 0 2)).bind fun ty => (FCc.dec (bits w 9 3)).bind fun cc =>
      req (fC w == 0 && bits w 13 7 == 0 && bits w 2 7 == 0)
        (.fcmp h ty (CmpDst.dec (bits w 12 1) (fD w)) (fA w) (fB w) cc)) := rfl
theorem row_6D (h : Hdr) (w : Word) : decodeClass3 0x6D h w =
    ((FType.dec (bits w 0 2)).bind fun ty => req (fB w == 0 && fC w == 0 && bits w 2 18 == 0) (.fclass h ty (fD w) (fA w))) := rfl
theorem row_6E (h : Hdr) (w : Word) : decodeClass3 0x6E h w =
    ((FType.dec (bits w 0 2)).bind fun ty => (decRm (bits w 5 1) (bits w 2 3)).bind fun rm =>
      (if bit w 8 then none else FType.dec (bits w 6 2)).bind fun ty2 =>
      req (fB w == 0 && fC w == 0 && bits w 9 11 == 0) (.fcvt h ty ty2 rm (fD w) (fA w))) := rfl
theorem row_6F (h : Hdr) (w : Word) : decodeClass3 0x6F h w =
    ((FType.dec (bits w 0 2)).bind fun ty => (decRm (bits w 5 1) (bits w 2 3)).bind fun rm =>
      (IType.dec (bits w 6 3)).bind fun it =>
      req (fB w == 0 && fC w == 0 && bits w 9 11 == 0) (.fcvti h ty it rm (fD w) (fA w))) := rfl
theorem row_70 (h : Hdr) (w : Word) : decodeClass3 0x70 h w =
    ((FType.dec (bits w 0 2)).bind fun ty => (decRm (bits w 5 1) (bits w 2 3)).bind fun rm =>
      (IType.dec (bits w 6 3)).bind fun it =>
      req (fB w == 0 && fC w == 0 && bits w 9 11 == 0) (.icvtf h ty it rm (fD w) (fA w))) := rfl
theorem row_71 (h : Hdr) (w : Word) : decodeClass3 0x71 h w =
    ((FType.dec (bits w 0 2)).bind fun ty => (SgnOp.dec (bits w 9 3) (fB w)).bind fun op =>
      req (fC w == 0 && bits w 12 8 == 0 && bits w 2 7 == 0) (.fsgn h ty op (fD w) (fA w))) := rfl
theorem row_72 (h : Hdr) (w : Word) : decodeClass3 0x72 h w =
    ((FType.dec (bits w 0 2)).bind fun ty => (decRm (bits w 5 1) (bits w 2 3)).bind fun rm =>
      req (fB w == 0 && fC w == 0 && bits w 6 14 == 0) (.frnd h ty rm (fD w) (fA w))) := rfl
theorem row_73 (h : Hdr) (w : Word) : decodeClass3 0x73 h w =
    ((FType.dec (bits w 0 2)).bind fun ty => req (fC w == 0 && bits w 2 18 == 0) (.fscalb h ty (fD w) (fA w) (fB w))) := rfl
theorem row_74 (h : Hdr) (w : Word) : decodeClass3 0x74 h w =
    ((FType.dec (bits w 0 2)).bind fun ty => req (fB w == 0 && fC w == 0 && bits w 2 18 == 0) (.fexp2 h ty (fD w) (fA w))) := rfl
theorem row_75 (h : Hdr) (w : Word) : decodeClass3 0x75 h w =
    ((FType.dec (bits w 0 2)).bind fun ty => req (fB w == 0 && fC w == 0 && bits w 2 18 == 0) (.flog2 h ty (fD w) (fA w))) := rfl
theorem row_76 (h : Hdr) (w : Word) : decodeClass3 0x76 h w =
    ((FType.dec (bits w 0 2)).bind fun ty => req (fB w == 0 && fC w == 0 && bits w 2 18 == 0) (.frcp h ty (fD w) (fA w))) := rfl
theorem row_77 (h : Hdr) (w : Word) : decodeClass3 0x77 h w =
    ((FType.dec (bits w 0 2)).bind fun ty => req (fB w == 0 && fC w == 0 && bits w 2 18 == 0) (.frsq h ty (fD w) (fA w))) := rfl
theorem row_78 (h : Hdr) (w : Word) : decodeClass3 0x78 h w =
    ((RandOp.dec (bits w 9 3) (bits w 0 2)).bind fun op =>
      req (fA w == 0 && fB w == 0 && fC w == 0 && bits w 12 8 == 0 && bits w 2 7 == 0) (.frand h op (fD w))) := rfl
theorem row_80 (h : Hdr) (w : Word) : decodeClass4 0x80 h w =
    ((LdSize.dec (fSz w)).bind fun sz => (Scope.dec (fSc w)).bind fun sc =>
      req (true) (.lds h sz sc (fD w) (fA w) (fB w) (fOff w))) := rfl
theorem row_81 (h : Hdr) (w : Word) : decodeClass4 0x81 h w =
    ((StSize.dec (fSz w)).bind fun sz => (Scope.dec (fSc w)).bind fun sc =>
      req (true) (.sts h sz sc (fD w) (fA w) (fB w) (fOff w))) := rfl
theorem row_82 (h : Hdr) (w : Word) : decodeClass4 0x82 h w =
    ((LdSize.dec (fSz w)).bind fun sz => (Scope.dec (fSc w)).bind fun sc =>
      req (true) (.ldg h sz sc (fD w) (fA w) (fB w) (fOff w))) := rfl
theorem row_83 (h : Hdr) (w : Word) : decodeClass4 0x83 h w =
    ((StSize.dec (fSz w)).bind fun sz => (Scope.dec (fSc w)).bind fun sc =>
      req (true) (.stg h sz sc (fD w) (fA w) (fB w) (fOff w))) := rfl
theorem row_84 (h : Hdr) (w : Word) : decodeClass4 0x84 h w =
    ((LdSize.dec (fSz w)).bind fun sz => (Scope.dec (fSc w)).bind fun sc =>
      req (bits w 29 3 == 0) (.qld h sz sc (bits w 26 3) (fD w) (fA w) (fOff w))) := rfl
theorem row_85 (h : Hdr) (w : Word) : decodeClass4 0x85 h w =
    ((Scope.dec (fSc w)).bind fun sc => req (fSz w == 0 && bits w 29 3 == 0 && evenReg (fD w))
      (.qldp h sc (bits w 26 3) (fD w) (fA w) (fOff w))) := rfl
theorem row_86 (h : Hdr) (w : Word) : decodeClass4 0x86 h w =
    ((QstSize.dec (fSz w)).bind fun sz => (Scope.dec (fSc w)).bind fun sc =>
      req (bits w 29 3 == 0 && (sz ≠ .mask || evenReg (fD w))) (.qst h sz sc (bits w 26 3) (fD w) (fA w) (fOff w))) := rfl
theorem row_87 (h : Hdr) (w : Word) : decodeClass4 0x87 h w =
    (req (fD w == 0 && fA w == 0 && fB w == 0 && fC w == 0 && bits w 4 16 == 0 && (!bit w 3 || bits w 0 3 == 0))
      (.qwait h (if bit w 3 then none else some (bits w 0 3)))) := rfl
theorem row_88 (h : Hdr) (w : Word) : decodeClass4 0x88 h w =
    (req (fA w == 0 && fB w == 0 && fC w == 0 && fFn w == 0) (.qpop h (fD w))) := rfl
theorem row_89 (h : Hdr) (w : Word) : decodeClass4 0x89 h w =
    ((AmoSize.dec (fSz w)).bind fun sz => (Scope.dec (fSc w)).bind fun sc => (AmoOp.dec (fAmo w)).bind fun op =>
      req (op ≠ .cas || evenReg (fB w)) (.samo h op sz sc (fD w) (fA w) (fB w) (fOff16 w))) := rfl
theorem row_8A (h : Hdr) (w : Word) : decodeClass4 0x8A h w =
    ((AmoSize.dec (fSz w)).bind fun sz => (Scope.dec (fSc w)).bind fun sc => (FAmoOp.dec (fAmo w)).bind fun op =>
      req (true) (.samof h op sz sc (fD w) (fA w) (fB w) (fOff16 w))) := rfl
theorem row_8B (h : Hdr) (w : Word) : decodeClass4 0x8B h w =
    ((AmoSize.dec (fSz w)).bind fun sz => (AmoOp.dec (fAmo w)).bind fun op =>
      req (op ≠ .cas || evenReg (fB w)) (.gamo h op sz (fSc w) (fD w) (fA w) (fB w) (fOff16 w))) := rfl
theorem row_8C (h : Hdr) (w : Word) : decodeClass4 0x8C h w =
    ((AmoSize.dec (fSz w)).bind fun sz => (FAmoOp.dec (fAmo w)).bind fun op =>
      req (true) (.gamof h op sz (fSc w) (fD w) (fA w) (fB w) (fOff16 w))) := rfl
theorem row_8D (h : Hdr) (w : Word) : decodeClass4 0x8D h w =
    ((VecSize.dec (fSz w)).bind fun sz => (Scope.dec (fSc w)).bind fun sc => (vreg (fD w)).bind fun d =>
      some (.ldv h sz sc d (fA w) (fB w) (fOff w))) := rfl
theorem row_8E (h : Hdr) (w : Word) : decodeClass4 0x8E h w =
    ((VecSize.dec (fSz w)).bind fun sz => (Scope.dec (fSc w)).bind fun sc => (vreg (fD w)).bind fun d =>
      some (.stv h sz sc d (fA w) (fB w) (fOff w))) := rfl
theorem row_8F (h : Hdr) (w : Word) : decodeClass4 0x8F h w =
    ((VecSize.dec (fSz w)).bind fun sz => (Scope.dec (fSc w)).bind fun sc => (vreg (fD w)).bind fun d =>
      (vreg (fB w)).bind fun b => some (.vgath h sz sc d (fA w) b (fOff w))) := rfl
theorem row_90 (h : Hdr) (w : Word) : decodeClass4 0x90 h w =
    ((VecSize.dec (fSz w)).bind fun sz => (Scope.dec (fSc w)).bind fun sc => (vreg (fD w)).bind fun d =>
      (vreg (fB w)).bind fun b => some (.vscat h sz sc d (fA w) b (fOff w))) := rfl
theorem row_91 (h : Hdr) (w : Word) : decodeClass4 0x91 h w =
    ((MaintSize.dec (fSz w)).bind fun sz => (Scope.dec (fSc w)).bind fun sc =>
      req (fD w == 0) (.clean h sz sc (fA w) (fB w) (fOff w))) := rfl
theorem row_92 (h : Hdr) (w : Word) : decodeClass4 0x92 h w =
    ((MaintSize.dec (fSz w)).bind fun sz => (Scope.dec (fSc w)).bind fun sc =>
      req (fD w == 0) (.inval h sz sc (fA w) (fB w) (fOff w))) := rfl
theorem row_93 (h : Hdr) (w : Word) : decodeClass4 0x93 h w =
    ((Scope.dec (fSc w)).bind fun sc => req (fD w == 0 && fSz w == 0 && sc ≠ .domain) (.pfetch h sc (fA w) (fB w) (fOff w))) := rfl
theorem row_97 (h : Hdr) (w : Word) : decodeClass4 0x97 h w =
    (req (fD w == 0 && fB w == 0 && fC w == 0 && bits w 3 17 == 0) (.wadv h (fA w) (bits w 0 3))) := rfl
theorem row_98 (h : Hdr) (w : Word) : decodeClass4 0x98 h w =
    (req (fD w == 0 && fA w == 0 && fB w == 0 && fC w == 0 && bits w 3 17 == 0) (.wclose h (bits w 0 3))) := rfl
theorem row_99 (h : Hdr) (w : Word) : decodeClass4 0x99 h w =
    (req (fB w == 0 && fC w == 0 && bits w 3 17 == 0) (.wrow h (fD w) (fA w) (bits w 0 3))) := rfl
theorem row_9C (h : Hdr) (w : Word) : decodeClass4 0x9C h w =
    (req (fA w == 0 && fB w == 0 && fC w == 0 && bits w 1 19 == 0) (.cpyst h (fD w) (bit w 0))) := rfl
theorem row_A0 (h : Hdr) (w : Word) : decodeClass5 0xA0 h w =
    ((vreg (fD w)).bind fun d => (vreg (fA w)).bind fun a => (VOpB.dec (bits w 2 1) (fB w)).bind fun b =>
      req (fC w == 0 && bits w 3 17 == 0 && bits w 0 2 == 0) (.vadd h d a b)) := rfl
theorem row_A1 (h : Hdr) (w : Word) : decodeClass5 0xA1 h w =
    ((vreg (fD w)).bind fun d => (vreg (fA w)).bind fun a => (VOpB.dec (bits w 2 1) (fB w)).bind fun b =>
      req (fC w == 0 && bits w 3 17 == 0 && bits w 0 2 == 0) (.vsub h d a b)) := rfl
theorem row_A2 (h : Hdr) (w : Word) : decodeClass5 0xA2 h w =
    ((vreg (fD w)).bind fun d => (vreg (fA w)).bind fun a => (VOpB.dec (bits w 2 1) (fB w)).bind fun b =>
      req (fC w == 0 && bits w 3 17 == 0 && bits w 0 2 == 0) (.vmul h d a b)) := rfl
theorem row_A3 (h : Hdr) (w : Word) : decodeClass5 0xA3 h w =
    ((vreg (fD w)).bind fun d => (vreg (fA w)).bind fun a => (VOpB.dec (bits w 2 1) (fB w)).bind fun b =>
      req (fC w == 0 && bits w 4 16 == 0 && bits w 0 2 == 0) (.vmulh h (bit w 3) d a b)) := rfl
theorem row_A4 (h : Hdr) (w : Word) : decodeClass5 0xA4 h w =
    ((vreg (fD w)).bind fun d => (vreg (fA w)).bind fun a => (VOpB.dec (bits w 2 1) (fB w)).bind fun b =>
      req (fC w == 0 && bits w 4 16 == 0 && bits w 0 2 == 0) (.vmin h (bit w 3) d a b)) := rfl
theorem row_A5 (h : Hdr) (w : Word) : decodeClass5 0xA5 h w =
    ((vreg (fD w)).bind fun d => (vreg (fA w)).bind fun a => (VOpB.dec (bits w 2 1) (fB w)).bind fun b =>
      req (fC w == 0 && bits w 4 16 == 0 && bits w 0 2 == 0) (.vmax h (bit w 3) d a b)) := rfl
theorem row_A6 (h : Hdr) (w : Word) : decodeClass5 0xA6 h w =
    ((vreg (fD w)).bind fun d => (vreg (fA w)).bind fun a => (VOpB.dec (bits w 2 1) (fB w)).bind fun b =>
      req (fC w == 0 && bits w 3 17 == 0 && bits w 0 2 == 0) (.vand h d a b)) := rfl
theorem row_A7 (h : Hdr) (w : Word) : decodeClass5 0xA7 h w =
    ((vreg (fD w)).bind fun d => (vreg (fA w)).bind fun a => (VOpB.dec (bits w 2 1) (fB w)).bind fun b =>
      req (fC w == 0 && bits w 3 17 == 0 && bits w 0 2 == 0) (.vor h d a b)) := rfl
theorem row_A8 (h : Hdr) (w : Word) : decodeClass5 0xA8 h w =
    ((vreg (fD w)).bind fun d => (vreg (fA w)).bind fun a => (VOpB.dec (bits w 2 1) (fB w)).bind fun b =>
      req (fC w == 0 && bits w 3 17 == 0 && bits w 0 2 == 0) (.vxor h d a b)) := rfl
theorem row_A9 (h : Hdr) (w : Word) : decodeClass5 0xA9 h w =
    ((vreg (fD w)).bind fun d => (vreg (fA w)).bind fun a => (VOpB.dec (bits w 2 1) (fB w)).bind fun b =>
      req (fC w == 0 && bits w 3 17 == 0 && bits w 0 2 == 0) (.vshl h d a b)) := rfl
theorem row_AA (h : Hdr) (w : Word) : decodeClass5 0xAA h w =
    ((vreg (fD w)).bind fun d => (vreg (fA w)).bind fun a => (VOpB.dec (bits w 2 1) (fB w)).bind fun b =>
      req (fC w == 0 && bits w 3 17 == 0 && bits w 0 2 == 0) (.vshr h d a b)) := rfl
theorem row_AB (h : Hdr) (w : Word) : decodeClass5 0xAB h w =
    ((vreg (fD w)).bind fun d => (vreg (fA w)).bind fun a => (VOpB.dec (bits w 2 1) (fB w)).bind fun b =>
      req (fC w == 0 && bits w 3 17 == 0 && bits w 0 2 == 0) (.vsar h d a b)) := rfl
theorem row_AC (h : Hdr) (w : Word) : decodeClass5 0xAC h w =
    ((vreg (fD w)).bind fun d => (vreg (fA w)).bind fun a => (VOpB.dec (bits w 2 1) (fB w)).bind fun b =>
      (LType.dec (bits w 0 2)).bind fun lt => req (fC w == 0 && bits w 3 17 == 0) (.vfadd h lt d a b)) := rfl
theorem row_AD (h : Hdr) (w : Word) : decodeClass5 0xAD h w =
    ((vreg (fD w)).bind fun d => (vreg (fA w)).bind fun a => (VOpB.dec (bits w 2 1) (fB w)).bind fun b =>
      (LType.dec (bits w 0 2)).bind fun lt => req (fC w == 0 && bits w 3 17 == 0) (.vfsub h lt d a b)) := rfl
theorem row_AE (h : Hdr) (w : Word) : decodeClass5 0xAE h w =
    ((vreg (fD w)).bind fun d => (vreg (fA w)).bind fun a => (VOpB.dec (bits w 2 1) (fB w)).bind fun b =>
      (LType.dec (bits w 0 2)).bind fun lt => req (fC w == 0 && bits w 3 17 == 0) (.vfmul h lt d a b)) := rfl
theorem row_AF (h : Hdr) (w : Word) : decodeClass5 0xAF h w =
    ((vreg (fD w)).bind fun d => (vreg (fA w)).bind fun a => (VOpB.dec (bits w 2 1) (fB w)).bind fun b =>
      (vreg (fC w)).bind fun c => (LType.dec (bits w 0 2)).bind fun lt => req (bits w 3 17 == 0) (.vfma h lt d a b c)) := rfl
theorem row_B0 (h : Hdr) (w : Word) : decodeClass5 0xB0 h w =
    ((vreg (fD w)).bind fun d => (vreg (fA w)).bind fun a => (VOpB.dec (bits w 2 1) (fB w)).bind fun b =>
      (LType.dec (bits w 0 2)).bind fun lt => req (fC w == 0 && bits w 4 16 == 0) (.vfmin h (bit w 3) lt d a b)) := rfl
theorem row_B1 (h : Hdr) (w : Word) : decodeClass5 0xB1 h w =
    ((vreg (fD w)).bind fun d => (vreg (fA w)).bind fun a => (VOpB.dec (bits w 2 1) (fB w)).bind fun b =>
      (LType.dec (bits w 0 2)).bind fun lt => req (fC w == 0 && bits w 4 16 == 0) (.vfmax h (bit w 3) lt d a b)) := rfl
theorem row_B2 (h : Hdr) (w : Word) : decodeClass5 0xB2 h w =
    ((vreg (fD w)).bind fun d => (vreg (fA w)).bind fun a => (VOpB.dec (bits w 2 1) (fB w)).bind fun b =>
      (LType.dec (bits w 0 2)).bind fun lt => req (fC w == 0 && bits w 3 17 == 0) (.vfdiv h lt d a b)) := rfl
theorem row_B3 (h : Hdr) (w : Word) : decodeClass5 0xB3 h w =
    ((vreg (fD w)).bind fun d => (vreg (fA w)).bind fun a => (LType.dec (bits w 0 2)).bind fun lt =>
      req (fB w == 0 && fC w == 0 && bits w 2 18 == 0) (.vfsqrt h lt d a)) := rfl
theorem row_B4 (h : Hdr) (w : Word) : decodeClass5 0xB4 h w =
    ((vreg (fD w)).bind fun d => (vreg (fA w)).bind fun a => (LType.dec (bits w 0 2)).bind fun lt =>
      req (fB w == 0 && fC w == 0 && bits w 2 18 == 0) (.vfexp2 h lt d a)) := rfl
theorem row_B5 (h : Hdr) (w : Word) : decodeClass5 0xB5 h w =
    ((vreg (fD w)).bind fun d => (vreg (fA w)).bind fun a => (LType.dec (bits w 0 2)).bind fun lt =>
      req (fB w == 0 && fC w == 0 && bits w 2 18 == 0) (.vfrcp h lt d a)) := rfl
theorem row_B6 (h : Hdr) (w : Word) : decodeClass5 0xB6 h w =
    ((vreg (fD w)).bind fun d => (vreg (fA w)).bind fun a => (LType.dec (bits w 0 2)).bind fun lt =>
      req (fB w == 0 && fC w == 0 && bits w 2 18 == 0) (.vfrsq h lt d a)) := rfl
theorem row_B7 (h : Hdr) (w : Word) : decodeClass5 0xB7 h w =
    ((vreg (fA w)).bind fun a => (VOpB.dec (bits w 2 1) (fB w)).bind fun b =>
      (VCmpOp.dec (bits w 4 4) (bits w 3 1) (bits w 0 2)).bind fun op =>
      req (fC w == 0 && bits w 8 12 == 0) (.vcmp h op (fD w) a b)) := rfl
theorem row_B8 (h : Hdr) (w : Word) : decodeClass5 0xB8 h w =
    ((vreg (fD w)).bind fun d => (vreg (fA w)).bind fun a =>
      (CvtSide.dec (bits w 7 4) (bits w 17 1)).bind fun tgt => (CvtSide.dec (bits w 3 4) (bits w 16 1)).bind fun fr =>
      (decRm (bits w 12 1) (bits w 13 3)).bind fun rm =>
      req (fB w == 0 && fC w == 0 && bits w 18 2 == 0 && bits w 0 3 == 0 &&
        (Instr.vcvt h tgt fr (bit w 11) rm d a).fieldsOk) (.vcvt h tgt fr (bit w 11) rm d a)) := rfl
theorem row_B9 (h : Hdr) (w : Word) : decodeClass5 0xB9 h w =
    ((vreg (fD w)).bind fun d => (vreg (fA w)).bind fun a => (RedOp.dec (bits w 3 3) (bits w 0 2)).bind fun op =>
      req (fB w == 0 && fC w == 0 && bits w 6 14 == 0 && bits w 2 1 == 0) (.vred h op d a)) := rfl
theorem row_BA (h : Hdr) (w : Word) : decodeClass5 0xBA h w =
    ((vreg (fD w)).bind fun d => (vreg (fA w)).bind fun a => (VOpB.dec (bits w 2 1) (fB w)).bind fun b =>
      req (fC w == 0 && bits w 4 16 == 0 && bits w 0 2 == 0) (.vperm h (bit w 3) d a b)) := rfl
theorem row_BB (h : Hdr) (w : Word) : decodeClass5 0xBB h w =
    ((vreg (fD w)).bind fun d => req (fB w == 0 && fC w == 0 && fFn w == 0) (.vsplat h d (fA w))) := rfl
theorem row_BC (h : Hdr) (w : Word) : decodeClass5 0xBC h w =
    ((vreg (fA w)).bind fun a => req (fC w == 0 && bits w 10 10 == 0 && bits w 0 3 == 0)
      (.vext h (bit w 3) (bits w 4 6) (fD w) a (fB w))) := rfl
theorem row_BD (h : Hdr) (w : Word) : decodeClass5 0xBD h w =
    ((vreg (fD w)).bind fun d => (vreg (fA w)).bind fun a => (HadN.dec (bits w 3 2)).bind fun n =>
      (LType.dec (bits w 0 2)).bind fun lt =>
      req (fB w == 0 && fC w == 0 && bits w 6 14 == 0 && bits w 2 1 == 0) (.vhad h n (bit w 5) lt d a)) := rfl
theorem row_BE (h : Hdr) (w : Word) : decodeClass5 0xBE h w =
    ((vreg (fD w)).bind fun d => (vreg (fA w)).bind fun a => (VOpB.dec (bits w 2 1) (fB w)).bind fun b =>
      req (bits w 3 17 == 0 && bits w 0 2 == 0) (.vsel h d a b (fC w))) := rfl
theorem row_BF (h : Hdr) (w : Word) : decodeClass5 0xBF h w =
    ((vreg (fD w)).bind fun d => req (fC w == 0 && fFn w == 0) (.viota h d (fA w) (fB w))) := rfl
theorem row_C0 (h : Hdr) (w : Word) : decodeClass6 0xC0 h w =
    ((Slice.dec (fSel w) (fXs w) (fXimm w)).bind fun sl =>
      req (fTa w == 0 && fTb w == 0 && fAcc w == 0 && bits w 0 15 == 0 && sl == .whole) (.tcfg h (fReg w))) := rfl
theorem row_C1 (h : Hdr) (w : Word) : decodeClass6 0xC1 h w =
    ((Slice.dec (fSel w) (fXs w) (fXimm w)).bind fun sl => (decOptReg (bits w 0 1) (fReg w)).bind fun t =>
      req (fTb w == 0 && fAcc w == 0 && bits w 1 14 == 0 && (t.isNone || sl.notCol)) (.tzero h (fTa w) sl t)) := rfl
theorem row_C2 (h : Hdr) (w : Word) : decodeClass6 0xC2 h w =
    ((Slice.dec (fSel w) (fXs w) (fXimm w)).bind fun sl => (vreg (fReg w)).bind fun r =>
      req (fTb w == 0 && fAcc w == 0 && bits w 3 12 == 0 && sl.notWhole && (!bit w 2 || sl.notCol))
        (.tmovv h (fTa w) sl r (bit w 0) (bit w 1) (bit w 2))) := rfl
theorem row_C3 (h : Hdr) (w : Word) : decodeClass6 0xC3 h w =
    ((Slice.dec (fSel w) (fXs w) (fXimm w)).bind fun sl =>
      req (fAcc w == 0 && fReg w == 0 && bits w 0 15 == 0 && sl == .whole) (.tmovt h (fTa w) (fTb w))) := rfl
theorem row_C4 (h : Hdr) (w : Word) : decodeClass6 0xC4 h w =
    ((Slice.dec (fSel w) (fXs w) (fXimm w)).bind fun sl =>
      req (fAcc w == 0 && fReg w == 0 && bits w 0 15 == 0) (.tcopy h (fTa w) (fTb w) sl)) := rfl
theorem row_C5 (h : Hdr) (w : Word) : decodeClass6 0xC5 h w =
    ((Slice.dec (fSel w) (fXs w) (fXimm w)).bind fun sl =>
      req (fAcc w == 0 && fReg w == 0 && bits w 0 15 == 0 && sl.notCol) (.tdec h (fTa w) (fTb w) sl)) := rfl
theorem row_C6 (h : Hdr) (w : Word) : decodeClass6 0xC6 h w =
    ((Slice.dec (fSel w) (fXs w) (fXimm w)).bind fun sl =>
      req (fAcc w == 0 && bits w 1 14 == 0 && sl.notCol) (.tenc h (fTa w) (fTb w) sl (fReg w) (bit w 0))) := rfl
theorem row_C7 (h : Hdr) (w : Word) : decodeClass6 0xC7 h w =
    ((Slice.dec (fSel w) (fXs w) (fXimm w)).bind fun sl =>
      req (fReg w == 0 && bits w 6 9 == 0 && sl == .whole) (.mma h (fTa w) (fTb w) (fAcc w) (bit w 0) (bit w 1) (bit w 2) (bit w 3) (bit w 4) (bit w 5))) := rfl
theorem row_C8 (h : Hdr) (w : Word) : decodeClass6 0xC8 h w =
    ((Slice.dec (fSel w) (fXs w) (fXimm w)).bind fun sl =>
      req (fTb w == 0 && fAcc w == 0 && bits w 14 1 == 0 && bits w 0 7 == 0 && sl == .whole)
        (.mpt h (fTa w) (fReg w) (bits w 7 7))) := rfl
theorem row_C9 (h : Hdr) (w : Word) : decodeClass6 0xC9 h w =
    ((Slice.dec (fSel w) (fXs w) (fXimm w)).bind fun sl =>
      req (fTb w == 0 && fReg w == 0 && bits w 1 14 == 0 && sl == .whole) (.mga h (fTa w) (fAcc w) (bit w 0))) := rfl
theorem row_CA (h : Hdr) (w : Word) : decodeClass6 0xCA h w =
    ((Slice.dec (fSel w) (fXs w) (fXimm w)).bind fun sl => (HadN.dec (bits w 0 2)).bind fun n =>
      req (fAcc w == 0 && fReg w == 0 && bits w 3 12 == 0 && sl.notCol) (.mhad h (fTa w) (fTb w) sl n (bit w 2))) := rfl
theorem row_CB (h : Hdr) (w : Word) : decodeClass6 0xCB h w =
    ((Slice.dec (fSel w) (fXs w) (fXimm w)).bind fun sl =>
      req (fTa w == 0 && fTb w == 0 && fReg w == 0 && bits w 1 14 == 0) (.azero h (fAcc w) sl (bit w 0))) := rfl
theorem row_CC (h : Hdr) (w : Word) : decodeClass6 0xCC h w =
    ((Slice.dec (fSel w) (fXs w) (fXimm w)).bind fun sl => (vreg (fReg w)).bind fun r =>
      req (fTa w == 0 && fTb w == 0 && bits w 2 13 == 0 && bits w 0 1 == 0 && sl.notWhole) (.amovv h (fAcc w) sl r (bit w 1))) := rfl
theorem row_CD (h : Hdr) (w : Word) : decodeClass6 0xCD h w =
    ((Slice.dec (fSel w) (fXs w) (fXimm w)).bind fun sl => (vreg (fReg w)).bind fun r =>
      req (fTa w == 0 && fTb w == 0 && bits w 4 11 == 0 && bits w 0 1 == 0 && sl.notWhole) (.awrv h (fAcc w) sl r (bit w 1) (bit w 2) (bit w 3))) := rfl
theorem row_CE (h : Hdr) (w : Word) : decodeClass6 0xCE h w =
    ((Slice.dec (fSel w) (fXs w) (fXimm w)).bind fun sl =>
      req (fTb w == 0 && bits w 4 11 == 0 && sl.notCol) (.acvt h (fTa w) (fAcc w) sl (fReg w) (bit w 0) (bit w 1) (bit w 2) (bit w 3))) := rfl
theorem row_CF (h : Hdr) (w : Word) : decodeClass6 0xCF h w =
    ((Slice.dec (fSel w) (fXs w) (fXimm w)).bind fun sl =>
      req (fTa w == 0 && fTb w == 0 && bits w 0 15 == 0) (.ascl h (fAcc w) sl (fReg w))) := rfl
theorem row_D0 (h : Hdr) (w : Word) : decodeClass6 0xD0 h w =
    ((Slice.dec (fSel w) (fXs w) (fXimm w)).bind fun sl => (vreg (fReg w)).bind fun r =>
      req (fTa w == 0 && fTb w == 0 && bits w 4 11 == 0 && bits w 0 3 == 0) (.abmax h (fAcc w) sl r (bit w 3))) := rfl
theorem row_D1 (h : Hdr) (w : Word) : decodeClass6 0xD1 h w =
    ((Slice.dec (fSel w) (fXs w) (fXimm w)).bind fun sl =>
      req (fTa w == 0 && fTb w == 0 && fReg w == 0 && bits w 0 15 == 0) (.rzero h (fAcc w) sl)) := rfl
theorem row_D2 (h : Hdr) (w : Word) : decodeClass6 0xD2 h w =
    ((Slice.dec (fSel w) (fXs w) (fXimm w)).bind fun sl => (vreg (fReg w)).bind fun r =>
      req (fTa w == 0 && fTb w == 0 && bits w 2 13 == 0 && sl.notWhole) (.rmovv h (fAcc w) sl r (bit w 0) (bit w 1))) := rfl
theorem row_D3 (h : Hdr) (w : Word) : decodeClass6 0xD3 h w =
    ((RMode.dec (bits w 0 3)).bind fun m => (decOptReg (bits w 3 1) (fA w)).bind fun l =>
      req (fD w == 0 && bits w 4 28 == 0) (.mmode h m l)) := rfl
theorem row_D4 (h : Hdr) (w : Word) : decodeClass6 0xD4 h w =
    (req (bits w 12 20 == 0 && cbidOk (bits w 0 12)) (.cbld h (fD w) (fA w) (bits w 0 12))) := rfl
theorem row_D5 (h : Hdr) (w : Word) : decodeClass6 0xD5 h w =
    (req (bits w 12 20 == 0 && cbidOk (bits w 0 12)) (.cbrev h (fD w) (fA w) (bits w 0 12))) := rfl
theorem row_D6 (h : Hdr) (w : Word) : decodeClass6 0xD6 h w =
    (req (bits w 12 20 == 0 && cbidOk (bits w 0 12)) (.cbfloor h (fD w) (fA w) (bits w 0 12))) := rfl
theorem row_D7 (h : Hdr) (w : Word) : decodeClass6 0xD7 h w =
    ((vreg (fD w)).bind fun d => (vreg (fA w)).bind fun a =>
      req (fC w == 0 && bits w 1 19 == 0) (.cbenc h (bit w 0) d a (fB w))) := rfl
theorem row_D8 (h : Hdr) (w : Word) : decodeClass6 0xD8 h w =
    ((vreg (fD w)).bind fun d => (vreg (fA w)).bind fun a =>
      req (fC w == 0 && bits w 1 19 == 0) (.cbdec h (bit w 0) d a (fB w))) := rfl
theorem row_D9 (h : Hdr) (w : Word) : decodeClass6 0xD9 h w =
    (req (bits w 12 20 == 0 && cbidOk (bits w 0 12)) (.cbstat h (fD w) (fA w) (bits w 0 12))) := rfl
theorem row_DA (h : Hdr) (w : Word) : decodeClass6 0xDA h w =
    (req (bits w 12 20 == 0 && cbidOk (bits w 0 12)) (.cbpin h (fD w) (fA w) (bits w 0 12))) := rfl
theorem row_E1 (h : Hdr) (w : Word) : decodeClass7 0xE1 h w =
    (req (fA w == 0 && fB w == 0 && fC w == 0 && bits w 4 16 == 0) (.collst h (fD w) (bit w 3) (bits w 0 3))) := rfl
theorem row_E2 (h : Hdr) (w : Word) : decodeClass7 0xE2 h w =
    (req (fA w == 0 && fB w == 0 && fC w == 0 && bits w 3 17 == 0) (.collab h (fD w) (bits w 0 3))) := rfl
theorem row_E3 (h : Hdr) (w : Word) : decodeClass7 0xE3 h w =
    ((LdSize.dec (fSz w)).bind fun sz => some (.fxr h sz (fSc w) (fD w) (fA w) (fB w) (fOff w))) := rfl
theorem row_E4 (h : Hdr) (w : Word) : decodeClass7 0xE4 h w =
    ((StSize.dec (fSz w)).bind fun sz => some (.fxw h sz (fSc w) (fD w) (fA w) (fB w) (fOff w))) := rfl
theorem row_E5 (h : Hdr) (w : Word) : decodeClass7 0xE5 h w =
    ((AmoSize.dec (fSz w)).bind fun sz => (AmoOp.dec (fAmo w)).bind fun op =>
      req (op ≠ .cas || evenReg (fD w)) (.fxamo h op sz (fSc w) (fD w) (fA w) (fB w) (fOff16 w))) := rfl
theorem row_E6 (h : Hdr) (w : Word) : decodeClass7 0xE6 h w =
    (req (fSz w == 0) (.fxsig h (fSc w) (fD w) (fA w) (fB w) (fOff w))) := rfl
theorem row_E7 (h : Hdr) (w : Word) : decodeClass7 0xE7 h w =
    (if fB w == 0 && fC w == 0 && bits w 2 18 == 0 then
      (match (bits w 0 2).toNat with | 0 => some (.chainOpen h (fD w) (fA w)) | 1 => some (.chainClose h (fD w) (fA w)) | 2 => some (.chainQuery h (fD w) (fA w)) | _ => none) else none) := rfl
theorem row_E8 (h : Hdr) (w : Word) : decodeClass7 0xE8 h w =
    (req (fB w == 0 && fC w == 0 && fFn w == 0) (.demote h (fD w) (fA w))) := rfl
theorem row_E9 (h : Hdr) (w : Word) : decodeClass7 0xE9 h w =
    (if fB w == 0 && fC w == 0 && bits w 2 18 == 0 then
      (match (bits w 0 2).toNat with | 0 => some (.keyopGen h (fD w) (fA w)) | 1 => some (.keyopDestroy h (fD w) (fA w)) | 2 => some (.keyopQuery h (fD w) (fA w)) | _ => none) else none) := rfl
theorem row_EA (h : Hdr) (w : Word) : decodeClass7 0xEA h w =
    ((SysReg.dec (bits w 0 12)).bind fun r => req (fA w == 0 && bits w 12 20 == 0) (.sysr h (fD w) r)) := rfl
theorem row_EB (h : Hdr) (w : Word) : decodeClass7 0xEB h w =
    ((SysReg.dec (bits w 0 12)).bind fun r => if bits w 12 20 == 0 && r.writable then
      some (match r with | .hmask n => .syswHmask h (fD w) (fA w) n | r => .sysw h (fD w) (fA w) r) else none) := rfl
theorem row_EC (h : Hdr) (w : Word) : decodeClass7 0xEC h w =
    (req (fC w == 0 && bits w 15 5 == 0) (.hostsig h (fD w) (fA w) (fB w) (bits w 0 15))) := rfl
theorem row_ED (h : Hdr) (w : Word) : decodeClass7 0xED h w =
    (if fB w == 0 && fC w == 0 && bits w 2 18 == 0 then
      (match (bits w 0 2).toNat with | 0 => some (.timeadjStep h (fD w) (fA w)) | 1 => some (.timeadjRate h (fD w) (fA w)) | 2 => some (.timeadjQuery h (fD w) (fA w)) | _ => none) else none) := rfl
theorem row_EE (h : Hdr) (w : Word) : decodeClass7 0xEE h w =
    (req (fC w == 0 && bits w 16 4 == 0) (.trace h (fD w) (fA w) (fB w) (fOff16 w))) := rfl
theorem row_EF (h : Hdr) (w : Word) : decodeClass7 0xEF h w =
    (req (fC w == 0 && fFn w == 0) (.monsnap h (fD w) (fA w) (fB w))) := rfl
theorem row_F0 (h : Hdr) (w : Word) : decodeClass7 0xF0 h w =
    (if fB w == 0 && fC w == 0 && bits w 2 18 == 0 then
      (match (bits w 0 2).toNat with | 0 => some (.wdogArm h (fD w) (fA w)) | 1 => some (.wdogOff h (fD w) (fA w)) | 2 => some (.wdogQuery h (fD w) (fA w)) | _ => none) else none) := rfl
theorem row_F1 (h : Hdr) (w : Word) : decodeClass7 0xF1 h w =
    (req (fB w == 0 && fC w == 0 && fFn w == 0) (.sparemap h (fD w) (fA w))) := rfl
theorem row_F2 (h : Hdr) (w : Word) : decodeClass7 0xF2 h w =
    (req (fC w == 0 && bits w 4 16 == 0 && (bits w 0 3).toNat < 3) (.eccinj h (fD w) (fA w) (fB w) (bits w 0 3) (bit w 3))) := rfl
theorem row_F3 (h : Hdr) (w : Word) : decodeClass7 0xF3 h w =
    (req (fB w == 0 && fC w == 0 && bits w 1 19 == 0) (.eccst h (fD w) (fA w) (bit w 0))) := rfl

/-! ## From a row to the word -/

theorem hdr_wf {i : Instr} {h : Hdr} (e : i.hdr? = some h) (w : i.wf = true) : h.wf = true ∧ i.fieldsOk = true := by
  simp only [Instr.wf, e, Bool.and_eq_true] at w
  exact w.1
theorem fHdr_of {w : Word} {h : Hdr} (a : fRole w = h.role) (b : fG w = h.g) (c : fGn w = BitVec.ofBool h.gn) : fHdr w = h := by
  simp [fHdr, a, b, c, gn_eq]
theorem decode_class0 {w : Word} {h : Hdr} {i : Instr} (o : Nat) (hh : h.wf = true) (a : fRole w = h.role) (b : fG w = h.g)
    (c : fGn w = BitVec.ofBool h.gn) (ho : (fOpc w).toNat = o) (k : isXH o = false) (q : assigned o = true) (hk : o / 32 = 0)
    (d : decodeClass0 o h w = some i) : decodeWord w = .ok i := by
  simp [decodeWord, decodeFields, fHdr_of a b c, hh, ho, q, k, hk, d]
theorem decode_class1 {w : Word} {h : Hdr} {i : Instr} (o : Nat) (hh : h.wf = true) (a : fRole w = h.role) (b : fG w = h.g)
    (c : fGn w = BitVec.ofBool h.gn) (ho : (fOpc w).toNat = o) (k : isXH o = false) (q : assigned o = true) (hk : o / 32 = 1)
    (d : decodeClass1 o h w = some i) : decodeWord w = .ok i := by
  simp [decodeWord, decodeFields, fHdr_of a b c, hh, ho, q, k, hk, d]
theorem decode_class2 {w : Word} {h : Hdr} {i : Instr} (o : Nat) (hh : h.wf = true) (a : fRole w = h.role) (b : fG w = h.g)
    (c : fGn w = BitVec.ofBool h.gn) (ho : (fOpc w).toNat = o) (k : isXH o = false) (q : assigned o = true) (hk : o / 32 = 2)
    (d : decodeClass2 o h w = some i) : decodeWord w = .ok i := by
  simp [decodeWord, decodeFields, fHdr_of a b c, hh, ho, q, k, hk, d]
theorem decode_class3 {w : Word} {h : Hdr} {i : Instr} (o : Nat) (hh : h.wf = true) (a : fRole w = h.role) (b : fG w = h.g)
    (c : fGn w = BitVec.ofBool h.gn) (ho : (fOpc w).toNat = o) (k : isXH o = false) (q : assigned o = true) (hk : o / 32 = 3)
    (d : decodeClass3 o h w = some i) : decodeWord w = .ok i := by
  simp [decodeWord, decodeFields, fHdr_of a b c, hh, ho, q, k, hk, d]
theorem decode_class4 {w : Word} {h : Hdr} {i : Instr} (o : Nat) (hh : h.wf = true) (a : fRole w = h.role) (b : fG w = h.g)
    (c : fGn w = BitVec.ofBool h.gn) (ho : (fOpc w).toNat = o) (k : isXH o = false) (q : assigned o = true) (hk : o / 32 = 4)
    (d : decodeClass4 o h w = some i) : decodeWord w = .ok i := by
  simp [decodeWord, decodeFields, fHdr_of a b c, hh, ho, q, k, hk, d]
theorem decode_class5 {w : Word} {h : Hdr} {i : Instr} (o : Nat) (hh : h.wf = true) (a : fRole w = h.role) (b : fG w = h.g)
    (c : fGn w = BitVec.ofBool h.gn) (ho : (fOpc w).toNat = o) (k : isXH o = false) (q : assigned o = true) (hk : o / 32 = 5)
    (d : decodeClass5 o h w = some i) : decodeWord w = .ok i := by
  simp [decodeWord, decodeFields, fHdr_of a b c, hh, ho, q, k, hk, d]
theorem decode_class6 {w : Word} {h : Hdr} {i : Instr} (o : Nat) (hh : h.wf = true) (a : fRole w = h.role) (b : fG w = h.g)
    (c : fGn w = BitVec.ofBool h.gn) (ho : (fOpc w).toNat = o) (k : isXH o = false) (q : assigned o = true) (hk : o / 32 = 6)
    (d : decodeClass6 o h w = some i) : decodeWord w = .ok i := by
  simp [decodeWord, decodeFields, fHdr_of a b c, hh, ho, q, k, hk, d]
theorem decode_class7 {w : Word} {h : Hdr} {i : Instr} (o : Nat) (hh : h.wf = true) (a : fRole w = h.role) (b : fG w = h.g)
    (c : fGn w = BitVec.ofBool h.gn) (ho : (fOpc w).toNat = o) (k : isXH o = false) (q : assigned o = true) (hk : o / 32 = 7)
    (d : decodeClass7 o h w = some i) : decodeWord w = .ok i := by
  simp [decodeWord, decodeFields, fHdr_of a b c, hh, ho, q, k, hk, d]
theorem decode_XH {w : Word} {h : Hdr} {i : Instr} (o : Nat) (hh : h.wf = true) (a : fRole w = h.role) (b : fG w = h.g)
    (c : fGn w = BitVec.ofBool h.gn) (ho : (fOpc w).toNat = o) (k : isXH o = true) (q : assigned o = true)
    (d : decodeXH o h w = .ok i) : decodeWord w = .ok i := by
  simp [decodeWord, decodeFields, fHdr_of a b c, hh, ho, q, k, d]

end Sys2Proof
end

