-- ==== Sys2Proof/Laws/PerInstr.lean ====
section
/-! SUPPORT. Decoding undoes encoding, one lemma for each constructor of `Instr` (02 R40-R66). -/

namespace Sys2Proof.Laws.RoundTrip

set_option Elab.async false
set_option linter.unusedSimpArgs false

/-- The word of a well-formed instruction decodes to it. -/
def Statement (i : Instr) : Prop := i.wf = true → decodeWord (encode i) = .ok i

theorem nop (h : Hdr) : Statement (.nop h) := by
  intro hw
  have ⟨hh, hf⟩ := hdr_wf rfl hw
  refine decode_class0 (h := h) 0x00 hh (packR_fRole ..) (packR_fG ..) (packR_fGn ..) (congrArg BitVec.toNat (packR_fOpc ..)) rfl rfl rfl
    ((row_00 ..).trans ?_)
  simp (disch := omega) only [encode, packR_fD, packR_fA, packR_fB, packR_fC, packR_fFn, packR_bits, packR_bit, fOff16_eq, fAmo_eq, tf, b1, bits_lo, bits_hi, bit_lo, bit_hi]
  simp [req]
theorem halt (h : Hdr) : Statement (.halt h) := by
  intro hw
  have ⟨hh, hf⟩ := hdr_wf rfl hw
  refine decode_class0 (h := h) 0x01 hh (packR_fRole ..) (packR_fG ..) (packR_fGn ..) (congrArg BitVec.toNat (packR_fOpc ..)) rfl rfl rfl
    ((row_01 ..).trans ?_)
  simp (disch := omega) only [encode, packR_fD, packR_fA, packR_fB, packR_fC, packR_fFn, packR_bits, packR_bit, fOff16_eq, fAmo_eq, tf, b1, bits_lo, bits_hi, bit_lo, bit_hi]
  simp [req]
theorem br (h : Hdr) (slot : BitVec 3) (boff : BitVec 20) : Statement (.br h slot boff) := by
  intro hw
  have ⟨hh, hf⟩ := hdr_wf rfl hw
  refine decode_class0 (h := h) 0x02 hh (packB_fRole ..) (packB_fG ..) (packB_fGn ..) (congrArg BitVec.toNat (packB_fOpc ..)) rfl rfl rfl
    ((row_02 ..).trans ?_)
  simp (disch := omega) only [encode, packB_fD, packB_fA, packB_fBRes, packB_fSlot, packB_fOff, packB_bits, fOff16_eq, fAmo_eq, tf, b1, bits_lo, bits_hi, bit_lo, bit_hi]
  simpa [req, Instr.fieldsOk] using hf
theorem jmp (h : Hdr) (a : SReg) (slot : BitVec 3) (boff : BitVec 20) : Statement (.jmp h a slot boff) := by
  intro hw
  have ⟨hh, hf⟩ := hdr_wf rfl hw
  refine decode_class0 (h := h) 0x03 hh (packB_fRole ..) (packB_fG ..) (packB_fGn ..) (congrArg BitVec.toNat (packB_fOpc ..)) rfl rfl rfl
    ((row_03 ..).trans ?_)
  simp (disch := omega) only [encode, packB_fD, packB_fA, packB_fBRes, packB_fSlot, packB_fOff, packB_bits, fOff16_eq, fAmo_eq, tf, b1, bits_lo, bits_hi, bit_lo, bit_hi]
  simpa [req, Instr.fieldsOk] using hf
theorem call (h : Hdr) (d : SReg) (slot : BitVec 3) (boff : BitVec 20) : Statement (.call h d slot boff) := by
  intro hw
  have ⟨hh, hf⟩ := hdr_wf rfl hw
  refine decode_class0 (h := h) 0x04 hh (packB_fRole ..) (packB_fG ..) (packB_fGn ..) (congrArg BitVec.toNat (packB_fOpc ..)) rfl rfl rfl
    ((row_04 ..).trans ?_)
  simp (disch := omega) only [encode, packB_fD, packB_fA, packB_fBRes, packB_fSlot, packB_fOff, packB_bits, fOff16_eq, fAmo_eq, tf, b1, bits_lo, bits_hi, bit_lo, bit_hi]
  simpa [req, Instr.fieldsOk] using hf
theorem callr (h : Hdr) (d a : SReg) : Statement (.callr h d a) := by
  intro hw
  have ⟨hh, hf⟩ := hdr_wf rfl hw
  refine decode_class0 (h := h) 0x05 hh (packR_fRole ..) (packR_fG ..) (packR_fGn ..) (congrArg BitVec.toNat (packR_fOpc ..)) rfl rfl rfl
    ((row_05 ..).trans ?_)
  simp (disch := omega) only [encode, packR_fD, packR_fA, packR_fB, packR_fC, packR_fFn, packR_bits, packR_bit, fOff16_eq, fAmo_eq, tf, b1, bits_lo, bits_hi, bit_lo, bit_hi]
  simp [req]
theorem ret (h : Hdr) (a : SReg) : Statement (.ret h a) := by
  intro hw
  have ⟨hh, hf⟩ := hdr_wf rfl hw
  refine decode_class0 (h := h) 0x06 hh (packR_fRole ..) (packR_fG ..) (packR_fGn ..) (congrArg BitVec.toNat (packR_fOpc ..)) rfl rfl rfl
    ((row_06 ..).trans ?_)
  simp (disch := omega) only [encode, packR_fD, packR_fA, packR_fB, packR_fC, packR_fFn, packR_bits, packR_bit, fOff16_eq, fAmo_eq, tf, b1, bits_lo, bits_hi, bit_lo, bit_hi]
  simp [req]
theorem loop (h : Hdr) (d a : SReg) (slot : BitVec 3) (boff : BitVec 20) : Statement (.loop h d a slot boff) := by
  intro hw
  have ⟨hh, hf⟩ := hdr_wf rfl hw
  refine decode_class0 (h := h) 0x07 hh (packB_fRole ..) (packB_fG ..) (packB_fGn ..) (congrArg BitVec.toNat (packB_fOpc ..)) rfl rfl rfl
    ((row_07 ..).trans ?_)
  simp (disch := omega) only [encode, packB_fD, packB_fA, packB_fBRes, packB_fSlot, packB_fOff, packB_bits, fOff16_eq, fAmo_eq, tf, b1, bits_lo, bits_hi, bit_lo, bit_hi]
  simpa [req, Instr.fieldsOk] using hf
theorem rep (h : Hdr) (count : BitVec 6) (id ia ib ic : BitVec 3) : Statement (.rep h count id ia ib ic) := by
  intro hw
  have ⟨hh, hf⟩ := hdr_wf rfl hw
  refine decode_class0 (h := h) 0x08 hh (packR_fRole ..) (packR_fG ..) (packR_fGn ..) (congrArg BitVec.toNat (packR_fOpc ..)) rfl rfl rfl
    ((row_08 ..).trans ?_)
  simp (disch := omega) only [encode, packR_fD, packR_fA, packR_fB, packR_fC, packR_fFn, packR_bits, packR_bit, fOff16_eq, fAmo_eq, tf, b1, bits_lo, bits_hi, bit_lo, bit_hi]
  simp [req]
theorem hand (h : Hdr) (frm tgt : BitVec 4) (n : BitVec 4) : Statement (.hand h frm tgt n) := by
  intro hw
  have ⟨hh, hf⟩ := hdr_wf rfl hw
  refine decode_XH (h := h) 0x09 hh (packH_fRole ..) (packH_fG ..) (packH_fGn ..) (congrArg BitVec.toNat (packH_fOpc ..)) rfl rfl ?_
  simp (disch := omega) only [encode, decodeXH, packH_fD, packH_fFrom, packH_fTo, packH_fN, packH_fHRes, packX_bits, packX_bit, b1, bits_lo, bits_hi, bit_lo, bit_hi, decNr_enc, CollOp.dec_enc, Scope.dec_enc, bits_all]
  simp [Instr.fieldsOk] at hf
  simp [ext5_inj, ext5_toNat _ _ hf.2, Ne.symm hf.1]
theorem htest (h : Hdr) (d : PReg) (frm tgt : BitVec 4) : Statement (.htest h d frm tgt) := by
  intro hw
  have ⟨hh, hf⟩ := hdr_wf rfl hw
  refine decode_XH (h := h) 0x0A hh (packH_fRole ..) (packH_fG ..) (packH_fGn ..) (congrArg BitVec.toNat (packH_fOpc ..)) rfl rfl ?_
  simp (disch := omega) only [encode, decodeXH, packH_fD, packH_fFrom, packH_fTo, packH_fN, packH_fHRes, packX_bits, packX_bit, b1, bits_lo, bits_hi, bit_lo, bit_hi, decNr_enc, CollOp.dec_enc, Scope.dec_enc, bits_all]
  simp [Instr.fieldsOk] at hf
  simp [ext5_inj, Ne.symm hf]
theorem bar (h : Hdr) (d : SReg) (mode : BarMode) (ring : Byte) (off : BitVec 4) : Statement (.bar h d mode ring off) := by
  intro hw
  have ⟨hh, hf⟩ := hdr_wf rfl hw
  refine decode_class0 (h := h) 0x0B hh (packI_fRole ..) (packI_fG ..) (packI_fGn ..) (congrArg BitVec.toNat (packI_fOpc ..)) rfl rfl rfl
    ((row_0B ..).trans ?_)
  simp (disch := omega) only [encode, packI_fD, packI_fA, packI_fImm, packI_bits, packI_bit, fOff16_eq, fAmo_eq, tf, b1, bits_lo, bits_hi, bit_lo, bit_hi]
  simp [req]
theorem barb (h : Hdr) (k : BitVec 4) : Statement (.barb h k) := by
  intro hw
  have ⟨hh, hf⟩ := hdr_wf rfl hw
  refine decode_class0 (h := h) 0x0C hh (packI_fRole ..) (packI_fG ..) (packI_fGn ..) (congrArg BitVec.toNat (packI_fOpc ..)) rfl rfl rfl
    ((row_0C ..).trans ?_)
  simp (disch := omega) only [encode, packI_fD, packI_fA, packI_fImm, packI_bits, packI_bit, fOff16_eq, fAmo_eq, tf, b1, bits_lo, bits_hi, bit_lo, bit_hi]
  simp [req]
theorem marm (h : Hdr) (a b : SReg) (sc : Scope) (off : BitVec 20) : Statement (.marm h a b sc off) := by
  intro hw
  have ⟨hh, hf⟩ := hdr_wf rfl hw
  refine decode_class0 (h := h) 0x0D hh (packM_fRole ..) (packM_fG ..) (packM_fGn ..) (congrArg BitVec.toNat (packM_fOpc ..)) rfl rfl rfl
    ((row_0D ..).trans ?_)
  simp (disch := omega) only [encode, packM_fD, packM_fA, packM_fB, packM_fSc, packM_fSz, packM_fOff, packM_bits, packM_tag, fOff16_eq, fAmo_eq, tf, b1, bits_lo, bits_hi, bit_lo, bit_hi]
  simp [req]
theorem mwait (h : Hdr) (d : SReg) (tgt : Option SReg) : Statement (.mwait h d tgt) := by
  intro hw
  have ⟨hh, hf⟩ := hdr_wf rfl hw
  refine decode_class0 (h := h) 0x0E hh (packI_fRole ..) (packI_fG ..) (packI_fGn ..) (congrArg BitVec.toNat (packI_fOpc ..)) rfl rfl rfl
    ((row_0E ..).trans ?_)
  simp (disch := omega) only [encode, packI_fD, packI_fA, packI_fImm, packI_bits, packI_bit, fOff16_eq, fAmo_eq, tf, b1, bits_lo, bits_hi, bit_lo, bit_hi]
  simp [req]
theorem wakeat (h : Hdr) (a : SReg) : Statement (.wakeat h a) := by
  intro hw
  have ⟨hh, hf⟩ := hdr_wf rfl hw
  refine decode_class0 (h := h) 0x0F hh (packR_fRole ..) (packR_fG ..) (packR_fGn ..) (congrArg BitVec.toNat (packR_fOpc ..)) rfl rfl rfl
    ((row_0F ..).trans ?_)
  simp (disch := omega) only [encode, packR_fD, packR_fA, packR_fB, packR_fC, packR_fFn, packR_bits, packR_bit, fOff16_eq, fAmo_eq, tf, b1, bits_lo, bits_hi, bit_lo, bit_hi]
  simp [req]
theorem time (h : Hdr) (d : SReg) : Statement (.time h d) := by
  intro hw
  have ⟨hh, hf⟩ := hdr_wf rfl hw
  refine decode_class0 (h := h) 0x10 hh (packR_fRole ..) (packR_fG ..) (packR_fGn ..) (congrArg BitVec.toNat (packR_fOpc ..)) rfl rfl rfl
    ((row_10 ..).trans ?_)
  simp (disch := omega) only [encode, packR_fD, packR_fA, packR_fB, packR_fC, packR_fFn, packR_bits, packR_bit, fOff16_eq, fAmo_eq, tf, b1, bits_lo, bits_hi, bit_lo, bit_hi]
  simp [req]
theorem cycle (h : Hdr) (d : SReg) : Statement (.cycle h d) := by
  intro hw
  have ⟨hh, hf⟩ := hdr_wf rfl hw
  refine decode_class0 (h := h) 0x11 hh (packR_fRole ..) (packR_fG ..) (packR_fGn ..) (congrArg BitVec.toNat (packR_fOpc ..)) rfl rfl rfl
    ((row_11 ..).trans ?_)
  simp (disch := omega) only [encode, packR_fD, packR_fA, packR_fB, packR_fC, packR_fFn, packR_bits, packR_bit, fOff16_eq, fAmo_eq, tf, b1, bits_lo, bits_hi, bit_lo, bit_hi]
  simp [req]
theorem csrr (h : Hdr) (d : SReg) (csr : Csr) : Statement (.csrr h d csr) := by
  intro hw
  have ⟨hh, hf⟩ := hdr_wf rfl hw
  refine decode_class0 (h := h) 0x12 hh (packI_fRole ..) (packI_fG ..) (packI_fGn ..) (congrArg BitVec.toNat (packI_fOpc ..)) rfl rfl rfl
    ((row_12 ..).trans ?_)
  simp (disch := omega) only [encode, packI_fD, packI_fA, packI_fImm, packI_bits, packI_bit, fOff16_eq, fAmo_eq, tf, b1, bits_lo, bits_hi, bit_lo, bit_hi]
  simp [req]
theorem csrw (h : Hdr) (d a : SReg) (csr : Csr) : Statement (.csrw h d a csr) := by
  intro hw
  have ⟨hh, hf⟩ := hdr_wf rfl hw
  refine decode_class0 (h := h) 0x13 hh (packI_fRole ..) (packI_fG ..) (packI_fGn ..) (congrArg BitVec.toNat (packI_fOpc ..)) rfl rfl rfl
    ((row_13 ..).trans ?_)
  simp (disch := omega) only [encode, packI_fD, packI_fA, packI_fImm, packI_bits, packI_bit, fOff16_eq, fAmo_eq, tf, b1, bits_lo, bits_hi, bit_lo, bit_hi]
  simpa [req, Instr.fieldsOk] using hf
theorem csrs (h : Hdr) (d a : SReg) (csr : Csr) : Statement (.csrs h d a csr) := by
  intro hw
  have ⟨hh, hf⟩ := hdr_wf rfl hw
  refine decode_class0 (h := h) 0x14 hh (packI_fRole ..) (packI_fG ..) (packI_fGn ..) (congrArg BitVec.toNat (packI_fOpc ..)) rfl rfl rfl
    ((row_14 ..).trans ?_)
  simp (disch := omega) only [encode, packI_fD, packI_fA, packI_fImm, packI_bits, packI_bit, fOff16_eq, fAmo_eq, tf, b1, bits_lo, bits_hi, bit_lo, bit_hi]
  simpa [req, Instr.fieldsOk] using hf
theorem csrc (h : Hdr) (d a : SReg) (csr : Csr) : Statement (.csrc h d a csr) := by
  intro hw
  have ⟨hh, hf⟩ := hdr_wf rfl hw
  refine decode_class0 (h := h) 0x15 hh (packI_fRole ..) (packI_fG ..) (packI_fGn ..) (congrArg BitVec.toNat (packI_fOpc ..)) rfl rfl rfl
    ((row_15 ..).trans ?_)
  simp (disch := omega) only [encode, packI_fD, packI_fA, packI_fImm, packI_bits, packI_bit, fOff16_eq, fAmo_eq, tf, b1, bits_lo, bits_hi, bit_lo, bit_hi]
  simpa [req, Instr.fieldsOk] using hf
theorem trap (h : Hdr) (a : SReg) (code : BitVec 16) : Statement (.trap h a code) := by
  intro hw
  have ⟨hh, hf⟩ := hdr_wf rfl hw
  refine decode_class0 (h := h) 0x16 hh (packI_fRole ..) (packI_fG ..) (packI_fGn ..) (congrArg BitVec.toNat (packI_fOpc ..)) rfl rfl rfl
    ((row_16 ..).trans ?_)
  simp (disch := omega) only [encode, packI_fD, packI_fA, packI_fImm, packI_bits, packI_bit, fOff16_eq, fAmo_eq, tf, b1, bits_lo, bits_hi, bit_lo, bit_hi]
  simp [req]
theorem sysc (h : Hdr) (a : SReg) (code : BitVec 16) : Statement (.sysc h a code) := by
  intro hw
  have ⟨hh, hf⟩ := hdr_wf rfl hw
  refine decode_class0 (h := h) 0x17 hh (packI_fRole ..) (packI_fG ..) (packI_fGn ..) (congrArg BitVec.toNat (packI_fOpc ..)) rfl rfl rfl
    ((row_17 ..).trans ?_)
  simp (disch := omega) only [encode, packI_fD, packI_fA, packI_fImm, packI_bits, packI_bit, fOff16_eq, fAmo_eq, tf, b1, bits_lo, bits_hi, bit_lo, bit_hi]
  simp [req]
theorem rft (h : Hdr) : Statement (.rft h) := by
  intro hw
  have ⟨hh, hf⟩ := hdr_wf rfl hw
  refine decode_class0 (h := h) 0x18 hh (packR_fRole ..) (packR_fG ..) (packR_fGn ..) (congrArg BitVec.toNat (packR_fOpc ..)) rfl rfl rfl
    ((row_18 ..).trans ?_)
  simp (disch := omega) only [encode, packR_fD, packR_fA, packR_fB, packR_fC, packR_fFn, packR_bits, packR_bit, fOff16_eq, fAmo_eq, tf, b1, bits_lo, bits_hi, bit_lo, bit_hi]
  simp [req]
theorem fence (h : Hdr) (acq rel : Bool) (sc : Scope) : Statement (.fence h acq rel sc) := by
  intro hw
  have ⟨hh, hf⟩ := hdr_wf rfl hw
  refine decode_class0 (h := h) 0x19 hh (packR_fRole ..) (packR_fG ..) (packR_fGn ..) (congrArg BitVec.toNat (packR_fOpc ..)) rfl rfl rfl
    ((row_19 ..).trans ?_)
  simp (disch := omega) only [encode, packR_fD, packR_fA, packR_fB, packR_fC, packR_fFn, packR_bits, packR_bit, fOff16_eq, fAmo_eq, tf, b1, bits_lo, bits_hi, bit_lo, bit_hi]
  simp [Instr.fieldsOk] at hf
  rcases hf with hf | hf <;> simp [req, hf]
theorem yield (h : Hdr) (a : SReg) : Statement (.yield h a) := by
  intro hw
  have ⟨hh, hf⟩ := hdr_wf rfl hw
  refine decode_class0 (h := h) 0x1A hh (packR_fRole ..) (packR_fG ..) (packR_fGn ..) (congrArg BitVec.toNat (packR_fOpc ..)) rfl rfl rfl
    ((row_1A ..).trans ?_)
  simp (disch := omega) only [encode, packR_fD, packR_fA, packR_fB, packR_fC, packR_fFn, packR_bits, packR_bit, fOff16_eq, fAmo_eq, tf, b1, bits_lo, bits_hi, bit_lo, bit_hi]
  simp [req]
theorem moncfg (h : Hdr) (d a b : SReg) : Statement (.moncfg h d a b) := by
  intro hw
  have ⟨hh, hf⟩ := hdr_wf rfl hw
  refine decode_class0 (h := h) 0x1B hh (packR_fRole ..) (packR_fG ..) (packR_fGn ..) (congrArg BitVec.toNat (packR_fOpc ..)) rfl rfl rfl
    ((row_1B ..).trans ?_)
  simp (disch := omega) only [encode, packR_fD, packR_fA, packR_fB, packR_fC, packR_fFn, packR_bits, packR_bit, fOff16_eq, fAmo_eq, tf, b1, bits_lo, bits_hi, bit_lo, bit_hi]
  simp [req]
theorem monrd (h : Hdr) (d a b : SReg) : Statement (.monrd h d a b) := by
  intro hw
  have ⟨hh, hf⟩ := hdr_wf rfl hw
  refine decode_class0 (h := h) 0x1C hh (packR_fRole ..) (packR_fG ..) (packR_fGn ..) (congrArg BitVec.toNat (packR_fOpc ..)) rfl rfl rfl
    ((row_1C ..).trans ?_)
  simp (disch := omega) only [encode, packR_fD, packR_fA, packR_fB, packR_fC, packR_fFn, packR_bits, packR_bit, fOff16_eq, fAmo_eq, tf, b1, bits_lo, bits_hi, bit_lo, bit_hi]
  simp [req]
theorem tlbinvPage (h : Hdr) (d a b : SReg) : Statement (.tlbinvPage h d a b) := by
  intro hw
  have ⟨hh, hf⟩ := hdr_wf rfl hw
  refine decode_class0 (h := h) 0x1D hh (packR_fRole ..) (packR_fG ..) (packR_fGn ..) (congrArg BitVec.toNat (packR_fOpc ..)) rfl rfl rfl
    ((row_1D ..).trans ?_)
  simp (disch := omega) only [encode, packR_fD, packR_fA, packR_fB, packR_fC, packR_fFn, packR_bits, packR_bit, fOff16_eq, fAmo_eq, tf, b1, bits_lo, bits_hi, bit_lo, bit_hi]
  simp [req]
theorem tlbinvAsid (h : Hdr) (d a b : SReg) : Statement (.tlbinvAsid h d a b) := by
  intro hw
  have ⟨hh, hf⟩ := hdr_wf rfl hw
  refine decode_class0 (h := h) 0x1D hh (packR_fRole ..) (packR_fG ..) (packR_fGn ..) (congrArg BitVec.toNat (packR_fOpc ..)) rfl rfl rfl
    ((row_1D ..).trans ?_)
  simp (disch := omega) only [encode, packR_fD, packR_fA, packR_fB, packR_fC, packR_fFn, packR_bits, packR_bit, fOff16_eq, fAmo_eq, tf, b1, bits_lo, bits_hi, bit_lo, bit_hi]
  simp [req]
theorem tlbinvAll (h : Hdr) (d a b : SReg) : Statement (.tlbinvAll h d a b) := by
  intro hw
  have ⟨hh, hf⟩ := hdr_wf rfl hw
  refine decode_class0 (h := h) 0x1D hh (packR_fRole ..) (packR_fG ..) (packR_fGn ..) (congrArg BitVec.toNat (packR_fOpc ..)) rfl rfl rfl
    ((row_1D ..).trans ?_)
  simp (disch := omega) only [encode, packR_fD, packR_fA, packR_fB, packR_fC, packR_fFn, packR_bits, packR_bit, fOff16_eq, fAmo_eq, tf, b1, bits_lo, bits_hi, bit_lo, bit_hi]
  simp [req]
theorem pteamoInc (h : Hdr) (d a b : SReg) (sc : Scope) (off : BitVec 16) : Statement (.pteamoInc h d a b sc off) := by
  intro hw
  have ⟨hh, hf⟩ := hdr_wf rfl hw
  refine decode_class0 (h := h) 0x1E hh (packM_fRole ..) (packM_fG ..) (packM_fGn ..) (congrArg BitVec.toNat (packM_fOpc ..)) rfl rfl rfl
    ((row_1E ..).trans ?_)
  simp (disch := omega) only [encode, packM_fD, packM_fA, packM_fB, packM_fSc, packM_fSz, packM_fOff, packM_bits, packM_tag, fOff16_eq, fAmo_eq, tf, b1, bits_lo, bits_hi, bit_lo, bit_hi]
  simp [req]
theorem pteamoDec (h : Hdr) (d a b : SReg) (sc : Scope) (off : BitVec 16) : Statement (.pteamoDec h d a b sc off) := by
  intro hw
  have ⟨hh, hf⟩ := hdr_wf rfl hw
  refine decode_class0 (h := h) 0x1E hh (packM_fRole ..) (packM_fG ..) (packM_fGn ..) (congrArg BitVec.toNat (packM_fOpc ..)) rfl rfl rfl
    ((row_1E ..).trans ?_)
  simp (disch := omega) only [encode, packM_fD, packM_fA, packM_fB, packM_fSc, packM_fSz, packM_fOff, packM_bits, packM_tag, fOff16_eq, fAmo_eq, tf, b1, bits_lo, bits_hi, bit_lo, bit_hi]
  simp [req]
theorem pteamoCas (h : Hdr) (d a b : SReg) (sc : Scope) (off : BitVec 16) : Statement (.pteamoCas h d a b sc off) := by
  intro hw
  have ⟨hh, hf⟩ := hdr_wf rfl hw
  refine decode_class0 (h := h) 0x1E hh (packM_fRole ..) (packM_fG ..) (packM_fGn ..) (congrArg BitVec.toNat (packM_fOpc ..)) rfl rfl rfl
    ((row_1E ..).trans ?_)
  simp (disch := omega) only [encode, packM_fD, packM_fA, packM_fB, packM_fSc, packM_fSz, packM_fOff, packM_bits, packM_tag, fOff16_eq, fAmo_eq, tf, b1, bits_lo, bits_hi, bit_lo, bit_hi]
  simpa [req, Instr.fieldsOk] using hf
theorem pteamoOr (h : Hdr) (d a b : SReg) (sc : Scope) (off : BitVec 16) : Statement (.pteamoOr h d a b sc off) := by
  intro hw
  have ⟨hh, hf⟩ := hdr_wf rfl hw
  refine decode_class0 (h := h) 0x1E hh (packM_fRole ..) (packM_fG ..) (packM_fGn ..) (congrArg BitVec.toNat (packM_fOpc ..)) rfl rfl rfl
    ((row_1E ..).trans ?_)
  simp (disch := omega) only [encode, packM_fD, packM_fA, packM_fB, packM_fSc, packM_fSz, packM_fOff, packM_bits, packM_tag, fOff16_eq, fAmo_eq, tf, b1, bits_lo, bits_hi, bit_lo, bit_hi]
  simp [req]
theorem pteamoAndn (h : Hdr) (d a b : SReg) (sc : Scope) (off : BitVec 16) : Statement (.pteamoAndn h d a b sc off) := by
  intro hw
  have ⟨hh, hf⟩ := hdr_wf rfl hw
  refine decode_class0 (h := h) 0x1E hh (packM_fRole ..) (packM_fG ..) (packM_fGn ..) (congrArg BitVec.toNat (packM_fOpc ..)) rfl rfl rfl
    ((row_1E ..).trans ?_)
  simp (disch := omega) only [encode, packM_fD, packM_fA, packM_fB, packM_fSc, packM_fSz, packM_fOff, packM_bits, packM_tag, fOff16_eq, fAmo_eq, tf, b1, bits_lo, bits_hi, bit_lo, bit_hi]
  simp [req]
theorem launch (h : Hdr) (d : SReg) (x : BitVec 3) (q : BitVec 6) : Statement (.launch h d x q) := by
  intro hw
  have ⟨hh, hf⟩ := hdr_wf rfl hw
  refine decode_XH (h := h) 0x1F hh (packX_fRole ..) (packX_fG ..) (packX_fGn ..) (congrArg BitVec.toNat (packX_fOpc ..)) rfl rfl ?_
  simp (disch := omega) only [encode, decodeXH, packX_fD, packX_fXLow, packX_fXHi, packX_fNr, packX_fXT, packX_fXW, packX_bits, packX_bit, b1, bits_lo, bits_hi, bit_lo, bit_hi, decNr_enc, CollOp.dec_enc, Scope.dec_enc, bits_all]
  rw [packX_low26]
  simp (disch := omega) only [bits_lo, bits_hi]
  simp
theorem add (h : Hdr) (d a b : SReg) : Statement (.add h d a b) := by
  intro hw
  have ⟨hh, hf⟩ := hdr_wf rfl hw
  refine decode_class1 (h := h) 0x20 hh (packR_fRole ..) (packR_fG ..) (packR_fGn ..) (congrArg BitVec.toNat (packR_fOpc ..)) rfl rfl rfl
    ((row_20 ..).trans ?_)
  simp (disch := omega) only [encode, packR_fD, packR_fA, packR_fB, packR_fC, packR_fFn, packR_bits, packR_bit, fOff16_eq, fAmo_eq, tf, b1, bits_lo, bits_hi, bit_lo, bit_hi]
  simp [req]
theorem sub (h : Hdr) (d a b : SReg) : Statement (.sub h d a b) := by
  intro hw
  have ⟨hh, hf⟩ := hdr_wf rfl hw
  refine decode_class1 (h := h) 0x21 hh (packR_fRole ..) (packR_fG ..) (packR_fGn ..) (congrArg BitVec.toNat (packR_fOpc ..)) rfl rfl rfl
    ((row_21 ..).trans ?_)
  simp (disch := omega) only [encode, packR_fD, packR_fA, packR_fB, packR_fC, packR_fFn, packR_bits, packR_bit, fOff16_eq, fAmo_eq, tf, b1, bits_lo, bits_hi, bit_lo, bit_hi]
  simp [req]
theorem mul (h : Hdr) (d a b : SReg) : Statement (.mul h d a b) := by
  intro hw
  have ⟨hh, hf⟩ := hdr_wf rfl hw
  refine decode_class1 (h := h) 0x22 hh (packR_fRole ..) (packR_fG ..) (packR_fGn ..) (congrArg BitVec.toNat (packR_fOpc ..)) rfl rfl rfl
    ((row_22 ..).trans ?_)
  simp (disch := omega) only [encode, packR_fD, packR_fA, packR_fB, packR_fC, packR_fFn, packR_bits, packR_bit, fOff16_eq, fAmo_eq, tf, b1, bits_lo, bits_hi, bit_lo, bit_hi]
  simp [req]
theorem mulh (h : Hdr) (d a b : SReg) : Statement (.mulh h d a b) := by
  intro hw
  have ⟨hh, hf⟩ := hdr_wf rfl hw
  refine decode_class1 (h := h) 0x23 hh (packR_fRole ..) (packR_fG ..) (packR_fGn ..) (congrArg BitVec.toNat (packR_fOpc ..)) rfl rfl rfl
    ((row_23 ..).trans ?_)
  simp (disch := omega) only [encode, packR_fD, packR_fA, packR_fB, packR_fC, packR_fFn, packR_bits, packR_bit, fOff16_eq, fAmo_eq, tf, b1, bits_lo, bits_hi, bit_lo, bit_hi]
  simp [req]
theorem mulhu (h : Hdr) (d a b : SReg) : Statement (.mulhu h d a b) := by
  intro hw
  have ⟨hh, hf⟩ := hdr_wf rfl hw
  refine decode_class1 (h := h) 0x24 hh (packR_fRole ..) (packR_fG ..) (packR_fGn ..) (congrArg BitVec.toNat (packR_fOpc ..)) rfl rfl rfl
    ((row_24 ..).trans ?_)
  simp (disch := omega) only [encode, packR_fD, packR_fA, packR_fB, packR_fC, packR_fFn, packR_bits, packR_bit, fOff16_eq, fAmo_eq, tf, b1, bits_lo, bits_hi, bit_lo, bit_hi]
  simp [req]
theorem div (h : Hdr) (d a b : SReg) : Statement (.div h d a b) := by
  intro hw
  have ⟨hh, hf⟩ := hdr_wf rfl hw
  refine decode_class1 (h := h) 0x25 hh (packR_fRole ..) (packR_fG ..) (packR_fGn ..) (congrArg BitVec.toNat (packR_fOpc ..)) rfl rfl rfl
    ((row_25 ..).trans ?_)
  simp (disch := omega) only [encode, packR_fD, packR_fA, packR_fB, packR_fC, packR_fFn, packR_bits, packR_bit, fOff16_eq, fAmo_eq, tf, b1, bits_lo, bits_hi, bit_lo, bit_hi]
  simp [req]
theorem divu (h : Hdr) (d a b : SReg) : Statement (.divu h d a b) := by
  intro hw
  have ⟨hh, hf⟩ := hdr_wf rfl hw
  refine decode_class1 (h := h) 0x26 hh (packR_fRole ..) (packR_fG ..) (packR_fGn ..) (congrArg BitVec.toNat (packR_fOpc ..)) rfl rfl rfl
    ((row_26 ..).trans ?_)
  simp (disch := omega) only [encode, packR_fD, packR_fA, packR_fB, packR_fC, packR_fFn, packR_bits, packR_bit, fOff16_eq, fAmo_eq, tf, b1, bits_lo, bits_hi, bit_lo, bit_hi]
  simp [req]
theorem rem (h : Hdr) (d a b : SReg) : Statement (.rem h d a b) := by
  intro hw
  have ⟨hh, hf⟩ := hdr_wf rfl hw
  refine decode_class1 (h := h) 0x27 hh (packR_fRole ..) (packR_fG ..) (packR_fGn ..) (congrArg BitVec.toNat (packR_fOpc ..)) rfl rfl rfl
    ((row_27 ..).trans ?_)
  simp (disch := omega) only [encode, packR_fD, packR_fA, packR_fB, packR_fC, packR_fFn, packR_bits, packR_bit, fOff16_eq, fAmo_eq, tf, b1, bits_lo, bits_hi, bit_lo, bit_hi]
  simp [req]
theorem remu (h : Hdr) (d a b : SReg) : Statement (.remu h d a b) := by
  intro hw
  have ⟨hh, hf⟩ := hdr_wf rfl hw
  refine decode_class1 (h := h) 0x28 hh (packR_fRole ..) (packR_fG ..) (packR_fGn ..) (congrArg BitVec.toNat (packR_fOpc ..)) rfl rfl rfl
    ((row_28 ..).trans ?_)
  simp (disch := omega) only [encode, packR_fD, packR_fA, packR_fB, packR_fC, packR_fFn, packR_bits, packR_bit, fOff16_eq, fAmo_eq, tf, b1, bits_lo, bits_hi, bit_lo, bit_hi]
  simp [req]
theorem and (h : Hdr) (d a b : SReg) : Statement (.and h d a b) := by
  intro hw
  have ⟨hh, hf⟩ := hdr_wf rfl hw
  refine decode_class1 (h := h) 0x29 hh (packR_fRole ..) (packR_fG ..) (packR_fGn ..) (congrArg BitVec.toNat (packR_fOpc ..)) rfl rfl rfl
    ((row_29 ..).trans ?_)
  simp (disch := omega) only [encode, packR_fD, packR_fA, packR_fB, packR_fC, packR_fFn, packR_bits, packR_bit, fOff16_eq, fAmo_eq, tf, b1, bits_lo, bits_hi, bit_lo, bit_hi]
  simp [req]
theorem or (h : Hdr) (d a b : SReg) : Statement (.or h d a b) := by
  intro hw
  have ⟨hh, hf⟩ := hdr_wf rfl hw
  refine decode_class1 (h := h) 0x2A hh (packR_fRole ..) (packR_fG ..) (packR_fGn ..) (congrArg BitVec.toNat (packR_fOpc ..)) rfl rfl rfl
    ((row_2A ..).trans ?_)
  simp (disch := omega) only [encode, packR_fD, packR_fA, packR_fB, packR_fC, packR_fFn, packR_bits, packR_bit, fOff16_eq, fAmo_eq, tf, b1, bits_lo, bits_hi, bit_lo, bit_hi]
  simp [req]
theorem xor (h : Hdr) (d a b : SReg) : Statement (.xor h d a b) := by
  intro hw
  have ⟨hh, hf⟩ := hdr_wf rfl hw
  refine decode_class1 (h := h) 0x2B hh (packR_fRole ..) (packR_fG ..) (packR_fGn ..) (congrArg BitVec.toNat (packR_fOpc ..)) rfl rfl rfl
    ((row_2B ..).trans ?_)
  simp (disch := omega) only [encode, packR_fD, packR_fA, packR_fB, packR_fC, packR_fFn, packR_bits, packR_bit, fOff16_eq, fAmo_eq, tf, b1, bits_lo, bits_hi, bit_lo, bit_hi]
  simp [req]
theorem andn (h : Hdr) (d a b : SReg) : Statement (.andn h d a b) := by
  intro hw
  have ⟨hh, hf⟩ := hdr_wf rfl hw
  refine decode_class1 (h := h) 0x2C hh (packR_fRole ..) (packR_fG ..) (packR_fGn ..) (congrArg BitVec.toNat (packR_fOpc ..)) rfl rfl rfl
    ((row_2C ..).trans ?_)
  simp (disch := omega) only [encode, packR_fD, packR_fA, packR_fB, packR_fC, packR_fFn, packR_bits, packR_bit, fOff16_eq, fAmo_eq, tf, b1, bits_lo, bits_hi, bit_lo, bit_hi]
  simp [req]
theorem shl (h : Hdr) (d a b : SReg) : Statement (.shl h d a b) := by
  intro hw
  have ⟨hh, hf⟩ := hdr_wf rfl hw
  refine decode_class1 (h := h) 0x2D hh (packR_fRole ..) (packR_fG ..) (packR_fGn ..) (congrArg BitVec.toNat (packR_fOpc ..)) rfl rfl rfl
    ((row_2D ..).trans ?_)
  simp (disch := omega) only [encode, packR_fD, packR_fA, packR_fB, packR_fC, packR_fFn, packR_bits, packR_bit, fOff16_eq, fAmo_eq, tf, b1, bits_lo, bits_hi, bit_lo, bit_hi]
  simp [req]
theorem shr (h : Hdr) (d a b : SReg) : Statement (.shr h d a b) := by
  intro hw
  have ⟨hh, hf⟩ := hdr_wf rfl hw
  refine decode_class1 (h := h) 0x2E hh (packR_fRole ..) (packR_fG ..) (packR_fGn ..) (congrArg BitVec.toNat (packR_fOpc ..)) rfl rfl rfl
    ((row_2E ..).trans ?_)
  simp (disch := omega) only [encode, packR_fD, packR_fA, packR_fB, packR_fC, packR_fFn, packR_bits, packR_bit, fOff16_eq, fAmo_eq, tf, b1, bits_lo, bits_hi, bit_lo, bit_hi]
  simp [req]
theorem sar (h : Hdr) (d a b : SReg) : Statement (.sar h d a b) := by
  intro hw
  have ⟨hh, hf⟩ := hdr_wf rfl hw
  refine decode_class1 (h := h) 0x2F hh (packR_fRole ..) (packR_fG ..) (packR_fGn ..) (congrArg BitVec.toNat (packR_fOpc ..)) rfl rfl rfl
    ((row_2F ..).trans ?_)
  simp (disch := omega) only [encode, packR_fD, packR_fA, packR_fB, packR_fC, packR_fFn, packR_bits, packR_bit, fOff16_eq, fAmo_eq, tf, b1, bits_lo, bits_hi, bit_lo, bit_hi]
  simp [req]
theorem rol (h : Hdr) (d a b : SReg) : Statement (.rol h d a b) := by
  intro hw
  have ⟨hh, hf⟩ := hdr_wf rfl hw
  refine decode_class1 (h := h) 0x30 hh (packR_fRole ..) (packR_fG ..) (packR_fGn ..) (congrArg BitVec.toNat (packR_fOpc ..)) rfl rfl rfl
    ((row_30 ..).trans ?_)
  simp (disch := omega) only [encode, packR_fD, packR_fA, packR_fB, packR_fC, packR_fFn, packR_bits, packR_bit, fOff16_eq, fAmo_eq, tf, b1, bits_lo, bits_hi, bit_lo, bit_hi]
  simp [req]
theorem min (h : Hdr) (d a b : SReg) : Statement (.min h d a b) := by
  intro hw
  have ⟨hh, hf⟩ := hdr_wf rfl hw
  refine decode_class1 (h := h) 0x31 hh (packR_fRole ..) (packR_fG ..) (packR_fGn ..) (congrArg BitVec.toNat (packR_fOpc ..)) rfl rfl rfl
    ((row_31 ..).trans ?_)
  simp (disch := omega) only [encode, packR_fD, packR_fA, packR_fB, packR_fC, packR_fFn, packR_bits, packR_bit, fOff16_eq, fAmo_eq, tf, b1, bits_lo, bits_hi, bit_lo, bit_hi]
  simp [req]
theorem max (h : Hdr) (d a b : SReg) : Statement (.max h d a b) := by
  intro hw
  have ⟨hh, hf⟩ := hdr_wf rfl hw
  refine decode_class1 (h := h) 0x32 hh (packR_fRole ..) (packR_fG ..) (packR_fGn ..) (congrArg BitVec.toNat (packR_fOpc ..)) rfl rfl rfl
    ((row_32 ..).trans ?_)
  simp (disch := omega) only [encode, packR_fD, packR_fA, packR_fB, packR_fC, packR_fFn, packR_bits, packR_bit, fOff16_eq, fAmo_eq, tf, b1, bits_lo, bits_hi, bit_lo, bit_hi]
  simp [req]
theorem minu (h : Hdr) (d a b : SReg) : Statement (.minu h d a b) := by
  intro hw
  have ⟨hh, hf⟩ := hdr_wf rfl hw
  refine decode_class1 (h := h) 0x33 hh (packR_fRole ..) (packR_fG ..) (packR_fGn ..) (congrArg BitVec.toNat (packR_fOpc ..)) rfl rfl rfl
    ((row_33 ..).trans ?_)
  simp (disch := omega) only [encode, packR_fD, packR_fA, packR_fB, packR_fC, packR_fFn, packR_bits, packR_bit, fOff16_eq, fAmo_eq, tf, b1, bits_lo, bits_hi, bit_lo, bit_hi]
  simp [req]
theorem maxu (h : Hdr) (d a b : SReg) : Statement (.maxu h d a b) := by
  intro hw
  have ⟨hh, hf⟩ := hdr_wf rfl hw
  refine decode_class1 (h := h) 0x34 hh (packR_fRole ..) (packR_fG ..) (packR_fGn ..) (congrArg BitVec.toNat (packR_fOpc ..)) rfl rfl rfl
    ((row_34 ..).trans ?_)
  simp (disch := omega) only [encode, packR_fD, packR_fA, packR_fB, packR_fC, packR_fFn, packR_bits, packR_bit, fOff16_eq, fAmo_eq, tf, b1, bits_lo, bits_hi, bit_lo, bit_hi]
  simp [req]
theorem clz (h : Hdr) (d a : SReg) : Statement (.clz h d a) := by
  intro hw
  have ⟨hh, hf⟩ := hdr_wf rfl hw
  refine decode_class1 (h := h) 0x35 hh (packR_fRole ..) (packR_fG ..) (packR_fGn ..) (congrArg BitVec.toNat (packR_fOpc ..)) rfl rfl rfl
    ((row_35 ..).trans ?_)
  simp (disch := omega) only [encode, packR_fD, packR_fA, packR_fB, packR_fC, packR_fFn, packR_bits, packR_bit, fOff16_eq, fAmo_eq, tf, b1, bits_lo, bits_hi, bit_lo, bit_hi]
  simp [req]
theorem ctz (h : Hdr) (d a : SReg) : Statement (.ctz h d a) := by
  intro hw
  have ⟨hh, hf⟩ := hdr_wf rfl hw
  refine decode_class1 (h := h) 0x36 hh (packR_fRole ..) (packR_fG ..) (packR_fGn ..) (congrArg BitVec.toNat (packR_fOpc ..)) rfl rfl rfl
    ((row_36 ..).trans ?_)
  simp (disch := omega) only [encode, packR_fD, packR_fA, packR_fB, packR_fC, packR_fFn, packR_bits, packR_bit, fOff16_eq, fAmo_eq, tf, b1, bits_lo, bits_hi, bit_lo, bit_hi]
  simp [req]
theorem popc (h : Hdr) (d a : SReg) : Statement (.popc h d a) := by
  intro hw
  have ⟨hh, hf⟩ := hdr_wf rfl hw
  refine decode_class1 (h := h) 0x37 hh (packR_fRole ..) (packR_fG ..) (packR_fGn ..) (congrArg BitVec.toNat (packR_fOpc ..)) rfl rfl rfl
    ((row_37 ..).trans ?_)
  simp (disch := omega) only [encode, packR_fD, packR_fA, packR_fB, packR_fC, packR_fFn, packR_bits, packR_bit, fOff16_eq, fAmo_eq, tf, b1, bits_lo, bits_hi, bit_lo, bit_hi]
  simp [req]
theorem bfx (h : Hdr) (d a : SReg) (sx : Bool) (wid lsb : BitVec 6) : Statement (.bfx h d a sx wid lsb) := by
  intro hw
  have ⟨hh, hf⟩ := hdr_wf rfl hw
  refine decode_class1 (h := h) 0x38 hh (packR_fRole ..) (packR_fG ..) (packR_fGn ..) (congrArg BitVec.toNat (packR_fOpc ..)) rfl rfl rfl
    ((row_38 ..).trans ?_)
  simp (disch := omega) only [encode, packR_fD, packR_fA, packR_fB, packR_fC, packR_fFn, packR_bits, packR_bit, fOff16_eq, fAmo_eq, tf, b1, bits_lo, bits_hi, bit_lo, bit_hi]
  simpa [req, Instr.fieldsOk] using hf
theorem bfi (h : Hdr) (d a b : SReg) (wid lsb : BitVec 6) : Statement (.bfi h d a b wid lsb) := by
  intro hw
  have ⟨hh, hf⟩ := hdr_wf rfl hw
  refine decode_class1 (h := h) 0x39 hh (packR_fRole ..) (packR_fG ..) (packR_fGn ..) (congrArg BitVec.toNat (packR_fOpc ..)) rfl rfl rfl
    ((row_39 ..).trans ?_)
  simp (disch := omega) only [encode, packR_fD, packR_fA, packR_fB, packR_fC, packR_fFn, packR_bits, packR_bit, fOff16_eq, fAmo_eq, tf, b1, bits_lo, bits_hi, bit_lo, bit_hi]
  simpa [req, Instr.fieldsOk] using hf
theorem sel (h : Hdr) (d a b : SReg) (c : PReg) : Statement (.sel h d a b c) := by
  intro hw
  have ⟨hh, hf⟩ := hdr_wf rfl hw
  refine decode_class1 (h := h) 0x3A hh (packR_fRole ..) (packR_fG ..) (packR_fGn ..) (congrArg BitVec.toNat (packR_fOpc ..)) rfl rfl rfl
    ((row_3A ..).trans ?_)
  simp (disch := omega) only [encode, packR_fD, packR_fA, packR_fB, packR_fC, packR_fFn, packR_bits, packR_bit, fOff16_eq, fAmo_eq, tf, b1, bits_lo, bits_hi, bit_lo, bit_hi]
  simp [req]
theorem cmp (h : Hdr) (d : CmpDst) (a b : SReg) (cc : Cc) : Statement (.cmp h d a b cc) := by
  intro hw
  have ⟨hh, hf⟩ := hdr_wf rfl hw
  refine decode_class1 (h := h) 0x3B hh (packR_fRole ..) (packR_fG ..) (packR_fGn ..) (congrArg BitVec.toNat (packR_fOpc ..)) rfl rfl rfl
    ((row_3B ..).trans ?_)
  simp (disch := omega) only [encode, packR_fD, packR_fA, packR_fB, packR_fC, packR_fFn, packR_bits, packR_bit, fOff16_eq, fAmo_eq, tf, b1, bits_lo, bits_hi, bit_lo, bit_hi]
  simp [req]
theorem addw (h : Hdr) (d a b : SReg) : Statement (.addw h d a b) := by
  intro hw
  have ⟨hh, hf⟩ := hdr_wf rfl hw
  refine decode_class1 (h := h) 0x3C hh (packR_fRole ..) (packR_fG ..) (packR_fGn ..) (congrArg BitVec.toNat (packR_fOpc ..)) rfl rfl rfl
    ((row_3C ..).trans ?_)
  simp (disch := omega) only [encode, packR_fD, packR_fA, packR_fB, packR_fC, packR_fFn, packR_bits, packR_bit, fOff16_eq, fAmo_eq, tf, b1, bits_lo, bits_hi, bit_lo, bit_hi]
  simp [req]
theorem subw (h : Hdr) (d a b : SReg) : Statement (.subw h d a b) := by
  intro hw
  have ⟨hh, hf⟩ := hdr_wf rfl hw
  refine decode_class1 (h := h) 0x3D hh (packR_fRole ..) (packR_fG ..) (packR_fGn ..) (congrArg BitVec.toNat (packR_fOpc ..)) rfl rfl rfl
    ((row_3D ..).trans ?_)
  simp (disch := omega) only [encode, packR_fD, packR_fA, packR_fB, packR_fC, packR_fFn, packR_bits, packR_bit, fOff16_eq, fAmo_eq, tf, b1, bits_lo, bits_hi, bit_lo, bit_hi]
  simp [req]
theorem mulw (h : Hdr) (d a b : SReg) : Statement (.mulw h d a b) := by
  intro hw
  have ⟨hh, hf⟩ := hdr_wf rfl hw
  refine decode_class1 (h := h) 0x3E hh (packR_fRole ..) (packR_fG ..) (packR_fGn ..) (congrArg BitVec.toNat (packR_fOpc ..)) rfl rfl rfl
    ((row_3E ..).trans ?_)
  simp (disch := omega) only [encode, packR_fD, packR_fA, packR_fB, packR_fC, packR_fFn, packR_bits, packR_bit, fOff16_eq, fAmo_eq, tf, b1, bits_lo, bits_hi, bit_lo, bit_hi]
  simp [req]
theorem bswap (h : Hdr) (d a : SReg) : Statement (.bswap h d a) := by
  intro hw
  have ⟨hh, hf⟩ := hdr_wf rfl hw
  refine decode_class1 (h := h) 0x3F hh (packR_fRole ..) (packR_fG ..) (packR_fGn ..) (congrArg BitVec.toNat (packR_fOpc ..)) rfl rfl rfl
    ((row_3F ..).trans ?_)
  simp (disch := omega) only [encode, packR_fD, packR_fA, packR_fB, packR_fC, packR_fFn, packR_bits, packR_bit, fOff16_eq, fAmo_eq, tf, b1, bits_lo, bits_hi, bit_lo, bit_hi]
  simp [req]
theorem addi (h : Hdr) (d a : SReg) (imm : BitVec 32) : Statement (.addi h d a imm) := by
  intro hw
  have ⟨hh, hf⟩ := hdr_wf rfl hw
  refine decode_class2 (h := h) 0x40 hh (packI_fRole ..) (packI_fG ..) (packI_fGn ..) (congrArg BitVec.toNat (packI_fOpc ..)) rfl rfl rfl
    ((row_40 ..).trans ?_)
  simp (disch := omega) only [encode, packI_fD, packI_fA, packI_fImm, packI_bits, packI_bit, fOff16_eq, fAmo_eq, tf, b1, bits_lo, bits_hi, bit_lo, bit_hi]
theorem andi (h : Hdr) (d a : SReg) (imm : BitVec 32) : Statement (.andi h d a imm) := by
  intro hw
  have ⟨hh, hf⟩ := hdr_wf rfl hw
  refine decode_class2 (h := h) 0x41 hh (packI_fRole ..) (packI_fG ..) (packI_fGn ..) (congrArg BitVec.toNat (packI_fOpc ..)) rfl rfl rfl
    ((row_41 ..).trans ?_)
  simp (disch := omega) only [encode, packI_fD, packI_fA, packI_fImm, packI_bits, packI_bit, fOff16_eq, fAmo_eq, tf, b1, bits_lo, bits_hi, bit_lo, bit_hi]
theorem ori (h : Hdr) (d a : SReg) (imm : BitVec 32) : Statement (.ori h d a imm) := by
  intro hw
  have ⟨hh, hf⟩ := hdr_wf rfl hw
  refine decode_class2 (h := h) 0x42 hh (packI_fRole ..) (packI_fG ..) (packI_fGn ..) (congrArg BitVec.toNat (packI_fOpc ..)) rfl rfl rfl
    ((row_42 ..).trans ?_)
  simp (disch := omega) only [encode, packI_fD, packI_fA, packI_fImm, packI_bits, packI_bit, fOff16_eq, fAmo_eq, tf, b1, bits_lo, bits_hi, bit_lo, bit_hi]
theorem xori (h : Hdr) (d a : SReg) (imm : BitVec 32) : Statement (.xori h d a imm) := by
  intro hw
  have ⟨hh, hf⟩ := hdr_wf rfl hw
  refine decode_class2 (h := h) 0x43 hh (packI_fRole ..) (packI_fG ..) (packI_fGn ..) (congrArg BitVec.toNat (packI_fOpc ..)) rfl rfl rfl
    ((row_43 ..).trans ?_)
  simp (disch := omega) only [encode, packI_fD, packI_fA, packI_fImm, packI_bits, packI_bit, fOff16_eq, fAmo_eq, tf, b1, bits_lo, bits_hi, bit_lo, bit_hi]
theorem shli (h : Hdr) (d a : SReg) (n : BitVec 6) : Statement (.shli h d a n) := by
  intro hw
  have ⟨hh, hf⟩ := hdr_wf rfl hw
  refine decode_class2 (h := h) 0x44 hh (packI_fRole ..) (packI_fG ..) (packI_fGn ..) (congrArg BitVec.toNat (packI_fOpc ..)) rfl rfl rfl
    ((row_44 ..).trans ?_)
  simp (disch := omega) only [encode, packI_fD, packI_fA, packI_fImm, packI_bits, packI_bit, fOff16_eq, fAmo_eq, tf, b1, bits_lo, bits_hi, bit_lo, bit_hi]
  simp [req]
theorem shri (h : Hdr) (d a : SReg) (n : BitVec 6) : Statement (.shri h d a n) := by
  intro hw
  have ⟨hh, hf⟩ := hdr_wf rfl hw
  refine decode_class2 (h := h) 0x45 hh (packI_fRole ..) (packI_fG ..) (packI_fGn ..) (congrArg BitVec.toNat (packI_fOpc ..)) rfl rfl rfl
    ((row_45 ..).trans ?_)
  simp (disch := omega) only [encode, packI_fD, packI_fA, packI_fImm, packI_bits, packI_bit, fOff16_eq, fAmo_eq, tf, b1, bits_lo, bits_hi, bit_lo, bit_hi]
  simp [req]
theorem sari (h : Hdr) (d a : SReg) (n : BitVec 6) : Statement (.sari h d a n) := by
  intro hw
  have ⟨hh, hf⟩ := hdr_wf rfl hw
  refine decode_class2 (h := h) 0x46 hh (packI_fRole ..) (packI_fG ..) (packI_fGn ..) (congrArg BitVec.toNat (packI_fOpc ..)) rfl rfl rfl
    ((row_46 ..).trans ?_)
  simp (disch := omega) only [encode, packI_fD, packI_fA, packI_fImm, packI_bits, packI_bit, fOff16_eq, fAmo_eq, tf, b1, bits_lo, bits_hi, bit_lo, bit_hi]
  simp [req]
theorem roli (h : Hdr) (d a : SReg) (n : BitVec 6) : Statement (.roli h d a n) := by
  intro hw
  have ⟨hh, hf⟩ := hdr_wf rfl hw
  refine decode_class2 (h := h) 0x47 hh (packI_fRole ..) (packI_fG ..) (packI_fGn ..) (congrArg BitVec.toNat (packI_fOpc ..)) rfl rfl rfl
    ((row_47 ..).trans ?_)
  simp (disch := omega) only [encode, packI_fD, packI_fA, packI_fImm, packI_bits, packI_bit, fOff16_eq, fAmo_eq, tf, b1, bits_lo, bits_hi, bit_lo, bit_hi]
  simp [req]
theorem movi (h : Hdr) (d : SReg) (imm : BitVec 32) : Statement (.movi h d imm) := by
  intro hw
  have ⟨hh, hf⟩ := hdr_wf rfl hw
  refine decode_class2 (h := h) 0x48 hh (packI_fRole ..) (packI_fG ..) (packI_fGn ..) (congrArg BitVec.toNat (packI_fOpc ..)) rfl rfl rfl
    ((row_48 ..).trans ?_)
  simp (disch := omega) only [encode, packI_fD, packI_fA, packI_fImm, packI_bits, packI_bit, fOff16_eq, fAmo_eq, tf, b1, bits_lo, bits_hi, bit_lo, bit_hi]
  simp [req]
theorem movhi (h : Hdr) (d a : SReg) (imm : BitVec 32) : Statement (.movhi h d a imm) := by
  intro hw
  have ⟨hh, hf⟩ := hdr_wf rfl hw
  refine decode_class2 (h := h) 0x49 hh (packI_fRole ..) (packI_fG ..) (packI_fGn ..) (congrArg BitVec.toNat (packI_fOpc ..)) rfl rfl rfl
    ((row_49 ..).trans ?_)
  simp (disch := omega) only [encode, packI_fD, packI_fA, packI_fImm, packI_bits, packI_bit, fOff16_eq, fAmo_eq, tf, b1, bits_lo, bits_hi, bit_lo, bit_hi]
theorem cmpi (h : Hdr) (d : CmpDst) (a : SReg) (cc : Cc) (val : BitVec 27) : Statement (.cmpi h d a cc val) := by
  intro hw
  have ⟨hh, hf⟩ := hdr_wf rfl hw
  refine decode_class2 (h := h) 0x4A hh (packI_fRole ..) (packI_fG ..) (packI_fGn ..) (congrArg BitVec.toNat (packI_fOpc ..)) rfl rfl rfl
    ((row_4A ..).trans ?_)
  simp (disch := omega) only [encode, packI_fD, packI_fA, packI_fImm, packI_bits, packI_bit, fOff16_eq, fAmo_eq, tf, b1, bits_lo, bits_hi, bit_lo, bit_hi]
  simp [req]
theorem muli (h : Hdr) (d a : SReg) (imm : BitVec 32) : Statement (.muli h d a imm) := by
  intro hw
  have ⟨hh, hf⟩ := hdr_wf rfl hw
  refine decode_class2 (h := h) 0x4B hh (packI_fRole ..) (packI_fG ..) (packI_fGn ..) (congrArg BitVec.toNat (packI_fOpc ..)) rfl rfl rfl
    ((row_4B ..).trans ?_)
  simp (disch := omega) only [encode, packI_fD, packI_fA, packI_fImm, packI_bits, packI_bit, fOff16_eq, fAmo_eq, tf, b1, bits_lo, bits_hi, bit_lo, bit_hi]
theorem mini (h : Hdr) (d a : SReg) (imm : BitVec 32) : Statement (.mini h d a imm) := by
  intro hw
  have ⟨hh, hf⟩ := hdr_wf rfl hw
  refine decode_class2 (h := h) 0x4C hh (packI_fRole ..) (packI_fG ..) (packI_fGn ..) (congrArg BitVec.toNat (packI_fOpc ..)) rfl rfl rfl
    ((row_4C ..).trans ?_)
  simp (disch := omega) only [encode, packI_fD, packI_fA, packI_fImm, packI_bits, packI_bit, fOff16_eq, fAmo_eq, tf, b1, bits_lo, bits_hi, bit_lo, bit_hi]
theorem maxi (h : Hdr) (d a : SReg) (imm : BitVec 32) : Statement (.maxi h d a imm) := by
  intro hw
  have ⟨hh, hf⟩ := hdr_wf rfl hw
  refine decode_class2 (h := h) 0x4D hh (packI_fRole ..) (packI_fG ..) (packI_fGn ..) (congrArg BitVec.toNat (packI_fOpc ..)) rfl rfl rfl
    ((row_4D ..).trans ?_)
  simp (disch := omega) only [encode, packI_fD, packI_fA, packI_fImm, packI_bits, packI_bit, fOff16_eq, fAmo_eq, tf, b1, bits_lo, bits_hi, bit_lo, bit_hi]
theorem addpc (h : Hdr) (d : SReg) (imm : BitVec 32) : Statement (.addpc h d imm) := by
  intro hw
  have ⟨hh, hf⟩ := hdr_wf rfl hw
  refine decode_class2 (h := h) 0x4E hh (packI_fRole ..) (packI_fG ..) (packI_fGn ..) (congrArg BitVec.toNat (packI_fOpc ..)) rfl rfl rfl
    ((row_4E ..).trans ?_)
  simp (disch := omega) only [encode, packI_fD, packI_fA, packI_fImm, packI_bits, packI_bit, fOff16_eq, fAmo_eq, tf, b1, bits_lo, bits_hi, bit_lo, bit_hi]
  simp [req]
theorem pset (h : Hdr) (d : PReg) (n : BitVec 7) : Statement (.pset h d n) := by
  intro hw
  have ⟨hh, hf⟩ := hdr_wf rfl hw
  refine decode_class2 (h := h) 0x4F hh (packR_fRole ..) (packR_fG ..) (packR_fGn ..) (congrArg BitVec.toNat (packR_fOpc ..)) rfl rfl rfl
    ((row_4F ..).trans ?_)
  simp (disch := omega) only [encode, packR_fD, packR_fA, packR_fB, packR_fC, packR_fFn, packR_bits, packR_bit, fOff16_eq, fAmo_eq, tf, b1, bits_lo, bits_hi, bit_lo, bit_hi]
  simpa [req, Instr.fieldsOk] using hf
theorem pand (h : Hdr) (d a b : PReg) : Statement (.pand h d a b) := by
  intro hw
  have ⟨hh, hf⟩ := hdr_wf rfl hw
  refine decode_class2 (h := h) 0x50 hh (packR_fRole ..) (packR_fG ..) (packR_fGn ..) (congrArg BitVec.toNat (packR_fOpc ..)) rfl rfl rfl
    ((row_50 ..).trans ?_)
  simp (disch := omega) only [encode, packR_fD, packR_fA, packR_fB, packR_fC, packR_fFn, packR_bits, packR_bit, fOff16_eq, fAmo_eq, tf, b1, bits_lo, bits_hi, bit_lo, bit_hi]
  simp [req]
theorem por (h : Hdr) (d a b : PReg) : Statement (.por h d a b) := by
  intro hw
  have ⟨hh, hf⟩ := hdr_wf rfl hw
  refine decode_class2 (h := h) 0x51 hh (packR_fRole ..) (packR_fG ..) (packR_fGn ..) (congrArg BitVec.toNat (packR_fOpc ..)) rfl rfl rfl
    ((row_51 ..).trans ?_)
  simp (disch := omega) only [encode, packR_fD, packR_fA, packR_fB, packR_fC, packR_fFn, packR_bits, packR_bit, fOff16_eq, fAmo_eq, tf, b1, bits_lo, bits_hi, bit_lo, bit_hi]
  simp [req]
theorem pxor (h : Hdr) (d a b : PReg) : Statement (.pxor h d a b) := by
  intro hw
  have ⟨hh, hf⟩ := hdr_wf rfl hw
  refine decode_class2 (h := h) 0x52 hh (packR_fRole ..) (packR_fG ..) (packR_fGn ..) (congrArg BitVec.toNat (packR_fOpc ..)) rfl rfl rfl
    ((row_52 ..).trans ?_)
  simp (disch := omega) only [encode, packR_fD, packR_fA, packR_fB, packR_fC, packR_fFn, packR_bits, packR_bit, fOff16_eq, fAmo_eq, tf, b1, bits_lo, bits_hi, bit_lo, bit_hi]
  simp [req]
theorem pandn (h : Hdr) (d a b : PReg) : Statement (.pandn h d a b) := by
  intro hw
  have ⟨hh, hf⟩ := hdr_wf rfl hw
  refine decode_class2 (h := h) 0x53 hh (packR_fRole ..) (packR_fG ..) (packR_fGn ..) (congrArg BitVec.toNat (packR_fOpc ..)) rfl rfl rfl
    ((row_53 ..).trans ?_)
  simp (disch := omega) only [encode, packR_fD, packR_fA, packR_fB, packR_fC, packR_fFn, packR_bits, packR_bit, fOff16_eq, fAmo_eq, tf, b1, bits_lo, bits_hi, bit_lo, bit_hi]
  simp [req]
theorem pfrom (h : Hdr) (d : PReg) (a : SReg) : Statement (.pfrom h d a) := by
  intro hw
  have ⟨hh, hf⟩ := hdr_wf rfl hw
  refine decode_class2 (h := h) 0x54 hh (packR_fRole ..) (packR_fG ..) (packR_fGn ..) (congrArg BitVec.toNat (packR_fOpc ..)) rfl rfl rfl
    ((row_54 ..).trans ?_)
  simp (disch := omega) only [encode, packR_fD, packR_fA, packR_fB, packR_fC, packR_fFn, packR_bits, packR_bit, fOff16_eq, fAmo_eq, tf, b1, bits_lo, bits_hi, bit_lo, bit_hi]
  simp [req]
theorem pto (h : Hdr) (d : SReg) (a : PReg) : Statement (.pto h d a) := by
  intro hw
  have ⟨hh, hf⟩ := hdr_wf rfl hw
  refine decode_class2 (h := h) 0x55 hh (packR_fRole ..) (packR_fG ..) (packR_fGn ..) (congrArg BitVec.toNat (packR_fOpc ..)) rfl rfl rfl
    ((row_55 ..).trans ?_)
  simp (disch := omega) only [encode, packR_fD, packR_fA, packR_fB, packR_fC, packR_fFn, packR_bits, packR_bit, fOff16_eq, fAmo_eq, tf, b1, bits_lo, bits_hi, bit_lo, bit_hi]
  simp [req]
theorem pany (h : Hdr) (d a b : PReg) : Statement (.pany h d a b) := by
  intro hw
  have ⟨hh, hf⟩ := hdr_wf rfl hw
  refine decode_class2 (h := h) 0x56 hh (packR_fRole ..) (packR_fG ..) (packR_fGn ..) (congrArg BitVec.toNat (packR_fOpc ..)) rfl rfl rfl
    ((row_56 ..).trans ?_)
  simp (disch := omega) only [encode, packR_fD, packR_fA, packR_fB, packR_fC, packR_fFn, packR_bits, packR_bit, fOff16_eq, fAmo_eq, tf, b1, bits_lo, bits_hi, bit_lo, bit_hi]
  simp [req]
theorem pall (h : Hdr) (d a b : PReg) : Statement (.pall h d a b) := by
  intro hw
  have ⟨hh, hf⟩ := hdr_wf rfl hw
  refine decode_class2 (h := h) 0x57 hh (packR_fRole ..) (packR_fG ..) (packR_fGn ..) (congrArg BitVec.toNat (packR_fOpc ..)) rfl rfl rfl
    ((row_57 ..).trans ?_)
  simp (disch := omega) only [encode, packR_fD, packR_fA, packR_fB, packR_fC, packR_fFn, packR_bits, packR_bit, fOff16_eq, fAmo_eq, tf, b1, bits_lo, bits_hi, bit_lo, bit_hi]
  simp [req]
theorem pcnt (h : Hdr) (d : SReg) (a b : PReg) : Statement (.pcnt h d a b) := by
  intro hw
  have ⟨hh, hf⟩ := hdr_wf rfl hw
  refine decode_class2 (h := h) 0x58 hh (packR_fRole ..) (packR_fG ..) (packR_fGn ..) (congrArg BitVec.toNat (packR_fOpc ..)) rfl rfl rfl
    ((row_58 ..).trans ?_)
  simp (disch := omega) only [encode, packR_fD, packR_fA, packR_fB, packR_fC, packR_fFn, packR_bits, packR_bit, fOff16_eq, fAmo_eq, tf, b1, bits_lo, bits_hi, bit_lo, bit_hi]
  simp [req]
theorem pfirst (h : Hdr) (d a b : PReg) : Statement (.pfirst h d a b) := by
  intro hw
  have ⟨hh, hf⟩ := hdr_wf rfl hw
  refine decode_class2 (h := h) 0x59 hh (packR_fRole ..) (packR_fG ..) (packR_fGn ..) (congrArg BitVec.toNat (packR_fOpc ..)) rfl rfl rfl
    ((row_59 ..).trans ?_)
  simp (disch := omega) only [encode, packR_fD, packR_fA, packR_fB, packR_fC, packR_fFn, packR_bits, packR_bit, fOff16_eq, fAmo_eq, tf, b1, bits_lo, bits_hi, bit_lo, bit_hi]
  simp [req]
theorem planes (h : Hdr) (d : PReg) (a b : SReg) : Statement (.planes h d a b) := by
  intro hw
  have ⟨hh, hf⟩ := hdr_wf rfl hw
  refine decode_class2 (h := h) 0x5A hh (packR_fRole ..) (packR_fG ..) (packR_fGn ..) (congrArg BitVec.toNat (packR_fOpc ..)) rfl rfl rfl
    ((row_5A ..).trans ?_)
  simp (disch := omega) only [encode, packR_fD, packR_fA, packR_fB, packR_fC, packR_fFn, packR_bits, packR_bit, fOff16_eq, fAmo_eq, tf, b1, bits_lo, bits_hi, bit_lo, bit_hi]
  simp [req]
theorem fadd (h : Hdr) (ty : FType) (d a b : SReg) : Statement (.fadd h ty d a b) := by
  intro hw
  have ⟨hh, hf⟩ := hdr_wf rfl hw
  refine decode_class3 (h := h) 0x60 hh (packR_fRole ..) (packR_fG ..) (packR_fGn ..) (congrArg BitVec.toNat (packR_fOpc ..)) rfl rfl rfl
    ((row_60 ..).trans ?_)
  simp (disch := omega) only [encode, packR_fD, packR_fA, packR_fB, packR_fC, packR_fFn, packR_bits, packR_bit, fOff16_eq, fAmo_eq, tf, b1, bits_lo, bits_hi, bit_lo, bit_hi]
  simp [req]
theorem fsub (h : Hdr) (ty : FType) (d a b : SReg) : Statement (.fsub h ty d a b) := by
  intro hw
  have ⟨hh, hf⟩ := hdr_wf rfl hw
  refine decode_class3 (h := h) 0x61 hh (packR_fRole ..) (packR_fG ..) (packR_fGn ..) (congrArg BitVec.toNat (packR_fOpc ..)) rfl rfl rfl
    ((row_61 ..).trans ?_)
  simp (disch := omega) only [encode, packR_fD, packR_fA, packR_fB, packR_fC, packR_fFn, packR_bits, packR_bit, fOff16_eq, fAmo_eq, tf, b1, bits_lo, bits_hi, bit_lo, bit_hi]
  simp [req]
theorem fmul (h : Hdr) (ty : FType) (d a b : SReg) : Statement (.fmul h ty d a b) := by
  intro hw
  have ⟨hh, hf⟩ := hdr_wf rfl hw
  refine decode_class3 (h := h) 0x62 hh (packR_fRole ..) (packR_fG ..) (packR_fGn ..) (congrArg BitVec.toNat (packR_fOpc ..)) rfl rfl rfl
    ((row_62 ..).trans ?_)
  simp (disch := omega) only [encode, packR_fD, packR_fA, packR_fB, packR_fC, packR_fFn, packR_bits, packR_bit, fOff16_eq, fAmo_eq, tf, b1, bits_lo, bits_hi, bit_lo, bit_hi]
  simp [req]
theorem fma (h : Hdr) (ty : FType) (d a b c : SReg) : Statement (.fma h ty d a b c) := by
  intro hw
  have ⟨hh, hf⟩ := hdr_wf rfl hw
  refine decode_class3 (h := h) 0x63 hh (packR_fRole ..) (packR_fG ..) (packR_fGn ..) (congrArg BitVec.toNat (packR_fOpc ..)) rfl rfl rfl
    ((row_63 ..).trans ?_)
  simp (disch := omega) only [encode, packR_fD, packR_fA, packR_fB, packR_fC, packR_fFn, packR_bits, packR_bit, fOff16_eq, fAmo_eq, tf, b1, bits_lo, bits_hi, bit_lo, bit_hi]
  simp [req]
theorem fms (h : Hdr) (ty : FType) (d a b c : SReg) : Statement (.fms h ty d a b c) := by
  intro hw
  have ⟨hh, hf⟩ := hdr_wf rfl hw
  refine decode_class3 (h := h) 0x64 hh (packR_fRole ..) (packR_fG ..) (packR_fGn ..) (congrArg BitVec.toNat (packR_fOpc ..)) rfl rfl rfl
    ((row_64 ..).trans ?_)
  simp (disch := omega) only [encode, packR_fD, packR_fA, packR_fB, packR_fC, packR_fFn, packR_bits, packR_bit, fOff16_eq, fAmo_eq, tf, b1, bits_lo, bits_hi, bit_lo, bit_hi]
  simp [req]
theorem fnma (h : Hdr) (ty : FType) (d a b c : SReg) : Statement (.fnma h ty d a b c) := by
  intro hw
  have ⟨hh, hf⟩ := hdr_wf rfl hw
  refine decode_class3 (h := h) 0x65 hh (packR_fRole ..) (packR_fG ..) (packR_fGn ..) (congrArg BitVec.toNat (packR_fOpc ..)) rfl rfl rfl
    ((row_65 ..).trans ?_)
  simp (disch := omega) only [encode, packR_fD, packR_fA, packR_fB, packR_fC, packR_fFn, packR_bits, packR_bit, fOff16_eq, fAmo_eq, tf, b1, bits_lo, bits_hi, bit_lo, bit_hi]
  simp [req]
theorem fdiv (h : Hdr) (ty : FType) (d a b : SReg) : Statement (.fdiv h ty d a b) := by
  intro hw
  have ⟨hh, hf⟩ := hdr_wf rfl hw
  refine decode_class3 (h := h) 0x66 hh (packR_fRole ..) (packR_fG ..) (packR_fGn ..) (congrArg BitVec.toNat (packR_fOpc ..)) rfl rfl rfl
    ((row_66 ..).trans ?_)
  simp (disch := omega) only [encode, packR_fD, packR_fA, packR_fB, packR_fC, packR_fFn, packR_bits, packR_bit, fOff16_eq, fAmo_eq, tf, b1, bits_lo, bits_hi, bit_lo, bit_hi]
  simp [req]
theorem fsqrt (h : Hdr) (ty : FType) (d a : SReg) : Statement (.fsqrt h ty d a) := by
  intro hw
  have ⟨hh, hf⟩ := hdr_wf rfl hw
  refine decode_class3 (h := h) 0x67 hh (packR_fRole ..) (packR_fG ..) (packR_fGn ..) (congrArg BitVec.toNat (packR_fOpc ..)) rfl rfl rfl
    ((row_67 ..).trans ?_)
  simp (disch := omega) only [encode, packR_fD, packR_fA, packR_fB, packR_fC, packR_fFn, packR_bits, packR_bit, fOff16_eq, fAmo_eq, tf, b1, bits_lo, bits_hi, bit_lo, bit_hi]
  simp [req]
theorem fmin (h : Hdr) (ty : FType) (d a b : SReg) : Statement (.fmin h ty d a b) := by
  intro hw
  have ⟨hh, hf⟩ := hdr_wf rfl hw
  refine decode_class3 (h := h) 0x68 hh (packR_fRole ..) (packR_fG ..) (packR_fGn ..) (congrArg BitVec.toNat (packR_fOpc ..)) rfl rfl rfl
    ((row_68 ..).trans ?_)
  simp (disch := omega) only [encode, packR_fD, packR_fA, packR_fB, packR_fC, packR_fFn, packR_bits, packR_bit, fOff16_eq, fAmo_eq, tf, b1, bits_lo, bits_hi, bit_lo, bit_hi]
  simp [req]
theorem fmax (h : Hdr) (ty : FType) (d a b : SReg) : Statement (.fmax h ty d a b) := by
  intro hw
  have ⟨hh, hf⟩ := hdr_wf rfl hw
  refine decode_class3 (h := h) 0x69 hh (packR_fRole ..) (packR_fG ..) (packR_fGn ..) (congrArg BitVec.toNat (packR_fOpc ..)) rfl rfl rfl
    ((row_69 ..).trans ?_)
  simp (disch := omega) only [encode, packR_fD, packR_fA, packR_fB, packR_fC, packR_fFn, packR_bits, packR_bit, fOff16_eq, fAmo_eq, tf, b1, bits_lo, bits_hi, bit_lo, bit_hi]
  simp [req]
theorem fminm (h : Hdr) (ty : FType) (d a b : SReg) : Statement (.fminm h ty d a b) := by
  intro hw
  have ⟨hh, hf⟩ := hdr_wf rfl hw
  refine decode_class3 (h := h) 0x6A hh (packR_fRole ..) (packR_fG ..) (packR_fGn ..) (congrArg BitVec.toNat (packR_fOpc ..)) rfl rfl rfl
    ((row_6A ..).trans ?_)
  simp (disch := omega) only [encode, packR_fD, packR_fA, packR_fB, packR_fC, packR_fFn, packR_bits, packR_bit, fOff16_eq, fAmo_eq, tf, b1, bits_lo, bits_hi, bit_lo, bit_hi]
  simp [req]
theorem fmaxm (h : Hdr) (ty : FType) (d a b : SReg) : Statement (.fmaxm h ty d a b) := by
  intro hw
  have ⟨hh, hf⟩ := hdr_wf rfl hw
  refine decode_class3 (h := h) 0x6B hh (packR_fRole ..) (packR_fG ..) (packR_fGn ..) (congrArg BitVec.toNat (packR_fOpc ..)) rfl rfl rfl
    ((row_6B ..).trans ?_)
  simp (disch := omega) only [encode, packR_fD, packR_fA, packR_fB, packR_fC, packR_fFn, packR_bits, packR_bit, fOff16_eq, fAmo_eq, tf, b1, bits_lo, bits_hi, bit_lo, bit_hi]
  simp [req]
theorem fcmp (h : Hdr) (ty : FType) (d : CmpDst) (a b : SReg) (cc : FCc) : Statement (.fcmp h ty d a b cc) := by
  intro hw
  have ⟨hh, hf⟩ := hdr_wf rfl hw
  refine decode_class3 (h := h) 0x6C hh (packR_fRole ..) (packR_fG ..) (packR_fGn ..) (congrArg BitVec.toNat (packR_fOpc ..)) rfl rfl rfl
    ((row_6C ..).trans ?_)
  simp (disch := omega) only [encode, packR_fD, packR_fA, packR_fB, packR_fC, packR_fFn, packR_bits, packR_bit, fOff16_eq, fAmo_eq, tf, b1, bits_lo, bits_hi, bit_lo, bit_hi]
  simp [req]
theorem fclass (h : Hdr) (ty : FType) (d a : SReg) : Statement (.fclass h ty d a) := by
  intro hw
  have ⟨hh, hf⟩ := hdr_wf rfl hw
  refine decode_class3 (h := h) 0x6D hh (packR_fRole ..) (packR_fG ..) (packR_fGn ..) (congrArg BitVec.toNat (packR_fOpc ..)) rfl rfl rfl
    ((row_6D ..).trans ?_)
  simp (disch := omega) only [encode, packR_fD, packR_fA, packR_fB, packR_fC, packR_fFn, packR_bits, packR_bit, fOff16_eq, fAmo_eq, tf, b1, bits_lo, bits_hi, bit_lo, bit_hi]
  simp [req]
theorem fcvt (h : Hdr) (ty ty2 : FType) (rm : Option RMode) (d a : SReg) : Statement (.fcvt h ty ty2 rm d a) := by
  intro hw
  have ⟨hh, hf⟩ := hdr_wf rfl hw
  refine decode_class3 (h := h) 0x6E hh (packR_fRole ..) (packR_fG ..) (packR_fGn ..) (congrArg BitVec.toNat (packR_fOpc ..)) rfl rfl rfl
    ((row_6E ..).trans ?_)
  simp (disch := omega) only [encode, packR_fD, packR_fA, packR_fB, packR_fC, packR_fFn, packR_bits, packR_bit, fOff16_eq, fAmo_eq, tf, b1, bits_lo, bits_hi, bit_lo, bit_hi]
  simp [req]
theorem fcvti (h : Hdr) (ty : FType) (ity : IType) (rm : Option RMode) (d a : SReg) : Statement (.fcvti h ty ity rm d a) := by
  intro hw
  have ⟨hh, hf⟩ := hdr_wf rfl hw
  refine decode_class3 (h := h) 0x6F hh (packR_fRole ..) (packR_fG ..) (packR_fGn ..) (congrArg BitVec.toNat (packR_fOpc ..)) rfl rfl rfl
    ((row_6F ..).trans ?_)
  simp (disch := omega) only [encode, packR_fD, packR_fA, packR_fB, packR_fC, packR_fFn, packR_bits, packR_bit, fOff16_eq, fAmo_eq, tf, b1, bits_lo, bits_hi, bit_lo, bit_hi]
  simp [req]
theorem icvtf (h : Hdr) (ty : FType) (ity : IType) (rm : Option RMode) (d a : SReg) : Statement (.icvtf h ty ity rm d a) := by
  intro hw
  have ⟨hh, hf⟩ := hdr_wf rfl hw
  refine decode_class3 (h := h) 0x70 hh (packR_fRole ..) (packR_fG ..) (packR_fGn ..) (congrArg BitVec.toNat (packR_fOpc ..)) rfl rfl rfl
    ((row_70 ..).trans ?_)
  simp (disch := omega) only [encode, packR_fD, packR_fA, packR_fB, packR_fC, packR_fFn, packR_bits, packR_bit, fOff16_eq, fAmo_eq, tf, b1, bits_lo, bits_hi, bit_lo, bit_hi]
  simp [req]
theorem fsgn (h : Hdr) (ty : FType) (op : SgnOp) (d a : SReg) : Statement (.fsgn h ty op d a) := by
  intro hw
  have ⟨hh, hf⟩ := hdr_wf rfl hw
  refine decode_class3 (h := h) 0x71 hh (packR_fRole ..) (packR_fG ..) (packR_fGn ..) (congrArg BitVec.toNat (packR_fOpc ..)) rfl rfl rfl
    ((row_71 ..).trans ?_)
  simp (disch := omega) only [encode, packR_fD, packR_fA, packR_fB, packR_fC, packR_fFn, packR_bits, packR_bit, fOff16_eq, fAmo_eq, tf, b1, bits_lo, bits_hi, bit_lo, bit_hi]
  simp [req]
theorem frnd (h : Hdr) (ty : FType) (rm : Option RMode) (d a : SReg) : Statement (.frnd h ty rm d a) := by
  intro hw
  have ⟨hh, hf⟩ := hdr_wf rfl hw
  refine decode_class3 (h := h) 0x72 hh (packR_fRole ..) (packR_fG ..) (packR_fGn ..) (congrArg BitVec.toNat (packR_fOpc ..)) rfl rfl rfl
    ((row_72 ..).trans ?_)
  simp (disch := omega) only [encode, packR_fD, packR_fA, packR_fB, packR_fC, packR_fFn, packR_bits, packR_bit, fOff16_eq, fAmo_eq, tf, b1, bits_lo, bits_hi, bit_lo, bit_hi]
  simp [req]
theorem fscalb (h : Hdr) (ty : FType) (d a b : SReg) : Statement (.fscalb h ty d a b) := by
  intro hw
  have ⟨hh, hf⟩ := hdr_wf rfl hw
  refine decode_class3 (h := h) 0x73 hh (packR_fRole ..) (packR_fG ..) (packR_fGn ..) (congrArg BitVec.toNat (packR_fOpc ..)) rfl rfl rfl
    ((row_73 ..).trans ?_)
  simp (disch := omega) only [encode, packR_fD, packR_fA, packR_fB, packR_fC, packR_fFn, packR_bits, packR_bit, fOff16_eq, fAmo_eq, tf, b1, bits_lo, bits_hi, bit_lo, bit_hi]
  simp [req]
theorem fexp2 (h : Hdr) (ty : FType) (d a : SReg) : Statement (.fexp2 h ty d a) := by
  intro hw
  have ⟨hh, hf⟩ := hdr_wf rfl hw
  refine decode_class3 (h := h) 0x74 hh (packR_fRole ..) (packR_fG ..) (packR_fGn ..) (congrArg BitVec.toNat (packR_fOpc ..)) rfl rfl rfl
    ((row_74 ..).trans ?_)
  simp (disch := omega) only [encode, packR_fD, packR_fA, packR_fB, packR_fC, packR_fFn, packR_bits, packR_bit, fOff16_eq, fAmo_eq, tf, b1, bits_lo, bits_hi, bit_lo, bit_hi]
  simp [req]
theorem flog2 (h : Hdr) (ty : FType) (d a : SReg) : Statement (.flog2 h ty d a) := by
  intro hw
  have ⟨hh, hf⟩ := hdr_wf rfl hw
  refine decode_class3 (h := h) 0x75 hh (packR_fRole ..) (packR_fG ..) (packR_fGn ..) (congrArg BitVec.toNat (packR_fOpc ..)) rfl rfl rfl
    ((row_75 ..).trans ?_)
  simp (disch := omega) only [encode, packR_fD, packR_fA, packR_fB, packR_fC, packR_fFn, packR_bits, packR_bit, fOff16_eq, fAmo_eq, tf, b1, bits_lo, bits_hi, bit_lo, bit_hi]
  simp [req]
theorem frcp (h : Hdr) (ty : FType) (d a : SReg) : Statement (.frcp h ty d a) := by
  intro hw
  have ⟨hh, hf⟩ := hdr_wf rfl hw
  refine decode_class3 (h := h) 0x76 hh (packR_fRole ..) (packR_fG ..) (packR_fGn ..) (congrArg BitVec.toNat (packR_fOpc ..)) rfl rfl rfl
    ((row_76 ..).trans ?_)
  simp (disch := omega) only [encode, packR_fD, packR_fA, packR_fB, packR_fC, packR_fFn, packR_bits, packR_bit, fOff16_eq, fAmo_eq, tf, b1, bits_lo, bits_hi, bit_lo, bit_hi]
  simp [req]
theorem frsq (h : Hdr) (ty : FType) (d a : SReg) : Statement (.frsq h ty d a) := by
  intro hw
  have ⟨hh, hf⟩ := hdr_wf rfl hw
  refine decode_class3 (h := h) 0x77 hh (packR_fRole ..) (packR_fG ..) (packR_fGn ..) (congrArg BitVec.toNat (packR_fOpc ..)) rfl rfl rfl
    ((row_77 ..).trans ?_)
  simp (disch := omega) only [encode, packR_fD, packR_fA, packR_fB, packR_fC, packR_fFn, packR_bits, packR_bit, fOff16_eq, fAmo_eq, tf, b1, bits_lo, bits_hi, bit_lo, bit_hi]
  simp [req]
theorem frand (h : Hdr) (op : RandOp) (d : SReg) : Statement (.frand h op d) := by
  intro hw
  have ⟨hh, hf⟩ := hdr_wf rfl hw
  refine decode_class3 (h := h) 0x78 hh (packR_fRole ..) (packR_fG ..) (packR_fGn ..) (congrArg BitVec.toNat (packR_fOpc ..)) rfl rfl rfl
    ((row_78 ..).trans ?_)
  simp (disch := omega) only [encode, packR_fD, packR_fA, packR_fB, packR_fC, packR_fFn, packR_bits, packR_bit, fOff16_eq, fAmo_eq, tf, b1, bits_lo, bits_hi, bit_lo, bit_hi]
  simp [req]
theorem lds (h : Hdr) (sz : LdSize) (sc : Scope) (d a b : SReg) (off : BitVec 20) : Statement (.lds h sz sc d a b off) := by
  intro hw
  have ⟨hh, hf⟩ := hdr_wf rfl hw
  refine decode_class4 (h := h) 0x80 hh (packM_fRole ..) (packM_fG ..) (packM_fGn ..) (congrArg BitVec.toNat (packM_fOpc ..)) rfl rfl rfl
    ((row_80 ..).trans ?_)
  simp (disch := omega) only [encode, packM_fD, packM_fA, packM_fB, packM_fSc, packM_fSz, packM_fOff, packM_bits, packM_tag, fOff16_eq, fAmo_eq, tf, b1, bits_lo, bits_hi, bit_lo, bit_hi]
  simp [req]
theorem sts (h : Hdr) (sz : StSize) (sc : Scope) (d a b : SReg) (off : BitVec 20) : Statement (.sts h sz sc d a b off) := by
  intro hw
  have ⟨hh, hf⟩ := hdr_wf rfl hw
  refine decode_class4 (h := h) 0x81 hh (packM_fRole ..) (packM_fG ..) (packM_fGn ..) (congrArg BitVec.toNat (packM_fOpc ..)) rfl rfl rfl
    ((row_81 ..).trans ?_)
  simp (disch := omega) only [encode, packM_fD, packM_fA, packM_fB, packM_fSc, packM_fSz, packM_fOff, packM_bits, packM_tag, fOff16_eq, fAmo_eq, tf, b1, bits_lo, bits_hi, bit_lo, bit_hi]
  simp [req]
theorem ldg (h : Hdr) (sz : LdSize) (sc : Scope) (d a b : SReg) (off : BitVec 20) : Statement (.ldg h sz sc d a b off) := by
  intro hw
  have ⟨hh, hf⟩ := hdr_wf rfl hw
  refine decode_class4 (h := h) 0x82 hh (packM_fRole ..) (packM_fG ..) (packM_fGn ..) (congrArg BitVec.toNat (packM_fOpc ..)) rfl rfl rfl
    ((row_82 ..).trans ?_)
  simp (disch := omega) only [encode, packM_fD, packM_fA, packM_fB, packM_fSc, packM_fSz, packM_fOff, packM_bits, packM_tag, fOff16_eq, fAmo_eq, tf, b1, bits_lo, bits_hi, bit_lo, bit_hi]
  simp [req]
theorem stg (h : Hdr) (sz : StSize) (sc : Scope) (d a b : SReg) (off : BitVec 20) : Statement (.stg h sz sc d a b off) := by
  intro hw
  have ⟨hh, hf⟩ := hdr_wf rfl hw
  refine decode_class4 (h := h) 0x83 hh (packM_fRole ..) (packM_fG ..) (packM_fGn ..) (congrArg BitVec.toNat (packM_fOpc ..)) rfl rfl rfl
    ((row_83 ..).trans ?_)
  simp (disch := omega) only [encode, packM_fD, packM_fA, packM_fB, packM_fSc, packM_fSz, packM_fOff, packM_bits, packM_tag, fOff16_eq, fAmo_eq, tf, b1, bits_lo, bits_hi, bit_lo, bit_hi]
  simp [req]
theorem qld (h : Hdr) (sz : LdSize) (sc : Scope) (tag : BitVec 3) (d a : SReg) (off : BitVec 20) : Statement (.qld h sz sc tag d a off) := by
  intro hw
  have ⟨hh, hf⟩ := hdr_wf rfl hw
  refine decode_class4 (h := h) 0x84 hh (packM_fRole ..) (packM_fG ..) (packM_fGn ..) (congrArg BitVec.toNat (packM_fOpc ..)) rfl rfl rfl
    ((row_84 ..).trans ?_)
  simp (disch := omega) only [encode, packM_fD, packM_fA, packM_fB, packM_fSc, packM_fSz, packM_fOff, packM_bits, packM_tag, fOff16_eq, fAmo_eq, tf, b1, bits_lo, bits_hi, bit_lo, bit_hi]
  simp [req]
theorem qldp (h : Hdr) (sc : Scope) (tag : BitVec 3) (d a : SReg) (off : BitVec 20) : Statement (.qldp h sc tag d a off) := by
  intro hw
  have ⟨hh, hf⟩ := hdr_wf rfl hw
  refine decode_class4 (h := h) 0x85 hh (packM_fRole ..) (packM_fG ..) (packM_fGn ..) (congrArg BitVec.toNat (packM_fOpc ..)) rfl rfl rfl
    ((row_85 ..).trans ?_)
  simp (disch := omega) only [encode, packM_fD, packM_fA, packM_fB, packM_fSc, packM_fSz, packM_fOff, packM_bits, packM_tag, fOff16_eq, fAmo_eq, tf, b1, bits_lo, bits_hi, bit_lo, bit_hi]
  simpa [req, Instr.fieldsOk] using hf
theorem qst (h : Hdr) (sz : QstSize) (sc : Scope) (tag : BitVec 3) (d a : SReg) (off : BitVec 20) : Statement (.qst h sz sc tag d a off) := by
  intro hw
  have ⟨hh, hf⟩ := hdr_wf rfl hw
  refine decode_class4 (h := h) 0x86 hh (packM_fRole ..) (packM_fG ..) (packM_fGn ..) (congrArg BitVec.toNat (packM_fOpc ..)) rfl rfl rfl
    ((row_86 ..).trans ?_)
  simp (disch := omega) only [encode, packM_fD, packM_fA, packM_fB, packM_fSc, packM_fSz, packM_fOff, packM_bits, packM_tag, fOff16_eq, fAmo_eq, tf, b1, bits_lo, bits_hi, bit_lo, bit_hi]
  simp [Instr.fieldsOk] at hf
  rcases hf with hf | hf <;> simp [req, hf]
theorem qwait (h : Hdr) (tag : Option (BitVec 3)) : Statement (.qwait h tag) := by
  intro hw
  have ⟨hh, hf⟩ := hdr_wf rfl hw
  cases tag with
  | none =>
    refine decode_class4 (h := h) 0x87 hh (packR_fRole ..) (packR_fG ..) (packR_fGn ..) (congrArg BitVec.toNat (packR_fOpc ..)) rfl rfl rfl
      ((row_87 ..).trans ?_)
    simp (disch := omega) only [encode, packR_fD, packR_fA, packR_fB, packR_fC, packR_bits, packR_bit]
    rfl
  | some t =>
    refine decode_class4 (h := h) 0x87 hh (packR_fRole ..) (packR_fG ..) (packR_fGn ..) (congrArg BitVec.toNat (packR_fOpc ..)) rfl rfl rfl
      ((row_87 ..).trans ?_)
    simp (disch := omega) only [encode, packR_fD, packR_fA, packR_fB, packR_fC, packR_bits, packR_bit, bits_lo, bits_hi, bit_lo, bit_hi]
    simp [req]
theorem qpop (h : Hdr) (d : SReg) : Statement (.qpop h d) := by
  intro hw
  have ⟨hh, hf⟩ := hdr_wf rfl hw
  refine decode_class4 (h := h) 0x88 hh (packR_fRole ..) (packR_fG ..) (packR_fGn ..) (congrArg BitVec.toNat (packR_fOpc ..)) rfl rfl rfl
    ((row_88 ..).trans ?_)
  simp (disch := omega) only [encode, packR_fD, packR_fA, packR_fB, packR_fC, packR_fFn, packR_bits, packR_bit, fOff16_eq, fAmo_eq, tf, b1, bits_lo, bits_hi, bit_lo, bit_hi]
  simp [req]
theorem samo (h : Hdr) (op : AmoOp) (sz : AmoSize) (sc : Scope) (d a b : SReg) (off : BitVec 16) : Statement (.samo h op sz sc d a b off) := by
  intro hw
  have ⟨hh, hf⟩ := hdr_wf rfl hw
  refine decode_class4 (h := h) 0x89 hh (packM_fRole ..) (packM_fG ..) (packM_fGn ..) (congrArg BitVec.toNat (packM_fOpc ..)) rfl rfl rfl
    ((row_89 ..).trans ?_)
  simp (disch := omega) only [encode, packM_fD, packM_fA, packM_fB, packM_fSc, packM_fSz, packM_fOff, packM_bits, packM_tag, fOff16_eq, fAmo_eq, tf, b1, bits_lo, bits_hi, bit_lo, bit_hi]
  simp [Instr.fieldsOk] at hf
  rcases hf with hf | hf <;> simp [req, hf]
theorem samof (h : Hdr) (op : FAmoOp) (sz : AmoSize) (sc : Scope) (d a b : SReg) (off : BitVec 16) : Statement (.samof h op sz sc d a b off) := by
  intro hw
  have ⟨hh, hf⟩ := hdr_wf rfl hw
  refine decode_class4 (h := h) 0x8A hh (packM_fRole ..) (packM_fG ..) (packM_fGn ..) (congrArg BitVec.toNat (packM_fOpc ..)) rfl rfl rfl
    ((row_8A ..).trans ?_)
  simp (disch := omega) only [encode, packM_fD, packM_fA, packM_fB, packM_fSc, packM_fSz, packM_fOff, packM_bits, packM_tag, fOff16_eq, fAmo_eq, tf, b1, bits_lo, bits_hi, bit_lo, bit_hi]
  simp [req]
theorem gamo (h : Hdr) (op : AmoOp) (sz : AmoSize) (tag : BitVec 3) (d a b : SReg) (off : BitVec 16) : Statement (.gamo h op sz tag d a b off) := by
  intro hw
  have ⟨hh, hf⟩ := hdr_wf rfl hw
  refine decode_class4 (h := h) 0x8B hh (packM_fRole ..) (packM_fG ..) (packM_fGn ..) (congrArg BitVec.toNat (packM_fOpc ..)) rfl rfl rfl
    ((row_8B ..).trans ?_)
  simp (disch := omega) only [encode, packM_fD, packM_fA, packM_fB, packM_fSc, packM_fSz, packM_fOff, packM_bits, packM_tag, fOff16_eq, fAmo_eq, tf, b1, bits_lo, bits_hi, bit_lo, bit_hi]
  simp [Instr.fieldsOk] at hf
  rcases hf with hf | hf <;> simp [req, hf]
theorem gamof (h : Hdr) (op : FAmoOp) (sz : AmoSize) (tag : BitVec 3) (d a b : SReg) (off : BitVec 16) : Statement (.gamof h op sz tag d a b off) := by
  intro hw
  have ⟨hh, hf⟩ := hdr_wf rfl hw
  refine decode_class4 (h := h) 0x8C hh (packM_fRole ..) (packM_fG ..) (packM_fGn ..) (congrArg BitVec.toNat (packM_fOpc ..)) rfl rfl rfl
    ((row_8C ..).trans ?_)
  simp (disch := omega) only [encode, packM_fD, packM_fA, packM_fB, packM_fSc, packM_fSz, packM_fOff, packM_bits, packM_tag, fOff16_eq, fAmo_eq, tf, b1, bits_lo, bits_hi, bit_lo, bit_hi]
  simp [req]
theorem ldv (h : Hdr) (sz : VecSize) (sc : Scope) (d : VReg) (a b : SReg) (off : BitVec 20) : Statement (.ldv h sz sc d a b off) := by
  intro hw
  have ⟨hh, hf⟩ := hdr_wf rfl hw
  refine decode_class4 (h := h) 0x8D hh (packM_fRole ..) (packM_fG ..) (packM_fGn ..) (congrArg BitVec.toNat (packM_fOpc ..)) rfl rfl rfl
    ((row_8D ..).trans ?_)
  simp (disch := omega) only [encode, packM_fD, packM_fA, packM_fB, packM_fSc, packM_fSz, packM_fOff, packM_bits, packM_tag, fOff16_eq, fAmo_eq, tf, b1, bits_lo, bits_hi, bit_lo, bit_hi]
  simp [req]
theorem stv (h : Hdr) (sz : VecSize) (sc : Scope) (d : VReg) (a b : SReg) (off : BitVec 20) : Statement (.stv h sz sc d a b off) := by
  intro hw
  have ⟨hh, hf⟩ := hdr_wf rfl hw
  refine decode_class4 (h := h) 0x8E hh (packM_fRole ..) (packM_fG ..) (packM_fGn ..) (congrArg BitVec.toNat (packM_fOpc ..)) rfl rfl rfl
    ((row_8E ..).trans ?_)
  simp (disch := omega) only [encode, packM_fD, packM_fA, packM_fB, packM_fSc, packM_fSz, packM_fOff, packM_bits, packM_tag, fOff16_eq, fAmo_eq, tf, b1, bits_lo, bits_hi, bit_lo, bit_hi]
  simp [req]
theorem vgath (h : Hdr) (sz : VecSize) (sc : Scope) (d : VReg) (a : SReg) (b : VReg) (off : BitVec 20) : Statement (.vgath h sz sc d a b off) := by
  intro hw
  have ⟨hh, hf⟩ := hdr_wf rfl hw
  refine decode_class4 (h := h) 0x8F hh (packM_fRole ..) (packM_fG ..) (packM_fGn ..) (congrArg BitVec.toNat (packM_fOpc ..)) rfl rfl rfl
    ((row_8F ..).trans ?_)
  simp (disch := omega) only [encode, packM_fD, packM_fA, packM_fB, packM_fSc, packM_fSz, packM_fOff, packM_bits, packM_tag, fOff16_eq, fAmo_eq, tf, b1, bits_lo, bits_hi, bit_lo, bit_hi]
  simp [req]
theorem vscat (h : Hdr) (sz : VecSize) (sc : Scope) (d : VReg) (a : SReg) (b : VReg) (off : BitVec 20) : Statement (.vscat h sz sc d a b off) := by
  intro hw
  have ⟨hh, hf⟩ := hdr_wf rfl hw
  refine decode_class4 (h := h) 0x90 hh (packM_fRole ..) (packM_fG ..) (packM_fGn ..) (congrArg BitVec.toNat (packM_fOpc ..)) rfl rfl rfl
    ((row_90 ..).trans ?_)
  simp (disch := omega) only [encode, packM_fD, packM_fA, packM_fB, packM_fSc, packM_fSz, packM_fOff, packM_bits, packM_tag, fOff16_eq, fAmo_eq, tf, b1, bits_lo, bits_hi, bit_lo, bit_hi]
  simp [req]
theorem clean (h : Hdr) (sz : MaintSize) (sc : Scope) (a b : SReg) (off : BitVec 20) : Statement (.clean h sz sc a b off) := by
  intro hw
  have ⟨hh, hf⟩ := hdr_wf rfl hw
  refine decode_class4 (h := h) 0x91 hh (packM_fRole ..) (packM_fG ..) (packM_fGn ..) (congrArg BitVec.toNat (packM_fOpc ..)) rfl rfl rfl
    ((row_91 ..).trans ?_)
  simp (disch := omega) only [encode, packM_fD, packM_fA, packM_fB, packM_fSc, packM_fSz, packM_fOff, packM_bits, packM_tag, fOff16_eq, fAmo_eq, tf, b1, bits_lo, bits_hi, bit_lo, bit_hi]
  simp [req]
theorem inval (h : Hdr) (sz : MaintSize) (sc : Scope) (a b : SReg) (off : BitVec 20) : Statement (.inval h sz sc a b off) := by
  intro hw
  have ⟨hh, hf⟩ := hdr_wf rfl hw
  refine decode_class4 (h := h) 0x92 hh (packM_fRole ..) (packM_fG ..) (packM_fGn ..) (congrArg BitVec.toNat (packM_fOpc ..)) rfl rfl rfl
    ((row_92 ..).trans ?_)
  simp (disch := omega) only [encode, packM_fD, packM_fA, packM_fB, packM_fSc, packM_fSz, packM_fOff, packM_bits, packM_tag, fOff16_eq, fAmo_eq, tf, b1, bits_lo, bits_hi, bit_lo, bit_hi]
  simp [req]
theorem pfetch (h : Hdr) (sc : Scope) (a b : SReg) (off : BitVec 20) : Statement (.pfetch h sc a b off) := by
  intro hw
  have ⟨hh, hf⟩ := hdr_wf rfl hw
  refine decode_class4 (h := h) 0x93 hh (packM_fRole ..) (packM_fG ..) (packM_fGn ..) (congrArg BitVec.toNat (packM_fOpc ..)) rfl rfl rfl
    ((row_93 ..).trans ?_)
  simp (disch := omega) only [encode, packM_fD, packM_fA, packM_fB, packM_fSc, packM_fSz, packM_fOff, packM_bits, packM_tag, fOff16_eq, fAmo_eq, tf, b1, bits_lo, bits_hi, bit_lo, bit_hi]
  simpa [req, Instr.fieldsOk] using hf
theorem tld (h : Hdr) (x : BitVec 3) (nr : Option (BitVec 4)) (t : BitVec 3) (sc : Scope) (trow : BitVec 7) (tr : Bool) (n : BitVec 7) : Statement (.tld h x nr t sc trow tr n) := by
  intro hw
  have ⟨hh, hf⟩ := hdr_wf rfl hw
  refine decode_XH (h := h) 0x94 hh (packX_fRole ..) (packX_fG ..) (packX_fGn ..) (congrArg BitVec.toNat (packX_fOpc ..)) rfl rfl ?_
  simp (disch := omega) only [encode, decodeXH, packX_fD, packX_fXLow, packX_fXHi, packX_fNr, packX_fXT, packX_fXW, packX_bits, packX_bit, b1, bits_lo, bits_hi, bit_lo, bit_hi, decNr_enc, CollOp.dec_enc, Scope.dec_enc, bits_all]
  simpa [Instr.fieldsOk] using hf
theorem tst (h : Hdr) (x : BitVec 3) (nr : Option (BitVec 4)) (t : BitVec 3) (sc : Scope) (trow : BitVec 7) (tr : Bool) (n : BitVec 7) : Statement (.tst h x nr t sc trow tr n) := by
  intro hw
  have ⟨hh, hf⟩ := hdr_wf rfl hw
  refine decode_XH (h := h) 0x95 hh (packX_fRole ..) (packX_fG ..) (packX_fGn ..) (congrArg BitVec.toNat (packX_fOpc ..)) rfl rfl ?_
  simp (disch := omega) only [encode, decodeXH, packX_fD, packX_fXLow, packX_fXHi, packX_fNr, packX_fXT, packX_fXW, packX_bits, packX_bit, b1, bits_lo, bits_hi, bit_lo, bit_hi, decNr_enc, CollOp.dec_enc, Scope.dec_enc, bits_all]
  simpa [Instr.fieldsOk] using hf
theorem wopen (h : Hdr) (x w : BitVec 3) (sc : Scope) : Statement (.wopen h x w sc) := by
  intro hw
  have ⟨hh, hf⟩ := hdr_wf rfl hw
  refine decode_XH (h := h) 0x96 hh (packX_fRole ..) (packX_fG ..) (packX_fGn ..) (congrArg BitVec.toNat (packX_fOpc ..)) rfl rfl ?_
  simp (disch := omega) only [encode, decodeXH, packX_fD, packX_fXLow, packX_fXHi, packX_fNr, packX_fXT, packX_fXW, packX_bits, packX_bit, b1, bits_lo, bits_hi, bit_lo, bit_hi, decNr_enc, CollOp.dec_enc, Scope.dec_enc, bits_all]
  simpa [Instr.fieldsOk] using hf
theorem wadv (h : Hdr) (a : SReg) (w : BitVec 3) : Statement (.wadv h a w) := by
  intro hw
  have ⟨hh, hf⟩ := hdr_wf rfl hw
  refine decode_class4 (h := h) 0x97 hh (packR_fRole ..) (packR_fG ..) (packR_fGn ..) (congrArg BitVec.toNat (packR_fOpc ..)) rfl rfl rfl
    ((row_97 ..).trans ?_)
  simp (disch := omega) only [encode, packR_fD, packR_fA, packR_fB, packR_fC, packR_fFn, packR_bits, packR_bit, fOff16_eq, fAmo_eq, tf, b1, bits_lo, bits_hi, bit_lo, bit_hi]
  simp [req]
theorem wclose (h : Hdr) (w : BitVec 3) : Statement (.wclose h w) := by
  intro hw
  have ⟨hh, hf⟩ := hdr_wf rfl hw
  refine decode_class4 (h := h) 0x98 hh (packR_fRole ..) (packR_fG ..) (packR_fGn ..) (congrArg BitVec.toNat (packR_fOpc ..)) rfl rfl rfl
    ((row_98 ..).trans ?_)
  simp (disch := omega) only [encode, packR_fD, packR_fA, packR_fB, packR_fC, packR_fFn, packR_bits, packR_bit, fOff16_eq, fAmo_eq, tf, b1, bits_lo, bits_hi, bit_lo, bit_hi]
  simp [req]
theorem wrow (h : Hdr) (d a : SReg) (w : BitVec 3) : Statement (.wrow h d a w) := by
  intro hw
  have ⟨hh, hf⟩ := hdr_wf rfl hw
  refine decode_class4 (h := h) 0x99 hh (packR_fRole ..) (packR_fG ..) (packR_fGn ..) (congrArg BitVec.toNat (packR_fOpc ..)) rfl rfl rfl
    ((row_99 ..).trans ?_)
  simp (disch := omega) only [encode, packR_fD, packR_fA, packR_fB, packR_fC, packR_fFn, packR_bits, packR_bit, fOff16_eq, fAmo_eq, tf, b1, bits_lo, bits_hi, bit_lo, bit_hi]
  simp [req]
theorem cpy (h : Hdr) (x : BitVec 3) (nr : Option (BitVec 4)) (sc : Scope) (out : Bool) (n : BitVec 13) : Statement (.cpy h x nr sc out n) := by
  intro hw
  have ⟨hh, hf⟩ := hdr_wf rfl hw
  refine decode_XH (h := h) 0x9A hh (packX_fRole ..) (packX_fG ..) (packX_fGn ..) (congrArg BitVec.toNat (packX_fOpc ..)) rfl rfl ?_
  simp (disch := omega) only [encode, decodeXH, packX_fD, packX_fXLow, packX_fXHi, packX_fNr, packX_fXT, packX_fXW, packX_bits, packX_bit, b1, bits_lo, bits_hi, bit_lo, bit_hi, decNr_enc, CollOp.dec_enc, Scope.dec_enc, bits_all]
  simpa [Instr.fieldsOk] using hf
theorem cpyz (h : Hdr) (x : BitVec 3) (nr : Option (BitVec 4)) (sc : Scope) (n : BitVec 13) : Statement (.cpyz h x nr sc n) := by
  intro hw
  have ⟨hh, hf⟩ := hdr_wf rfl hw
  refine decode_XH (h := h) 0x9B hh (packX_fRole ..) (packX_fG ..) (packX_fGn ..) (congrArg BitVec.toNat (packX_fOpc ..)) rfl rfl ?_
  simp (disch := omega) only [encode, decodeXH, packX_fD, packX_fXLow, packX_fXHi, packX_fNr, packX_fXT, packX_fXW, packX_bits, packX_bit, b1, bits_lo, bits_hi, bit_lo, bit_hi, decNr_enc, CollOp.dec_enc, Scope.dec_enc, bits_all]
  simpa [Instr.fieldsOk] using hf
theorem cpyst (h : Hdr) (d : SReg) (wait : Bool) : Statement (.cpyst h d wait) := by
  intro hw
  have ⟨hh, hf⟩ := hdr_wf rfl hw
  refine decode_class4 (h := h) 0x9C hh (packR_fRole ..) (packR_fG ..) (packR_fGn ..) (congrArg BitVec.toNat (packR_fOpc ..)) rfl rfl rfl
    ((row_9C ..).trans ?_)
  simp (disch := omega) only [encode, packR_fD, packR_fA, packR_fB, packR_fC, packR_fFn, packR_bits, packR_bit, fOff16_eq, fAmo_eq, tf, b1, bits_lo, bits_hi, bit_lo, bit_hi]
  simp [req]
theorem vadd (h : Hdr) (d a : VReg) (b : VOpB) : Statement (.vadd h d a b) := by
  intro hw
  have ⟨hh, hf⟩ := hdr_wf rfl hw
  refine decode_class5 (h := h) 0xA0 hh (packR_fRole ..) (packR_fG ..) (packR_fGn ..) (congrArg BitVec.toNat (packR_fOpc ..)) rfl rfl rfl
    ((row_A0 ..).trans ?_)
  simp (disch := omega) only [encode, packR_fD, packR_fA, packR_fB, packR_fC, packR_fFn, packR_bits, packR_bit, fOff16_eq, fAmo_eq, tf, b1, bits_lo, bits_hi, bit_lo, bit_hi]
  simp [req]
theorem vsub (h : Hdr) (d a : VReg) (b : VOpB) : Statement (.vsub h d a b) := by
  intro hw
  have ⟨hh, hf⟩ := hdr_wf rfl hw
  refine decode_class5 (h := h) 0xA1 hh (packR_fRole ..) (packR_fG ..) (packR_fGn ..) (congrArg BitVec.toNat (packR_fOpc ..)) rfl rfl rfl
    ((row_A1 ..).trans ?_)
  simp (disch := omega) only [encode, packR_fD, packR_fA, packR_fB, packR_fC, packR_fFn, packR_bits, packR_bit, fOff16_eq, fAmo_eq, tf, b1, bits_lo, bits_hi, bit_lo, bit_hi]
  simp [req]
theorem vmul (h : Hdr) (d a : VReg) (b : VOpB) : Statement (.vmul h d a b) := by
  intro hw
  have ⟨hh, hf⟩ := hdr_wf rfl hw
  refine decode_class5 (h := h) 0xA2 hh (packR_fRole ..) (packR_fG ..) (packR_fGn ..) (congrArg BitVec.toNat (packR_fOpc ..)) rfl rfl rfl
    ((row_A2 ..).trans ?_)
  simp (disch := omega) only [encode, packR_fD, packR_fA, packR_fB, packR_fC, packR_fFn, packR_bits, packR_bit, fOff16_eq, fAmo_eq, tf, b1, bits_lo, bits_hi, bit_lo, bit_hi]
  simp [req]
theorem vmulh (h : Hdr) (u : Bool) (d a : VReg) (b : VOpB) : Statement (.vmulh h u d a b) := by
  intro hw
  have ⟨hh, hf⟩ := hdr_wf rfl hw
  refine decode_class5 (h := h) 0xA3 hh (packR_fRole ..) (packR_fG ..) (packR_fGn ..) (congrArg BitVec.toNat (packR_fOpc ..)) rfl rfl rfl
    ((row_A3 ..).trans ?_)
  simp (disch := omega) only [encode, packR_fD, packR_fA, packR_fB, packR_fC, packR_fFn, packR_bits, packR_bit, fOff16_eq, fAmo_eq, tf, b1, bits_lo, bits_hi, bit_lo, bit_hi]
  simp [req]
theorem vmin (h : Hdr) (u : Bool) (d a : VReg) (b : VOpB) : Statement (.vmin h u d a b) := by
  intro hw
  have ⟨hh, hf⟩ := hdr_wf rfl hw
  refine decode_class5 (h := h) 0xA4 hh (packR_fRole ..) (packR_fG ..) (packR_fGn ..) (congrArg BitVec.toNat (packR_fOpc ..)) rfl rfl rfl
    ((row_A4 ..).trans ?_)
  simp (disch := omega) only [encode, packR_fD, packR_fA, packR_fB, packR_fC, packR_fFn, packR_bits, packR_bit, fOff16_eq, fAmo_eq, tf, b1, bits_lo, bits_hi, bit_lo, bit_hi]
  simp [req]
theorem vmax (h : Hdr) (u : Bool) (d a : VReg) (b : VOpB) : Statement (.vmax h u d a b) := by
  intro hw
  have ⟨hh, hf⟩ := hdr_wf rfl hw
  refine decode_class5 (h := h) 0xA5 hh (packR_fRole ..) (packR_fG ..) (packR_fGn ..) (congrArg BitVec.toNat (packR_fOpc ..)) rfl rfl rfl
    ((row_A5 ..).trans ?_)
  simp (disch := omega) only [encode, packR_fD, packR_fA, packR_fB, packR_fC, packR_fFn, packR_bits, packR_bit, fOff16_eq, fAmo_eq, tf, b1, bits_lo, bits_hi, bit_lo, bit_hi]
  simp [req]
theorem vand (h : Hdr) (d a : VReg) (b : VOpB) : Statement (.vand h d a b) := by
  intro hw
  have ⟨hh, hf⟩ := hdr_wf rfl hw
  refine decode_class5 (h := h) 0xA6 hh (packR_fRole ..) (packR_fG ..) (packR_fGn ..) (congrArg BitVec.toNat (packR_fOpc ..)) rfl rfl rfl
    ((row_A6 ..).trans ?_)
  simp (disch := omega) only [encode, packR_fD, packR_fA, packR_fB, packR_fC, packR_fFn, packR_bits, packR_bit, fOff16_eq, fAmo_eq, tf, b1, bits_lo, bits_hi, bit_lo, bit_hi]
  simp [req]
theorem vor (h : Hdr) (d a : VReg) (b : VOpB) : Statement (.vor h d a b) := by
  intro hw
  have ⟨hh, hf⟩ := hdr_wf rfl hw
  refine decode_class5 (h := h) 0xA7 hh (packR_fRole ..) (packR_fG ..) (packR_fGn ..) (congrArg BitVec.toNat (packR_fOpc ..)) rfl rfl rfl
    ((row_A7 ..).trans ?_)
  simp (disch := omega) only [encode, packR_fD, packR_fA, packR_fB, packR_fC, packR_fFn, packR_bits, packR_bit, fOff16_eq, fAmo_eq, tf, b1, bits_lo, bits_hi, bit_lo, bit_hi]
  simp [req]
theorem vxor (h : Hdr) (d a : VReg) (b : VOpB) : Statement (.vxor h d a b) := by
  intro hw
  have ⟨hh, hf⟩ := hdr_wf rfl hw
  refine decode_class5 (h := h) 0xA8 hh (packR_fRole ..) (packR_fG ..) (packR_fGn ..) (congrArg BitVec.toNat (packR_fOpc ..)) rfl rfl rfl
    ((row_A8 ..).trans ?_)
  simp (disch := omega) only [encode, packR_fD, packR_fA, packR_fB, packR_fC, packR_fFn, packR_bits, packR_bit, fOff16_eq, fAmo_eq, tf, b1, bits_lo, bits_hi, bit_lo, bit_hi]
  simp [req]
theorem vshl (h : Hdr) (d a : VReg) (b : VOpB) : Statement (.vshl h d a b) := by
  intro hw
  have ⟨hh, hf⟩ := hdr_wf rfl hw
  refine decode_class5 (h := h) 0xA9 hh (packR_fRole ..) (packR_fG ..) (packR_fGn ..) (congrArg BitVec.toNat (packR_fOpc ..)) rfl rfl rfl
    ((row_A9 ..).trans ?_)
  simp (disch := omega) only [encode, packR_fD, packR_fA, packR_fB, packR_fC, packR_fFn, packR_bits, packR_bit, fOff16_eq, fAmo_eq, tf, b1, bits_lo, bits_hi, bit_lo, bit_hi]
  simp [req]
theorem vshr (h : Hdr) (d a : VReg) (b : VOpB) : Statement (.vshr h d a b) := by
  intro hw
  have ⟨hh, hf⟩ := hdr_wf rfl hw
  refine decode_class5 (h := h) 0xAA hh (packR_fRole ..) (packR_fG ..) (packR_fGn ..) (congrArg BitVec.toNat (packR_fOpc ..)) rfl rfl rfl
    ((row_AA ..).trans ?_)
  simp (disch := omega) only [encode, packR_fD, packR_fA, packR_fB, packR_fC, packR_fFn, packR_bits, packR_bit, fOff16_eq, fAmo_eq, tf, b1, bits_lo, bits_hi, bit_lo, bit_hi]
  simp [req]
theorem vsar (h : Hdr) (d a : VReg) (b : VOpB) : Statement (.vsar h d a b) := by
  intro hw
  have ⟨hh, hf⟩ := hdr_wf rfl hw
  refine decode_class5 (h := h) 0xAB hh (packR_fRole ..) (packR_fG ..) (packR_fGn ..) (congrArg BitVec.toNat (packR_fOpc ..)) rfl rfl rfl
    ((row_AB ..).trans ?_)
  simp (disch := omega) only [encode, packR_fD, packR_fA, packR_fB, packR_fC, packR_fFn, packR_bits, packR_bit, fOff16_eq, fAmo_eq, tf, b1, bits_lo, bits_hi, bit_lo, bit_hi]
  simp [req]
theorem vfadd (h : Hdr) (lt : LType) (d a : VReg) (b : VOpB) : Statement (.vfadd h lt d a b) := by
  intro hw
  have ⟨hh, hf⟩ := hdr_wf rfl hw
  refine decode_class5 (h := h) 0xAC hh (packR_fRole ..) (packR_fG ..) (packR_fGn ..) (congrArg BitVec.toNat (packR_fOpc ..)) rfl rfl rfl
    ((row_AC ..).trans ?_)
  simp (disch := omega) only [encode, packR_fD, packR_fA, packR_fB, packR_fC, packR_fFn, packR_bits, packR_bit, fOff16_eq, fAmo_eq, tf, b1, bits_lo, bits_hi, bit_lo, bit_hi]
  simp [req]
theorem vfsub (h : Hdr) (lt : LType) (d a : VReg) (b : VOpB) : Statement (.vfsub h lt d a b) := by
  intro hw
  have ⟨hh, hf⟩ := hdr_wf rfl hw
  refine decode_class5 (h := h) 0xAD hh (packR_fRole ..) (packR_fG ..) (packR_fGn ..) (congrArg BitVec.toNat (packR_fOpc ..)) rfl rfl rfl
    ((row_AD ..).trans ?_)
  simp (disch := omega) only [encode, packR_fD, packR_fA, packR_fB, packR_fC, packR_fFn, packR_bits, packR_bit, fOff16_eq, fAmo_eq, tf, b1, bits_lo, bits_hi, bit_lo, bit_hi]
  simp [req]
theorem vfmul (h : Hdr) (lt : LType) (d a : VReg) (b : VOpB) : Statement (.vfmul h lt d a b) := by
  intro hw
  have ⟨hh, hf⟩ := hdr_wf rfl hw
  refine decode_class5 (h := h) 0xAE hh (packR_fRole ..) (packR_fG ..) (packR_fGn ..) (congrArg BitVec.toNat (packR_fOpc ..)) rfl rfl rfl
    ((row_AE ..).trans ?_)
  simp (disch := omega) only [encode, packR_fD, packR_fA, packR_fB, packR_fC, packR_fFn, packR_bits, packR_bit, fOff16_eq, fAmo_eq, tf, b1, bits_lo, bits_hi, bit_lo, bit_hi]
  simp [req]
theorem vfma (h : Hdr) (lt : LType) (d a : VReg) (b : VOpB) (c : VReg) : Statement (.vfma h lt d a b c) := by
  intro hw
  have ⟨hh, hf⟩ := hdr_wf rfl hw
  refine decode_class5 (h := h) 0xAF hh (packR_fRole ..) (packR_fG ..) (packR_fGn ..) (congrArg BitVec.toNat (packR_fOpc ..)) rfl rfl rfl
    ((row_AF ..).trans ?_)
  simp (disch := omega) only [encode, packR_fD, packR_fA, packR_fB, packR_fC, packR_fFn, packR_bits, packR_bit, fOff16_eq, fAmo_eq, tf, b1, bits_lo, bits_hi, bit_lo, bit_hi]
  simp [req]
theorem vfmin (h : Hdr) (num : Bool) (lt : LType) (d a : VReg) (b : VOpB) : Statement (.vfmin h num lt d a b) := by
  intro hw
  have ⟨hh, hf⟩ := hdr_wf rfl hw
  refine decode_class5 (h := h) 0xB0 hh (packR_fRole ..) (packR_fG ..) (packR_fGn ..) (congrArg BitVec.toNat (packR_fOpc ..)) rfl rfl rfl
    ((row_B0 ..).trans ?_)
  simp (disch := omega) only [encode, packR_fD, packR_fA, packR_fB, packR_fC, packR_fFn, packR_bits, packR_bit, fOff16_eq, fAmo_eq, tf, b1, bits_lo, bits_hi, bit_lo, bit_hi]
  simp [req]
theorem vfmax (h : Hdr) (num : Bool) (lt : LType) (d a : VReg) (b : VOpB) : Statement (.vfmax h num lt d a b) := by
  intro hw
  have ⟨hh, hf⟩ := hdr_wf rfl hw
  refine decode_class5 (h := h) 0xB1 hh (packR_fRole ..) (packR_fG ..) (packR_fGn ..) (congrArg BitVec.toNat (packR_fOpc ..)) rfl rfl rfl
    ((row_B1 ..).trans ?_)
  simp (disch := omega) only [encode, packR_fD, packR_fA, packR_fB, packR_fC, packR_fFn, packR_bits, packR_bit, fOff16_eq, fAmo_eq, tf, b1, bits_lo, bits_hi, bit_lo, bit_hi]
  simp [req]
theorem vfdiv (h : Hdr) (lt : LType) (d a : VReg) (b : VOpB) : Statement (.vfdiv h lt d a b) := by
  intro hw
  have ⟨hh, hf⟩ := hdr_wf rfl hw
  refine decode_class5 (h := h) 0xB2 hh (packR_fRole ..) (packR_fG ..) (packR_fGn ..) (congrArg BitVec.toNat (packR_fOpc ..)) rfl rfl rfl
    ((row_B2 ..).trans ?_)
  simp (disch := omega) only [encode, packR_fD, packR_fA, packR_fB, packR_fC, packR_fFn, packR_bits, packR_bit, fOff16_eq, fAmo_eq, tf, b1, bits_lo, bits_hi, bit_lo, bit_hi]
  simp [req]
theorem vfsqrt (h : Hdr) (lt : LType) (d a : VReg) : Statement (.vfsqrt h lt d a) := by
  intro hw
  have ⟨hh, hf⟩ := hdr_wf rfl hw
  refine decode_class5 (h := h) 0xB3 hh (packR_fRole ..) (packR_fG ..) (packR_fGn ..) (congrArg BitVec.toNat (packR_fOpc ..)) rfl rfl rfl
    ((row_B3 ..).trans ?_)
  simp (disch := omega) only [encode, packR_fD, packR_fA, packR_fB, packR_fC, packR_fFn, packR_bits, packR_bit, fOff16_eq, fAmo_eq, tf, b1, bits_lo, bits_hi, bit_lo, bit_hi]
  simp [req]
theorem vfexp2 (h : Hdr) (lt : LType) (d a : VReg) : Statement (.vfexp2 h lt d a) := by
  intro hw
  have ⟨hh, hf⟩ := hdr_wf rfl hw
  refine decode_class5 (h := h) 0xB4 hh (packR_fRole ..) (packR_fG ..) (packR_fGn ..) (congrArg BitVec.toNat (packR_fOpc ..)) rfl rfl rfl
    ((row_B4 ..).trans ?_)
  simp (disch := omega) only [encode, packR_fD, packR_fA, packR_fB, packR_fC, packR_fFn, packR_bits, packR_bit, fOff16_eq, fAmo_eq, tf, b1, bits_lo, bits_hi, bit_lo, bit_hi]
  simp [req]
theorem vfrcp (h : Hdr) (lt : LType) (d a : VReg) : Statement (.vfrcp h lt d a) := by
  intro hw
  have ⟨hh, hf⟩ := hdr_wf rfl hw
  refine decode_class5 (h := h) 0xB5 hh (packR_fRole ..) (packR_fG ..) (packR_fGn ..) (congrArg BitVec.toNat (packR_fOpc ..)) rfl rfl rfl
    ((row_B5 ..).trans ?_)
  simp (disch := omega) only [encode, packR_fD, packR_fA, packR_fB, packR_fC, packR_fFn, packR_bits, packR_bit, fOff16_eq, fAmo_eq, tf, b1, bits_lo, bits_hi, bit_lo, bit_hi]
  simp [req]
theorem vfrsq (h : Hdr) (lt : LType) (d a : VReg) : Statement (.vfrsq h lt d a) := by
  intro hw
  have ⟨hh, hf⟩ := hdr_wf rfl hw
  refine decode_class5 (h := h) 0xB6 hh (packR_fRole ..) (packR_fG ..) (packR_fGn ..) (congrArg BitVec.toNat (packR_fOpc ..)) rfl rfl rfl
    ((row_B6 ..).trans ?_)
  simp (disch := omega) only [encode, packR_fD, packR_fA, packR_fB, packR_fC, packR_fFn, packR_bits, packR_bit, fOff16_eq, fAmo_eq, tf, b1, bits_lo, bits_hi, bit_lo, bit_hi]
  simp [req]
theorem vcmp (h : Hdr) (op : VCmpOp) (d : PReg) (a : VReg) (b : VOpB) : Statement (.vcmp h op d a b) := by
  intro hw
  have ⟨hh, hf⟩ := hdr_wf rfl hw
  refine decode_class5 (h := h) 0xB7 hh (packR_fRole ..) (packR_fG ..) (packR_fGn ..) (congrArg BitVec.toNat (packR_fOpc ..)) rfl rfl rfl
    ((row_B7 ..).trans ?_)
  simp (disch := omega) only [encode, packR_fD, packR_fA, packR_fB, packR_fC, packR_fFn, packR_bits, packR_bit, fOff16_eq, fAmo_eq, tf, b1, bits_lo, bits_hi, bit_lo, bit_hi]
  simp [req]
theorem vcvt (h : Hdr) (tgt frm : CvtSide) (sgn : Bool) (rm : Option RMode) (d a : VReg) : Statement (.vcvt h tgt frm sgn rm d a) := by
  intro hw
  have ⟨hh, hf⟩ := hdr_wf rfl hw
  refine decode_class5 (h := h) 0xB8 hh (packR_fRole ..) (packR_fG ..) (packR_fGn ..) (congrArg BitVec.toNat (packR_fOpc ..)) rfl rfl rfl
    ((row_B8 ..).trans ?_)
  simp (disch := omega) only [encode, packR_fD, packR_fA, packR_fB, packR_fC, packR_fFn, packR_bits, packR_bit, fOff16_eq, fAmo_eq, tf, b1, bits_lo, bits_hi, bit_lo, bit_hi]
  simp [req, hf]
theorem vred (h : Hdr) (op : RedOp) (d a : VReg) : Statement (.vred h op d a) := by
  intro hw
  have ⟨hh, hf⟩ := hdr_wf rfl hw
  refine decode_class5 (h := h) 0xB9 hh (packR_fRole ..) (packR_fG ..) (packR_fGn ..) (congrArg BitVec.toNat (packR_fOpc ..)) rfl rfl rfl
    ((row_B9 ..).trans ?_)
  simp (disch := omega) only [encode, packR_fD, packR_fA, packR_fB, packR_fC, packR_fFn, packR_bits, packR_bit, fOff16_eq, fAmo_eq, tf, b1, bits_lo, bits_hi, bit_lo, bit_hi]
  simp [req]
theorem vperm (h : Hdr) (wrap : Bool) (d a : VReg) (b : VOpB) : Statement (.vperm h wrap d a b) := by
  intro hw
  have ⟨hh, hf⟩ := hdr_wf rfl hw
  refine decode_class5 (h := h) 0xBA hh (packR_fRole ..) (packR_fG ..) (packR_fGn ..) (congrArg BitVec.toNat (packR_fOpc ..)) rfl rfl rfl
    ((row_BA ..).trans ?_)
  simp (disch := omega) only [encode, packR_fD, packR_fA, packR_fB, packR_fC, packR_fFn, packR_bits, packR_bit, fOff16_eq, fAmo_eq, tf, b1, bits_lo, bits_hi, bit_lo, bit_hi]
  simp [req]
theorem vsplat (h : Hdr) (d : VReg) (a : SReg) : Statement (.vsplat h d a) := by
  intro hw
  have ⟨hh, hf⟩ := hdr_wf rfl hw
  refine decode_class5 (h := h) 0xBB hh (packR_fRole ..) (packR_fG ..) (packR_fGn ..) (congrArg BitVec.toNat (packR_fOpc ..)) rfl rfl rfl
    ((row_BB ..).trans ?_)
  simp (disch := omega) only [encode, packR_fD, packR_fA, packR_fB, packR_fC, packR_fFn, packR_bits, packR_bit, fOff16_eq, fAmo_eq, tf, b1, bits_lo, bits_hi, bit_lo, bit_hi]
  simp [req]
theorem vext (h : Hdr) (sx : Bool) (k : BitVec 6) (d : SReg) (a : VReg) (b : SReg) : Statement (.vext h sx k d a b) := by
  intro hw
  have ⟨hh, hf⟩ := hdr_wf rfl hw
  refine decode_class5 (h := h) 0xBC hh (packR_fRole ..) (packR_fG ..) (packR_fGn ..) (congrArg BitVec.toNat (packR_fOpc ..)) rfl rfl rfl
    ((row_BC ..).trans ?_)
  simp (disch := omega) only [encode, packR_fD, packR_fA, packR_fB, packR_fC, packR_fFn, packR_bits, packR_bit, fOff16_eq, fAmo_eq, tf, b1, bits_lo, bits_hi, bit_lo, bit_hi]
  simp [req]
theorem vhad (h : Hdr) (n : HadN) (nrm : Bool) (lt : LType) (d a : VReg) : Statement (.vhad h n nrm lt d a) := by
  intro hw
  have ⟨hh, hf⟩ := hdr_wf rfl hw
  refine decode_class5 (h := h) 0xBD hh (packR_fRole ..) (packR_fG ..) (packR_fGn ..) (congrArg BitVec.toNat (packR_fOpc ..)) rfl rfl rfl
    ((row_BD ..).trans ?_)
  simp (disch := omega) only [encode, packR_fD, packR_fA, packR_fB, packR_fC, packR_fFn, packR_bits, packR_bit, fOff16_eq, fAmo_eq, tf, b1, bits_lo, bits_hi, bit_lo, bit_hi]
  simp [req]
theorem vsel (h : Hdr) (d a : VReg) (b : VOpB) (c : PReg) : Statement (.vsel h d a b c) := by
  intro hw
  have ⟨hh, hf⟩ := hdr_wf rfl hw
  refine decode_class5 (h := h) 0xBE hh (packR_fRole ..) (packR_fG ..) (packR_fGn ..) (congrArg BitVec.toNat (packR_fOpc ..)) rfl rfl rfl
    ((row_BE ..).trans ?_)
  simp (disch := omega) only [encode, packR_fD, packR_fA, packR_fB, packR_fC, packR_fFn, packR_bits, packR_bit, fOff16_eq, fAmo_eq, tf, b1, bits_lo, bits_hi, bit_lo, bit_hi]
  simp [req]
theorem viota (h : Hdr) (d : VReg) (a b : SReg) : Statement (.viota h d a b) := by
  intro hw
  have ⟨hh, hf⟩ := hdr_wf rfl hw
  refine decode_class5 (h := h) 0xBF hh (packR_fRole ..) (packR_fG ..) (packR_fGn ..) (congrArg BitVec.toNat (packR_fOpc ..)) rfl rfl rfl
    ((row_BF ..).trans ?_)
  simp (disch := omega) only [encode, packR_fD, packR_fA, packR_fB, packR_fC, packR_fFn, packR_bits, packR_bit, fOff16_eq, fAmo_eq, tf, b1, bits_lo, bits_hi, bit_lo, bit_hi]
  simp [req]
theorem tcfg (h : Hdr) (reg : SReg) : Statement (.tcfg h reg) := by
  intro hw
  have ⟨hh, hf⟩ := hdr_wf rfl hw
  refine decode_class6 (h := h) 0xC0 hh (packT_fRole ..) (packT_fG ..) (packT_fGn ..) (congrArg BitVec.toNat (packT_fOpc ..)) rfl rfl rfl
    ((row_C0 ..).trans ?_)
  simp (disch := omega) only [encode, packT_fTa, packT_fTb, packT_fAcc, packT_fReg, packT_fSel, packT_fXs, packT_fXimm, packT_bits, packT_bit, fOff16_eq, fAmo_eq, tf, b1, bits_lo, bits_hi, bit_lo, bit_hi]
  simp [req]
theorem tzero (h : Hdr) (ta : BitVec 3) (sl : Slice) (tag : Option SReg) : Statement (.tzero h ta sl tag) := by
  intro hw
  have ⟨hh, hf⟩ := hdr_wf rfl hw
  refine decode_class6 (h := h) 0xC1 hh (packT_fRole ..) (packT_fG ..) (packT_fGn ..) (congrArg BitVec.toNat (packT_fOpc ..)) rfl rfl rfl
    ((row_C1 ..).trans ?_)
  simp (disch := omega) only [encode, packT_fTa, packT_fTb, packT_fAcc, packT_fReg, packT_fSel, packT_fXs, packT_fXimm, packT_bits, packT_bit, fOff16_eq, fAmo_eq, tf, b1, bits_lo, bits_hi, bit_lo, bit_hi]
  simp [Instr.fieldsOk] at hf
  rcases hf with hf | hf <;> simp [req, hf]
theorem tmovv (h : Hdr) (ta : BitVec 3) (sl : Slice) (reg : VReg) (wr hi tag : Bool) : Statement (.tmovv h ta sl reg wr hi tag) := by
  intro hw
  have ⟨hh, hf⟩ := hdr_wf rfl hw
  refine decode_class6 (h := h) 0xC2 hh (packT_fRole ..) (packT_fG ..) (packT_fGn ..) (congrArg BitVec.toNat (packT_fOpc ..)) rfl rfl rfl
    ((row_C2 ..).trans ?_)
  simp (disch := omega) only [encode, packT_fTa, packT_fTb, packT_fAcc, packT_fReg, packT_fSel, packT_fXs, packT_fXimm, packT_bits, packT_bit, fOff16_eq, fAmo_eq, tf, b1, bits_lo, bits_hi, bit_lo, bit_hi]
  cases sl <;> simpa [req, Instr.fieldsOk, Slice.notWhole, Slice.notCol] using hf
theorem tmovt (h : Hdr) (ta tb : BitVec 3) : Statement (.tmovt h ta tb) := by
  intro hw
  have ⟨hh, hf⟩ := hdr_wf rfl hw
  refine decode_class6 (h := h) 0xC3 hh (packT_fRole ..) (packT_fG ..) (packT_fGn ..) (congrArg BitVec.toNat (packT_fOpc ..)) rfl rfl rfl
    ((row_C3 ..).trans ?_)
  simp (disch := omega) only [encode, packT_fTa, packT_fTb, packT_fAcc, packT_fReg, packT_fSel, packT_fXs, packT_fXimm, packT_bits, packT_bit, fOff16_eq, fAmo_eq, tf, b1, bits_lo, bits_hi, bit_lo, bit_hi]
  simp [req]
theorem tcopy (h : Hdr) (ta tb : BitVec 3) (sl : Slice) : Statement (.tcopy h ta tb sl) := by
  intro hw
  have ⟨hh, hf⟩ := hdr_wf rfl hw
  refine decode_class6 (h := h) 0xC4 hh (packT_fRole ..) (packT_fG ..) (packT_fGn ..) (congrArg BitVec.toNat (packT_fOpc ..)) rfl rfl rfl
    ((row_C4 ..).trans ?_)
  simp (disch := omega) only [encode, packT_fTa, packT_fTb, packT_fAcc, packT_fReg, packT_fSel, packT_fXs, packT_fXimm, packT_bits, packT_bit, fOff16_eq, fAmo_eq, tf, b1, bits_lo, bits_hi, bit_lo, bit_hi]
  simp [req]
theorem tdec (h : Hdr) (ta tb : BitVec 3) (sl : Slice) : Statement (.tdec h ta tb sl) := by
  intro hw
  have ⟨hh, hf⟩ := hdr_wf rfl hw
  refine decode_class6 (h := h) 0xC5 hh (packT_fRole ..) (packT_fG ..) (packT_fGn ..) (congrArg BitVec.toNat (packT_fOpc ..)) rfl rfl rfl
    ((row_C5 ..).trans ?_)
  simp (disch := omega) only [encode, packT_fTa, packT_fTb, packT_fAcc, packT_fReg, packT_fSel, packT_fXs, packT_fXimm, packT_bits, packT_bit, fOff16_eq, fAmo_eq, tf, b1, bits_lo, bits_hi, bit_lo, bit_hi]
  simpa [req, Instr.fieldsOk] using hf
theorem tenc (h : Hdr) (ta tb : BitVec 3) (sl : Slice) (reg : SReg) (sc : Bool) : Statement (.tenc h ta tb sl reg sc) := by
  intro hw
  have ⟨hh, hf⟩ := hdr_wf rfl hw
  refine decode_class6 (h := h) 0xC6 hh (packT_fRole ..) (packT_fG ..) (packT_fGn ..) (congrArg BitVec.toNat (packT_fOpc ..)) rfl rfl rfl
    ((row_C6 ..).trans ?_)
  simp (disch := omega) only [encode, packT_fTa, packT_fTb, packT_fAcc, packT_fReg, packT_fSel, packT_fXs, packT_fXimm, packT_bits, packT_bit, fOff16_eq, fAmo_eq, tf, b1, bits_lo, bits_hi, bit_lo, bit_hi]
  simpa [req, Instr.fieldsOk] using hf
theorem mma (h : Hdr) (ta tb : BitVec 3) (acc : BitVec 2) (at' bt sov sa sb clr : Bool) : Statement (.mma h ta tb acc at' bt sov sa sb clr) := by
  intro hw
  have ⟨hh, hf⟩ := hdr_wf rfl hw
  refine decode_class6 (h := h) 0xC7 hh (packT_fRole ..) (packT_fG ..) (packT_fGn ..) (congrArg BitVec.toNat (packT_fOpc ..)) rfl rfl rfl
    ((row_C7 ..).trans ?_)
  simp (disch := omega) only [encode, packT_fTa, packT_fTb, packT_fAcc, packT_fReg, packT_fSel, packT_fXs, packT_fXimm, packT_bits, packT_bit, fOff16_eq, fAmo_eq, tf, b1, bits_lo, bits_hi, bit_lo, bit_hi]
  simp [req]
theorem mpt (h : Hdr) (ta : BitVec 3) (reg : SReg) (kb : BitVec 7) : Statement (.mpt h ta reg kb) := by
  intro hw
  have ⟨hh, hf⟩ := hdr_wf rfl hw
  refine decode_class6 (h := h) 0xC8 hh (packT_fRole ..) (packT_fG ..) (packT_fGn ..) (congrArg BitVec.toNat (packT_fOpc ..)) rfl rfl rfl
    ((row_C8 ..).trans ?_)
  simp (disch := omega) only [encode, packT_fTa, packT_fTb, packT_fAcc, packT_fReg, packT_fSel, packT_fXs, packT_fXimm, packT_bits, packT_bit, fOff16_eq, fAmo_eq, tf, b1, bits_lo, bits_hi, bit_lo, bit_hi]
  simp [req]
theorem mga (h : Hdr) (ta : BitVec 3) (acc : BitVec 2) (clr : Bool) : Statement (.mga h ta acc clr) := by
  intro hw
  have ⟨hh, hf⟩ := hdr_wf rfl hw
  refine decode_class6 (h := h) 0xC9 hh (packT_fRole ..) (packT_fG ..) (packT_fGn ..) (congrArg BitVec.toNat (packT_fOpc ..)) rfl rfl rfl
    ((row_C9 ..).trans ?_)
  simp (disch := omega) only [encode, packT_fTa, packT_fTb, packT_fAcc, packT_fReg, packT_fSel, packT_fXs, packT_fXimm, packT_bits, packT_bit, fOff16_eq, fAmo_eq, tf, b1, bits_lo, bits_hi, bit_lo, bit_hi]
  simp [req]
theorem mhad (h : Hdr) (ta tb : BitVec 3) (sl : Slice) (n : HadN) (nrm : Bool) : Statement (.mhad h ta tb sl n nrm) := by
  intro hw
  have ⟨hh, hf⟩ := hdr_wf rfl hw
  refine decode_class6 (h := h) 0xCA hh (packT_fRole ..) (packT_fG ..) (packT_fGn ..) (congrArg BitVec.toNat (packT_fOpc ..)) rfl rfl rfl
    ((row_CA ..).trans ?_)
  simp (disch := omega) only [encode, packT_fTa, packT_fTb, packT_fAcc, packT_fReg, packT_fSel, packT_fXs, packT_fXimm, packT_bits, packT_bit, fOff16_eq, fAmo_eq, tf, b1, bits_lo, bits_hi, bit_lo, bit_hi]
  simpa [req, Instr.fieldsOk] using hf
theorem azero (h : Hdr) (acc : BitVec 2) (sl : Slice) (res : Bool) : Statement (.azero h acc sl res) := by
  intro hw
  have ⟨hh, hf⟩ := hdr_wf rfl hw
  refine decode_class6 (h := h) 0xCB hh (packT_fRole ..) (packT_fG ..) (packT_fGn ..) (congrArg BitVec.toNat (packT_fOpc ..)) rfl rfl rfl
    ((row_CB ..).trans ?_)
  simp (disch := omega) only [encode, packT_fTa, packT_fTb, packT_fAcc, packT_fReg, packT_fSel, packT_fXs, packT_fXimm, packT_bits, packT_bit, fOff16_eq, fAmo_eq, tf, b1, bits_lo, bits_hi, bit_lo, bit_hi]
  simp [req]
theorem amovv (h : Hdr) (acc : BitVec 2) (sl : Slice) (reg : VReg) (hi : Bool) : Statement (.amovv h acc sl reg hi) := by
  intro hw
  have ⟨hh, hf⟩ := hdr_wf rfl hw
  refine decode_class6 (h := h) 0xCC hh (packT_fRole ..) (packT_fG ..) (packT_fGn ..) (congrArg BitVec.toNat (packT_fOpc ..)) rfl rfl rfl
    ((row_CC ..).trans ?_)
  simp (disch := omega) only [encode, packT_fTa, packT_fTb, packT_fAcc, packT_fReg, packT_fSel, packT_fXs, packT_fXimm, packT_bits, packT_bit, fOff16_eq, fAmo_eq, tf, b1, bits_lo, bits_hi, bit_lo, bit_hi]
  simpa [req, Instr.fieldsOk] using hf
theorem awrv (h : Hdr) (acc : BitVec 2) (sl : Slice) (reg : VReg) (hi add int : Bool) : Statement (.awrv h acc sl reg hi add int) := by
  intro hw
  have ⟨hh, hf⟩ := hdr_wf rfl hw
  refine decode_class6 (h := h) 0xCD hh (packT_fRole ..) (packT_fG ..) (packT_fGn ..) (congrArg BitVec.toNat (packT_fOpc ..)) rfl rfl rfl
    ((row_CD ..).trans ?_)
  simp (disch := omega) only [encode, packT_fTa, packT_fTb, packT_fAcc, packT_fReg, packT_fSel, packT_fXs, packT_fXimm, packT_bits, packT_bit, fOff16_eq, fAmo_eq, tf, b1, bits_lo, bits_hi, bit_lo, bit_hi]
  simpa [req, Instr.fieldsOk] using hf
theorem acvt (h : Hdr) (ta : BitVec 3) (acc : BitVec 2) (sl : Slice) (reg : SReg) (tr res sc int : Bool) : Statement (.acvt h ta acc sl reg tr res sc int) := by
  intro hw
  have ⟨hh, hf⟩ := hdr_wf rfl hw
  refine decode_class6 (h := h) 0xCE hh (packT_fRole ..) (packT_fG ..) (packT_fGn ..) (congrArg BitVec.toNat (packT_fOpc ..)) rfl rfl rfl
    ((row_CE ..).trans ?_)
  simp (disch := omega) only [encode, packT_fTa, packT_fTb, packT_fAcc, packT_fReg, packT_fSel, packT_fXs, packT_fXimm, packT_bits, packT_bit, fOff16_eq, fAmo_eq, tf, b1, bits_lo, bits_hi, bit_lo, bit_hi]
  simpa [req, Instr.fieldsOk] using hf
theorem ascl (h : Hdr) (acc : BitVec 2) (sl : Slice) (reg : SReg) : Statement (.ascl h acc sl reg) := by
  intro hw
  have ⟨hh, hf⟩ := hdr_wf rfl hw
  refine decode_class6 (h := h) 0xCF hh (packT_fRole ..) (packT_fG ..) (packT_fGn ..) (congrArg BitVec.toNat (packT_fOpc ..)) rfl rfl rfl
    ((row_CF ..).trans ?_)
  simp (disch := omega) only [encode, packT_fTa, packT_fTb, packT_fAcc, packT_fReg, packT_fSel, packT_fXs, packT_fXimm, packT_bits, packT_bit, fOff16_eq, fAmo_eq, tf, b1, bits_lo, bits_hi, bit_lo, bit_hi]
  simp [req]
theorem abmax (h : Hdr) (acc : BitVec 2) (sl : Slice) (reg : VReg) (int : Bool) : Statement (.abmax h acc sl reg int) := by
  intro hw
  have ⟨hh, hf⟩ := hdr_wf rfl hw
  refine decode_class6 (h := h) 0xD0 hh (packT_fRole ..) (packT_fG ..) (packT_fGn ..) (congrArg BitVec.toNat (packT_fOpc ..)) rfl rfl rfl
    ((row_D0 ..).trans ?_)
  simp (disch := omega) only [encode, packT_fTa, packT_fTb, packT_fAcc, packT_fReg, packT_fSel, packT_fXs, packT_fXimm, packT_bits, packT_bit, fOff16_eq, fAmo_eq, tf, b1, bits_lo, bits_hi, bit_lo, bit_hi]
  simp [req]
theorem rzero (h : Hdr) (acc : BitVec 2) (sl : Slice) : Statement (.rzero h acc sl) := by
  intro hw
  have ⟨hh, hf⟩ := hdr_wf rfl hw
  refine decode_class6 (h := h) 0xD1 hh (packT_fRole ..) (packT_fG ..) (packT_fGn ..) (congrArg BitVec.toNat (packT_fOpc ..)) rfl rfl rfl
    ((row_D1 ..).trans ?_)
  simp (disch := omega) only [encode, packT_fTa, packT_fTb, packT_fAcc, packT_fReg, packT_fSel, packT_fXs, packT_fXimm, packT_bits, packT_bit, fOff16_eq, fAmo_eq, tf, b1, bits_lo, bits_hi, bit_lo, bit_hi]
  simp [req]
theorem rmovv (h : Hdr) (acc : BitVec 2) (sl : Slice) (reg : VReg) (wr hi : Bool) : Statement (.rmovv h acc sl reg wr hi) := by
  intro hw
  have ⟨hh, hf⟩ := hdr_wf rfl hw
  refine decode_class6 (h := h) 0xD2 hh (packT_fRole ..) (packT_fG ..) (packT_fGn ..) (congrArg BitVec.toNat (packT_fOpc ..)) rfl rfl rfl
    ((row_D2 ..).trans ?_)
  simp (disch := omega) only [encode, packT_fTa, packT_fTb, packT_fAcc, packT_fReg, packT_fSel, packT_fXs, packT_fXimm, packT_bits, packT_bit, fOff16_eq, fAmo_eq, tf, b1, bits_lo, bits_hi, bit_lo, bit_hi]
  simpa [req, Instr.fieldsOk] using hf
theorem mmode (h : Hdr) (rm : RMode) (ld : Option SReg) : Statement (.mmode h rm ld) := by
  intro hw
  have ⟨hh, hf⟩ := hdr_wf rfl hw
  refine decode_class6 (h := h) 0xD3 hh (packI_fRole ..) (packI_fG ..) (packI_fGn ..) (congrArg BitVec.toNat (packI_fOpc ..)) rfl rfl rfl
    ((row_D3 ..).trans ?_)
  simp (disch := omega) only [encode, packI_fD, packI_fA, packI_fImm, packI_bits, packI_bit, fOff16_eq, fAmo_eq, tf, b1, bits_lo, bits_hi, bit_lo, bit_hi]
  simp [req]
theorem cbld (h : Hdr) (d a : SReg) (cbid : BitVec 12) : Statement (.cbld h d a cbid) := by
  intro hw
  have ⟨hh, hf⟩ := hdr_wf rfl hw
  refine decode_class6 (h := h) 0xD4 hh (packI_fRole ..) (packI_fG ..) (packI_fGn ..) (congrArg BitVec.toNat (packI_fOpc ..)) rfl rfl rfl
    ((row_D4 ..).trans ?_)
  simp (disch := omega) only [encode, packI_fD, packI_fA, packI_fImm, packI_bits, packI_bit, fOff16_eq, fAmo_eq, tf, b1, bits_lo, bits_hi, bit_lo, bit_hi]
  simpa [req, Instr.fieldsOk] using hf
theorem cbrev (h : Hdr) (d a : SReg) (cbid : BitVec 12) : Statement (.cbrev h d a cbid) := by
  intro hw
  have ⟨hh, hf⟩ := hdr_wf rfl hw
  refine decode_class6 (h := h) 0xD5 hh (packI_fRole ..) (packI_fG ..) (packI_fGn ..) (congrArg BitVec.toNat (packI_fOpc ..)) rfl rfl rfl
    ((row_D5 ..).trans ?_)
  simp (disch := omega) only [encode, packI_fD, packI_fA, packI_fImm, packI_bits, packI_bit, fOff16_eq, fAmo_eq, tf, b1, bits_lo, bits_hi, bit_lo, bit_hi]
  simpa [req, Instr.fieldsOk] using hf
theorem cbfloor (h : Hdr) (d a : SReg) (cbid : BitVec 12) : Statement (.cbfloor h d a cbid) := by
  intro hw
  have ⟨hh, hf⟩ := hdr_wf rfl hw
  refine decode_class6 (h := h) 0xD6 hh (packI_fRole ..) (packI_fG ..) (packI_fGn ..) (congrArg BitVec.toNat (packI_fOpc ..)) rfl rfl rfl
    ((row_D6 ..).trans ?_)
  simp (disch := omega) only [encode, packI_fD, packI_fA, packI_fImm, packI_bits, packI_bit, fOff16_eq, fAmo_eq, tf, b1, bits_lo, bits_hi, bit_lo, bit_hi]
  simpa [req, Instr.fieldsOk] using hf
theorem cbenc (h : Hdr) (sc : Bool) (d a : VReg) (b : SReg) : Statement (.cbenc h sc d a b) := by
  intro hw
  have ⟨hh, hf⟩ := hdr_wf rfl hw
  refine decode_class6 (h := h) 0xD7 hh (packR_fRole ..) (packR_fG ..) (packR_fGn ..) (congrArg BitVec.toNat (packR_fOpc ..)) rfl rfl rfl
    ((row_D7 ..).trans ?_)
  simp (disch := omega) only [encode, packR_fD, packR_fA, packR_fB, packR_fC, packR_fFn, packR_bits, packR_bit, fOff16_eq, fAmo_eq, tf, b1, bits_lo, bits_hi, bit_lo, bit_hi]
  simp [req]
theorem cbdec (h : Hdr) (sc : Bool) (d a : VReg) (b : SReg) : Statement (.cbdec h sc d a b) := by
  intro hw
  have ⟨hh, hf⟩ := hdr_wf rfl hw
  refine decode_class6 (h := h) 0xD8 hh (packR_fRole ..) (packR_fG ..) (packR_fGn ..) (congrArg BitVec.toNat (packR_fOpc ..)) rfl rfl rfl
    ((row_D8 ..).trans ?_)
  simp (disch := omega) only [encode, packR_fD, packR_fA, packR_fB, packR_fC, packR_fFn, packR_bits, packR_bit, fOff16_eq, fAmo_eq, tf, b1, bits_lo, bits_hi, bit_lo, bit_hi]
  simp [req]
theorem cbstat (h : Hdr) (d a : SReg) (cbid : BitVec 12) : Statement (.cbstat h d a cbid) := by
  intro hw
  have ⟨hh, hf⟩ := hdr_wf rfl hw
  refine decode_class6 (h := h) 0xD9 hh (packI_fRole ..) (packI_fG ..) (packI_fGn ..) (congrArg BitVec.toNat (packI_fOpc ..)) rfl rfl rfl
    ((row_D9 ..).trans ?_)
  simp (disch := omega) only [encode, packI_fD, packI_fA, packI_fImm, packI_bits, packI_bit, fOff16_eq, fAmo_eq, tf, b1, bits_lo, bits_hi, bit_lo, bit_hi]
  simpa [req, Instr.fieldsOk] using hf
theorem cbpin (h : Hdr) (d a : SReg) (cbid : BitVec 12) : Statement (.cbpin h d a cbid) := by
  intro hw
  have ⟨hh, hf⟩ := hdr_wf rfl hw
  refine decode_class6 (h := h) 0xDA hh (packI_fRole ..) (packI_fG ..) (packI_fGn ..) (congrArg BitVec.toNat (packI_fOpc ..)) rfl rfl rfl
    ((row_DA ..).trans ?_)
  simp (disch := omega) only [encode, packI_fD, packI_fA, packI_fImm, packI_bits, packI_bit, fOff16_eq, fAmo_eq, tf, b1, bits_lo, bits_hi, bit_lo, bit_hi]
  simpa [req, Instr.fieldsOk] using hf
theorem coll (h : Hdr) (d : SReg) (x : BitVec 3) (nr : Option (BitVec 4)) (op : CollOp) (cmp : Bool) (slot : BitVec 3) : Statement (.coll h d x nr op cmp slot) := by
  intro hw
  have ⟨hh, hf⟩ := hdr_wf rfl hw
  refine decode_XH (h := h) 0xE0 hh (packX_fRole ..) (packX_fG ..) (packX_fGn ..) (congrArg BitVec.toNat (packX_fOpc ..)) rfl rfl ?_
  simp (disch := omega) only [encode, decodeXH, packX_fD, packX_fXLow, packX_fXHi, packX_fNr, packX_fXT, packX_fXW, packX_bits, packX_bit, b1, bits_lo, bits_hi, bit_lo, bit_hi, decNr_enc, CollOp.dec_enc, Scope.dec_enc, bits_all]
  simp [Instr.fieldsOk] at hf
  rcases hf with (hf | hf) | hf <;> simp [hf, Instr.fieldsOk]
theorem collst (h : Hdr) (d : SReg) (wait : Bool) (slot : BitVec 3) : Statement (.collst h d wait slot) := by
  intro hw
  have ⟨hh, hf⟩ := hdr_wf rfl hw
  refine decode_class7 (h := h) 0xE1 hh (packR_fRole ..) (packR_fG ..) (packR_fGn ..) (congrArg BitVec.toNat (packR_fOpc ..)) rfl rfl rfl
    ((row_E1 ..).trans ?_)
  simp (disch := omega) only [encode, packR_fD, packR_fA, packR_fB, packR_fC, packR_fFn, packR_bits, packR_bit, fOff16_eq, fAmo_eq, tf, b1, bits_lo, bits_hi, bit_lo, bit_hi]
  simp [req]
theorem collab (h : Hdr) (d : SReg) (slot : BitVec 3) : Statement (.collab h d slot) := by
  intro hw
  have ⟨hh, hf⟩ := hdr_wf rfl hw
  refine decode_class7 (h := h) 0xE2 hh (packR_fRole ..) (packR_fG ..) (packR_fGn ..) (congrArg BitVec.toNat (packR_fOpc ..)) rfl rfl rfl
    ((row_E2 ..).trans ?_)
  simp (disch := omega) only [encode, packR_fD, packR_fA, packR_fB, packR_fC, packR_fFn, packR_bits, packR_bit, fOff16_eq, fAmo_eq, tf, b1, bits_lo, bits_hi, bit_lo, bit_hi]
  simp [req]
theorem fxr (h : Hdr) (sz : LdSize) (tag : BitVec 3) (d a b : SReg) (off : BitVec 20) : Statement (.fxr h sz tag d a b off) := by
  intro hw
  have ⟨hh, hf⟩ := hdr_wf rfl hw
  refine decode_class7 (h := h) 0xE3 hh (packM_fRole ..) (packM_fG ..) (packM_fGn ..) (congrArg BitVec.toNat (packM_fOpc ..)) rfl rfl rfl
    ((row_E3 ..).trans ?_)
  simp (disch := omega) only [encode, packM_fD, packM_fA, packM_fB, packM_fSc, packM_fSz, packM_fOff, packM_bits, packM_tag, fOff16_eq, fAmo_eq, tf, b1, bits_lo, bits_hi, bit_lo, bit_hi]
  simp [req]
theorem fxw (h : Hdr) (sz : StSize) (tag : BitVec 3) (d a b : SReg) (off : BitVec 20) : Statement (.fxw h sz tag d a b off) := by
  intro hw
  have ⟨hh, hf⟩ := hdr_wf rfl hw
  refine decode_class7 (h := h) 0xE4 hh (packM_fRole ..) (packM_fG ..) (packM_fGn ..) (congrArg BitVec.toNat (packM_fOpc ..)) rfl rfl rfl
    ((row_E4 ..).trans ?_)
  simp (disch := omega) only [encode, packM_fD, packM_fA, packM_fB, packM_fSc, packM_fSz, packM_fOff, packM_bits, packM_tag, fOff16_eq, fAmo_eq, tf, b1, bits_lo, bits_hi, bit_lo, bit_hi]
  simp [req]
theorem fxamo (h : Hdr) (op : AmoOp) (sz : AmoSize) (tag : BitVec 3) (d a b : SReg) (off : BitVec 16) : Statement (.fxamo h op sz tag d a b off) := by
  intro hw
  have ⟨hh, hf⟩ := hdr_wf rfl hw
  refine decode_class7 (h := h) 0xE5 hh (packM_fRole ..) (packM_fG ..) (packM_fGn ..) (congrArg BitVec.toNat (packM_fOpc ..)) rfl rfl rfl
    ((row_E5 ..).trans ?_)
  simp (disch := omega) only [encode, packM_fD, packM_fA, packM_fB, packM_fSc, packM_fSz, packM_fOff, packM_bits, packM_tag, fOff16_eq, fAmo_eq, tf, b1, bits_lo, bits_hi, bit_lo, bit_hi]
  simp [Instr.fieldsOk] at hf
  rcases hf with hf | hf <;> simp [req, hf]
theorem fxsig (h : Hdr) (tag : BitVec 3) (d a b : SReg) (off : BitVec 20) : Statement (.fxsig h tag d a b off) := by
  intro hw
  have ⟨hh, hf⟩ := hdr_wf rfl hw
  refine decode_class7 (h := h) 0xE6 hh (packM_fRole ..) (packM_fG ..) (packM_fGn ..) (congrArg BitVec.toNat (packM_fOpc ..)) rfl rfl rfl
    ((row_E6 ..).trans ?_)
  simp (disch := omega) only [encode, packM_fD, packM_fA, packM_fB, packM_fSc, packM_fSz, packM_fOff, packM_bits, packM_tag, fOff16_eq, fAmo_eq, tf, b1, bits_lo, bits_hi, bit_lo, bit_hi]
  simp [req]
theorem chainOpen (h : Hdr) (d a : SReg) : Statement (.chainOpen h d a) := by
  intro hw
  have ⟨hh, hf⟩ := hdr_wf rfl hw
  refine decode_class7 (h := h) 0xE7 hh (packR_fRole ..) (packR_fG ..) (packR_fGn ..) (congrArg BitVec.toNat (packR_fOpc ..)) rfl rfl rfl
    ((row_E7 ..).trans ?_)
  simp (disch := omega) only [encode, packR_fD, packR_fA, packR_fB, packR_fC, packR_fFn, packR_bits, packR_bit, fOff16_eq, fAmo_eq, tf, b1, bits_lo, bits_hi, bit_lo, bit_hi]
  simp [req]
theorem chainClose (h : Hdr) (d a : SReg) : Statement (.chainClose h d a) := by
  intro hw
  have ⟨hh, hf⟩ := hdr_wf rfl hw
  refine decode_class7 (h := h) 0xE7 hh (packR_fRole ..) (packR_fG ..) (packR_fGn ..) (congrArg BitVec.toNat (packR_fOpc ..)) rfl rfl rfl
    ((row_E7 ..).trans ?_)
  simp (disch := omega) only [encode, packR_fD, packR_fA, packR_fB, packR_fC, packR_fFn, packR_bits, packR_bit, fOff16_eq, fAmo_eq, tf, b1, bits_lo, bits_hi, bit_lo, bit_hi]
  simp [req]
theorem chainQuery (h : Hdr) (d a : SReg) : Statement (.chainQuery h d a) := by
  intro hw
  have ⟨hh, hf⟩ := hdr_wf rfl hw
  refine decode_class7 (h := h) 0xE7 hh (packR_fRole ..) (packR_fG ..) (packR_fGn ..) (congrArg BitVec.toNat (packR_fOpc ..)) rfl rfl rfl
    ((row_E7 ..).trans ?_)
  simp (disch := omega) only [encode, packR_fD, packR_fA, packR_fB, packR_fC, packR_fFn, packR_bits, packR_bit, fOff16_eq, fAmo_eq, tf, b1, bits_lo, bits_hi, bit_lo, bit_hi]
  simp [req]
theorem demote (h : Hdr) (d a : SReg) : Statement (.demote h d a) := by
  intro hw
  have ⟨hh, hf⟩ := hdr_wf rfl hw
  refine decode_class7 (h := h) 0xE8 hh (packR_fRole ..) (packR_fG ..) (packR_fGn ..) (congrArg BitVec.toNat (packR_fOpc ..)) rfl rfl rfl
    ((row_E8 ..).trans ?_)
  simp (disch := omega) only [encode, packR_fD, packR_fA, packR_fB, packR_fC, packR_fFn, packR_bits, packR_bit, fOff16_eq, fAmo_eq, tf, b1, bits_lo, bits_hi, bit_lo, bit_hi]
  simp [req]
theorem keyopGen (h : Hdr) (d a : SReg) : Statement (.keyopGen h d a) := by
  intro hw
  have ⟨hh, hf⟩ := hdr_wf rfl hw
  refine decode_class7 (h := h) 0xE9 hh (packR_fRole ..) (packR_fG ..) (packR_fGn ..) (congrArg BitVec.toNat (packR_fOpc ..)) rfl rfl rfl
    ((row_E9 ..).trans ?_)
  simp (disch := omega) only [encode, packR_fD, packR_fA, packR_fB, packR_fC, packR_fFn, packR_bits, packR_bit, fOff16_eq, fAmo_eq, tf, b1, bits_lo, bits_hi, bit_lo, bit_hi]
  simp [req]
theorem keyopDestroy (h : Hdr) (d a : SReg) : Statement (.keyopDestroy h d a) := by
  intro hw
  have ⟨hh, hf⟩ := hdr_wf rfl hw
  refine decode_class7 (h := h) 0xE9 hh (packR_fRole ..) (packR_fG ..) (packR_fGn ..) (congrArg BitVec.toNat (packR_fOpc ..)) rfl rfl rfl
    ((row_E9 ..).trans ?_)
  simp (disch := omega) only [encode, packR_fD, packR_fA, packR_fB, packR_fC, packR_fFn, packR_bits, packR_bit, fOff16_eq, fAmo_eq, tf, b1, bits_lo, bits_hi, bit_lo, bit_hi]
  simp [req]
theorem keyopQuery (h : Hdr) (d a : SReg) : Statement (.keyopQuery h d a) := by
  intro hw
  have ⟨hh, hf⟩ := hdr_wf rfl hw
  refine decode_class7 (h := h) 0xE9 hh (packR_fRole ..) (packR_fG ..) (packR_fGn ..) (congrArg BitVec.toNat (packR_fOpc ..)) rfl rfl rfl
    ((row_E9 ..).trans ?_)
  simp (disch := omega) only [encode, packR_fD, packR_fA, packR_fB, packR_fC, packR_fFn, packR_bits, packR_bit, fOff16_eq, fAmo_eq, tf, b1, bits_lo, bits_hi, bit_lo, bit_hi]
  simp [req]
theorem sysr (h : Hdr) (d : SReg) (reg : SysReg) : Statement (.sysr h d reg) := by
  intro hw
  have ⟨hh, hf⟩ := hdr_wf rfl hw
  refine decode_class7 (h := h) 0xEA hh (packI_fRole ..) (packI_fG ..) (packI_fGn ..) (congrArg BitVec.toNat (packI_fOpc ..)) rfl rfl rfl
    ((row_EA ..).trans ?_)
  simp (disch := omega) only [encode, packI_fD, packI_fA, packI_fImm, packI_bits, packI_bit, fOff16_eq, fAmo_eq, tf, b1, bits_lo, bits_hi, bit_lo, bit_hi]
  simp [req]
theorem syswHmask (h : Hdr) (d a : SReg) (n : BitVec 3) : Statement (.syswHmask h d a n) := by
  intro hw
  have ⟨hh, hf⟩ := hdr_wf rfl hw
  refine decode_class7 (h := h) 0xEB hh (packI_fRole ..) (packI_fG ..) (packI_fGn ..) (congrArg BitVec.toNat (packI_fOpc ..)) rfl rfl rfl
    ((row_EB ..).trans ?_)
  simp (disch := omega) only [encode, packI_fD, packI_fA, packI_fImm, packI_bits, packI_bit, fOff16_eq, fAmo_eq, tf, b1, bits_lo, bits_hi, bit_lo, bit_hi]
  simp [SysReg.writable]
theorem sysw (h : Hdr) (d a : SReg) (reg : SysReg) : Statement (.sysw h d a reg) := by
  intro hw
  have ⟨hh, hf⟩ := hdr_wf rfl hw
  refine decode_class7 (h := h) 0xEB hh (packI_fRole ..) (packI_fG ..) (packI_fGn ..) (congrArg BitVec.toNat (packI_fOpc ..)) rfl rfl rfl
    ((row_EB ..).trans ?_)
  simp (disch := omega) only [encode, packI_fD, packI_fA, packI_fImm, packI_bits, packI_bit, fOff16_eq, fAmo_eq, tf, b1, bits_lo, bits_hi, bit_lo, bit_hi]
  cases reg <;> simp_all [Instr.fieldsOk, SysReg.writable]
theorem hostsig (h : Hdr) (d a b : SReg) (code : BitVec 15) : Statement (.hostsig h d a b code) := by
  intro hw
  have ⟨hh, hf⟩ := hdr_wf rfl hw
  refine decode_class7 (h := h) 0xEC hh (packR_fRole ..) (packR_fG ..) (packR_fGn ..) (congrArg BitVec.toNat (packR_fOpc ..)) rfl rfl rfl
    ((row_EC ..).trans ?_)
  simp (disch := omega) only [encode, packR_fD, packR_fA, packR_fB, packR_fC, packR_fFn, packR_bits, packR_bit, fOff16_eq, fAmo_eq, tf, b1, bits_lo, bits_hi, bit_lo, bit_hi]
  simp [req]
theorem timeadjStep (h : Hdr) (d a : SReg) : Statement (.timeadjStep h d a) := by
  intro hw
  have ⟨hh, hf⟩ := hdr_wf rfl hw
  refine decode_class7 (h := h) 0xED hh (packR_fRole ..) (packR_fG ..) (packR_fGn ..) (congrArg BitVec.toNat (packR_fOpc ..)) rfl rfl rfl
    ((row_ED ..).trans ?_)
  simp (disch := omega) only [encode, packR_fD, packR_fA, packR_fB, packR_fC, packR_fFn, packR_bits, packR_bit, fOff16_eq, fAmo_eq, tf, b1, bits_lo, bits_hi, bit_lo, bit_hi]
  simp [req]
theorem timeadjRate (h : Hdr) (d a : SReg) : Statement (.timeadjRate h d a) := by
  intro hw
  have ⟨hh, hf⟩ := hdr_wf rfl hw
  refine decode_class7 (h := h) 0xED hh (packR_fRole ..) (packR_fG ..) (packR_fGn ..) (congrArg BitVec.toNat (packR_fOpc ..)) rfl rfl rfl
    ((row_ED ..).trans ?_)
  simp (disch := omega) only [encode, packR_fD, packR_fA, packR_fB, packR_fC, packR_fFn, packR_bits, packR_bit, fOff16_eq, fAmo_eq, tf, b1, bits_lo, bits_hi, bit_lo, bit_hi]
  simp [req]
theorem timeadjQuery (h : Hdr) (d a : SReg) : Statement (.timeadjQuery h d a) := by
  intro hw
  have ⟨hh, hf⟩ := hdr_wf rfl hw
  refine decode_class7 (h := h) 0xED hh (packR_fRole ..) (packR_fG ..) (packR_fGn ..) (congrArg BitVec.toNat (packR_fOpc ..)) rfl rfl rfl
    ((row_ED ..).trans ?_)
  simp (disch := omega) only [encode, packR_fD, packR_fA, packR_fB, packR_fC, packR_fFn, packR_bits, packR_bit, fOff16_eq, fAmo_eq, tf, b1, bits_lo, bits_hi, bit_lo, bit_hi]
  simp [req]
theorem trace (h : Hdr) (d a b : SReg) (code : BitVec 16) : Statement (.trace h d a b code) := by
  intro hw
  have ⟨hh, hf⟩ := hdr_wf rfl hw
  refine decode_class7 (h := h) 0xEE hh (packR_fRole ..) (packR_fG ..) (packR_fGn ..) (congrArg BitVec.toNat (packR_fOpc ..)) rfl rfl rfl
    ((row_EE ..).trans ?_)
  simp (disch := omega) only [encode, packR_fD, packR_fA, packR_fB, packR_fC, packR_fFn, packR_bits, packR_bit, fOff16_eq, fAmo_eq, tf, b1, bits_lo, bits_hi, bit_lo, bit_hi]
  simp [req]
theorem monsnap (h : Hdr) (d a b : SReg) : Statement (.monsnap h d a b) := by
  intro hw
  have ⟨hh, hf⟩ := hdr_wf rfl hw
  refine decode_class7 (h := h) 0xEF hh (packR_fRole ..) (packR_fG ..) (packR_fGn ..) (congrArg BitVec.toNat (packR_fOpc ..)) rfl rfl rfl
    ((row_EF ..).trans ?_)
  simp (disch := omega) only [encode, packR_fD, packR_fA, packR_fB, packR_fC, packR_fFn, packR_bits, packR_bit, fOff16_eq, fAmo_eq, tf, b1, bits_lo, bits_hi, bit_lo, bit_hi]
  simp [req]
theorem wdogArm (h : Hdr) (d a : SReg) : Statement (.wdogArm h d a) := by
  intro hw
  have ⟨hh, hf⟩ := hdr_wf rfl hw
  refine decode_class7 (h := h) 0xF0 hh (packR_fRole ..) (packR_fG ..) (packR_fGn ..) (congrArg BitVec.toNat (packR_fOpc ..)) rfl rfl rfl
    ((row_F0 ..).trans ?_)
  simp (disch := omega) only [encode, packR_fD, packR_fA, packR_fB, packR_fC, packR_fFn, packR_bits, packR_bit, fOff16_eq, fAmo_eq, tf, b1, bits_lo, bits_hi, bit_lo, bit_hi]
  simp [req]
theorem wdogOff (h : Hdr) (d a : SReg) : Statement (.wdogOff h d a) := by
  intro hw
  have ⟨hh, hf⟩ := hdr_wf rfl hw
  refine decode_class7 (h := h) 0xF0 hh (packR_fRole ..) (packR_fG ..) (packR_fGn ..) (congrArg BitVec.toNat (packR_fOpc ..)) rfl rfl rfl
    ((row_F0 ..).trans ?_)
  simp (disch := omega) only [encode, packR_fD, packR_fA, packR_fB, packR_fC, packR_fFn, packR_bits, packR_bit, fOff16_eq, fAmo_eq, tf, b1, bits_lo, bits_hi, bit_lo, bit_hi]
  simp [req]
theorem wdogQuery (h : Hdr) (d a : SReg) : Statement (.wdogQuery h d a) := by
  intro hw
  have ⟨hh, hf⟩ := hdr_wf rfl hw
  refine decode_class7 (h := h) 0xF0 hh (packR_fRole ..) (packR_fG ..) (packR_fGn ..) (congrArg BitVec.toNat (packR_fOpc ..)) rfl rfl rfl
    ((row_F0 ..).trans ?_)
  simp (disch := omega) only [encode, packR_fD, packR_fA, packR_fB, packR_fC, packR_fFn, packR_bits, packR_bit, fOff16_eq, fAmo_eq, tf, b1, bits_lo, bits_hi, bit_lo, bit_hi]
  simp [req]
theorem sparemap (h : Hdr) (d a : SReg) : Statement (.sparemap h d a) := by
  intro hw
  have ⟨hh, hf⟩ := hdr_wf rfl hw
  refine decode_class7 (h := h) 0xF1 hh (packR_fRole ..) (packR_fG ..) (packR_fGn ..) (congrArg BitVec.toNat (packR_fOpc ..)) rfl rfl rfl
    ((row_F1 ..).trans ?_)
  simp (disch := omega) only [encode, packR_fD, packR_fA, packR_fB, packR_fC, packR_fFn, packR_bits, packR_bit, fOff16_eq, fAmo_eq, tf, b1, bits_lo, bits_hi, bit_lo, bit_hi]
  simp [req]
theorem eccinj (h : Hdr) (d a b : SReg) (hold : BitVec 3) (dbl : Bool) : Statement (.eccinj h d a b hold dbl) := by
  intro hw
  have ⟨hh, hf⟩ := hdr_wf rfl hw
  refine decode_class7 (h := h) 0xF2 hh (packR_fRole ..) (packR_fG ..) (packR_fGn ..) (congrArg BitVec.toNat (packR_fOpc ..)) rfl rfl rfl
    ((row_F2 ..).trans ?_)
  simp (disch := omega) only [encode, packR_fD, packR_fA, packR_fB, packR_fC, packR_fFn, packR_bits, packR_bit, fOff16_eq, fAmo_eq, tf, b1, bits_lo, bits_hi, bit_lo, bit_hi]
  simpa [req, Instr.fieldsOk] using hf
theorem eccst (h : Hdr) (d a : SReg) (clr : Bool) : Statement (.eccst h d a clr) := by
  intro hw
  have ⟨hh, hf⟩ := hdr_wf rfl hw
  refine decode_class7 (h := h) 0xF3 hh (packR_fRole ..) (packR_fG ..) (packR_fGn ..) (congrArg BitVec.toNat (packR_fOpc ..)) rfl rfl rfl
    ((row_F3 ..).trans ?_)
  simp (disch := omega) only [encode, packR_fD, packR_fA, packR_fB, packR_fC, packR_fFn, packR_bits, packR_bit, fOff16_eq, fAmo_eq, tf, b1, bits_lo, bits_hi, bit_lo, bit_hi]
  simp [req]
theorem handPop (h : Hdr) (frm tgt : BitVec 4) (n : BitVec 4) : Statement (.handPop h frm tgt n) := by
  intro hw
  simp [Instr.wf, Instr.hdr?] at hw
theorem load : Statement (.load) := by
  intro hw
  cases hw
theorem unload : Statement (.unload) := by
  intro hw
  cases hw
theorem hostWrite : Statement (.hostWrite) := by
  intro hw
  cases hw
theorem queueMonitorWake : Statement (.queueMonitorWake) := by
  intro hw
  cases hw
theorem queueRescan : Statement (.queueRescan) := by
  intro hw
  cases hw
theorem takeRecord : Statement (.takeRecord) := by
  intro hw
  cases hw
theorem waitCounterRead : Statement (.waitCounterRead) := by
  intro hw
  cases hw
theorem dispatch : Statement (.dispatch) := by
  intro hw
  cases hw
theorem placeTeam : Statement (.placeTeam) := by
  intro hw
  cases hw
theorem quantumDecision : Statement (.quantumDecision) := by
  intro hw
  cases hw
theorem swapOut : Statement (.swapOut) := by
  intro hw
  cases hw
theorem swapIn : Statement (.swapIn) := by
  intro hw
  cases hw
theorem preempt : Statement (.preempt) := by
  intro hw
  cases hw
theorem teamRetire : Statement (.teamRetire) := by
  intro hw
  cases hw
theorem icFillComplete : Statement (.icFillComplete) := by
  intro hw
  cases hw
theorem blockEntry : Statement (.blockEntry) := by
  intro hw
  cases hw
theorem freezeEnd : Statement (.freezeEnd) := by
  intro hw
  cases hw
theorem freezeTimeout : Statement (.freezeTimeout) := by
  intro hw
  cases hw
theorem hangDetect : Statement (.hangDetect) := by
  intro hw
  cases hw
theorem trapEntry : Statement (.trapEntry) := by
  intro hw
  cases hw
theorem queuedReply : Statement (.queuedReply) := by
  intro hw
  cases hw
theorem queuedTimeout : Statement (.queuedTimeout) := by
  intro hw
  cases hw
theorem engineCommandStart : Statement (.engineCommandStart) := by
  intro hw
  cases hw
theorem engineCommandComplete : Statement (.engineCommandComplete) := by
  intro hw
  cases hw
theorem versionMissComplete : Statement (.versionMissComplete) := by
  intro hw
  cases hw
theorem versionMissTimeout : Statement (.versionMissTimeout) := by
  intro hw
  cases hw
theorem copyCommandStart : Statement (.copyCommandStart) := by
  intro hw
  cases hw
theorem copyCommandComplete : Statement (.copyCommandComplete) := by
  intro hw
  cases hw
theorem copyTimeout : Statement (.copyTimeout) := by
  intro hw
  cases hw
theorem tileStoreCommit : Statement (.tileStoreCommit) := by
  intro hw
  cases hw
theorem freeFrameRelease : Statement (.freeFrameRelease) := by
  intro hw
  cases hw
theorem wakeatExpiry : Statement (.wakeatExpiry) := by
  intro hw
  cases hw
theorem yieldExpiry : Statement (.yieldExpiry) := by
  intro hw
  cases hw
theorem mwaitTimeout : Statement (.mwaitTimeout) := by
  intro hw
  cases hw
theorem hostKillRequest : Statement (.hostKillRequest) := by
  intro hw
  cases hw
theorem hostSyncRequest : Statement (.hostSyncRequest) := by
  intro hw
  cases hw
theorem hostMessagePost : Statement (.hostMessagePost) := by
  intro hw
  cases hw
theorem remoteRequest : Statement (.remoteRequest) := by
  intro hw
  cases hw
theorem collectiveAbortFlit : Statement (.collectiveAbortFlit) := by
  intro hw
  cases hw
theorem collectiveComplete : Statement (.collectiveComplete) := by
  intro hw
  cases hw
theorem powerControlTick : Statement (.powerControlTick) := by
  intro hw
  cases hw
theorem thermalLimit : Statement (.thermalLimit) := by
  intro hw
  cases hw
theorem wdogExpiry : Statement (.wdogExpiry) := by
  intro hw
  cases hw
theorem reset : Statement (.reset) := by
  intro hw
  cases hw
theorem blockingResultArrival : Statement (.blockingResultArrival) := by
  intro hw
  cases hw
theorem collectiveFailure : Statement (.collectiveFailure) := by
  intro hw
  cases hw
theorem spareMapChange : Statement (.spareMapChange) := by
  intro hw
  cases hw
theorem fabricGroupWrite : Statement (.fabricGroupWrite) := by
  intro hw
  cases hw

end Sys2Proof.Laws.RoundTrip
end

