-- ==== Sys2Proof/Laws/Sparse.lean ====
section
/-! SUPPORT. Sparse maps: what reads give after writes, and that every operation keeps the canonical form. -/

namespace Sys2Proof.Machine

variable {α : Type}

/-! ## Reading after writing -/

@[simp] theorem Sparse.get_nil (d : α) (k : Nat) : Sparse.get ([] : Sparse α) d k = d := rfl
theorem Sparse.get_cons (i : Nat) (x : α) (r : Sparse α) (d : α) (k : Nat) :
    Sparse.get ((i, x) :: r) d k = if i = k then x else Sparse.get r d k := rfl

/-- Reading where an entry of a number that the map does not list was put. -/
theorem Sparse.get_insert (m : Sparse α) (d : α) (k : Nat) (v : α) (j : Nat) (h : ∀ e ∈ m, e.1 ≠ k) :
    Sparse.get (Sparse.insert m k v) d j = if j = k then v else Sparse.get m d j := by
  induction m with
  | nil => simp [Sparse.insert, Sparse.get, eq_comm]
  | cons e r ih =>
    obtain ⟨i, x⟩ := e
    have hi : i ≠ k := h (i, x) (by simp)
    have hr := ih (fun e he => h e (by simp [he]))
    unfold Sparse.insert
    split
    · simp [Sparse.get, eq_comm]
    · simp only [Sparse.get, hr]
      by_cases hj : i = j
      · subst hj; simp [hi]
      · simp [hj]

theorem Sparse.get_filter_ne (m : Sparse α) (d : α) (k j : Nat) :
    Sparse.get (m.filter (fun e => e.1 ≠ k)) d j = if j = k then d else Sparse.get m d j := by
  induction m with
  | nil => simp
  | cons e r ih =>
    obtain ⟨i, x⟩ := e
    by_cases h : i = k
    · subst h
      simp only [ne_eq, not_true_eq_false, decide_false, Bool.false_eq_true, not_false_eq_true, List.filter_cons_of_neg, Sparse.get]
      rw [ih]
      by_cases hj : j = i
      · simp [hj]
      · simp [hj, Ne.symm hj]
    · simp only [ne_eq, h, not_false_eq_true, decide_true, List.filter_cons_of_pos, Sparse.get]
      rw [ih]
      by_cases hj : i = j
      · subst hj; simp [h]
      · simp [hj]

/-- A read after a write: the value at its number, and every other as before. -/
theorem Sparse.get_set [DecidableEq α] (m : Sparse α) (d : α) (k : Nat) (v : α) (j : Nat) :
    Sparse.get (Sparse.set m d k v) d j = if j = k then v else Sparse.get m d j := by
  unfold Sparse.set
  by_cases h : v = d
  · simp only [h, if_true]
    rw [Sparse.get_filter_ne]
  · simp only [h, if_false]
    rw [Sparse.get_insert _ _ _ _ _ (by simp), Sparse.get_filter_ne]
    by_cases hj : j = k <;> simp [hj]

@[simp] theorem Sparse.get_set_self [DecidableEq α] (m : Sparse α) (d : α) (k : Nat) (v : α) :
    Sparse.get (Sparse.set m d k v) d k = v := by rw [Sparse.get_set]; simp
theorem Sparse.get_set_ne [DecidableEq α] (m : Sparse α) (d : α) (k : Nat) (v : α) (j : Nat) (h : j ≠ k) :
    Sparse.get (Sparse.set m d k v) d j = Sparse.get m d j := by rw [Sparse.get_set]; simp [h]

theorem Sparse.filter_insert (m : Sparse α) (k : Nat) (v : α) :
    (Sparse.insert m k v).filter (fun e => e.1 ≠ k) = m.filter (fun e => e.1 ≠ k) := by
  induction m with
  | nil => simp [Sparse.insert]
  | cons e r ih =>
    unfold Sparse.insert
    split
    · simp
    · rw [List.filter_cons, List.filter_cons, ih]

/-- A second write at a number replaces the first. -/
theorem Sparse.set_set [DecidableEq α] (m : Sparse α) (d : α) (k : Nat) (v w : α) :
    Sparse.set (Sparse.set m d k v) d k w = Sparse.set m d k w := by
  have e : (Sparse.set m d k v).filter (fun e => e.1 ≠ k) = m.filter (fun e => e.1 ≠ k) := by
    unfold Sparse.set
    split
    · simp
    · rw [Sparse.filter_insert]; simp
  generalize Sparse.set m d k v = n at e
  simp only [Sparse.set, e]

/-! ## The canonical form -/

/-- The canonical form, as a statement about the list. -/
theorem Sparse.wf_iff [DecidableEq α] (m : Sparse α) (d : α) :
    Sparse.wf m d = true ↔ (m.Pairwise (fun a b => a.1 < b.1) ∧ ∀ e ∈ m, e.2 ≠ d) := by
  induction m with
  | nil => simp [Sparse.wf]
  | cons e r ih =>
    obtain ⟨i, x⟩ := e
    cases r with
    | nil => simp [Sparse.wf]
    | cons f q =>
      obtain ⟨j, y⟩ := f
      have e1 : Sparse.wf ((i, x) :: (j, y) :: q) d = ((x ≠ d) && decide (i < j) && Sparse.wf ((j, y) :: q) d) := rfl
      rw [e1, Bool.and_eq_true, ih]
      simp only [Bool.and_eq_true, decide_eq_true_eq, List.pairwise_cons, List.mem_cons, forall_eq_or_imp]
      constructor
      · rintro ⟨⟨hx, hij⟩, ⟨⟨hq, hp⟩, hy, hn⟩⟩
        exact ⟨⟨⟨hij, fun a ha => Nat.lt_trans hij (hq a ha)⟩, hq, hp⟩, hx, hy, hn⟩
      · rintro ⟨⟨⟨hij, _⟩, hq, hp⟩, hx, hy, hn⟩
        exact ⟨⟨hx, hij⟩, ⟨hq, hp⟩, hy, hn⟩

theorem Sparse.wf_filter [DecidableEq α] {m : Sparse α} {d : α} (p : Nat × α → Bool) (h : Sparse.wf m d = true) :
    Sparse.wf (m.filter p) d = true := by
  rw [Sparse.wf_iff] at h ⊢
  exact ⟨h.1.filter p, fun e he => h.2 e ((List.mem_filter.1 he).1)⟩

theorem Sparse.mem_insert {m : Sparse α} {k : Nat} {v : α} {e : Nat × α} (h : e ∈ Sparse.insert m k v) : e = (k, v) ∨ e ∈ m := by
  induction m with
  | nil => simpa [Sparse.insert] using h
  | cons f r ih =>
    obtain ⟨i, x⟩ := f
    unfold Sparse.insert at h
    split at h
    · simpa using h
    · rcases List.mem_cons.1 h with h | h
      · simp [h]
      · rcases ih h with h | h <;> simp [h]

theorem Sparse.wf_insert [DecidableEq α] {m : Sparse α} {d : α} {k : Nat} {v : α} (h : Sparse.wf m d = true) (hv : v ≠ d)
    (hk : ∀ e ∈ m, e.1 ≠ k) : Sparse.wf (Sparse.insert m k v) d = true := by
  rw [Sparse.wf_iff] at h ⊢
  refine ⟨?_, fun e he => ?_⟩
  · induction m with
    | nil => simp [Sparse.insert]
    | cons f r ih =>
      obtain ⟨i, x⟩ := f
      obtain ⟨hp, hn⟩ := h
      rw [List.pairwise_cons] at hp
      unfold Sparse.insert
      split
      · rename_i hlt
        rw [List.pairwise_cons]
        refine ⟨fun e he => ?_, by rw [List.pairwise_cons]; exact hp⟩
        rcases List.mem_cons.1 he with he | he
        · simp [he, hlt]
        · exact Nat.lt_trans hlt (hp.1 e he)
      · rename_i hge
        have hik : i ≠ k := hk (i, x) (by simp)
        rw [List.pairwise_cons]
        refine ⟨fun e he => ?_, ih ⟨hp.2, fun e he => hn e (by simp [he])⟩ (fun e he => hk e (by simp [he]))⟩
        rcases Sparse.mem_insert he with he | he
        · simp [he]; omega
        · exact hp.1 e he
  · rcases Sparse.mem_insert he with he | he
    · simp [he, hv]
    · exact h.2 e he

/-- Writing keeps the canonical form. -/
theorem Sparse.wf_set [DecidableEq α] {m : Sparse α} {d : α} (k : Nat) (v : α) (h : Sparse.wf m d = true) :
    Sparse.wf (Sparse.set m d k v) d = true := by
  unfold Sparse.set
  by_cases hv : v = d
  · simp only [hv, if_true]; exact Sparse.wf_filter _ h
  · simp only [hv, if_false]; exact Sparse.wf_insert (Sparse.wf_filter _ h) hv (by simp)

theorem Sparse.run_keys [DecidableEq α] (d : α) (vs : List α) (base : Nat) :
    (Sparse.run d base vs).Pairwise (fun a b => a.1 < b.1) ∧
      ∀ e ∈ Sparse.run d base vs, e.2 ≠ d ∧ base ≤ e.1 ∧ e.1 < base + vs.length := by
  induction vs generalizing base with
  | nil => simp [Sparse.run]
  | cons v r ih =>
    obtain ⟨h1, h2⟩ := ih (base + 1)
    unfold Sparse.run
    split
    · refine ⟨h1, fun e he => ?_⟩
      obtain ⟨a, b, c⟩ := h2 e he
      exact ⟨a, by omega, by simp only [List.length_cons]; omega⟩
    · rename_i hv
      refine ⟨List.pairwise_cons.2 ⟨fun e he => ?_, h1⟩, fun e he => ?_⟩
      · have := (h2 e he).2.1
        simp only
        omega
      · rcases List.mem_cons.1 he with he | he
        · simp [he, hv]
        · obtain ⟨a, b, c⟩ := h2 e he
          exact ⟨a, by omega, by simp only [List.length_cons]; omega⟩

/-- Writing a run of values keeps the canonical form. -/
theorem Sparse.wf_setRun [DecidableEq α] {m : Sparse α} {d : α} (base : Nat) (vs : List α) (h : Sparse.wf m d = true) :
    Sparse.wf (Sparse.setRun m d base vs) d = true := by
  rw [Sparse.wf_iff] at h ⊢
  obtain ⟨hp, hn⟩ := h
  obtain ⟨h1, h2⟩ := Sparse.run_keys d vs base
  unfold Sparse.setRun
  refine ⟨?_, fun e he => ?_⟩
  · rw [List.pairwise_append, List.pairwise_append]
    refine ⟨⟨hp.filter _, h1, fun a ha b hb => ?_⟩, hp.filter _, fun a ha b hb => ?_⟩
    · have := (List.mem_filter.1 ha).2
      have := (h2 b hb).2.1
      simp only [decide_eq_true_eq] at *
      omega
    · have hb' := (List.mem_filter.1 hb).2
      simp only [decide_eq_true_eq] at hb'
      rcases List.mem_append.1 ha with ha | ha
      · have := (List.mem_filter.1 ha).2
        simp only [decide_eq_true_eq] at this
        omega
      · have := (h2 a ha).2.2
        omega
  · rcases List.mem_append.1 he with he | he
    · rcases List.mem_append.1 he with he | he
      · exact hn e ((List.mem_filter.1 he).1)
      · exact (h2 e he).1
    · exact hn e ((List.mem_filter.1 he).1)

/-- So does writing values at a step. -/
theorem Sparse.wf_setStep [DecidableEq α] {m : Sparse α} {d : α} (base step : Nat) (vs : List α) (h : Sparse.wf m d = true) :
    Sparse.wf (Sparse.setStep m d base step vs) d = true := by
  induction vs generalizing m base with
  | nil => exact h
  | cons v r ih => exact ih (base + step) (Sparse.wf_set base v h)

end Sys2Proof.Machine
end

