-- ==== Sys2Proof/Laws/State.lean ====
section
/-! SUPPORT. One lemma for each field of the state under each of its updates, and what the accessors read after them. -/

namespace Sys2Proof.Machine

/-! ## Fields -/

@[simp] theorem State.setMs_cycle (s : State) (m : MemSys) : (s.setMs m).cycle = s.cycle := rfl
@[simp] theorem State.setMs_clock (s : State) (m : MemSys) : (s.setMs m).clock = s.clock := rfl
@[simp] theorem State.setMs_cur (s : State) (m : MemSys) : (s.setMs m).cur = s.cur := rfl
@[simp] theorem State.setMs_agenda (s : State) (m : MemSys) : (s.setMs m).agenda = s.agenda := rfl
@[simp] theorem State.setMs_ev (s : State) (m : MemSys) : (s.setMs m).ev = s.ev := rfl
@[simp] theorem State.setMs_late (s : State) (m : MemSys) : (s.setMs m).late = s.late := rfl
@[simp] theorem State.setMs_nextId (s : State) (m : MemSys) : (s.setMs m).nextId = s.nextId := rfl
@[simp] theorem State.setMs_draw (s : State) (m : MemSys) : (s.setMs m).draw = s.draw := rfl
@[simp] theorem State.setMs_strands (s : State) (m : MemSys) : (s.setMs m).strands = s.strands := rfl
@[simp] theorem State.setMs_cores (s : State) (m : MemSys) : (s.setMs m).cores = s.cores := rfl
@[simp] theorem State.setMs_teams (s : State) (m : MemSys) : (s.setMs m).teams = s.teams := rfl
@[simp] theorem State.setMs_launches (s : State) (m : MemSys) : (s.setMs m).launches = s.launches := rfl
@[simp] theorem State.setMs_lastQueue (s : State) (m : MemSys) : (s.setMs m).lastQueue = s.lastQueue := rfl
@[simp] theorem State.setMs_objects (s : State) (m : MemSys) : (s.setMs m).objects = s.objects := rfl
@[simp] theorem State.setMs_ms (s : State) (m : MemSys) : (s.setMs m).ms = m := rfl
@[simp] theorem State.setMs_sys (s : State) (m : MemSys) : (s.setMs m).sys = s.sys := rfl
@[simp] theorem State.setMs_pkg (s : State) (m : MemSys) : (s.setMs m).pkg = s.pkg := rfl

@[simp] theorem State.setBad_cycle (s : State) (pa : Nat) : (s.setBad pa).cycle = s.cycle := rfl
@[simp] theorem State.setBad_clock (s : State) (pa : Nat) : (s.setBad pa).clock = s.clock := rfl
@[simp] theorem State.setBad_cur (s : State) (pa : Nat) : (s.setBad pa).cur = s.cur := rfl
@[simp] theorem State.setBad_agenda (s : State) (pa : Nat) : (s.setBad pa).agenda = s.agenda := rfl
@[simp] theorem State.setBad_ev (s : State) (pa : Nat) : (s.setBad pa).ev = s.ev := rfl
@[simp] theorem State.setBad_late (s : State) (pa : Nat) : (s.setBad pa).late = s.late := rfl
@[simp] theorem State.setBad_nextId (s : State) (pa : Nat) : (s.setBad pa).nextId = s.nextId := rfl
@[simp] theorem State.setBad_draw (s : State) (pa : Nat) : (s.setBad pa).draw = s.draw := rfl
@[simp] theorem State.setBad_strands (s : State) (pa : Nat) : (s.setBad pa).strands = s.strands := rfl
@[simp] theorem State.setBad_cores (s : State) (pa : Nat) : (s.setBad pa).cores = s.cores := rfl
@[simp] theorem State.setBad_teams (s : State) (pa : Nat) : (s.setBad pa).teams = s.teams := rfl
@[simp] theorem State.setBad_launches (s : State) (pa : Nat) : (s.setBad pa).launches = s.launches := rfl
@[simp] theorem State.setBad_lastQueue (s : State) (pa : Nat) : (s.setBad pa).lastQueue = s.lastQueue := rfl
@[simp] theorem State.setBad_objects (s : State) (pa : Nat) : (s.setBad pa).objects = s.objects := rfl
@[simp] theorem State.setBad_ms (s : State) (pa : Nat) : (s.setBad pa).ms = { s.ms with bad := some pa } := rfl
@[simp] theorem State.setBad_sys (s : State) (pa : Nat) : (s.setBad pa).sys = s.sys := rfl
@[simp] theorem State.setBad_pkg (s : State) (pa : Nat) : (s.setBad pa).pkg = s.pkg := rfl

@[simp] theorem State.setStrand_cycle (s : State) (i : Nat) (x : Strand) : (s.setStrand i x).cycle = s.cycle := rfl
@[simp] theorem State.setStrand_clock (s : State) (i : Nat) (x : Strand) : (s.setStrand i x).clock = s.clock := rfl
@[simp] theorem State.setStrand_cur (s : State) (i : Nat) (x : Strand) : (s.setStrand i x).cur = s.cur := rfl
@[simp] theorem State.setStrand_agenda (s : State) (i : Nat) (x : Strand) : (s.setStrand i x).agenda = s.agenda := rfl
@[simp] theorem State.setStrand_ev (s : State) (i : Nat) (x : Strand) : (s.setStrand i x).ev = s.ev := rfl
@[simp] theorem State.setStrand_late (s : State) (i : Nat) (x : Strand) : (s.setStrand i x).late = s.late := rfl
@[simp] theorem State.setStrand_nextId (s : State) (i : Nat) (x : Strand) : (s.setStrand i x).nextId = s.nextId := rfl
@[simp] theorem State.setStrand_draw (s : State) (i : Nat) (x : Strand) : (s.setStrand i x).draw = s.draw := rfl
@[simp] theorem State.setStrand_strands (s : State) (i : Nat) (x : Strand) : (s.setStrand i x).strands = Sparse.set s.strands {} i x := rfl
@[simp] theorem State.setStrand_cores (s : State) (i : Nat) (x : Strand) : (s.setStrand i x).cores = s.cores := rfl
@[simp] theorem State.setStrand_teams (s : State) (i : Nat) (x : Strand) : (s.setStrand i x).teams = s.teams := rfl
@[simp] theorem State.setStrand_launches (s : State) (i : Nat) (x : Strand) : (s.setStrand i x).launches = s.launches := rfl
@[simp] theorem State.setStrand_lastQueue (s : State) (i : Nat) (x : Strand) : (s.setStrand i x).lastQueue = s.lastQueue := rfl
@[simp] theorem State.setStrand_objects (s : State) (i : Nat) (x : Strand) : (s.setStrand i x).objects = s.objects := rfl
@[simp] theorem State.setStrand_ms (s : State) (i : Nat) (x : Strand) : (s.setStrand i x).ms = s.ms := rfl
@[simp] theorem State.setStrand_sys (s : State) (i : Nat) (x : Strand) : (s.setStrand i x).sys = s.sys := rfl
@[simp] theorem State.setStrand_pkg (s : State) (i : Nat) (x : Strand) : (s.setStrand i x).pkg = s.pkg := rfl

@[simp] theorem State.setCore_cycle (s : State) (i : Nat) (x : Core) : (s.setCore i x).cycle = s.cycle := rfl
@[simp] theorem State.setCore_clock (s : State) (i : Nat) (x : Core) : (s.setCore i x).clock = s.clock := rfl
@[simp] theorem State.setCore_cur (s : State) (i : Nat) (x : Core) : (s.setCore i x).cur = s.cur := rfl
@[simp] theorem State.setCore_agenda (s : State) (i : Nat) (x : Core) : (s.setCore i x).agenda = s.agenda := rfl
@[simp] theorem State.setCore_ev (s : State) (i : Nat) (x : Core) : (s.setCore i x).ev = s.ev := rfl
@[simp] theorem State.setCore_late (s : State) (i : Nat) (x : Core) : (s.setCore i x).late = s.late := rfl
@[simp] theorem State.setCore_nextId (s : State) (i : Nat) (x : Core) : (s.setCore i x).nextId = s.nextId := rfl
@[simp] theorem State.setCore_draw (s : State) (i : Nat) (x : Core) : (s.setCore i x).draw = s.draw := rfl
@[simp] theorem State.setCore_strands (s : State) (i : Nat) (x : Core) : (s.setCore i x).strands = s.strands := rfl
@[simp] theorem State.setCore_cores (s : State) (i : Nat) (x : Core) : (s.setCore i x).cores = Sparse.set s.cores {} i x := rfl
@[simp] theorem State.setCore_teams (s : State) (i : Nat) (x : Core) : (s.setCore i x).teams = s.teams := rfl
@[simp] theorem State.setCore_launches (s : State) (i : Nat) (x : Core) : (s.setCore i x).launches = s.launches := rfl
@[simp] theorem State.setCore_lastQueue (s : State) (i : Nat) (x : Core) : (s.setCore i x).lastQueue = s.lastQueue := rfl
@[simp] theorem State.setCore_objects (s : State) (i : Nat) (x : Core) : (s.setCore i x).objects = s.objects := rfl
@[simp] theorem State.setCore_ms (s : State) (i : Nat) (x : Core) : (s.setCore i x).ms = s.ms := rfl
@[simp] theorem State.setCore_sys (s : State) (i : Nat) (x : Core) : (s.setCore i x).sys = s.sys := rfl
@[simp] theorem State.setCore_pkg (s : State) (i : Nat) (x : Core) : (s.setCore i x).pkg = s.pkg := rfl

@[simp] theorem State.setTeam_cycle (s : State) (i : Nat) (x : Option Team) : (s.setTeam i x).cycle = s.cycle := rfl
@[simp] theorem State.setTeam_clock (s : State) (i : Nat) (x : Option Team) : (s.setTeam i x).clock = s.clock := rfl
@[simp] theorem State.setTeam_cur (s : State) (i : Nat) (x : Option Team) : (s.setTeam i x).cur = s.cur := rfl
@[simp] theorem State.setTeam_agenda (s : State) (i : Nat) (x : Option Team) : (s.setTeam i x).agenda = s.agenda := rfl
@[simp] theorem State.setTeam_ev (s : State) (i : Nat) (x : Option Team) : (s.setTeam i x).ev = s.ev := rfl
@[simp] theorem State.setTeam_late (s : State) (i : Nat) (x : Option Team) : (s.setTeam i x).late = s.late := rfl
@[simp] theorem State.setTeam_nextId (s : State) (i : Nat) (x : Option Team) : (s.setTeam i x).nextId = s.nextId := rfl
@[simp] theorem State.setTeam_draw (s : State) (i : Nat) (x : Option Team) : (s.setTeam i x).draw = s.draw := rfl
@[simp] theorem State.setTeam_strands (s : State) (i : Nat) (x : Option Team) : (s.setTeam i x).strands = s.strands := rfl
@[simp] theorem State.setTeam_cores (s : State) (i : Nat) (x : Option Team) : (s.setTeam i x).cores = s.cores := rfl
@[simp] theorem State.setTeam_teams (s : State) (i : Nat) (x : Option Team) : (s.setTeam i x).teams = Sparse.set s.teams none i x := rfl
@[simp] theorem State.setTeam_launches (s : State) (i : Nat) (x : Option Team) : (s.setTeam i x).launches = s.launches := rfl
@[simp] theorem State.setTeam_lastQueue (s : State) (i : Nat) (x : Option Team) : (s.setTeam i x).lastQueue = s.lastQueue := rfl
@[simp] theorem State.setTeam_objects (s : State) (i : Nat) (x : Option Team) : (s.setTeam i x).objects = s.objects := rfl
@[simp] theorem State.setTeam_ms (s : State) (i : Nat) (x : Option Team) : (s.setTeam i x).ms = s.ms := rfl
@[simp] theorem State.setTeam_sys (s : State) (i : Nat) (x : Option Team) : (s.setTeam i x).sys = s.sys := rfl
@[simp] theorem State.setTeam_pkg (s : State) (i : Nat) (x : Option Team) : (s.setTeam i x).pkg = s.pkg := rfl

@[simp] theorem State.setLaunch_cycle (s : State) (i : Nat) (x : Option Launch) : (s.setLaunch i x).cycle = s.cycle := rfl
@[simp] theorem State.setLaunch_clock (s : State) (i : Nat) (x : Option Launch) : (s.setLaunch i x).clock = s.clock := rfl
@[simp] theorem State.setLaunch_cur (s : State) (i : Nat) (x : Option Launch) : (s.setLaunch i x).cur = s.cur := rfl
@[simp] theorem State.setLaunch_agenda (s : State) (i : Nat) (x : Option Launch) : (s.setLaunch i x).agenda = s.agenda := rfl
@[simp] theorem State.setLaunch_ev (s : State) (i : Nat) (x : Option Launch) : (s.setLaunch i x).ev = s.ev := rfl
@[simp] theorem State.setLaunch_late (s : State) (i : Nat) (x : Option Launch) : (s.setLaunch i x).late = s.late := rfl
@[simp] theorem State.setLaunch_nextId (s : State) (i : Nat) (x : Option Launch) : (s.setLaunch i x).nextId = s.nextId := rfl
@[simp] theorem State.setLaunch_draw (s : State) (i : Nat) (x : Option Launch) : (s.setLaunch i x).draw = s.draw := rfl
@[simp] theorem State.setLaunch_strands (s : State) (i : Nat) (x : Option Launch) : (s.setLaunch i x).strands = s.strands := rfl
@[simp] theorem State.setLaunch_cores (s : State) (i : Nat) (x : Option Launch) : (s.setLaunch i x).cores = s.cores := rfl
@[simp] theorem State.setLaunch_teams (s : State) (i : Nat) (x : Option Launch) : (s.setLaunch i x).teams = s.teams := rfl
@[simp] theorem State.setLaunch_launches (s : State) (i : Nat) (x : Option Launch) : (s.setLaunch i x).launches = Sparse.set s.launches none i x := rfl
@[simp] theorem State.setLaunch_lastQueue (s : State) (i : Nat) (x : Option Launch) : (s.setLaunch i x).lastQueue = s.lastQueue := rfl
@[simp] theorem State.setLaunch_objects (s : State) (i : Nat) (x : Option Launch) : (s.setLaunch i x).objects = s.objects := rfl
@[simp] theorem State.setLaunch_ms (s : State) (i : Nat) (x : Option Launch) : (s.setLaunch i x).ms = s.ms := rfl
@[simp] theorem State.setLaunch_sys (s : State) (i : Nat) (x : Option Launch) : (s.setLaunch i x).sys = s.sys := rfl
@[simp] theorem State.setLaunch_pkg (s : State) (i : Nat) (x : Option Launch) : (s.setLaunch i x).pkg = s.pkg := rfl

@[simp] theorem State.modStrand_cycle (s : State) (i : Nat) (f : Strand → Strand) : (s.modStrand i f).cycle = s.cycle := rfl
@[simp] theorem State.modStrand_clock (s : State) (i : Nat) (f : Strand → Strand) : (s.modStrand i f).clock = s.clock := rfl
@[simp] theorem State.modStrand_cur (s : State) (i : Nat) (f : Strand → Strand) : (s.modStrand i f).cur = s.cur := rfl
@[simp] theorem State.modStrand_agenda (s : State) (i : Nat) (f : Strand → Strand) : (s.modStrand i f).agenda = s.agenda := rfl
@[simp] theorem State.modStrand_ev (s : State) (i : Nat) (f : Strand → Strand) : (s.modStrand i f).ev = s.ev := rfl
@[simp] theorem State.modStrand_late (s : State) (i : Nat) (f : Strand → Strand) : (s.modStrand i f).late = s.late := rfl
@[simp] theorem State.modStrand_nextId (s : State) (i : Nat) (f : Strand → Strand) : (s.modStrand i f).nextId = s.nextId := rfl
@[simp] theorem State.modStrand_draw (s : State) (i : Nat) (f : Strand → Strand) : (s.modStrand i f).draw = s.draw := rfl
@[simp] theorem State.modStrand_strands (s : State) (i : Nat) (f : Strand → Strand) : (s.modStrand i f).strands = Sparse.set s.strands {} i (f (s.strand i)) := rfl
@[simp] theorem State.modStrand_cores (s : State) (i : Nat) (f : Strand → Strand) : (s.modStrand i f).cores = s.cores := rfl
@[simp] theorem State.modStrand_teams (s : State) (i : Nat) (f : Strand → Strand) : (s.modStrand i f).teams = s.teams := rfl
@[simp] theorem State.modStrand_launches (s : State) (i : Nat) (f : Strand → Strand) : (s.modStrand i f).launches = s.launches := rfl
@[simp] theorem State.modStrand_lastQueue (s : State) (i : Nat) (f : Strand → Strand) : (s.modStrand i f).lastQueue = s.lastQueue := rfl
@[simp] theorem State.modStrand_objects (s : State) (i : Nat) (f : Strand → Strand) : (s.modStrand i f).objects = s.objects := rfl
@[simp] theorem State.modStrand_ms (s : State) (i : Nat) (f : Strand → Strand) : (s.modStrand i f).ms = s.ms := rfl
@[simp] theorem State.modStrand_sys (s : State) (i : Nat) (f : Strand → Strand) : (s.modStrand i f).sys = s.sys := rfl
@[simp] theorem State.modStrand_pkg (s : State) (i : Nat) (f : Strand → Strand) : (s.modStrand i f).pkg = s.pkg := rfl

@[simp] theorem State.modSt_cycle (s : State) (f : Strand → Strand) : (s.modSt f).cycle = s.cycle := rfl
@[simp] theorem State.modSt_clock (s : State) (f : Strand → Strand) : (s.modSt f).clock = s.clock := rfl
@[simp] theorem State.modSt_cur (s : State) (f : Strand → Strand) : (s.modSt f).cur = s.cur := rfl
@[simp] theorem State.modSt_agenda (s : State) (f : Strand → Strand) : (s.modSt f).agenda = s.agenda := rfl
@[simp] theorem State.modSt_ev (s : State) (f : Strand → Strand) : (s.modSt f).ev = s.ev := rfl
@[simp] theorem State.modSt_late (s : State) (f : Strand → Strand) : (s.modSt f).late = s.late := rfl
@[simp] theorem State.modSt_nextId (s : State) (f : Strand → Strand) : (s.modSt f).nextId = s.nextId := rfl
@[simp] theorem State.modSt_draw (s : State) (f : Strand → Strand) : (s.modSt f).draw = s.draw := rfl
@[simp] theorem State.modSt_strands (s : State) (f : Strand → Strand) : (s.modSt f).strands = Sparse.set s.strands {} s.cur (f s.st) := rfl
@[simp] theorem State.modSt_cores (s : State) (f : Strand → Strand) : (s.modSt f).cores = s.cores := rfl
@[simp] theorem State.modSt_teams (s : State) (f : Strand → Strand) : (s.modSt f).teams = s.teams := rfl
@[simp] theorem State.modSt_launches (s : State) (f : Strand → Strand) : (s.modSt f).launches = s.launches := rfl
@[simp] theorem State.modSt_lastQueue (s : State) (f : Strand → Strand) : (s.modSt f).lastQueue = s.lastQueue := rfl
@[simp] theorem State.modSt_objects (s : State) (f : Strand → Strand) : (s.modSt f).objects = s.objects := rfl
@[simp] theorem State.modSt_ms (s : State) (f : Strand → Strand) : (s.modSt f).ms = s.ms := rfl
@[simp] theorem State.modSt_sys (s : State) (f : Strand → Strand) : (s.modSt f).sys = s.sys := rfl
@[simp] theorem State.modSt_pkg (s : State) (f : Strand → Strand) : (s.modSt f).pkg = s.pkg := rfl

@[simp] theorem State.modCore_cycle (s : State) (i : Nat) (f : Core → Core) : (s.modCore i f).cycle = s.cycle := rfl
@[simp] theorem State.modCore_clock (s : State) (i : Nat) (f : Core → Core) : (s.modCore i f).clock = s.clock := rfl
@[simp] theorem State.modCore_cur (s : State) (i : Nat) (f : Core → Core) : (s.modCore i f).cur = s.cur := rfl
@[simp] theorem State.modCore_agenda (s : State) (i : Nat) (f : Core → Core) : (s.modCore i f).agenda = s.agenda := rfl
@[simp] theorem State.modCore_ev (s : State) (i : Nat) (f : Core → Core) : (s.modCore i f).ev = s.ev := rfl
@[simp] theorem State.modCore_late (s : State) (i : Nat) (f : Core → Core) : (s.modCore i f).late = s.late := rfl
@[simp] theorem State.modCore_nextId (s : State) (i : Nat) (f : Core → Core) : (s.modCore i f).nextId = s.nextId := rfl
@[simp] theorem State.modCore_draw (s : State) (i : Nat) (f : Core → Core) : (s.modCore i f).draw = s.draw := rfl
@[simp] theorem State.modCore_strands (s : State) (i : Nat) (f : Core → Core) : (s.modCore i f).strands = s.strands := rfl
@[simp] theorem State.modCore_cores (s : State) (i : Nat) (f : Core → Core) : (s.modCore i f).cores = Sparse.set s.cores {} i (f (s.core i)) := rfl
@[simp] theorem State.modCore_teams (s : State) (i : Nat) (f : Core → Core) : (s.modCore i f).teams = s.teams := rfl
@[simp] theorem State.modCore_launches (s : State) (i : Nat) (f : Core → Core) : (s.modCore i f).launches = s.launches := rfl
@[simp] theorem State.modCore_lastQueue (s : State) (i : Nat) (f : Core → Core) : (s.modCore i f).lastQueue = s.lastQueue := rfl
@[simp] theorem State.modCore_objects (s : State) (i : Nat) (f : Core → Core) : (s.modCore i f).objects = s.objects := rfl
@[simp] theorem State.modCore_ms (s : State) (i : Nat) (f : Core → Core) : (s.modCore i f).ms = s.ms := rfl
@[simp] theorem State.modCore_sys (s : State) (i : Nat) (f : Core → Core) : (s.modCore i f).sys = s.sys := rfl
@[simp] theorem State.modCore_pkg (s : State) (i : Nat) (f : Core → Core) : (s.modCore i f).pkg = s.pkg := rfl

@[simp] theorem State.setWdog_cycle (s : State) (w : Wdog) : (s.setWdog w).cycle = s.cycle := rfl
@[simp] theorem State.setWdog_clock (s : State) (w : Wdog) : (s.setWdog w).clock = s.clock := rfl
@[simp] theorem State.setWdog_cur (s : State) (w : Wdog) : (s.setWdog w).cur = s.cur := rfl
@[simp] theorem State.setWdog_agenda (s : State) (w : Wdog) : (s.setWdog w).agenda = s.agenda := rfl
@[simp] theorem State.setWdog_ev (s : State) (w : Wdog) : (s.setWdog w).ev = s.ev := rfl
@[simp] theorem State.setWdog_late (s : State) (w : Wdog) : (s.setWdog w).late = s.late := rfl
@[simp] theorem State.setWdog_nextId (s : State) (w : Wdog) : (s.setWdog w).nextId = s.nextId := rfl
@[simp] theorem State.setWdog_draw (s : State) (w : Wdog) : (s.setWdog w).draw = s.draw := rfl
@[simp] theorem State.setWdog_strands (s : State) (w : Wdog) : (s.setWdog w).strands = s.strands := rfl
@[simp] theorem State.setWdog_cores (s : State) (w : Wdog) : (s.setWdog w).cores = s.cores := rfl
@[simp] theorem State.setWdog_teams (s : State) (w : Wdog) : (s.setWdog w).teams = s.teams := rfl
@[simp] theorem State.setWdog_launches (s : State) (w : Wdog) : (s.setWdog w).launches = s.launches := rfl
@[simp] theorem State.setWdog_lastQueue (s : State) (w : Wdog) : (s.setWdog w).lastQueue = s.lastQueue := rfl
@[simp] theorem State.setWdog_objects (s : State) (w : Wdog) : (s.setWdog w).objects = s.objects := rfl
@[simp] theorem State.setWdog_ms (s : State) (w : Wdog) : (s.setWdog w).ms = s.ms := rfl
@[simp] theorem State.setWdog_sys (s : State) (w : Wdog) : (s.setWdog w).sys = s.sys := rfl
@[simp] theorem State.setWdog_pkg (s : State) (w : Wdog) : (s.setWdog w).pkg = { s.pkg with wdog := w } := rfl

@[simp] theorem State.setChain_cycle (s : State) (i v : Nat) : (s.setChain i v).cycle = s.cycle := rfl
@[simp] theorem State.setChain_clock (s : State) (i v : Nat) : (s.setChain i v).clock = s.clock := rfl
@[simp] theorem State.setChain_cur (s : State) (i v : Nat) : (s.setChain i v).cur = s.cur := rfl
@[simp] theorem State.setChain_agenda (s : State) (i v : Nat) : (s.setChain i v).agenda = s.agenda := rfl
@[simp] theorem State.setChain_ev (s : State) (i v : Nat) : (s.setChain i v).ev = s.ev := rfl
@[simp] theorem State.setChain_late (s : State) (i v : Nat) : (s.setChain i v).late = s.late := rfl
@[simp] theorem State.setChain_nextId (s : State) (i v : Nat) : (s.setChain i v).nextId = s.nextId := rfl
@[simp] theorem State.setChain_draw (s : State) (i v : Nat) : (s.setChain i v).draw = s.draw := rfl
@[simp] theorem State.setChain_strands (s : State) (i v : Nat) : (s.setChain i v).strands = s.strands := rfl
@[simp] theorem State.setChain_cores (s : State) (i v : Nat) : (s.setChain i v).cores = s.cores := rfl
@[simp] theorem State.setChain_teams (s : State) (i v : Nat) : (s.setChain i v).teams = s.teams := rfl
@[simp] theorem State.setChain_launches (s : State) (i v : Nat) : (s.setChain i v).launches = s.launches := rfl
@[simp] theorem State.setChain_lastQueue (s : State) (i v : Nat) : (s.setChain i v).lastQueue = s.lastQueue := rfl
@[simp] theorem State.setChain_objects (s : State) (i v : Nat) : (s.setChain i v).objects = s.objects := rfl
@[simp] theorem State.setChain_ms (s : State) (i v : Nat) : (s.setChain i v).ms = s.ms := rfl
@[simp] theorem State.setChain_sys (s : State) (i v : Nat) : (s.setChain i v).sys = s.sys := rfl
@[simp] theorem State.setChain_pkg (s : State) (i v : Nat) : (s.setChain i v).pkg = { s.pkg with chains := Sparse.set s.pkg.chains 0 i v } := rfl

/-! ## Accessors -/

@[simp] theorem State.setStrand_strand (s : State) (i : Nat) (x : Strand) (j : Nat) :
    (s.setStrand i x).strand j = if j = i then x else s.strand j := Sparse.get_set ..
@[simp] theorem State.setCore_core (s : State) (i : Nat) (x : Core) (j : Nat) :
    (s.setCore i x).core j = if j = i then x else s.core j := Sparse.get_set ..
@[simp] theorem State.setTeam_team (s : State) (i : Nat) (x : Option Team) (j : Nat) :
    (s.setTeam i x).team j = if j = i then x else s.team j := Sparse.get_set ..
@[simp] theorem State.setLaunch_launch (s : State) (i : Nat) (x : Option Launch) (j : Nat) :
    (s.setLaunch i x).launch j = if j = i then x else s.launch j := Sparse.get_set ..
@[simp] theorem State.setMs_strand (s : State) (m : MemSys) (k : Nat) : (s.setMs m).strand k = s.strand k := rfl
@[simp] theorem State.setMs_core (s : State) (m : MemSys) (k : Nat) : (s.setMs m).core k = s.core k := rfl
@[simp] theorem State.setMs_team (s : State) (m : MemSys) (k : Nat) : (s.setMs m).team k = s.team k := rfl
@[simp] theorem State.setMs_launch (s : State) (m : MemSys) (k : Nat) : (s.setMs m).launch k = s.launch k := rfl
@[simp] theorem State.setBad_strand (s : State) (pa : Nat) (k : Nat) : (s.setBad pa).strand k = s.strand k := rfl
@[simp] theorem State.setBad_core (s : State) (pa : Nat) (k : Nat) : (s.setBad pa).core k = s.core k := rfl
@[simp] theorem State.setBad_team (s : State) (pa : Nat) (k : Nat) : (s.setBad pa).team k = s.team k := rfl
@[simp] theorem State.setBad_launch (s : State) (pa : Nat) (k : Nat) : (s.setBad pa).launch k = s.launch k := rfl
@[simp] theorem State.setStrand_core (s : State) (i : Nat) (x : Strand) (k : Nat) : (s.setStrand i x).core k = s.core k := rfl
@[simp] theorem State.setStrand_team (s : State) (i : Nat) (x : Strand) (k : Nat) : (s.setStrand i x).team k = s.team k := rfl
@[simp] theorem State.setStrand_launch (s : State) (i : Nat) (x : Strand) (k : Nat) : (s.setStrand i x).launch k = s.launch k := rfl
@[simp] theorem State.setCore_strand (s : State) (i : Nat) (x : Core) (k : Nat) : (s.setCore i x).strand k = s.strand k := rfl
@[simp] theorem State.setCore_team (s : State) (i : Nat) (x : Core) (k : Nat) : (s.setCore i x).team k = s.team k := rfl
@[simp] theorem State.setCore_launch (s : State) (i : Nat) (x : Core) (k : Nat) : (s.setCore i x).launch k = s.launch k := rfl
@[simp] theorem State.setTeam_strand (s : State) (i : Nat) (x : Option Team) (k : Nat) : (s.setTeam i x).strand k = s.strand k := rfl
@[simp] theorem State.setTeam_core (s : State) (i : Nat) (x : Option Team) (k : Nat) : (s.setTeam i x).core k = s.core k := rfl
@[simp] theorem State.setTeam_launch (s : State) (i : Nat) (x : Option Team) (k : Nat) : (s.setTeam i x).launch k = s.launch k := rfl
@[simp] theorem State.setLaunch_strand (s : State) (i : Nat) (x : Option Launch) (k : Nat) : (s.setLaunch i x).strand k = s.strand k := rfl
@[simp] theorem State.setLaunch_core (s : State) (i : Nat) (x : Option Launch) (k : Nat) : (s.setLaunch i x).core k = s.core k := rfl
@[simp] theorem State.setLaunch_team (s : State) (i : Nat) (x : Option Launch) (k : Nat) : (s.setLaunch i x).team k = s.team k := rfl
@[simp] theorem State.modStrand_core (s : State) (i : Nat) (f : Strand → Strand) (k : Nat) : (s.modStrand i f).core k = s.core k := rfl
@[simp] theorem State.modStrand_team (s : State) (i : Nat) (f : Strand → Strand) (k : Nat) : (s.modStrand i f).team k = s.team k := rfl
@[simp] theorem State.modStrand_launch (s : State) (i : Nat) (f : Strand → Strand) (k : Nat) : (s.modStrand i f).launch k = s.launch k := rfl
@[simp] theorem State.modSt_core (s : State) (f : Strand → Strand) (k : Nat) : (s.modSt f).core k = s.core k := rfl
@[simp] theorem State.modSt_team (s : State) (f : Strand → Strand) (k : Nat) : (s.modSt f).team k = s.team k := rfl
@[simp] theorem State.modSt_launch (s : State) (f : Strand → Strand) (k : Nat) : (s.modSt f).launch k = s.launch k := rfl
@[simp] theorem State.modCore_strand (s : State) (i : Nat) (f : Core → Core) (k : Nat) : (s.modCore i f).strand k = s.strand k := rfl
@[simp] theorem State.modCore_team (s : State) (i : Nat) (f : Core → Core) (k : Nat) : (s.modCore i f).team k = s.team k := rfl
@[simp] theorem State.modCore_launch (s : State) (i : Nat) (f : Core → Core) (k : Nat) : (s.modCore i f).launch k = s.launch k := rfl
@[simp] theorem State.setWdog_strand (s : State) (w : Wdog) (k : Nat) : (s.setWdog w).strand k = s.strand k := rfl
@[simp] theorem State.setWdog_core (s : State) (w : Wdog) (k : Nat) : (s.setWdog w).core k = s.core k := rfl
@[simp] theorem State.setWdog_team (s : State) (w : Wdog) (k : Nat) : (s.setWdog w).team k = s.team k := rfl
@[simp] theorem State.setWdog_launch (s : State) (w : Wdog) (k : Nat) : (s.setWdog w).launch k = s.launch k := rfl
@[simp] theorem State.setChain_strand (s : State) (i v : Nat) (k : Nat) : (s.setChain i v).strand k = s.strand k := rfl
@[simp] theorem State.setChain_core (s : State) (i v : Nat) (k : Nat) : (s.setChain i v).core k = s.core k := rfl
@[simp] theorem State.setChain_team (s : State) (i v : Nat) (k : Nat) : (s.setChain i v).team k = s.team k := rfl
@[simp] theorem State.setChain_launch (s : State) (i v : Nat) (k : Nat) : (s.setChain i v).launch k = s.launch k := rfl
@[simp] theorem State.modStrand_strand (s : State) (i : Nat) (f : Strand → Strand) (j : Nat) :
    (s.modStrand i f).strand j = if j = i then f (s.strand i) else s.strand j := Sparse.get_set ..
@[simp] theorem State.modSt_strand (s : State) (f : Strand → Strand) (j : Nat) :
    (s.modSt f).strand j = if j = s.cur then f s.st else s.strand j := Sparse.get_set ..
@[simp] theorem State.modCore_core (s : State) (i : Nat) (f : Core → Core) (j : Nat) :
    (s.modCore i f).core j = if j = i then f (s.core i) else s.core j := Sparse.get_set ..
@[simp] theorem State.modSt_st (s : State) (f : Strand → Strand) : (s.modSt f).st = f s.st := by
  simp [State.st, State.modSt_strand]
@[simp] theorem State.setMs_st (s : State) (m : MemSys) : (s.setMs m).st = s.st := rfl
@[simp] theorem State.setBad_st (s : State) (pa : Nat) : (s.setBad pa).st = s.st := rfl
@[simp] theorem State.modCore_st (s : State) (i : Nat) (f : Core → Core) : (s.modCore i f).st = s.st := rfl
@[simp] theorem State.setCore_st (s : State) (i : Nat) (x : Core) : (s.setCore i x).st = s.st := rfl
@[simp] theorem State.setTeam_st (s : State) (i : Nat) (x : Option Team) : (s.setTeam i x).st = s.st := rfl
@[simp] theorem State.setLaunch_st (s : State) (i : Nat) (x : Option Launch) : (s.setLaunch i x).st = s.st := rfl

end Sys2Proof.Machine
end

