-- ==== Sys2Proof/Safety.lean ====
section
/-! DEFINITION. What a safe step is, and the terms that the statements use. -/

namespace Sys2Proof
namespace Machine

/-- A step that ends in a next state. -/
def Completes (o : Host.Outcome State Fault Refusal) : Prop := ∃ t, o = .next t

/-- Nothing of an operation is left over between steps: no pending wake, error mark or absent address. -/
def Clean (s : State) : Prop :=
  s.ms.wakes = [] ∧ s.ms.errs = [] ∧ s.ms.corrMarks = [] ∧ s.ms.bad = none

/-! ## When the word of the current strand runs -/

/-- None of the registers is pending or awaited (05 R116-R118). -/
def ReadyRegs (s : State) (rs : List Reg) : Prop := ∀ r ∈ rs, s.st.awaits r = false ∧ s.st.left s.now r = 0

/-- The current strand's word runs: its guard holds, and its guard and the registers it names are ready (02 R43; 05 R116, R117). -/
structure Runs (s : State) (h : Hdr) (rs : List Reg) : Prop where
  clean : Clean s
  guard : s.guardOn h = true
  ready : ReadyRegs s (rP h.g :: rs)

/-- A vector word runs: some lane is active, its registers are ready and a vector pipe is free (02 R43; 05 R112). -/
structure RunsV (s : State) (h : Hdr) (rs : List Reg) : Prop where
  clean : Clean s
  lanes : s.lanesOn h = true
  ready : ReadyRegs s (rP h.g :: rs)
  pipe  : s.pipeLost = false

/-- A word with a guard for each lane and no vector pipe runs: some lane is active and its registers are ready (02 R43). -/
structure RunsL (s : State) (h : Hdr) (rs : List Reg) : Prop where
  clean : Clean s
  lanes : s.lanesOn h = true
  ready : ReadyRegs s (rP h.g :: rs)

/-- A supervisor word runs: in supervisor mode (18 R368). -/
structure RunsS (s : State) (h : Hdr) (rs : List Reg) : Prop extends Runs s h rs where
  sup : s.st.modeS = true

/-! ## What is left unchanged -/

/-- A strand without its registers, its place and the marks of its waits: its CSRs, modes, results, tags and frames. -/
def Strand.sheet (x : Strand) : Strand :=
  { x with
    s := Vector.replicate 64 0, p := Vector.replicate 64 0, v := Vector.replicate 32 (Vector.replicate 64 0)
    sDue := Vector.replicate 64 0, pDue := Vector.replicate 64 0, vDue := Vector.replicate 32 0, flagQ := []
    pc := 0, entry := none, blk := none, rep := none, quiet := false
    wait := none, issued := false, paused := false, vSince := none, barWait := none, mwait := none }

/-- Where a strand stands: its address, the block that it is to enter, and the repetition in force. -/
def Strand.place (x : Strand) : Word × Option Word × Option Rep := (x.pc, x.entry, x.rep)

/-- A core without what it counts within one cycle. -/
def Core.sheet (c : Core) : Core := { c with vUsed := 0 }

/-- No register of the current strand has changed but these. -/
def OnlyRegs (s t : State) (rs : List Reg) : Prop :=
  (∀ a, rS a ∉ rs → t.sr a = s.sr a) ∧ (∀ a, rP a ∉ rs → t.pr a = s.pr a) ∧ (∀ a, rV a ∉ rs → t.vr a = s.vr a)

/-- The step from `s` has reached `u` but for the registers `rs` and the place of the current strand, and its flags still to land: no
other register of it, no CSR, no other strand, no core, no byte of memory and no other part of the machine differs from `u`. -/
structure After (s u t : State) (rs : List Reg) : Prop where
  regs    : OnlyRegs s t rs
  csrs    : t.st.sheet = u.st.sheet
  strands : ∀ k, k ≠ s.cur → t.strand k = u.strand k
  cores   : ∀ k, (t.core k).sheet = (u.core k).sheet
  memory  : t.ms = u.ms
  rest    : { t with strands := u.strands, cores := u.cores } = u

/-- Nothing has changed but the registers `rs` and the place of the current strand, and its flags still to land. -/
abbrev Frame (s t : State) (rs : List Reg) : Prop := After s s t rs

/-- The flags `fl` of a word of latency `lat` are to land in fpctl; none where there are none (05 R133). -/
def FlagsDue (s t : State) (fl : Flags) (lat : Nat) : Prop :=
  t.st.flagQ = s.st.flagQ ++ (if fl = 0 then [] else [(s.now + lat, fl)])

/-- The strand has gone on to the word, or the repetition, that follows (05 R124, R126). -/
def WentOn (s t : State) : Prop := t.st.place = s.st.advance.place

/-- A state once the current strand has gone on from its word. -/
def State.goneOn (s : State) : State := s.modSt (fun x => { x.advance.didIssue with barWait := none, mwait := none })
/-- A state once the current strand has gone from its word to the block and word at `v`. -/
def State.goneTo (s : State) (v : Word) : State := s.modSt (fun x => { (x.enter v).didIssue with barWait := none, mwait := none })

/-! Below, `u` is what the word's own effect makes of `s` beside its registers: `s` itself for most words. -/

/-- The word completes and goes on, and all that it has done is to make `s` into `u`: no register has changed. -/
def Ran (i : Instr) (s u : State) : Prop := ∃ t, exec i s = .next t ∧ FlagsDue u t 0 0 ∧ WentOn u t ∧ After s u t []

/-- The word completes and goes on: it writes `v` to a scalar register at a latency, with its flags (a write to s0 is discarded, and
s0 is never pending), and all else that it has done is to make `s` into `u`. -/
def RanS (i : Instr) (s u : State) (d : SReg) (v : Word) (fl : Flags) (lat : Nat) : Prop :=
  ∃ t, exec i s = .next t ∧ t.sr d = (if d = 0 then 0 else v) ∧ t.st.left s.now (rS d) = (if d = 0 then 0 else lat) ∧
    FlagsDue u t fl lat ∧ WentOn u t ∧ After s u t [rS d]

/-- The same for a predicate register; p0 reads all ones. -/
def RanP (i : Instr) (s u : State) (d : PReg) (v : Word) (fl : Flags) (lat : Nat) : Prop :=
  ∃ t, exec i s = .next t ∧ t.pr d = (if d = 0 then BitVec.allOnes 64 else v) ∧
    t.st.left s.now (rP d) = (if d = 0 then 0 else lat) ∧ FlagsDue u t fl lat ∧ WentOn u t ∧ After s u t [rP d]

/-- The same for the lanes of a vector register that a mask makes active; the other lanes keep their data. -/
def RanV (i : Instr) (s u : State) (d : VReg) (mask : Word) (v : Nat → Lane) (fl : Flags) (lat : Nat) : Prop :=
  ∃ t, exec i s = .next t ∧
    (∀ k, k < 64 → lane (t.vr d) k = if mask.getLsbD k then v k else lane (s.vr d) k) ∧ t.st.left s.now (rV d) = lat ∧
    FlagsDue u t fl lat ∧ WentOn u t ∧ After s u t [rV d]

/-- The word completes with a result that is rounded once into a format, with one draw in mode SR (07 R163), and its flags. -/
def RanF (i : Instr) (s : State) (d : SReg) (f : FpFmt) (m : RMode) (lat : Nat) (x : XRes) : Prop :=
  RanS i s (s.drawSr m).2 d (BitVec.ofNat 64 (f.fin m (s.drawSr m).1 x).1) (f.fin m (s.drawSr m).1 x).2 lat

/-- The same for the lanes of a vector word, in ascending order: lane `k` gets the encoding that `f` gives it and its draw (08 R186,
R187). -/
def RanVF (i : Instr) (s : State) (h : Hdr) (d : VReg) (m : RMode) (lat : Nat) (f : Nat → Nat → Nat × Flags) : Prop :=
  let z := lanesFold m s.st.srstate (s.laneMask h) f
  RanV i s (s.modSt (fun x => { x with srstate := z.2.2 })) d (s.laneMask h) (fun k => lane (vecPut z.1) k) z.2.1 lat

/-- The word completes with the place of the strand at `v`, a block to enter there, and no other change but to the registers `rs`. -/
def Jumped (i : Instr) (s : State) (v : Word) (rs : List Reg) (t : State) : Prop :=
  exec i s = .next t ∧ t.st.place = (v, some v, none) ∧ FlagsDue s t 0 0 ∧ Frame s t rs

/-- The word traps before it has any effect: the handler is entered, or the context is killed, with nothing else done (18 R369). -/
def Traps (i : Instr) (s : State) (t : TrapInfo) : Prop := exec i s = out (s.trapIn s.cur t s.st.pc)
/-- The strand stays at its word, which it issues again later, and waits: nothing else has changed. -/
def Waits (i : Instr) (s : State) (w : Wait) : Prop := exec i s = .next (s.waits w)

/-- A state that has given an operation its number. -/
def State.numbered (s : State) : State := { s with nextId := s.nextId + 1 }

/-- A word whose effect makes `s` into `u` completes: it goes on, and what its accesses marked is posted (22 R415) and wakes (17
R364). -/
def Lands (i : Instr) (s u : State) : Prop := exec i s = .next u.goneOn.settle
/-- An event that makes `s` into `u` completes. -/
def Happens (i : Instr) (s u : State) : Prop := exec i s = .next u.settle

/-! ## Guards by lane -/

/-- Is the word's guard taken lane by lane: does it run where some lane is active (02 R43)? VEXT, which tests one lane, is not here. -/
def Instr.laned : Instr → Bool
  | .ldv .. | .stv .. | .vgath .. | .vscat .. => true
  | .vadd .. | .vsub .. | .vmul .. | .vmulh .. | .vmin .. | .vmax .. | .vand .. | .vor .. | .vxor .. => true
  | .vshl .. | .vshr .. | .vsar .. | .vcmp .. | .vcvt .. | .vred .. | .vperm .. | .vsplat .. | .vsel .. | .viota .. => true
  | .vfadd .. | .vfsub .. | .vfmul .. | .vfma .. | .vfmin .. | .vfmax .. | .vfdiv .. | .vfsqrt .. => true
  | .vfexp2 .. | .vfrcp .. | .vfrsq .. | .vhad .. => true
  | _ => false

/-! ## What every step keeps -/

/-- What every state of a run satisfies: nothing of an operation is left over, and memory and the cores' own memories are in their
canonical form: rising addresses, and no entry equal to what an unlisted one reads as. -/
structure Inv (s : State) : Prop where
  clean   : Clean s
  prompt  : s.late = false
  quiet   : s.ev = .none
  memory  : Memory.wf s.ms.mem = true
  scratch : ∀ k, Sparse.wf (s.core k).scratch 0 = true
  tile    : ∀ k, Sparse.wf (s.core k).tile 0 = true
  tag     : ∀ k, Sparse.wf (s.core k).tag tagFp32 = true
  acc     : ∀ k, Sparse.wf (s.core k).acc 0 = true
  res     : ∀ k, Sparse.wf (s.core k).res 0 = true
  ptab    : ∀ k, Sparse.wf (s.core k).ptab 0 = true

/-! ## The bytes of memory -/

/-- A byte of memory as its line's newest data has it: a dirty coherent copy below the home slice, else the home slice, the memory-side cache
or DRAM, under the key slot `km` that the line is accessed with. What software-coherent copies hold below the home slice does not
count. -/
def homeByte (ms : MemSys) (km : Nat → Nat) (pa : Nat) : Byte :=
  let line := pa / 64
  let c := getCopy ms hL2 line
  let m := getCopy ms hMsc line
  match dirtyAt ms line (pa % 64 / 16) with
  | some d => d.data.toList.getD (pa % 64) 0
  | none =>
    if c.valid.getLsbD (pa % 64 / 16) then c.data.toList.getD (pa % 64) 0
    else if m.valid.getLsbD (pa % 64 / 16) then m.data.toList.getD (pa % 64) 0
    else (dramLine ms line (keyGenOf ms (km line))).getD (pa % 64) 0

/-- A software-coherent copy of a line has a dirty sector below the home slice: it reaches the home slice when the copy leaves. -/
def SwcDirty (ms : MemSys) (line : Nat) : Prop := ∃ e ∈ ms.copies, e.1 / 256 = line ∧ e.1 % 256 < 240 ∧ e.2.swc = true ∧ e.2.dirty ≠ 0

/-- The holders' copies are in order, where each line is accessed under one key slot `km` and with one attribute `am` (11 R264): what is
dirty is valid; below the home slice the copies of a line are of the line's kind of coherence, and a FAR line is in the memory-side cache
alone; a coherent copy holds the line's newest data, and at most one of a line's is dirty; a line is not both in the home slice and in the
memory-side cache, what is clean there is what DRAM holds, and host lines are in no memory-side cache; no ECC error is in place. -/
structure Held (ms : MemSys) (km am : Nat → Nat) : Prop where
  form  : Sparse.wf ms.copies {} = true ∧ Memory.wf ms.mem = true ∧ Sparse.wf ms.dkey 1 = true ∧ Sparse.wf ms.dorg 0 = true
  keyed : ∀ e ∈ ms.copies, e.2.key = km (e.1 / 256)
  dirty : ∀ e ∈ ms.copies, e.2.dirty &&& ~~~e.2.valid = 0
  kind  : ∀ e ∈ ms.copies, e.1 % 256 < 240 → e.2.swc = (am (e.1 / 256) == 1)
  far   : ∀ e ∈ ms.copies, am (e.1 / 256) = 3 → e.1 % 256 = hMsc
  one   : ∀ e ∈ ms.copies, ∀ f ∈ ms.copies, e.1 / 256 = f.1 / 256 → e.1 % 256 < 240 → f.1 % 256 < 240 → e.2.swc = false → f.2.swc = false →
    e.2.dirty ≠ 0 → f.2.dirty ≠ 0 → e.1 = f.1
  fresh : ∀ e ∈ ms.copies, e.1 % 256 < 240 → e.2.swc = false → ∀ i, i < 64 → e.2.valid.getLsbD (i / 16) = true →
    e.2.data.toList.getD i 0 = homeByte ms km (e.1 / 256 * 64 + i)
  apart : ∀ line, (getCopy ms hL2 line).valid = 0 ∨ (getCopy ms hMsc line).valid = 0
  clean : ∀ line h i, h = hL2 ∨ h = hMsc → i < 64 → (getCopy ms h line).valid.getLsbD (i / 16) = true →
    (getCopy ms h line).dirty.getLsbD (i / 16) = false →
    (getCopy ms h line).data.toList.getD i 0 = (dramLine ms line (keyGenOf ms (km line))).getD i 0
  host  : ∀ line, isHost (line * 64) = true → (getCopy ms hMsc line).valid = 0
  ecc   : ms.flips = [] ∧ ms.inject = []

end Machine
end Sys2Proof
end

