-- ==== Sys2Proof/Laws/Issue.lean ====
section
/-! SUPPORT. What the end of a step and the issue of a word do, said once. -/

namespace Sys2Proof
namespace Machine

/-! ## The end of a step -/

theorem Clean.bad {s : State} (c : Clean s) : s.ms.bad = none := c.2.2.2

/-- A state whose accesses left nothing to report settles to itself. -/
theorem settle_clean {s : State} (c : Clean s) : s.settle = s := by
  obtain ⟨h1, h2, h3, h4⟩ := c
  have e (m : MemSys) (a : m.wakes = []) (b : m.errs = []) (c : m.corrMarks = []) (d : m.bad = none) :
      ({ m with wakes := [], errs := [], corrMarks := [], bad := none } : MemSys) = m := by cases m; simp_all
  have k : s.settle = s.setMs { s.ms with wakes := [], errs := [], corrMarks := [], bad := none } := by
    simp only [State.settle, h1, h2, h3, List.isEmpty_nil, Bool.and_self, if_true]
  rw [k, e s.ms h1 h2 h3 h4]
  rfl

/-- With no absent address the step ends in the settled state. -/
theorem out_next {s : State} (h : s.ms.bad = none) : out s = .next s.settle := by simp [out, h]
theorem out_clean {s : State} (c : Clean s) : out s = .next s := by rw [out_next c.bad, settle_clean c]

/-- A settled state has nothing left over. -/
theorem settle_leaves_clean (s : State) : Clean s.settle := ⟨rfl, rfl, rfl, rfl⟩

/-! ## A word that runs -/

theorem ReadyRegs.awaits {s : State} {rs : List Reg} (h : ReadyRegs s rs) : rs.any s.st.awaits = false := by
  rw [List.any_eq_false]
  intro r hr
  simp [(h r hr).1]
theorem ReadyRegs.sched {s : State} {rs : List Reg} (h : ReadyRegs s rs) (wr : List Reg) : s.st.sched s.now rs wr = none := by
  have e : rs.filter (fun r => s.st.left s.now r ≠ 0) = [] := by
    rw [List.filter_eq_nil_iff]
    intro r hr
    simp [(h r hr).2]
  simp only [Strand.sched, e, List.foldl_nil]

/-- A word with no vector pipe, whose effect is on and whose registers are ready, does its work. -/
theorem issue_body {h : Hdr} {u : Use} {body : State → Eff} {s : State} (hv : u.vec = false) (on : u.on s h = true)
    (rd : ReadyRegs s (u.regs s h)) (hp : u.priv = none ∨ s.st.modeS = true) : issue h u body s = (body s).run := by
  unfold issue issueEff
  simp only [rd.awaits, rd.sched, hv, on, Bool.false_and, if_false, if_true, Bool.false_eq_true, Bool.not_true]
  rcases hp with hp | hp
  · simp [hp]
  · cases hq : u.priv <;> simp [hp]

/-- The registers of a word whose effect is on. -/
theorem regs_on {h : Hdr} {u : Use} {s : State} (on : u.on s h = true) : u.regs s h = rP h.g :: u.base ++ (u.rd ++ u.wr) := by
  simp [Use.regs, on]

theorem Runs.issue {s : State} {h : Hdr} {rs : List Reg} (r : Runs s h rs) {u : Use} {body : State → Eff} (hv : u.vec = false)
    (ho : u.on = State.guardOn) (hp : u.priv = none ∨ s.st.modeS = true) (hr : ∀ q ∈ u.base ++ (u.rd ++ u.wr), q ∈ rs) :
    Machine.issue h u body s = (body s).run := by
  have on : u.on s h = true := by rw [ho]; exact r.guard
  refine issue_body hv on (fun q hq => ?_) hp
  rw [regs_on on] at hq
  refine r.ready q ?_
  simp only [List.cons_append, List.mem_cons] at hq ⊢
  rcases hq with hq | hq
  · exact .inl hq
  · exact .inr (hr q hq)

theorem run_done {s : State} (c : Clean s) : (Eff.done s).run = .next s.goneOn := out_clean c
theorem run_jump {s : State} (t : Word) (c : Clean s) :
    (Eff.jump s t).run = .next (s.goneTo t) := out_clean c
theorem run_stay {s : State} (c : Clean s) : (Eff.stay s).run = .next (s.modSt Strand.didIssue) := out_clean c

end Machine
end Sys2Proof
end

