-- ==== Sys2Proof/Laws/Strand.lean ====
section
/-! SUPPORT. Registers, places and flags of a strand: what each operation on a strand changes, said once. -/

namespace Sys2Proof
namespace Machine

/-! ## Registers -/

/-- Writing a register changes register files and counters alone. -/
theorem Strand.setReg_shape (x : Strand) (r : Reg) (v : RVal) (due : Nat) :
    ∃ a b c d e f, x.setReg r v due = { x with s := a, p := b, v := c, sDue := d, pDue := e, vDue := f } := by
  unfold Strand.setReg
  split
  · exact ⟨x.s, x.p, x.v, x.sDue, x.pDue, x.vDue, rfl⟩
  · split <;> (try split) <;> first
      | exact ⟨_, _, _, _, _, _, rfl⟩
      | exact ⟨x.s, x.p, x.v, x.sDue, x.pDue, x.vDue, rfl⟩
theorem Strand.setDue_shape (x : Strand) (r : Reg) (due : Nat) :
    ∃ d e f, x.setDue r due = { x with sDue := d, pDue := e, vDue := f } := by
  unfold Strand.setDue
  split
  · exact ⟨x.sDue, x.pDue, x.vDue, rfl⟩
  · split <;> (try split) <;> first
      | exact ⟨_, _, _, rfl⟩
      | exact ⟨x.sDue, x.pDue, x.vDue, rfl⟩

theorem rS_zero (d : SReg) : (rS d).zero = decide (d = 0) := by
  by_cases h : d = 0
  · subst h; rfl
  · have : d.toNat ≠ 0 := fun e => h (BitVec.eq_of_toNat_eq e)
    rw [decide_eq_false h]
    simp only [Reg.zero, rS]
    rw [beq_eq_false_iff_ne.2 this]
    rfl
theorem rP_zero (d : PReg) : (rP d).zero = decide (d = 0) := by
  by_cases h : d = 0
  · subst h; rfl
  · have : d.toNat ≠ 0 := fun e => h (BitVec.eq_of_toNat_eq e)
    rw [decide_eq_false h]
    simp only [Reg.zero, rP]
    rw [beq_eq_false_iff_ne.2 this]
    rfl
@[simp] theorem rV_zero (d : VReg) : (rV d).zero = false := by simp [Reg.zero, rV]
theorem rS_inj {a b : SReg} : rS a = rS b ↔ a = b := by
  simp only [rS, Reg.mk.injEq, true_and]
  exact ⟨BitVec.eq_of_toNat_eq, fun e => by rw [e]⟩
theorem rP_inj {a b : PReg} : rP a = rP b ↔ a = b := by
  simp only [rP, Reg.mk.injEq, true_and]
  exact ⟨BitVec.eq_of_toNat_eq, fun e => by rw [e]⟩
theorem rV_inj {a b : VReg} : rV a = rV b ↔ a = b := by
  simp only [rV, Reg.mk.injEq, true_and]
  exact ⟨BitVec.eq_of_toNat_eq, fun e => by rw [e]⟩

/-- A scalar write: s0 keeps reading 0. -/
theorem Strand.setReg_s (x : Strand) (d : SReg) (w : Word) (due : Nat) : x.setReg (rS d) (.w w) due =
    if d = 0 then x else { x with s := x.s.set d.toNat w d.isLt, sDue := x.sDue.set d.toNat due d.isLt } := by
  unfold Strand.setReg
  rw [rS_zero]
  by_cases h : d = 0
  · rw [decide_eq_true h, if_pos rfl, if_pos h]
  · rw [decide_eq_false h, if_neg Bool.false_ne_true, if_neg h]
    exact dif_pos d.isLt
theorem Strand.setReg_p (x : Strand) (d : PReg) (w : Word) (due : Nat) : x.setReg (rP d) (.w w) due =
    if d = 0 then x else { x with p := x.p.set d.toNat w d.isLt, pDue := x.pDue.set d.toNat due d.isLt } := by
  unfold Strand.setReg
  rw [rP_zero]
  by_cases h : d = 0
  · rw [decide_eq_true h, if_pos rfl, if_pos h]
  · rw [decide_eq_false h, if_neg Bool.false_ne_true, if_neg h]
    exact dif_pos d.isLt
theorem Strand.setReg_v (x : Strand) (d : VReg) (w : Vec) (due : Nat) : x.setReg (rV d) (.v w) due =
    { x with v := x.v.set d.toNat w d.isLt, vDue := x.vDue.set d.toNat due d.isLt } := by
  unfold Strand.setReg
  rw [rV_zero, if_neg Bool.false_ne_true]
  exact dif_pos d.isLt

theorem toNat_ne {n : Nat} {a d : BitVec n} (h : a ≠ d) : d.toNat ≠ a.toNat := fun e => h (BitVec.eq_of_toNat_eq e.symm)

/-- Reading any scalar register after a scalar write. -/
theorem Strand.sr_setReg (x : Strand) (d a : SReg) (w : Word) (due : Nat) :
    (x.setReg (rS d) (.w w) due).sr a = if a = d ∧ d ≠ 0 then w else x.sr a := by
  rw [Strand.setReg_s]
  by_cases hd : d = 0
  · rw [if_pos hd, if_neg (fun h => h.2 hd)]
  · rw [if_neg hd]
    by_cases ha : a = d
    · subst ha; rw [if_pos ⟨rfl, hd⟩]; unfold Strand.sr; rw [if_neg hd]; simp
    · rw [if_neg (fun h => ha h.1)]; unfold Strand.sr; split <;> simp [toNat_ne ha]
theorem Strand.pr_setReg (x : Strand) (d a : PReg) (w : Word) (due : Nat) :
    (x.setReg (rP d) (.w w) due).pr a = if a = d ∧ d ≠ 0 then w else x.pr a := by
  rw [Strand.setReg_p]
  by_cases hd : d = 0
  · rw [if_pos hd, if_neg (fun h => h.2 hd)]
  · rw [if_neg hd]
    by_cases ha : a = d
    · subst ha; rw [if_pos ⟨rfl, hd⟩]; unfold Strand.pr; rw [if_neg hd]; simp
    · rw [if_neg (fun h => ha h.1)]; unfold Strand.pr; split <;> simp [toNat_ne ha]
theorem Strand.vr_setReg (x : Strand) (d a : VReg) (w : Vec) (due : Nat) :
    (x.setReg (rV d) (.v w) due).vr a = if a = d then w else x.vr a := by
  rw [Strand.setReg_v]
  by_cases ha : a = d
  · subst ha; simp [Strand.vr]
  · simp [ha, Strand.vr, toNat_ne ha]
@[simp] theorem Strand.pr_setReg_s (x : Strand) (d : SReg) (a : PReg) (w : Word) (due : Nat) :
    (x.setReg (rS d) (.w w) due).pr a = x.pr a := by rw [Strand.setReg_s]; split <;> rfl
@[simp] theorem Strand.vr_setReg_s (x : Strand) (d : SReg) (a : VReg) (w : Word) (due : Nat) :
    (x.setReg (rS d) (.w w) due).vr a = x.vr a := by rw [Strand.setReg_s]; split <;> rfl
@[simp] theorem Strand.sr_setReg_p (x : Strand) (d : PReg) (a : SReg) (w : Word) (due : Nat) :
    (x.setReg (rP d) (.w w) due).sr a = x.sr a := by rw [Strand.setReg_p]; split <;> rfl
@[simp] theorem Strand.vr_setReg_p (x : Strand) (d : PReg) (a : VReg) (w : Word) (due : Nat) :
    (x.setReg (rP d) (.w w) due).vr a = x.vr a := by rw [Strand.setReg_p]; split <;> rfl
@[simp] theorem Strand.sr_setReg_v (x : Strand) (d : VReg) (a : SReg) (w : Vec) (due : Nat) :
    (x.setReg (rV d) (.v w) due).sr a = x.sr a := by rw [Strand.setReg_v]; rfl
@[simp] theorem Strand.pr_setReg_v (x : Strand) (d : VReg) (a : PReg) (w : Vec) (due : Nat) :
    (x.setReg (rV d) (.v w) due).pr a = x.pr a := by rw [Strand.setReg_v]; rfl

theorem getD_set_self {n : Nat} (v : Vector Nat n) (i k : Nat) (h : i < n) : (v.set i k h).toList.getD i 0 = k := by
  simp [Vector.toList_set, List.getD, h]

/-- The counter of a written register. -/
theorem Strand.left_setReg_s (x : Strand) (d : SReg) (w : Word) (now lat : Nat) :
    (x.setReg (rS d) (.w w) (now + lat)).left now (rS d) = if d = 0 then 0 else lat := by
  rw [Strand.setReg_s]
  unfold Strand.left
  rw [rS_zero]
  by_cases hd : d = 0
  · rw [decide_eq_true hd, if_pos rfl, if_pos hd]
  · rw [if_neg hd, if_neg hd, decide_eq_false hd, if_neg Bool.false_ne_true]
    simp only [rS]
    rw [getD_set_self]
    omega
theorem Strand.left_setReg_p (x : Strand) (d : PReg) (w : Word) (now lat : Nat) :
    (x.setReg (rP d) (.w w) (now + lat)).left now (rP d) = if d = 0 then 0 else lat := by
  rw [Strand.setReg_p]
  unfold Strand.left
  rw [rP_zero]
  by_cases hd : d = 0
  · rw [decide_eq_true hd, if_pos rfl, if_pos hd]
  · rw [if_neg hd, if_neg hd, decide_eq_false hd, if_neg Bool.false_ne_true]
    simp only [rP]
    rw [getD_set_self]
    omega
theorem Strand.left_setReg_v (x : Strand) (d : VReg) (w : Vec) (now lat : Nat) :
    (x.setReg (rV d) (.v w) (now + lat)).left now (rV d) = lat := by
  rw [Strand.setReg_v]
  unfold Strand.left
  rw [rV_zero, if_neg Bool.false_ne_true]
  simp only [rV]
  rw [getD_set_self]
  omega

/-! ## Going on -/

/-- Going on changes the place alone. -/
theorem Strand.advance_shape (x : Strand) :
    ∃ a b c d e, x.advance = { x with pc := a, entry := b, blk := c, rep := d, quiet := e } := by
  unfold Strand.advance
  simp only [Strand.enter]
  split
  · split
    · exact ⟨x.pc, x.entry, x.blk, _, x.quiet, rfl⟩
    · split
      · exact ⟨_, x.entry, x.blk, _, x.quiet, rfl⟩
      · exact ⟨_, _, _, _, _, rfl⟩
  · split
    · exact ⟨_, x.entry, x.blk, x.rep, x.quiet, rfl⟩
    · exact ⟨_, _, _, _, _, rfl⟩
/-- Where a strand goes on to depends on its place and its block alone. -/
theorem Strand.advance_place {x y : Strand} (h1 : y.pc = x.pc) (h2 : y.blk = x.blk) (h3 : y.rep = x.rep) (h4 : y.entry = x.entry) :
    y.advance.place = x.advance.place := by
  simp only [Strand.advance, Strand.repHere, Strand.enter, Strand.place, h1, h2, h3]
  split
  · split
    · simp [h4]
    · split <;> simp [h4]
  · split <;> simp [h4]

/-- What the end of a word keeps of a strand. -/
theorem goneOn_shape (x : Strand) : ∃ a b c d e,
    ({ x.advance.didIssue with barWait := none, mwait := none } : Strand) =
      { x with pc := a, entry := b, blk := c, rep := d, quiet := e, issued := true, wait := none, paused := false, vSince := none
               barWait := none, mwait := none } := by
  obtain ⟨a, b, c, d, e, h⟩ := x.advance_shape
  exact ⟨a, b, c, d, e, by simp [Strand.didIssue, h]⟩

/-- The end of a word keeps every register and counter. -/
theorem goneOn_st (s : State) : ∃ a b c d e, s.goneOn.st =
    { s.st with pc := a, entry := b, blk := c, rep := d, quiet := e, issued := true, wait := none, paused := false, vSince := none
                barWait := none, mwait := none } := by
  obtain ⟨a, b, c, d, e, h⟩ := goneOn_shape s.st
  exact ⟨a, b, c, d, e, by rw [State.goneOn, State.modSt_st, h]⟩
theorem goneOn_sr (s : State) (q : SReg) : s.goneOn.sr q = s.st.sr q := by
  obtain ⟨_, _, _, _, _, h⟩ := goneOn_st s; rw [State.sr, h]; rfl
theorem goneOn_pr (s : State) (q : PReg) : s.goneOn.pr q = s.st.pr q := by
  obtain ⟨_, _, _, _, _, h⟩ := goneOn_st s; rw [State.pr, h]; rfl
theorem goneOn_vr (s : State) (q : VReg) : s.goneOn.vr q = s.st.vr q := by
  obtain ⟨_, _, _, _, _, h⟩ := goneOn_st s; rw [State.vr, h]; rfl
theorem goneOn_left (s : State) (now : Nat) (r : Reg) : s.goneOn.st.left now r = s.st.left now r := by
  obtain ⟨_, _, _, _, _, h⟩ := goneOn_st s; rw [h]; rfl

/-- The end of a word changes the strand's place and waits alone. -/
theorem after_goneOn {s u w : State} {rs : List Reg} (hc : w.cur = s.cur) (h0 : OnlyRegs s w rs) (h1 : w.st.sheet = u.st.sheet)
    (h2 : ∀ k, k ≠ s.cur → w.strand k = u.strand k) (h3 : ∀ k, (w.core k).sheet = (u.core k).sheet)
    (h4 : w.ms = u.ms) (h5 : { w with strands := u.strands, cores := u.cores } = u) : After s u w.goneOn rs := by
  obtain ⟨a, b, c, d, e, h⟩ := goneOn_shape w.st
  have hst : w.goneOn.st =
      { w.st with pc := a, entry := b, blk := c, rep := d, quiet := e, issued := true, wait := none, paused := false, vSince := none
                  barWait := none, mwait := none } := by simp [State.goneOn, h]
  obtain ⟨r1, r2, r3⟩ := h0
  refine ⟨⟨fun q hq => ?_, fun q hq => ?_, fun q hq => ?_⟩, ?_, fun k hk => ?_, fun k => h3 k, h4, ?_⟩
  · rw [← r1 q hq]; simp [State.sr, hst, Strand.sr]
  · rw [← r2 q hq]; simp [State.pr, hst, Strand.pr]
  · rw [← r3 q hq]; simp [State.vr, hst, Strand.vr]
  · rw [hst, ← h1]; rfl
  · rw [← h2 k hk]
    have : k ≠ w.cur := by rw [hc]; exact hk
    simp [State.goneOn, this]
  · rw [← h5]; rfl

/-- The end of the word goes on from where it stood, if `f` has not moved it. -/
theorem goneOn_went {s : State} (f : Strand → Strand) (h1 : (f s.st).pc = s.st.pc) (h2 : (f s.st).blk = s.st.blk)
    (h3 : (f s.st).rep = s.st.rep) (h4 : (f s.st).entry = s.st.entry) : WentOn s (s.modSt f).goneOn := by
  have : (s.modSt f).goneOn.st.place = (f s.st).advance.place := by simp [State.goneOn, Strand.place, Strand.didIssue]
  rw [WentOn, this]
  exact Strand.advance_place h1 h2 h3 h4

/-! ## The results of words -/

/-- The strand with flags to land. -/
def Strand.withFlags (x : Strand) (fl : Flags) (due : Nat) : Strand :=
  if fl = 0 then x else { x with flagQ := x.flagQ ++ [(due, fl)] }

theorem modSt_modSt (s : State) (f g : Strand → Strand) : (s.modSt f).modSt g = s.modSt (fun x => g (f x)) := by
  simp only [State.modSt, State.setSt, State.setStrand, State.st, State.strand, Sparse.get_set_self]
  congr 1
  exact Sparse.set_set ..

/-- A write with flags, as one change of the strand. -/
theorem modSt_addFlags (s : State) (f : Strand → Strand) (fl : Flags) (lat : Nat) :
    (s.modSt f).addFlags fl lat = s.modSt (fun x => (f x).withFlags fl (s.now + lat)) := by
  unfold State.addFlags
  by_cases h : fl = 0
  · simp [h, Strand.withFlags]
  · simp only [h, if_false, Strand.withFlags]
    exact modSt_modSt ..
theorem addFlags_zero (s : State) (lat : Nat) : s.addFlags 0 lat = s := by simp [State.addFlags]

theorem withFlags_shape (x : Strand) (fl : Flags) (due : Nat) :
    x.withFlags fl due = { x with flagQ := x.flagQ ++ (if fl = 0 then [] else [(due, fl)]) } := by
  unfold Strand.withFlags
  split <;> simp [*]

theorem withFlags_sr (x : Strand) (fl : Flags) (due : Nat) (q : SReg) : (x.withFlags fl due).sr q = x.sr q := by
  rw [withFlags_shape]; rfl
theorem withFlags_pr (x : Strand) (fl : Flags) (due : Nat) (q : PReg) : (x.withFlags fl due).pr q = x.pr q := by
  rw [withFlags_shape]; rfl
theorem withFlags_vr (x : Strand) (fl : Flags) (due : Nat) (q : VReg) : (x.withFlags fl due).vr q = x.vr q := by
  rw [withFlags_shape]; rfl
theorem withFlags_left (x : Strand) (fl : Flags) (due now : Nat) (r : Reg) : (x.withFlags fl due).left now r = x.left now r := by
  rw [withFlags_shape]; rfl

/-- A write leaves every other register. -/
theorem Strand.sr_setReg_ne (x : Strand) (r : Reg) (v : RVal) (due : Nat) (a : SReg) (h : rS a ≠ r) :
    (x.setReg r v due).sr a = x.sr a := by
  have hn (e : r.file = .s) : r.num ≠ a.toNat := fun h' => h (by cases r; simp_all [rS])
  unfold Strand.setReg
  split
  · rfl
  · split <;> (try split) <;> first
      | rfl
      | (rename_i e _; have := hn e; simp only [Strand.sr]; split <;> simp [this])
theorem Strand.pr_setReg_ne (x : Strand) (r : Reg) (v : RVal) (due : Nat) (a : PReg) (h : rP a ≠ r) :
    (x.setReg r v due).pr a = x.pr a := by
  have hn (e : r.file = .p) : r.num ≠ a.toNat := fun h' => h (by cases r; simp_all [rP])
  unfold Strand.setReg
  split
  · rfl
  · split <;> (try split) <;> first
      | rfl
      | (rename_i e _; have := hn e; simp only [Strand.pr]; split <;> simp [this])
theorem Strand.vr_setReg_ne (x : Strand) (r : Reg) (v : RVal) (due : Nat) (a : VReg) (h : rV a ≠ r) :
    (x.setReg r v due).vr a = x.vr a := by
  have hn (e : r.file = .v) : r.num ≠ a.toNat := fun h' => h (by cases r; simp_all [rV])
  unfold Strand.setReg
  split
  · rfl
  · split <;> (try split) <;> first
      | rfl
      | (rename_i e _; have := hn e; simp [Strand.vr, this])

/-- `v` has the registers of `s`. -/
structure Like (s v : State) : Prop where
  cur  : v.cur = s.cur
  regs : v.st.s = s.st.s ∧ v.st.p = s.st.p ∧ v.st.v = s.st.v

theorem Like.refl (s : State) : Like s s := ⟨rfl, rfl, rfl, rfl⟩

/-- A vector word has taken a pipe, or no pipe is needed. -/
def Piped (v p : State) : Prop := p = v ∨ p = v.modCore v.cc (fun c => { c with vUsed := c.vUsed + 1 })

theorem Piped.st {v p : State} (h : Piped v p) : p.strands = v.strands ∧ p.cur = v.cur ∧ p.ms = v.ms ∧
    { p with cores := v.cores } = v ∧ ∀ k, (p.core k).sheet = (v.core k).sheet := by
  rcases h with h | h
  · subst h; exact ⟨rfl, rfl, rfl, rfl, fun _ => rfl⟩
  · subst h
    refine ⟨rfl, rfl, rfl, rfl, fun k => ?_⟩
    simp only [State.modCore, State.setCore, State.core]
    rw [Sparse.get_set]
    split
    · rename_i e; rw [e]; rfl
    · rfl

/-- A word that changes its strand by `f` and goes on: what `f` keeps. -/
theorem ran_modSt {s v p : State} (l : Like s v) (hp : Piped v p) (f : Strand → Strand) (rs : List Reg)
    (h1 : ∀ a, rS a ∉ rs → (f v.st).sr a = v.st.sr a) (h2 : ∀ a, rP a ∉ rs → (f v.st).pr a = v.st.pr a)
    (h3 : ∀ a, rV a ∉ rs → (f v.st).vr a = v.st.vr a) (hs : (f v.st).sheet = v.st.sheet)
    (pl : (f v.st).pc = v.st.pc ∧ (f v.st).blk = v.st.blk ∧ (f v.st).rep = v.st.rep ∧ (f v.st).entry = v.st.entry) :
    WentOn v (p.modSt f).goneOn ∧ After s v (p.modSt f).goneOn rs := by
  obtain ⟨e1, e2, e3, e4, e5⟩ := hp.st
  have est : p.st = v.st := by simp [State.st, State.strand, e1, e2]
  constructor
  · have : (p.modSt f).goneOn.st.place = (f p.st).advance.place := by simp [State.goneOn, Strand.place, Strand.didIssue]
    rw [WentOn, this, est]
    exact Strand.advance_place pl.1 pl.2.1 pl.2.2.1 pl.2.2.2
  · obtain ⟨g1, g2, g3⟩ := l.regs
    refine after_goneOn (w := p.modSt f) (by simp [e2, l.cur]) ⟨fun a ha => ?_, fun a ha => ?_, fun a ha => ?_⟩ ?_ (fun k hk => ?_)
      (fun k => e5 k) e3 ?_
    · rw [State.sr, State.modSt_st, est, h1 a ha, State.sr]; simp [Strand.sr, g1]
    · rw [State.pr, State.modSt_st, est, h2 a ha, State.pr]; simp [Strand.pr, g2]
    · rw [State.vr, State.modSt_st, est, h3 a ha, State.vr]; simp [Strand.vr, g3]
    · rw [State.modSt_st, est, hs]
    · have : k ≠ p.cur := by rw [e2, l.cur]; exact hk
      rw [State.modSt_strand, if_neg this]; simp [State.strand, e1]
    · have : ({ p with strands := v.strands, cores := v.cores } : State) = v := by rw [← e1]; exact e4
      exact this

/-- A word that writes one register, with flags, and goes on. -/
theorem ran_reg {s v p : State} (l : Like s v) (hp : Piped v p) (r : Reg) (x : RVal) (fl : Flags) (lat due : Nat) (rs : List Reg)
    (hr : r ∈ rs) (hd : due = v.now + lat) :
    FlagsDue v (p.modSt (fun y => (y.setReg r x due).withFlags fl due)).goneOn fl lat ∧
    WentOn v (p.modSt (fun y => (y.setReg r x due).withFlags fl due)).goneOn ∧
      After s v (p.modSt (fun y => (y.setReg r x due).withFlags fl due)).goneOn rs := by
  obtain ⟨a, b, c, d, e, f, h⟩ := v.st.setReg_shape r x due
  obtain ⟨e1, e2, -⟩ := hp.st
  have est : p.st = v.st := by simp [State.st, State.strand, e1, e2]
  refine ⟨?_, ran_modSt l hp _ rs (fun q hq => ?_) (fun q hq => ?_) (fun q hq => ?_) ?_ ?_⟩
  · have hq : (p.modSt (fun y => (y.setReg r x due).withFlags fl due)).goneOn.st.flagQ =
        ((v.st.setReg r x due).withFlags fl due).flagQ := by
      obtain ⟨_, _, _, _, _, g⟩ := ((v.st.setReg r x due).withFlags fl due).advance_shape
      simp [State.goneOn, Strand.didIssue, est, g]
    rw [FlagsDue, hq, withFlags_shape, h, hd]
  · rw [← v.st.sr_setReg_ne r x due q (fun e => hq (e ▸ hr)), withFlags_shape]; rfl
  · rw [← v.st.pr_setReg_ne r x due q (fun e => hq (e ▸ hr)), withFlags_shape]; rfl
  · rw [← v.st.vr_setReg_ne r x due q (fun e => hq (e ▸ hr)), withFlags_shape]; rfl
  · rw [withFlags_shape, h]; rfl
  · rw [withFlags_shape, h]; exact ⟨rfl, rfl, rfl, rfl⟩

end Machine
end Sys2Proof
end

