-- ==== Sys2Proof/Laws/Ran.lean ====
section
/-! SUPPORT. Words that write one register, or none, and go on: from what a meaning answers to the terms of the statements. -/

namespace Sys2Proof
namespace Machine

/-! ## The issue of a vector word -/

/-- A state whose core has given a vector word a pipe. -/
def State.piped (s : State) : State := s.modCore s.cc (fun c => { c with vUsed := c.vUsed + 1 })

theorem Piped.rfl' (s : State) : Piped s s := .inl rfl
theorem Piped.pipe (s : State) : Piped s s.piped := .inr rfl
theorem piped_now (s : State) : s.piped.now = s.now := by
  simp [State.piped, State.now, State.co, State.cc, State.modCore, State.setCore, State.core]
@[simp] theorem piped_st (s : State) : s.piped.st = s.st := rfl

theorem RunsV.issue {s : State} {h : Hdr} {rs : List Reg} (r : RunsV s h rs) {u : Use} {body : State → Eff} (hv : u.vec = true)
    (ho : u.on = State.lanesOn) (hp : u.priv = none) (hr : ∀ q ∈ u.base ++ (u.rd ++ u.wr), q ∈ rs) :
    Machine.issue h u body s = (body s.piped).run := by
  have on : u.on s h = true := by rw [ho]; exact r.lanes
  have rd : ReadyRegs s (u.regs s h) := fun q hq => by
    rw [regs_on on] at hq
    refine r.ready q ?_
    simp only [List.cons_append, List.mem_cons] at hq ⊢
    exact hq.imp id (hr q)
  unfold Machine.issue issueEff
  simp only [rd.awaits, rd.sched, hv, on, r.pipe, Bool.true_and, if_false, if_true, Bool.false_eq_true, Bool.not_true, hp]
  rfl

/-! ## One destination -/

section
variable {i : Instr} {s v p : State} {fl : Flags} {lat : Nat}

theorem Like.now {s v : State} (l : Like s v) (h : v.cores = s.cores) : v.now = s.now := by
  simp [State.now, State.co, State.cc, State.core, l.cur, h]

/-- A word writes a scalar register, with flags, and goes on. -/
theorem RanS.intro {d : SReg} {x : Word} (c : Clean p) (l : Like s v) (hp : Piped v p) (hs : v.now = s.now) (hn : p.now = v.now)
    (h : exec i s = (Eff.done (p.wrSF d x fl lat)).run) : RanS i s v d x fl lat := by
  have e : p.wrSF d x fl lat = p.modSt (fun y => (y.setReg (rS d) (.w x) (p.now + lat)).withFlags fl (p.now + lat)) := by
    unfold State.wrSF State.wrS
    exact modSt_addFlags ..
  obtain ⟨a, b, g⟩ := ran_reg l hp (rS d) (.w x) fl lat (p.now + lat) [rS d] (by simp) (by rw [hn])
  refine ⟨_, ?_, ?_, ?_, a, b, g⟩
  · rw [h, e]; exact run_done c
  · rw [goneOn_sr, State.modSt_st, withFlags_sr, Strand.sr_setReg]
    by_cases hd : d = 0
    · rw [if_neg (fun e => e.2 hd), if_pos hd, hd]; rfl
    · rw [if_pos ⟨rfl, hd⟩, if_neg hd]
  · rw [goneOn_left, State.modSt_st, withFlags_left, hn, hs, Strand.left_setReg_s]

/-- A word writes a predicate register, with flags, and goes on. -/
theorem RanP.intro {d : PReg} {x : Word} (c : Clean p) (l : Like s v) (hp : Piped v p) (hs : v.now = s.now) (hn : p.now = v.now)
    (h : exec i s = (Eff.done ((p.wrP d x lat).addFlags fl lat)).run) : RanP i s v d x fl lat := by
  have e : (p.wrP d x lat).addFlags fl lat =
      p.modSt (fun y => (y.setReg (rP d) (.w x) (p.now + lat)).withFlags fl (p.now + lat)) := by
    unfold State.wrP
    exact modSt_addFlags ..
  obtain ⟨a, b, g⟩ := ran_reg l hp (rP d) (.w x) fl lat (p.now + lat) [rP d] (by simp) (by rw [hn])
  refine ⟨_, ?_, ?_, ?_, a, b, g⟩
  · rw [h, e]; exact run_done c
  · rw [goneOn_pr, State.modSt_st, withFlags_pr, Strand.pr_setReg]
    by_cases hd : d = 0
    · rw [if_neg (fun e => e.2 hd), if_pos hd, hd]; rfl
    · rw [if_pos ⟨rfl, hd⟩, if_neg hd]
  · rw [goneOn_left, State.modSt_st, withFlags_left, hn, hs, Strand.left_setReg_p]

theorem lane_vecOf (f : Nat → Lane) (k : Nat) (hk : k < 64) : lane (vecOf f) k = f k := by
  simp [lane, vecOf, List.getD, hk]

/-- A word writes the active lanes of a vector register, with flags, and goes on. -/
theorem RanV.intro {d : VReg} {mask : Word} {w : Vec} {x : Nat → Lane} (c : Clean p) (l : Like s v) (hp : Piped v p)
    (hs : v.now = s.now) (hn : p.now = v.now) (hx : ∀ k, k < 64 → mask.getLsbD k = true → lane w k = x k)
    (h : exec i s = (Eff.done (p.wrVF d w mask fl lat)).run) : RanV i s v d mask x fl lat := by
  have est : p.st = v.st := by obtain ⟨e1, e2, -⟩ := hp.st; simp [State.st, State.strand, e1, e2]
  let z : Vec := vecOf (fun i => if mask.getLsbD i then lane w i else lane (p.vr d) i)
  have e : p.wrVF d w mask fl lat =
      p.modSt (fun y => (y.setReg (rV d) (.v z) (p.now + lat)).withFlags fl (p.now + lat)) := by
    unfold State.wrVF State.wrV
    refine (modSt_addFlags ..).trans ?_
    simp only [State.modSt]
    rfl
  obtain ⟨a, b, g⟩ := ran_reg l hp (rV d) (.v z) fl lat (p.now + lat) [rV d] (by simp) (by rw [hn])
  refine ⟨_, ?_, fun k hk => ?_, ?_, a, b, g⟩
  · rw [h, e]; exact run_done c
  · rw [goneOn_vr, State.modSt_st, withFlags_vr, Strand.vr_setReg, if_pos rfl, lane_vecOf _ _ hk]
    by_cases hm : mask.getLsbD k = true
    · rw [if_pos hm, if_pos hm, hx k hk hm]
    · rw [if_neg hm, if_neg hm, State.vr, est, State.vr]; simp [Strand.vr, l.regs.2.2]
  · rw [goneOn_left, State.modSt_st, withFlags_left, hn, hs, Strand.left_setReg_v]

/-- A word that changes nothing of its strand's registers goes on. -/
theorem Ran.intro (c : Clean v) (l : Like s v) (h : exec i s = (Eff.done v).run) : Ran i s v := by
  obtain ⟨b, g⟩ := ran_modSt l (Piped.rfl' v) id [] (fun _ _ => rfl) (fun _ _ => rfl) (fun _ _ => rfl) rfl ⟨rfl, rfl, rfl, rfl⟩
  have e : (v.modSt id).goneOn = v.goneOn := by
    simp only [State.goneOn]
    exact modSt_modSt ..
  rw [e] at b g
  refine ⟨_, by rw [h]; exact run_done c, ?_, b, g⟩
  obtain ⟨_, _, _, _, _, k⟩ := goneOn_st v
  rw [FlagsDue, k]; simp

end

/-! ## Register destinations without flags -/

theorem wrS_wrSF (s : State) (d : SReg) (x : Word) (lat : Nat) : s.wrS d x lat = s.wrSF d x 0 lat := (addFlags_zero ..).symm
theorem wrV_wrVF (s : State) (d : VReg) (x : Vec) (m : Word) (lat : Nat) : s.wrV d x m lat = s.wrVF d x m 0 lat :=
  (addFlags_zero ..).symm

/-- A scalar word: it writes `s[d]` and goes on. -/
theorem Runs.ranS {i : Instr} {s : State} {h : Hdr} {rs : List Reg} (r : Runs s h rs) {u : Use} {d : SReg} {x : Word} {lat : Nat}
    {body : State → Eff} (he : exec i s = Machine.issue h u body s) (hb : body s = .done (s.wrS d x lat)) (hv : u.vec = false)
    (ho : u.on = State.guardOn) (hp : u.priv = none) (hr : ∀ q ∈ u.base ++ (u.rd ++ u.wr), q ∈ rs) : RanS i s s d x 0 lat :=
  RanS.intro r.clean (Like.refl s) (Piped.rfl' s) rfl rfl (by rw [he, r.issue hv ho (.inl hp) hr, hb, wrS_wrSF])
theorem Runs.ranP {i : Instr} {s : State} {h : Hdr} {rs : List Reg} (r : Runs s h rs) {u : Use} {d : PReg} {x : Word} {lat : Nat}
    {body : State → Eff} (he : exec i s = Machine.issue h u body s) (hb : body s = .done (s.wrP d x lat)) (hv : u.vec = false)
    (ho : u.on = State.guardOn) (hp : u.priv = none) (hr : ∀ q ∈ u.base ++ (u.rd ++ u.wr), q ∈ rs) : RanP i s s d x 0 lat :=
  RanP.intro r.clean (Like.refl s) (Piped.rfl' s) rfl rfl (by rw [he, r.issue hv ho (.inl hp) hr, hb, addFlags_zero])

/-! ## Rounded results and vector results -/

/-- A state that differs elsewhere is as clean. -/
theorem Clean.of_ms {s t : State} (c : Clean s) (h : t.ms = s.ms) : Clean t := by
  unfold Clean at *; rw [h]; exact c
/-- A draw changes srstate alone. -/
theorem drawSr_like (s : State) (m : RMode) : Like s (s.drawSr m).2 ∧ (s.drawSr m).2.ms = s.ms ∧ (s.drawSr m).2.now = s.now := by
  unfold State.drawSr
  simp only
  split
  · refine ⟨⟨rfl, ?_⟩, rfl, rfl⟩
    rw [State.modSt_st]; exact ⟨rfl, rfl, rfl⟩
  · exact ⟨Like.refl s, rfl, rfl⟩

/-- A rounding word. -/
theorem Runs.ranF {i : Instr} {s : State} {h : Hdr} {rs : List Reg} (r : Runs s h rs) {u : Use} {d : SReg} {F : FpFmt} {m : RMode} {x : XRes} {lat : Nat}
    {body : State → Eff} (he : exec i s = Machine.issue h u body s) (hb : body s = .done (s.roundTo d F m lat x)) (hv : u.vec = false)
    (ho : u.on = State.guardOn) (hp : u.priv = none) (hr : ∀ q ∈ u.base ++ (u.rd ++ u.wr), q ∈ rs) : RanF i s d F m lat x :=
  RanS.intro (p := (s.drawSr m).2) (Clean.of_ms r.clean (drawSr_like s m).2.1) (drawSr_like s m).1 (Piped.rfl' _) (drawSr_like s m).2.2 rfl
    (by rw [he, r.issue hv ho (.inl hp) hr, hb]; rfl)

/-- A vector word with no flags. -/
theorem RunsV.ranV {i : Instr} {s : State} {h : Hdr} {rs : List Reg} (r : RunsV s h rs) {u : Use} {d : VReg} {w : Vec} {x : Nat → Lane} {lat : Nat}
    {body : State → Eff} (he : exec i s = Machine.issue h u body s) (hb : body s.piped = .done (s.piped.wrV d w (s.laneMask h) lat)) (hv : u.vec = true)
    (ho : u.on = State.lanesOn) (hp : u.priv = none) (hr : ∀ q ∈ u.base ++ (u.rd ++ u.wr), q ∈ rs) (hx : ∀ k, k < 64 → lane w k = x k) : RanV i s s d (s.laneMask h) x 0 lat :=
  RanV.intro (p := s.piped) (Clean.of_ms r.clean rfl) (Like.refl s) (Piped.pipe s) rfl (piped_now s)
    (fun k hk _ => hx k hk)
    (by rw [he, r.issue hv ho hp hr, hb, wrV_wrVF])

/-- A rounding vector word. -/
theorem RunsV.ranVF {i : Instr} {s : State} {h : Hdr} {rs : List Reg} (r : RunsV s h rs) {u : Use} {d : VReg} {m : RMode} {f : Nat → Nat → Nat × Flags} {lat : Nat}
    {body : State → Eff} (he : exec i s = Machine.issue h u body s) (hb : body s.piped = .done (s.piped.wrLanesF h d m lat f)) (hv : u.vec = true)
    (ho : u.on = State.lanesOn) (hp : u.priv = none) (hr : ∀ q ∈ u.base ++ (u.rd ++ u.wr), q ∈ rs) : RanVF i s h d m lat f :=
  RanV.intro (p := s.piped.modSt (fun x => { x with srstate := (lanesFold m s.st.srstate (s.laneMask h) f).2.2 })) (Clean.of_ms r.clean rfl)
    ⟨rfl, by rw [State.modSt_st]; exact ⟨rfl, rfl, rfl⟩⟩ (.inr rfl) rfl (piped_now s) (fun k hk _ => rfl)
    (by rw [he, r.issue hv ho hp hr, hb]; rfl)

end Machine
end Sys2Proof
end

