-- ==== Sys2Proof/Certificates/Slice0/Obligations.lean ====
section
/-! DEFINITION. What is stated of the model, for the provers: encodings, the step, reset, and for each family of words that it
completes, what it writes and what it leaves unchanged. -/

open Sys2Proof Sys2Proof.Machine

/-! ## Encodings, the step, reset and the invariant -/

/-- Words that the manual writes out bit by bit (02, 05-13, 17-22) decode to the instructions that they stand for. -/
def Obligations.DecodedWords : Prop :=
  let h (r : BitVec 5) : Hdr := { role := r, g := 0, gn := false }
  ∀ e ∈ [(0x0090004000000013#64, Instr.csrr (h 0) 1 .argp), (0x011000C214000000, .mul (h 0) 3 2 5),
    (0x00380145000FFFFF, .loop (h 0) 5 5 0 0xFFFFF), (0xF810700000300004, .br { role := 31, g := 3, gn := true } 3 4),
    (0x0848000221000000, .hand (h 1) 1 2 1), (0x904002C000024000, .rep (h 18) 11 1 1 0 0),
    (0x025000C310000000, .cmpi (h 0) (.p 3) 3 .ne 0), (0x11C00106000010C8, .bfx (h 2) 4 6 true 3 8),
    (0x02D000800C000000, .planes (h 0) 2 0 3), (0x1318010108300001, .fma (h 2) .fp32 4 1 2 3),
    (0x15C8008100000008, .vred (h 2) (.fadd .fp32) 2 1), (0x15C000C10000B180, .vcvt (h 2) (.fmt .e4m3) (.fmt .fp32) false (some .sr) 3 1),
    (0x0EB8008108000001, .cbenc (h 1) true 2 1 2), (0x1670040140000007, .acvt (h 2) 2 0 .whole 5 true true true false),
    (0x1610060111810001, .tmovv (h 2) 3 (.row 6 2) 4 true false false), (0x0758008300000015, .syswHmask (h 0) 2 3 5),
    (0x0748010500000001, .keyopDestroy (h 0) 4 5), (0x0C30018C10400008, .qst (h 1) .mask .package 4 6 12 8),
    (0x1468008900300100, .ldv (h 2) .b4 .package 2 9 0 256), (0x9448018200310000, .samo (h 18) .cas .b4 .package 6 2 0 0),
    (0x0CA0001011000004, .tld (h 1) 2 (some 2) 1 .package 0 false 4), (0x005800C400000801, .bar (h 0) 3 (.aw 4) 8 1),
    (0x18C8000000000012, .fence (h 3) true false .cluster), (0x08B0000400000007, .trap (h 1) 4 7),
    (0x00F000C810020000, .pteamoCas (h 0) 3 8 4 .package 0), (0x0F18014A19000010, .fxr (h 1) .b8 2 5 10 6 16),
    (0x170000D000000030, .coll (h 2) 3 2 (some 0) (.allReduce .fadd) true 1), (0x079800C400000001, .eccst (h 0) 3 4 true)],
    decodeWord e.1 = .ok e.2

/-- Every well-formed instruction is what the decoder reads from its encoding, and every word that decodes is the encoding of the
well-formed instruction that it decodes to: no bit of a word is dropped, and no word has two meanings (02 R40, R60, R62). -/
def Obligations.EncodingsAgree : Prop :=
  (∀ i : Instr, Instr.wf i = true → decodeWord (encode i) = .ok i) ∧
  ∀ (w : Word) (i : Instr), decodeWord w = .ok i → Instr.wf i = true ∧ encode i = w

/-- A step runs the decoded word: where the strand whose turn it is may issue, waits for no instant and has no failed operation, the
word at its place is what `exec` runs. HAND is HAND_POP at its to role (05 R127). Which strand's turn it is, and when a clock cycle
passes, is the model's schedule, which is its choice (log 1): the agenda's first turn; where the agenda is empty, the next strand that
has a turn left in the cycle (05 R111), and a cycle once none has. -/
def Obligations.StepRunsDecoded : Prop :=
  ∀ (s : State) (sid : Nat) (late : Bool) (rest : List Turn) (slot : Nat) (w : Word) (i : Instr), decodeWord w = .ok i →
    let ready (u : State) : Prop := u.behindKind sid = false ∧ u.mayIssue = true ∧ u.st.failed = false ∧ u.st.until' = none ∧
      u.st.yieldTo = none ∧ (u.st.mwait = none ∨ u.st.wake = true) ∧ u.present = .word slot w
    let u : State := { s with cur := sid, late := false, ev := .none }
    let v : State := { s with agenda := rest, cur := sid, late := late, ev := .none }
    let r : State := { s with agenda := rest, late := false, ev := .none }
    (s.agenda = [] → s.nextTurn = some sid → ready u → step s = after (exec (u.rowOf i) (u.atSlot slot))) ∧
    (s.agenda = [] → s.nextTurn = none → step s = after (out s.tick)) ∧
    (s.agenda = .issue sid late :: rest → ready v → step s = after (exec (v.rowOf i) (v.atSlot slot))) ∧
    (s.agenda = .tick :: rest → step s = after (out (if r.nextTurn = none then r.tick else r))) ∧
    ((∀ h f t n, i ≠ .hand h f t n) → s.rowOf i = i) ∧
    (∀ h f t n, i = .hand h f t n → s.rowOf i = if s.st.role = t ∧ s.st.role ≠ f then .handPop h f t n else i) ∧
    ∀ t : State, after (.next t) = .next { t with late := false, ev := .none }

/-- R266, R408, R429: what reset leaves: HBM reads zero under key slot 0, which alone holds a key, the system registers have their reset
values, package time is 0, and no copy, translation or block is held. No strand is placed, and no launch is taken (the model's choice
where the manual gives no value: logs 5, 6, 10, 11). That no slew is left and the watchdog is off is the model's choice too (logs 6, 87).
-/
def Obligations.ResetState : Prop :=
  let s := State.reset
  (∀ pa, memByte s.ms pa = 0 ∧ peekByte s.ms 0 pa = 0) ∧ (∀ key, keyGenOf s.ms key = if key = 0 then 1 else 0) ∧
  (s.ms.copies = [] ∧ s.ms.tlb = [] ∧ s.ms.icache = [] ∧ s.ms.flips = []) ∧
  (s.sysGet .qtbase = 0 ∧ s.sysGet .ctxbase = 0 ∧ s.sysGet .errbase = 0 ∧ s.sysGet .evac = 0 ∧ (∀ n, s.sysGet (.hmask n) = 0xFFF000) ∧
    s.sysGet .keylive = 1 ∧ s.sysGet .pwrcap = 2600) ∧
  (s.clock.ns = 0 ∧ s.cycle = 0 ∧ s.clock.slew = 0 ∧ s.pkg.wdog.on = false) ∧
  (∀ k, (s.strand k).life = .idle ∧ (s.core k).team = none ∧ s.team k = none ∧ s.launch k = none) ∧
  ∀ k (r : SReg) (p : PReg), (s.strand k).sr r = 0 ∧ (s.strand k).pr p = if p = 0 then BitVec.allOnes 64 else 0

/-- The invariant holds at reset. -/
def Obligations.ResetHasInvariant : Prop := Inv State.reset

/-- Every step keeps the invariant: nothing of an operation is left over between steps, and memory, the scratchpads, the tiles, their
tags, the accumulators, the residues and the product tables keep their canonical form. -/
def Obligations.StepKeepsInvariant : Prop := ∀ s t : State, Inv s → step s = .next t → Inv t

/-- Every row answers a next state but where the part used a physical address that does not exist (11 R247; the model's choice, log 17).
-/
def Obligations.RowsComplete : Prop :=
  ∀ (i : Instr) (s : State), (∃ t, exec i s = .next t) ∨ ∃ pa, exec i s = .fault (.badPhysical pa)

/-! ## Scalar integers (06) -/

/-- R139-R142, R144, R136: each three-register integer word writes its result at its latency and changes nothing else. -/
def Obligations.IntegerRegisterResults : Prop :=
  ∀ (s : State) (h : Hdr) (d a b : SReg), Runs s h [rS a, rS b, rS d] →
    let x := s.sr a
    let y := s.sr b
    ∀ e ∈ [(Instr.add h d a b, x + y, 1), (.sub h d a b, x - y, 1), (.mul h d a b, x * y, 3),
      (.mulh h d a b, (x.signExtend 128 * y.signExtend 128).extractLsb' 64 64, 3),
      (.mulhu h d a b, (x.zeroExtend 128 * y.zeroExtend 128).extractLsb' 64 64, 3),
      (.div h d a b, if y = 0 then BitVec.allOnes 64 else x.sdiv y, 24),
      (.divu h d a b, if y = 0 then BitVec.allOnes 64 else x.udiv y, 24),
      (.rem h d a b, if y = 0 then x else x.srem y, 24), (.remu h d a b, if y = 0 then x else x.umod y, 24),
      (.and h d a b, x &&& y, 1), (.or h d a b, x ||| y, 1), (.xor h d a b, x ^^^ y, 1), (.andn h d a b, x &&& ~~~y, 1),
      (.shl h d a b, x <<< y.toNat, 1), (.shr h d a b, x >>> y.toNat, 1), (.sar h d a b, x.sshiftRight y.toNat, 1),
      (.rol h d a b, x.rotateLeft (y.toNat % 64), 1),
      (.min h d a b, if x.toInt ≤ y.toInt then x else y, 1), (.max h d a b, if x.toInt ≥ y.toInt then x else y, 1),
      (.minu h d a b, if x.toNat ≤ y.toNat then x else y, 1), (.maxu h d a b, if x.toNat ≥ y.toNat then x else y, 1),
      (.addw h d a b, ((x + y).truncate 32).signExtend 64, 1), (.subw h d a b, ((x - y).truncate 32).signExtend 64, 1),
      (.mulw h d a b, ((x * y).truncate 32).signExtend 64, 3)], RanS e.1 s s d e.2.1 0 e.2.2

/-- R139, R142, R145, R146: each integer word of one register, with or without an immediate, writes its result at its latency and
changes nothing else. -/
def Obligations.IntegerImmediateResults : Prop :=
  ∀ (s : State) (h : Hdr) (d a : SReg) (imm : BitVec 32) (n : BitVec 6), Runs s h [rS a, rS d] →
    let x := s.sr a
    let y : Word := imm.signExtend 64
    ∀ e ∈ [(Instr.addi h d a imm, x + y, 1), (.andi h d a imm, x &&& y, 1), (.ori h d a imm, x ||| y, 1),
      (.xori h d a imm, x ^^^ y, 1), (.shli h d a n, x <<< n.toNat, 1), (.shri h d a n, x >>> n.toNat, 1),
      (.sari h d a n, x.sshiftRight n.toNat, 1), (.roli h d a n, x.rotateLeft n.toNat, 1), (.movi h d imm, y, 1),
      (.movhi h d a imm, imm ++ x.truncate 32, 1), (.muli h d a imm, x * y, 3),
      (.mini h d a imm, if x.toInt ≤ y.toInt then x else y, 1), (.maxi h d a imm, if x.toInt ≥ y.toInt then x else y, 1),
      (.addpc h d imm, (s.st.pc &&& ~~~63#64) + y, 1)],
      RanS e.1 s s d e.2.1 0 e.2.2

/-- R139, R142, R144: counts of bits, bit fields, byte reversal and SEL write their results at latency 1 and change nothing else. R139:
what the counts and the byte reversal are. -/
def Obligations.BitFieldResults : Prop :=
  (∀ (s : State) (h : Hdr) (d a b : SReg) (c : PReg) (wid lsb : BitVec 6), Runs s h [rS a, rS b, rP c, rS d] →
     lsb.toNat + wid.toNat < 64 →
     let x := s.sr a
     let y := s.sr b
     let w := wid.toNat + 1
     let m : Word := BitVec.ofNat 64 (2 ^ w - 1)
     let f : Word := x >>> lsb.toNat &&& m
     ∀ e ∈ [(Instr.clz h d a, clzW x), (.ctz h d a, ctzW x), (.popc h d a, popW x), (.bswap h d a, bswapW x),
       (.bfx h d a false wid lsb, f), (.bfx h d a true wid lsb, f ||| (if f.getLsbD wid.toNat then ~~~m else 0)),
       (.bfi h d a b wid lsb, (x &&& ~~~(m <<< lsb.toNat)) ||| (y &&& m) <<< lsb.toNat),
       (.sel h d a b c, if (s.pr c).getLsbD 0 then x else y)], RanS e.1 s s d e.2 0 1) ∧
  (∀ x : Word,
     (x = 0 → clzW x = 64 ∧ ctzW x = 64) ∧
     (x ≠ 0 → ∃ n k, n < 64 ∧ k < 64 ∧ clzW x = BitVec.ofNat 64 (63 - n) ∧ ctzW x = BitVec.ofNat 64 k ∧
       x.getLsbD n = true ∧ (∀ j, n < j → x.getLsbD j = false) ∧ x.getLsbD k = true ∧ (∀ j, j < k → x.getLsbD j = false)) ∧
     (popW x).toNat = ((List.range 64).map (fun i => (x.toNat / 2 ^ i) % 2)).sum ∧
     (∀ i, i < 8 → (bswapW x).extractLsb' (8 * i) 8 = x.extractLsb' (56 - 8 * i) 8))

/-- R143, R147, R178: the compares write all 64 bits of a predicate at its latency, or 1 or 0 to a scalar register, and change nothing
else. R143: what each condition means. -/
def Obligations.CompareResults : Prop :=
  (∀ (s : State) (h : Hdr) (p : PReg) (d a b : SReg) (cc : Cc) (fc : FCc) (ty : FType) (val : BitVec 27),
     let x := s.sr a
     let t := condOf cc x (s.sr b)
     let ti := condOf cc x (val.signExtend 64)
     let tf := fcompare fc (s.fr (ftFmt ty) a) (s.fr (ftFmt ty) b)
     let all (t : Bool) : Word := if t then BitVec.allOnes 64 else 0
     let one (t : Bool) : Word := if t then 1 else 0
     (Runs s h [rS a, rS b, rP p] →
       RanP (.cmp h (.p p) a b cc) s s p (all t) 0 1 ∧ RanP (.cmpi h (.p p) a cc val) s s p (all ti) 0 1 ∧
       RanP (.fcmp h ty (.p p) a b fc) s s p (all tf.1) tf.2 1) ∧
     (Runs s h [rS a, rS b, rS d] →
       RanS (.cmp h (.s d) a b cc) s s d (one t) 0 1 ∧ RanS (.cmpi h (.s d) a cc val) s s d (one ti) 0 1 ∧
       RanS (.fcmp h ty (.s d) a b fc) s s d (one tf.1) tf.2 1)) ∧
  (∀ x y : Word,
     condOf .eq x y = decide (x = y) ∧ condOf .ne x y = decide (x ≠ y) ∧ condOf .lt x y = decide (x.toInt < y.toInt) ∧
     condOf .ge x y = decide (x.toInt ≥ y.toInt) ∧ condOf .ltu x y = decide (x.toNat < y.toNat) ∧
     condOf .geu x y = decide (x.toNat ≥ y.toNat) ∧ condOf .gt x y = decide (x.toInt > y.toInt) ∧
     condOf .le x y = decide (x.toInt ≤ y.toInt) ∧ condOf .gtu x y = decide (x.toNat > y.toNat) ∧
     condOf .leu x y = decide (x.toNat ≤ y.toNat) ∧ condOf .tst x y = decide (x &&& y ≠ 0) ∧
     condOf .ntst x y = decide (x &&& y = 0))

/-! ## Predicates (06) -/

/-- R148, R149: each predicate word writes its result at latency 1 and changes nothing else. -/
def Obligations.PredicateResults : Prop :=
  ∀ (s : State) (h : Hdr) (d a b : PReg) (r x y : SReg) (n : BitVec 7),
    Runs s h [rP a, rP b, rP d, rS r, rS x, rS y] →
    let p := s.pr a
    let q := s.pr b
    let lo := (s.sr x).toNat
    let all (t : Bool) : Word := if t then BitVec.allOnes 64 else 0
    (∀ e ∈ [(Instr.pand h d a b, p &&& q), (.por h d a b, p ||| q), (.pxor h d a b, p ^^^ q), (.pandn h d a b, p &&& ~~~q),
      (.pfrom h d x, s.sr x), (.pany h d a b, all (p &&& q ≠ 0)), (.pall h d a b, all (p &&& q = q)),
      (.pfirst h d a b, (p &&& q) &&& (0 - (p &&& q)))], RanP e.1 s s d e.2 0 1) ∧
    (∃ v, RanP (.pset h d n) s s d v 0 1 ∧ ∀ i, i < 64 → v.getLsbD i = decide (i < n.toNat)) ∧
    (∃ v, RanP (.planes h d x y) s s d v 0 1 ∧ ∀ i, i < 64 → v.getLsbD i = decide (lo ≤ i ∧ i < lo + (s.sr y).toNat)) ∧
    RanS (.pto h r a) s s r p 0 1 ∧ RanS (.pcnt h r a b) s s r (popW (p &&& q)) 0 1

/-! ## Scalar floating point (08) -/

/-- R172, R175, R176, R180-R182: each rounding scalar word reads its operands in its type, rounds the exact result once in its mode
(with one draw of srstate in mode SR), writes it at its latency with its flags, and changes nothing else. -/
def Obligations.FloatResults : Prop :=
  ∀ (s : State) (h : Hdr) (ty ty2 : FType) (it : IType) (rm : Option RMode) (d a b c : SReg),
    Runs s h [rS a, rS b, rS c, rS d] →
    let F := ftFmt ty
    let m := s.rmode
    let x := s.fr F a
    let y := s.fr F b
    let z := s.fr F c
    (∀ e ∈ [(Instr.fadd h ty d a b, 4, xadd m x y), (.fsub h ty d a b, 4, xadd m x y.neg), (.fmul h ty d a b, 4, xmul x y),
      (.fma h ty d a b c, 4, xfma m false x y z), (.fms h ty d a b c, 4, xfma m false x y z.neg),
      (.fnma h ty d a b c, 4, xfma m true x y z), (.fdiv h ty d a b, 14, xdiv x y), (.fsqrt h ty d a, 14, xsqrt x),
      (.fscalb h ty d a b, 4, { v := x.scale (scalbAmount (s.sr b)), fl := sigFlag [x] }),
      (.fexp2 h ty d a, 8, xexp2 x), (.flog2 h ty d a, 8, xlog2v x), (.frcp h ty d a, 8, xrcp x), (.frsq h ty d a, 8, xrsq x)],
      RanF e.1 s d F m e.2.1 e.2.2) ∧
    RanF (.fcvt h ty ty2 rm d a) s d F (rm.getD m) 4 { v := s.fr (ftFmt ty2) a } ∧
    RanF (.icvtf h ty it rm d a) s d F (rm.getD m) 4 { v := xint (itValue it (s.sr a)) }

/-- R177, R179-R181, R183: the scalar words that do not round into their own type write their results at their latencies, with their
flags, and change nothing else but srstate where they draw. -/
def Obligations.FloatOtherResults : Prop :=
  ∀ (s : State) (h : Hdr) (ty : FType) (it : IType) (rm : Option RMode) (op : SgnOp) (d a b : SReg),
    Runs s h (rS a :: rS b :: rS d :: SgnOp.regs op) →
    let F := ftFmt ty
    let x := (s.sr a).toNat
    let y := (s.sr b).toNat
    let m := rm.getD s.rmode
    (∀ e ∈ [(Instr.fmin h ty d a b, false, false), (.fmax h ty d a b, true, false), (.fminm h ty d a b, false, true),
      (.fmaxm h ty d a b, true, true)],
      let z := fminmax F e.2.1 e.2.2 x y
      RanS e.1 s s d (BitVec.ofNat 64 z.1) z.2 4) ∧
    RanS (.fclass h ty d a) s s d (BitVec.ofNat 64 (2 ^ fclass F (F.read x))) 0 1 ∧
    (let v := F.read (x % 2 ^ F.width)
     let neg := sgnOf op (decide (F.signBit ≤ x % 2 ^ F.width)) (fun b => decide (F.signBit ≤ (s.sr b).toNat % 2 ^ F.width))
     RanS (.fsgn h ty op d a) s s d
       (BitVec.ofNat 64 (if v.isNan then F.nanBits else x % 2 ^ F.width % F.signBit + (if neg then F.signBit else 0)))
       (if v.isNan then sigFlag [v] else 0) 1) ∧
    (let r := s.drawSr m
     let i := roundInt m r.1 (itRange it).1 (itRange it).2 (F.read x)
     let n := frndTo F m r.1 (F.read x)
     RanS (.fcvti h ty it rm d a) s r.2 d (BitVec.ofInt 64 i.1) i.2 4 ∧
     RanS (.frnd h ty rm d a) s r.2 d (BitVec.ofNat 64 n.1) n.2 4) ∧
    (let g := xorshift s.st.srstate
     let u := s.modSt (fun k => { k with srstate := g })
     let p := F.m + 1
     let z := F.round .rne 0 (.fin false (g.toNat / 2 ^ (64 - p)) (-(p : Int)))
     RanS (.frand h .raw d) s u d g 0 4 ∧ RanS (.frand h (.unif ty) d) s u d (BitVec.ofNat 64 z.1) z.2 4)

/-! ## Vectors (08) -/

/-- R186-R188, R193: each integer or movement vector word writes the active lanes of its destination at its latency, leaves the other
lanes, and changes nothing else. -/
def Obligations.VectorIntegerResults : Prop :=
  ∀ (s : State) (h : Hdr) (d a : VReg) (b : VOpB) (c : PReg) (x y : SReg) (u : Bool),
    RunsV s h [rV a, VOpB.reg b, rP c, rS x, rS y, rV d] →
    let A (k : Nat) : Lane := lane (s.vr a) k
    let B (k : Nat) : Lane := lane (s.vopB b) k
    let wide (v : Lane) : BitVec 64 := if u then v.zeroExtend 64 else v.signExtend 64
    let le (v w : Lane) : Prop := if u then v.toNat ≤ w.toNat else v.toInt ≤ w.toInt
    ∀ e ∈ [(Instr.vadd h d a b, 4, fun k => A k + B k), (.vsub h d a b, 4, fun k => A k - B k),
      (.vmul h d a b, 4, fun k => A k * B k), (.vmulh h u d a b, 4, fun k => (wide (A k) * wide (B k)).extractLsb' 32 32),
      (.vmin h u d a b, 4, fun k => if le (A k) (B k) then A k else B k),
      (.vmax h u d a b, 4, fun k => if le (B k) (A k) then A k else B k),
      (.vand h d a b, 4, fun k => A k &&& B k), (.vor h d a b, 4, fun k => A k ||| B k), (.vxor h d a b, 4, fun k => A k ^^^ B k),
      (.vshl h d a b, 4, fun k => A k <<< (B k).toNat), (.vshr h d a b, 4, fun k => A k >>> (B k).toNat),
      (.vsar h d a b, 4, fun k => (A k).sshiftRight (B k).toNat),
      (.vperm h u d a b, 6, fun k => if (B k).toNat < 64 then A (B k).toNat else if u then A ((B k).toNat % 64) else 0),
      (.vsplat h d x, 4, fun _ => (s.sr x).truncate 32), (.vsel h d a b c, 4, fun k => if (s.pr c).getLsbD k then A k else B k),
      (.viota h d x y, 4, fun k => (s.sr x).truncate 32 + BitVec.ofNat 32 k * (s.sr y).truncate 32)],
      RanV e.1 s s d (s.laneMask h) e.2.2 0 e.2.1

/-- R173, R186, R189, R191, R194: each float vector word rounds each active lane once, in ascending order, into its destination at its
latency with the flags of the active lanes, and changes nothing else but srstate. -/
def Obligations.VectorFloatResults : Prop :=
  ∀ (s : State) (h : Hdr) (lt : LType) (d a c : VReg) (b : VOpB) (num nrm sgn : Bool) (n : HadN) (to' frm : CvtSide)
    (rm : Option RMode), RunsV s h [rV a, VOpB.reg b, rV c, rV d] →
    let F := ltFmt lt
    let m := s.rmode
    let x (i : Nat) : XVal := s.lf lt (s.vr a) i
    let y (i : Nat) : XVal := s.lf lt (s.vopB b) i
    let z (i : Nat) : XVal := s.lf lt (s.vr c) i
    let p := HadN.points n
    let xs : List XVal := (List.range 64).map (fun i => if (s.laneMask h).getLsbD i then x i else .fin false 0 0)
    (∀ e ∈ [(Instr.vfadd h lt d a b, 4, fun i => xadd m (x i) (y i)), (.vfsub h lt d a b, 4, fun i => xadd m (x i) (y i).neg),
      (.vfmul h lt d a b, 4, fun i => xmul (x i) (y i)), (.vfma h lt d a b c, 4, fun i => xfma m false (x i) (y i) (z i)),
      (.vfdiv h lt d a b, 16, fun i => xdiv (x i) (y i)), (.vfsqrt h lt d a, 16, fun i => xsqrt (x i)),
      (.vfexp2 h lt d a, 10, fun i => xexp2 (x i)), (.vfrcp h lt d a, 10, fun i => xrcp (x i)),
      (.vfrsq h lt d a, 10, fun i => xrsq (x i)),
      (.vhad h n nrm lt d a, 6, fun i => hadamardAt m (if nrm then HadN.exp n else 0) ((xs.drop (i / p * p)).take p) (i % p))],
      RanVF e.1 s h d m e.2.1 (fun i r => F.fin m r (e.2.2 i))) ∧
    (∀ e ∈ [(Instr.vfmin h num lt d a b, false), (.vfmax h num lt d a b, true)],
      RanVF e.1 s h d .rne 4 (fun i _ => fminmax F e.2 num (lane (s.vr a) i).toNat (lane (s.vopB b) i).toNat)) ∧
    (let r := if CvtSide.isInt to' && CvtSide.isInt frm then .rne else rm.getD m
     RanVF (.vcvt h to' frm sgn rm d a) s h d r 4 (fun i w => CvtSide.round to' sgn r w (CvtSide.read frm sgn (lane (s.vr a) i).toNat)))

/-- R187, R190, R192, R193: VCMP writes the active lanes' bits of a predicate, VRED combines the active lanes by the fixed tree, VEXT
reads its selected lane when that lane is active, and only goes on when it is not. -/
def Obligations.VectorCrossLaneResults : Prop :=
  (∀ (s : State) (h : Hdr) (p : PReg) (a : VReg) (b : VOpB) (cc : Cc) (fc : FCc) (lt : LType),
    RunsV s h [rV a, VOpB.reg b, rP p] →
    let mask := s.laneMask h
    let ti (k : Nat) : Bool := condOf cc (lane (s.vr a) k) (lane (s.vopB b) k)
    let tf (k : Nat) : Bool × Flags := fcompare fc (s.lf lt (s.vr a) k) (s.lf lt (s.vopB b) k)
    let fl := (List.range 64).foldl (fun f k => if mask.getLsbD k then f ||| (tf k).2 else f) (0 : Flags)
    (∃ v, RanP (.vcmp h (.int cc) p a b) s s p v 0 4 ∧
      ∀ k, k < 64 → v.getLsbD k = if mask.getLsbD k then ti k else (s.pr p).getLsbD k) ∧
    (∃ v, RanP (.vcmp h (.flt fc lt) p a b) s s p v fl 4 ∧
      ∀ k, k < 64 → v.getLsbD k = if mask.getLsbD k then (tf k).1 else (s.pr p).getLsbD k)) ∧
  (∀ (s : State) (h : Hdr) (op : RedOp) (d a : VReg), RunsV s h [rV a, rV d] →
    let mask := s.laneMask h
    let leaves : List (Option Nat) := (List.range 64).map (fun i => if mask.getLsbD i then some (lane (s.vr a) i).toNat else none)
    let z := redTree (redNode op s.rmode) 6 leaves s.st.srstate 0
    ∃ r, z.1 = [some r] ∧
      (let x := match RedOp.lt? op with
        | none => r
        | some lt => if ((ltFmt lt).read r).isNan then (ltFmt lt).nanBits else r % 2 ^ (ltFmt lt).width
       let fl := match RedOp.lt? op with
        | none => z.2.2
        | some lt => z.2.2 ||| sigFlag (leaves.filterMap (fun o => o.map (ltFmt lt).read))
       RanV (.vred h op d a) s (s.modSt (fun k => { k with srstate := z.2.1 })) d mask (fun _ => BitVec.ofNat 32 x) fl 8)) ∧
  (∀ (s : State) (h : Hdr) (sx : Bool) (k : BitVec 6) (d : SReg) (a : VReg) (b : SReg),
    Clean s → ReadyRegs s [rP h.g, rS b, rV a, rS d] → s.pipeLost = false →
    let n := ((s.sr b).toNat + k.toNat) % 64
    ((s.laneMask h).getLsbD n = true →
      RanS (.vext h sx k d a b) s s d
        (if sx then (lane (s.vr a) n).signExtend 64 else (lane (s.vr a) n).zeroExtend 64) 0 4) ∧
    ((s.laneMask h).getLsbD n = false → Ran (.vext h sx k d a b) s s))

/-! ## Control flow, time and CSRs (05) -/

/-- R124: where BR, JMP, CALL, CALLR, RET and LOOP take the strand, the link and the count that they write, and nothing else. R124: the
targets that JMP, CALLR and RET refuse trap ALIGN at the branch, with reason 6, 3 or 0, and the link is not written. -/
def Obligations.ControlTransfers : Prop :=
  (∀ (s : State) (h : Hdr) (d a : SReg) (slot : BitVec 3) (boff : BitVec 20), Runs s h [rS a, rS d] →
     let blk := s.st.pc &&& ~~~63#64
     let next := if (s.st.pc.toNat / 8) % 8 < 7 then s.st.pc + 8 else blk + 72
     let tgt (b : Word) : Word := b + 64 * boff.signExtend 64 + 8 + 8 * slot.zeroExtend 64
     let wrote (t : State) (v : Word) : Prop :=
       t.sr d = (if d = 0 then 0 else v) ∧ t.st.left s.now (rS d) = (if d = 0 then 0 else 1)
     (∃ t, Jumped (.br h slot boff) s (tgt blk) [] t) ∧
     ((s.sr a).toNat % 64 = 0 → ∃ t, Jumped (.jmp h a slot boff) s (tgt (s.sr a)) [] t) ∧
     (∃ t, Jumped (.call h d slot boff) s (tgt blk) [rS d] t ∧ wrote t next) ∧
     ((s.sr a).toNat % 8 = 0 → (s.sr a).toNat / 8 % 8 ≠ 0 →
       (∃ t, Jumped (.callr h d a) s (s.sr a) [rS d] t ∧ wrote t next) ∧ ∃ t, Jumped (.ret h a) s (s.sr a) [] t) ∧
     (s.sr a ≠ 1 → ∃ t, Jumped (.loop h d a slot boff) s (tgt blk) [rS d] t ∧ wrote t (s.sr a - 1)) ∧
     (s.sr a = 1 → RanS (.loop h d a slot boff) s s d 0 0 1)) ∧
  (∀ (s : State) (h : Hdr) (d a : SReg) (slot : BitVec 3) (boff : BitVec 20), Runs s h [rS a, rS d] →
     let v := s.sr a
     let align (reason : Nat) : TrapInfo := { cause := 0x0C, aux := BitVec.ofNat 64 (256 * reason + 2), addr := v }
     let traps (i : Instr) (reason : Nat) : Prop := exec i s = out (s.trapIn s.cur (align reason) s.st.pc)
     (v.toNat % 64 ≠ 0 → traps (.jmp h a slot boff) 6) ∧
     (v.toNat % 8 ≠ 0 → traps (.callr h d a) 3 ∧ traps (.ret h a) 3) ∧
     (v.toNat % 64 = 0 → traps (.callr h d a) 0 ∧ traps (.ret h a) 0))

/-- R123, R125, R126, R131, R361: NOP, REP, BARB, TIME, CYCLE, and HALT, WAKEAT and YIELD both ways. That a REP issued while another is
in force takes its place is the model's choice (log 33), and so is that HALT waits for the strand's copy commands too (log 52). -/
def Obligations.PlainControlWords : Prop :=
  ∀ (s : State) (h : Hdr) (d a : SReg) (count : BitVec 6) (id ia ib ic : BitVec 3) (k : BitVec 4), Runs s h [rS a, rS d] →
    let stays (i : Instr) (f : Strand → Strand) : Prop :=
      exec i s = .next (s.modSt (fun x => { f x with issued := true, wait := none, vSince := none, paused := false }))
    Ran (.nop h) s s ∧
    Ran (.rep h count id ia ib ic) s (s.modSt (fun x => { x with rep := some { addr := s.st.pc, k := 0 } })) ∧
    Ran (.barb h k) s (s.modSt (fun x => { x with
      carbase := BitVec.ofNat 8 ((x.carbase.toNat + k.toNat + 1) % x.cardepth.toNat) })) ∧
    RanS (.time h d) s s d (BitVec.ofNat 64 s.clock.ns) 0 2 ∧ RanS (.cycle h d) s s d (BitVec.ofNat 64 s.cycle) 0 2 ∧
    (s.allBack = true → stays (.halt h) (fun x => { x with life := .halted, faultHalt := decide (0 < x.handlers) })) ∧
    (s.allBack = false → exec (.halt h) s = .next (s.waits .halt)) ∧
    ((s.sr a).toNat ≤ s.clock.ns → Ran (.wakeat h a) s s) ∧
    (s.clock.ns < (s.sr a).toNat → stays (.wakeat h a) (fun x => { x with until' := some (s.sr a).toNat })) ∧
    ((s.sr a).toNat % 2 ^ 16 = 0 → Ran (.yield h a) s s) ∧
    ((s.sr a).toNat % 2 ^ 16 ≠ 0 → stays (.yield h a) (fun x => { x with yieldTo := some (s.cycle + (s.sr a).toNat % 2 ^ 16) }))

/-- R132, R133: a CSR word writes the old value to `s[d]` at latency 2 and the new value to the CSR; the flags due land first. R134:
what a written CSR then reads: fpctl's flags and a legal rounding mode, and each other register's own bits; a register that no CSR word
may write keeps its value. -/
def Obligations.CsrWords : Prop :=
  (∀ (s : State) (h : Hdr) (d a : SReg) (c : Csr), Runs s h [rS a, rS d] → (Csr.sup c = false ∨ s.st.modeS = true) →
     let l := s.modSt (fun x => x.landFlags s.now)
     let old := l.csrGet c
     let put (w : Word) : State := l.modSt (fun x => x.csrPut c w)
     RanS (.csrr h d c) s l d old 0 2 ∧ RanS (.csrw h d a c) s (put (s.sr a)) d old 0 2 ∧
     RanS (.csrs h d a c) s (put (old ||| s.sr a)) d old 0 2 ∧ RanS (.csrc h d a c) s (put (old &&& ~~~s.sr a)) d old 0 2) ∧
  (∀ (s : State) (c : Csr) (w : Word),
     let x := (s.modSt (fun x => x.csrPut c w)).csrGet c
     match c with
     | .fpctl => slc x 63 9 = 0 ∧ slc x 8 4 = slc w 8 4 ∧ slc x 3 3 = 0 ∧
         slc x 2 0 = (if slc w 2 0 < 6 then slc w 2 0 else slc (s.csrGet c) 2 0)
     | .srstate => x = w
     | .carbase => x = w &&& 0xFF
     | .cardepth => x = (if 1 ≤ slc w 4 0 ∧ slc w 4 0 ≤ 16 then w &&& 0x1F else s.csrGet c)
     | .utrapvec | .strapvec | .tframe => x = w &&& ~~~63#64
     | .utrapmask => x = w &&& 0x3FF
     | _ => x = s.csrGet c)

/-! ## Hand-overs, barriers, monitors, fences (05, 17) -/

/-- R53, R127-R130: HAND pushes or waits at its from role and pops or waits at its to role, HTEST shows how many tokens there are, and a
role outside the team traps ILLENC with reason 3. R129, R130: when a token can be popped, for a team on its cores: its latency has
passed, and nothing that its pusher had in flight at the push is still unperformed. R351, R353: a push releases at the team's scope. That
HTEST counts the tokens that cannot be popped yet too is the model's reading of R129 (log 29). -/
def Obligations.HandOvers : Prop :=
  (∀ (s : State) (h : Hdr) (d : PReg) (frm tgt n : BitVec 4) (tid : Nat) (t : Team),
     Runs s h [rP d] → s.cur < 768 → s.st.team = some tid → s.team tid = some t →
     let q := t.handQ frm.toNat tgt.toNat
     let k := n.toNat + 1
     let inside := frm.toNat / 4 < t.shape ∧ tgt.toNat / 4 < t.shape
     let put (u : State) (l : List Token) : State := u.setTeam tid (some (t.setHandQ frm.toNat tgt.toNat { q with toks := l }))
     let ready := k ≤ q.toks.length ∧ ∀ x ∈ q.toks.take k, s.popOk tid t x tgt.toNat = true
     (inside → q.toks.length + q.resv + k ≤ 16 → Lands (.hand h frm tgt n) s (put (s.releaseAt s.cur (teamScope t.shape)) (q.toks ++
       List.replicate k { src := frm.toNat, at' := s.cycle, needs := s.unperf (t.sidFor tid frm.toNat) }))) ∧
     (inside → 16 < q.toks.length + q.resv + k → Waits (.hand h frm tgt n) s .hand) ∧
     (inside → ready → Lands (.handPop h frm tgt n) s
       (put ((q.toks.take k).foldl (fun u x => u.popAcquire t x s.cur) s) (q.toks.drop k))) ∧
     (inside → ¬ready → Waits (.handPop h frm tgt n) s .hand) ∧
     (inside → ∃ v, RanP (.htest h d frm tgt) s s d v 0 1 ∧ ∀ i, i < 64 → v.getLsbD i = decide (i < q.toks.length)) ∧
     (¬inside → ∀ i ∈ [Instr.hand h frm tgt n, .handPop h frm tgt n, .htest h d frm tgt], Traps i s (illencAt s 3))) ∧
  (∀ (s : State) (tid : Nat) (t : Team) (x : Token) (tgt : Nat), t.place = .resident →
     (s.popOk tid t x tgt = true ↔
       x.at' + (if x.src / 4 = tgt / 4 then 1 else 6) ≤ s.cycle ∧ ∀ i ∈ x.needs, i ∉ s.unperf (t.sidOf x.src)))

/-- R357-R361: what BAR answers in each mode, and the entry that an arrival leaves. R366: an arrival that needs an entry for which neither
its cluster nor the spill table has room waits for one; what the spill table holds is taken back before an entry is used (R367). -/
def Obligations.Barriers : Prop :=
  ∀ (s : State) (h : Hdr) (d a : SReg) (ring : Byte) (off : BitVec 4) (tid : Nat) (t0 t : Team) (l : Launch),
    Runs s h [rS a, rS d] → s.cur < 768 → s.st.team = some tid → s.team tid = some t0 → s.launch t0.launch = some l →
    s.st.barWait = none →
    let e := ring.toNat + (s.st.carbase.toNat + off.toNat) % s.st.cardepth.toNat
    let v := s.useKey (.bar tid e)
    let b := t.bar e
    let own := s.st.role
    let bit : BitVec 16 := 1#16 <<< own.toNat
    let m := (s.sr a).setWidth 16
    let legal := m &&& bit ≠ 0 ∧ m.toNat < 2 ^ (4 * t.shape)
    let tells (mode : BarMode) (code : Nat) : Prop := Ran (.bar h d mode ring off) s (v.sysResult d (errWord code))
    let stays (mode : BarMode) (u : State) (gen : BitVec 32) : Prop := exec (.bar h d mode ring off) s = .next
      ((u.modSt (fun x => { x with barWait := some { entry := e, gen := gen } })).waits .bar).settle
    let gives (mode : BarMode) (u : State) (gen : BitVec 32) : Prop :=
      Lands (.bar h d mode ring off) s (u.sysResult d (gen.setWidth 64))
    v.team tid = some t →
    (∀ mode ∈ [BarMode.aw a, .arr a, .wait], l.barriers ≤ e → tells mode 3) ∧
    (e < l.barriers → b.joined &&& bit = 0 → tells .wait 4) ∧
    (e < l.barriers → b.joined &&& bit ≠ 0 → let gen := b.last[own.toNat]'own.isLt
      if b.g = gen then stays .wait v gen else gives .wait (v.acquireAt s.cur (teamScope t.shape)) gen) ∧
    (∀ mode ∈ [BarMode.aw a, .arr a], e < l.barriers →
      (¬legal → tells mode 2) ∧
      (legal → b.arrived &&& bit ≠ 0 → exec (.bar h d mode ring off) s = .next (v.waits .bar)) ∧
      (legal → b.arrived &&& bit = 0 → b.arrived ≠ 0 → b.mask ≠ m → tells mode 1) ∧
      (legal → b.arrived &&& bit = 0 → (b.arrived = 0 ∨ b.mask = m) → s.performed s.cur = true →
        v.takeKey (s.asidOf s.cur) (clusterOf s.cc) (.bar tid e) = none → exec (.bar h d mode ring off) s = .next (v.waits .spill))) ∧
    (e < l.barriers → legal → b.arrived &&& bit = 0 → (b.arrived = 0 ∨ b.mask = m) → s.performed s.cur = true →
      ∀ w t', v.takeKey (s.asidOf s.cur) (clusterOf s.cc) (.bar tid e) = some w → w.team tid = some t' → w.ms.bad = none →
      let b := t'.bar e
      let ends := b.arrived ||| bit = (if b.arrived = 0 then m else b.mask)
      let b' : BarEntry := { b with
        taken := true, mask := if b.arrived = 0 then m else b.mask, g := if ends then b.g + 1 else b.g
        arrived := if ends then 0 else b.arrived ||| bit, joined := b.joined ||| bit, last := b.last.set own.toNat b.g own.isLt }
      let u := (w.releaseAt s.cur (teamScope t'.shape)).setTeam tid (some (t'.setBar e b'))
      gives (.arr a) u b.g ∧ if ends then gives (.aw a) (u.acquireAt s.cur (teamScope t'.shape)) b.g else stays (.aw a) u b.g)

/-- R362-R366: MARM arms the line of a page that passes its checks, once no access issued before it is still to be performed and its
cluster or the spill table has room for the line's entry, and MWAIT ends with 0, 1 or 2 or waits. -/
def Obligations.MonitorWords : Prop :=
  ∀ (s c : State) (h : Hdr) (d a b : SReg) (sc : Scope) (off : BitVec 20) (p : Part),
    Runs s h [rS a, rS b, rS d] →
    let va := (s.sr a + s.sr b + off.signExtend 64).toNat / 64 * 64
    let k : AKind := { noHost := true }
    let at' := (s.sr a).toNat
    let line := p.pa / 64
    let key : SyncKey := .line (clusterOf s.cc) line
    let arms := if line ∈ s.st.arms then s.st.arms else (if 8 ≤ s.st.arms.length then s.st.arms.drop 1 else s.st.arms) ++ [line]
    let kept := (c.commitPage (s.whoOf s.cur) k p).modSt (fun x => { x with arms := arms.filter x.arms.contains })
    let gives (tgt : Option SReg) (w : Word) : Prop :=
      Ran (.mwait h d tgt) s ((s.modSt (fun x => { x with arms := [], wake := false, mwait := none })).sysResult d w)
    let stays (tgt : Option SReg) (until' : Option Nat) (w : Wait) : Prop := exec (.mwait h d tgt) s =
      .next ((s.modSt (fun x => { x with mwait := some { until' := until', d := d.toNat } })).waits w)
    (s.checkPage (s.whoOf s.cur) k va 64 = (c, .ok p) →
      (s.behind s.cur s.nextId false [p] = true → Waits (.marm h a b sc off) s .late) ∧
      (s.behind s.cur s.nextId false [p] = false →
        (kept.takeKey (s.asidOf s.cur) (clusterOf s.cc) key = none → Waits (.marm h a b sc off) s .spill) ∧
        ∀ w, kept.takeKey (s.asidOf s.cur) (clusterOf s.cc) key = some w → w.ms.bad = none →
          Lands (.marm h a b sc off) s ((w.useKey key).modSt (fun x => { x with arms := arms })))) ∧
    (∀ tgt ∈ [none, some a], s.st.wake = true → gives tgt 0) ∧
    (∀ tgt ∈ [none, some a], s.st.wake = false → s.st.arms = [] → gives tgt 2) ∧
    (s.st.wake = false → s.st.arms ≠ [] → stays none none .mwait ∧
      (at' ≤ s.clock.ns → gives (some a) 1) ∧ (s.clock.ns < at' → stays (some a) (some at') .mwaitTo))

/-- R355, R356: FENCE waits for what its release covers, then releases, then acquires, and goes on. R349-R351: after a release no holder
below its scope on the core's path has a dirty sector of the context's software-coherent lines, and after an acquire none holds such a
line. -/
def Obligations.FencesAndScopes : Prop :=
  (∀ (s : State) (h : Hdr) (acq rel : Bool) (sc : Scope), Runs s h [] →
     (rel = true → s.performedAt s.cur sc = false → Waits (.fence h acq rel sc) s .result) ∧
     ((rel = true → s.performedAt s.cur sc = true) →
       let r := if rel then s.releaseAt s.cur sc else s
       Lands (.fence h acq rel sc) s (if acq then r.acquireAt s.cur sc else r))) ∧
  (∀ (ms : MemSys) (core asid line : Nat) (sc : Scope), core < 192 →
     let r := releaseLines ms core asid sc
     let a := acquireLines ms core asid sc
     let ours (c : Copy) : Prop := c.swc = true ∧ c.asid = asid
     (sc ≠ .core → (ours (getCopy r (hStash core) line) → (getCopy r (hStash core) line).dirty = 0) ∧
       (ours (getCopy a (hStash core) line) → (getCopy a (hStash core) line).valid = 0)) ∧
     (sc ≠ .core → sc ≠ .cluster →
       (ours (getCopy r (hClus (clusterOf core)) line) → (getCopy r (hClus (clusterOf core)) line).dirty = 0) ∧
       (ours (getCopy a (hClus (clusterOf core)) line) → (getCopy a (hClus (clusterOf core)) line).valid = 0)))

/-! ## Traps and their return (18) -/

/-- R369-R372: the current strand takes a trap: the accesses that it has in flight are performed, its registers settle, its frame is
written at tframe (16 KiB on for the user handler), and its handler is entered; with no handler to take it, or where the frame cannot be
written, its context is killed. R370, R371: the strand in its handler: which vector it is at, its mode, and what is kept. R376: TRAP and
SYSC complete by entering the handler with their code, their register and the address of the next word. A strand with an access in flight
that cannot be performed yet takes its trap later, with its core's clock off meanwhile: the model's choice (log 76). -/
def Obligations.TrapsTaken : Prop :=
  (∀ (s w : State) (t : TrapInfo) (pc : Word) (e : Option TrapInfo),
     let z := ((s.performLate s.cur).sentEccu s.cur t.cause).modStrand s.cur Strand.settleRegs
     let x := z.strand s.cur
     let asid := z.asidOf s.cur
     let user := x.toUser (t.cause :: (x.replay.filter (fun e => e.state == 1)).map (·.cause))
     let f := (x.tframe &&& ~~~63#64) + (if user then 0x4000 else 0)
     (s.lateStuck s.cur = true → s.trapIn s.cur t pc = s.trapLater s.cur ∧ (s.trapLater s.cur).frozen s.cc = true ∧
       (s.trapLater s.cur).st = { s.st with wait := some .late, tried := true }) ∧
     (s.lateStuck s.cur = false →
       (x.modeS = true → s.trapIn s.cur t pc = z.kill asid 2) ∧
       (x.modeS = false → user = false → x.strapvec = 0 → s.trapIn s.cur t pc = z.kill asid 4) ∧
       (x.modeS = false → (user = true ∨ x.strapvec ≠ 0) →
         z.supWr s.cc asid kCohWr f.toNat (x.frameBytes t pc z.clock.ns) = (w, e) →
         s.trapIn s.cur t pc = if e.isSome then w.kill asid 3 else w.modStrand s.cur (fun y => y.inHandler user f)))) ∧
  (∀ (x : Strand) (user : Bool) (f : Word) (causes : List Nat),
     let y := x.inHandler user f
     let vec := (if user then x.utrapvec else x.strapvec) &&& ~~~63#64
     (y.pc = vec ∧ y.entry = some vec ∧ y.rep = none ∧ y.barWait = none ∧ y.replay = []) ∧
     (y.modeU = (x.modeU || user) ∧ y.modeS = (x.modeS || !user)) ∧
     (y.s = x.s ∧ y.p = x.p ∧ y.v = x.v ∧ y.fpctl = x.fpctl ∧ y.srstate = x.srstate ∧ y.tframe = x.tframe ∧ y.tags = x.tags) ∧
     (x.toUser causes = true ↔ x.modeU = false ∧ x.modeS = false ∧ x.utrapvec ≠ 0 ∧
       ∀ c ∈ causes, ∃ b, (c, b) ∈ [(0x20, 0), (0x04, 1), (0x0C, 2), (0x07, 3), (0x10, 4), (0x12, 5), (0x13, 6), (0x14, 7), (0x18, 8),
         (0x19, 9)] ∧ x.utrapmask.getLsbD b = true)) ∧
  (∀ (s w : State) (h : Hdr) (a : SReg) (code : BitVec 16), Runs s h [rS a] → s.lateStuck s.cur = false →
     let next := if (s.st.pc.toNat / 8) % 8 < 7 then s.st.pc + 8 else (s.st.pc &&& ~~~63#64) + 72
     let z := (s.performLate s.cur).modStrand s.cur Strand.settleRegs
     let x := z.strand s.cur
     ∀ e ∈ [(Instr.trap h a code, 0x20), (.sysc h a code, 0x21)],
       let t : TrapInfo := { cause := e.2, aux := code.setWidth 64, addr := s.sr a }
       let user := x.toUser (e.2 :: (x.replay.filter (fun e => e.state == 1)).map (·.cause))
       let f := (x.tframe &&& ~~~63#64) + (if user then 0x4000 else 0)
       x.modeS = false → (user = true ∨ x.strapvec ≠ 0) →
       z.supWr s.cc (z.asidOf s.cur) kCohWr f.toNat (x.frameBytes t next z.clock.ns) = (w, none) →
       w.ms.bad = none → Happens e.1 s (w.modStrand s.cur (fun y => y.inHandler user f)))

/-- R373, R375: where each field of the frame lies, and each entry of the replay queue with its captures; every other byte of the frame is
0. The entries are those of the replay queue, which is kept in the order in which its operations issued. What an entry's data and rec hold
of a rounding atomic, of a trace record, of a remote request and of a codebook word is the model's choice (log 30), and of a band copy too
(log 77). -/
def Obligations.FrameLayout : Prop :=
  (∀ (x : Strand) (t : TrapInfo) (pc : Word) (ns : Nat),
    let b := x.frameBytes t pc ns
    let es := x.replay.take 64
    let engCap (e : RepEntry) : Option Vec := match e.body with | .engine c => c.vcap | _ => none
    let engNo (j : Nat) : Nat := ((es.take j).filter (fun e => (engCap e).isSome)).length
    (field b 0 8 = pc.toNat ∧ field b 8 1 = t.cause % 256 ∧ field b 9 1 = 2 * x.modeU.toNat + x.modeS.toNat ∧
      field b 0xA 1 = x.rep.isSome.toNat ∧ field b 0xB 1 = ((x.rep.map (·.k)).getD 0) % 256 ∧ field b 0xC 4 = min 64 x.replay.length) ∧
    (field b 0x10 8 = t.aux.toNat ∧ field b 0x18 8 = t.addr.toNat ∧ field b 0x20 8 = ((x.rep.map Rep.addr).getD 0).toNat ∧
      field b 0x28 8 = (match x.barWait with | none => 0 | some p => 2 ^ 63 + p.entry % 256 * 2 ^ 32 + p.gen.toNat) ∧
      field b 0x30 8 = ns % 2 ^ 64 ∧ field b 0x38 8 = x.fpctl.toNat) ∧
    (∀ i, (_ : i < 64) → (1 ≤ i ∧ i ≤ 15 → field b (0x100 + 8 * i) 8 = x.s[i].toNat) ∧
      (1 ≤ i ∧ i ≤ 3 → field b (0x180 + 8 * i) 8 = x.p[i].toNat)) ∧
    (field b 0x40 0xC8 = 0 ∧ field b 0x180 8 = 0 ∧ field b 0x1A0 0x60 = 0) ∧
    (∀ j e, j < 64 → x.replay[j]? = some e →
      let o := 0x200 + 128 * j
      field b o 8 = e.body.word.toNat ∧ field b (o + 8) 8 = e.body.pc.toNat ∧ field b (o + 0x10) 1 = e.state % 256 ∧
      field b (o + 0x11) 1 = (if e.state = 1 then e.cause % 256 else 0) ∧ field b (o + 0x12) 1 = e.body.fields.1 ∧
      field b (o + 0x13) 1 = (match e.body with
        | .fix r => r.cap % 256 | _ => if (engCap e).isSome then engNo j else 255) ∧
      field b (o + 0x14) 4 = 0 ∧ field b (o + 0x18) 8 = (if e.state = 1 then e.aux.toNat else 0) ∧ field b (o + 0x20) 8 = e.ea.toNat ∧
      field b (o + 0x28) 8 = 0 ∧ (∀ k, k < 2 → field b (o + 0x30 + 8 * k) 8 = (e.body.fields.2.1.getD k 0).toNat) ∧
      ∀ k, k < 8 → field b (o + 0x40 + 8 * k) 8 = (e.body.fields.2.2.getD k 0).toNat) ∧
    (∀ j, x.replay.length ≤ j → j < 64 → field b (0x200 + 128 * j) 128 = 0) ∧
    ((es.filter (fun e => (engCap e).isSome)).length ≤ 8 → b.length = 0x4000 ∧
      (∀ j e v, es[j]? = some e → engCap e = some v → ∀ i, i < 64 → field b (0x2200 + 256 * engNo j + 4 * i) 4 = (lane v i).toNat) ∧
      ∀ n v, (∃ e ∈ es, ∃ r, e.body = .fix r ∧ (n, v) ∈ r.caps) →
        (∀ e ∈ es, ∀ r u, e.body = .fix r → (n, u) ∈ r.caps → u = v) →
        ∀ i, i < 64 → field b (0x2A00 + 256 * (n - 8) + 4 * i) 4 = (lane v i).toNat)) ∧
  ∀ (e : RepEntry) (l : List RepEntry), l.Pairwise (fun x y => x.body.id ≤ y.body.id) →
    (insertEntry e l).Pairwise (fun x y => x.body.id ≤ y.body.id) ∧ ∀ x, x ∈ insertEntry e l ↔ x = e ∨ x ∈ l

/-- R377: RFT reads the frame of its mode, goes through its entries and restores the strand; a strand in no handler traps PRIVOP. R377: what
the restored strand is. What becomes of an entry whose word no entry can hold, and of a frame that cannot be read, are the model's choices
(logs 31, 51). -/
def Obligations.FrameReturn : Prop :=
  (∀ (s c u : State) (h : Hdr) (F : Word) (img : List Byte), Runs s h [] →
     let f := s.st.tframe &&& ~~~63#64
     let old := ((s.st.frameIds.find? (fun e => e.1 == F)).map (·.2)).getD []
     (s.st.modeS = false → s.st.modeU = false → Traps (.rft h) s { cause := 0x03, aux := 0x18 }) ∧
     ((if s.st.modeS then F = f else s.st.modeU = true ∧ F = f + 0x4000) →
       s.supRd s.cc (s.asidOf s.cur) kCohRd F.toNat 0x4000 = (c, .ok img) →
       State.injectAll img F (min (field img 0xC 4) 64) old 65 (s.st.rftAt - 1) c = (u, none) → (u.rftEnd img F).ms.bad = none →
       Happens (.rft h) s ((u.rftEnd img F).modSt Strand.didIssue))) ∧
  (∀ (x : Strand) (img : List Byte) (F : Word),
     let y := x.restore img F
     let w (off : Nat) : Word := BitVec.ofNat 64 (field img off 8)
     (∀ a : SReg, y.sr a = if 1 ≤ a.toNat ∧ a.toNat ≤ 15 then w (0x100 + 8 * a.toNat) else x.sr a) ∧
     (∀ a : PReg, y.pr a = if 1 ≤ a.toNat ∧ a.toNat ≤ 3 then w (0x180 + 8 * a.toNat) else x.pr a) ∧ y.v = x.v ∧
     y.pc = w 0 &&& ~~~7#64 ∧ y.entry = some y.pc ∧
     y.fpctl = (let rm := if slc (w 0x38) 2 0 < 6 then slc (w 0x38) 2 0 else slc x.fpctl 2 0
       BitVec.ofNat 64 (slc (w 0x38) 8 4 * 16 + rm)) ∧
     y.modeS = (x.modeS && (field img 9 1).testBit 0) ∧ y.modeU = (x.modeS && (field img 9 1).testBit 1) ∧
     y.rep = (if field img 0xA 1 % 2 = 1 then some { addr := w 0x20, k := field img 0xB 1 % 64 } else none) ∧
     y.barWait = (if (w 0x28).getLsbD 63 then some { entry := slc (w 0x28) 39 32, gen := BitVec.ofNat 32 (slc (w 0x28) 31 0) } else none))

/-! ## Memory (12) -/

/-- R282-R285, R296, R297: the scratchpad words, on bytes that the plan opens: LDS and the atomics return what was there, at their
latencies; STS and the atomics store; nothing else changes. R280, R282: the first byte that the plan does not open traps PROT with
reason 5, before anything is done; an atomic that is not aligned to its size traps ALIGN. A byte of a core's scratchpad reads as it was
last written, and no other byte, core or register changes (12 R282). R296: the new value of each integer atomic on 4 or 8 bytes. R282,
R284: an access that waits more than two cycles for its banks stops the core's clock for the rest, once its latency has passed (how that
wait is counted is the model's reading: log 75). R332: an access to bytes that a copy command of its strand still moves waits at its word
(log 52). -/
def Obligations.ScratchpadWords : Prop :=
  (∀ (s : State) (h : Hdr) (ld : LdSize) (st : StSize) (am : AmoSize) (sc : Scope) (op : AmoOp) (fop : FAmoOp) (d a b b1 : SReg)
     (off : BitVec 20) (off16 : BitVec 16) (l : Launch),
     Runs s h [rS a, rS b, rS b1, rS d] → s.launchOf s.cur = some l →
     let u := s.numbered
     let at' := (s.sr a + s.sr b + off.signExtend 64).toNat
     let at16 := (s.sr a + off16.signExtend 64).toNat
     let opened (x n : Nat) : Prop := (∀ i, i < n → scratchOk l ((x + i) % 2 ^ 64) = true) ∧ s.bandWait (.sp x n) = false
     let old := leNat (s.spRd s.cc at16 am.n)
     let g := s.drawSr (famoMode fop s.rmode)
     let z := famoNew fop am s.rmode g.1 old ((s.sr b).toNat % 2 ^ (8 * am.n))
     (opened at' ld.n → RanS (.lds h ld sc d a b off) s (u.spDone (.sp at' ld.n) 8) d (ld.ext (s.spRd s.cc at' ld.n)) 0 8) ∧
     (opened at' st.n →
       Ran (.sts h st sc d a b off) s ((u.spWr s.cc at' (leBytes st.n (s.sr d).toNat)).spDone (.sp at' st.n) 1)) ∧
     (at16 % am.n = 0 → opened at16 am.n → (op = .cas → b1.toNat = b.toNat + 1) →
       RanS (.samo h op am sc d a b off16) s ((u.spWr s.cc at16 (leBytes am.n
         (amoNew op am.n old (s.sr b).toNat (if op = .cas then (s.sr b1).toNat else 0)))).spDone (.sp at16 am.n) 10)
         d (BitVec.ofNat 64 old) 0 10) ∧
     (at16 % am.n = 0 → opened at16 am.n →
       RanS (.samof h fop am sc d a b off16) s ((g.2.numbered.spWr s.cc at16 (leBytes am.n z.1)).spDone (.sp at16 am.n) 10)
         d (BitVec.ofNat 64 old) z.2 10) ∧
     ((∀ i, i < ld.n → scratchOk l ((at' + i) % 2 ^ 64) = true) → s.bandWait (.sp at' ld.n) = true →
       Waits (.lds h ld sc d a b off) s .late)) ∧
  (∀ (s : State) (h : Hdr) (ld : LdSize) (st : StSize) (am : AmoSize) (sc : Scope) (op : AmoOp) (d a b b1 : SReg) (off : BitVec 20)
     (off16 : BitVec 16) (l : Launch) (i : Nat),
     Runs s h [rS a, rS b, rS b1, rS d] → s.launchOf s.cur = some l → (op = .cas → b1.toNat = b.toNat + 1) →
     let at' := (s.sr a + s.sr b + off.signExtend 64).toNat
     let at16 := (s.sr a + off16.signExtend 64).toNat
     let first (x n : Nat) : Prop := i < n ∧ scratchOk l ((x + i) % 2 ^ 64) = false ∧ ∀ j, j < i → scratchOk l ((x + j) % 2 ^ 64) = true
     let prot (x bits : Nat) : TrapInfo := { cause := 0x09, aux := BitVec.ofNat 64 (5 * 256 + bits), addr := BitVec.ofNat 64 (x + i) }
     (first at' ld.n → Traps (.lds h ld sc d a b off) s (prot at' 0)) ∧
     (first at' st.n → Traps (.sts h st sc d a b off) s (prot at' 1)) ∧
     (at16 % am.n = 0 → first at16 am.n → Traps (.samo h op am sc d a b off16) s (prot at16 5)) ∧
     (at16 % am.n ≠ 0 → Traps (.samo h op am sc d a b off16) s
       { cause := 0x0C, aux := BitVec.ofNat 64 ((if am.n = 8 then 3 else 2) * 256 + 5), addr := BitVec.ofNat 64 at16 })) ∧
  (∀ (s : State) (core k off i : Nat) (bs : List Byte),
     let t := s.spWr core off bs
     t.spRd k i 1 = (if k = core ∧ off ≤ i ∧ i < off + bs.length then (bs.drop (i - off)).take 1 else s.spRd k i 1) ∧
     { t with cores := s.cores } = s ∧ { t.core k with scratch := [] } = { s.core k with scratch := [] } ∧
     ∀ n, s.spRd k i n = (List.range n).flatMap (fun j => s.spRd k (i + j) 1)) ∧
  (∀ (s : State) (p : FixPlan) (lat : Nat),
     let c := (s.spDone p lat).core s.cc
     let w := bankWait s.co.banks p.rows
     c.stalls = (if 2 < w then s.co.stalls ++ [(s.co.clk + lat, w - 2)] else s.co.stalls) ∧
     { c with stalls := s.co.stalls, banks := s.co.banks } = s.co ∧ { s.spDone p lat with cores := s.cores } = s) ∧
  (∀ (n m x y : Nat), (n = 4 ∨ n = 8) →
     let w := 8 * n
     let M := BitVec.ofNat w m
     let X := BitVec.ofNat w x
     ∀ e ∈ [(AmoOp.swap, X), (.cas, if M = X then BitVec.ofNat w y else M), (.add, M + X), (.and, M &&& X), (.or, M ||| X),
       (.xor, M ^^^ X), (.smin, if M.slt X then M else X), (.smax, if M.slt X then X else M),
       (.umin, if M.ult X then M else X), (.umax, if M.ult X then X else M)], amoNew e.1 n m x y = e.2.toNat)

/-- R283, R285, R286, R294: LDG and STG, once the pages have passed their checks and nothing holds the access back: the load's value is
in its register at latency 8, the store has been made; an uncorrectable error enters the replay queue. R285, R292, R341, R344: an access
whose line a tile store has locked, that must follow an earlier access of its strand, or that misses when the schedule says so (log 1),
is late: it issues, its register waits, and it is performed later (05 R119). R278, R285: what a loaded value is, by its size. -/
def Obligations.GlobalWords : Prop :=
  (∀ (s c w : State) (h : Hdr) (ld : LdSize) (st : StSize) (sc : Scope) (d a b : SReg) (off : BitVec 20) (ps : List Part)
     (bs : List Byte) (t : TrapInfo), Runs s h [rS a, rS b, rS d] →
     let va := s.sr a + s.sr b + off.signExtend 64
     let who := s.whoOf s.cur
     let load := Instr.ldg h ld sc d a b off
     let store := Instr.stg h st sc d a b off
     let req (i : Instr) (data : Word) : FixReq :=
       { id := s.nextId, instr := i, word := s.wordAt s.cur, pc := s.st.pc, addr := va, data := data }
     (s.numbered.checkScalar who {} va.toNat ld.n = (c, .ok ps) →
       let r := req load 0
       (c.fixLate s.ms r (.mem ps) = true → Lands load s (c.fixLater r (.mem ps) 8)) ∧
       (c.fixLate s.ms r (.mem ps) = false → w.ms.bad = none →
         (c.doRd who {} sc true va.toNat ps = (w, .ok bs) → Lands load s (w.wrS d (ld.ext bs) 8)) ∧
         (c.doRd who {} sc true va.toNat ps = (w, .error t) → Lands load s (w.deferTrap s.cur (.fix r) t)))) ∧
     (s.numbered.checkScalar who { write := true } va.toNat st.n = (c, .ok ps) →
       let r := req store (s.sr d)
       let f := c.doWr who { write := true } sc true va.toNat ps (leBytes st.n (s.sr d).toNat)
       (c.fixLate s.ms r (.mem ps) = true → Lands store s (c.fixLater r (.mem ps) 1)) ∧
       (c.fixLate s.ms r (.mem ps) = false → w.ms.bad = none →
         (f = (w, none) → Lands store s w) ∧ (f = (w, some t) → Lands store s (w.deferTrap s.cur (.fix r) t))))) ∧
  (∀ (s : State) (tlb : MemSys) (r : FixReq) (p : FixPlan) (lat : Nat),
     let w := (fixKind r.instr).writes
     let u := s.fixLater r p lat
     (s.fixLate tlb r p = true ↔ s.anyLocked (s.whoOf s.cur) (scopeOf r.instr) (usesPath r.instr) w p.parts = true ∨
       s.behind s.cur r.id w p.parts = true ∨ (s.late = true ∧ s.fixHit tlb s.cur r p = false)) ∧
     u.st.lates = s.st.lates ++ [({ r with due := s.now + lat }, p)] ∧
     (∀ d : SReg, fixDst r.instr = some (rS d) → d ≠ 0 → u.st.left s.now (rS d) = lat) ∧
     (∀ d : SReg, fixDst r.instr ≠ some (rS d) → u.st.left s.now (rS d) = s.st.left s.now (rS d)) ∧
     (u.st.s = s.st.s ∧ u.st.p = s.st.p ∧ u.st.v = s.st.v ∧ u.ms = s.ms ∧ { u with strands := s.strands } = s)) ∧
  (∀ (sz : LdSize) (bs : List Byte), bs.length = sz.n →
     (sz = .b8 → sz.n = 8) ∧ (sz = .b4 ∨ sz = .s4 → sz.n = 4) ∧ (sz = .b2 ∨ sz = .s2 → sz.n = 2) ∧ (sz = .b1 ∨ sz = .s1 → sz.n = 1) ∧
     sz.ext bs = (match sz with
       | .s1 => (BitVec.ofNat 8 (leNat bs)).signExtend 64
       | .s2 => (BitVec.ofNat 16 (leNat bs)).signExtend 64
       | .s4 => (BitVec.ofNat 32 (leNat bs)).signExtend 64
       | _ => BitVec.ofNat 64 (leNat bs)) ∧
     ∀ i, (_ : i < bs.length) → bs[i].toNat = leNat bs / 256 ^ i % 256)

/-- R286-R288: the vector accesses, once their runs of lanes have passed their checks and nothing holds them back; a late one is performed
later (05 R119). R286, R287: the lanes' addresses, and what a vector load of the scratchpad puts into each lane: the active ones their
element, zero-extended, the others what they held. 18 R375: an access that needs access captures takes the lowest that are free, and waits
at its word where they are not to be had. -/
def Obligations.VectorMemoryWords : Prop :=
  (∀ (s c w : State) (h : Hdr) (sz : VecSize) (sc : Scope) (d b : VReg) (a b' : SReg) (off : BitVec 20)
     (rs : List (LaneRun × List Part)) (v : Vec) (cap : Nat), RunsL s h [rS a, rS b', rV b, rV d] →
     let plan := FixPlan.lanes sz.sp sz.n rs
     let req (i : Instr) (addr : Word) (data offs : Vec) : FixReq :=
       { id := s.nextId, instr := i, word := s.wordAt s.cur, pc := s.st.pc, addr := addr, mask := s.laneMask h, vdata := data, voff := offs }
     let z : Vec := Vector.replicate 64 0
     let plain := s.sr a + s.sr b' + off.signExtend 64
     let base := s.sr a + off.signExtend 64
     let ends (u : State) (lat : Nat) : State := if sz.sp then u.spDone plan lat else u
     let free (r : FixReq) : Prop := w.ms.bad = none ∧ (if sz.sp then c.bandWait plan = false else c.fixLate s.ms r plan = false)
     (∀ e ∈ [(Instr.ldv h sz sc d a b' off, req (.ldv h sz sc d a b' off) plain z z, true, 10),
         (.vgath h sz sc d a b off, req (.vgath h sz sc d a b off) base z (s.vr b), false, 12)],
       let r := { e.2.1 with cap := cap }
       s.st.freeCap e.2.1 = some cap →
       s.numbered.checkLanes s.cur {} sz.n sz.sp (laneRuns e.2.2.1 sz.n (s.laneMask h) (laneAddr r sz.n)) = (c, .ok rs) →
       (sz.sp = false → c.fixLate s.ms r plan = true → Lands e.1 s (c.fixLater r plan e.2.2.2)) ∧
       (c.rdLanes s.cur r sz.sp sz.n rs (s.vr d) = (w, .ok v) → free r →
         Lands e.1 s (ends (w.modSt (fun x => x.setReg (rV d) (.v v) (s.now + e.2.2.2))) e.2.2.2))) ∧
     (∀ e ∈ [(Instr.stv h sz sc d a b' off, req (.stv h sz sc d a b' off) plain (s.vr d) z, true),
         (.vscat h sz sc d a b off, req (.vscat h sz sc d a b off) base (s.vr d) (s.vr b), false)],
       let r := { e.2.1 with cap := cap }
       (s.st.freeCap e.2.1 = none → Waits e.1 s .caps) ∧
       (s.st.freeCap e.2.1 = some cap →
         s.numbered.checkLanes s.cur { write := true } sz.n sz.sp (laneRuns e.2.2 sz.n (s.laneMask h) (laneAddr r sz.n)) = (c, .ok rs) →
         (sz.sp = false → c.fixLate s.ms r plan = true → Lands e.1 s (c.fixLater r plan 1)) ∧
         (c.wrLanes s.cur r sz.sp sz.n rs = (w, none) → free r → Lands e.1 s (ends w 1))))) ∧
  (∀ (x : Strand) (r : FixReq),
     let n := match r.instr with | .stv .. | .vgath .. => 1 | .vscat .. => 2 | _ => 0
     let open' (k : Nat) : Prop := 8 ≤ k ∧ k + n ≤ 30 ∧ ∀ j, j < n → k + j ∉ x.capsUsed
     (n = 0 → x.freeCap r = some 255) ∧
     (0 < n → (∀ k, x.freeCap r = some k ↔ open' k ∧ ∀ j, j < k → ¬open' j) ∧ (x.freeCap r = none ↔ ∀ k, ¬open' k))) ∧
  (∀ (s : State) (sid : Nat) (r : FixReq) (n : Nat) (merge : Bool) (rs : List LaneRun) (old : Vec), (n = 1 ∨ n = 2 ∨ n = 4) →
     rs = laneRuns merge n r.mask (laneAddr r n) →
     (∀ i, i < 64 → (laneAddr r n i : Nat) = match r.instr with
       | .vgath .. | .vscat .. => (r.addr + (lane r.voff i).signExtend 64).toNat
       | _ => (r.addr.toNat + i * n) % 2 ^ 64) ∧
     ∃ v, s.rdLanes sid r true n (rs.map (fun x => (x, []))) old = (s, .ok v) ∧
       ∀ i, i < 64 → lane v i =
         if r.mask.getLsbD i then BitVec.ofNat 32 (leNat (s.spRd (coreOf sid) (laneAddr r n i) n)) else lane old i)

/-- R289, R290, R292, R296, R298: each queued request issues once its tag is free and its pages have passed their checks. R289-R292,
R295: an issued request takes its tag; what a load's registers then await; and where its page is near, nothing holds it and no tile
store has locked its line, it is performed and its values are known. That this is done at its issue is the model's choice of a moment
(log 54). -/
def Obligations.QueuedWords : Prop :=
  (∀ (s c : State) (h : Hdr) (ld : LdSize) (st : QstSize) (am : AmoSize) (op : AmoOp) (fop : FAmoOp) (sc : Scope) (tag : BitVec 3)
     (d d1 a b b1 : SReg) (off : BitVec 20) (off16 : BitVec 16) (ps : List Part),
     Runs s h [rS a, rS b, rS b1, rS d, rS d1] → d1 = d + 1 → b1 = b + 1 → (s.st.tagAt tag).used s.cycle = false →
     let va := s.sr a + off.signExtend 64
     let va16 := s.sr a + off16.signExtend 64
     let req (i : Instr) (addr data data2 : Word) : QReq :=
       { id := 0, instr := i, word := s.wordAt s.cur, pc := s.st.pc, addr := addr, data := data, data2 := data2 }
     let who := s.whoOf s.cur
     let g := s.drawSr (famoMode fop s.rmode)
     let fi := Instr.gamof h fop am tag d a b off16
     let fr : QReq := { req fi va16 (s.sr b) 0 with rm := s.rmode, rnd := g.1 }
     (∀ e ∈ [(req (.qld h ld sc tag d a off) va 0 0, ({ far := true } : AKind), ld.n, 1),
         (req (.qldp h sc tag d a off) va 0 0, { far := true }, 16, 16),
         (req (.qst h st sc tag d a off) va (s.sr d) (if st = .mask then s.sr d1 &&& 0xFF else 0), { write := true, far := true }, st.n, 1),
         (req (.gamo h op am tag d a b off16) va16 (s.sr b) (if op = .cas then s.sr b1 else 0),
           { amo := true, write := true, far := true }, am.n, am.n)],
       Instr.wf e.1.instr = true → e.1.addr.toNat % e.2.2.2 = 0 → s.checkScalar who e.2.1 e.1.addr.toNat e.2.2.1 = (c, .ok ps) →
       (c.qIssue s.cur tag e.1 ps s.late).ms.bad = none → Lands e.1.instr s (c.qIssue s.cur tag e.1 ps s.late)) ∧
     (va16.toNat % am.n = 0 → g.2.checkScalar who { amo := true, write := true, far := true } va16.toNat am.n = (c, .ok ps) →
       (c.qIssue s.cur tag fr ps s.late).ms.bad = none → Lands fi s (c.qIssue s.cur tag fr ps s.late))) ∧
  (∀ (s w : State) (tag : BitVec 3) (r : QReq) (ps : List Part) (vals : List RVal) (fl : Flags), s.cur < 768 →
     let c := s.commitParts (s.whoOf s.cur) (qKind r.instr) ps
     let q : QReq := { r with parts := ps, lost := false, id := s.nextId, issued := s.cycle }
     let op : Pend := { id := s.nextId, cls := .queued tag.toNat, dst := qDst r.instr }
     let taken := State.modSt { c with nextId := s.nextId + 1 } (fun x =>
       { x with ops := x.ops ++ [op], tags := x.tags.set tag.toNat { req := some q } tag.isLt })
     let w' := (qKind r.instr).writes
     let near := (∀ p ∈ ps, slc p.leaf.pte 5 4 ≠ 3) ∧ taken.behind s.cur s.nextId w' ps = false ∧
       taken.anyLocked (taken.whoOf s.cur) (scopeOf r.instr) false w' ps = false
     (¬near → s.qIssue s.cur tag r ps false = taken) ∧
     (near → taken.qDo s.cur q = (w, .ok (vals, fl)) → s.qIssue s.cur tag r ps false = w.modSt (fun x => { x with
       tags := x.tags.set tag.toNat { req := some { q with performed := true } } tag.isLt
       ops := x.ops.map (fun o => if o.id == s.nextId then { o with vals := vals, flags := fl, done := true } else o) })))

/-- R289, R293: QWAIT clears the arrived flags that it names once none of its tags is busy, and QPOP gives the tag that arrived first. 14
R335: a tag whose reply is written in a cycle can be used from the next. That QPOP with a busy tag and none arrived stays at its word is
the model's reading (log 52). -/
def Obligations.TagWords : Prop :=
  ∀ (s : State) (h : Hdr) (d : SReg) (tag : Option (BitVec 3)) (t : BitVec 3), Runs s h [rS d] →
    let named (u : BitVec 3) : Prop := tag = none ∨ tag = some u
    let g (u : BitVec 3) : Tag := s.st.tagAt u
    let busy (u : BitVec 3) : Prop := (g u).req ≠ none ∨ ((g u).arrived = true ∧ (g u).rank / 8 = s.cycle)
    let arr (u : BitVec 3) : Prop := (g u).arrived = true ∧ ¬busy u
    let rank (u : BitVec 3) : Nat := (g u).rank
    ((∀ u, named u → ¬busy u) → ∃ x, Ran (.qwait h tag) s (s.modSt (fun _ => x)) ∧ { x with tags := s.st.tags } = s.st ∧
      ∀ u, x.tagAt u = if named u then { g u with arrived := false } else g u) ∧
    ((∃ u, named u ∧ busy u) → Waits (.qwait h tag) s .result) ∧
    (arr t → (∀ u, arr u → rank t ≤ rank u ∧ (rank u = rank t → t.toNat ≤ u.toNat)) →
      Ran (.qpop h d) s ((s.modSt (fun x => x.setTag t { x.tagAt t with arrived := false })).sysResult d (BitVec.ofNat 64 t.toNat))) ∧
    ((∀ u, ¬arr u) → (∀ u, ¬busy u) → Ran (.qpop h d) s (s.sysResult d (BitVec.allOnes 64))) ∧
    ((∀ u, ¬arr u) → (∃ u, busy u) → Waits (.qpop h d) s .result) ∧
    ∀ u, (g u).used s.cycle = true ↔ busy u

/-- R398-R401: each request for another package issues once its tag is free; FXSIG first releases at domain scope. A request of the part's
own package goes its way as any other (log 62). -/
def Obligations.RemoteWords : Prop :=
  ∀ (s : State) (h : Hdr) (ld : LdSize) (st : StSize) (am : AmoSize) (op : AmoOp) (tag : BitVec 3) (d d1 a b : SReg) (off : BitVec 20)
    (off16 : BitVec 16), Runs s h [rS a, rS b, rS d, rS d1] → d1 = d + 1 → (s.st.tagAt tag).used s.cycle = false →
    let va := s.sr a + off.signExtend 64
    let va16 := s.sr a + off16.signExtend 64
    let req (i : Instr) (addr data data2 : Word) : QReq :=
      { id := 0, instr := i, word := s.wordAt s.cur, pc := s.st.pc, addr := addr, data := data, data2 := data2, target := s.sr b }
    let sig := req (.fxsig h tag d a b off) va (s.sr d) 0
    (∀ e ∈ [(req (.fxr h ld tag d a b off) va 0 0, ld.n), (req (.fxw h st tag d a b off) va (s.sr d) 0, st.n),
        (req (.fxamo h op am tag d a b off16) va16 (s.sr d) (if op = .cas then s.sr d1 else 0), am.n)],
      Instr.wf e.1.instr = true → e.1.addr.toNat % e.2 = 0 → Lands e.1.instr s (s.fxIssue s.cur tag e.1)) ∧
    (va.toNat % 8 = 0 → s.performedAt s.cur .domain = true →
      Lands sig.instr s ((s.releaseAt s.cur .domain).fxIssue s.cur tag sig)) ∧
    (va.toNat % 8 = 0 → s.performedAt s.cur .domain = false → Waits sig.instr s .result)

/-- R300-R302: CLEAN and INVAL act on the line or on every held line of the page, once the strand's earlier accesses to those bytes are
performed, and on a page that is not there do nothing more; PFETCH fills, or does nothing where its page fails the checks. That PFETCH
sets no flag A, and that CLEAN at package scope goes on from the slice to DRAM, are the model's readings (log 58). -/
def Obligations.MaintenanceWords : Prop :=
  ∀ (s c : State) (h : Hdr) (sz : MaintSize) (sc : Scope) (a b : SReg) (off : BitVec 20) (p : Part) (t : TrapInfo),
    Runs s h [rS a, rS b] → c.ms.bad = none →
    let va := (s.sr a + s.sr b + off.signExtend 64).toNat
    let who := s.whoOf s.cur
    (∀ e ∈ [(Instr.clean h sz sc a b off, cleanLine), (.inval h sz sc a b off, invalLine)],
      (s.maintPart sz va = (c, some p) →
        (s.behind s.cur s.nextId true [p] = true → Waits e.1 s .late) ∧
        (s.behind s.cur s.nextId true [p] = false →
          Lands e.1 s (c.setMs ((c.maintLines sz p.pa).foldl (fun ms l => e.2 ms s.cc l sc) c.ms)))) ∧
      (s.maintPart sz va = (c, none) → Lands e.1 s c)) ∧
    (s.checkPage who { noHost := true } (va / 64 * 64) 64 = (c, .ok p) →
      Lands (.pfetch h sc a b off) s (c.setMs (prefetchLine c.ms (c.accOf who sc false p) (p.pa / 64) sc))) ∧
    (s.checkPage who { noHost := true } (va / 64 * 64) 64 = (c, .error t) → Ran (.pfetch h sc a b off) s s)

/-! ## Tiles, windows and copies (13) -/

/-- R303, R304, R317, R329-R332: each copy word whose record passes its checks enters its strand's copy queue with its record captured and
a place reserved for its token, and its issue is a release at the team's scope. R303, R315, R317, R330: a copy word whose record, tile or
notify role fails a check, and a CPY whose bands are not all in the parts of the scratchpad that the plan opens, traps at its word with
nothing done. -/
def Obligations.CopyWords : Prop :=
  (∀ (s c : State) (h : Hdr) (x : BitVec 3) (nr : Option (BitVec 4)) (t : BitVec 3) (sc : Scope) (trow n : BitVec 7) (nb : BitVec 13)
     (tr into : Bool) (r : Vector Word 8), Runs s h (recRegs x) →
     let rows := if n = 0 then 128 else n.toNat
     let bands := if nb = 0 then 8192 else nb.toNat
     ∀ e ∈ [(Instr.tld h x nr t sc trow tr n, ({ x := x, sc := sc, nr := nr, tile := some t, cmd := .tld, n := rows, tr := tr } : CopyUse)),
       (.tst h x nr t sc trow tr n, { x := x, sc := sc, nr := nr, tile := some t, cmd := .tst, n := rows, tr := tr, cur := true }),
       (.cpy h x nr sc into nb, { x := x, sc := sc, nr := nr, cmd := .cpy, n := bands, band := some !into }),
       (.cpyz h x nr sc nb, { x := x, sc := sc, nr := nr, cmd := .cpyz, n := bands, cur := true })],
       s.copyCheck e.2 (s.record x) = none → (if e.2.cur then s.captureRec (s.record x) else (s, .ok (s.record x))) = (c, .ok r) →
       c.ms.bad = none → s.copyFull = false → s.nrRoom nr = true →
       Lands e.1 s (((c.reserveNr nr).releaseAt s.cur (s.teamScopeOf s.cur)).pushCopy (fun id =>
         { id := id, sid := s.cur, instr := e.1, word := s.wordAt s.cur, pc := s.st.pc, record := r, scope := sc, nr := nr.map (·.toNat) }))) ∧
  (∀ (s : State) (h : Hdr) (x : BitVec 3) (nr : Option (BitVec 4)) (t : BitVec 3) (sc : Scope) (trow n : BitVec 7) (nb : BitVec 13)
     (tr into : Bool) (l : Launch) (e : Nat × Nat), Runs s h (recRegs x) → s.launchOf s.cur = some l →
     let rows := if n = 0 then 128 else n.toNat
     let bands := if nb = 0 then 8192 else nb.toNat
     let y := Lay.of (s.record x)
     let cpy := Instr.cpy h x nr sc into nb
     let closed (i j : Nat) : Prop := scratchOk l (y.ring + i * y.stride + j) = false
     (∀ i ∈ [(Instr.tld h x nr t sc trow tr n, LayCmd.tld, rows, tr, true), (.tst h x nr t sc trow tr n, .tst, rows, tr, true),
         (cpy, .cpy, bands, false, false), (.cpyz h x nr sc nb, .cpyz, bands, false, false)],
       let (i, cmd, n, tr, tile) := i
       (s.badNr nr = true → Traps i s (illencAt s 3)) ∧
       (s.badNr nr = false → tile = true → l.tiles ≤ t.toNat → Traps i s (illencAt s 7)) ∧
       (s.badNr nr = false → (tile = true → t.toNat < l.tiles) → layBad (s.record x) cmd n tr l = some e →
         Traps i s { cause := 0x07, aux := BitVec.ofNat 64 (e.1 * 256 + e.2) })) ∧
     (s.badNr nr = false → layBad (s.record x) .cpy bands false l = none → l.scratchK + l.stashK + l.ringK ≤ 1024 →
       ∀ i j, i < bands → j < y.rowBytes → closed i j → (∀ a b, (a < i ∧ b < y.rowBytes) ∨ (a = i ∧ b < j) → ¬closed a b) →
         Traps cpy s { cause := 0x09, aux := BitVec.ofNat 64 (5 * 256 + 8 + (!into).toNat)
                       addr := BitVec.ofNat 64 (y.ring + i * y.stride + j) }))

/-- R323-R328, R331, R332: WOPEN, WADV and WCLOSE set their window and queue the rows that come into it, the first two as a release at the
team's scope; WROW gives the place of a row that is there, and asks for one that is still to come; a window that is closed ends the WROWs
that wait for it with all ones; CPYST counts the strand's copy commands. -/
def Obligations.WindowWords : Prop :=
  ∀ (s : State) (h : Hdr) (x w : BitVec 3) (sc : Scope) (d a : SReg) (wait : Bool), Runs s h (rS a :: rS d :: recRegs x) →
    let r := s.record x
    let y := Lay.of r
    let v := s.co.winAt w.toNat
    let rel := s.releaseAt s.cur (s.teamScopeOf s.cur)
    let opened : Window := { isOpen := true, record := r, h := y.row0, base := y.ring, rows := y.ringrows, stride := y.stride
                             gen := v.gen + 2, scope := sc }
    let shut := s.setWin s.cc w.toNat { v with isOpen := false, gen := v.gen + 1 }
    let h' := (v.h + (s.sr a).toNat) % 2 ^ 64
    let hi := min (y.row0 + y.ringrows) y.rows
    let lo' := Nat.max (v.h + v.rows) h'
    let hi' := min (h' + v.rows) v.tensorRows
    let row := v.h + (s.sr a).toNat
    let inside := v.isOpen = true ∧ (s.sr a).toNat < v.rows ∧ row < v.tensorRows
    (s.copyCheck { x := x, sc := sc, cmd := .wopen, n := min y.ringrows (y.rows - y.row0) } r = none → s.copyFull = false →
      Lands (.wopen h x w sc) s (let u := rel.setWin s.cc w.toNat opened
        if y.row0 < hi then u.pushFetch (.wopen h x w sc) w.toNat y.row0 (hi - 1) else u)) ∧
    (v.isOpen = false → Ran (.wadv h a w) s s) ∧
    (v.isOpen = true → s.copyFull = false → Lands (.wadv h a w) s
      (let u := rel.setWin s.cc w.toNat { v with h := h' }
       if lo' < hi' then u.pushFetch (.wadv h a w) w.toNat lo' (hi' - 1) else u)) ∧
    Ran (.wclose h w) s shut ∧
    (∀ k, k < 4 → ∀ o ∈ (s.strand (4 * s.cc + k)).ops, o.cls = .row w.toNat v.gen row → o.done = false →
      { o with vals := [.w (BitVec.allOnes 64)], done := true } ∈ (shut.strand (4 * s.cc + k)).ops) ∧
    (¬inside → Ran (.wrow h d a w) s (s.sysResult d (BitVec.allOnes 64))) ∧
    (inside → row ∈ v.arrived → Ran (.wrow h d a w) s (s.sysResult d
      (BitVec.ofNat 64 (v.base + v.stride * ((row - (Lay.of v.record).row0) % v.rows))))) ∧
    (inside → row ∉ v.arrived → Ran (.wrow h d a w) s (s.block s.cur (.row w.toNat v.gen row) [rS d] [] 0 false).2) ∧
    ((wait = true → s.copyCount s.cur = 0) → Ran (.cpyst h d wait) s (s.sysResult d (BitVec.ofNat 64 (s.copyCount s.cur)))) ∧
    (s.copyCount s.cur ≠ 0 → Waits (.cpyst h d true) s .result)

/-! ## The matrix engine (10) -/

/-- R228, R232: each matrix-engine word enters the engine queue with what it captured, its tiles and accumulators within the plan, and its
issue is a release at the team's scope (17 R351, R354). R232: a matrix-engine word that names a tile or an accumulator outside the plan
traps ILLENC with reason 7. -/
def Obligations.EngineWords : Prop :=
  (∀ (s c : State) (h : Hdr) (ta tb : BitVec 3) (acc : BitVec 2) (sl : Slice) (reg : SReg) (v : VReg) (f1 f2 f3 f4 f5 f6 : Bool)
     (kb : BitVec 7) (n : HadN) (m : RMode) (w : Word), Runs s h (rS reg :: rV v :: Slice.regs sl) →
     let x := s.sr reg
     let cap (wr : Bool) : Option Vec := if wr then some (s.vr v) else none
     let dst (rd : Bool) : List Reg := if rd then [rV v] else []
     ∀ e ∈ [(Instr.tcfg h reg, ([] : List (BitVec 3)), ([] : List (BitVec 2)), Slice.whole, x, false, cap false, dst false),
       (.tzero h ta sl none, [ta], [], sl, 0, false, cap false, dst false),
       (.tzero h ta sl (some reg), [ta], [], sl, x, false, cap false, dst false),
       (.tmovv h ta sl v f1 f2 f3, [ta], [], sl, 0, false, cap f1, dst !f1), (.tmovt h ta tb, [ta, tb], [], .whole, 0, false, none, []),
       (.tcopy h ta tb sl, [ta, tb], [], sl, 0, false, none, []), (.tdec h ta tb sl, [ta, tb], [], sl, 0, false, none, []),
       (.tenc h ta tb sl reg f1, [ta, tb], [], sl, x, true, none, []),
       (.mma h ta tb acc f1 f2 f3 f4 f5 f6, [ta, tb], [acc], .whole, 0, false, none, []),
       (.mpt h ta reg kb, [ta], [], .whole, x, true, none, []), (.mga h ta acc f1, [ta], [acc], .whole, 0, false, none, []),
       (.mhad h ta tb sl n f1, [ta, tb], [], sl, 0, false, none, []), (.azero h acc sl f1, [], [acc], sl, 0, false, none, []),
       (.amovv h acc sl v f1, [], [acc], sl, 0, false, none, [rV v]),
       (.awrv h acc sl v f1 f2 f3, [], [acc], sl, 0, false, some (s.vr v), []),
       (.acvt h ta acc sl reg f1 f2 f3 f4, [ta], [acc], sl, x, true, none, []),
       (.ascl h acc sl reg, [], [acc], sl, x, false, none, []), (.abmax h acc sl v f1, [], [acc], sl, 0, false, none, [rV v]),
       (.rzero h acc sl, [], [acc], sl, 0, false, none, []), (.rmovv h acc sl v f1 f2, [], [acc], sl, 0, false, cap f1, dst !f1),
       (.mmode h m none, [], [], .whole, 0, false, none, []), (.mmode h m (some reg), [], [], .whole, x, false, none, [])],
       let (i, tiles, accs, sl, sop, conv, cap, dst) := e
       (∀ k ∈ tiles, k.toNat < s.planTiles) → (∀ k ∈ accs, k.toNat < s.planAccs) → s.co.equeue.length < Config.engineQueueLen →
       (cap.isSome = true → s.co.engCaps < Config.engineCaptures) →
       (if conv then s.captureCur sop else (s, .ok sop)) = (c, .ok w) → c.ms.bad = none →
       Lands i s (State.modCore ((c.block s.cur .engine dst [] 0 false).2.releaseAt s.cur (s.teamScopeOf s.cur)) s.cc (fun k => { k with
         equeue := k.equeue ++ [{ id := s.nextId, sid := s.cur, instr := i, word := s.wordAt s.cur, pc := s.st.pc, sop := w
                                  idx := s.sliceIdx sl, vcap := cap }] }))) ∧
  (∀ (s : State) (h : Hdr) (ta tb : BitVec 3) (acc : BitVec 2) (f1 f2 f3 f4 f5 f6 : Bool), Runs s h [] →
     (s.planTiles ≤ ta.toNat ∨ s.planTiles ≤ tb.toNat ∨ s.planAccs ≤ acc.toNat →
       Traps (.mma h ta tb acc f1 f2 f3 f4 f5 f6) s (illencAt s 7)) ∧
     (s.planTiles ≤ ta.toNat ∨ s.planTiles ≤ tb.toNat → Traps (.tmovt h ta tb) s (illencAt s 7)))

/-- R237: MMA writes each cell of M rows by N columns with the cell's own sum, from the old cell or from zero, and no other cell of any
accumulator; tiles, tags, residues and the table keep their contents. Without draws the generator stays too. R241, R242: what a half
line written by AWRV, RMOVV or TMOVV holds is what AMOVV, RMOVV or TMOVV of that half then reads, and the other cells keep their values.
-/
def Obligations.EngineEffects : Prop :=
  (∀ (c : Core) (bs : Books) (ta tb acc : Nat) (tr tr' sov sa sb clr : Bool), acc < 4 → c.eMode ≠ .sr →
     c.eM ≤ 128 → c.eN ≤ 128 →
     let z := c.mma bs ta tb acc tr tr' sov sa sb clr
     let ov (x : Bool) : Option Bool := if sov then some x else none
     let A := c.mmaSide bs ta tr (ov sa) c.eM c.eK
     let B := c.mmaSide bs tb tr' (ov sb) c.eN c.eK
     (∀ i j, i < c.eM → j < c.eN → Sparse.get z.acc 0 (acc * 16384 + i * 128 + j) = BitVec.ofNat 32
       (mmaCell c.eMode (A.getD i []) (B.getD j []) (if clr then 0 else (Sparse.get c.acc 0 (acc * 16384 + i * 128 + j)).toNat) c.eGen).1) ∧
     (∀ k, (∀ i j, i < c.eM → j < c.eN → k ≠ acc * 16384 + i * 128 + j) → Sparse.get z.acc 0 k = Sparse.get c.acc 0 k) ∧
     { z with acc := c.acc } = c) ∧
  (∀ (c : Core) (bs : Books) (h : Hdr) (acc : BitVec 2) (ta : BitVec 3) (xs : SReg) (xi : BitVec 7) (col hi add : Bool) (r : VReg)
     (v : Vec) (e : ECmd), e.idx < 128 → e.vcap = some v →
     let sl : Slice := if col then .col xs xi else .row xs xi
     let go (i : Instr) (c : Core) : Core × List RVal := c.engDo bs { e with instr := i }
     let cell (k : Nat) : Nat := (if hi then 64 else 0) + k
     let at' (k : Nat) : Nat := if col then cell k * 128 + e.idx else e.idx * 128 + cell k
     (go (.amovv h acc sl r hi) (go (.awrv h acc sl r hi false add) c).1).2 = [.v v] ∧
     (go (.tmovv h ta sl r false hi false) (go (.tmovv h ta sl r true hi false) c).1).2 = [.v v] ∧
     (go (.rmovv h acc sl r false hi) (go (.rmovv h acc sl r true hi) c).1).2 = [.v (vecOf (fun k => (lane v k).setWidth 16 |>.setWidth 32))] ∧
     (∀ k, (∀ j, j < 64 → k ≠ acc.toNat * 16384 + at' j) →
       Sparse.get (go (.awrv h acc sl r hi false add) c).1.acc 0 k = Sparse.get c.acc 0 k ∧
       Sparse.get (go (.rmovv h acc sl r true hi) c).1.res 0 k = Sparse.get c.res 0 k) ∧
     ∀ k, (∀ j, j < 64 → k ≠ ta.toNat * 16384 + at' j) →
       Sparse.get (go (.tmovv h ta sl r true hi false) c).1.tile 0 k = Sparse.get c.tile 0 k)

/-! ## Codebooks (09) -/

/-- R203, R206, R217: when a stamp is in the window of its codebook, and what STALECB says of one that is not. R220, R221: CBENC and
CBDEC, of FP32, of the other arithmetic codebooks and of a learned one. R208, R209: a word whose version is on the core has its result at
once; one whose version is not, or whose slots are late, issues and awaits it; where no slots can be had it traps ILLENC with reason 7. R223:
a codebook word waits while an earlier one of its strand waits for its version. -/
def Obligations.CodebookVectors : Prop :=
  (∀ (d : Dir) (cbid v : Nat) (addr : Word), d.current < 256 → d.floor < 256 → v < 256 → cbid < 4096 →
     let stale (reason stamp : Nat) : TrapInfo :=
       { cause := 0x10, aux := BitVec.ofNat 64 (reason * 2 ^ 20 + cbid * 2 ^ 8 + stamp), addr := addr }
     (d.valid v = true ↔
       (BitVec.ofNat 8 v - BitVec.ofNat 8 d.floor).toNat ≤ (BitVec.ofNat 8 d.current - BitVec.ofNat 8 d.floor).toNat) ∧
     d.checkLearned cbid v addr = (if d.kind = 0 then some (stale 2 0) else if d.kind = 3 then some (stale 3 0)
       else if d.valid v = false then some (stale 1 v) else none)) ∧
  (∀ (s c u : State) (h : Hdr) (sc : Bool) (d a : VReg) (b : SReg) (dir : Dir) (i : Nat), Runs s h [rV a, rS b, rV d] →
     let w := s.sr b
     let cbid := slc w 11 0
     let v := if w.getLsbD 20 then dir.current else slc w 19 12
     let xs := (s.vr a).toList.map (fun x => Machine.fp32.read x.toNat)
     let f := arithFmt cbid
     let E := arithEnc f (w.getLsbD 21) sc s.rmode s.st.srstate xs
     let scale (x : Nat) : Nat := if sc then x / 65536 % 256 else 127
     let idx := (s.vr a).toList.map (·.toNat)
     let D := decLanes s.rmode s.st.srstate (idx.map (fun x => (elemValue f (w.getLsbD 21) (x % 2 ^ dir.w)).under (scale x)))
     let L (data : List (BitVec 16)) := decLanes s.rmode s.st.srstate ((idx.take (64 / max 1 dir.d)).flatMap (fun x =>
       (dir.codeword data (x % 2 ^ dir.w)).map (fun k => k.under (scale x))))
     let drawn := (List.range 64).foldl (fun g _ => (drawIf s.rmode g).2) s.st.srstate
     let gen (u : State) (g : Word) : State := u.modSt (fun x => { x with srstate := g })
     let answer (u : State) (v : Vec) (fl : Flags) : State := (u.block s.cur (.codebook 0) [rV d] [.v v] fl true).2
     let enc := Instr.cbenc h sc d a b
     let dec := Instr.cbdec h sc d a b
     let req (i : Instr) : CbReq := { instr := i, word := s.wordAt s.cur, pc := s.st.pc, cbid := cbid, stamp := v, dir := dir, vec := s.vr a
                                      data := (w &&& ~~~0x1FF000#64) ||| BitVec.ofNat 64 (v * 2 ^ 12), rm := s.rmode, gen := s.st.srstate }
     let begun (u : State) : State := (u.block s.cur (.codebook 0) [rV d] [] 0 false).2
     let pends (u : State) (r : CbReq) : State := (begun u).modSt (fun x => { x with cbs := [{ r with id := u.nextId }] })
     let holds (u : State) (v : RVal × Flags) : State := (begun u).modSt (fun x => { x with
       ops := x.ops.map (fun o => if o.id == u.nextId then
         { o with cls := .codebook (i + 1), vals := [v.1], flags := v.2, done := true } else o) })
     (s.st.cbs ≠ [] → Waits enc s .result ∧ Waits dec s .result) ∧
     (s.st.cbs = [] → s.dirRead s.cc (s.asidOf s.cur) cbid = (c, .ok dir) → c.ms.bad = none → u.ms.bad = none →
       (dir.kind = 3 → cbid = 0 →
         Lands enc s (answer c (vecOf (fun k => if (xs.getD k (.fin false 0 0)).isNan then BitVec.ofNat 32 Machine.fp32.nanBits
           else lane (s.vr a) k)) (sigFlag xs)) ∧
         Lands dec s (answer c (vecOf (fun k => if (xs.getD k (.fin false 0 0)).isNan then BitVec.ofNat 32 Machine.fp32.nanBits
           else lane (s.vr a) k)) 0)) ∧
       (dir.kind = 3 → cbid ≠ 0 →
         Lands enc s (answer (gen c E.2.2) (vecOfList E.1) E.2.1) ∧ Lands dec s (answer (gen c D.2.2) (vecOfList D.1) D.2.1)) ∧
       (dir.checkLearned cbid v 0 = none →
         (c.needVersion s.cc cbid v dir = (u, .noSlot) → ∀ i ∈ [enc, dec], exec i s = out (c.trapIn s.cur (illencAt s 7) s.st.pc)) ∧
         (c.needVersion s.cc cbid v dir = (u, .miss) → Lands enc s (pends u (req enc)) ∧ Lands dec s (gen (pends u (req dec)) drawn)) ∧
         (c.needVersion s.cc cbid v dir = (u, .have' i) →
           (s.late = true → u.co.miss ≠ [] → Lands enc s (pends u { req enc with late := true }) ∧
             Lands dec s (gen (pends u { req dec with late := true }) drawn)) ∧
           (s.late = false ∨ u.co.miss = [] → Lands enc s (holds u ((req enc).value (u.co.payload i))) ∧
             Lands dec s (gen (holds u ((req dec).value (u.co.payload i))) drawn))) ∧
         ∀ data, (req enc).value data = (.v (vecOfList (dir.encLanes data sc xs)), 0) ∧
           (req dec).value data = (.v (vecOfList (L data).1), (L data).2.1))))

/-- R215-R219: CBLD, CBPIN, CBSTAT and CBFLOOR answer as the directory entry and the versions on the core say; CBLD and CBPIN of a version
that is not there issue and await it (R208). CBFLOOR moves the floor, drops every retired version that no command uses, and awaits the rest
(R219, R223). R218: CBREV writes the version after the current one, refuses a bad payload with status 1, and traps where its address is not
aligned or the window is full. R223: each waits while an earlier codebook word of its strand waits for its version. -/
def Obligations.CodebookWords : Prop :=
  (∀ (s c u : State) (h : Hdr) (d a : SReg) (cbid : BitVec 12) (dir : Dir) (i em : Nat), Runs s h [rS a, rS d] →
     let x := s.sr a
     let v := if x.getLsbD 8 then dir.current else slc x 7 0
     let f := slc x 7 0
     let asid := s.asidOf s.cur
     let answer (u : State) (w : Word) : State := (u.block s.cur (.codebook 0) [rS d] [.w w] 0 true).2
     let held := s.co.resident cbid.toNat v
     let pinned : Bool := match held with | some i => (s.co.slotAt i).pinned | none => false
     let good := dir.checkLearned cbid.toNat v 0 = none
     let status (code : Nat) : Word := BitVec.ofNat 64 ((if code = 0 then 0 else 2 ^ 63) + code * 256 + v)
     let begun (u : State) : State := (u.block s.cur (.codebook 0) [rS d] [] 0 false).2
     let pends (i : Instr) : State := (begun u).modSt (fun y => { y with
       cbs := [{ id := u.nextId, instr := i, word := s.wordAt s.cur, pc := s.st.pc, cbid := cbid.toNat, stamp := v, dir := dir
                 data := (x &&& ~~~0x1FF#64) ||| BitVec.ofNat 64 v, rm := s.rmode, gen := s.st.srstate }] })
     let holds (u : State) : State := u.modSt (fun y => { y with
       ops := y.ops.map (fun o => if o.id == c.nextId then { o with cls := .codebook 0, vals := [.w (status 0)], flags := 0, done := true } else o) })
     let cbld := Instr.cbld h d a cbid
     let cbpin := Instr.cbpin h d a cbid
     (s.st.cbs ≠ [] → ∀ i ∈ [cbld, cbpin, .cbstat h d a cbid, .cbfloor h d a cbid], Waits i s .result) ∧
     (s.st.cbs = [] → s.dirRead s.cc asid cbid.toNat = (c, .ok dir) → u.ms.bad = none → c.ms.bad = none →
       (good → c.needVersion s.cc cbid.toNat v dir = (u, .have' i) → Lands cbld s (holds (begun u))) ∧
       (good → c.needVersion s.cc cbid.toNat v dir = (u, .miss) → Lands cbld s (pends cbld)) ∧
       (good → x.getLsbD 9 = true → Lands cbpin s (answer
         (match held with | some i => c.modCore s.cc (fun k => k.pin i false) | none => c) (status 0))) ∧
       (good → x.getLsbD 9 = false → pinned = true → Lands cbpin s (answer c (status 0))) ∧
       (good → x.getLsbD 9 = false → pinned = false → s.planSlots s.cc < s.co.pinnedSlots + dir.k →
         Lands cbpin s (answer c (status 2))) ∧
       (good → x.getLsbD 9 = false → pinned = false → s.co.pinnedSlots + dir.k ≤ s.planSlots s.cc →
         (c.needVersion s.cc cbid.toNat v dir = (u, .have' i) →
           Lands cbpin s (holds ((begun u).modCore s.cc (fun k => k.pin i true)))) ∧
         (c.needVersion s.cc cbid.toNat v dir = (u, .miss) → Lands cbpin s (pends cbpin))) ∧
       (dir.kind ≠ 0 → c.versionEmax dir v = (u, .ok em) → Lands (.cbstat h d a cbid) s (answer u (BitVec.ofNat 64
         (em * 2 ^ 48 + dir.kind * 2 ^ 40 + held.getD 0 * 2 ^ 36 + pinned.toNat * 2 ^ 26 + held.isSome.toNat * 2 ^ 25 +
           (if dir.kind = 3 then decide (v = 0) else dir.valid v).toNat * 2 ^ 24 + v * 2 ^ 16 + dir.floor * 256 + dir.current)))) ∧
       (dir.checkLearned cbid.toNat f 0 = none →
         c.supWr s.cc asid kCohWr (c.dirVa asid cbid.toNat + 7) [BitVec.ofNat 8 f] = (u, none) →
         let z := u.dropRetired asid cbid.toNat dir.floor f
         Lands (.cbfloor h d a cbid) s
           (z.block s.cur (.floor cbid.toNat dir.floor f) [rS d] [.w (BitVec.ofNat 64 f)] 0 false).2 ∧
         ∀ k ∈ u.coresOf asid, ∀ j ∈ (z.core k).retired cbid.toNat dir.floor f, j ∈ u.busySlots k))) ∧
  (∀ (s c u w : State) (h : Hdr) (d a : SReg) (cbid : BitVec 12) (dir : Dir) (b : List Byte), Runs s h [rS a, rS d] →
     let n := (dir.current + 1) % 256
     let answer (u : State) (code : Nat) : State := (u.block s.cur (.codebook 0) [rS d]
       [.w (BitVec.ofNat 64 ((if code = 0 then 0 else 2 ^ 63) + code * 256 + n))] 0 true).2
     let room := (n + 256 - dir.floor) % 256 ≠ 255
     let clear := s.performed s.cur = true ∧ s.st.cbs = []
     ((s.sr a).toNat % 8 ≠ 0 → Traps (.cbrev h d a cbid) s { cause := 0x0C, aux := 0x300, addr := s.sr a }) ∧
     ((s.sr a).toNat % 8 = 0 → ¬clear → Waits (.cbrev h d a cbid) s .result) ∧
     ((s.sr a).toNat % 8 = 0 → clear →
       (s.releaseAt s.cur .package).dirRead s.cc (s.asidOf s.cur) cbid.toNat = (c, .ok dir) →
       dir.checkLearned cbid.toNat dir.current 0 = none →
       (¬room → exec (.cbrev h d a cbid) s = out (c.trapIn s.cur
         { cause := 0x11, aux := BitVec.ofNat 64 (cbid.toNat * 256 + dir.current) } s.st.pc)) ∧
       (room → c.loadRun s.cur (s.sr a).toNat dir.bytes = (u, .ok b) →
         (badPayload dir.kind dir.comp (halves b) = true → u.ms.bad = none → Lands (.cbrev h d a cbid) s (answer u 1)) ∧
         (badPayload dir.kind dir.comp (halves b) = false → u.writeVersion cbid.toNat n dir b = (w, none) → w.ms.bad = none →
           Lands (.cbrev h d a cbid) s (answer w 0)))))

/-! ## System registers, chains, keys, monitors (11) -/

/-- R266, R268, R425: SYSR reads a system register, and SYSW, a package release, writes one and returns what it held. A hash mask is
written only while its stack is evacuated, and the stack's lines are written back first (R253). R266: which bits of each system register
a write changes. -/
def Obligations.SystemRegisterWords : Prop :=
  (∀ (s : State) (h : Hdr) (d a : SReg) (reg : SysReg) (n : BitVec 3), RunsS s h [rS a, rS d] →
     let r := s.releaseAt s.cur .package
     let all := [Instr.sysw h d a reg, .syswHmask h d a n]
     Ran (.sysr h d reg) s (s.sysResult d (s.sysGet reg)) ∧ (s.performed s.cur = false → ∀ i ∈ all, Waits i s .result) ∧
     (s.performed s.cur = true →
       Lands (.sysw h d a reg) s (State.sysResult { r with sys := s.sys.put reg (s.sr a) } d (s.sysGet reg)) ∧
       (s.sys.evac.getLsbD n.toNat = false → Lands (.syswHmask h d a n) s (r.sysResult d (errWord 1))) ∧
       (s.sys.evac.getLsbD n.toNat = true → Lands (.syswHmask h d a n) s (State.sysResult
         (r.setMs (setHmask (flushStack r.ms n.toNat) n.toNat n.isLt ((s.sr a).setWidth 24))) d (s.sysGet (.hmask n)))))) ∧
  (∀ (s : State) (r q : SysReg) (w : Word),
     let t : State := { s with sys := s.sys.put r w }
     (q ≠ r → t.sysGet q = s.sysGet q) ∧
     (match r with
     | .qtbase | .ctxbase => t.sysGet r = w &&& 0x0000FFFFFFFFF000
     | .errbase => slc (t.sysGet r) 47 12 = slc w 47 12 ∧
         slc (t.sysGet r) 3 0 = (if slc w 3 0 ≤ 10 then slc w 3 0 else slc (s.sysGet r) 3 0)
     | .evac => t.sysGet r = w &&& 0xFF
     | .pwrcap => t.sysGet r = if 600 ≤ slc w 11 0 ∧ slc w 11 0 ≤ 2600 then w &&& 0xFFF else s.sysGet r
     | _ => t.sysGet r = s.sysGet r))

/-- R269-R271, R276: CHAIN, DEMOTE and KEYOP. The owner that a query of an id that is not open shows is open (log 59). R270: DEMOTE marks the lines of an open chain, of its own context unless in supervisor
mode. -/
def Obligations.ChainsAndKeys : Prop :=
  (∀ (s : State) (h : Hdr) (d a : SReg) (i : Nat), RunsS s h [rS a, rS d] → s.performed s.cur = true →
     let r := s.releaseAt s.cur .package
     let id := slc (s.sr a) 7 0
     let key := slc (s.sr a) 5 0
     let owner := s.chainOwner id
     let gen := keyGenOf s.ms key
     let gone := destroyKey r.ms key
     let tells (i : Instr) (code : Nat) : Prop := Lands i s (r.sysResult d (errWord code))
     (1 ≤ i → i ≤ 255 → s.chainOwner i = 0 → (∀ j, 1 ≤ j → j < i → s.chainOwner j ≠ 0) →
       Lands (.chainOpen h d a) s (let t := r.setChain i (key + 1)
         State.sysResult { t with pkg := { t.pkg with chainEnd := t.pkg.chainEnd.filter (· ≠ i) } } d (BitVec.ofNat 64 i))) ∧
     ((∀ j, 1 ≤ j → j ≤ 255 → s.chainOwner j ≠ 0) → tells (.chainOpen h d a) 1) ∧
     (owner = 0 → tells (.chainClose h d a) 2 ∧ ∃ n, n < 64 ∧ Lands (.chainQuery h d a) s
       (State.sysResult { r with draw := r.draw + 1 } d (BitVec.ofNat 64 (n * 256 + s.chainCount id % 2 ^ 32 * 65536)))) ∧
     (owner ≠ 0 → Lands (.chainQuery h d a) s
       (r.sysResult d (BitVec.ofNat 64 (1 + (owner - 1) * 256 + s.chainCount id % 2 ^ 32 * 65536)))) ∧
     (owner ≠ 0 → s.chainCount id ≠ 0 → tells (.chainClose h d a) 3) ∧
     (owner ≠ 0 → s.chainCount id = 0 → Lands (.chainClose h d a) s (let t := (r.setMs (demoteChain r.ms id)).setChain id 0
       State.sysResult { t with pkg := { t.pkg with chainEnd := t.pkg.chainEnd.filter (· ≠ id) } } d 0)) ∧
     (gen ≠ 0 → tells (.keyopGen h d a) 1) ∧
     (gen = 0 → Lands (.keyopGen h d a) s (State.sysResult (r.setMs { r.ms with
       keyGen := Sparse.set r.ms.keyGen 0 key r.ms.nextGen, nextGen := r.ms.nextGen + 1 }) d 0)) ∧
     (key = 0 → tells (.keyopDestroy h d a) 2) ∧ (key ≠ 0 → gen = 0 → tells (.keyopDestroy h d a) 3) ∧
     (key ≠ 0 → gen ≠ 0 → Lands (.keyopDestroy h d a) s ((r.setMs gone.2).sysResult d (BitVec.ofNat 64 (gone.1 % 2 ^ 32)))) ∧
     Lands (.keyopQuery h d a) s (r.sysResult d (if gen ≠ 0 then 1 else 0))) ∧
  (∀ (s : State) (h : Hdr) (d a : SReg), Runs s h [rS a, rS d] →
     let id := slc (s.sr a) 7 0
     let owner := s.chainOwner id
     let may := owner ≠ 0 ∧ (s.st.modeS = true ∨ owner = s.asidOf s.cur + 1)
     (¬may → Ran (.demote h d a) s (s.sysResult d (errWord 2))) ∧
     (may → Ran (.demote h d a) s ((s.setMs (demoteChain s.ms id)).sysResult d 0)) ∧
     ∀ holder line, holder < 256 → (getCopy (demoteChain s.ms id) holder line).data = (getCopy s.ms holder line).data ∧
       (getCopy (demoteChain s.ms id) holder line).dirty = (getCopy s.ms holder line).dirty ∧
       (demoteChain s.ms id).mem = s.ms.mem)

/-- R272-R275: MONCFG, MONRD and MONSNAP. The monitors of a MONSNAP hold after it what they held when it read them: what its own stores
would show them is not counted. -/
def Obligations.MonitorRecords : Prop :=
  ∀ (s c w : State) (h : Hdr) (d a b : SReg) (ps : List Part), Runs s h [rS a, rS b, rS d] →
    let id := slc (s.sr a) 7 0
    let m := s.mon id
    let cfg := s.sr b
    let new : Mon := { (if cfg.getLsbD 1 then ({} : Mon) else m) with cfg := cfg &&& ~~~2#64 }
    let may (m : Mon) : Bool := s.st.modeS || (!m.cfg.getLsbD 39 && slc m.cfg 47 40 == s.asidOf s.cur)
    let i := slc (s.sr b) 7 0
    let va := (s.sr a).toNat
    let k : AKind := { write := true }
    let ids := snapIds (slc (s.sr b) 3 0)
    let img := ids.flatMap (fun id => if may (c.mon id) then (c.mon id).bytes s.clock.ns else zeros 320)
    let left (id : Nat) : Mon := if cfg.getLsbD 4 && may (c.mon id) then { cfg := (c.mon id).cfg } else c.mon id
    let held := s.behind s.cur s.nextId true ps = true ∨ s.anyLocked (s.whoOf s.cur) .package false true ps = true
    (s.st.modeS = true → monCfgOk id cfg = false → Ran (.moncfg h d a b) s (s.sysResult d (errWord 1))) ∧
    (s.st.modeS = true → monCfgOk id cfg = true → Ran (.moncfg h d a b) s ((s.setMon id new).sysResult d 0)) ∧
    (may m = false → Traps (.monrd h d a b) s { cause := 0x03, aux := 0x1C }) ∧
    (may m = true → Ran (.monrd h d a b) s (s.sysResult d (match i with
      | 0 => m.cfg | 1 => m.count | 2 => m.sum | 3 => m.min.setWidth 64 | 4 => m.max.setWidth 64
      | i => if 16 ≤ i ∧ i ≤ 79 then (Sparse.get m.bins 0 (i - 16)).setWidth 64 else 0))) ∧
    (va % 64 ≠ 0 → Traps (.monsnap h d a b) s { cause := 0x0C, aux := 0x601, addr := s.sr a }) ∧
    (va % 64 = 0 → s.checkRuns (s.whoOf s.cur) k (runsOf va (320 * ids.length)) = (c, .ok ps) →
      (held → Waits (.monsnap h d a b) s .late) ∧
      (¬held → c.doWr (s.whoOf s.cur) k .package false va ps img = (w, none) → w.ms.bad = none →
        Lands (.monsnap h d a b) s
          ((ids.foldl (fun (u : State) id => u.setMon id (left id)) w).sysResult d (BitVec.ofNat 64 s.clock.ns))))

/-! ## The host, time, health (21, 22) -/

/-- R396, R397, R408, R409: HOSTSIG puts its message into the host's ring, and TIMEADJ steps, slews or sets the rate of package time. R408,
R409: how package time advances in a cycle: by the rate, at 0.999 of it while a slew is left, and never back. How a query reports the slew
and the rate is the model's reading (log 59). -/
def Obligations.HostAndTime : Prop :=
  (∀ (s : State) (h : Hdr) (d a b : SReg) (code : BitVec 15) (base j tail : Nat), Runs s h [rS a, rS b, rS d] →
     let r := s.releaseAt s.cur .package
     let x := (s.sr a).toInt
     let left : Word := 0 - BitVec.ofNat 64 s.clock.slew
     let m : HostMsg := { code := code.toNat, asid := s.asidOf s.cur, source := 0, team := ((s.teamOf s.cur).map (·.num)).getD 0
                          word0 := s.sr a, word1 := s.sr b }
     (s.performed s.cur = false → Waits (.hostsig h d a b code) s .result) ∧
     (s.performed s.cur = true → r.sigRoom = none → Lands (.hostsig h d a b code) s (r.sysResult d (errWord 1))) ∧
     (s.performed s.cur = true → r.sigRoom = some (base, j, tail) → (r.putMsg base j tail m).ms.bad = none →
       Lands (.hostsig h d a b code) s ((r.putMsg base j tail m).sysResult d 0)) ∧
     (s.st.modeS = true →
       Ran (.timeadjStep h d a) s (State.sysResult { s with clock := { s.clock with
         ns := s.clock.ns + x.toNat, slew := s.clock.slew + (0 - x).toNat } } d left) ∧
       Ran (.timeadjRate h d a) s (State.sysResult { s with clock := { s.clock with
         rate := BitVec.ofInt 32 (max (-500000) (min 500000 ((s.sr a).truncate 32).toInt)) } } d (s.clock.rate.setWidth 64)) ∧
       Ran (.timeadjQuery h d a) s (s.sysResult d left))) ∧
  (∀ c : Clock, c.sub < Config.subPerNs → c.slewSub < Config.subPerNs →
     let t := c.tick
     let total (c : Clock) : Nat := c.ns * Config.subPerNs + c.sub
     let owed (c : Clock) : Nat := c.slew * Config.subPerNs + c.slewSub
     let full := rateUnits c.rate
     total t + owed c = total c + owed t + full ∧ total c ≤ total t ∧ t.sub < Config.subPerNs ∧ t.slewSub < Config.subPerNs ∧
     (owed c = 0 → total t = total c + full) ∧ (full / 1000 ≤ owed c → owed t = owed c - full / 1000) ∧ t.rate = c.rate)

/-- R410: TRACE takes the next record of its ring: a ring that is not enabled answers with an error, and one that is gets the record stored
and its tail raised. The place of a record in a ring of no entries is open (log 40). -/
def Obligations.TraceWords : Prop :=
  ∀ (s c w u : State) (h : Hdr) (d a b : SReg) (code : BitVec 16) (p : Part) (bs old : List Byte), Runs s h [rS a, rS b, rS d] →
    let va := (s.sr a).toNat
    let k : AKind := { amo := true, write := true, cohOnly := true }
    let who := s.whoOf s.cur
    let base := field bs 0 8
    let count := field bs 8 8
    let tail := field bs 16 8
    let held := s.behind s.cur s.nextId true [p] = true ∨ s.anyLocked who .package false true [p] = true
    let r : FixReq := { id := s.nextId, instr := .trace h d a b code, word := s.wordAt s.cur, pc := s.st.pc
                        addr := BitVec.ofNat 64 (base + 32 * (tail % count)), mask := BitVec.ofNat 64 s.clock.ns, data := s.sr b
                        data2 := BitVec.ofNat 64 s.cycle }
    (va % 64 ≠ 0 → Traps (.trace h d a b code) s { cause := 0x0C, aux := 0x605, addr := s.sr a }) ∧
    (va % 64 = 0 → s.checkPage who k va 64 = (c, .ok p) →
      (held → Waits (.trace h d a b code) s .late) ∧
      (¬held → c.doRd who k .package false va [p] = (w, .ok bs) →
        (field bs 24 1 % 2 = 0 → w.ms.bad = none → Lands (.trace h d a b code) s (w.sysResult d (errWord 1))) ∧
        (field bs 24 1 % 2 = 1 → count ≠ 0 →
          w.rmwPart who { p with va := p.va + 16, pa := p.pa + 16, len := 8 } 8 (fun b => leBytes 8 (leNat b + 1)) = (u, .ok old) →
          (u.numbered.traceStore r).ms.bad = none →
          Lands (.trace h d a b code) s ((u.numbered.traceStore r).sysResult d (BitVec.ofNat 64 tail)))))

/-- R417-R423: WDOG, SPAREMAP, ECCINJ and ECCST. What WDOG returns for an arm or an off is open but for its clear bit 63 (log 42). -/
def Obligations.HealthWords : Prop :=
  ∀ (s : State) (h : Hdr) (d a b : SReg) (hold : BitVec 3) (dbl clr : Bool), RunsS s h [rS a, rS b, rS d] →
    let n := (s.sr a).toNat
    let w := s.pkg.wdog
    let kind := slc (s.sr a) 15 12
    let idx := slc (s.sr a) 11 0
    let die := slc (s.sr a) 1 0
    let unit := slc (s.sr a) 6 4
    let key := dieKey die unit
    let bit := slc (s.sr b) 7 0
    let flips := 2 ^ bit ||| (if dbl then 2 ^ ((bit + 1) % 256) else 0)
    let open' (i : Instr) (x : Wdog) : Prop := ∃ v : Word, v.getLsbD 63 = false ∧
      Ran i s (State.sysResult { (s.setWdog x) with draw := s.draw + 1 } d v)
    ((n = 0 ∨ 2 ^ 32 ≤ n) → Ran (.wdogArm h d a) s (s.sysResult d (errWord 1))) ∧
    (0 < n → n < 2 ^ 32 → open' (.wdogArm h d a) { w with on := true, us := n, due := s.clock.ns + 1000 * n }) ∧
    open' (.wdogOff h d a) { w with on := false } ∧
    Ran (.wdogQuery h d a) s ((s.setWdog { w with fired := false }).sysResult d
      (BitVec.ofNat 64 (w.fired.toNat * 2 ^ 63 + (if w.on then (w.due - s.clock.ns) / 1000 else 0)))) ∧
    Ran (.sparemap h d a) s (s.sysResult d (if spareIndexOk kind idx then s.spareGet kind idx else errWord 1)) ∧
    (2 ^ 39 ≤ n → Ran (.eccinj h d a b hold dbl) s (s.sysResult d (errWord 2))) ∧
    (n < 2 ^ 39 → Ran (.eccinj h d a b hold dbl) s (State.sysResult (s.setMs { s.ms with
      inject := Sparse.set s.ms.inject (0, 0) (dieKey (homeDie n) hold.toNat) (n / 32 + 1, flips) }) d 0)) ∧
    (unit = 7 → Ran (.eccst h d a clr) s (s.sysResult d (errWord 1))) ∧
    (unit ≠ 7 → Ran (.eccst h d a clr) s (State.sysResult
      (if clr then s.setMs { s.ms with uncorr := Sparse.set s.ms.uncorr 0 key 0, corr := Sparse.set s.ms.corr 0 key 0 } else s) d
      (BitVec.ofNat 64 (Sparse.get s.ms.uncorr 0 key * 2 ^ 32 + Sparse.get s.ms.corr 0 key))))

/-! ## Page tables and launches (18, 03) -/

/-- R385, R386: a TLBINV that nothing it covers holds back drops the translations that it names, and the table entries on their paths, as a
package release. R383, R384: PTEAMO returns the old entry and stores the new one in one operation; one whose strand has earlier accesses
that it must follow, or whose line is locked, issues and is performed later, and so is a DEC to zero while the context's ring of free frames
has no room; where it has, the frame is put there. R384: an address that is no multiple of 8, or none of HBM, traps. An access to the ring
that fails traps at the word (log 39). -/
def Obligations.TranslationWords : Prop :=
  (∀ (s : State) (h : Hdr) (d a b : SReg), RunsS s h [rS a, rS b, rS d] →
     let r := s.releaseAt s.cur .package
     let asid := some (slc (s.sr b) 5 0)
     (∀ e ∈ [(Instr.tlbinvPage h d a b, asid, some (s.sr a).toNat), (.tlbinvAsid h d a b, asid, none), (.tlbinvAll h d a b, none, none)],
       (s.performed s.cur = true → s.tlbBusy e.2.1 e.2.2 = false →
         Lands e.1 s ((r.setMs (dropTlb r.ms e.2.1 e.2.2)).sysResult d 0)) ∧
       ((s.performed s.cur = false ∨ s.tlbBusy e.2.1 e.2.2 = true) → Waits e.1 s .result)) ∧
     ∀ (ms : MemSys) (x : Option Nat) (y : Option Nat),
       let hit (asid : Nat) (pre : Nat → Prop) : Prop := (x = none ∨ x = some asid) ∧ (y = none ∨ ∃ v, y = some v ∧ pre v)
       (∀ e, e ∈ (dropTlb ms x y).tlb ↔ e ∈ ms.tlb ∧ ¬hit e.asid (fun v => e.vpn = v / (if e.block then 2 ^ 26 else 2 ^ 16))) ∧
       ∀ e, e ∈ (dropTlb ms x y).walks ↔ e ∈ ms.walks ∧ ¬hit e.asid (fun v => e.pre = v / 2 ^ (16 + 10 * e.level))) ∧
  (∀ (s c u w : State) (h : Hdr) (d a b b1 : SReg) (sc : Scope) (off : BitVec 16) (bs : List Byte) (tail : Nat) (room : Bool),
     RunsS s h [rS a, rS b, rS b1, rS d] → b1 = b + 1 →
     let pa := (s.sr a + off.signExtend 64).toNat
     let share (m : Word) : Nat := slc m 23 16
     let put (m : Word) (n : Nat) : Word := (m &&& ~~~0xFF0000#64) ||| BitVec.ofNat 64 (n * 65536)
     let dec := Instr.pteamoDec h d a b sc off
     let list : List (Instr × Word × Word × (Word → Word)) := [
       (.pteamoInc h d a b sc off, 0, 0, fun m => if share m = 255 then m else put m (share m + 1)),
       (dec, 0, 0, fun m => if share m = 0 then m else if share m = 1 then put m 0 &&& ~~~1#64 else put m (share m - 1)),
       (.pteamoCas h d a b sc off, s.sr b, s.sr b1, fun m => if m = s.sr b then s.sr b1 else m),
       (.pteamoOr h d a b sc off, s.sr b, 0, fun m => m ||| s.sr b), (.pteamoAndn h d a b sc off, s.sr b, 0, fun m => m &&& ~~~s.sr b)]
     let req (i : Instr) (x y : Word) : PteReq := { instr := i, pa := pa, x := x, y := y }
     let held (r : PteReq) : Prop := s.behind s.cur s.nextId true [r.part] = true ∨ Sparse.get s.ms.locks 0 (lockKey (pa / 64) hL2) ≠ 0
     let store (t : State) (r : PteReq) (f : Word → Word) : State × Except Nat (List Byte) :=
       (t.freeLines pa 8).rmwPart { core := rmCore, asid := 255 } r.part 8 (fun b => leBytes 8 (f (leWord b)).toNat)
     let later (i : Instr) (r : PteReq) : Prop := Lands i s (s.block s.cur (.pte r) [rS d] [] 0 false).2
     let m := leWord (peekBytes s.ms 0 pa 8)
     (pa % 8 = 0 → pa < 2 ^ 39 → ∀ e ∈ list, Instr.wf e.1 = true →
       let r := req e.1 e.2.1 e.2.2.1
       (held r → later e.1 r) ∧
       (¬held r → (e.1 ≠ dec ∨ share m ≠ 1) → store s r e.2.2.2 = (c, .ok bs) → c.ms.bad = none →
         Lands e.1 s (c.sysResult d (leWord bs))) ∧
       (¬held r → e.1 = dec → share m = 1 → s.ringRoom (s.asidOf s.cur) = (u, .ok (tail, room)) →
         (room = false → later dec r) ∧
         (room = true → u.ringPush (s.asidOf s.cur) tail m = (w, none) → store w r e.2.2.2 = (c, .ok bs) → c.ms.bad = none →
           Lands dec s (c.sysResult d (leWord bs))))) ∧
     (∀ e ∈ list, Instr.wf e.1 = true →
       (pa % 8 ≠ 0 → Traps e.1 s { cause := 0x0C, aux := 0x305, addr := BitVec.ofNat 64 pa }) ∧
       (pa % 8 = 0 → 2 ^ 39 ≤ pa → Traps e.1 s { cause := 0x0B, aux := 0x505, addr := BitVec.ofNat 64 pa })))

/-- R82-R84: LAUNCH, a package release, waits until its strand's accesses are performed, and then puts its record at the tail of a
device-fed queue of its context and returns the index. That a descriptor with a bad field raises no queue error here is the model's choice
(log 83). -/
def Obligations.LaunchWords : Prop :=
  ∀ (s c u w : State) (h : Hdr) (d : SReg) (x : BitVec 3) (q : BitVec 6) (qd : QDesc) (ps : List Part) (t : TrapInfo) (e : Option TrapInfo),
    Runs s h (rS d :: recRegs x) →
    (s.performed s.cur = false → Waits (.launch h d x q) s .result) ∧
    (s.performed s.cur = true → (s.releaseAt s.cur .package).qDesc q.toNat = (qd, c) → c.ms.bad = none →
    let asid := s.asidOf s.cur
    let va := qd.ring + 64 * (qd.tail % qd.entries)
    let mine := qd.enabled = true ∧ qd.deviceFed = true ∧ qd.asid = asid
    let who : Who := { core := rmCore, asid := asid, sup := true }
    let k : AKind := { cohOnly := true, write := true }
    let answer (u : State) (w : Word) : State := (u.block s.cur .launch [rS d] [.w w] 0 true).2
    (¬mine → Lands (.launch h d x q) s (answer c (errWord 2))) ∧
    (mine → c.checkRuns who k (runsOf va 64) = (u, .error t) → u.ms.bad = none → Lands (.launch h d x q) s (answer u (errWord 2))) ∧
    (mine → c.checkRuns who k (runsOf va 64) = (u, .ok ps) → u.ms.bad = none →
      (qd.fill = qd.entries → Lands (.launch h d x q) s (answer u (errWord 1))) ∧
      (qd.fill ≠ qd.entries → u.supWr rmCore asid k va ((s.record x).toList.flatMap (fun y => leBytes 8 y.toNat)) = (w, e) →
        let v := w.partWr (s.sys.qtbase.toNat + 64 * q.toNat + 0x20) (leBytes 8 (qd.tail + 1))
        v.ms.bad = none → Lands (.launch h d x q) s (answer v (BitVec.ofNat 64 qd.tail)))))

/-! ## Collectives (21) -/

/-- R402-R407: COLL starts a collective on a free slot, COLLST gives a slot's status, COLLAB stops a running one. A directory that COLL
cannot read fails the collective with reason 5 and is no trap (R405). -/
def Obligations.CollectiveWords : Prop :=
  ∀ (s c : State) (h : Hdr) (d : SReg) (x slot : BitVec 3) (nr : Option (BitVec 4)) (op : CollOp) (cmp wait : Bool) (tid : Nat) (t : Team)
    (r : Vector Word 8) (fail : Option Nat), Runs s h (rS d :: recRegs x) → s.cur < 768 → s.st.team = some tid → s.team tid = some t →
    let g := s.group (s.asidOf s.cur) (CollRec.of (s.record x)).group
    let y := t.coll slot
    let coll := Instr.coll h d x nr op cmp slot
    let ab := s.collAbort tid t slot y 3 4
    (s.badNr nr = true → Traps coll s (illencAt s 3)) ∧
    (s.badNr nr = false → collBad (s.record x) op cmp g 0 = none →
      (s.performed s.cur = false → Waits coll s .result) ∧
      (s.performed s.cur = true →
        (y.state = 1 → Lands coll s ((s.releaseAt s.cur .package).sysResult d (errWord 1))) ∧
        (y.state ≠ 1 → s.nrRoom nr = false → Waits coll s .notify) ∧
        (y.state ≠ 1 → s.nrRoom nr = true → s.captureColl (s.record x) cmp = (c, r, fail) → c.ms.bad = none →
          let begun := ((c.releaseAt s.cur .package).reserveNr nr).collStart tid slot r nr op cmp g
          let result := match fail with | none => begun | some n => begun.collCannot tid slot n
          result.ms.bad = none → Lands coll s (result.sysResult d 0)))) ∧
    (y.state = 1 → Waits (.collst h d true slot) s .result) ∧
    ((wait = false ∨ y.state ≠ 1) → Lands (.collst h d wait slot) s ((if 2 ≤ y.state then s.collAcquire s.cc y else s).sysResult d y.status)) ∧
    (y.state = 1 → ab.ms.bad = none →
      Lands (.collab h d slot) s (ab.sysResult d ((ab.myColl slot).elim 0 (fun e => e.2.2.status)))) ∧
    (y.state ≠ 1 → Ran (.collab h d slot) s (s.sysResult d y.status))

/-! ## Guards, schedules and privilege (02, 05, 18) -/

/-- R43, R61: a word whose guard makes it inactive, with its guard ready, only goes on: it waits for nothing else and reads nothing
else. VEXT also waits for the lane number that it reads. R116, R117: a word that names a register whose counter has not run out traps
SCHED with the lowest such register, and does nothing else. R118: a word that names a register awaiting a blocking result waits, with
nothing else done. -/
def Obligations.GuardsAndSchedules : Prop :=
  (∀ (s : State) (i : Instr) (h : Hdr), i.hdr? = some h → Clean s → ReadyRegs s [rP h.g] → s.pipeLost = false →
     (∀ sx k d a b, i ≠ .vext h sx k d a b) → (if Instr.laned i then s.lanesOn h = false else s.guardOn h = false) → Ran i s s) ∧
  (∀ (s : State) (h : Hdr) (d a b : SReg), Clean s → s.guardOn h = true → ReadyRegs s [rP h.g] →
     (∀ r ∈ [rS a, rS b, rS d], s.st.awaits r = false) →
     let late (r : SReg) : Prop := s.st.left s.now (rS r) ≠ 0
     ∀ r ∈ [a, b, d], late r → (∀ q ∈ [a, b, d], late q → r.toNat ≤ q.toNat) →
       let aux := (if r = d then 2 ^ 24 else 0) + s.st.left s.now (rS r) * 2 ^ 16 + r.toNat
       Traps (.add h d a b) s { cause := 0x04, aux := BitVec.ofNat 64 aux }) ∧
  (∀ (s : State) (h : Hdr) (d a b : SReg), Clean s → s.guardOn h = true →
     (s.st.awaits (rP h.g) = true ∨ ∃ r ∈ [a, b, d], s.st.awaits (rS r) = true) → Waits (.add h d a b) s .result)

/-- R368: each supervisor word traps PRIVOP at its word in user mode, with its opcode, and a CSR's number above it. -/
def Obligations.PrivilegedWordsTrap : Prop :=
  ∀ (s : State) (h : Hdr) (d a b b1 : SReg) (c : Csr) (sc : Scope) (off : BitVec 16) (reg : SysReg) (n hold : BitVec 3) (f : Bool),
    Runs s h [rS a, rS b, rS b1, rS d] → b1 = b + 1 → b.toNat < 63 → s.st.modeS = false →
    (∀ e ∈ [(Instr.moncfg h d a b, 0x1B), (.tlbinvPage h d a b, 0x1D), (.tlbinvAsid h d a b, 0x1D), (.tlbinvAll h d a b, 0x1D),
      (.pteamoInc h d a b sc off, 0x1E), (.pteamoDec h d a b sc off, 0x1E), (.pteamoCas h d a b sc off, 0x1E),
      (.pteamoOr h d a b sc off, 0x1E), (.pteamoAndn h d a b sc off, 0x1E), (.chainOpen h d a, 0xE7), (.chainClose h d a, 0xE7),
      (.chainQuery h d a, 0xE7), (.keyopGen h d a, 0xE9), (.keyopDestroy h d a, 0xE9), (.keyopQuery h d a, 0xE9),
      (.sysr h d reg, 0xEA), (.sysw h d a reg, 0xEB), (.syswHmask h d a n, 0xEB), (.timeadjStep h d a, 0xED), (.timeadjRate h d a, 0xED),
      (.timeadjQuery h d a, 0xED), (.wdogArm h d a, 0xF0), (.wdogOff h d a, 0xF0), (.wdogQuery h d a, 0xF0), (.sparemap h d a, 0xF1),
      (.eccinj h d a b hold f, 0xF2), (.eccst h d a f, 0xF3)],
      Traps e.1 s { cause := 0x03, aux := e.2 }) ∧
    (Csr.sup c = true → ∀ e ∈ [(Instr.csrr h d c, 0x12), (.csrw h d a c, 0x13), (.csrs h d a c, 0x14), (.csrc h d a c, 0x15)],
      Traps e.1 s { cause := 0x03, aux := BitVec.ofNat 64 (256 * (Csr.enc c).toNat + e.2) })

/-! ## Events (table rows that no word names) -/

/-- R105, R106, R123, R125, R365: the events of one strand that stands on a core: its instant has come, or it enters a block, goes on past
one that holds no work for it, or leaves its own; R64, R103: a block that is malformed, or not in the instruction cache; R110: a tightrope
that is too short. A strand goes past at most four blocks in a cycle. -/
def Obligations.StrandEvents : Prop :=
  ∀ (s u : State) (k t n d : Nat) (va : Word) (p : Part) (b : Block), s.ms.bad = none → s.ev = .strand k →
    let c : State := { s with cur := k }
    let x := s.strand k
    let base := va &&& ~~~63#64
    let w := u.commitPage (c.whoOf k) kFetch p
    let hit := w.setMs (icTouch w.ms (icKey (clusterOf (coreOf k)) p.pa))
    let beat : Bool := b.header.getLsbD 31 && !x.quiet && x.handlers == 0
    let work := b.holdsWork x.role.toNat (slc va 5 3 - 1)
    let inside : State := hit.modSt (fun x => Strand.capture (if beat then { x with beat := x.beat + 1 } else x) va b)
    (x.until' = some t → t ≤ s.clock.ns → Happens .wakeatExpiry s (c.modSt (fun x => Strand.advance { x with until' := none }))) ∧
    (x.yieldTo = some n → n < s.cycle → Happens .yieldExpiry s (c.modSt (fun x => Strand.advance { x with yieldTo := none }))) ∧
    (x.mwait = some { until' := some t, d := d } → t ≤ s.clock.ns → x.wake = false → c.frozen (coreOf k) = false →
      Happens .mwaitTimeout s ((c.modSt (fun x => (Strand.advance { x with arms := [], wake := false, mwait := none }).didIssue)).sysResult
        (BitVec.ofNat 6 d) 1)) ∧
    (c.mayIssue = true → x.entry = none → x.blk = some (base, b) → b.nextSlot x.role.toNat (slotOf x.pc) = none →
      Happens .blockEntry s (c.modSt (fun x => x.enter (base + 72)))) ∧
    (c.mayIssue = true → x.entry = some va → c.checkPage (c.whoOf k) kFetch base.toNat 64 = (u, .ok p) → w.ms.bad = none →
      (w.icGet (clusterOf (coreOf k)) p.pa = none →
        Happens .blockEntry s ((w.askFill (clusterOf (coreOf k)) p.pa (slc p.leaf.pte 15 10) (w.asidOf k) base.toNat).waits .fill)) ∧
      (w.icGet (clusterOf (coreOf k)) p.pa = some b →
        (0 < x.skips → (work = true ∨ 4 ≤ x.skips) → Happens .blockEntry s (hit.modSt (fun x => { x with tried := true }))) ∧
        (x.skips = 0 ∨ (work = false ∧ x.skips < 4) →
          (b.bad = none → beat = true → hit.ropeOk k = false → Happens .blockEntry s (hit.waits .tight)) ∧
          (b.bad = none → (beat = true → hit.ropeOk k = true) → work = true → Happens .blockEntry s inside) ∧
          (b.bad = none → (beat = true → hit.ropeOk k = true) → work = false →
            Happens .blockEntry s (inside.modSt (fun x => { x.enter (base + 72) with skips := x.skips + 1 }))) ∧
          ∀ op r, b.bad = some { slot := none, illop := op, reason := r } →
            exec .blockEntry s = out (hit.trapIn k { cause := if op then 1 else 2, aux := BitVec.ofNat 64 (255 * 256 + r.toNat) } base))))

/-- R117-R119, R289, R294, R369, R384: results that arrive, requests that are answered or are not in time, the trap that a failed
operation or a reserved REP field raises at the strand's next word, and a PTEAMO that is performed after its word. A store or an atomic
that has been performed has its reply in time, a PTEAMO that then fails kills its context, and a request is performed while its core
stands still, its reply held back: these are the model's choices (logs 79, 39, 80). -/
def Obligations.ResultEvents : Prop :=
  ∀ (s : State) (k n : Nat) (g : BitVec 3) (ans : RemoteAns) (o : Pend) (r : QReq) (q : PteReq) (rest : List (Nat × PteReq)) (d : SReg)
    (v word : Word) (t : TrapInfo),
    s.ms.bad = none →
    let x := s.xs k
    let a := State.atWord { s with cur := k }
    let late := r.issued + 2 ^ 22 ≤ s.cycle ∧ (r.performed = true → (qKind r.instr).writes = false)
    let arrive (u : State) (r : QReq) : State := u.qArrive k g r
    (s.ev = .strand k → a.mayIssue = true →
      (a.st.oldestFailed = some t → (a.trapIn k t a.trapPc).ms.bad = none → Happens .trapEntry s (a.trapIn k t a.trapPc)) ∧
      (a.st.oldestFailed = none → a.badWord = some (word, t) → laneGuarded (fOpc word) = false →
        a.st.awaits (rP (fHdr word).g) = false → a.st.left a.now (rP (fHdr word).g) = 0 →
        (a.guardOn (fHdr word) = true → exec .trapEntry s = out (a.trapIn k t a.st.pc)) ∧
        (a.guardOn (fHdr word) = false → Happens .trapEntry s a.goneOn))) ∧
    (s.ev = .result k n → k < 768 → s.frozen (coreOf k) = false → x.ops.find? (fun o => o.id == n) = some o →
      (o.done = true → (o.cls = .system ∨ o.cls = .launch ∨ (∃ i, o.cls = .codebook i) ∨ ∃ q, o.cls = .pte q) →
        (s.deliver k n).ms.bad = none →
        Happens .blockingResultArrival s (s.deliver k n) ∧
        (o.frame = none → o.dst = [rS d] → o.vals = [.w v] → ((s.deliver k n).strand k).sr d = if d = 0 then 0 else v)) ∧
      ∀ cb lo hi, o.done = false → o.cls = .floor cb lo hi →
        let u := s.dropRetired (s.asidOf k) cb lo hi
        (u.holdsRetired (u.asidOf k) cb lo hi = true → u.ms.bad = none → Happens .blockingResultArrival s u) ∧
        (u.holdsRetired (u.asidOf k) cb lo hi = false → (u.deliver k n).ms.bad = none →
          Happens .blockingResultArrival s (u.deliver k n))) ∧
    (s.ev = .tag k g ans → s.repliesHeld k = false → (x.tagAt g).req = some r → ¬late →
      (r.performed = true → (arrive s r).ms.bad = none → Happens .queuedReply s (arrive s r)) ∧
      (r.performed = false → r.lost = false →
        let w := if isFx r.instr then s.fxPerform k g r ans else s.qPerform k g r
        (if isFx r.instr then s.fxBehind k r = false else s.qHeld k r = false) →
        ∀ q, ((w.xs k).tagAt g).req = some q → q.performed = true → q.id = r.id → (arrive w q).ms.bad = none →
        Happens .queuedReply s (arrive w q))) ∧
    (s.ev = .tag k g ans → s.repliesHeld k = true → (x.tagAt g).req = some r → ¬late →
      (r.performed = true → Happens .queuedReply s s) ∧
      (r.performed = false → r.lost = false →
        let w := if isFx r.instr then s.fxPerform k g r ans else s.qPerform k g r
        (if isFx r.instr then s.fxBehind k r = false else s.qHeld k r = false) → w.ms.bad = none →
        Happens .queuedReply s w)) ∧
    (s.ev = .tag k g ans → (x.tagAt g).req = some r → late →
      Happens .queuedTimeout s (s.deferTrap k (.queued r g.toNat)
        { cause := 0x19, aux := BitVec.ofNat 64 ((fOpc r.word).toNat + 256 * g.toNat + 2048), addr := r.addr })) ∧
    (s.ev = .strand k → x.pteOps = (n, q) :: rest →
      (s.pteGo k n q = .wait → Happens .freeFrameRelease s s) ∧
      (∀ u e, s.pteGo k n q = .fail u e → (u.kill (u.asidOf k) 2).ms.bad = none →
        Happens .freeFrameRelease s (u.kill (u.asidOf k) 2)) ∧
      ∀ u m, s.pteGo k n q = .done u m → u.ms.bad = none →
        Happens .freeFrameRelease s (u.modXs k (fun x =>
          { x with ops := x.ops.map (fun o => if o.id == n then { o with vals := [.w m], done := true } else o) })))

/-- R119-R122, R228, R231, R232: the events of a core's matrix engine and clock enable, and the hang of a team. R208, R210, R321, R322,
R325, R329-R332, R344: the events of a core's copy engine and of its version misses. That the copy queues go on while the core stands still for a
late access that must still wait is the model's reading (log 80). When a command acts, and in what order late accesses are performed, are the
model's choices of a moment (logs 50, 54, 57), and so is what a window fetch does with a FAR page (log 55). -/
def Obligations.CoreEvents : Prop :=
  (∀ (s a b w : State) (k cause since tid : Nat) (t : Team) (e : ECmd) (rest : List ECmd) (ds : List (Nat × Nat × Dir)) (bs : Books)
     (slots : List Nat) (f : TrapInfo), s.ms.bad = none →
     let took := s.modCore k (fun c => { c with equeue := rest, erun := some e })
     let done (v : State) (ds : List (Nat × Nat × Dir)) : State :=
       let r := (v.core k).engDo bs e
       (v.setCore k { r.1 with erun := some { e with need := ds, slots := slots, acted := true } }).modXs e.sid (fun x =>
         { x with ops := x.ops.map (fun o => if o.id == e.id then { o with vals := r.2 } else o) })
     let freed := (s.modCore k (fun c => { c with erun := none })).deliver e.sid e.id
     let failed := ((coreSids k).foldl (fun (s : State) sid => s.freezeFail sid) s).freezeOver k
     (∀ u, s.ev = .core k →
       ((s.mayStart k = true ∧ (s.core k).erun = none ∧ (s.core k).equeue = e :: rest ∧ u = took) ∨
        (s.frozen k = false ∧ (s.core k).erun = some e ∧ e.acted = false ∧ u = s)) →
       let asid := u.asidOf e.sid
       let need := (u.core k).engNeed e
       u.dirs k asid need.2 = (a, .ok ds) →
       let all := need.1 ++ ds
       (dirFail ds 0 = some f → (a.engFail k f).ms.bad = none → Happens .engineCommandStart s (a.engFail k f)) ∧
       (dirFail ds 0 = none →
         (a.engCheck k asid e all = (b, some f) → (b.engFail k f).ms.bad = none → Happens .engineCommandStart s (b.engFail k f)) ∧
         (a.engCheck k asid e all = (b, none) →
           (b.needAll k [] all = (w, .error f) → (w.engFail k f).ms.bad = none → Happens .engineCommandStart s (w.engFail k f)) ∧
           (b.needAll k [] all = (w, .ok none) → w.ms.bad = none →
             Happens .engineCommandStart s (w.modCore k (fun c => { c with erun := some { e with need := all } }))) ∧
           (b.needAll k [] all = (w, .ok (some (bs, slots))) → w.ms.bad = none → Happens .engineCommandStart s (done w all))))) ∧
     (s.ev = .core k → (s.core k).erun = some e → e.acted = true → s.frozen k = false → freed.ms.bad = none →
       Happens .engineCommandComplete s freed) ∧
     (s.ev = .core k → s.mayThaw k = true → (s.thaw k).ms.bad = none → Happens .freezeEnd s (s.thaw k) ∧ (s.thaw k).frozen k = false) ∧
     (s.ev = .core k → ∀ ends, (s.core k).frozen = some { cause := cause, since := since, ends := ends } → since + 2 ^ 22 ≤ s.cycle →
       failed.ms.bad = none → Happens .freezeTimeout s failed ∧ failed.frozen k = false) ∧
     (s.ev = .team tid → s.team tid = some t → t.place = .resident → 2 ^ 24 ≤ t.hang → t.hangHold = false →
       (s.hang tid t).ms.bad = none → Happens .hangDetect s { s.hang tid t with cur := s.cur })) ∧
  (∀ (s u v : State) (k : Nat) (st : Bool) (e g : CCmd) (rest : List CCmd) (f : TrapInfo) (cbid : BitVec 12) (stamp : Byte) (m : VMiss)
     (dir : Dir) (bs : List Byte), s.ms.bad = none →
     let begun (u : State) (g : CCmd) : State := (u.modCore k (fun c => c.setCr st (some g))).tryLocks k st g
     let locked := s.tryLocks k st e
     (s.ev = .copyQueue k st →
       ((s.core k).cr st = none → (s.mayStart k = true ∨ (s.gated k = false ∧ s.copyNeeded k st = true)) → (s.core k).cq st = e :: rest →
         (s.olderAccess k e = true → Happens .copyCommandStart s s) ∧
         (s.olderAccess k e = false →
           (s.copyGo k e = .go u g → u.ms.bad = none → Happens .copyCommandStart s
             (begun (u.modCore k (fun c => c.setCq st rest)) { g with started := u.clock.ns, since := u.cycle })) ∧
           (s.copyGo k e = .fail u f → (u.copyFail k st f).ms.bad = none → Happens .copyCommandStart s (u.copyFail k st f)) ∧
           (s.copyGo k e = .hold u → u.ms.bad = none → Happens .copyCommandStart s u))) ∧
       ((s.core k).cr st = some e →
         (s.copyMoves k st = true → e.isTst = false → (s.copyRow k st e).ms.bad = none →
           Happens .copyCommandStart s (s.copyRow k st e)) ∧
         (s.copyMoves k st = true → e.isTst = true → (s.copyRetry k st e).ms.bad = none →
           Happens .copyCommandStart s (s.copyRetry k st e)) ∧
         (s.copyMoves k st = true → e.need = none → e.store = [] → e.writes = [] → e.parts = [] → (s.copyDone k st e).ms.bad = none →
           Happens .copyCommandComplete s (s.copyDone k st e)) ∧
         (e.noReply = true → e.since + 2 ^ 22 ≤ s.cycle → (s.copyFail k st (memtoWord e.word)).ms.bad = none →
           Happens .copyTimeout s (s.copyFail k st (memtoWord e.word))) ∧
         (e.store ≠ [] → locked.allLocks k e = true → e.keyless locked.ms = false → (locked.commitTst k st e).ms.bad = none →
           Happens .tileStoreCommit s (locked.commitTst k st e)) ∧
         (e.store ≠ [] → locked.allLocks k e = true → e.keyless locked.ms = true →
           (locked.copyFail k st (e.keyTrap locked.ms)).ms.bad = none →
           Happens .tileStoreCommit s (locked.copyFail k st (e.keyTrap locked.ms))) ∧
         (e.store ≠ [] → locked.allLocks k e = false → Happens .tileStoreCommit s locked))) ∧
     (s.ev = .version k cbid stamp → (s.core k).miss.find? (fun m => m.cbid == cbid && m.stamp == stamp) = some m →
       let asid := (((s.core k).team.bind s.team).bind (fun t => s.launch t.launch)).elim 0 (·.asid)
       (s.dirRead k asid cbid.toNat = (u, .ok dir) → u.supRd k asid kCohRd (dir.record stamp.toNat + 64) dir.bytes = (v, .ok bs) →
         let filled := ((v.setMs (monTimed v.ms (dieOf k) 0x0031 asid 0)).modCore k (fun c => c.fillMiss m (halves bs))).cbArrived k m
         filled.ms.bad = none → Happens .versionMissComplete s filled) ∧
       (m.start + 2 ^ 22 ≤ s.cycle → (s.versionTimeout k m).ms.bad = none → Happens .versionMissTimeout s (s.versionTimeout k m))))

/-- R23-R27, R102, R103: LOAD publishes an object that passes every check under the plan's free handle, and returns the status of one that
does not with the context as it was; UNLOAD refuses an unknown and a busy handle and takes an idle object away; a fill puts a block into its
cluster's instruction cache. That an UNLOAD which cannot free a cbid is refused as busy is the model's choice (log 86). The plan stands for
the loader's choices of addresses, frames and handle (logs 9, 24); logs 25, 26 and 86 hold the model's readings of the file and of what an
unload waits for. -/
def Obligations.LoaderEvents : Prop :=
  ∀ (s t : State) (asid : BitVec 6) (file : List Byte) (plan : LoadPlan) (z : Zof) (code cluster pa : Nat) (handle : BitVec 32) (o : Obj)
    (f : Fill), s.ms.bad = none →
    let rest : MemSys := { s.ms with fills := s.ms.fills.filter (fun e => e.at' ≠ icKey cluster pa) }
    let fill := readPa rest { partAcc with core := 4 * cluster, key := f.key } (pa / 64 * 64) 64
    (s.ev = .load asid file plan → s.handleFree plan = true →
      (zofParse file = .error code → Happens .load s (s.loadReturn code 0)) ∧
      (zofParse file = .ok z → s.loadObj asid.toNat plan z = .error code → Happens .load s (s.loadReturn code 0)) ∧
      (zofParse file = .ok z → s.loadObj asid.toNat plan z = .ok t → t.ms.bad = none →
        Happens .load s (t.loadReturn 0 plan.handle.toNat) ∧ ∃ o, t.objects = s.objects ++ [o] ∧ o.handle = plan.handle.toNat ∧ o.asid = asid.toNat)) ∧
    (s.ev = .unload asid handle →
      ((s.objsOf asid.toNat).find? (fun o => o.handle == handle.toNat) = none →
        Happens .unload s (s.loadReturn ldBADHANDLE handle.toNat)) ∧
      ((s.objsOf asid.toNat).find? (fun o => o.handle == handle.toNat) = some o →
        (s.objBusy o = true → Happens .unload s (s.loadReturn ldBUSY handle.toNat)) ∧
        (s.objBusy o = false → ∀ gone u,
          (dedup o.cbids).filter (fun c => !((s.objsOf o.asid).filter (fun x => x.handle ≠ o.handle)).any (fun x => x.cbids.contains c)) = gone →
          (s.freeBooks o.asid gone = none → Happens .unload s (s.loadReturn ldBUSY handle.toNat)) ∧
          (s.freeBooks o.asid gone = some u →
            let v := o.pages.foldl (fun (s : State) g => s.unmapPage o.asid g)
              { u with objects := u.objects.filter (fun x => !(x.asid == o.asid && x.handle == o.handle)) }
            v.ms.bad = none → Happens .unload s (v.loadReturn 0 handle.toNat))))) ∧
    (s.ev = .fill cluster pa → s.ms.fills.find? (fun e => e.at' == icKey cluster pa) = some f →
      (Sparse.get s.ms.locks 0 (lockKey (pa / 64) hL2) ≠ 0 → Happens .icFillComplete s s) ∧
      (Sparse.get s.ms.locks 0 (lockKey (pa / 64) hL2) = 0 → keyGenOf s.ms f.key ≠ 0 → fill.2.2 = none →
        (s.doFill cluster pa).ms.bad = none → Happens .icFillComplete s (s.doFill cluster pa) ∧
        (s.doFill cluster pa).icGet cluster pa = some (mkBlock fill.1)))

/-- R69-R71, R75, R78, R80, R84: the Ringmaster takes a record, reads a wait counter and dispatches. That a tail below head is an overrun, and
that a record or a completion slot with an uncorrectable error is a queue error, are the model's choices (log 83), and so is which groups
count as free for a further dispatch (log 65). -/
def Obligations.RingmasterEvents : Prop :=
  ∀ (s c u : State) (q : BitVec 6) (qd : QDesc) (b : List Byte) (id code : Nat) (l : Launch) (ps : List Part) (n : Nat) (ob : Obj)
    (rt : Routine), s.ms.bad = none →
    let rec' : Launch := { queue := q.toNat, index := qd.head, record := recordWords qd b, asid := qd.asid, takenAt := s.clock.ns }
    let new := u.freeLaunch
    let taken := ((u.partWr (u.qPa q.toNat + 0x28) (leBytes 8 (qd.head + 1))).setLaunch new (some rec')).writeCompletion rec' 0 0 0
    let who : Who := { core := rmCore, asid := l.asid }
    (s.ev = .queue q → s.qDesc q.toNat = (qd, c) → qd.enabled = true → qd.ok = true → qd.fill ≤ qd.entries → c.mayTake q.toNat qd = true →
      ∀ v, c.supRd rmCore qd.asid kCohRd (qd.ring + 64 * (qd.head % qd.entries)) 64 = (v, .ok b) →
      v.slotUsable qd.asid (qd.cring + 32 * (qd.head % qd.entries)) = (u, true) →
      (∀ z, taken.validate rec' = (z, .error code) → (z.rejectLaunch new rec' code).ms.bad = none →
        Happens .takeRecord s (z.rejectLaunch new rec' code)) ∧
      (∀ z, taken.validate rec' = (z, .ok (ob, rt)) → (z.accept new rec' ob rt).ms.bad = none →
        Happens .takeRecord s (z.accept new rec' ob rt))) ∧
    (s.ev = .queue q → s.qDesc q.toNat = (qd, c) → qd.enabled = true → (qd.ok = false ∨ qd.entries < qd.fill) →
      (s.scanQueue q.toNat).ms.bad = none → Happens .takeRecord s (s.scanQueue q.toNat)) ∧
    (s.ev = .queue q → s.qDesc q.toNat = (qd, c) → qd.enabled = true → qd.ok = true → qd.fill ≤ qd.entries → c.mayTake q.toNat qd = true →
      ∀ v x, c.supRd rmCore qd.asid kCohRd (qd.ring + 64 * (qd.head % qd.entries)) 64 = (v, x) →
      v.slotUsable qd.asid (qd.cring + 32 * (qd.head % qd.entries)) = (u, false) → (u.queueError q.toNat 2).ms.bad = none →
      Happens .takeRecord s (u.queueError q.toNat 2)) ∧
    (s.ev = .queue q → (s.scanQueue q.toNat).ms.bad = none → Happens .queueMonitorWake s (s.scanQueue q.toNat)) ∧
    (∀ v, (List.range 64).foldl (fun (s : State) q => s.scanQueue q) s = v → v.ms.bad = none → Happens .queueRescan s v) ∧
    (s.ev = .launch id → s.launch id = some l → l.phase = .waiting → s.counterParts l.asid l.waitaddr kCohRd = (c, some ps) →
      (c.commitParts who kCohRd ps).rdParts who .package false l.waitaddr ps = (u, .ok b) → leNat b = n →
      (l.waitval ≤ n → n < 2 ^ 63 → u.ms.bad = none →
        Happens .waitCounterRead s (u.setLaunch id (some { l with phase := .ready, readyAt := u.clock.ns }))) ∧
      (n < l.waitval → u.ms.bad = none → Happens .waitCounterRead s u) ∧
      (2 ^ 63 ≤ n → (u.retireLaunch id l 3).ms.bad = none → Happens .waitCounterRead s (u.retireLaunch id l 3))) ∧
    (s.ev = .launch id → s.launch id = some l → l.phase = .waiting → s.counterParts l.asid l.waitaddr kCohRd = (c, none) →
      ∀ v, (c.retireLaunch id l 3).postErr 0x0003 l.asid 0 (BitVec.ofNat 64 l.waitaddr) l.word = v → v.ms.bad = none →
      Happens .waitCounterRead s v) ∧
    (s.bestReady = some (id, l) →
      let d := State.holdGroups { (s.fresh.2.setLaunch id (some { l with phase := .dispatched, order := s.nextId })) with lastQueue := l.queue }
      let open' := s.launchList.all (fun e => !s.placing e.1 e.2) = true ∨
        ∃ c < 192, (s.core c).team = none ∧ (∀ e ∈ s.launchList, c ∉ e.2.held.flatMap (groupCores e.2.shape)) ∧ s.inService c = true
      (open' → d.ms.bad = none → Happens .dispatch s d) ∧ (¬open' → s.ms.bad = none → Happens .dispatch s s)) ∧
    (∀ a b : Launch, ∀ ns last, Launch.before ns last a b = true ↔
      let pa := min 7 (a.prio + (ns - a.readyAt) / 1000000)
      let pb := min 7 (b.prio + (ns - b.readyAt) / 1000000)
      let ta := (a.queue + 63 - last) % 64
      let tb := (b.queue + 63 - last) % 64
      pb < pa ∨ (pa = pb ∧ (ta < tb ∨ (ta = tb ∧ a.index < b.index))))

/-- R87-R101, R411, R412: teams are placed, stopped at their quantum, saved, restored, pre-empted and retired. R109, R134: a team placed for
the first time: what each of its strands starts with. The choices that the rules leave in this are the model's: the swap block that a team
gets, its layout and when it is usable (logs 43, 46, 53), teams without a frame slot (log 47), the order of victims and holds (log 65), and
what a save waits for (log 81). -/
def Obligations.TeamEvents : Prop :=
  (∀ (s : State) (id tid : Nat) (l : Launch) (t : Team), s.ms.bad = none →
     let held := s.holdGroups
     let vs := held.chooseVictims id l (held.waitingN id l) (held.victims l) []
     (s.ev = .launch id → held.launch id = some l → l.phase = .dispatched →
       (l.swap = true → (held.placeOne id l).ms.bad = none → Happens .placeTeam s (held.placeOne id l)) ∧
       (l.swap = false → (held.placeAll id l).ms.bad = none → Happens .placeTeam s (held.placeAll id l))) ∧
     (s.ev = .launch id → held.launch id = some l → held.ms.bad = none →
       (held.chosen id ≠ [] → (held.preemptSave id).ms.bad = none → Happens .preempt s (held.preemptSave id)) ∧
       (held.chosen id = [] → held.needsGroup id l = false → Happens .preempt s held) ∧
       (held.chosen id = [] → held.needsGroup id l = true → held.reserve id vs = none → Happens .preempt s held) ∧
       (held.chosen id = [] → held.needsGroup id l = true → ∀ u, held.reserve id vs = some u → (u.preemptSave id).ms.bad = none →
         Happens .preempt s (u.preemptSave id))) ∧
     (s.ev = .team tid → s.team tid = some t → s.launch t.launch = some l → t.place = .resident →
       (l.swap = true → t.stop = false → t.quantumAt + l.quantumNs ≤ s.clock.ns + 60000 →
         Happens .quantumDecision s (s.setTeam tid (some (if 0 < s.waitingN t.launch l then { t with stop := true, swapDue := true }
           else { t with quantumAt := t.quantumAt + l.quantumNs })))) ∧
       (t.swapDue = true → t.preempt = none → t.quantumAt + l.quantumNs ≤ s.clock.ns → s.quiescent t = true → (s.swapOut tid t l).ms.bad = none →
         Happens .swapOut s (s.swapOut tid t l)) ∧
       (s.teamDone t = true → (s.retireTeam tid t).ms.bad = none → Happens .teamRetire s (s.retireTeam tid t))) ∧
     (s.ev = .team tid → held.team tid = some t → held.launch t.launch = some l → t.place ≠ .resident →
       (l.swap = true → (held.swapInOne tid t l).ms.bad = none → Happens .swapIn s (held.swapInOne tid t l)) ∧
       (l.swap = false → (held.swapInAll t.launch l).ms.bad = none → Happens .swapIn s (held.swapInAll t.launch l)))) ∧
  (∀ (s : State) (tid num slot role : Nat) (l : Launch), role < 16 →
     let x := s.startStrand tid num slot role l
     (x.life = .live ∧ x.team = some tid ∧ x.role.toNat = role ∧ x.pc = l.entry + 8 ∧ x.entry = some x.pc ∧ x.rep = none) ∧
     (∀ r : SReg, x.sr r = 0) ∧ (∀ r : PReg, x.pr r = if r = 0 then BitVec.allOnes 64 else 0) ∧ (∀ r : VReg, ∀ i, lane (x.vr r) i = 0) ∧
     (x.fpctl = 0 ∧ x.srstate = 0x9E3779B900000000 + BitVec.ofNat 64 (num * 16 + role) ∧ x.carbase = 0 ∧ x.cardepth = 1 ∧ x.beat = 0) ∧
     (x.utrapvec = 0 ∧ x.utrapmask = 0 ∧ x.modeU = false ∧ x.modeS = (l.asid == 0)) ∧
     (x.strapvec = BitVec.ofNat 64 (s.ctxField l.asid 0x40 8) &&& ~~~63#64 ∧
       x.tframe = BitVec.ofNat 64 (s.ctxField l.asid 0x48 8 + 0x80000 * slot + 0x8000 * role)) ∧
     (x.ops = [] ∧ x.flagQ = [] ∧ x.replay = [] ∧ x.arms = [] ∧ x.wake = false ∧ ∀ g, x.tagAt g = {}))

/-- R388, R393, R395, R397, R421-R426, R429: the events of the host link, of the package's controllers and of reset. What places the host
message ring, and the steps of the power controller, come from outside the machine (logs 15, 82). What a host write and a kill do in detail,
and which fields a reset leaves, are the model's readings (logs 41, 49, 64). -/
def Obligations.PackageEvents : Prop :=
  ∀ (s : State) (pa n m : Nat) (bs : List Byte) (asid : BitVec 6) (seq : Word) (watts bits : BitVec 16) (gates : List (BitVec 4))
    (mask : BitVec 4) (w : Word), s.ms.bad = none → n < 48 → m < 132 →
    let log := s.postErr 0x0009 0xFF 0xFF (BitVec.ofNat 64 s.pkg.wdog.us) 0
    let sum := gates.foldl (fun n x => n + x.toNat) 0
    let change (c : SpareChange) (kind idx v : Nat) : Prop := s.ev = .spare c → s.spareFree kind idx = true →
      (s.spareSet kind idx v).ms.bad = none → Happens .spareMapChange s (s.spareSet kind idx v) ∧
        (s.spareSet kind idx v).spareGet kind idx = BitVec.ofNat 64 v
    let place := n / 12 * 16 + n % 12
    (s.ev = .hostWrite pa bs → rangeOk pa bs.length = true → (s.hostPut pa bs).ms.bad = none → Happens .hostWrite s (s.hostPut pa bs)) ∧
    (s.ev = .kill asid → (s.kill asid.toNat 1).ms.bad = none → Happens .hostKillRequest s (s.kill asid.toNat 1)) ∧
    (s.ev = .sync seq → ∀ u, s.postMsg 0x8004 0xFF 2 (BitVec.ofNat 64 s.clock.ns) seq = u → u.ms.bad = none →
      Happens .hostSyncRequest s u) ∧
    ((∀ pa j, s.ev ≠ .ring pa j) → ∀ u, s.pumpMsgs s.pkg.hostQ.length = u → u.ms.bad = none → Happens .hostMessagePost s u) ∧
    (s.ev = .ring pa n → ∀ u, (s.placeRing pa n).pumpMsgs s.pkg.hostQ.length = u → u.ms.bad = none → Happens .hostMessagePost s u) ∧
    (s.ev = .power watts gates → gates.length = 192 →
      (watts.toNat ≤ s.sys.pwrcap.toNat ∨ ∀ k, (h : k < gates.length) → (s.core k).gate ≤ gates[k]) →
      Happens .powerControlTick s (s.setPower watts gates) ∧
      (s.setPower watts gates).sysGet .pwrst = BitVec.ofNat 64 (watts.toNat * 65536 + sum * 4096 / 192 % 65536) ∧
      ∀ k, (_ : k < gates.length) → ((s.setPower watts gates).core k).gate = gates[k]) ∧
    (s.killAll.ms.bad = none → Happens .thermalLimit s s.killAll) ∧
    (s.pkg.wdog.on = true → s.pkg.wdog.due ≤ s.clock.ns → log.ms.bad = none →
      Happens .wdogExpiry s (log.setWdog { s.pkg.wdog with on := false, fired := true })) ∧
    (Happens .reset s s.restart ∧ s.restart.clock = {} ∧ s.restart.strands = [] ∧ s.restart.cores = [] ∧ s.restart.teams = [] ∧
      s.restart.launches = [] ∧ s.restart.objects = [] ∧ s.restart.ms.copies = [] ∧ s.restart.ms.tlb = [] ∧
      s.restart.ms.keyGen = [(0, 1)] ∧ (∀ a, a < 2 ^ 47 → memByte s.restart.ms a = 0) ∧
      s.restart.sys = { pkgid := s.sys.pkgid } ∧ s.restart.pkg.wdog = {} ∧ s.restart.pkg.chains = []) ∧
    change (.cluster place (m % 13)) 0 place (m % 13) ∧ change (.slice (n * 8) m) 1 (n * 8) m ∧
    change (.service place mask) 2 place mask.toNat ∧ change (.ways (n % 8) bits) 3 (n % 8) bits.toNat ∧
    change (.rows (n % 8) w) 4 (n % 8) w.toNat ∧ change (.lanes (n % 17) w) 5 (n % 17) w.toNat

/-- R398, R400, R401, R405-R407: the events of the fabric. When a collective writes, and how a request to this package itself is performed,
are the model's choices (logs 45, 62, 63). -/
def Obligations.FabricEvents : Prop :=
  ∀ (s c w : State) (r : RemoteReq) (p : Part) (e : TrapInfo) (ans : RemoteAns) (asid g : BitVec 6) (x : FabricGroup) (tid no : Nat)
    (i : BitVec 3) (reason : Byte) (peers : List (List Byte)) (t : Team), s.ms.bad = none →
    let who : Who := { core := rmCore, asid := r.asid }
    let k := RemoteOp.kind r.op
    let runs := runsOf r.va.toNat (RemoteOp.size r.op)
    let y := t.coll i
    let running := y.state = 1 ∧ y.group = g.toNat ∧ y.ordinal = no
    let stopped := s.collStop tid t i y 3 reason.toNat
    let failed := s.collAbort tid t i y 4 reason.toNat
    let full := s.collComplete tid t i y peers
    let key := 8 * g.toNat + i.toNat
    (s.ev = .remote r → RemoteReq.ok r = true →
      (s.ctxValid r.asid = false → Happens .remoteRequest s (s.answer (.fail 0x19 0))) ∧
      (s.ctxValid r.asid = true → s.checkRuns who k runs = (c, .error e) → c.ms.bad = none →
        Happens .remoteRequest s (c.answer (.fail e.cause e.aux))) ∧
      (s.ctxValid r.asid = true → s.checkRuns who k runs = (c, .ok [p]) → c.anyLocked who .package false k.writes [p] = true →
        Happens .remoteRequest s s) ∧
      (s.ctxValid r.asid = true → s.checkRuns who k runs = (c, .ok [p]) → c.anyLocked who .package false k.writes [p] = false →
        (c.commitParts who k [p]).remotePerform who r.va r.op p = (w, ans) → w.ms.bad = none →
        Happens .remoteRequest s (w.answer ans))) ∧
    (s.ev = .group asid g x → (FabricGroup.ok x = true ∨ x.valid = false) → ∃ u, Happens .fabricGroupWrite s u ∧
      (∀ a h, a < 64 → h < 64 → u.group a h = if a = asid.toNat ∧ h = g.toNat then x else s.group a h) ∧
      { u with pkg := { u.pkg with groups := s.pkg.groups } } = s) ∧
    (s.ev = .collSlot tid g i no reason peers → s.team tid = none → 1 ≤ reason.toNat → reason.toNat ≤ 5 → s.earlyAbort tid key no = none →
      Happens .collectiveAbortFlit s { s with pkg := { s.pkg with aborts := s.pkg.aborts ++ [(tid, key, no, reason.toNat)] } }) ∧
    (s.ev = .collSlot tid g i no reason peers → s.team tid = some t →
      (running → 1 ≤ reason.toNat → reason.toNat ≤ 5 → stopped.ms.bad = none → Happens .collectiveAbortFlit s stopped) ∧
      (¬running → 1 ≤ reason.toNat → reason.toNat ≤ 5 → Sparse.get t.collNo 0 key ≤ no → s.earlyAbort tid key no = none →
        Happens .collectiveAbortFlit s
          { s with pkg := { s.pkg with aborts := s.pkg.aborts ++ [(tid, key, no, reason.toNat)] } }) ∧
      (running → (reason = 1 ∨ reason = 2 ∨ reason = 5) → failed.ms.bad = none → Happens .collectiveFailure s failed) ∧
      (running → peers.length = y.members → full.ms.bad = none → Happens .collectiveComplete s full))

/-! ## The bytes of memory (11, 12, 17) -/

/-- What the passed pages of an access do to the bytes of memory, with no ECC error in place and each line accessed under one key and with
one attribute (R264): a read changes none, a write changes none but those that it stores, and those it stores unless its scope ends in the
core or the cluster (R249, R250, R254, R255; 17 R350); the flags A and D change no byte outside the page's own entry (R261). The one
exception is what software leaves to the caches: a line that a software-coherent copy has dirty, or that the access itself makes so, may
be written back when that copy has to leave. Nothing but the memory system changes. -/
def Obligations.PageFrames : Prop :=
  ∀ (s : State) (who : Who) (k : AKind) (sc : Scope) (stash : Bool) (va : Nat) (ps : List Part) (bs : List Byte) (km am : Nat → Nat),
    Held s.ms km am → keyLost s.ms ps = false →
    (∀ p ∈ ps, ∀ l, p.pa / 64 ≤ l → l * 64 < p.pa + p.len → km l = slc p.leaf.pte 15 10 ∧ am l = pteAttr p.leaf.pte) →
    let r := s.rdParts who sc stash va ps
    let w := s.wrParts who sc stash va ps bs
    let stored (x : Nat) : Prop := ∃ p ∈ ps, p.pa ≤ x ∧ x < p.pa + p.len
    let below (p : Part) : Prop := pteAttr p.leaf.pte = 1 ∧ (sc = .core ∨ sc = .cluster)
    let left (x : Nat) : Prop := ∃ p ∈ ps, below p ∧ p.pa / 64 ≤ x / 64 ∧ x / 64 * 64 < p.pa + p.len
    (r.1 = s.setMs r.1.ms ∧ Held r.1.ms km am ∧ (∀ x, ¬SwcDirty s.ms (x / 64) → homeByte r.1.ms km x = homeByte s.ms km x) ∧
      ∃ b, r.2 = .ok b ∧ ((∀ p ∈ ps, pteAttr p.leaf.pte ≠ 1) →
        b = ps.flatMap (fun p => (List.range p.len).map (fun i => homeByte s.ms km (p.pa + i))))) ∧
    (bs.length = (ps.map (·.len)).sum → w = (s.setMs w.1.ms, none) ∧ Held w.1.ms km am ∧
      (∀ x, ¬stored x → ¬left x → ¬SwcDirty s.ms (x / 64) → homeByte w.1.ms km x = homeByte s.ms km x) ∧
      ∀ p, ps = [p] → ¬below p → ∀ i, i < p.len → homeByte w.1.ms km (p.pa + i) = bs.getD i 0) ∧
    ∀ p ∈ ps, pteAttr p.leaf.pte ≠ 2 → p.leaf.ptePa % 8 = 0 → paOk p.leaf.ptePa = true → km (p.leaf.ptePa / 64) = 0 →
      am (p.leaf.ptePa / 64) = (if isHost p.leaf.ptePa then 3 else 0) →
      let c := s.commitPage who k p
      c = s.setMs c.ms ∧ Held c.ms km am ∧
      ∀ x, (x < p.leaf.ptePa ∨ p.leaf.ptePa + 8 ≤ x) → ¬SwcDirty s.ms (x / 64) → homeByte c.ms km x = homeByte s.ms km x
end

