-- ==== Sys2Proof/Laws/Memory.lean ====
section
/-! SUPPORT. What the accesses of the memory system keep: the canonical form of memory, the keys, the locks, and, where no ECC error is
in place, that none comes. Every lemma is about what follows `ms`, itself kept from `a`, so that they chain. -/

namespace Sys2Proof.Machine

/-- What no access changes, from `a` to `b`: memory stays canonical, and with no ECC error in place none comes. -/
structure Steady (a b : MemSys) : Prop where
  wf    : Memory.wf a.mem = true → Memory.wf b.mem = true
  bad   : b.bad = a.bad
  locks : b.locks = a.locks
  keys  : b.keyGen = a.keyGen ∧ b.nextGen = a.nextGen ∧ b.hmask = a.hmask
  fills : b.fills = a.fills
  ecc   : a.flips = [] → a.inject = [] → b.flips = [] ∧ b.inject = []

theorem Steady.rfl' (a : MemSys) : Steady a a := ⟨id, rfl, rfl, ⟨rfl, rfl, rfl⟩, rfl, fun h k => ⟨h, k⟩⟩
theorem Steady.trans {a b c : MemSys} (h : Steady a b) (k : Steady b c) : Steady a c :=
  ⟨fun x => k.wf (h.wf x), k.bad.trans h.bad, k.locks.trans h.locks,
    ⟨k.keys.1.trans h.keys.1, k.keys.2.1.trans h.keys.2.1, k.keys.2.2.trans h.keys.2.2⟩, k.fills.trans h.fills,
    fun x y => k.ecc (h.ecc x y).1 (h.ecc x y).2⟩

/-- Has no ECC error in place. -/
def NoEcc (ms : MemSys) : Prop := ms.flips = [] ∧ ms.inject = []
theorem Steady.noEcc {a b : MemSys} (h : Steady a b) (n : NoEcc a) : NoEcc b := h.ecc n.1 n.2

/-- A fold keeps what each of its steps keeps. -/
theorem foldl_keeps {α β : Type} {P : β → Prop} {f : β → α → β} (h : ∀ b x, P b → P (f b x)) (l : List α) (b : β) (p : P b) :
    P (l.foldl f b) := by
  induction l generalizing b with
  | nil => exact p
  | cons x l ih => exact ih _ (h b x p)

variable {a ms : MemSys}

/-! ## Monitors, ECC, copies, DRAM -/

theorem monEvent_steady (h : Steady a ms) (d e i p v : Nat) : Steady a (monEvent ms d e i p v) := h.trans ⟨id, rfl, rfl, ⟨rfl, rfl, rfl⟩, rfl, fun h k => ⟨h, k⟩⟩
theorem monTimed_steady (h : Steady a ms) (d e i p : Nat) : Steady a (monTimed ms d e i p) := h.trans ⟨id, rfl, rfl, ⟨rfl, rfl, rfl⟩, rfl, fun h k => ⟨h, k⟩⟩
theorem putCopy_steady (h : Steady a ms) (i l : Nat) (c : Copy) : Steady a (putCopy ms i l c) := h.trans ⟨id, rfl, rfl, ⟨rfl, rfl, rfl⟩, rfl, fun h k => ⟨h, k⟩⟩
theorem putUsed_steady (h : Steady a ms) (i l : Nat) (c : Copy) : Steady a (putUsed ms i l c) := h.trans ⟨id, rfl, rfl, ⟨rfl, rfl, rfl⟩, rfl, fun h k => ⟨h, k⟩⟩
theorem errs_steady (h : Steady a ms) (e : List (Nat × Nat)) : Steady a { ms with errs := e } := h.trans ⟨id, rfl, rfl, ⟨rfl, rfl, rfl⟩, rfl, fun h k => ⟨h, k⟩⟩
theorem wakes_steady (h : Steady a ms) (e : List Nat) : Steady a { ms with wakes := e } := h.trans ⟨id, rfl, rfl, ⟨rfl, rfl, rfl⟩, rfl, fun h k => ⟨h, k⟩⟩
theorem walks_steady (h : Steady a ms) (e : List WalkEntry) : Steady a { ms with walks := e } := h.trans ⟨id, rfl, rfl, ⟨rfl, rfl, rfl⟩, rfl, fun h k => ⟨h, k⟩⟩
theorem tlb_steady (h : Steady a ms) (e : List TlbEntry) : Steady a { ms with tlb := e } := h.trans ⟨id, rfl, rfl, ⟨rfl, rfl, rfl⟩, rfl, fun h k => ⟨h, k⟩⟩
theorem noteEcc_steady (h : Steady a ms) (e : Option (Nat × Nat)) : Steady a (noteEcc ms e) := by
  cases e
  · exact h
  · exact errs_steady h _

theorem eccRead_steady (h : Steady a ms) (code : Nat) (gs : List Nat) : Steady a (eccRead ms code gs).1 := by
  refine h.trans ?_
  unfold eccRead
  refine foldl_keeps (P := fun (b : MemSys × Bool) => Steady ms b.1) (fun b g k => k.trans ?_) gs (ms, false) (.rfl' _)
  obtain ⟨m, b⟩ := b
  dsimp only
  generalize homeDie (g * 32) = d
  generalize Sparse.get m.flips 0 (flipKey code g) = x
  by_cases h1 : x = 0
  · rw [if_pos h1]; exact .rfl' _
  · rw [if_neg h1]
    by_cases h2 : x &&& (x - 1) = 0
    · rw [if_pos h2]; exact ⟨id, rfl, rfl, ⟨rfl, rfl, rfl⟩, rfl, fun h k => ⟨h, k⟩⟩
    · rw [if_neg h2]; exact ⟨id, rfl, rfl, ⟨rfl, rfl, rfl⟩, rfl, fun h k => ⟨h, k⟩⟩
/-- With no ECC error in place a read finds none. -/
theorem eccRead_none (h : NoEcc ms) (code : Nat) (gs : List Nat) : eccRead ms code gs = (ms, false) := by
  unfold eccRead
  induction gs with
  | nil => rfl
  | cons g gs ih => simp only [List.foldl_cons, h.1, Sparse.get_nil]; simpa [h.1] using ih
theorem eccWrite_steady (h : Steady a ms) (code : Nat) (gs : List Nat) : Steady a (eccWrite ms code gs) := by
  refine h.trans ?_
  unfold eccWrite
  refine foldl_keeps (P := fun b => Steady ms b) (fun m g k => k.trans ?_) gs ms (.rfl' _)
  dsimp only
  split
  · refine ⟨id, rfl, rfl, ⟨rfl, rfl, rfl⟩, rfl, fun h k => ?_⟩
    simp_all
  · refine ⟨id, rfl, rfl, ⟨rfl, rfl, rfl⟩, rfl, fun h k => ?_⟩
    simp_all [Sparse.set]

theorem memSet_steady (h : Steady a ms) (w : List (Nat × Byte)) : Steady a (memSet ms w) := by
  refine h.trans ⟨fun h => ?_, rfl, rfl, ⟨rfl, rfl, rfl⟩, rfl, fun h k => ⟨h, k⟩⟩
  exact foldl_keeps (P := fun (m : Sparse Byte) => Sparse.wf m 0 = true) (fun m e k => Sparse.wf_set e.1 e.2 k) w ms.mem h
theorem setOrg_steady (h : Steady a ms) (s : Nat) : Steady a (setOrg ms s) := h.trans ⟨id, rfl, rfl, ⟨rfl, rfl, rfl⟩, rfl, fun h k => ⟨h, k⟩⟩

theorem dramStore_steady (h : Steady a ms) (line gen : Nat) (w : LineWrite) : Steady a (dramStore ms line gen w) := by
  unfold dramStore
  dsimp only
  split
  · exact memSet_steady h _
  · refine foldl_keeps (P := fun b => Steady a b) (fun m i k => ?_) _ ms h
    split
    · refine setOrg_steady (k.trans ?_) _
      exact ⟨(memSet_steady (.rfl' m) _).wf, rfl, rfl, ⟨rfl, rfl, rfl⟩, rfl, fun h k => ⟨h, k⟩⟩
    · exact k
theorem dramRead_steady (h : Steady a ms) (i l k : Nat) (s : BitVec 4) : Steady a (dramRead ms i l k s).2.1 := by
  unfold dramRead
  dsimp only
  split
  · exact h
  · exact eccRead_steady (monTimed_steady (monEvent_steady h ..) ..) ..
theorem dramRead_none (n : NoEcc ms) (i l k : Nat) (s : BitVec 4) : (dramRead ms i l k s).2.2 = false := by
  unfold dramRead
  dsimp only
  split
  · rfl
  · rw [eccRead_none (by exact n)]
theorem dramPut_steady (h : Steady a ms) (i l k : Nat) (w : LineWrite) : Steady a (dramPut ms i l k w) := by
  unfold dramPut
  dsimp only
  split
  · exact dramStore_steady h ..
  · exact dramStore_steady (eccWrite_steady (monEvent_steady h ..) ..) ..
theorem dramWrite_steady (h : Steady a ms) (i l k : Nat) (w : LineWrite) : Steady a (dramWrite ms i l k w).1 := by
  unfold dramWrite
  dsimp only
  split
  · exact dramStore_steady h ..
  · generalize hm : (if (wPart l w).isEmpty = true then ms
        else monTimed (monEvent ms (homeDie (l * 64)) 0x0001 i (l * 64) 1) (homeDie (l * 64)) 0x0003 i (l * 64)) = m
    have e : Steady a m := by
      rw [← hm]
      split
      · exact h
      · exact monTimed_steady (monEvent_steady h ..) ..
    split
    · exact eccRead_steady e ..
    · exact dramPut_steady (eccRead_steady e ..) ..
theorem dramWrite_none (n : NoEcc ms) (i l k : Nat) (w : LineWrite) : (dramWrite ms i l k w).2 = false := by
  unfold dramWrite
  dsimp only
  split
  · rfl
  · rw [eccRead_none (by split <;> exact n)]
    rfl

/-! ## Write-backs and evictions -/

theorem toDram_steady (h : Steady a ms) (line : Nat) (c : Copy) : Steady a (toDram ms line c) := by
  unfold toDram
  dsimp only
  split
  · exact h
  · split
    · exact errs_steady (dramWrite_steady h ..) _
    · exact dramWrite_steady h ..
theorem evictMsc_steady (h : Steady a ms) (line : Nat) : Steady a (evictMsc ms line) := by
  unfold evictMsc
  dsimp only
  split
  · exact h
  · generalize hq : (if (getCopy ms hMsc line).dirty = 0 then (putCopy ms hMsc line {}, false)
        else eccRead (putCopy ms hMsc line {}) 1 (gransOf line (getCopy ms hMsc line).dirty)) = q
    have e : Steady a q.1 := by
      rw [← hq]
      split
      · exact putCopy_steady h ..
      · exact eccRead_steady (putCopy_steady h ..) ..
    split
    · exact errs_steady e _
    · exact toDram_steady e ..
theorem enterMsc_steady (h : Steady a ms) (line : Nat) (c : Copy) : Steady a (enterMsc ms line c) := by
  unfold enterMsc
  dsimp only
  refine putUsed_steady (eccWrite_steady ?_ ..) ..
  split
  · exact evictMsc_steady h _
  · exact h
theorem evictL2_steady (h : Steady a ms) (line : Nat) : Steady a (evictL2 ms line) := by
  unfold evictL2
  dsimp only
  have e := putCopy_steady h hL2 line {}
  split
  · exact h
  · split
    · exact toDram_steady e ..
    · split
      · exact errs_steady (eccRead_steady e ..) _
      · exact enterMsc_steady (eccRead_steady e ..) ..
theorem roomL2_steady (h : Steady a ms) (line : Nat) : Steady a (roomL2 ms line) := by
  unfold roomL2
  split
  · exact evictL2_steady h _
  · exact h
theorem liftMsc_steady (h : Steady a ms) (line : Nat) : Steady a (liftMsc ms line).1 := by
  unfold liftMsc
  dsimp only
  split
  · exact h
  · split
    · exact eccRead_steady h ..
    · exact putUsed_steady (eccWrite_steady (roomL2_steady (putCopy_steady (eccRead_steady h ..) ..) _) ..) ..
theorem liftMsc_none (n : NoEcc ms) (line : Nat) : (liftMsc ms line).2 = false := by
  unfold liftMsc
  dsimp only
  split
  · rfl
  · rw [eccRead_none n]
    rfl
theorem mergeHome_steady (h : Steady a ms) (line : Nat) (c : Copy) : Steady a (mergeHome ms line c) := by
  unfold mergeHome
  dsimp only
  generalize hq : (if (getCopy ms hL2 line).valid = 0 then liftMsc ms line else (ms, false)) = q
  have e : Steady a q.1 := by
    rw [← hq]
    split
    · exact liftMsc_steady h _
    · exact h
  refine putUsed_steady (eccWrite_steady (roomL2_steady ?_ _) ..) ..
  split
  · exact errs_steady (putCopy_steady e ..) _
  · exact e
theorem cleanClus_steady (h : Steady a ms) (clus line : Nat) : Steady a (cleanClus ms clus line) := by
  unfold cleanClus
  dsimp only
  split
  · exact h
  · exact putCopy_steady (wakes_steady (mergeHome_steady h ..) _) ..
theorem evictClus_steady (h : Steady a ms) (clus line : Nat) : Steady a (evictClus ms clus line) :=
  putCopy_steady (cleanClus_steady h ..) ..
theorem roomClus_steady (h : Steady a ms) (clus line : Nat) (swc : Bool) : Steady a (roomClus ms clus line swc) := by
  unfold roomClus
  dsimp only
  generalize hq : (if ((getCopy ms (hClus clus) line).valid ≠ 0 && (getCopy ms (hClus clus) line).swc ≠ swc) = true then
    evictClus ms clus line else ms) = q
  have e : Steady a q := by
    rw [← hq]
    split
    · exact evictClus_steady h ..
    · exact h
  split
  · exact evictClus_steady e ..
  · exact e
theorem cleanStash_steady (h : Steady a ms) (core line : Nat) : Steady a (cleanStash ms core line) := by
  unfold cleanStash
  dsimp only
  split
  · exact h
  · exact putCopy_steady (putUsed_steady (roomClus_steady h ..) ..) ..
theorem evictLine_steady (h : Steady a ms) (i line : Nat) : Steady a (evictLine ms i line) := by
  unfold evictLine
  split
  · exact putCopy_steady (cleanStash_steady h ..) ..
  · split
    · exact evictClus_steady h ..
    · split
      · exact evictL2_steady h _
      · exact evictMsc_steady h _
theorem makeRoom_steady (h : Steady a ms) (x : Acc) (i line : Nat) : Steady a (makeRoom ms x i line) := by
  unfold makeRoom
  split
  · exact evictLine_steady h ..
  · exact h
/-- Folding steady steps is steady. -/
theorem foldl_steady {α : Type} {f : MemSys → α → MemSys} (h : Steady a ms) (k : ∀ m x, Steady a m → Steady a (f m x)) (l : List α) :
    Steady a (l.foldl f ms) := foldl_keeps (P := fun b => Steady a b) k l ms h
theorem flushLine_steady (h : Steady a ms) (line : Nat) : Steady a (flushLine ms line) := by
  unfold flushLine
  have e := foldl_steady h (fun m i k => evictLine_steady k i line) ((holdersOf ms line).filter (· < 192))
  exact evictMsc_steady (evictL2_steady (foldl_steady e (fun m i k => evictLine_steady k i line) _) _) _

/-! ## Coherence and the home slice -/

theorem recallLine_steady (h : Steady a ms) (keep line : Nat) : Steady a (recallLine ms keep line) := by
  unfold recallLine
  refine foldl_steady (foldl_steady h (fun m i k => ?_) _) (fun m i k => ?_) _
  · split
    · exact cleanStash_steady k ..
    · exact k
  · split
    · exact k
    · exact cleanClus_steady k ..
theorem dropCoherent_steady (h : Steady a ms) (keep line : Nat) : Steady a (dropCoherent ms keep line) := by
  refine foldl_steady h (fun m i k => ?_) _
  split
  · exact k
  · exact putCopy_steady k ..
theorem fillCoherent_steady (h : Steady a ms) (x : Acc) (i line : Nat) (secs : BitVec 4) (bs : List Byte) :
    Steady a (fillCoherent ms x i line secs bs) := by
  unfold fillCoherent
  dsimp only
  split
  · exact h
  · exact putUsed_steady (makeRoom_steady h ..) ..
theorem openHome_steady (h : Steady a ms) (x : Acc) (line : Nat) (touch need : BitVec 4) : Steady a (openHome ms x line touch need).1 := by
  unfold openHome
  dsimp only
  have e1 := monEvent_steady h (homeDie (line * 64)) 0x0010 x.asid (line * 64) 1
  generalize monEvent ms (homeDie (line * 64)) 0x0010 x.asid (line * 64) 1 = m1 at e1 ⊢
  have e2 := eccRead_steady e1 2 (gransOf line (need &&& (getCopy m1 hL2 line).valid))
  generalize eccRead m1 2 (gransOf line (need &&& (getCopy m1 hL2 line).valid)) = q2 at e2 ⊢
  split
  · exact e2
  · split
    · exact putUsed_steady e2 ..
    · have e3 := monEvent_steady e2 (homeDie (line * 64)) 0x0011 x.asid (line * 64) 1
      generalize monEvent q2.1 (homeDie (line * 64)) 0x0011 x.asid (line * 64) 1 = m3 at e3 ⊢
      generalize hu : (if isHost (line * 64) = true then m3 else monEvent m3 (homeDie (line * 64))
        (if (getCopy m3 hMsc line).valid = 0 then 0x0013 else 0x0012) x.asid (line * 64) 1) = m4
      have e4 : Steady a m4 := by
        rw [← hu]
        split
        · exact e3
        · exact monEvent_steady e3 ..
      have e5 := liftMsc_steady e4 line
      generalize liftMsc m4 line = q5 at e5 ⊢
      split
      · exact e5
      · generalize (if (getCopy q5.1 hL2 line).valid = 0 then ({ chain := x.chain, key := x.key, asid := x.asid } : Copy)
          else getCopy q5.1 hL2 line) = c
        split
        · exact putUsed_steady e5 ..
        · have e6 := dramRead_steady e5 x.asid line x.key (need &&& ~~~c.valid)
          split
          · exact putUsed_steady e6 ..
          · exact putUsed_steady (eccWrite_steady (roomL2_steady e6 _) ..) ..
/-- With no ECC error in place, opening a line finds none. -/
theorem openHome_none (n : NoEcc ms) (x : Acc) (line : Nat) (touch need : BitVec 4) : (openHome ms x line touch need).2 = none := by
  unfold openHome
  dsimp only
  have n1 : NoEcc (monEvent ms (homeDie (line * 64)) 0x0010 x.asid (line * 64) 1) := n
  generalize monEvent ms (homeDie (line * 64)) 0x0010 x.asid (line * 64) 1 = m1 at n1 ⊢
  rw [eccRead_none n1]
  simp only [Bool.false_eq_true, if_false]
  split
  · rfl
  · have n3 : NoEcc (monEvent m1 (homeDie (line * 64)) 0x0011 x.asid (line * 64) 1) := n1
    generalize monEvent m1 (homeDie (line * 64)) 0x0011 x.asid (line * 64) 1 = m3 at n3 ⊢
    generalize hu : (if isHost (line * 64) = true then m3 else monEvent m3 (homeDie (line * 64))
      (if (getCopy m3 hMsc line).valid = 0 then 0x0013 else 0x0012) x.asid (line * 64) 1) = m4
    have n4 : NoEcc m4 := by
      rw [← hu]
      split <;> exact n3
    rw [liftMsc_none n4]
    have n5 := (liftMsc_steady (.rfl' m4) line).noEcc n4
    generalize (liftMsc m4 line).1 = m5 at n5 ⊢
    simp only [Bool.false_eq_true, if_false]
    generalize (if (getCopy m5 hL2 line).valid = 0 then ({ chain := x.chain, key := x.key, asid := x.asid } : Copy)
      else getCopy m5 hL2 line) = c
    split
    · rfl
    · rw [dramRead_none n5]
      rfl
theorem fillL2_steady (h : Steady a ms) (x : Acc) (line : Nat) (secs : BitVec 4) : Steady a (fillL2 ms x line secs).1 :=
  openHome_steady (recallLine_steady h ..) ..
theorem fillL2_none (n : NoEcc ms) (x : Acc) (line : Nat) (secs : BitVec 4) : (fillL2 ms x line secs).2 = none :=
  openHome_none ((recallLine_steady (.rfl' ms) ..).noEcc n) ..
theorem storeHome_steady (h : Steady a ms) (x : Acc) (line : Nat) (w : LineWrite) : Steady a (storeHome ms x line w) :=
  putUsed_steady (wakes_steady (eccWrite_steady (roomL2_steady h _) ..) _) ..
/-- A line opened for a write: coherent copies elsewhere are recalled and given up. -/
theorem opened_steady (h : Steady a ms) (x : Acc) (line : Nat) (touch need : BitVec 4) :
    Steady a (openHome (dropCoherent (recallLine ms hL2 line) hL2 line) x line touch need).1 :=
  openHome_steady (dropCoherent_steady (recallLine_steady h ..) ..) ..
theorem opened_none (n : NoEcc ms) (x : Acc) (line : Nat) (touch need : BitVec 4) :
    (openHome (dropCoherent (recallLine ms hL2 line) hL2 line) x line touch need).2 = none :=
  openHome_none ((dropCoherent_steady (recallLine_steady (.rfl' ms) ..) ..).noEcc n) ..
theorem writeHome_steady (h : Steady a ms) (x : Acc) (line : Nat) (w : LineWrite) : Steady a (writeHome ms x line w).1 := by
  unfold writeHome
  dsimp only
  split
  · exact opened_steady h ..
  · exact storeHome_steady (opened_steady h ..) ..
theorem writeHome_none (n : NoEcc ms) (x : Acc) (line : Nat) (w : LineWrite) : (writeHome ms x line w).2 = none := by
  unfold writeHome
  dsimp only
  rw [opened_none n]
theorem rmwHome_steady (h : Steady a ms) (x : Acc) (line o n : Nat) (f : List Byte → List Byte) :
    Steady a (rmwHome ms x line o n f).2.1 := by
  unfold rmwHome
  dsimp only
  split
  · exact opened_steady h ..
  · exact storeHome_steady (opened_steady h ..) ..
theorem loadCoherent_steady (h : Steady a ms) (x : Acc) (line : Nat) (secs : BitVec 4) : Steady a (loadCoherent ms x line secs).2.1 := by
  unfold loadCoherent
  dsimp only
  split
  · exact putUsed_steady h ..
  · generalize secs &&& ~~~(pathSecs ms x line).1 &&& ~~~(pathSecs ms x line).2 = need
    generalize hq : (if need = 0 then (putUsed ms (hClus (clusterOf x.core)) line (getCopy ms (hClus (clusterOf x.core)) line), none)
      else fillL2 ms x line need) = q
    have e : Steady a q.1 := by
      rw [← hq]
      split
      · exact putUsed_steady h ..
      · exact fillL2_steady h ..
    split
    · exact e
    · dsimp only
      split
      · refine fillCoherent_steady ?_ ..
        split
        · exact e
        · exact fillCoherent_steady e ..
      · split
        · exact e
        · exact fillCoherent_steady e ..
theorem loadCoherent_none (n : NoEcc ms) (x : Acc) (line : Nat) (secs : BitVec 4) : (loadCoherent ms x line secs).2.2 = none := by
  unfold loadCoherent
  dsimp only
  split
  · rfl
  · generalize secs &&& ~~~(pathSecs ms x line).1 &&& ~~~(pathSecs ms x line).2 = need
    generalize hq : (if need = 0 then (putUsed ms (hClus (clusterOf x.core)) line (getCopy ms (hClus (clusterOf x.core)) line), none)
      else fillL2 ms x line need) = q
    have e : q.2 = none := by
      rw [← hq]
      split
      · rfl
      · exact fillL2_none n ..
    split
    · rename_i k hk
      rw [e] at hk
      exact absurd hk (by simp)
    · rfl
theorem storeCoherent_steady (h : Steady a ms) (x : Acc) (line : Nat) (w : LineWrite) : Steady a (storeCoherent ms x line w).1 := by
  unfold storeCoherent
  dsimp only
  split
  · exact writeHome_steady h ..
  · split
    · exact putUsed_steady (wakes_steady (dropCoherent_steady h ..) _) ..
    · split
      · exact openHome_steady (recallLine_steady h ..) ..
      · exact putUsed_steady (wakes_steady (fillCoherent_steady (dropCoherent_steady (openHome_steady (recallLine_steady h ..) ..) ..) ..) _) ..
theorem storeCoherent_none (n : NoEcc ms) (x : Acc) (line : Nat) (w : LineWrite) : (storeCoherent ms x line w).2 = none := by
  unfold storeCoherent
  dsimp only
  split
  · exact writeHome_none n ..
  · split
    · rfl
    · rw [openHome_none ((recallLine_steady (.rfl' ms) ..).noEcc n)]

/-! ## FAR accesses -/

theorem farLook_steady (h : Steady a ms) (x : Acc) (line : Nat) : Steady a (farLook ms x line).2 := by
  unfold farLook
  dsimp only
  split
  · exact h
  · exact monEvent_steady h ..
theorem farPut_steady (h : Steady a ms) (line : Nat) (m : Copy) (w : LineWrite) : Steady a (farPut ms line m w) := by
  unfold farPut
  dsimp only
  split
  · exact h
  · exact putUsed_steady (eccWrite_steady h ..) ..
theorem readFar_steady (h : Steady a ms) (x : Acc) (line o n : Nat) : Steady a (readFar ms x line o n).2.1 := by
  unfold readFar
  dsimp only
  have e := farLook_steady h x line
  generalize farLook ms x line = q at e ⊢
  have e1 := eccRead_steady e 1 (gransOf line (secMask o n &&& q.1.valid))
  generalize eccRead q.2 1 (gransOf line (secMask o n &&& q.1.valid)) = r at e1 ⊢
  generalize hu : (if q.1.valid = 0 then r.1 else putUsed r.1 hMsc line q.1) = u
  have e2 : Steady a u := by
    rw [← hu]
    split
    · exact e1
    · exact putUsed_steady e1 ..
  split
  · exact e2
  · split
    · exact e2
    · exact dramRead_steady e2 ..
theorem readFar_none (e : NoEcc ms) (x : Acc) (line o n : Nat) : (readFar ms x line o n).2.2 = none := by
  unfold readFar
  dsimp only
  have e0 := (farLook_steady (.rfl' ms) x line).noEcc e
  generalize farLook ms x line = q at e0 ⊢
  rw [eccRead_none e0]
  simp only [Bool.false_eq_true, if_false]
  split
  · rfl
  · rw [dramRead_none (by split <;> exact e0)]
    rfl
theorem writeFar_steady (h : Steady a ms) (x : Acc) (line : Nat) (w : LineWrite) : Steady a (writeFar ms x line w).1 := by
  unfold writeFar
  dsimp only
  have e := farLook_steady h x line
  generalize farLook ms x line = q at e ⊢
  have e1 := eccRead_steady e 1 (wPart line (w.filter (fun e => q.1.valid.getLsbD (e.1 / 16))))
  generalize eccRead q.2 1 (wPart line (w.filter (fun e => q.1.valid.getLsbD (e.1 / 16)))) = r at e1 ⊢
  split
  · exact e1
  · generalize hu : (if (w.filter (fun e => !q.1.valid.getLsbD (e.1 / 16))).isEmpty = true then (r.1, false) else
      dramWrite r.1 x.asid line x.key (w.filter (fun e => !q.1.valid.getLsbD (e.1 / 16)))) = u
    have e2 : Steady a u.1 := by
      rw [← hu]
      split
      · exact e1
      · exact dramWrite_steady e1 ..
    split
    · exact e2
    · exact farPut_steady e2 ..
theorem writeFar_none (n : NoEcc ms) (x : Acc) (line : Nat) (w : LineWrite) : (writeFar ms x line w).2 = none := by
  unfold writeFar
  dsimp only
  have e0 := (farLook_steady (.rfl' ms) x line).noEcc n
  generalize farLook ms x line = q at e0 ⊢
  rw [eccRead_none e0]
  simp only [Bool.false_eq_true, if_false]
  split
  · rfl
  · rw [dramWrite_none e0]
    rfl
theorem rmwFar_steady (h : Steady a ms) (x : Acc) (line o n : Nat) (f : List Byte → List Byte) :
    Steady a (rmwFar ms x line o n f).2.1 := by
  unfold rmwFar
  dsimp only
  have e := farLook_steady h x line
  generalize farLook ms x line = q at e ⊢
  have e1 := eccRead_steady e 1 (gransOf line (secMask o n &&& q.1.valid))
  generalize eccRead q.2 1 (gransOf line (secMask o n &&& q.1.valid)) = r at e1 ⊢
  split
  · exact e1
  · split
    · exact farPut_steady e1 ..
    · split
      · exact dramRead_steady e1 ..
      · exact dramPut_steady (dramRead_steady e1 ..) ..

/-! ## Software-coherent lines -/

theorem swcFetch_steady (h : Steady a ms) (x : Acc) (line : Nat) (secs : BitVec 4) : Steady a (swcFetch ms x line secs).2.1 := by
  unfold swcFetch
  dsimp only
  generalize secs &&& ~~~(if x.home = true then (0 : BitVec 4) else swcSecs ms (hStash x.core) line (swcLevel x == 0)) &&&
    ~~~(if x.home = true then (0 : BitVec 4) else swcSecs ms (hClus (clusterOf x.core)) line (swcLevel x ≤ 1)) = need
  split
  · exact h
  · exact fillL2_steady h ..
theorem swcFetch_none (n : NoEcc ms) (x : Acc) (line : Nat) (secs : BitVec 4) : (swcFetch ms x line secs).2.2 = none := by
  unfold swcFetch
  dsimp only
  generalize secs &&& ~~~(if x.home = true then (0 : BitVec 4) else swcSecs ms (hStash x.core) line (swcLevel x == 0)) &&&
    ~~~(if x.home = true then (0 : BitVec 4) else swcSecs ms (hClus (clusterOf x.core)) line (swcLevel x ≤ 1)) = need
  split
  · rfl
  · exact fillL2_none n ..
theorem fillPath_steady (h : Steady a ms) (x : Acc) (i line : Nat) (secs : BitVec 4) (bs : List Byte) :
    Steady a (fillPath ms x i line secs bs) := by
  unfold fillPath
  dsimp only
  refine putUsed_steady (makeRoom_steady ?_ ..) ..
  split
  · exact h
  · exact evictLine_steady h ..
theorem readSwc_steady (h : Steady a ms) (x : Acc) (line o n : Nat) : Steady a (readSwc ms x line o n).2.1 := by
  unfold readSwc
  dsimp only
  have e := swcFetch_steady h x line (secMask o n)
  generalize swcFetch ms x line (secMask o n) = q at e ⊢
  split
  · exact e
  · generalize hu : (if x.home = true then q.2.1 else fillPath q.2.1 x (hClus (clusterOf x.core)) line (secMask o n) q.1) = u
    have e1 : Steady a u := by
      rw [← hu]
      split
      · exact e
      · exact fillPath_steady e ..
    dsimp only
    split
    · exact fillPath_steady e1 ..
    · exact e1
theorem readSwc_none (e : NoEcc ms) (x : Acc) (line o n : Nat) : (readSwc ms x line o n).2.2 = none := by
  unfold readSwc
  dsimp only
  rw [swcFetch_none e]
theorem updateCopy_steady (h : Steady a ms) (i line : Nat) (w : LineWrite) : Steady a (updateCopy ms i line w) := by
  unfold updateCopy
  dsimp only
  split
  · exact h
  · exact putCopy_steady h ..
theorem storeSwc_steady (h : Steady a ms) (x : Acc) (i line : Nat) (secs : BitVec 4) (bs : List Byte) (w : LineWrite) :
    Steady a (storeSwc ms x i line secs bs w) := putCopy_steady (fillPath_steady h ..) ..
theorem writeSwc_steady (h : Steady a ms) (x : Acc) (line : Nat) (w : LineWrite) : Steady a (writeSwc ms x line w).1 := by
  unfold writeSwc
  dsimp only
  split
  · have e := writeHome_steady h x line w
    generalize writeHome ms x line w = q at e ⊢
    split
    · exact e
    · generalize hu : (if x.home = true then q.1 else updateCopy (updateCopy q.1 (hStash x.core) line w) (hClus (clusterOf x.core)) line w) = u
      have e1 : Steady a u := by
        rw [← hu]
        split
        · exact e
        · exact updateCopy_steady (updateCopy_steady e ..) ..
      split
      · exact fillPath_steady (swcFetch_steady e1 ..) ..
      · exact e1
  · have e := swcFetch_steady h x line (wMask w)
    generalize swcFetch ms x line (wMask w) = q at e ⊢
    split
    · exact e
    · split
      · exact storeSwc_steady e ..
      · have e1 := updateCopy_steady (storeSwc_steady e x (hClus (clusterOf x.core)) line (wMask w) q.1 w) (hStash x.core) line w
        dsimp only
        split
        · exact fillPath_steady e1 ..
        · exact e1
theorem writeSwc_none (n : NoEcc ms) (x : Acc) (line : Nat) (w : LineWrite) : (writeSwc ms x line w).2 = none := by
  unfold writeSwc
  dsimp only
  split
  · rw [writeHome_none n]
    dsimp only
    split <;> rfl
  · rw [swcFetch_none n]
    dsimp only
    split <;> rfl

/-! ## Accesses by line and by address -/

theorem sameKey_steady (h : Steady a ms) (x : Acc) (line : Nat) : Steady a (sameKey ms x line) := by
  unfold sameKey
  split
  · exact flushLine_steady h _
  · exact h
theorem readLine_steady (h : Steady a ms) (x : Acc) (line o n : Nat) : Steady a (readLine ms x line o n).2.1 := by
  unfold readLine
  dsimp only
  split
  · exact readFar_steady h ..
  · exact readSwc_steady (sameKey_steady h ..) ..
  · exact loadCoherent_steady (sameKey_steady h ..) ..
theorem readLine_none (e : NoEcc ms) (x : Acc) (line o n : Nat) : (readLine ms x line o n).2.2 = none := by
  have k := (sameKey_steady (.rfl' ms) x line).noEcc e
  unfold readLine
  dsimp only
  split
  · exact readFar_none e ..
  · exact readSwc_none k ..
  · exact loadCoherent_none k ..
theorem writeLine_steady (h : Steady a ms) (x : Acc) (line : Nat) (w : LineWrite) : Steady a (writeLine ms x line w).1 := by
  unfold writeLine
  split
  · exact h
  · split
    · exact writeFar_steady h ..
    · exact writeSwc_steady (sameKey_steady h ..) ..
    · exact storeCoherent_steady (sameKey_steady h ..) ..
theorem writeLine_none (e : NoEcc ms) (x : Acc) (line : Nat) (w : LineWrite) : (writeLine ms x line w).2 = none := by
  have k := (sameKey_steady (.rfl' ms) x line).noEcc e
  unfold writeLine
  split
  · rfl
  · split
    · exact writeFar_none e ..
    · exact writeSwc_none k ..
    · exact storeCoherent_none k ..
theorem rmwLine_steady (h : Steady a ms) (x : Acc) (line o n : Nat) (f : List Byte → List Byte) :
    Steady a (rmwLine ms x line o n f).2.1 := by
  unfold rmwLine
  split
  · exact rmwFar_steady h ..
  · exact rmwHome_steady (sameKey_steady h ..) ..

theorem readPa_steady (h : Steady a ms) (x : Acc) (pa n : Nat) : Steady a (readPa ms x pa n).2.1 :=
  foldl_keeps (P := fun (b : List Byte × MemSys × Option (Nat × Nat)) => Steady a b.2.1) (fun _ _ p => readLine_steady p ..) _ _ h
theorem readPa_none (e : NoEcc ms) (x : Acc) (pa n : Nat) : (readPa ms x pa n).2.2 = none := by
  unfold readPa
  refine (foldl_keeps (P := fun (b : List Byte × MemSys × Option (Nat × Nat)) => NoEcc b.2.1 ∧ b.2.2 = none) (fun b x p => ?_) _ _
    ⟨e, rfl⟩).2
  refine ⟨(readLine_steady (.rfl' _) ..).noEcc p.1, ?_⟩
  dsimp only
  rw [p.2, readLine_none p.1]
  rfl
theorem writePa_steady (h : Steady a ms) (x : Acc) (pa : Nat) (bs : List Byte) : Steady a (writePa ms x pa bs).1 :=
  foldl_keeps (P := fun (b : MemSys × Option (Nat × Nat)) => Steady a b.1) (fun _ _ p => writeLine_steady p ..) _ _ h
theorem writePa_none (e : NoEcc ms) (x : Acc) (pa : Nat) (bs : List Byte) : (writePa ms x pa bs).2 = none := by
  unfold writePa
  refine (foldl_keeps (P := fun (b : MemSys × Option (Nat × Nat)) => NoEcc b.1 ∧ b.2 = none) (fun b x p => ?_) _ _ ⟨e, rfl⟩).2
  refine ⟨(writeLine_steady (.rfl' _) ..).noEcc p.1, ?_⟩
  dsimp only
  rw [p.2, writeLine_none p.1]
  rfl

/-! ## Releases, acquires, maintenance, chains, hash masks -/

theorem releaseLines_steady (h : Steady a ms) (core asid : Nat) (sc : Scope) : Steady a (releaseLines ms core asid sc) := by
  unfold releaseLines
  split
  · exact h
  · exact foldl_steady h (fun m l k => cleanStash_steady k core l) _
  · exact foldl_steady (foldl_steady h (fun m l k => cleanStash_steady k core l) _) (fun _ l k => cleanClus_steady k (clusterOf core) l) _
theorem acquireLines_steady (h : Steady a ms) (core asid : Nat) (sc : Scope) : Steady a (acquireLines ms core asid sc) := by
  unfold acquireLines
  split
  · exact h
  · exact foldl_steady h (fun m l k => evictLine_steady k _ l) _
  · exact foldl_steady (foldl_steady h (fun m l k => evictLine_steady k _ l) _) (fun m l k => evictLine_steady k _ l) _
theorem cleanLine_steady (h : Steady a ms) (core line : Nat) (sc : Scope) : Steady a (cleanLine ms core line sc) := by
  unfold cleanLine
  dsimp only
  split
  · exact h
  · exact cleanStash_steady h ..
  · exact cleanClus_steady (cleanStash_steady h ..) ..
  · have e := foldl_steady (foldl_steady h (fun m i k => cleanStash_steady k i line) ((holdersOf ms line).filter (· < 192)))
      (fun m c k => cleanClus_steady k c line) (List.range 48)
    split
    · exact e
    · split
      · exact errs_steady (eccRead_steady e ..) _
      · exact putCopy_steady (toDram_steady (eccRead_steady e ..) ..) ..
theorem invalLine_steady (h : Steady a ms) (core line : Nat) (sc : Scope) : Steady a (invalLine ms core line sc) := by
  unfold invalLine
  split
  · exact h
  · exact evictLine_steady h ..
  · exact evictLine_steady (evictLine_steady h ..) ..
  · have e := evictL2_steady (foldl_steady (foldl_steady h (fun m i k => evictLine_steady k i line)
      ((holdersOf ms line).filter (· < 192))) (fun m c k => evictLine_steady k (hClus c) line) (List.range 48)) line
    dsimp only at e ⊢
    generalize evictL2 _ line = m at e ⊢
    exact ⟨e.wf, e.bad, e.locks, e.keys, e.fills, e.ecc⟩
theorem flushStash_steady (h : Steady a ms) (core : Nat) : Steady a (flushStash ms core) :=
  foldl_steady h (fun _ l k => evictLine_steady k (hStash core) l) _
theorem demoteChain_steady (h : Steady a ms) (i : Nat) : Steady a (demoteChain ms i) := h.trans ⟨id, rfl, rfl, ⟨rfl, rfl, rfl⟩, rfl, fun h k => ⟨h, k⟩⟩
theorem flushStack_steady (h : Steady a ms) (stack : Nat) : Steady a (flushStack ms stack) := by
  unfold flushStack
  exact foldl_steady (foldl_steady h (fun _ l k => evictL2_steady k l) _) (fun _ l k => evictMsc_steady k l) _

/-- Moving entries to new numbers gives a canonical map. -/
theorem rekey_wf {α : Type} [DecidableEq α] (d : α) (f : Nat → Nat) (m : Sparse α) : Sparse.wf (rekey d f m) d = true :=
  foldl_keeps (P := fun r => Sparse.wf r d = true) (fun _ e h => Sparse.wf_set (f e.1) e.2 h) _ _ rfl
/-- A change of a hash mask leaves memory canonical. -/
theorem setHmask_wf (ms : MemSys) (n : Nat) (h : n < 8) (m : BitVec 24) : Memory.wf (setHmask ms n h m).mem = true := by
  unfold setHmask Memory.wf
  dsimp only
  exact rekey_wf (α := Byte) 0 _ ms.mem
/-- The memory of reset is canonical. -/
theorem reset_mem_wf : Memory.wf State.reset.ms.mem = true := rfl

/-! ## The part's accesses, translation, and accesses by virtual address -/

/-- Nothing but the memory system differs, memory stays canonical, the locks and the keys stay, and with no ECC error in place none
comes. -/
structure Kept (s t : State) : Prop where
  rest  : t = s.setMs t.ms
  wf    : Memory.wf s.ms.mem = true → Memory.wf t.ms.mem = true
  locks : t.ms.locks = s.ms.locks
  keys  : t.ms.keyGen = s.ms.keyGen ∧ t.ms.nextGen = s.ms.nextGen ∧ t.ms.hmask = s.ms.hmask
  fills : t.ms.fills = s.ms.fills
  ecc   : NoEcc s.ms → NoEcc t.ms

theorem Kept.rfl' (s : State) : Kept s s := ⟨rfl, id, rfl, ⟨rfl, rfl, rfl⟩, rfl, id⟩
variable {r s : State}
theorem Kept.setMs {m : MemSys} (h : Kept r s) (k : Steady s.ms m) : Kept r (s.setMs m) :=
  ⟨by rw [h.rest]; rfl, fun x => k.wf (h.wf x), k.locks.trans h.locks,
    ⟨k.keys.1.trans h.keys.1, k.keys.2.1.trans h.keys.2.1, k.keys.2.2.trans h.keys.2.2⟩, k.fills.trans h.fills, fun x => k.noEcc (h.ecc x)⟩
theorem setBad_kept (h : Kept r s) (pa : Nat) : Kept r (s.setBad pa) := ⟨by rw [h.rest]; rfl, h.wf, h.locks, h.keys, h.fills, h.ecc⟩

theorem partRd_kept (h : Kept r s) (pa n : Nat) : Kept r (s.partRd pa n).2 := by
  unfold State.partRd
  split
  · exact h.setMs (noteEcc_steady (readPa_steady (.rfl' _) ..) _)
  · exact setBad_kept h _
theorem noteEcc_bad (ms : MemSys) (e : Option (Nat × Nat)) : (noteEcc ms e).bad = ms.bad := by cases e <;> rfl
/-- A read of addresses that exist notes no absent one. -/
theorem partRd_bad {pa : Nat} (h : paOk pa = true) (n : Nat) : (s.partRd pa n).2.ms.bad = s.ms.bad := by
  unfold State.partRd
  rw [if_pos h]
  exact (noteEcc_bad ..).trans (readPa_steady (.rfl' _) ..).bad
/-- With no tile store in flight a store of the part waits for none. -/
theorem freeLines_none (h : s.ms.locks = []) (pa n : Nat) : s.freeLines pa n = s := by simp [State.freeLines, h]
theorem partWr_kept (h : Kept r s) (k : s.ms.locks = []) (pa : Nat) (bs : List Byte) : Kept r (s.partWr pa bs) := by
  unfold State.partWr
  rw [freeLines_none k]
  split
  · exact h.setMs (noteEcc_steady (writePa_steady (.rfl' _) ..) _)
  · exact setBad_kept h _
theorem partWr_bad {pa : Nat} (h : paOk pa = true) (k : s.ms.locks = []) (bs : List Byte) : (s.partWr pa bs).ms.bad = s.ms.bad := by
  unfold State.partWr
  rw [if_pos h, freeLines_none k]
  exact (noteEcc_bad ..).trans (writePa_steady (.rfl' _) ..).bad

theorem holdEntry_steady (h : Steady a ms) (wc : Option (Nat × Nat)) (va l : Nat) (w : Word) : Steady a (holdEntry ms wc va l w) := by
  unfold holdEntry
  split
  · exact h
  · split
    · exact h
    · exact walks_steady h _
theorem readEntry_steady (h : Steady a ms) (wc : Option (Nat × Nat)) (va l base : Nat) : Steady a (readEntry' ms wc va l base).1 := by
  unfold readEntry'
  dsimp only
  split
  · exact h
  · split
    · exact h
    · have e := readPa_steady h (partAccAt (base + 8 * (va / 2 ^ (16 + 10 * l) % 1024))) (base + 8 * (va / 2 ^ (16 + 10 * l) % 1024)) 8
      split
      · exact e
      · split <;> exact e
theorem walk_steady (h : Steady a ms) (wc : Option (Nat × Nat)) (va l base : Nat) : Steady a (walk ms wc va l base).1 := by
  induction l generalizing ms base with
  | zero =>
    unfold walk
    have e := readEntry_steady h wc va 0 base
    dsimp only
    split
    · exact e
    · split <;> exact e
  | succ l ih =>
    unfold walk
    have e := readEntry_steady h wc va (l + 1) base
    dsimp only
    split
    · exact e
    · split
      · split <;> exact e
      · split
        · exact e
        · exact ih (holdEntry_steady e ..) _
theorem tlbPut_steady (h : Steady a ms) (core level : Nat) (e : TlbEntry) : Steady a (tlbPut ms core level e) := tlb_steady h _
theorem tlbFind_steady (h : Steady a ms) (core asid va : Nat) : Steady a (tlbFind ms core asid va).1 := by
  unfold tlbFind
  split
  · exact h
  · split
    · exact tlbPut_steady h ..
    · split
      · exact tlbPut_steady (tlbPut_steady h ..) ..
      · exact h
theorem tlbHold_steady (h : Steady a ms) (core asid va : Nat) (l : Leaf) : Steady a (tlbHold ms core asid va l) :=
  tlbPut_steady (tlbPut_steady (tlbPut_steady h ..) ..) ..
theorem findLeaf_kept (h : Kept r s) (core asid va : Nat) : Kept r (s.findLeaf core asid va).1 := by
  unfold State.findLeaf
  split
  · exact h
  · have e := tlbFind_steady (.rfl' s.ms) core asid va
    dsimp only
    split
    · exact h.setMs e
    · split
      · exact setBad_kept h _
      · refine h.setMs ?_
        have e := walk_steady (monTimed_steady (.rfl' s.ms) (tlbDie core) 0x0020 asid 0) (some (tlbDie core, asid)) va 3 (s.ptbase asid)
        split
        · exact tlbHold_steady e ..
        · exact e

theorem orPte_steady (h : Steady a ms) (pa bits : Nat) : Steady a (orPte ms pa bits) :=
  noteEcc_steady (rmwLine_steady h ..) _
theorem useLeaf_steady (h : Steady a ms) (core asid : Nat) (write : Bool) (l : Leaf) (va : Nat) :
    Steady a (useLeaf ms core asid write l va) := by
  unfold useLeaf
  dsimp only
  generalize (if l.pte.getLsbD 6 = true then 0 else 64) + (if (write && !l.pte.getLsbD 7) = true then 128 else 0) = bits
  split
  · exact h
  · exact tlbHold_steady (orPte_steady h ..) ..
theorem setUsed_kept (h : Kept r s) (core asid : Nat) (write : Bool) (l : Leaf) (va : Nat) : Kept r (s.setUsed core asid write l va) :=
  h.setMs (useLeaf_steady (.rfl' _) ..)
theorem ownerLeaf_kept (h : Kept r s) (core asid : Nat) (pte : Word) : Kept r (s.ownerLeaf core asid pte).1 := findLeaf_kept h ..
theorem privOk_kept (h : Kept r s) (who : Who) (pte : Word) : Kept r (s.privOk who pte).1 := by
  unfold State.privOk
  have e := ownerLeaf_kept h who.core who.asid pte
  dsimp only
  split
  · exact e
  · exact (setUsed_kept e ..).setMs (readPa_steady (.rfl' _) ..)
theorem checkLeaf_kept (h : Kept r s) (who : Who) (k : AKind) (l : Leaf) (va : Nat) : Kept r (s.checkLeaf who k l va).1 := by
  unfold State.checkLeaf
  dsimp only
  split
  · exact h
  · split
    · exact h
    · split
      · exact h
      · split
        · exact h
        · exact privOk_kept h ..
theorem checkPage_kept (h : Kept r s) (who : Who) (k : AKind) (va n : Nat) : Kept r (s.checkPage who k va n).1 := by
  unfold State.checkPage
  have e := findLeaf_kept h who.core who.asid va
  dsimp only
  split
  · exact e
  · split <;> exact checkLeaf_kept e ..
theorem checkRuns_kept (h : Kept r s) (who : Who) (k : AKind) (rs : List (Nat × Nat)) : Kept r (s.checkRuns who k rs).1 := by
  induction rs generalizing s with
  | nil => exact h
  | cons x rs ih =>
    unfold State.checkRuns
    have e := checkPage_kept h who k x.1 x.2
    dsimp only
    split
    · exact e
    · split <;> exact ih e
theorem checkScalar_kept (h : Kept r s) (who : Who) (k : AKind) (va n : Nat) : Kept r (s.checkScalar who k va n).1 := by
  unfold State.checkScalar
  have e := checkRuns_kept h who k (runsOf va n)
  dsimp only
  split
  · exact e
  · split <;> exact e
theorem commitPage_kept (h : Kept r s) (who : Who) (k : AKind) (p : Part) : Kept r (s.commitPage who k p) := by
  unfold State.commitPage
  have e := setUsed_kept h who.core who.asid ((k.write || k.amo) && !k.bulk) p.leaf p.va
  dsimp only
  split
  · exact e
  · have e := ownerLeaf_kept e who.core who.asid p.leaf.pte
    split
    · exact e
    · split
      · exact e
      · exact (setUsed_kept e ..).setMs (noteEcc_steady (writePa_steady (.rfl' _) ..) _)
theorem commitParts_kept (h : Kept r s) (who : Who) (k : AKind) (ps : List Part) : Kept r (s.commitParts who k ps) :=
  foldl_keeps (P := fun t => Kept r t) (fun _ _ h => commitPage_kept h ..) _ _ h

/-- What an access that failed leaves. -/
theorem undo_steady (old new : MemSys) : Steady old (undo old new) := ⟨id, rfl, rfl, ⟨rfl, rfl, rfl⟩, rfl, fun h k => ⟨h, k⟩⟩
theorem rdParts_kept (h : Kept r s) (who : Who) (sc : Scope) (stash : Bool) (va : Nat) (ps : List Part) :
    Kept r (s.rdParts who sc stash va ps).1 := by
  unfold State.rdParts
  split
  · exact h
  · refine foldl_keeps (P := fun (b : State × Except TrapInfo (List Byte)) => Kept r b.1) (fun b p k => ?_) _ _ h
    exact Kept.setMs k (readPa_steady (.rfl' _) ..)
/-- Passed pages whose keys are there, with no ECC error in place, are read, and no address is absent. -/
theorem rdParts_ok (n : NoEcc s.ms) (who : Who) (sc : Scope) (stash : Bool) (va : Nat) (ps : List Part) (k : keyLost s.ms ps = false) :
    (s.rdParts who sc stash va ps).1.ms.bad = s.ms.bad ∧ ∃ bs, (s.rdParts who sc stash va ps).2 = .ok bs := by
  unfold State.rdParts
  simp only [k, Bool.false_eq_true, if_false]
  refine (foldl_keeps (P := fun (b : State × Except TrapInfo (List Byte)) => NoEcc b.1.ms ∧ b.1.ms.bad = s.ms.bad ∧ ∃ bs, b.2 = .ok bs)
    (fun b p h => ?_) _ _ ⟨n, rfl, [], rfl⟩).2
  obtain ⟨h1, h2, bs, h3⟩ := h
  refine ⟨(readPa_steady (.rfl' _) ..).noEcc h1, (readPa_steady (.rfl' _) ..).bad.trans h2, ?_⟩
  dsimp only
  rw [h3, readPa_none h1]
  exact ⟨_, rfl⟩
theorem wrParts_kept (h : Kept r s) (who : Who) (sc : Scope) (stash : Bool) (va : Nat) (ps : List Part) (bs : List Byte) :
    Kept r (s.wrParts who sc stash va ps bs).1 := by
  unfold State.wrParts
  dsimp only
  split
  · exact h
  · split
    · exact h.setMs (undo_steady ..)
    · refine foldl_keeps (P := fun (b : State × Option TrapInfo × List Byte) => Kept r b.1) (fun b p k => ?_) _ _ h
      exact Kept.setMs k (writePa_steady (.rfl' _) ..)
/-- Passed pages whose keys are there, with no ECC error in place, are written, and no address is absent. -/
theorem wrParts_ok (n : NoEcc s.ms) (who : Who) (sc : Scope) (stash : Bool) (va : Nat) (ps : List Part) (bs : List Byte)
    (k : keyLost s.ms ps = false) :
    (s.wrParts who sc stash va ps bs).1.ms.bad = s.ms.bad ∧ (s.wrParts who sc stash va ps bs).2 = none := by
  unfold State.wrParts
  simp only [k, Bool.false_eq_true, if_false]
  generalize hq : List.foldl _ (s, (none : Option TrapInfo), bs) ps = q
  have e : NoEcc q.1.ms ∧ q.1.ms.bad = s.ms.bad ∧ q.2.1 = none := by
    rw [← hq]
    refine foldl_keeps (P := fun (b : State × Option TrapInfo × List Byte) => NoEcc b.1.ms ∧ b.1.ms.bad = s.ms.bad ∧ b.2.1 = none)
      (fun b p h => ?_) _ _ ⟨n, rfl, rfl⟩
    obtain ⟨h1, h2, h3⟩ := h
    refine ⟨(writePa_steady (.rfl' _) ..).noEcc h1, (writePa_steady (.rfl' _) ..).bad.trans h2, ?_⟩
    dsimp only
    rw [h3, writePa_none h1]
  rw [e.2.2]
  exact ⟨e.2.1, rfl⟩

/-! ## Stores of the part while tile stores are in flight: memory stays canonical -/

theorem commitTst_wf (h : Memory.wf s.ms.mem = true) (core : Nat) (st : Bool) (e : CCmd) :
    Memory.wf (s.commitTst core st e).ms.mem = true := by
  have k : Steady s.ms (e.store.foldl (fun (ms : MemSys) (x : Part × List Byte) =>
      noteEcc (writePa (useLeaf ms core (s.asidOf e.sid) true x.1.leaf x.1.va) (copyAcc s core e x.1) x.1.pa x.2).1
        (writePa (useLeaf ms core (s.asidOf e.sid) true x.1.leaf x.1.va) (copyAcc s core e x.1) x.1.pa x.2).2) s.ms) :=
    foldl_steady (.rfl' _) (fun m x k => noteEcc_steady (writePa_steady (useLeaf_steady k ..) ..) _) _
  exact k.wf h
theorem letCommit_wf (h : Memory.wf s.ms.mem = true) (keys : List Nat) (fuel : Nat) :
    Memory.wf (s.letCommit keys fuel).ms.mem = true := by
  induction fuel generalizing s with
  | zero => exact h
  | succ f ih =>
    unfold State.letCommit
    split
    · exact h
    · have k (l : List (Nat × Bool × CCmd)) :
          Memory.wf (l.foldl (fun (s : State) x => { s with ms := s.ms.unlock x.2.2.id }) s).ms.mem = true :=
        foldl_keeps (P := fun (t : State) => Memory.wf t.ms.mem = true)
          (f := fun (s : State) (x : Nat × Bool × CCmd) => { s with ms := s.ms.unlock x.2.2.id }) (fun _ _ h => h) l s h
      dsimp only
      split
      · exact k _
      · exact ih (commitTst_wf (k _) ..)
theorem freeLines_wf (h : Memory.wf s.ms.mem = true) (pa n : Nat) : Memory.wf (s.freeLines pa n).ms.mem = true := by
  unfold State.freeLines
  split
  · exact h
  · exact letCommit_wf h ..
theorem partWr_wf (h : Memory.wf s.ms.mem = true) (pa : Nat) (bs : List Byte) : Memory.wf (s.partWr pa bs).ms.mem = true := by
  unfold State.partWr
  split
  · exact (noteEcc_steady (writePa_steady (.rfl' _) ..) _).wf (freeLines_wf h ..)
  · exact h
theorem supWr_wf (h : Memory.wf s.ms.mem = true) (core asid : Nat) (k : AKind) (va : Nat) (bs : List Byte) :
    Memory.wf (s.supWr core asid k va bs).1.ms.mem = true := by
  unfold State.supWr
  have e := (checkRuns_kept (.rfl' s) { core := core, asid := asid, sup := true } k (runsOf va bs.length)).wf h
  dsimp only
  split
  · exact e
  · refine (wrParts_kept (commitParts_kept (.rfl' _) ..) ..).wf ?_
    exact foldl_keeps (P := fun (t : State) => Memory.wf t.ms.mem = true) (fun _ _ h => freeLines_wf h ..) _ _ e
/-- A destroyed key leaves memory as it is. -/
theorem destroyKey_mem (ms : MemSys) (key : Nat) : (destroyKey ms key).2.mem = ms.mem := rfl

/-! ## Accesses by virtual address -/

theorem supRd_kept (h : Kept r s) (core asid : Nat) (k : AKind) (va n : Nat) : Kept r (s.supRd core asid k va n).1 := by
  unfold State.supRd
  have e := checkRuns_kept h { core := core, asid := asid, sup := true } k (runsOf va n)
  dsimp only
  split
  · exact e
  · exact rdParts_kept (commitParts_kept e ..) ..
theorem supWr_kept (h : Kept r s) (l : r.ms.locks = []) (core asid : Nat) (k : AKind) (va : Nat) (bs : List Byte) :
    Kept r (s.supWr core asid k va bs).1 := by
  unfold State.supWr
  have e := checkRuns_kept h { core := core, asid := asid, sup := true } k (runsOf va bs.length)
  dsimp only
  split
  · exact e
  · refine wrParts_kept (commitParts_kept ?_ ..) ..
    exact foldl_keeps (P := fun t => Kept r t) (fun t p h => by rw [freeLines_none (h.locks.trans l)]; exact h) _ _ e

end Sys2Proof.Machine
end

