-- ==== Sys2Proof/Tests/Slice0.lean ====
section
/-! SUPPORT. Tests: ill-formed terms that WellFormed refuses, words and results that the manual gives, and for each statement a state and
operands that meet its hypotheses. -/

open Sys2Proof Sys2Proof.Machine

namespace Sys2Proof.Tests

set_option Elab.async false
set_option maxRecDepth 20000

/-! ## A small machine -/

/-- Memory with 8-byte words at addresses. -/
def cells (l : List (Nat × Nat)) : List Host.Cell := l.foldl (fun m e => Sparse.setRun m 0 e.1 (leBytes 8 e.2)) []

/-- Context 1: its tables lie at 0x20000, and four blocks of 64 MiB follow each other from address 0: COH, SWC, PRIV, FAR; its codebook
directory lies at 0x3000000 and its owner table at 0x2000000. -/
def tables : List (Nat × Nat) :=
  [(0x10080, 0x20000), (0x10088, 0x3000000), (0x100B0, 0x2000000), (0x100B8, 1), (0x100C0, 0x5000), (0x100C8, 0x1000000),
   (0x20000, 0x220000001), (0x22000, 0x240000001),
   (0x24000, 0x400000002CF), (0x24008, 0x800000002DF), (0x24010, 0xC00000002EF), (0x24018, 0x1000000002FF)]

/-- Their translations as a core holds them. -/
def held (core : Nat) : List TlbEntry :=
  [(0, 0x400000002CF), (1, 0x800000002DF), (2, 0xC00000002EF), (3, 0x1000000002FF)].map (fun (n, w) =>
    { unit := core, asid := 1, vpn := n, block := true, pte := BitVec.ofNat 64 w, ptePa := 0x24000 + 8 * n })

/-- A launch record: one core, 8 tiles, 4 accumulators, 8 codebook slots, 64 KiB of scratchpad, 16 KiB of
stash, 8 KiB of window rings, 2 barriers. -/
def record : Vector Word 8 :=
  #v[1 <<< 32, 1 + (1 <<< 32), 64 + (16 <<< 16) + (8 <<< 32) + (2 <<< 48), 8 + (4 <<< 8) + (8 <<< 16), 0, 0, 0, 0x77]

/-- A strand of role 0 on core 0 at the word of slot 1 of a block at 0x4000. -/
def strand0 : Strand :=
  { life := .live, team := some 0, role := 0, pc := 0x4008, tframe := 0x1000000, strapvec := 0x5000
    s := ((Vector.replicate 64 0).set 1 0x100).set 2 3, blk := some (0x4000, wordBlock 0x011000C214000000) }

/-- The strand on its core, in a team of one core that its launch has placed. -/
def base : State :=
  { State.reset with
    strands := [(0, strand0)], cores := [(0, { team := some 0 })]
    teams := [(0, some { launch := 0, num := 0, shape := 1, base := 0, slot := 0 })]
    launches := [(0, some { queue := 0, index := 0, record := record, asid := 1, phase := .dispatched })]
    sys := { ctxbase := 0x10000 }, ms := { State.reset.ms with mem := cells tables, tlb := held 0 ++ held 192 } }
/-- The same in supervisor mode. -/
def sup : State := base.modSt (fun x => { x with modeS := true })
/-- The same with scalar registers set. -/
def sregs (s : State) (l : List (Nat × Word)) : State :=
  l.foldl (fun s e => s.modSt (fun x => x.setReg { file := .s, num := e.1 } (.w e.2) 0)) s

def h0 : Hdr := { role := 0, g := 0, gn := false }
def noPart : Part := { va := 0, pa := 0, len := 0, leaf := { pte := 0, ptePa := 0, block := false } }
def nextOf (o : Host.Outcome State Fault Refusal) : State := match o with | .next s => s | _ => State.reset
def isNext (o : Host.Outcome State Fault Refusal) : Bool := match o with | .next _ => true | _ => false
def okv {α : Type} (d : α) (x : State × Except TrapInfo α) : α := match x.2 with | .ok v => v | .error _ => d
def isOk {α : Type} (x : State × Except TrapInfo α) : Bool := match x.2 with | .ok _ => true | .error _ => false
def isOkN {α : Type} (x : State × Except Nat α) : Bool := match x.2 with | .ok _ => true | .error _ => false
theorem ok_pair {α : Type} (d : α) {x : State × Except TrapInfo α} (h : isOk x = true) : x = (x.1, .ok (okv d x)) := by
  obtain ⟨a, b⟩ := x
  cases b <;> simp_all [isOk, okv]

theorem none_pair {x : State × Option TrapInfo} (h : x.2.isNone = true) : x = (x.1, none) := by
  obtain ⟨a, b⟩ := x
  simpa using h

def cleanB (s : State) : Bool := s.ms.wakes.isEmpty && s.ms.errs.isEmpty && s.ms.corrMarks.isEmpty && s.ms.bad.isNone
def readyB (s : State) (rs : List Reg) : Bool := rs.all (fun r => !s.st.awaits r && s.st.left s.now r == 0)
theorem clean_of {s : State} (h : cleanB s = true) : Clean s := by simpa [cleanB, Clean, and_assoc] using h
theorem ready_of {s : State} {rs : List Reg} (h : readyB s rs = true) : ReadyRegs s rs := by
  simpa [readyB, ReadyRegs, List.all_eq_true] using h
theorem runs_of {s : State} {h : Hdr} {rs : List Reg} (c : (cleanB s && s.guardOn h && readyB s (rP h.g :: rs)) = true) :
    Runs s h rs := by
  simp only [Bool.and_eq_true] at c
  exact ⟨clean_of c.1.1, c.1.2, ready_of c.2⟩
theorem runsv_of {s : State} {h : Hdr} {rs : List Reg}
    (c : (cleanB s && s.lanesOn h && readyB s (rP h.g :: rs) && !s.pipeLost) = true) : RunsV s h rs := by
  simp only [Bool.and_eq_true, Bool.not_eq_true'] at c
  exact ⟨clean_of c.1.1.1, c.1.1.2, ready_of c.1.2, c.2⟩
theorem runsl_of {s : State} {h : Hdr} {rs : List Reg} (c : (cleanB s && s.lanesOn h && readyB s (rP h.g :: rs)) = true) :
    RunsL s h rs := by
  simp only [Bool.and_eq_true] at c
  exact ⟨clean_of c.1.1, c.1.2, ready_of c.2⟩
theorem runss_of {s : State} {h : Hdr} {rs : List Reg} (c : (cleanB s && s.guardOn h && readyB s (rP h.g :: rs) && s.st.modeS) = true) :
    RunsS s h rs := by
  simp only [Bool.and_eq_true] at c
  exact ⟨runs_of (by simp [c.1]), c.2⟩

/-- Does a word decode to an instruction? -/
def decodes (w : Word) (i : Instr) : Bool := match decodeWord w with | .ok j => decide (j = i) | .error _ => false
theorem decodes_ok {w : Word} {i : Instr} (h : decodes w i = true) : decodeWord w = .ok i := by
  unfold decodes at h
  split at h
  · rename_i j hj
    rw [hj, of_decide_eq_true h]
  · cases h


/-- Words written out from the encoding tables, one for each constructor that the statement DecodedWords does not name: role mx0 (or the role that
the opcode allows), no guard. -/
def h (r : BitVec 5) : Hdr := { role := r, g := 0, gn := false }
def words0 : List (Word × Instr) :=
  [(0x1000000000000000, .nop (h 2)), (0x1008000000000000, .halt (h 2)), (0x10100000006FFFFF, .br (h 2) 6 0xFFFFF),
   (0x1018000900300005, .jmp (h 2) 9 3 5), (0x10200FC000100002, .call (h 2) 63 1 2), (0x10280FC900000000, .callr (h 2) 63 9),
   (0x1030003F00000000, .ret (h 2) 63), (0x1050008260000000, .htest (h 2) 2 1 6), (0x106000000000000F, .barb (h 2) 15),
   (0x106800061D8FFFF8, .marm (h 2) 6 7 .die 0xFFFF8), (0x1070014600000001, .mwait (h 2) 5 (some 6)),
   (0x1078000400000000, .wakeat (h 2) 4), (0x1080010000000000, .time (h 2) 4), (0x1088010000000000, .cycle (h 2) 4),
   (0x1098008300000031, .csrw (h 2) 2 3 .utrapmask), (0x10A0000300000100, .csrs (h 2) 0 3 .strapvec),
   (0x10A8000300000000, .csrc (h 2) 0 3 .fpctl), (0x10B800060000FFFF, .sysc (h 2) 6 0xFFFF), (0x10C0000000000000, .rft (h 2)),
   (0x10D0000400000000, .yield (h 2) 4), (0x00D8008014000000, .moncfg (h 0) 2 0 5), (0x00E000420C000000, .monrd (h 0) 1 2 3),
   (0x00E800C414000000, .tlbinvPage (h 0) 3 4 5), (0x00E800C014000001, .tlbinvAsid (h 0) 3 0 5),
   (0x00E800C000000002, .tlbinvAll (h 0) 3 0 0), (0x00F000C81480FFF8, .pteamoInc (h 0) 3 8 5 .core 0xFFF8),
   (0x00F000C81481FFF8, .pteamoDec (h 0) 3 8 5 .core 0xFFF8), (0x00F000C81483FFF8, .pteamoOr (h 0) 3 8 5 .core 0xFFF8),
   (0x00F000C81484FFF8, .pteamoAndn (h 0) 3 8 5 .core 0xFFF8), (0x00F800D00000003F, .launch (h 0) 3 2 63)]
def words1 : List (Word × Instr) :=
  [(0x110000FE14000000, .add (h 2) 3 62 5), (0x110800FE14000000, .sub (h 2) 3 62 5), (0x111800FE14000000, .mulh (h 2) 3 62 5),
   (0x112000FE14000000, .mulhu (h 2) 3 62 5), (0x112800FE14000000, .div (h 2) 3 62 5), (0x113000FE14000000, .divu (h 2) 3 62 5),
   (0x113800FE14000000, .rem (h 2) 3 62 5), (0x114000FE14000000, .remu (h 2) 3 62 5), (0x114800FE14000000, .and (h 2) 3 62 5),
   (0x115000FE14000000, .or (h 2) 3 62 5), (0x115800FE14000000, .xor (h 2) 3 62 5), (0x116000FE14000000, .andn (h 2) 3 62 5),
   (0x116800FE14000000, .shl (h 2) 3 62 5), (0x117000FE14000000, .shr (h 2) 3 62 5), (0x117800FE14000000, .sar (h 2) 3 62 5),
   (0x118000FE14000000, .rol (h 2) 3 62 5), (0x118800FE14000000, .min (h 2) 3 62 5), (0x119000FE14000000, .max (h 2) 3 62 5),
   (0x119800FE14000000, .minu (h 2) 3 62 5), (0x11A000FE14000000, .maxu (h 2) 3 62 5), (0x11E000FE14000000, .addw (h 2) 3 62 5),
   (0x11E800FE14000000, .subw (h 2) 3 62 5), (0x11F000FE14000000, .mulw (h 2) 3 62 5), (0x11A800FE00000000, .clz (h 2) 3 62),
   (0x11B000FE00000000, .ctz (h 2) 3 62), (0x11B800FE00000000, .popc (h 2) 3 62), (0x11F800FE00000000, .bswap (h 2) 3 62),
   (0x11C800FE140000C8, .bfi (h 2) 3 62 5 3 8), (0x11D000FE14400000, .sel (h 2) 3 62 5 4),
   (0x11D800FE1400001B, .cmp (h 2) (.s 3) 62 5 .ntst)]
def words2 : List (Word × Instr) :=
  [(0x120000FEFFFFFFFF, .addi (h 2) 3 62 0xFFFFFFFF), (0x120800FEFFFFFFFF, .andi (h 2) 3 62 0xFFFFFFFF),
   (0x121000FEFFFFFFFF, .ori (h 2) 3 62 0xFFFFFFFF), (0x121800FEFFFFFFFF, .xori (h 2) 3 62 0xFFFFFFFF),
   (0x124800FEFFFFFFFF, .movhi (h 2) 3 62 0xFFFFFFFF), (0x125800FEFFFFFFFF, .muli (h 2) 3 62 0xFFFFFFFF),
   (0x126000FEFFFFFFFF, .mini (h 2) 3 62 0xFFFFFFFF), (0x126800FEFFFFFFFF, .maxi (h 2) 3 62 0xFFFFFFFF),
   (0x122000FE0000003F, .shli (h 2) 3 62 63), (0x122800FE0000003F, .shri (h 2) 3 62 63), (0x123000FE0000003F, .sari (h 2) 3 62 63),
   (0x123800FE0000003F, .roli (h 2) 3 62 63), (0x124000C080000000, .movi (h 2) 3 0x80000000),
   (0x125000FE8FFFFFFF, .cmpi (h 2) (.s 3) 62 .gtu 0x7FFFFFF), (0x127000C0FFFFFFC0, .addpc (h 2) 3 0xFFFFFFC0),
   (0x127800C000000040, .pset (h 2) 3 64), (0x128000FE14000000, .pand (h 2) 3 62 5), (0x128800FE14000000, .por (h 2) 3 62 5),
   (0x129000FE14000000, .pxor (h 2) 3 62 5), (0x129800FE14000000, .pandn (h 2) 3 62 5), (0x12B000FE14000000, .pany (h 2) 3 62 5),
   (0x12B800FE14000000, .pall (h 2) 3 62 5), (0x12C000FE14000000, .pcnt (h 2) 3 62 5), (0x12C800FE14000000, .pfirst (h 2) 3 62 5),
   (0x12A000FE00000000, .pfrom (h 2) 3 62), (0x12A800FE00000000, .pto (h 2) 3 62), (0x130000FE14000003, .fadd (h 2) .bf16 3 62 5),
   (0x130800FE14000003, .fsub (h 2) .bf16 3 62 5), (0x131000FE14000003, .fmul (h 2) .bf16 3 62 5),
   (0x133000FE14000003, .fdiv (h 2) .bf16 3 62 5)]
def words3 : List (Word × Instr) :=
  [(0x134000FE14000003, .fmin (h 2) .bf16 3 62 5), (0x134800FE14000003, .fmax (h 2) .bf16 3 62 5),
   (0x135000FE14000003, .fminm (h 2) .bf16 3 62 5), (0x135800FE14000003, .fmaxm (h 2) .bf16 3 62 5),
   (0x139800FE14000003, .fscalb (h 2) .bf16 3 62 5), (0x132000FE14700002, .fms (h 2) .fp16 3 62 5 7),
   (0x132800FE14700002, .fnma (h 2) .fp16 3 62 5 7), (0x133800FE00000001, .fsqrt (h 2) .fp32 3 62),
   (0x136800FE00000001, .fclass (h 2) .fp32 3 62), (0x13A000FE00000001, .fexp2 (h 2) .fp32 3 62),
   (0x13A800FE00000001, .flog2 (h 2) .fp32 3 62), (0x13B000FE00000001, .frcp (h 2) .fp32 3 62),
   (0x13B800FE00000001, .frsq (h 2) .fp32 3 62), (0x136000FE14001E00, .fcmp (h 2) .fp64 (.s 3) 62 5 .or),
   (0x137000FE00000076, .fcvt (h 2) .fp16 .fp32 (some .sr) 3 62), (0x137800FE000000C1, .fcvti (h 2) .fp32 .u32 none 3 62),
   (0x138000FE00000064, .icvtf (h 2) .fp64 .u64 (some .rtz) 3 62), (0x138800FE14000401, .fsgn (h 2) .fp32 (.xor 5) 3 62),
   (0x138800FE00000801, .fsgn (h 2) .fp32 .neg 3 62), (0x139000FE00000028, .frnd (h 2) .fp64 (some .rdn) 3 62),
   (0x13C000C000000003, .frand (h 2) (.unif .bf16) 3), (0x13C000C000000200, .frand (h 2) .raw 3),
   (0x140000FE14F80000, .lds (h 2) .s4 .core 3 62 5 0x80000), (0x140800FE14100001, .sts (h 2) .b1 .package 3 62 5 1),
   (0x141000FE16500001, .ldg (h 2) .s1 .domain 3 62 5 1), (0x141800FE15200002, .stg (h 2) .b2 .cluster 3 62 5 2),
   (0x142000FE1DE00002, .qld (h 2) .s2 .die 7 3 62 2), (0x142801BE14000010, .qldp (h 2) .package 5 6 62 16),
   (0x1438000000000008, .qwait (h 2) none), (0x1438000000000003, .qwait (h 2) (some 3))]
def words4 : List (Word × Instr) :=
  [(0x144000C000000000, .qpop (h 2) 3), (0x145000FE1402FFF8, .samof (h 2) .fmax .b8 .package 3 62 5 0xFFF8),
   (0x145800FE15090008, .gamo (h 2) .umax .b8 2 3 62 5 8), (0x146000FE15310008, .gamof (h 2) .fmin .b4 2 3 62 5 8),
   (0x147007FE14600000, .stv (h 2) .sp2 .package 31 62 5 0), (0x147800FE04300000, .vgath (h 2) .b4 .package 3 62 1 0),
   (0x148000FE04D00004, .vscat (h 2) .sp1 .core 3 62 1 4), (0x1488001415000000, .clean (h 2) .line .cluster 20 5 0),
   (0x1490001400400000, .inval (h 2) .page .package 20 0 0), (0x1498001400800040, .pfetch (h 2) .core 20 0 64),
   (0x1CA80018FA040587, .tst (h 3) 3 none 2 .core 5 true 7), (0x0CB0001000480000, .wopen (h 1) 2 2 .cluster),
   (0x0CB8000400000002, .wadv (h 1) 4 2), (0x0CC0000000000002, .wclose (h 1) 2), (0x14C8014600000002, .wrow (h 2) 5 6 2),
   (0x0CD00010100C2008, .cpy (h 1) 2 (some 2) .die true 8), (0x0CD8001000000000, .cpyz (h 1) 2 (some 0) .package 0),
   (0x04E000C000000001, .cpyst (h 0) 3 true), (0x150000DE14000004, .vadd (h 2) 3 30 (.s 5)),
   (0x150800DE14000004, .vsub (h 2) 3 30 (.s 5)), (0x151000DE14000004, .vmul (h 2) 3 30 (.s 5)),
   (0x153000DE14000004, .vand (h 2) 3 30 (.s 5)), (0x153800DE14000004, .vor (h 2) 3 30 (.s 5)),
   (0x154000DE14000004, .vxor (h 2) 3 30 (.s 5)), (0x154800DE14000004, .vshl (h 2) 3 30 (.s 5)),
   (0x155000DE14000004, .vshr (h 2) 3 30 (.s 5)), (0x155800DE14000004, .vsar (h 2) 3 30 (.s 5)),
   (0x151800DE14000008, .vmulh (h 2) true 3 30 (.v 5)), (0x152000DE14000008, .vmin (h 2) true 3 30 (.v 5)),
   (0x152800DE14000008, .vmax (h 2) true 3 30 (.v 5))]
def words5 : List (Word × Instr) :=
  [(0x156000DE14000006, .vfadd (h 2) .bf16 3 30 (.s 5)), (0x156800DE14000006, .vfsub (h 2) .bf16 3 30 (.s 5)),
   (0x157000DE14000006, .vfmul (h 2) .bf16 3 30 (.s 5)), (0x159000DE14000006, .vfdiv (h 2) .bf16 3 30 (.s 5)),
   (0x157800DE14700001, .vfma (h 2) .fp16 3 30 (.v 5) 7), (0x158000DE14000009, .vfmin (h 2) true .fp16 3 30 (.v 5)),
   (0x158800DE14000009, .vfmax (h 2) true .fp16 3 30 (.v 5)), (0x159800DE00000002, .vfsqrt (h 2) .bf16 3 30),
   (0x15A000DE00000002, .vfexp2 (h 2) .bf16 3 30), (0x15A800DE00000002, .vfrcp (h 2) .bf16 3 30),
   (0x15B000DE00000002, .vfrsq (h 2) .bf16 3 30), (0x15B800DE14000079, .vcmp (h 2) (.flt .or .fp16) 3 30 (.v 5)),
   (0x15B800DE14000094, .vcmp (h 2) (.int .leu) 3 30 (.s 5)), (0x15D000DE14000008, .vperm (h 2) true 3 30 (.v 5)),
   (0x15D800FE00000000, .vsplat (h 2) 3 62), (0x15E000DEF8000058, .vext (h 2) true 5 3 30 62),
   (0x15E800DE00000031, .vhad (h 2) .n64 true .fp16 3 30), (0x15F000DE14400000, .vsel (h 2) 3 30 (.v 5) 4),
   (0x15F800FE14000000, .viota (h 2) 3 62 5), (0x16000001C0000000, .tcfg (h 2) 7),
   (0x16080A0251810001, .tzero (h 2) 5 (.row 6 2) (some 9)), (0x16180B8000000000, .tmovt (h 2) 5 6),
   (0x16200B8021BF8000, .tcopy (h 2) 5 6 (.col 6 127)), (0x16280B8000000000, .tdec (h 2) 5 6 .whole),
   (0x16300B8251810001, .tenc (h 2) 5 6 (.row 6 2) 9 true), (0x163802B000000015, .mma (h 2) 1 2 3 true false true false true false),
   (0x16400A0240003F80, .mpt (h 2) 5 9 127), (0x16480A3000000001, .mga (h 2) 5 3 true),
   (0x16500B8000000005, .mhad (h 2) 5 6 .whole .n32 true), (0x1658003021810001, .azero (h 2) 3 (.col 6 2) true)]
def words6 : List (Word × Instr) :=
  [(0x1660003251810002, .amovv (h 2) 3 (.row 6 2) 9 true), (0x166800325181000C, .awrv (h 2) 3 (.row 6 2) 9 false true true),
   (0x1678003240000000, .ascl (h 2) 3 .whole 9), (0x1680003240000008, .abmax (h 2) 3 .whole 9 true),
   (0x1688003000000000, .rzero (h 2) 3 .whole), (0x1690003251810003, .rmovv (h 2) 3 (.row 6 2) 9 true true),
   (0x169800090000000C, .mmode (h 2) .rna (some 9)), (0x06A000C400000010, .cbld (h 0) 3 4 16), (0x06A800C400000010, .cbrev (h 0) 3 4 16),
   (0x06B000C400000010, .cbfloor (h 0) 3 4 16), (0x06C800C400000010, .cbstat (h 0) 3 4 16), (0x06D000C400000010, .cbpin (h 0) 3 4 16),
   (0x0EC000C214000000, .cbdec (h 1) false 3 2 5), (0x0708010000000009, .collst (h 0) 4 true 1), (0x0710010000000001, .collab (h 0) 4 1),
   (0x0F2001CA19A00002, .fxw (h 1) .b2 3 7 10 6 2), (0x0728020A18820008, .fxamo (h 0) .add .b8 1 8 10 6 8),
   (0x0730024B18000000, .fxsig (h 0) 0 9 11 6 0), (0x0738004200000000, .chainOpen (h 0) 1 2),
   (0x0738004200000001, .chainClose (h 0) 1 2), (0x0738004200000002, .chainQuery (h 0) 1 2), (0x0F40018700000000, .demote (h 1) 6 7),
   (0x0748010500000000, .keyopGen (h 0) 4 5), (0x0748010500000002, .keyopQuery (h 0) 4 5),
   (0x0750004000000012, .sysr (h 0) 1 (.hmask 2)), (0x0758008A00000008, .sysw (h 0) 2 10 .evac),
   (0x076000C414007FFF, .hostsig (h 0) 3 4 5 0x7FFF), (0x0768008300000000, .timeadjStep (h 0) 2 3),
   (0x0768008300000001, .timeadjRate (h 0) 2 3), (0x0768008300000002, .timeadjQuery (h 0) 2 3)]
def words7 : List (Word × Instr) :=
  [(0x1F7001461C00FFFF, .trace (h 3) 5 6 7 0xFFFF), (0x0778030920000000, .monsnap (h 0) 12 9 8),
   (0x0780008300000000, .wdogArm (h 0) 2 3), (0x0780008300000001, .wdogOff (h 0) 2 3), (0x0780008300000002, .wdogQuery (h 0) 2 3),
   (0x0788014600000000, .sparemap (h 0) 5 6), (0x079000072000000A, .eccinj (h 0) 0 7 8 2 true)]
def wordsOk (l : List (Word × Instr)) : Bool := l.all (fun e => decodes e.1 e.2)
theorem test_words0 : wordsOk words0 = true := by decide +kernel
theorem test_words1 : wordsOk words1 = true := by decide +kernel
theorem test_words2 : wordsOk words2 = true := by decide +kernel
theorem test_words3 : wordsOk words3 = true := by decide +kernel
theorem test_words4 : wordsOk words4 = true := by decide +kernel
theorem test_words5 : wordsOk words5 = true := by decide +kernel
theorem test_words6 : wordsOk words6 = true := by decide +kernel
theorem test_words7 : wordsOk words7 = true := by decide +kernel

/-! ## Terms that no word holds, and words that no instruction is -/

/-- One ill-formed term for each check of `Instr.wf`: the role codes, then the fields in the order of `Instr.fieldsOk`. -/
def illFormed : List Instr :=
  [.nop (h 20), .nop (h 30), .jmp (h 0) 0 0 0, .jmp (h 0) 1 7 0, .call (h 0) 1 7 0, .br (h 0) 7 0, .loop (h 0) 1 1 7 0,
   .hand (h 1) 1 1 0, .hand (h 2) 1 2 0, .handPop (h 1) 1 2 0, .htest (h 0) 1 2 2, .fence (h 0) false false .core,
   .pteamoCas (h 0) 1 2 3 .package 0, .bfx (h 0) 1 2 false 63 1, .bfi (h 0) 1 2 3 63 1, .pset (h 0) 1 65,
   .qldp (h 0) .package 0 3 1 0, .qst (h 0) .mask .package 0 3 1 0, .samo (h 0) .cas .b8 .package 1 2 3 0, .gamo (h 0) .cas .b8 0 1 2 3 0,
   .fxamo (h 0) .cas .b8 0 3 1 2 0, .pfetch (h 0) .domain 1 2 0, .tld (h 1) 0 none 0 .package 1 false 0, .tst (h 3) 0 none 0 .package 127 false 2,
   .vcvt (h 2) .i32 .i32 true none 1 2, .vcvt (h 2) (.fmt .fp32) (.fmt .fp16) true none 1 2, .tzero (h 2) 0 (.col 1 0) (some 1),
   .tmovv (h 2) 0 .whole 1 false false false, .tmovv (h 2) 0 (.col 1 0) 1 false false true, .tdec (h 2) 0 1 (.col 1 0),
   .tenc (h 2) 0 1 (.col 1 0) 1 false, .mhad (h 2) 0 1 (.col 1 0) .n16 false, .acvt (h 2) 0 0 (.col 1 0) 1 false false false false,
   .amovv (h 2) 0 .whole 1 false, .awrv (h 2) 0 .whole 1 false false false, .rmovv (h 2) 0 .whole 1 false false,
   .cbld (h 0) 1 2 10, .cbrev (h 0) 1 2 15, .cbfloor (h 0) 1 2 12, .cbstat (h 0) 1 2 11, .cbpin (h 0) 1 2 13,
   .coll (h 0) 1 0 none .allGather true 0, .coll (h 0) 1 0 none (.allReduce .iadd) true 0, .csrw (h 0) 1 2 .argp, .csrs (h 0) 1 2 .asid,
   .csrc (h 0) 1 2 .beat, .sysw (h 0) 1 2 .keylive, .sysw (h 0) 1 2 (.hmask 0), .eccinj (h 0) 1 2 3 3 false, .reset, .load]
theorem test_ill_formed : illFormed.all (fun i => !Instr.wf i) = true := by decide +kernel

/-- Why a word is no instruction: 1 and the opcode for ILLOP, 2 and the reason for ILLENC. -/
def whyNot (w : Word) : Nat × Nat := match decodeWord w with
  | .ok _ => (0, 0) | .error (.illop o) => (1, o.toNat) | .error (.illenc r) => (2, r.toNat)
/-- An unassigned opcode; role code 20; a reserved bit of NOP; condition 12 of CMP; a scope of 5; a CSR that is none; a record base that is no
multiple of 8; notify role 16; a slice of 3; a vector register 32 (02 R40-R52, R62-R65; 05 R132; 06 R143). -/
theorem test_reject : [0x1ED8000000000000, 0xA000000000000000, 0x0000000000000001, 0x01D800000000000C, 0x0418000002800000, 0x0090004000000FFF,
      0x0CA0001110000001, 0x0CA0001080000001, 0x1608000030000000, 0x1500080000000000].map whyNot =
    [(1, 0xDB), (2, 3), (2, 4), (2, 4), (2, 4), (2, 4), (2, 4), (2, 3), (2, 4), (2, 4)] := by decide +kernel

/-! ## The words of the table, and the step that runs one -/

/-- The table's numbering is the word's own; a word of fewer bits has zeros above. -/
theorem test_table_word : decodeTableWord 64 0x011000C214000000 = some (.mul (h 0) 3 2 5) ∧
    decodeTableWord 64 0x1ED8000000000000 = none := by decide +kernel
/-- The word runs as the first instruction after reset: MUL of zeros writes s3 with a latency of 3 cycles, and goes on to the next slot. -/
theorem test_first_step :
    (let t := nextOf (step (State.reset.withFetchWord 64 0x011000C214000000)); (t.st.left t.now (rS 3), t.st.pc - (State.reset.withFetchWord 64 0x011000C214000000).st.pc)) = (3, 8) := by
  decide +kernel

/-! ## Results that the manual gives -/

/-- What s3 holds after a word that reads s1 and s2, at the bits of the word's result. -/
def sees (i : Instr) (a b : Word) : Word := (nextOf (exec i (sregs base [(1, a), (2, b)]))).sr 3
/-- The table "Results at the edges" of 06. -/
theorem test_edges :
    sees (.div h0 3 1 2) 0xFFFFFFFFFFFFFFF9 2 = 0xFFFFFFFFFFFFFFFD ∧ sees (.rem h0 3 1 2) 0xFFFFFFFFFFFFFFF9 2 = 0xFFFFFFFFFFFFFFFF ∧
    sees (.div h0 3 1 2) 0x8000000000000000 0xFFFFFFFFFFFFFFFF = 0x8000000000000000 ∧ sees (.remu h0 3 1 2) 7 0 = 7 ∧
    sees (.mulh h0 3 1 2) 0xFFFFFFFFFFFFFFFF 0xFFFFFFFFFFFFFFFF = 0 ∧
    sees (.mulhu h0 3 1 2) 0xFFFFFFFFFFFFFFFF 0xFFFFFFFFFFFFFFFF = 0xFFFFFFFFFFFFFFFE ∧
    sees (.addw h0 3 1 2) 0x7FFFFFFF 1 = 0xFFFFFFFF80000000 ∧ sees (.shl h0 3 1 2) 1 64 = 0 ∧
    sees (.sar h0 3 1 2) 0x8000000000000000 70 = 0xFFFFFFFFFFFFFFFF ∧ sees (.rol h0 3 1 2) 0x8000000000000001 65 = 3 ∧
    sees (.bfx h0 3 1 true 3 60) 0xF000000000000000 0 = 0xFFFFFFFFFFFFFFFF ∧ sees (.clz h0 3 1) 0 0 = 64 := by decide +kernel
/-- R140: division by zero, and the rest of its cases. -/
theorem test_division : sees (.div h0 3 1 2) 5 0 = 0xFFFFFFFFFFFFFFFF ∧ sees (.divu h0 3 1 2) 5 0 = 0xFFFFFFFFFFFFFFFF ∧
    sees (.rem h0 3 1 2) 0x8000000000000000 0xFFFFFFFFFFFFFFFF = 0 ∧ sees (.divu h0 3 1 2) 0x8000000000000000 0xFFFFFFFFFFFFFFFF = 0 ∧
    sees (.remu h0 3 1 2) 0x8000000000000000 0xFFFFFFFFFFFFFFFF = 0x8000000000000000 := by decide +kernel
/-- The routine `tail` of 06, word by word, on the values of its table; and R147's comparison with -1. -/
def seesP (i : Instr) (s : State) (d : PReg) : Word := (nextOf (exec i s)).pr d
def tailS : State := (sregs base [(2, 3), (3, 8), (5, 4)]).modSt (fun x => (x.setReg (rP 2) (.w 0xFF) 0).setReg (rP 3) (.w 0xFFFFFFFFFFFFFFFF) 0)
theorem test_tail : sees (.shri h0 3 1 6) 200 0 = 3 ∧ sees (.andi h0 3 1 63) 200 0 = 8 ∧ seesP (.planes h0 2 0 3) tailS 2 = 0xFF ∧
    (nextOf (exec (.pcnt h0 4 2 0) tailS)).sr 4 = 8 ∧ seesP (.cmpi h0 (.p 3) 3 .ne 0) tailS 3 = 0xFFFFFFFFFFFFFFFF ∧
    (nextOf (exec (.sel h0 6 5 2 3) tailS)).sr 6 = 4 ∧ seesP (.pfirst h0 4 2 0) tailS 4 = 1 ∧
    seesP (.cmpi h0 (.p 4) 2 .ltu 0x7FFFFFF) tailS 4 = 0xFFFFFFFFFFFFFFFF := by decide +kernel
/-- 08's ordering sketch: 1.0 + 2^-24 in FP32 is a tie that rounds to 1.0 and raises NX, at a latency of 4. -/
theorem test_fadd_tie : (let t := nextOf (exec (.fadd h0 .fp32 3 1 2) (sregs base [(1, 0x3F800000), (2, 0x33800000)]))
    (t.sr 3, t.st.flagQ, t.st.left base.now (rS 3))) = (0x3F800000, [(4, 1)], 4) := by decide +kernel
/-- 07's stochastic example: 0x3F80F000 into BF16 from srstate 1, and from the state after. -/
def srRun (st : Word) : Word × Word :=
  let t := nextOf (exec (.fcvt h0 .bf16 .fp32 (some .sr) 3 1) ((sregs base [(1, 0x3F80F000)]).modSt (fun x => { x with srstate := st })))
  (t.sr 3, t.st.srstate)
theorem test_sr_draws : srRun 1 = (0x3F80, 0x40822041) ∧ srRun 0x40822041 = (0x3F81, 0x100041060C011441) := by decide +kernel
/-- R156, R157, R178: a signalling NaN, infinity less infinity, a quotient by zero, the root of -1 and of -0, in FP32. -/
theorem test_specials : sees (.fadd h0 .fp32 3 1 2) 0x7F800001 0 = 0x7FC00000 ∧ sees (.fsub h0 .fp32 3 1 2) 0x7F800000 0x7F800000 = 0x7FC00000 ∧
    sees (.fdiv h0 .fp32 3 1 2) 0xBF800000 0 = 0xFF800000 ∧ sees (.fsqrt h0 .fp32 3 1) 0xBF800000 0 = 0x7FC00000 ∧
    sees (.fsqrt h0 .fp32 3 1) 0x80000000 0 = 0x80000000 ∧ sees (.fadd h0 .fp32 3 1 2) 0x80000000 0 = 0 := by decide +kernel

/-- v1 with some lanes, and zeros. -/
def vS (l : List Lane) : State := base.modSt (fun x => x.setReg (rV 1) (.v (vecOf (fun i => l.getD i 0))) 0)
/-- 08's example of VRED: the tree gives 16,777,218 in every lane, with NX. -/
theorem test_vred : (let t := nextOf (exec (.vred h0 (.fadd .fp32) 2 1) (vS [0x4B800000, 0x3F800000, 0x3F800000, 0x3F800000]))
    (lane (t.vr 2) 0, lane (t.vr 2) 63, t.st.flagQ.map (·.2))) = (0x4B800001, 0x4B800001, [1]) := by decide +kernel
/-- 08's example of VCVT: 500.0 saturates to 448 in E4M3, with OF and NX. -/
theorem test_vcvt : (let t := nextOf (exec (.vcvt h0 (.fmt .e4m3) (.fmt .fp32) false none 2 1) (vS [0x43FA0000]))
    (lane (t.vr 2) 0, t.st.flagQ.map (·.2))) = (0x7E, [5]) := by decide +kernel
/-- R188, R193: shifts of a lane by its width, and a permutation beyond the vector. -/
theorem test_lanes : (let t := nextOf (exec (.vshl h0 2 1 (.s 1)) ((vS [1, 3]).modSt (fun x => x.setReg (rS 1) (.w 32) 0))); lane (t.vr 2) 1) = 0 ∧
    (let t := nextOf (exec (.vperm h0 true 2 1 (.s 1)) ((vS [1, 3]).modSt (fun x => x.setReg (rS 1) (.w 65) 0))); lane (t.vr 2) 7) = 3 ∧
    (let t := nextOf (exec (.vperm h0 false 2 1 (.s 1)) ((vS [1, 3]).modSt (fun x => x.setReg (rS 1) (.w 65) 0))); lane (t.vr 2) 7) = 0 := by
  decide +kernel

/-- 10's summation at work: the group path gives 16,777,218, the FP32 path 16,777,216. -/
def mmaCore (w : Word) (one big : Lane) : Core :=
  let c : Core := { eM := 1, eN := 1, eK := 3 }
  let row (t : Nat) (c : Core) : Core := (c.putTile t [(0, big), (1, one), (2, one)]).setTag t 0 w
  row 2 (row 1 c)
def mma0 : ECmd := { id := 0, sid := 2, instr := .mma h0 1 2 0 false false false false false true, word := 0, pc := 0 }
theorem test_mma : Sparse.get ((mmaCore 0x7F7F7F7F00000101 0x3C00 0x6C00).engDo [] mma0).1.acc 0 0 = 0x4B800001 ∧
    Sparse.get ((mmaCore 0x7F7F7F7F00000000 0x3F800000 0x45800000).engDo [] mma0).1.acc 0 0 = 0x4B800000 := by decide +kernel
/-- R124: CALL's link and target, one block back; LOOP to its end and round. -/
theorem test_call : (let t := nextOf (exec (.call h0 3 2 0xFFFFF) base); (t.sr 3, t.st.pc)) = (0x4010, 0x3FD8) := by decide +kernel
theorem test_loop : (let t := nextOf (exec (.loop h0 3 1 0 1) (sregs base [(1, 1)])); (t.sr 3, t.st.pc)) = (0, 0x4010) ∧
    (let t := nextOf (exec (.loop h0 3 1 0 1) (sregs base [(1, 2)])); (t.sr 3, t.st.pc)) = (1, 0x4048) := by decide +kernel
/-- R113: s0 reads 0 and discards a write, and p0 reads all ones. -/
theorem test_wired : (nextOf (exec (.movi h0 0 5) base)).sr 0 = 0 ∧ (nextOf (exec (.pset h0 0 1) base)).pr 0 = BitVec.allOnes 64 := by
  decide +kernel
/-- R52, R360, R134: barb turns the carousel base within its depth. -/
theorem test_barb : (nextOf (exec (.barb h0 2) (base.modSt (fun x => { x with carbase := 3, cardepth := 4 })))).st.carbase = 2 := by decide +kernel
/-- R278, R282: STS and LDS of a signed halfword of the scratchpad. -/
theorem test_scratch : (nextOf (exec (.lds h0 .s2 .package 3 1 0 0) { nextOf (exec (.sts h0 .b2 .package 2 1 0 0)
    (sregs base [(1, 0x40), (2, 0x18001)])) with cur := 0 })).sr 3 = 0xFFFFFFFFFFFF8001 := by decide +kernel
/-- R278: STG and LDG of a word in an SWC page. -/
theorem test_global : (nextOf (exec (.ldg h0 .s4 .package 3 1 0 4) (nextOf (exec (.stg h0 .b8 .package 2 1 0 0)
    (sregs base [(1, 0x4000100), (2, 0x8000000112345678)]))))).sr 3 = 0xFFFFFFFF80000001 := by decide +kernel

/-! ## What meets the hypotheses of the statements -/

/-! ## Witnesses: states and operands that meet the hypotheses of each statement -/

theorem witness_EncodingsAgree : Instr.wf (.add h0 1 2 3) = true ∧ decodeWord 0x011000C214000000 = .ok (.mul h0 3 2 5) :=
  ⟨by decide, decodes_ok (by decide +kernel)⟩
/-- A strand whose turn it is at the word of slot 0 of its block, with nothing in the schedule, and with its turn there. -/
def atTurn (a : List Turn) : State := { base with agenda := a, late := false, ev := .none }
def readyAt (u : State) (w : Word) : Bool := u.mayIssue && !u.st.failed && u.st.until'.isNone && u.st.yieldTo.isNone &&
  u.st.mwait.isNone && decide (u.present = .word 0 w)
theorem witness_StepRunsDecoded : decodeWord 0x011000C214000000 = .ok (.mul h0 3 2 5) ∧ (atTurn []).agenda = [] ∧
    readyAt (atTurn []) 0x011000C214000000 = true ∧ (atTurn [.issue 0 false]).agenda = [.issue 0 false] ∧
    readyAt { atTurn [.issue 0 false] with agenda := [], cur := 0 } 0x011000C214000000 = true := by
  refine ⟨decodes_ok ?_, rfl, ?_, rfl, ?_⟩ <;> decide +kernel
theorem witness_StepKeepsInvariant : Inv State.reset ∧ isNext (step State.reset) = true :=
  ⟨by repeat' first | rfl | intro _ | constructor, by decide +kernel⟩
theorem witness_IntegerRegisterResults : Runs base h0 [rS 1, rS 2, rS 3] ∧ Runs base h0 [rS 1, rS 2, rS 0] :=
  ⟨runs_of (by decide +kernel), runs_of (by decide +kernel)⟩
theorem witness_IntegerImmediateResults : Runs base h0 [rS 1, rS 3] := runs_of (by decide +kernel)
theorem witness_BitFieldResults : Runs base h0 [rS 1, rS 2, rP 1, rS 3] ∧ (63 : BitVec 6).toNat + (0 : BitVec 6).toNat < 64 ∧
    (0 : BitVec 6).toNat + (63 : BitVec 6).toNat < 64 := by
  refine ⟨runs_of ?_, ?_⟩ <;> decide +kernel
theorem witness_CompareResults : Runs base h0 [rS 1, rS 2, rP 1] ∧ Runs base h0 [rS 1, rS 2, rS 3] :=
  ⟨runs_of (by decide +kernel), runs_of (by decide +kernel)⟩
theorem witness_PredicateResults : Runs base h0 [rP 1, rP 0, rP 2, rS 1, rS 2, rS 3] := runs_of (by decide +kernel)
theorem witness_FloatResults : Runs base h0 [rS 1, rS 2, rS 4, rS 3] := runs_of (by decide +kernel)
theorem witness_FloatOtherResults : Runs base h0 (rS 1 :: rS 2 :: rS 3 :: SgnOp.regs .abs) := runs_of (by decide +kernel)
theorem witness_VectorIntegerResults : RunsV base h0 [rV 1, VOpB.reg (.v 2), rP 1, rS 1, rS 2, rV 3] := runsv_of (by decide +kernel)
theorem witness_VectorFloatResults : RunsV base h0 [rV 1, VOpB.reg (.s 2), rV 2, rV 3] := runsv_of (by decide +kernel)
theorem witness_VectorCrossLaneResults : RunsV base h0 [rV 1, VOpB.reg (.v 2), rP 1] ∧ RunsV base h0 [rV 1, rV 2] ∧
    Clean base ∧ ReadyRegs base [rP 0, rS 2, rV 1, rS 3] ∧ base.pipeLost = false ∧
    (base.laneMask h0).getLsbD (((base.sr 2).toNat + 63) % 64) = true ∧
    ReadyRegs base [rP 1, rS 2, rV 1, rS 3] ∧
    (base.laneMask { role := 0, g := 1, gn := false }).getLsbD (((base.sr 2).toNat + 63) % 64) = false := by
  refine ⟨runsv_of ?_, runsv_of ?_, clean_of ?_, ready_of ?_, ?_, ?_, ready_of ?_, ?_⟩ <;> decide +kernel
/-- Targets: aligned to a block, to a word of a block, and to neither; a count of 1 and of 3. -/
def atWord : State := sregs base [(2, 0x108)]
def once : State := sregs base [(2, 1)]
theorem witness_ControlTransfers : Runs base h0 [rS 1, rS 3] ∧ (base.sr 1).toNat % 64 = 0 ∧ Runs base h0 [rS 2, rS 3] ∧
    base.sr 2 ≠ 1 ∧ (base.sr 2).toNat % 64 ≠ 0 ∧ (base.sr 2).toNat % 8 ≠ 0 ∧
    Runs atWord h0 [rS 2, rS 3] ∧ (atWord.sr 2).toNat % 8 = 0 ∧ (atWord.sr 2).toNat / 8 % 8 ≠ 0 ∧
    Runs once h0 [rS 2, rS 3] ∧ once.sr 2 = 1 := by
  refine ⟨runs_of ?_, ?_, runs_of ?_, ?_, ?_, ?_, runs_of ?_, ?_, ?_, runs_of ?_, ?_⟩ <;> decide +kernel
/-- A strand with an operation in flight. -/
def waiting : State := base.modSt (fun x => { x with ops := [{ id := 0, cls := .launch, dst := [] }] })
theorem witness_PlainControlWords : Runs base h0 [rS 2, rS 3] ∧ base.allBack = true ∧ Runs waiting h0 [rS 2, rS 3] ∧
    waiting.allBack = false ∧ base.clock.ns < (base.sr 2).toNat ∧ (base.sr 0).toNat ≤ base.clock.ns ∧
    (base.sr 2).toNat % 2 ^ 16 ≠ 0 ∧ (base.sr 0).toNat % 2 ^ 16 = 0 := by
  refine ⟨runs_of ?_, ?_, runs_of ?_, ?_⟩ <;> decide +kernel
theorem witness_CsrWords : Runs base h0 [rS 1, rS 3] ∧ Csr.sup .fpctl = false ∧ Runs sup h0 [rS 1, rS 3] ∧ sup.st.modeS = true := by
  refine ⟨runs_of ?_, ?_, runs_of ?_, ?_⟩ <;> decide +kernel

/-- A team whose queue from role 0 to role 1 holds `n` tokens. -/
def tokens (n : Nat) : Team :=
  { launch := 0, num := 0, shape := 1, base := 0, slot := 0, hand := [(1, { toks := List.replicate n { src := 0, at' := 0, needs := [] } })] }
def queued (n : Nat) : State := { base.setTeam 0 (some (tokens n)) with cycle := 1 }
theorem queued_runs : ∀ n ∈ [0, 15, 16], (cleanB (queued n) && (queued n).guardOn h0 && readyB (queued n) [rP 0, rP 1]) = true ∧
    (queued n).cur < 768 ∧ (queued n).st.team = some 0 ∧ (queued n).team 0 = some (tokens n) := by decide +kernel
/-- Room for one token and no room; a token that can be popped and none; a role outside the team. -/
theorem witness_HandOvers : (∀ n ∈ [0, 15, 16], Runs (queued n) h0 [rP 1]) ∧
    ((tokens 15).handQ 0 1).toks.length + ((tokens 15).handQ 0 1).resv + 1 ≤ 16 ∧
    16 < ((tokens 16).handQ 0 1).toks.length + ((tokens 16).handQ 0 1).resv + 1 ∧
    (1 ≤ ((tokens 16).handQ 0 1).toks.length ∧
      ∀ x ∈ ((tokens 16).handQ 0 1).toks.take 1, (queued 16).popOk 0 (tokens 16) x 1 = true) ∧
    ¬(1 ≤ ((tokens 0).handQ 0 1).toks.length) ∧ 3 / 4 < (tokens 0).shape ∧ ¬(4 / 4 < (tokens 0).shape) ∧
    (tokens 0).place = .resident := by
  refine ⟨fun n h => runs_of (queued_runs n h).1, ?_, ?_, ?_, ?_, ?_, ?_, rfl⟩ <;> decide +kernel
/-- A team of one core whose barrier entry 1 is `b`, with a mask in s1. -/
def barTeam (b : BarEntry) : Team := { launch := 0, num := 0, shape := 1, base := 0, slot := 0, bars := [(1, b)] }
def barred (b : BarEntry) (m : Word) : State := sregs (base.setTeam 0 (some (barTeam b))) [(1, m)]
def launch0 : Launch := { queue := 0, index := 0, record := record, asid := 1, phase := .dispatched }
def barOk (b : BarEntry) (m : Word) : Bool :=
  let s := barred b m
  cleanB s && s.guardOn h0 && readyB s [rP 0, rS 1, rS 3] && decide (s.cur < 768 ∧ s.st.team = some 0 ∧ s.team 0 = some (barTeam b) ∧
    s.launch 0 = some launch0 ∧ s.st.barWait = none ∧ s.st.role = 0 ∧ s.st.carbase = 0 ∧ s.st.cardepth = 1)
/-- Entries 1 and 2 of a launch with 2 barriers; an entry not joined, joined at this generation and at the last; masks without the own
bit, beyond the team, and legal; an arrival that stands, another mask, an empty entry and a like mask. -/
theorem witness_Barriers :
    (∀ e ∈ [(({ taken := true } : BarEntry), (1 : Word)), ({ taken := true, joined := 1 }, 1), ({ taken := true, joined := 1, g := 1 }, 1),
      ({ taken := true }, 2), ({ taken := true }, 0x11), ({ taken := true, arrived := 1, mask := 3 }, 3),
      ({ taken := true, arrived := 2, mask := 3 }, 1), ({ taken := true }, 3), ({ taken := true, arrived := 2, mask := 3 }, 3)],
      barOk e.1 e.2 = true) ∧
    launch0.barriers = 2 ∧ 1 + (0 + 0) % 1 < launch0.barriers ∧ launch0.barriers ≤ 2 + (0 + 0) % 1 ∧
    ((barred { taken := true } 1).performed 0 = true) ∧ (2 : BitVec 16) &&& 1 = 0 ∧ ¬(0x11 < 2 ^ (4 * 1)) ∧
    ((2 : BitVec 16) ||| 1 = 3 ∧ (0 : BitVec 16) ||| 1 ≠ 3) := by decide +kernel

theorem witness_MonitorWords : Runs base h0 [rS 1, rS 0, rS 3] ∧
    base.checkPage (base.whoOf 0) { noHost := true } 0x100 64 =
      ((base.checkPage (base.whoOf 0) { noHost := true } 0x100 64).1,
        .ok (okv noPart (base.checkPage (base.whoOf 0) { noHost := true } 0x100 64))) ∧
    base.copyPending 0 = [] ∧ base.st.wake = false ∧ base.st.arms = [] ∧
    (let s := base.modSt (fun x => { x with wake := true }); s.st.wake = true) ∧
    (let s := base.modSt (fun x => { x with arms := [4] }); s.st.arms ≠ [] ∧ s.clock.ns < (s.sr 1).toNat ∧ (s.sr 0).toNat ≤ s.clock.ns) := by
  refine ⟨runs_of (by decide +kernel), ok_pair _ (by decide +kernel), ?_⟩
  decide +kernel
theorem witness_MonitorWords_bad : ((base.checkPage (base.whoOf 0) { noHost := true } 0x100 64).1.commitPage (base.whoOf 0)
    { noHost := true } (okv noPart (base.checkPage (base.whoOf 0) { noHost := true } 0x100 64))).ms.bad = none := by decide +kernel
/-- An engine command of the strand in flight. -/
def busy : State := base.modCore 0 (fun c => { c with equeue := [{ id := 0, sid := 0, instr := .tcfg h0 1, word := 0, pc := 0 }] })
theorem witness_FencesAndScopes : Runs base h0 [] ∧ base.performedAt 0 .package = true ∧ Runs busy h0 [] ∧
    busy.performedAt 0 .package = false := by
  refine ⟨runs_of ?_, ?_, runs_of ?_, ?_⟩ <;> decide +kernel
/-- Traps in user mode with no user handler, in supervisor mode, with no handler at all, and with a user handler. -/
def settled : State := base.modSt Strand.settleRegs
theorem witness_TrapsTaken : base.lateStuck 0 = false ∧ base.st.settleRegs.modeS = false ∧ base.st.settleRegs.strapvec ≠ 0 ∧
    base.st.settleRegs.toUser [0x20] = false ∧ sup.st.settleRegs.modeS = true ∧ ({ strand0 with strapvec := 0 }).settleRegs.strapvec = 0 ∧
    ({ strand0 with utrapvec := 0x6000, utrapmask := 1 }).settleRegs.toUser [0x20] = true ∧ Runs base h0 [rS 1] ∧
    ({ strand0 with utrapvec := 0x6000, utrapmask := 1 }).toUser [0x20, 0x04] = false := by
  refine ⟨?_, ?_, ?_, ?_, ?_, ?_, ?_, runs_of ?_, ?_⟩ <;> decide +kernel
/-- A write and a read of the part whose pages pass their checks, with no ECC error in place, end well. -/
theorem supWr_witness {s : State} {core asid va : Nat} {k : AKind} {bs : List Byte} (n : NoEcc s.ms) (l : s.ms.locks = [])
    (h : isOk (s.checkRuns { core := core, asid := asid, sup := true } k (runsOf va bs.length)) = true)
    (b : ((s.checkRuns { core := core, asid := asid, sup := true } k (runsOf va bs.length)).1.commitParts
      { core := core, asid := asid, sup := true } k
      (okv [] (s.checkRuns { core := core, asid := asid, sup := true } k (runsOf va bs.length)))).ms.bad = none)
    (q : keyLost ((s.checkRuns { core := core, asid := asid, sup := true } k (runsOf va bs.length)).1.commitParts
      { core := core, asid := asid, sup := true } k
      (okv [] (s.checkRuns { core := core, asid := asid, sup := true } k (runsOf va bs.length)))).ms
      (okv [] (s.checkRuns { core := core, asid := asid, sup := true } k (runsOf va bs.length))) = false) :
    (s.supWr core asid k va bs).2 = none ∧ (s.supWr core asid k va bs).1.ms.bad = none := by
  have e := ok_pair [] h
  have c := checkRuns_kept (.rfl' s) { core := core, asid := asid, sup := true } k (runsOf va bs.length)
  have w := wrParts_ok ((commitParts_kept c { core := core, asid := asid, sup := true } k
    (okv [] (s.checkRuns { core := core, asid := asid, sup := true } k (runsOf va bs.length)))).ecc n)
    { core := core, asid := asid, sup := true } .package false va
    (okv [] (s.checkRuns { core := core, asid := asid, sup := true } k (runsOf va bs.length))) bs q
  have f (ps : List Part) (t : State) (ht : t.ms.locks = []) : ps.foldl (fun (s : State) p => s.freeLines p.pa p.len) t = t := by
    induction ps generalizing t with
    | nil => rfl
    | cons p ps ih => rw [List.foldl_cons, freeLines_none ht, ih t ht]
  unfold State.supWr
  dsimp only
  rw [e]
  dsimp only
  rw [f _ _ (c.locks.trans l)]
  exact ⟨w.2, w.1.trans b⟩
theorem supRd_witness {s : State} {core asid va n : Nat} {k : AKind} (e : NoEcc s.ms)
    (h : isOk (s.checkRuns { core := core, asid := asid, sup := true } k (runsOf va n)) = true)
    (b : ((s.checkRuns { core := core, asid := asid, sup := true } k (runsOf va n)).1.commitParts
      { core := core, asid := asid, sup := true } k
      (okv [] (s.checkRuns { core := core, asid := asid, sup := true } k (runsOf va n)))).ms.bad = none)
    (q : keyLost ((s.checkRuns { core := core, asid := asid, sup := true } k (runsOf va n)).1.commitParts
      { core := core, asid := asid, sup := true } k
      (okv [] (s.checkRuns { core := core, asid := asid, sup := true } k (runsOf va n)))).ms
      (okv [] (s.checkRuns { core := core, asid := asid, sup := true } k (runsOf va n))) = false) :
    (∃ c img, s.supRd core asid k va n = (c, .ok img)) ∧ (s.supRd core asid k va n).1.ms.bad = none := by
  have p := ok_pair [] h
  have c := (commitParts_kept (checkRuns_kept (.rfl' s) { core := core, asid := asid, sup := true } k (runsOf va n))
    { core := core, asid := asid, sup := true } k
    (okv [] (s.checkRuns { core := core, asid := asid, sup := true } k (runsOf va n)))).ecc e
  obtain ⟨h1, bs, h2⟩ := rdParts_ok c { core := core, asid := asid, sup := true } .package false va
    (okv [] (s.checkRuns { core := core, asid := asid, sup := true } k (runsOf va n))) q
  unfold State.supRd
  dsimp only
  rw [p]
  exact ⟨⟨_, bs, Prod.ext rfl h2⟩, h1.trans b⟩
theorem leBytes_length (n x : Nat) : (leBytes n x).length = n := by
  induction n generalizing x with
  | zero => rfl
  | succ n ih => simp [leBytes, ih]
theorem frameBytes_length {x : Strand} (h : x.replay = []) (t : TrapInfo) (pc : Word) (ns : Nat) :
    (x.frameBytes t pc ns).length = 0x4000 := by
  have r (lo k : Nat) (v : Vector Word 64) (hk : lo + k ≤ 64) : (regBytes v lo k).length = 8 * k := by
    unfold regBytes
    have e : ∀ (l : List Word), (l.flatMap (fun w => leBytes 8 w.toNat)).length = 8 * l.length := by
      intro l
      induction l with
      | nil => rfl
      | cons a l ih => simp only [List.flatMap_cons, List.length_append, leBytes_length, ih, List.length_cons]; omega
    rw [e, List.length_take, List.length_drop, Vector.length_toList]
    omega
  unfold Strand.frameBytes
  simp only [h, List.take_nil, layCaps, List.length_append, leBytes_length, zeros, List.length_replicate]
  rw [r _ _ _ (by omega), r _ _ _ (by omega)]
  simp only [padTo, zeros, List.length_append, List.length_replicate, List.flatMap_nil, List.foldl_nil, List.length_nil,
    show (acapBytes []).length = 5632 by decide +kernel]
theorem settled_noEcc : NoEcc settled.ms := And.intro (by decide +kernel) (by decide +kernel)
theorem settled_checks : isOk (settled.checkRuns { core := 0, asid := 1, sup := true } kCohWr (runsOf 0x1000000 0x4000)) = true := by
  decide +kernel
theorem settled_commits : ((settled.checkRuns { core := 0, asid := 1, sup := true } kCohWr (runsOf 0x1000000 0x4000)).1.commitParts
    { core := 0, asid := 1, sup := true } kCohWr
    (okv [] (settled.checkRuns { core := 0, asid := 1, sup := true } kCohWr (runsOf 0x1000000 0x4000)))).ms.bad = none ∧
    keyLost ((settled.checkRuns { core := 0, asid := 1, sup := true } kCohWr (runsOf 0x1000000 0x4000)).1.commitParts
    { core := 0, asid := 1, sup := true } kCohWr
    (okv [] (settled.checkRuns { core := 0, asid := 1, sup := true } kCohWr (runsOf 0x1000000 0x4000)))).ms
    (okv [] (settled.checkRuns { core := 0, asid := 1, sup := true } kCohWr (runsOf 0x1000000 0x4000))) = false := by decide +kernel
theorem base_noReplay : base.st.settleRegs.replay = [] := by decide +kernel
theorem settled_writes {b : List Byte} (l : b.length = 0x4000) :
    (settled.supWr 0 1 kCohWr 0x1000000 b).2 = none ∧ (settled.supWr 0 1 kCohWr 0x1000000 b).1.ms.bad = none := by
  refine supWr_witness settled_noEcc rfl ?_ ?_ ?_
  · rw [l]; exact settled_checks
  · rw [l]; exact settled_commits.1
  · rw [l]; exact settled_commits.2
/-- The frame of a trap can be written. -/
theorem witness_TrapWords (t : TrapInfo) (pc : Word) (ns : Nat) :
    ∃ w, settled.supWr 0 1 kCohWr 0x1000000 (base.st.settleRegs.frameBytes t pc ns) = (w, none) ∧ w.ms.bad = none := by
  have l := frameBytes_length base_noReplay t pc ns
  exact ⟨_, none_pair (by rw [(settled_writes l).1]; rfl), (settled_writes l).2⟩
/-- A strand in its supervisor handler whose RFT is past its last entry. -/
def inHandler : State := base.modSt (fun x => { x with modeS := true, rftAt := 65 })
theorem inHandler_noEcc : NoEcc inHandler.ms := And.intro (by decide +kernel) (by decide +kernel)
theorem inHandler_reads : (∃ c img, inHandler.supRd 0 1 kCohRd 0x1000000 0x4000 = (c, .ok img)) ∧
    (inHandler.supRd 0 1 kCohRd 0x1000000 0x4000).1.ms.bad = none := by
  refine supRd_witness inHandler_noEcc ?_ ?_ ?_ <;> decide +kernel
theorem rftEnd_ms {u : State} (h : u.st.ops = []) (img : List Byte) (F : Word) : (u.rftEnd img F).ms = u.ms := by
  unfold State.rftEnd
  dsimp only
  rw [h]
  simp only [List.filter_nil, List.map_nil, List.foldl_nil]
  split
  · split
    · unfold State.modTeam
      split <;> rfl
    · rfl
  · rfl
/-- The frame is read, none of its entries is left, and the strand is restored; and a strand in no handler. -/
theorem witness_FrameReturn : Runs inHandler h0 [] ∧ inHandler.st.modeS = true ∧ inHandler.st.rftAt - 1 = 64 ∧
    inHandler.st.tframe &&& ~~~63#64 = 0x1000000 ∧ base.st.modeS = false ∧ base.st.modeU = false ∧
    ∃ c u img, inHandler.supRd 0 1 kCohRd 0x1000000 0x4000 = (c, .ok img) ∧
      State.injectAll img 0x1000000 (min (field img 0xC 4) 64) [] 65 64 c = (u, none) ∧ (u.rftEnd img 0x1000000).ms.bad = none := by
  obtain ⟨⟨c, img, e⟩, b⟩ := inHandler_reads
  have k := supRd_kept (.rfl' inHandler) 0 1 kCohRd 0x1000000 0x4000
  rw [e] at b k
  dsimp only at b k
  refine ⟨runs_of ?_, ?_, ?_, ?_, ?_, ?_, c, c, img, e, ?_, ?_⟩
  rotate_left 6
  · unfold State.injectAll
    exact if_pos (Nat.min_le_right ..)
  · rw [rftEnd_ms]
    · exact b
    · rw [k.rest]
      show inHandler.st.ops = []
      decide +kernel
  all_goals decide +kernel
def entry0 : RepEntry :=
  { body := .engine { id := 0, sid := 0, instr := .tcfg h0 1, word := 0, pc := 0 }
    state := 2 }
theorem witness_FrameLayout : ({ strand0 with replay := [entry0] } : Strand).replay[0]? = some entry0 := rfl

/-- A scratchpad of 64 KiB with a ring of none: the last word that the plan opens, the first byte that it does not, and an address that
is not aligned. -/
def spState (x : Word) : State := sregs base [(1, x)]
def spBits (x n : Nat) : Bool := (List.range n).all (fun i => scratchOk launch0 ((x + i) % 2 ^ 64)) && !(spState 0).bandWait (.sp x n)
theorem witness_ScratchpadWords : Runs (spState 0xFFF8) h0 [rS 1, rS 2, rS 3, rS 4] ∧
    (spState 0xFFF8).launchOf 0 = some launch0 ∧ spBits 0xFFF8 8 = true ∧ 0xFFF8 % 8 = 0 ∧
    (Runs (spState 0xFFFC) h0 [rS 1, rS 2, rS 3, rS 4] ∧ 4 < 8 ∧ scratchOk launch0 ((0xFFFC + 4) % 2 ^ 64) = false ∧
      ∀ j, j < 4 → scratchOk launch0 ((0xFFFC + j) % 2 ^ 64) = true) ∧
    (0 < 8 ∧ 0x10000 % 8 = 0 ∧ scratchOk launch0 (0x10000 % 2 ^ 64) = false) ∧ 0xFFFC % 8 ≠ 0 ∧
    (.cas = (.cas : AmoOp) → (3 : SReg).toNat = (2 : SReg).toNat + 1) := by
  refine ⟨runs_of ?_, ?_, ?_, ?_, ⟨runs_of ?_, by decide, by decide +kernel, by decide +kernel⟩, ?_⟩ <;> decide +kernel
/-- A copy command of the strand that moves bytes of the scratchpad from 81920 on; waits of two and of three cycles. -/
def banding : State := base.modCore 0 (fun c => { c with cqLd := [{ id := 0, sid := 0, instr := .cpy h0 2 none .package true 4, word := 0, pc := 0
                                                                    record := #v[0, 520, 4 + (1 <<< 32), (1 <<< 40) + (32 <<< 48), 81920 + (4 <<< 32), 0, 0, 0] }] })
theorem witness_ScratchpadWaits : banding.bandWait (.sp 81920 8) = true ∧ banding.bandWait (.sp 81912 8) = false ∧
    bankWait [(0, 2)] (FixPlan.rows (.sp 0 8)) = 2 ∧ bankWait [(0, 3)] (FixPlan.rows (.sp 0 8)) = 3 := by decide +kernel

def ldParts : State × Except TrapInfo (List Part) := base.numbered.checkScalar (base.whoOf 0) {} 0x100 8
def stParts : State × Except TrapInfo (List Part) := base.numbered.checkScalar (base.whoOf 0) { write := true } 0x100 8
def ldDone : State × Except TrapInfo (List Byte) := ldParts.1.doRd (base.whoOf 0) {} .package true 0x100 (okv [] ldParts)
def stDone : State × Option TrapInfo := stParts.1.doWr (base.whoOf 0) { write := true } .package true 0x100 (okv [] stParts) (leBytes 8 3)
/-- The same with two bits wrong in DRAM where the word lies. -/
def flipped : State := base.setMs { base.ms with flips := [(flipKey 0 ((2 ^ 26 + 0x100) / 32), 3)] }
theorem witness_GlobalWords : Runs base h0 [rS 1, rS 0, rS 3] ∧
    ldParts = (ldParts.1, .ok (okv [] ldParts)) ∧ stParts = (stParts.1, .ok (okv [] stParts)) ∧
    ldDone = (ldDone.1, .ok (okv [] ldDone)) ∧ ldDone.1.ms.bad = none ∧ stDone = (stDone.1, none) ∧ stDone.1.ms.bad = none ∧
    (let p := flipped.numbered.checkScalar (flipped.whoOf 0) {} 0x100 8
     isOk p = true ∧ isOk (p.1.doRd (flipped.whoOf 0) {} .package true 0x100 (okv [] p)) = false) := by
  refine ⟨runs_of ?_, ok_pair _ ?_, ok_pair _ ?_, ok_pair _ ?_, ?_, none_pair ?_, ?_⟩ <;> decide +kernel
/-- A load that may be done at once, and one that misses when the schedule says so; an access that must follow one that is late, and an
access to a line that a tile store has locked. -/
def ldReq : FixReq := { id := 9, instr := .ldg h0 .b8 .package 3 1 0 0, word := 0, pc := 0x4008, addr := 0x100 }
theorem witness_GlobalLate : ldParts.1.fixLate base.ms ldReq (.mem (okv [] ldParts)) = false ∧
    ({ ldParts.1 with late := true }).fixLate base.ms ldReq (.mem (okv [] ldParts)) = true ∧
    (ldParts.1.modSt (fun x => { x with lates := [({ ldReq with id := 0, instr := .stg h0 .b8 .package 3 1 0 0 }, .mem (okv [] ldParts))] })).behind
      0 9 false (okv [] ldParts) = true ∧
    (ldParts.1.setMs { ldParts.1.ms with locks := [(lockKey ((2 ^ 26 + 0x100) / 64) hL2, 5)] }).anyLocked (base.whoOf 0) .package true true (okv [] ldParts) =
      true := by decide +kernel
/-- One lane of a vector access: p1 holds 1. -/
def oneLane : State := base.modSt (fun x => x.setReg (rP 1) (.w 1) 0)
def hp : Hdr := { role := 0, g := 1, gn := false }
def vreq (i : Instr) : FixReq :=
  { id := 0, instr := i, word := oneLane.wordAt 0, pc := oneLane.st.pc, addr := 0x100, mask := oneLane.laneMask hp }
def vruns (i : Instr) (k : AKind) (sp merge : Bool) : State × Except TrapInfo (List (LaneRun × List Part)) :=
  oneLane.numbered.checkLanes 0 k 4 sp (laneRuns merge 4 (oneLane.laneMask hp) (laneAddr (vreq i) 4))
def vfree (i : Instr) (k : AKind) (sp merge : Bool) : Bool :=
  let x := vruns i k sp merge
  let plan := FixPlan.lanes sp 4 (okv [] x)
  isOk x && !x.1.bandWait plan && !x.1.fixLate oneLane.ms (vreq i) plan && (oneLane.st.freeCap (vreq i)).isSome &&
    (if k.write then (let w := x.1.wrLanes 0 (vreq i) sp 4 (okv [] x); w.2.isNone && w.1.ms.bad.isNone)
     else (let w := x.1.rdLanes 0 (vreq i) sp 4 (okv [] x) (Vector.replicate 64 0); isOk w && w.1.ms.bad.isNone))
/-- Loads and stores of one lane, of memory and of the scratchpad, plain and by offsets. -/
theorem witness_VectorMemoryWords : RunsL oneLane hp [rS 1, rS 0, rV 2, rV 1] ∧
    (∀ sp ∈ [false, true], vfree (.ldv hp (if sp then .sp4 else .b4) .package 1 1 0 0) {} sp true = true ∧
      vfree (.vgath hp (if sp then .sp4 else .b4) .package 1 1 2 0) {} sp false = true ∧
      vfree (.stv hp (if sp then .sp4 else .b4) .package 1 1 0 0) { write := true } sp true = true ∧
      vfree (.vscat hp (if sp then .sp4 else .b4) .package 1 1 2 0) { write := true } sp false = true) ∧
    ((4 : Nat) = 1 ∨ (4 : Nat) = 2 ∨ (4 : Nat) = 4) := by
  refine ⟨runsl_of ?_, ?_⟩ <;> decide +kernel
/-- A strand with every access capture in use finds none; one with none in use finds the first. -/
def capsFull : Strand := { strand0 with lates := (List.range 11).map (fun i => ({ ldReq with instr := .vscat hp .b4 .package 1 1 2 0, cap := 8 + 2 * i }, .mem [])) }
theorem witness_Captures : capsFull.freeCap (vreq (.stv hp .b4 .package 1 1 0 0)) = none ∧
    strand0.freeCap (vreq (.stv hp .b4 .package 1 1 0 0)) = some 8 ∧ strand0.freeCap (vreq (.ldv hp .b4 .package 1 1 0 0)) = some 255 := by
  decide +kernel

def qreq (i : Instr) (data data2 : Word) : QReq :=
  { id := 0, instr := i, word := base.wordAt 0, pc := base.st.pc, addr := 0x100, data := data, data2 := data2 }
def qfree (i : Instr) (k : AKind) (n : Nat) : Bool :=
  let x := base.checkScalar (base.whoOf 0) k 0x100 n
  Instr.wf i && isOk x && (x.1.qIssue 0 3 (qreq i 3 0) (okv [] x) false).ms.bad.isNone
/-- A queued request of each kind that issues; a near page on which it is performed, and a FAR one. -/
theorem witness_QueuedWords : Runs base h0 [rS 1, rS 2, rS 3, rS 4, rS 5] ∧ (5 : SReg) = 4 + 1 ∧ (3 : SReg) = 2 + 1 ∧
    (base.st.tagAt 3).used base.cycle = false ∧ (0x100 : Word).toNat % 16 = 0 ∧
    qfree (.qld h0 .b8 .package 3 4 1 0) { far := true } 8 = true ∧ qfree (.qldp h0 .package 3 4 1 0) { far := true } 16 = true ∧
    qfree (.qst h0 .b8 .package 3 4 1 0) { write := true, far := true } 8 = true ∧
    qfree (.gamo h0 .cas .b8 3 4 1 2 0) { amo := true, write := true, far := true } 8 = true ∧
    qfree (.gamof h0 .fadd .b4 3 4 1 2 0) { amo := true, write := true, far := true } 4 = true ∧ base.cur < 768 ∧
    (let x := base.checkScalar (base.whoOf 0) { far := true } 0x100 8
     let c := base.commitParts (base.whoOf 0) { far := true } (okv [] x)
     (∀ p ∈ okv [] x, slc p.leaf.pte 5 4 ≠ 3) ∧ c.behind 0 0 false (okv [] x) = false ∧
      c.anyLocked (c.whoOf 0) .package false false (okv [] x) = false ∧
      (match (c.qDo 0 { qreq (.qld h0 .b8 .package 3 4 1 0) 3 0 with parts := okv [] x }).2 with | .ok _ => true | .error _ => false) = true) ∧
    (let x := base.checkScalar (base.whoOf 0) { far := true } 0xC000000 8
     isOk x = true ∧ ¬∀ p ∈ okv [] x, slc p.leaf.pte 5 4 ≠ 3) := by
  refine ⟨runs_of ?_, ?_⟩ <;> decide +kernel

/-- Tag 3 free, busy, and arrived. -/
def busyTag : State := base.modSt (fun x => x.setTag 3 { req := some (qreq (.qld h0 .b8 .package 3 4 1 0) 0 0) })
def arrivedTag : State := { base.modSt (fun x => x.setTag 3 { arrived := true }) with cycle := 1 }
theorem witness_TagWords : Runs base h0 [rS 3] ∧ Runs busyTag h0 [rS 3] ∧ Runs arrivedTag h0 [rS 3] ∧
    (∀ u, (base.st.tagAt u).req = none ∧ (base.st.tagAt u).arrived = false) ∧ (busyTag.st.tagAt 3).req.isSome = true ∧
    (∀ u, (busyTag.st.tagAt u).arrived = false) ∧ (arrivedTag.st.tagAt 3).arrived = true ∧ (arrivedTag.st.tagAt 3).used 1 = false ∧
    (arrivedTag.st.tagAt 3).used 0 = true ∧
    (∀ u : BitVec 3, (arrivedTag.st.tagAt u).arrived = true → u = 3) := by
  refine ⟨runs_of ?_, runs_of ?_, runs_of ?_, ?_⟩ <;> decide +kernel
/-- A request for another package in flight. -/
def busyFx : State := base.modSt (fun x => x.setTag 2 { req := some (qreq (.fxw h0 .b8 2 4 1 3 0) 0 0) })
theorem witness_RemoteWords : Runs base h0 [rS 1, rS 2, rS 4, rS 5] ∧ (5 : SReg) = 4 + 1 ∧ (base.st.tagAt 3).used base.cycle = false ∧
    Instr.wf (.fxr h0 .b8 3 4 1 2 0) = true ∧ Instr.wf (.fxw h0 .b8 3 4 1 2 0) = true ∧ Instr.wf (.fxamo h0 .cas .b8 3 4 1 2 0) = true ∧
    (base.sr 1).toNat % 8 = 0 ∧ base.performedAt 0 .domain = true ∧ Runs busyFx h0 [rS 1, rS 2, rS 4, rS 5] ∧
    busyFx.performedAt 0 .domain = false := by
  refine ⟨runs_of ?_, ?_, ?_, ?_, ?_, ?_, ?_, ?_, runs_of ?_, ?_⟩ <;> decide +kernel
/-- A page that is there, one that is not, and a page that PFETCH may fill or not. -/
theorem witness_MaintenanceWords : Runs base h0 [rS 1, rS 0] ∧
    (base.maintPart .line 0x100).1.ms.bad = none ∧ (base.maintPart .line 0x100).2.map (·.pa) = some (2 ^ 26 + 0x100) ∧
    (∀ p ∈ (base.maintPart .page 0x100).2, (base.maintPart .page 0x100).1.behind 0 9 true [p] = false) ∧
    (∀ p ∈ (base.maintPart .page 0x100).2, (base.modSt (fun x => { x with lates := [({ ldReq with id := 0 }, .mem (okv [] ldParts))] })).behind
      0 9 true [p] = true) ∧ (base.maintPart .line (2 ^ 30)).2 = none ∧ (base.maintPart .line (2 ^ 30)).1.ms.bad = none ∧ isOk (base.checkPage (base.whoOf 0) { noHost := true } 0x100 64) = true ∧
    isOk (base.checkPage (base.whoOf 0) { noHost := true } (2 ^ 30) 64) = false := by
  refine ⟨runs_of ?_, ?_⟩ <;> decide +kernel
/-- A layout record in s16-s23: FP32, 4 rows of one segment at 0x200000, a ring of 4 rows. -/
def lay : State := sregs base [(16, 0x200000), (17, 520), (18, 4 + (1 <<< 32)), (19, (1 <<< 40) + (32 <<< 48)), (20, 81920 + (4 <<< 32))]
def tldUse : CopyUse := { x := 2, sc := .package, nr := some 1, tile := some 7, cmd := .tld, n := 4 }
def cpyUse : CopyUse := { x := 2, sc := .package, cmd := .cpy, n := 4, band := some true }
/-- A record whose base is not aligned to 8. -/
def lay2 : State := sregs lay [(16, 0x200004)]
theorem witness_CopyWords : Runs lay h0 (recRegs 2) ∧ lay.copyCheck tldUse (lay.record 2) = none ∧
    lay.copyCheck { tldUse with cmd := .tst, cur := true } (lay.record 2) = none ∧ lay.copyCheck cpyUse (lay.record 2) = none ∧
    lay.copyCheck { cpyUse with cmd := .cpyz, band := none, cur := true } (lay.record 2) = none ∧
    lay.captureRec (lay.record 2) = ((lay.captureRec (lay.record 2)).1, .ok (okv default (lay.captureRec (lay.record 2)))) ∧
    lay.ms.bad = none ∧ lay.copyFull = false ∧ lay.nrRoom (some 1) = true ∧ lay.launchOf 0 = some launch0 ∧
    lay.badNr (some 0) = true ∧ lay.badNr (some 4) = true ∧ lay.badNr (some 1) = false ∧ launch0.tiles ≤ 8 ∧ (7 : BitVec 3).toNat < launch0.tiles ∧
    Runs lay2 h0 (recRegs 2) ∧ layBad (lay2.record 2) .tld 4 false launch0 = some (0, 2) := by
  refine ⟨runs_of ?_, ?_, ?_, ?_, ?_, ok_pair _ ?_, ?_, ?_, ?_, ?_, ?_, ?_, ?_, ?_, ?_, runs_of ?_, ?_⟩ <;> decide +kernel

def openWin : State := lay.modCore 0 (fun c => c.setWin 0 { isOpen := true, record := lay.record 2, rows := 4, stride := 576, base := 81920 })
def copying : State := base.modCore 0 (fun c => { c with cqLd := [{ id := 0, sid := 0, instr := .cpy h0 2 none .package true 4, word := 0, pc := 0, record := lay.record 2 }] })
theorem witness_WindowWords : Runs openWin h0 (rS 2 :: rS 3 :: recRegs 2) ∧
    openWin.copyCheck { x := 2, sc := .package, cmd := .wopen, n := min 4 (4 - 0) } (openWin.record 2) = none ∧ openWin.copyFull = false ∧
    (lay.co.winAt 0).isOpen = false ∧ Runs lay h0 (rS 2 :: rS 3 :: recRegs 2) ∧
    ((openWin.co.winAt 0).isOpen = true ∧ (openWin.sr 2).toNat = 3 ∧ (openWin.co.winAt 0).rows = 4 ∧ (openWin.co.winAt 0).tensorRows = 4) ∧
    ¬((openWin.sr 1).toNat < (openWin.co.winAt 0).rows) ∧ openWin.copyCount 0 = 0 ∧ Runs copying h0 (rS 2 :: rS 3 :: recRegs 2) ∧
    copying.copyCount 0 ≠ 0 := by
  refine ⟨runs_of ?_, ?_, ?_, ?_, runs_of ?_, ?_, ?_, ?_, runs_of ?_, ?_⟩ <;> decide +kernel

theorem witness_EngineWords : Runs base h0 (rS 1 :: rV 1 :: Slice.regs (.row 2 0)) ∧ (7 : BitVec 3).toNat < base.planTiles ∧
    (3 : BitVec 2).toNat < base.planAccs ∧ base.co.equeue.length < Config.engineQueueLen ∧ base.co.engCaps < Config.engineCaptures ∧
    isOk (base.captureCur (base.sr 1)) = true ∧ (base.captureCur (base.sr 1)).1.ms.bad = none ∧
    (let s := { base with launches := [(0, some { launch0 with record := record.set 3 0 })] }
     s.planTiles ≤ (0 : BitVec 3).toNat ∧ s.planAccs ≤ (0 : BitVec 2).toNat) := by
  refine ⟨runs_of ?_, ?_⟩ <;> decide +kernel
theorem witness_EngineEffects : ({} : Core).eMode ≠ .sr ∧ ({} : Core).eM ≤ 128 ∧ ({} : Core).eN ≤ 128 ∧ 3 < 4 ∧
    ({ id := 0, sid := 0, instr := .tcfg h0 1, word := 0, pc := 0, idx := 127, vcap := some (Vector.replicate 64 0) } : ECmd).idx < 128 := by
  decide

/-- Codebook 16: a table of two FP16 values whose versions 0 and 1 are valid; version 1 is in slot 0 of the core. -/
def withBook (count : Nat) : List Host.Cell :=
  cells (tables ++ [(2 ^ 26 + 0x3000400, 0x0001000001040101 + count <<< 32), (2 ^ 26 + 0x3000410, 0x3100000), (2 ^ 26 + 0x3000418, 128),
    (2 ^ 26 + 0x108, 0x40003C00)])
def book : State :=
  (base.setMs { base.ms with mem := withBook 2 }).modCore 0 (fun c =>
    c.setSlot 0 { cbid := some 16, stamp := 1, first := true, k := 1, data := [0x3C00, 0x4000] })
def pinnedBook : State := book.modCore 0 (fun c => c.pin 0 true)
def noDir : Dir := {}
def bookDir (s : State) : Dir := okv noDir (s.dirRead 0 1 16)
def bookState (s : State) : State := (s.dirRead 0 1 16).1
theorem witness_CodebookVectors : Runs (sregs book [(1, 0x1010)]) h0 [rV 1, rS 1, rV 2] ∧ isOk (book.dirRead 0 1 16) = true ∧
    (bookState book).ms.bad = none ∧ (bookDir book).checkLearned 16 1 0 = none ∧ (bookDir book).checkLearned 16 2 0 ≠ none ∧
    (bookState book).needVersion 0 16 1 (bookDir book) = ((bookState book).modCore 0 (fun c => c.touchSlot 0), .have' 0) ∧
    (bookDir book).current < 256 ∧ (bookDir book).floor < 256 ∧
    (okv noDir (base.dirRead 0 1 0)).kind = 3 ∧ (okv noDir (base.dirRead 0 1 3)).kind = 3 := by
  refine ⟨runs_of ?_, ?_⟩ <;> decide +kernel
/-- CBLD and CBPIN of the resident version, pinned and not; CBFLOOR of version 0, with no version in use; a payload that CBREV refuses and
one that it takes; a strand with accesses in flight, and a window that is full. -/
theorem witness_CodebookWords : Runs book h0 [rS 1, rS 3] ∧ (bookState book).ms.bad = none ∧
    (bookDir book).checkLearned 16 ((bookDir book).current) 0 = none ∧ (bookDir book).kind ≠ 0 ∧
    isOk ((bookState book).versionEmax (bookDir book) 1) = true ∧ ((bookState pinnedBook).co.slotAt 0).pinned = true ∧
    pinnedBook.co.pinnedSlots = 1 ∧ book.co.pinnedSlots + (bookDir book).k ≤ book.planSlots 0 ∧
    (let s := { book with launches := [(0, some { launch0 with record := record.set 3 0 })] }
     s.planSlots 0 < s.co.pinnedSlots + (bookDir s).k) ∧
    (bookDir book).checkLearned 16 0 0 = none ∧ (∀ k ∈ (bookState book).coresOf 1, ∀ j ∈ ((bookState book).core k).retired 16 0 0,
      j ∉ (bookState book).busySlots k) ∧
    ((bookState book).supWr 0 1 kCohWr ((bookState book).dirVa 1 16 + 7) [0]).2 = none ∧
    ((bookState book).supWr 0 1 kCohWr ((bookState book).dirVa 1 16 + 7) [0]).1.ms.bad = none := by
  refine ⟨runs_of ?_, ?_⟩ <;> decide +kernel
def revRun (va : Nat) : State × Except TrapInfo (List Byte) := (bookState book).loadRun 0 va (bookDir book).bytes
theorem witness_RevisionWords : (book.sr 1).toNat % 8 = 0 ∧ (book.sr 2).toNat % 8 ≠ 0 ∧ book.performed 0 = true ∧ busy.performed 0 = false ∧
    ((bookDir book).current + 1) % 256 = 2 ∧ (2 + 256 - (bookDir book).floor) % 256 ≠ 255 ∧
    (({ bookDir book with current := 254 } : Dir).current + 1 + 256 - (bookDir book).floor) % 256 = 255 ∧
    badPayload 1 1 (halves (okv [] (revRun 0x100))) = true ∧ (revRun 0x100).1.ms.bad = none ∧ isOk (revRun 0x100) = true ∧
    badPayload 1 1 (halves (okv [] (revRun 0x108))) = false ∧ isOk (revRun 0x108) = true ∧
    ((revRun 0x108).1.writeVersion 16 2 (bookDir book) (okv [] (revRun 0x108))).2 = none ∧
    ((revRun 0x108).1.writeVersion 16 2 (bookDir book) (okv [] (revRun 0x108))).1.ms.bad = none := by decide +kernel
/-- A supervisor strand whose context evacuates stack 0; accesses in flight. -/
def evac : State := { sup with sys := { sup.sys with evac := 1 } }
def busySup : State := busy.modSt (fun x => { x with modeS := true })
theorem witness_SystemRegisterWords : RunsS evac h0 [rS 1, rS 3] ∧ evac.performed 0 = true ∧ RunsS busySup h0 [rS 1, rS 3] ∧
    busySup.performed 0 = false ∧ evac.sys.evac.getLsbD 0 = true ∧ evac.sys.evac.getLsbD 7 = false := by
  refine ⟨runss_of ?_, ?_, runss_of ?_, ?_⟩ <;> decide +kernel

/-- Chain 1 is open to context 1 and named by a launch, chain 2 by none; key slots 0 and 1 hold keys, 3 none. -/
def chained (a : Word) : State :=
  { sregs sup [(1, a)] with pkg := { chains := [(1, 2), (2, 2)] }, ms := { sup.ms with keyGen := [(0, 1), (1, 2)] }
                            launches := [(0, some { launch0 with record := record.set 1 (1 + (1 <<< 32) + (1 <<< 56)) })] }
def allChains : Sparse Nat := (List.range 255).map (fun i => (i + 1, 2))
def allOpen : State := { sup with pkg := { chains := allChains } }
theorem get_map {l : List Nat} {v d j : Nat} (h : ∃ i ∈ l, i + 1 = j) : Sparse.get (l.map (fun i => (i + 1, v))) d j = v := by
  induction l with
  | nil => obtain ⟨i, hi, _⟩ := h; cases hi
  | cons a l ih =>
    simp only [List.map_cons, Sparse.get]
    split
    · rfl
    · obtain ⟨i, hi, e⟩ := h
      refine ih ⟨i, ?_, e⟩
      rcases List.mem_cons.1 hi with rfl | hi
      · contradiction
      · exact hi
theorem witness_ChainsAndKeys_runs : RunsS (chained 0) h0 [rS 1, rS 3] ∧ RunsS (chained 1) h0 [rS 1, rS 3] ∧
    RunsS (chained 2) h0 [rS 1, rS 3] ∧ RunsS (chained 3) h0 [rS 1, rS 3] ∧ RunsS (chained 255) h0 [rS 1, rS 3] ∧
    (chained 1).performed 0 = true := by
  refine ⟨runss_of ?_, runss_of ?_, runss_of ?_, runss_of ?_, runss_of ?_, ?_⟩ <;> decide +kernel
theorem witness_ChainsAndKeys_full : RunsS allOpen h0 [rS 1, rS 3] ∧ ∀ j, 1 ≤ j → j ≤ 255 → allOpen.chainOwner j ≠ 0 := by
  refine ⟨runss_of (by decide +kernel), fun j h1 h2 => ?_⟩
  have e : allOpen.chainOwner j = if j == 0 then 0 else Sparse.get allChains 0 j := rfl
  rw [e, if_neg (by simp; omega), allChains, get_map ⟨j - 1, List.mem_range.2 (by omega), by omega⟩]
  decide
theorem witness_ChainsAndKeys : ((chained 1).chainOwner 3 = 0 ∧ ∀ j ∈ [1, 2], (chained 1).chainOwner j ≠ 0) ∧
    (chained 1).chainOwner 255 = 0 ∧ ((chained 1).chainOwner 1 ≠ 0 ∧ (chained 1).chainCount 1 ≠ 0) ∧
    ((chained 1).chainOwner 2 ≠ 0 ∧ (chained 1).chainCount 2 = 0) ∧ keyGenOf (chained 1).ms 0 ≠ 0 ∧ keyGenOf (chained 1).ms 1 ≠ 0 ∧
    keyGenOf (chained 1).ms 3 = 0 := by decide +kernel
/-- A chain of the strand's own context, and one that is not open. -/
theorem witness_DemotedChains : Runs (chained 1) h0 [rS 1, rS 3] ∧ (chained 1).chainOwner 1 = (chained 1).asidOf 0 + 1 ∧
    (chained 1).chainOwner 3 = 0 := by
  refine ⟨runs_of ?_, ?_⟩ <;> decide +kernel

def monRun (s : State) : State × Except TrapInfo (List Part) := s.checkRuns (s.whoOf 0) { write := true } (runsOf 0x100 320)
/-- A monitor that a user may read and one that it may not; a buffer that is aligned, and one that is not. -/
theorem witness_MonitorRecords : Runs sup h0 [rS 1, rS 2, rS 3] ∧ sup.st.modeS = true ∧ monCfgOk 0 0x0001010000000001 = true ∧
    monCfgOk 0 0xFFFF000000000001 = false ∧ Runs base h0 [rS 1, rS 2, rS 3] ∧
    (base.st.modeS = false ∧ slc (base.mon 0).cfg 47 40 ≠ base.asidOf 0) ∧ (base.sr 1).toNat % 64 = 0 ∧ (base.sr 2).toNat % 64 ≠ 0 ∧
    base.checkRuns (base.whoOf 0) { write := true } (runsOf 0x100 (320 * (snapIds (slc (base.sr 0) 3 0)).length)) = (base, .ok []) ∧
    base.behind 0 base.nextId true [] = false ∧ base.anyLocked (base.whoOf 0) .package false true [] = false ∧
    (base.doWr (base.whoOf 0) { write := true } .package false 0x100 [] []).2 = none ∧
    (base.doWr (base.whoOf 0) { write := true } .package false 0x100 [] []).1.ms.bad = none := by
  refine ⟨runs_of ?_, ?_, ?_, ?_, runs_of ?_, ?_, ?_, ?_, ?_, ?_⟩ <;> first | decide +kernel | (rw [show runsOf 0x100 (320 * (snapIds (slc (base.sr 0) 3 0)).length) = [] by decide +kernel]; rfl)

/-- A host ring of 16 messages with room, and one that is full. -/
def ringed : State := { sup with pkg := { hostRing := some (0x500000, 4) } }
theorem witness_HostAndTime : RunsS ringed h0 [rS 1, rS 2, rS 3] ∧ ringed.performed 0 = true ∧
    (ringed.releaseAt 0 .package).sigRoom = some (0x500000, 4, 0) ∧
    ((ringed.releaseAt 0 .package).putMsg 0x500000 4 0 { code := 0, asid := 1, source := 0, team := 0, word0 := 0, word1 := 0 }).ms.bad = none ∧
    (base.releaseAt 0 .package).sigRoom = none ∧ busySup.performed 0 = false ∧ ({} : Clock).sub < Config.subPerNs ∧
    ({} : Clock).slewSub < Config.subPerNs := by
  refine ⟨runss_of ?_, ?_⟩ <;> decide +kernel

/-- A trace ring of 4 records that is enabled, at 0x100, and one that is not, at 0x140. -/
def traced : State := base.setMs { base.ms with mem := cells (tables ++ [(2 ^ 26 + 0x100, 0x300000), (2 ^ 26 + 0x108, 4), (2 ^ 26 + 0x118, 1)]) }
def tKind : AKind := { amo := true, write := true, cohOnly := true }
def tPage (va : Nat) : State × Except TrapInfo Part := traced.checkPage (traced.whoOf 0) tKind va 64
def tRead (va : Nat) : State × Except TrapInfo (List Byte) :=
  (tPage va).1.doRd (traced.whoOf 0) tKind .package false va [okv noPart (tPage va)]
def tRec : FixReq :=
  { id := traced.nextId, instr := .trace h0 3 1 2 5, word := traced.wordAt 0, pc := traced.st.pc, addr := 0x300000, mask := 0, data := 3 }
theorem witness_TraceWords : Runs traced h0 [rS 1, rS 2, rS 3] ∧ (traced.sr 2).toNat % 64 ≠ 0 ∧ (traced.sr 1).toNat % 64 = 0 ∧
    isOk (tPage 0x100) = true ∧ isOk (tRead 0x100) = true ∧
    traced.behind 0 traced.nextId true [okv noPart (tPage 0x100)] = false ∧
    traced.anyLocked (traced.whoOf 0) .package false true [okv noPart (tPage 0x100)] = false ∧
    (field (okv [] (tRead 0x100)) 24 1 % 2 = 1 ∧ field (okv [] (tRead 0x100)) 8 8 ≠ 0) ∧ field (okv [] (tRead 0x140)) 24 1 % 2 = 0 ∧
    (tRead 0x140).1.ms.bad = none ∧
    (let p := okv noPart (tPage 0x100)
     let u := (tRead 0x100).1.rmwPart (traced.whoOf 0) { p with va := p.va + 16, pa := p.pa + 16, len := 8 } 8 (fun b => leBytes 8 (leNat b + 1))
     isOkN u = true ∧ (u.1.numbered.traceStore tRec).ms.bad = none) := by
  refine ⟨runs_of ?_, ?_⟩ <;> decide +kernel

theorem witness_HealthWords : RunsS sup h0 [rS 1, rS 2, rS 3] ∧ (0 < (sup.sr 1).toNat ∧ (sup.sr 1).toNat < 2 ^ 32) ∧
    (sup.sr 0).toNat = 0 ∧ (sup.sr 1).toNat < 2 ^ 39 ∧ 2 ^ 39 ≤ ((sregs sup [(1, 0x8000000000)]).sr 1).toNat ∧
    slc (sup.sr 1) 6 4 ≠ 7 ∧ slc ((sregs sup [(1, 0x70)]).sr 1) 6 4 = 7 := by
  refine ⟨runss_of ?_, ?_⟩ <;> decide +kernel

/-- A page-table entry at PA 0x100 with a share count; the context's free-frame ring of 4 entries at VA 0x320000, empty or full. -/
def shared (n full : Nat) : State :=
  sup.setMs { sup.ms with mem := cells (tables ++ [(0x100, 0x700000000 + n * 65536 + 0xC5), (0x10090, 0x320000), (0x10098, 4),
    (2 ^ 26 + 0x320000, full)]) }
def sharedRing (n full : Nat) : State × Except TrapInfo (Nat × Bool) := (shared n full).ringRoom 1
def pteReq (i : Instr) : PteReq := { instr := i, pa := 0x100 }
def pteDec : Instr := .pteamoDec h0 3 1 2 .package 0
def pteStore (s : State) (w : Word) : State × Except Nat (List Byte) :=
  (s.freeLines 0x100 8).rmwPart { core := rmCore, asid := 255 } (pteReq pteDec).part 8 (fun _ => leBytes 8 w.toNat)
def pteStores (s : State) : Bool :=
  let x := pteStore s 0x123456789ABCDEF
  isOkN x && x.1.ms.bad.isNone
theorem witness_TranslationWords : RunsS sup h0 [rS 1, rS 2, rS 3] ∧ sup.performed 0 = true ∧ sup.tlbBusy none none = false ∧
    sup.tlbBusy (some 3) (some 0x100) = false ∧ busySup.performed 0 = false := by
  refine ⟨runss_of ?_, ?_⟩ <;> decide +kernel
/-- PTEAMO runs, at shares of 0, 1, 2 and 255. -/
theorem witness_TranslationWords_pte : (∀ n ∈ [0, 1, 2, 255], cleanB (shared n 0) = true ∧
      readyB (shared n 0) [rP 0, rS 1, rS 2, rS 3] = true ∧ (shared n 0).st.modeS = true ∧
      (shared n 0).behind 0 (shared n 0).nextId true [(pteReq pteDec).part] = false ∧ Sparse.get (shared n 0).ms.locks 0 (lockKey 4 hL2) = 0 ∧
      slc (leWord (peekBytes (shared n 0).ms 0 0x100 8)) 23 16 = n ∧ pteStores (shared n 0) = true) ∧
    (let s := (shared 2 0).modSt (fun x => { x with ops := [{ id := 0, cls := .pte (pteReq pteDec), dst := [] }] })
     s.behind 0 9 true [(pteReq pteDec).part] = true) ∧
    Instr.wf (.pteamoCas h0 3 1 2 .package 0) = true ∧ ((shared 0 0).sr 1).toNat = 0x100 ∧ (2 ^ 39 + 8) % 8 = 0 ∧ 0x104 % 8 ≠ 0 := by
  decide +kernel
/-- The frame of a share of 1 goes into a ring with room, and waits for a ring that is full. -/
theorem witness_TranslationWords_ring : isOk (sharedRing 1 0) = true ∧ okv (9, false) (sharedRing 1 0) = (0, true) ∧
    isOk (sharedRing 1 4) = true ∧ okv (9, true) (sharedRing 1 4) = (4, false) ∧
    ((sharedRing 1 0).1.ringPush 1 0 0x7000100C5).2.isNone = true ∧
    pteStores ((sharedRing 1 0).1.ringPush 1 0 0x7000100C5).1 = true ∧ leWord (peekBytes (shared 1 0).ms 0 0x100 8) = 0x7000100C5 := by decide +kernel

/-- Queue 3, device-fed, of context 1: 16 entries at VA 0x400000, or as the bits say; its head and tail. -/
def launching (flags head tail : Nat) (ring : Nat := 0x400000) : State :=
  { base with sys := { base.sys with qtbase := 0x30000 }
              ms := { base.ms with mem := cells (tables ++ [(0x300C0, ring), (0x300C8, 0x410000), (0x300D0, flags * 256 + 65536),
                (0x300E0, tail), (0x300E8, head)]) } }
def launchQ (s : State) : QDesc × State := (s.releaseAt 0 .package).qDesc 3
def launchRuns (s : State) : State × Except TrapInfo (List Part) :=
  (launchQ s).2.checkRuns { core := 192, asid := 1, sup := true } { cohOnly := true, write := true } (runsOf (launchQ s).1.ring 64)
theorem witness_LaunchWords : Runs (launching 3 0 0) h0 (rS 3 :: recRegs 2) ∧ (launching 3 0 0).performed 0 = true ∧
    (launchQ (launching 3 0 0)).2.ms.bad = none ∧
    ((launchQ (launching 3 0 0)).1.enabled = true ∧ (launchQ (launching 3 0 0)).1.deviceFed = true ∧ (launchQ (launching 3 0 0)).1.asid = 1 ∧
      (launchQ (launching 3 0 0)).1.fill ≠ (launchQ (launching 3 0 0)).1.entries) ∧ isOk (launchRuns (launching 3 0 0)) = true ∧
    (let s := (launchQ (launching 3 0 0)).2.supWr 192 1 { cohOnly := true, write := true } 0x400000
       (((launching 3 0 0).record 2).toList.flatMap (fun y => leBytes 8 y.toNat))
     (s.1.partWr (0x30000 + 64 * 3 + 0x20) (leBytes 8 1)).ms.bad = none) := by
  refine ⟨runs_of ?_, ?_⟩ <;> decide +kernel
/-- A queue that is not device-fed, one that is full, and one whose ring lies in no page. -/
theorem witness_LaunchWords_not : Runs (launching 1 0 0) h0 (rS 3 :: recRegs 2) ∧ (launchQ (launching 1 0 0)).1.deviceFed = false ∧
    Runs (launching 3 0 16) h0 (rS 3 :: recRegs 2) ∧ (launchQ (launching 3 0 16)).1.fill = (launchQ (launching 3 0 16)).1.entries ∧
    (launchRuns (launching 3 0 16)).1.ms.bad = none ∧ Runs (launching 3 0 0 0x40000000) h0 (rS 3 :: recRegs 2) ∧
    isOk (launchRuns (launching 3 0 0 0x40000000)) = false ∧ (launchRuns (launching 3 0 0 0x40000000)).1.ms.bad = none := by
  refine ⟨runs_of ?_, ?_, runs_of ?_, ?_, ?_, runs_of ?_, ?_⟩ <;> decide +kernel

/-- A team whose collective slot 2 is free, running, or complete, in a launch of context 1 whose group 1 has two members; a COLL record
of one element in s16 to s23. -/
def collected (c : Coll) : State :=
  { sregs base [(16, 0x100), (17, 0x200), (18, 0x100000001), (20, 0x300), (21, 0x400)] with
    teams := [(0, some { launch := 0, num := 0, shape := 1, base := 0, slot := 0, colls := (Vector.replicate 8 {}).set 2 c })]
    pkg := { groups := [(65, { valid := true, n := 2, rank := 0, members := [(0, 1), (1, 1)] })] } }
def collTeam (c : Coll) : Team :=
  { launch := 0, num := 0, shape := 1, base := 0, slot := 0, colls := (Vector.replicate 8 {}).set 2 c }
def collRun : Coll := { state := 1, group := 1, members := 2, record := (collected {}).record 2 }
def collOkB (c : Coll) : Bool :=
  let s := collected c
  cleanB s && s.guardOn h0 && readyB s (rP 0 :: rS 3 :: recRegs 2) && decide (s.cur < 768 ∧ s.st.team = some 0 ∧ s.team 0 = some (collTeam c) ∧
    collBad (s.record 2) .allGather false (s.group (s.asidOf s.cur) (CollRec.of (s.record 2)).group) 0 = none ∧ s.performed 0 = true ∧
    s.badNr none = false ∧ s.nrRoom none = true ∧ s.badNr (some 9) = true)
theorem witness_CollectiveWords : (∀ c ∈ [({} : Coll), collRun, { collRun with state := 2 }], collOkB c = true) ∧
    ((collTeam {}).coll 2).state ≠ 1 ∧ ((collTeam collRun).coll 2).state = 1 ∧ 2 ≤ ((collTeam { collRun with state := 2 }).coll 2).state ∧
    (((collected {}).releaseAt 0 .package |>.reserveNr none).collStart 0 2 ((collected {}).record 2) none .allGather false
      { valid := true, n := 2, rank := 0, members := [(0, 1), (1, 1)] }).ms.bad = none ∧
    ((collected collRun).collAbort 0 (collTeam collRun) 2 collRun 3 4).ms.bad = none := by decide +kernel

/-- A guard that is off, and one that needs a register that has not run out; s1 late by 3 cycles, and s2 by 5; s1 awaited. -/
def offH : Hdr := { role := 0, g := 1, gn := false }
def tardy : State := base.modSt (fun x => (x.setReg (rS 1) (.w 0) 3).setReg (rS 2) (.w 0) 5)
def awaited : State := base.modSt (fun x => { x with ops := [{ id := 0, dst := [rS 1], cls := .system, done := false }] })
theorem witness_GuardsAndSchedules : (Clean base ∧ ReadyRegs base [rP 1] ∧ base.pipeLost = false ∧ base.lanesOn offH = false ∧
      base.guardOn offH = false) ∧
    (Clean tardy ∧ tardy.guardOn h0 = true ∧ ReadyRegs tardy [rP 0] ∧ (∀ r ∈ [rS 1, rS 2, rS 3], tardy.st.awaits r = false) ∧
      tardy.st.left tardy.now (rS 1) ≠ 0 ∧ tardy.st.left tardy.now (rS 2) ≠ 0 ∧ tardy.st.left tardy.now (rS 3) = 0) ∧
    (Clean awaited ∧ awaited.guardOn h0 = true ∧ awaited.st.awaits (rS 1) = true) := by
  refine ⟨⟨clean_of ?_, ready_of ?_, ?_⟩, ⟨clean_of ?_, ?_, ready_of ?_, ?_⟩, clean_of ?_, ?_⟩ <;> decide +kernel

theorem witness_PrivilegedWordsTrap : Runs base h0 [rS 1, rS 4, rS 5, rS 3] ∧ (5 : SReg) = 4 + 1 ∧ (4 : SReg).toNat < 63 ∧
    base.st.modeS = false ∧ ∃ c, Csr.sup c = true := by
  refine ⟨runs_of ?_, ?_, ?_, ?_, .strapvec, ?_⟩ <;> decide +kernel

/-- Strand 0 in an event, with another strand current. -/
def at0 (f : Strand → Strand) : State := { base.modSt f with cur := 5, ev := .strand 0 }
def at0Wait : State := at0 (fun x => { x with mwait := some { until' := some 0, d := 3 } })
theorem witness_StrandEvents_waits : (at0 id).ms.bad = none ∧ (at0 id).ev = .strand 0 ∧
    (let s := at0 (fun x => { x with until' := some 0 }); (s.strand 0).until' = some 0 ∧ 0 ≤ s.clock.ns) ∧
    (let s : State := { at0 (fun x => { x with yieldTo := some 0 }) with cycle := 1 }; (s.strand 0).yieldTo = some 0 ∧ 0 < s.cycle) ∧
    ((at0Wait).strand 0).mwait = some { until' := some 0, d := 3 } ∧ ((at0Wait).strand 0).wake = false ∧
    ({ at0Wait with cur := 0 } : State).frozen 0 = false := by decide +kernel
/-- The strand enters the block at 0x4000: a block with a word for it, one without, one that beats, one that is malformed. -/
def enterBlk (b : Block) : State :=
  let s := at0 (fun x => { x with entry := some 0x4008, blk := none })
  s.setMs { s.ms with icache := [(icKey 0 (2 ^ 26 + 0x4000), b)] }
def enterGo (b : Block) : State × Except TrapInfo Part :=
  let c : State := { enterBlk b with cur := 0 }
  c.checkPage (c.whoOf 0) kFetch 0x4000 64
def enterW (b : Block) : State := (enterGo b).1.commitPage (({ enterBlk b with cur := 0 } : State).whoOf 0) kFetch (okv noPart (enterGo b))
def workB : Block := wordBlock 0x011000C214000000
def beatB : Block := { workB with header := workB.header ||| 0x80000000 }
def noneB : Block := { header := 0, words := Vector.replicate 7 0, bad := none }
def badB : Block := { noneB with bad := some { slot := none, illop := false, reason := 1 } }
theorem witness_StrandEvents_enters : (∀ b ∈ [workB, beatB, noneB, badB], isOk (enterGo b) = true ∧ (enterW b).ms.bad = none ∧
      ({ enterBlk b with cur := 0 } : State).mayIssue = true ∧ ((enterBlk b).strand 0).entry = some 0x4008 ∧ ((enterBlk b).strand 0).skips = 0 ∧
      (enterW b).icGet 0 (okv noPart (enterGo b)).pa = some b) ∧
    workB.bad = none ∧ workB.header.getLsbD 31 = false ∧ workB.holdsWork 0 (slc (0x4008 : Word) 5 3 - 1) = true ∧
    noneB.bad = none ∧ noneB.holdsWork 0 0 = false ∧ beatB.bad = none ∧ beatB.header.getLsbD 31 = true := by decide +kernel
/-- The block is not in the instruction cache; and a beat is too far ahead. -/
def missS : State := at0 (fun x => { x with entry := some 0x4008, blk := none })
def ahead : State :=
  let s := enterBlk beatB
  { s.modXs 0 (fun x => { x with beat := 9 }) with
    strands := [(0, { strand0 with entry := some 0x4008, blk := none, beat := 9 }), (1, { strand0 with role := 1 })] }
def aheadGo : State × Except TrapInfo Part :=
  let c : State := { ahead with cur := 0 }
  c.checkPage (c.whoOf 0) kFetch 0x4000 64
theorem witness_StrandEvents_tight : (let c : State := { missS with cur := 0 }; isOk (c.checkPage (c.whoOf 0) kFetch 0x4000 64) = true ∧
      missS.icGet 0 (2 ^ 26 + 0x4000) = none ∧ c.mayIssue = true) ∧ isOk aheadGo = true ∧
    (aheadGo.1.commitPage (({ ahead with cur := 0 } : State).whoOf 0) kFetch (okv noPart aheadGo)).ropeOk 0 = false ∧
    (aheadGo.1.commitPage (({ ahead with cur := 0 } : State).whoOf 0) kFetch (okv noPart aheadGo)).ms.bad = none ∧
    ({ ahead with cur := 0 } : State).mayIssue = true := by decide +kernel

/-- A result that waits at strand 0, and the trap of a failed request. -/
def answered : State :=
  { at0 (fun x => { x with ops := [{ id := 4, dst := [rS 3], vals := [.w 7], cls := .system, done := true }] }) with ev := .result 0 4 }
/-- An access of strand 0 has failed; its handler is absent, and no launch is of its context. -/
def failed : State :=
  let q : QReq := { id := 4, instr := .qld h0 .b8 .package 3 4 1 0, word := 0, pc := 0x4008, addr := 0x100 }
  at0 (fun x => { x with team := none, strapvec := 0, replay := [{ body := .queued q 3, state := 1, cause := 0x19, addr := 0x100 }] })
def failedAt : State := State.atWord { failed with cur := 0 }
theorem witness_ResultEvents_results : answered.ms.bad = none ∧ answered.frozen 0 = false ∧
    (answered.xs 0).ops.find? (fun o => o.id == 4) = some { id := 4, dst := [rS 3], vals := [.w 7], cls := .system, done := true } ∧
    (answered.deliver 0 4).ms.bad = none ∧ failed.ms.bad = none ∧ failedAt.st.oldestFailed = some { cause := 0x19, aux := 0, addr := 0x100 } ∧
    failedAt.mayIssue = true ∧ (failedAt.trapIn 0 { cause := 0x19, aux := 0, addr := 0x100 } failedAt.trapPc).ms.bad = none := by
  decide +kernel
/-- A word of slot 0 that is no instruction, with a guard that holds and one that does not. -/
def illWord (off : Bool) : Word := if off then 0x0110200000000001 else 0x0110000000000001
def illAt (off : Bool) : State :=
  State.atWord { at0 (fun x => { x with pc := 0x4000, blk := some (0x4000, wordBlock (illWord off)) }) with cur := 0 }
def illOk (off : Bool) : Bool :=
  let a := illAt off
  let h := fHdr (illWord off)
  a.mayIssue && a.st.oldestFailed.isNone && decide (a.badWord = some (illWord off, illencAt a 4)) && !laneGuarded (fOpc (illWord off)) &&
    !a.st.awaits (rP h.g) && a.st.left a.now (rP h.g) == 0 && a.guardOn h == !off
theorem witness_ResultEvents_bad : illOk true = true ∧ illOk false = true := by decide +kernel
/-- A queued request whose tag waits: not performed, performed, and not in time. -/
def tagReq : QReq :=
  { id := 0, instr := .qld h0 .b8 .package 3 4 1 0, word := 0, pc := 0x4008, addr := 0x100
    parts := okv [] (base.checkScalar (base.whoOf 0) { far := true } 0x100 8) }
def tagged (r : QReq) (cy : Nat) : State :=
  { base.modSt (fun x => { x.setTag 3 { req := some r } with ops := [{ id := 0, dst := [rS 4], cls := .queued 3 }] }) with
    cycle := cy, ev := .tag 0 3 (.data 0) }
theorem witness_ResultEvents_tags : (tagged tagReq 0).ms.bad = none ∧ (tagged tagReq 0).repliesHeld 0 = false ∧
    ((tagged tagReq 0).xs 0 |>.tagAt 3).req = some tagReq ∧ tagReq.performed = false ∧ tagReq.lost = false ∧ isFx tagReq.instr = false ∧
    (tagged tagReq 0).qHeld 0 tagReq = false ∧
    (match (((tagged tagReq 0).qPerform 0 3 tagReq).xs 0 |>.tagAt 3).req with
      | some q => q.performed && q.id == 0 && (((tagged tagReq 0).qPerform 0 3 tagReq).qArrive 0 3 q).ms.bad.isNone
      | none => false) = true ∧
    ((tagged { tagReq with performed := true } 0).qArrive 0 3 { tagReq with performed := true }).ms.bad = none ∧
    (qKind tagReq.instr).writes = false ∧
    tagReq.issued + 2 ^ 22 ≤ (tagged tagReq (2 ^ 22)).cycle := by decide +kernel
/-- The same requests while their core stands still. -/
def tagIced : State := (tagged tagReq 0).modCore 0 (fun c => { c with frozen := some { cause := 1, since := 0 } })
theorem witness_ResultEvents_held : tagIced.ms.bad = none ∧ tagIced.ev = .tag 0 3 (.data 0) ∧ tagIced.repliesHeld 0 = true ∧
    (tagIced.xs 0 |>.tagAt 3).req = some tagReq ∧ tagIced.qHeld 0 tagReq = false ∧ (tagIced.qPerform 0 3 tagReq).ms.bad = none ∧
    (let t := (tagged { tagReq with performed := true } 0).modCore 0 (fun c => { c with frozen := some { cause := 1, since := 0 } })
     t.ms.bad = none ∧ t.repliesHeld 0 = true ∧ ((t.xs 0).tagAt 3).req = some { tagReq with performed := true }) := by decide +kernel
/-- A PTEAMO dec of a share of 1 that has issued, with room in its ring, with none, and with a ring that lies in no page. -/
def pteWaits (full ring : Nat) : State :=
  { (shared 1 full).modSt (fun x => { x with ops := [{ id := 4, cls := .pte (pteReq pteDec), dst := [rS 3] }] }) with
    ev := .strand 0, ms := { (shared 1 full).ms with mem := Sparse.setRun (shared 1 full).ms.mem 0 0x10090 (leBytes 8 ring) } }
def pteEnds (s : State) : Nat := match s.pteGo 0 4 (pteReq pteDec) with
  | .wait => 0 | .fail u _ => if u.ms.bad.isNone then 1 else 9 | .done u _ => if u.ms.bad.isNone then 2 else 9
theorem witness_ResultEvents_ring : ((pteWaits 0 0x320000).xs 0).pteOps = [(4, pteReq pteDec)] ∧ pteEnds (pteWaits 0 0x320000) = 2 ∧
    pteEnds (pteWaits 4 0x320000) = 0 ∧ pteEnds (pteWaits 0 0x40000000) = 1 := by decide +kernel
/-- One that fails, where no launch is of its context. -/
theorem witness_ResultEvents_ring_fails : (match ({ pteWaits 0 0x40000000 with launches := [], teams := [] } : State).pteGo 0 4 (pteReq pteDec) with
    | .fail u _ => (u.kill 1 2).ms.bad.isNone | _ => false) = true := by decide +kernel
/-- A CBFLOOR that has issued: a retired version is in use on its core, and none is. -/
def floored (pend : Bool) : State :=
  { (base.modSt (fun x => { x with ops := [{ id := 4, cls := .floor 16 0 1, dst := [rS 3], vals := [.w 1] }] })).modCore 0 (fun c =>
      c.setSlot 0 { cbid := some 16, stamp := 0, first := true, k := 1, data := [] }) with ev := .result 0 4 }.modCore 0 (fun c =>
    if pend then { c with erun := some { id := 0, sid := 0, instr := .tcfg h0 1, word := 0, pc := 0, slots := [0] } } else c)
theorem witness_ResultEvents_floor : (∀ b ∈ [true, false], ((floored b).xs 0).ops.find? (fun o => o.id == 4) =
      some { id := 4, cls := .floor 16 0 1, dst := [rS 3], vals := [.w 1] } ∧ ((floored b).dropRetired 1 16 0 1).ms.bad = none ∧
      ((floored b).dropRetired 1 16 0 1).holdsRetired 1 16 0 1 = b) ∧ (floored true).asidOf 0 = 1 ∧
    (((floored false).dropRetired 1 16 0 1).deliver 0 4).ms.bad = none := by decide +kernel

/-- Core 0 with an engine command at the head of its queue, at its event: one that starts, and one whose product table is not there. -/
def engS (i : Instr) : State :=
  { base.modCore 0 (fun c => { c with equeue := [{ id := 0, sid := 0, instr := i, word := 0, pc := 0 }] }) with ev := .core 0 }
def engCmd (i : Instr) : ECmd := { id := 0, sid := 0, instr := i, word := 0, pc := 0 }
def engGo (i : Instr) : State × Option TrapInfo := (engS i).engCheck 0 1 (engCmd i) []
theorem witness_CoreEvents_engine : (∀ i ∈ [Instr.tcfg h0 1, .mga h0 1 2 true], (engS i).ms.bad = none ∧ (engS i).mayStart 0 = true ∧
      ((engS i).core 0).erun = none ∧ ((engS i).core 0).equeue = [engCmd i] ∧ ((engS i).core 0).engNeed (engCmd i) = ([], []) ∧ dirFail [] 0 = none) ∧
    (engGo (.tcfg h0 1)).2 = none ∧ (engGo (.tcfg h0 1)).1.ms.bad = none ∧
    (engGo (.mga h0 1 2 true)).2 = some { cause := 7, aux := 0xFF41 } ∧
    (let s := engS (.mga h0 1 2 true)
     let u := s.modCore 0 (fun c => { c with equeue := [], erun := some (engCmd (.mga h0 1 2 true)) })
     (u.engFail 0 { cause := 7, aux := 0xFF41 }).ms.bad = none) := by decide +kernel
/-- A command that runs; a core that is frozen with a late load; a team that has hung, whose lowest strand has no handler. -/
def engRun : State := { base.modCore 0 (fun c => { c with erun := some { engCmd (.tcfg h0 1) with acted := true } }) with ev := .core 0 }
def lateLd : FixReq := { id := 0, instr := .ldg h0 .b8 .package 3 1 0 0, word := 0, pc := 0x4008, addr := 0x100 }
def iced : State :=
  { (base.modSt (fun x => { x with lates := [(lateLd, .mem (okv [] ldParts))] })).modCore 0
    (fun c => { c with frozen := some { cause := 1, since := 0 } }) with ev := .core 0, cycle := 2 ^ 22 }
def hungT : Team := { launch := 0, num := 0, shape := 1, base := 0, slot := 0, hang := 2 ^ 24 }
def hung : State :=
  { base.modSt (fun x => { x with team := none, strapvec := 0 }) with teams := [(0, some hungT)], launches := [], ev := .team 0 }
theorem witness_CoreEvents_core : (engRun.core 0).erun = some { engCmd (.tcfg h0 1) with acted := true } ∧ engRun.frozen 0 = false ∧
    ((engRun.modCore 0 (fun c => { c with erun := none })).deliver 0 0).ms.bad = none ∧
    ({ iced with cycle := 9 } : State).mayThaw 0 = true ∧ iced.mayThaw 0 = false ∧ (({ iced with cycle := 9 } : State).thaw 0).ms.bad = none ∧
    (iced.core 0).frozen = some { cause := 1, since := 0 } ∧ 0 + 2 ^ 22 ≤ iced.cycle ∧
    (((coreSids 0).foldl (fun (s : State) sid => s.freezeFail sid) iced).freezeOver 0).ms.bad = none ∧
    hung.team 0 = some hungT ∧ hungT.place = .resident ∧ (hung.hang 0 hungT).ms.bad = none ∧ hung.ms.bad = none := by decide +kernel

/-- A command at the head of core 0's load queue: a band that goes, a record whose base lies in no page, one whose learned codebook is not
there yet. -/
def copyCmd (i : Instr) (s : State) : CCmd := { id := 0, sid := 0, instr := i, word := 0, pc := 0, record := s.record 2 }
def outCpy : Instr := .cpy h0 2 none .package true 4
def lay3 : State := sregs lay [(16, 0x40000000)]
def copyHead (i : Instr) (s : State) : State :=
  { base.modCore 0 (fun c => { c with cqLd := [copyCmd i s] }) with ev := .copyQueue 0 false }
def goOk (g : CopyGo) : Nat := match g with
  | .go u e => if u.ms.bad.isSome then 9 else if e.need.isNone then 0 else 3
  | .fail u _ => if u.ms.bad.isNone then 1 else 9
  | .hold u => if u.ms.bad.isNone then 2 else 9
theorem witness_CoreEvents_copy : (∀ s ∈ [lay, lay3], (copyHead outCpy s).ms.bad = none ∧ ((copyHead outCpy s).core 0).cr false = none ∧
      (copyHead outCpy s).mayStart 0 = true ∧ ((copyHead outCpy s).core 0).cq false = [copyCmd outCpy s] ∧
      (copyHead outCpy s).olderAccess 0 (copyCmd outCpy s) = false) ∧
    goOk ((copyHead outCpy lay).copyGo 0 (copyCmd outCpy lay)) = 0 ∧
    goOk ((copyHead outCpy lay3).copyGo 0 (copyCmd outCpy lay3)) = 1 := by decide +kernel
def lay4 : State := sregs lay [(17, 72), (19, 10 + (1 <<< 8) + (16 <<< 16) + (1 <<< 28) + (1 <<< 40) + (4 <<< 48))]
def tst1 : Instr := .tst h0 2 none 1 .package 0 false 1
def noVer : State :=
  { (base.setMs { base.ms with mem := withBook 2 }).modCore 0 (fun c => { c with cqLd := [copyCmd tst1 lay4] }) with ev := .copyQueue 0 false }
theorem witness_CoreEvents_hold : goOk (noVer.copyGo 0 (copyCmd tst1 lay4)) = 3 ∧ noVer.mayStart 0 = true ∧
    (noVer.core 0).cq false = [copyCmd tst1 lay4] ∧ noVer.olderAccess 0 (copyCmd tst1 lay4) = false ∧
    (noVer.copyRetry 0 false { copyCmd tst1 lay4 with need := some (16, 1, {}) }).ms.bad = none := by decide +kernel
/-- A window fetch of a row whose line a tile store has locked. -/
def fetching : CCmd := { copyCmd (.wopen h0 2 0 .package) lay with win := some 0 }
def lockedRow : State := base.setMs { base.ms with locks := [(lockKey ((2 ^ 26 + 0x200000) / 64) hL2, 8)] }
theorem witness_CoreEvents_locked_row : goOk (lockedRow.copyGo 0 fetching) = 2 ∧ goOk (base.copyGo 0 fetching) = 0 := by decide +kernel
/-- A command that runs: a band with a row to move, one with none, a tile store that holds its lines' locks, and one that another holds up;
no reply in time. -/
def crRun (e : CCmd) (lock : Nat) : State :=
  { (base.setMs { base.ms with locks := [(0x108000, lock)] }).modCore 0 (fun c => { c with crLd := some e }) with
    ev := .copyQueue 0 false, cycle := 2 ^ 22 }
def crBand : CCmd := { copyCmd outCpy lay with parts := [[okv noPart (base.checkPage (base.whoOf 0) { write := true } 0x200000 8)]] }
def crDone : CCmd := copyCmd outCpy lay
def crTst : CCmd := { copyCmd tst1 lay with store := [(okv noPart (base.checkPage (base.whoOf 0) { write := true } 0x200000 8), [1, 2, 3, 4, 5, 6, 7, 8])] }
theorem witness_CoreEvents_running : (∀ e ∈ [crBand, crDone, crTst], ((crRun e 0).core 0).cr false = some e ∧ (crRun e 0).copyMoves 0 false = true) ∧
    crBand.isTst = false ∧ ((crRun crBand 0).copyRow 0 false crBand).ms.bad = none ∧ crDone.writes = [] ∧ crDone.parts = [] ∧
    crTst.noReply = true ∧ crTst.since + 2 ^ 22 ≤ (crRun crTst 0).cycle ∧ crTst.isTst = true ∧ crTst.store ≠ [] ∧
    ((crRun crTst 0).tryLocks 0 false crTst).allLocks 0 crTst = true ∧ crTst.keyless ((crRun crTst 0).tryLocks 0 false crTst).ms = false ∧
    (((crRun crTst 0).tryLocks 0 false crTst).commitTst 0 false crTst).ms.bad = none := by decide +kernel
/-- A tile store of a page whose key has been destroyed. -/
def keyGone : State := ((crRun crTst 0).setMs { (crRun crTst 0).ms with keyGen := [] }).tryLocks 0 false crTst
theorem witness_CoreEvents_keyless : keyGone.allLocks 0 crTst = true ∧ crTst.keyless keyGone.ms = true ∧
    (keyGone.copyFail 0 false (crTst.keyTrap keyGone.ms)).ms.bad = none := by decide +kernel
/-- A tile store whose line an older one has locked. -/
def crOld : CCmd := { crTst with id := 7 }
def heldUp : State :=
  { (base.setMs { base.ms with locks := (linesOf [okv noPart (base.checkPage (base.whoOf 0) { write := true } 0x200000 8)]).map (fun l => (lockKey l hL2, 8)) }).setCore
      0 { crLd := some crTst } with cores := [(0, { team := some 0, crLd := some { crTst with started := 5 } }), (1, { crLd := some crOld })] }
theorem witness_CoreEvents_locked : (heldUp.core 0).cr false = some { crTst with started := 5 } ∧
    (heldUp.tryLocks 0 false { crTst with started := 5 }).allLocks 0 { crTst with started := 5 } = false := by decide +kernel
/-- A version of codebook 16 that core 0 has asked for, read and not in time. -/
def miss0 : VMiss := { cbid := 16, stamp := 1, slot := 0, k := 1, start := 0 }
def missing : State :=
  { (base.setMs { base.ms with mem := withBook 2 }).modCore 0 (fun c => { c with miss := [miss0] }) with ev := .version 0 16 1, cycle := 2 ^ 22 }
theorem witness_CoreEvents_version : (missing.core 0).miss.find? (fun m => m.cbid == 16 && m.stamp == 1) = some miss0 ∧
    isOk (missing.dirRead 0 1 16) = true ∧
    isOk ((missing.dirRead 0 1 16).1.supRd 0 1 kCohRd ((bookDir missing).record 1 + 64) (bookDir missing).bytes) = true ∧
    ((missing.dirRead 0 1 16).1.supRd 0 1 kCohRd ((bookDir missing).record 1 + 64) (bookDir missing).bytes).1.ms.bad = none ∧
    miss0.start + 2 ^ 22 ≤ missing.cycle ∧ (missing.versionTimeout 0 miss0).ms.bad = none := by decide +kernel

/-- A code object with a string table alone; a plan; one with no place for the handles that are known. -/
def zof0 : List Byte := leBytes 4 0x464F5A ++ leBytes 2 1 ++ leBytes 2 1 ++ leBytes 4 0 ++ leBytes 4 1 ++ leBytes 8 128 ++ leBytes 8 184 ++
  zeros 96 ++ leBytes 8 0x030009 ++ leBytes 8 176 ++ leBytes 8 8 ++ leBytes 8 8 ++ zeros 24
def plan0 : LoadPlan := { secVa := [], archVa := [], frames := [], tables := [], key := 0, handle := 1 }
def loading (f : List Byte) : State := { base with ev := .load 1 f plan0 }
def zofOf (f : List Byte) : Option Zof := match zofParse f with | .ok z => some z | .error _ => none
def errOf {α : Type} (x : Except Nat α) : Nat := match x with | .ok _ => 0 | .error e => e
theorem witness_LoaderEvents_load : (loading zof0).ms.bad = none ∧ (loading zof0).handleFree plan0 = true ∧ errOf (zofParse [0]) = 1 ∧
    (match zofOf zof0 with
      | some z => (match (loading zof0).loadObj 1 plan0 z with | .ok t => t.ms.bad.isNone && t.objects.length == 1 | .error _ => false) &&
          errOf ((loading zof0).loadObj 3 plan0 z) == 10
      | none => false) = true := by decide +kernel
/-- Handle 5 in use by a launch, handle 6 idle, handle 7 unknown; and a fill on its way. -/
def obj (h : Nat) : Obj := { handle := h, asid := 1, latgen := 1, routines := [], globals := [], uses := [], cbids := [], pages := [] }
def unloading (h : BitVec 32) : State :=
  { base with objects := [obj 5, obj 6], launches := [(0, some { launch0 with record := record.set 0 5 })], ev := .unload 1 h }
theorem witness_LoaderEvents_unload : ((unloading 7).objsOf 1).find? (fun o => o.handle == (7 : BitVec 32).toNat) = none ∧
    ((unloading 5).objsOf 1).find? (fun o => o.handle == (5 : BitVec 32).toNat) = some (obj 5) ∧ (unloading 5).objBusy (obj 5) = true ∧
    ((unloading 6).objsOf 1).find? (fun o => o.handle == (6 : BitVec 32).toNat) = some (obj 6) := by decide +kernel
def idleS : State := { unloading 6 with ms := State.reset.ms, sys := { qtbase := 0x10000000000 } }
theorem witness_LoaderEvents_idle : (idleS.objsOf 1).find? (fun o => o.handle == (6 : BitVec 32).toNat) = some (obj 6) ∧
    idleS.objBusy (obj 6) = false ∧ idleS.ms.bad = none := by decide +kernel
def fill0 : Fill := { at' := icKey 0 0x4004000, key := 0, asid := 1, va := 0x4000 }
def filling : State := base.setMs { base.ms with fills := [fill0] }
theorem witness_LoaderEvents_fill : filling.ms.fills.find? (fun e => e.at' == icKey 0 0x4004000) = some fill0 ∧ keyGenOf filling.ms 0 ≠ 0 ∧
    Sparse.get filling.ms.locks 0 (lockKey (0x4004000 / 64) hL2) = 0 ∧
    Sparse.get [(lockKey (0x4004000 / 64) hL2, 3)] 0 (lockKey (0x4004000 / 64) hL2) ≠ 0 ∧
    (readPa { filling.ms with fills := [] } { partAcc with core := 4 * 0, key := 0 } (0x4004000 / 64 * 64) 64).2.2 = none ∧
    (filling.doFill 0 0x4004000).ms.bad = none := by decide +kernel

/-- Queue 3 with a record at its head: one of zeros, which is rejected, and one of a routine that is loaded. -/
def desc0 : List Byte := zeros 24 ++ leBytes 4 1 ++ [1, 64, 1, 1] ++ zeros 32
def taking (w0 w1 : Nat) : State :=
  { launching 1 0 1 with
    ev := .queue 3, launches := [], teams := [], cores := [], strands := []
    objects := [{ obj 5 with routines := [{ entry := 0x4000, desc := desc0 }] }]
    ms := { base.ms with mem := cells (tables ++ [(0x100D0, 4), (0x300C0, 0x400000), (0x300C8, 0x410000), (0x300D0, 256 + 65536), (0x300E0, 1),
      (2 ^ 26 + 0x400000, w0), (2 ^ 26 + 0x400008, w1)]) } }
def takeQ (s : State) : QDesc × State := s.qDesc 3
def takeRd (s : State) : State × Except TrapInfo (List Byte) := (takeQ s).2.supRd rmCore 1 kCohRd 0x400000 64
def takeU (s : State) : State × Bool := (takeRd s).1.slotUsable 1 0x410000
def takeRec (s : State) : Launch := { queue := 3, index := 0, record := recordWords (takeQ s).1 (okv [] (takeRd s)), asid := 1, takenAt := 0 }
def takenS (s : State) : State :=
  (((takeU s).1.partWr ((takeU s).1.qPa 3 + 0x28) (leBytes 8 1)).setLaunch 0 (some (takeRec s))).writeCompletion (takeRec s) 0 0 0
def goodRec : Nat := 1 + 2 ^ 32 + 64 * 2 ^ 40 + 2 ^ 52
theorem witness_RingmasterEvents_take : (∀ w ∈ [(0, 0), (5, goodRec)], ((taking w.1 w.2).ms.bad = none ∧
      (takeQ (taking w.1 w.2)).1.enabled = true ∧ (takeQ (taking w.1 w.2)).1.ok = true ∧ (takeQ (taking w.1 w.2)).1.fill ≤ (takeQ (taking w.1 w.2)).1.entries ∧
      (takeQ (taking w.1 w.2)).2.mayTake 3 (takeQ (taking w.1 w.2)).1 = true ∧ isOk (takeRd (taking w.1 w.2)) = true ∧
      (takeU (taking w.1 w.2)).2 = true ∧ (takeU (taking w.1 w.2)).1.freeLaunch = 0)) := by decide +kernel
def accepted (s : State) : Bool :=
  let v := (takenS s).validate (takeRec s)
  match v.2 with
  | .ok (o, r) => (v.1.accept 0 (takeRec s) o r).ms.bad.isNone
  | .error _ => false
def rejected (s : State) : Bool :=
  let v := (takenS s).validate (takeRec s)
  match v.2 with
  | .error c => (v.1.rejectLaunch 0 (takeRec s) c).ms.bad.isNone
  | .ok _ => false
theorem witness_RingmasterEvents_verdict : accepted (taking 5 goodRec) = true ∧ rejected (taking 0 0) = true := by decide +kernel
theorem witness_RingmasterEvents_scan : ((taking 0 0).scanQueue 3).ms.bad = none ∧ (base.scanQueue 3).ms.bad = none := by decide +kernel
/-- A launch that waits for the counter at 0x500 to reach 3: not yet, then, and marked as failed; and one that is ready. -/
def waiter : Launch := { launch0 with phase := .waiting, record := (record.set 4 0x500).set 5 3 }
def counting (n : Nat) : State :=
  { base.setMs { base.ms with mem := cells (tables ++ [(2 ^ 26 + 0x500, n)]) } with launches := [(0, some waiter)], ev := .launch 0 }
def countPs (n : Nat) : State × Option (List Part) := (counting n).counterParts 1 0x500 kCohRd
def countRd (n : Nat) : State × Except TrapInfo (List Byte) :=
  ((countPs n).1.commitParts { core := 192, asid := 1 } kCohRd ((countPs n).2.getD [])).rdParts { core := 192, asid := 1 } .package false 0x500
    ((countPs n).2.getD [])
theorem witness_RingmasterEvents_count : (∀ n ∈ [2, 3, 2 ^ 63], (countPs n).2.isSome = true ∧ isOk (countRd n) = true ∧
      leNat (okv [] (countRd n)) = n ∧ (countRd n).1.ms.bad = none) ∧ (counting 2).launch 0 = some waiter ∧ waiter.waitaddr = 0x500 ∧
    waiter.waitval = 3 ∧ ((countRd (2 ^ 63)).1.retireLaunch 0 waiter 3).ms.bad = none := by decide +kernel
def readyL : Launch := { launch0 with phase := .ready }
def readyS : State := { base with launches := [(0, some readyL)], teams := [], cores := [], strands := [] }
/-- Beside one that is dispatched and holds every core. -/
def closedS : State := { readyS with launches := [(0, some readyL), (1, some { launch0 with held := List.range 192 })] }
theorem witness_RingmasterEvents_dispatch : readyS.bestReady = some (0, readyL) ∧ readyS.mayDispatch = true ∧
    (readyS.dispatch 0 readyL).ms.bad = none ∧ closedS.bestReady = some (0, readyL) ∧ closedS.mayDispatch = false ∧
    closedS.ms.bad = none := by decide +kernel

/-- A dispatched launch with swap set whose first team has a frame slot, and one with swap clear that holds its group. -/
def swapRec : Vector Word 8 := record.set 1 (1 + (1 <<< 32) + (64 <<< 40) + (1 <<< 52))
def swapL : Launch := { launch0 with record := swapRec }
def unplaced (l : Launch) : State :=
  { base with launches := [(0, some l)], teams := [], cores := [], strands := [], ev := .launch 0
              ms := { base.ms with mem := cells (tables ++ [(0x100D0, 4)]) } }
theorem witness_TeamEvents_place : ∀ l ∈ [swapL, launch0], ((unplaced l).ms.bad = none ∧ l.phase = .dispatched ∧
    (match (unplaced l).holdGroups.launch 0 with
      | some x => x.phase == .dispatched && x.swap == l.swap &&
          (if x.swap then ((unplaced l).holdGroups.placeOne 0 x).ms.bad.isNone else ((unplaced l).holdGroups.placeAll 0 x).ms.bad.isNone)
      | none => false) = true) := by decide +kernel
/-- A team at the end of its quantum, one whose swap is due with no block for it, one that is done, and one that is saved. -/
def quT : Team := { launch := 0, num := 0, shape := 1, base := 0, slot := 0 }
def quS (t : Team) (ns : Nat) (f : Strand → Strand) : State :=
  { base.modSt f with teams := [(0, some t)], launches := [(0, some swapL)], clock := { ns := ns }, ev := .team 0 }
def savedT : Team := { quT with place := .swapped 0 }
def doneS : State := { quS quT 0 id with strands := [0, 1, 2, 3].map (fun i => (i, { strand0 with life := .halted })) }
theorem witness_TeamEvents_quantum : (quS quT 1000000000 id).team 0 = some quT ∧ (quS quT 1000000000 id).launch 0 = some swapL ∧
    swapL.swap = true ∧ quT.stop = false ∧ quT.quantumAt + swapL.quantumNs ≤ 1000000000 ∧
    (quS { quT with stop := true, swapDue := true } 1000000000 id).quiescent { quT with stop := true, swapDue := true } = true ∧
    ((quS { quT with stop := true, swapDue := true } 1000000000 id).swapOut 0 { quT with stop := true, swapDue := true } swapL).ms.bad = none ∧
    doneS.teamDone quT = true ∧ (doneS.retireTeam 0 quT).ms.bad = none := by decide +kernel
theorem witness_TeamEvents_swapIn : (quS savedT 0 id).holdGroups.team 0 = some savedT ∧ savedT.place ≠ .resident ∧
    (quS savedT 0 id).holdGroups.launch 0 = some swapL ∧ ((quS savedT 0 id).holdGroups.swapInAll 0 { launch0 with phase := .ready }).ms.bad = none ∧
    ((quS savedT 0 id).holdGroups.swapInOne 0 savedT { swapL with phase := .ready }).ms.bad = none := by decide +kernel
/-- One core in service, which a team of a launch of priority 0 occupies with an engine command that runs, and a launch of priority 1 that waits for it. -/
def victimL : Launch := { launch0 with record := record.set 1 (1 + (1 <<< 32) + (1 <<< 53)) }
def aboveL : Launch := { launch0 with record := record.set 1 (1 + (1 <<< 32) + (1 <<< 48)) }
def crowded : State :=
  { base with teams := [(0, some { quT with launch := 1 })], launches := [(0, some aboveL), (1, some victimL)], ev := .launch 0
              cores := [(0, { team := some 0, erun := some { id := 0, sid := 0, instr := .tcfg h0 1, word := 0, pc := 0 } })]
              pkg := { base.pkg with service := (0, 1) :: (List.range 47).map (fun i => (i + 1, 0)) }
              ms := { base.ms with mem := cells (tables ++ [(0x100A0, 0x800000), (0x100A8, 2), (0x100D0, 4)]) } }
def waitL (s : State) : Launch := (s.launch 0).getD aboveL
def crowdVs : List (Nat × Team × Launch) :=
  let s := crowded.holdGroups
  s.chooseVictims 0 (waitL s) (s.waitingN 0 (waitL s)) (s.victims (waitL s)) []
theorem witness_TeamEvents_preempt : crowded.ms.bad = none ∧ (crowded.holdGroups.launch 0).isSome = true ∧ crowded.holdGroups.chosen 0 = [] ∧
    crowded.holdGroups.needsGroup 0 (waitL crowded.holdGroups) = true ∧ crowdVs ≠ [] ∧
    (match crowded.holdGroups.reserve 0 crowdVs with | some u => (u.preemptSave 0).ms.bad.isNone && !(u.chosen 0).isEmpty | none => false) = true := by
  decide +kernel
/-- A context with no swap blocks, and a launch that needs no group. -/
def blockless : State := crowded.setMs { crowded.ms with mem := cells (tables ++ [(0x100D0, 4)]) }
theorem witness_TeamEvents_preempt_none : blockless.holdGroups.chosen 0 = [] ∧
    blockless.holdGroups.needsGroup 0 (waitL blockless.holdGroups) = true ∧
    (blockless.holdGroups.reserve 0 crowdVs).isNone = true ∧ (unplaced launch0).holdGroups.chosen 0 = [] ∧
    (match (unplaced launch0).holdGroups.launch 0 with | some l => !(unplaced launch0).holdGroups.needsGroup 0 l | none => false) = true := by
  decide +kernel

theorem witness_PackageEvents : base.ms.bad = none ∧ (47 : Nat) < 48 ∧ (131 : Nat) < 132 ∧ rangeOk 0x1000 2 = true ∧
    (base.hostPut 0x1000 [1, 2]).ms.bad = none ∧ (base.postMsg 0x8004 0xFF 2 (BitVec.ofNat 64 base.clock.ns) 7).ms.bad = none ∧
    (ringed.pumpMsgs ringed.pkg.hostQ.length).ms.bad = none ∧ State.reset.killAll.ms.bad = none ∧ (State.reset.kill 1 1).ms.bad = none := by decide +kernel
def bare : State := { base with cores := [], strands := [], teams := [] }
def watched : State := { base with pkg := { base.pkg with wdog := { on := true, us := 1, due := 0 } } }
theorem witness_PackageEvents_changes : (∀ k ∈ [0, 1, 2, 3, 4, 5], bare.spareFree k 0 = true ∧ (bare.spareSet k 0 1).ms.bad = none) ∧
    watched.pkg.wdog.on = true ∧ watched.pkg.wdog.due ≤ watched.clock.ns ∧ (watched.postErr 0x0009 0xFF 0xFF 1 0).ms.bad = none := by
  decide +kernel

/-- A request of another package for a page that it may read, one that the context does not map, and one of an invalid context. -/
def rq (asid : Nat) (va : Word) : RemoteReq := { asid := asid, va := va, op := .read 8 }
def asked (r : RemoteReq) : State := { base with ev := .remote r }
def askedGo (r : RemoteReq) : State × Except TrapInfo (List Part) :=
  (asked r).checkRuns { core := rmCore, asid := r.asid } (RemoteOp.kind r.op) (runsOf r.va.toNat (RemoteOp.size r.op))
theorem witness_FabricEvents_remote : RemoteReq.ok (rq 1 0x100) = true ∧ RemoteReq.ok (rq 3 0x100) = true ∧ RemoteReq.ok (rq 1 0x40000000) = true ∧
    (asked (rq 3 0x100)).ctxValid 3 = false ∧ (asked (rq 1 0x100)).ctxValid 1 = true ∧ isOk (askedGo (rq 1 0x40000000)) = false ∧
    (askedGo (rq 1 0x40000000)).1.ms.bad = none ∧
    (match okv [] (askedGo (rq 1 0x100)) with
      | [p] => !(askedGo (rq 1 0x100)).1.anyLocked { core := rmCore, asid := 1 } .package false false [p] &&
          (((askedGo (rq 1 0x100)).1.commitParts { core := rmCore, asid := 1 } (RemoteOp.kind (rq 1 0x100).op) [p]).remotePerform
            { core := rmCore, asid := 1 } 0x100 (rq 1 0x100).op p).1.ms.bad.isNone
      | _ => false) = true ∧ isOk (askedGo (rq 1 0x100)) = true := by decide +kernel
/-- Groups that a write may set; a collective that runs on slot 2 with ordinal 0, with its contributions, and one that is still to start. -/
def flits : List (List Byte) := [leBytes 4 5, leBytes 4 6]
theorem witness_FabricEvents_group : FabricGroup.ok { valid := true, n := 2, rank := 0, members := [(0, 1), (1, 1)] } = true ∧
    base.ms.bad = none := by decide +kernel
theorem witness_FabricEvents_coll : (collected collRun).team 0 = some (collTeam collRun) ∧ ((collTeam collRun).coll 2).state = 1 ∧
    ((collTeam collRun).coll 2).group = (1 : BitVec 6).toNat ∧ ((collTeam collRun).coll 2).ordinal = 0 ∧
    flits.length = ((collTeam collRun).coll 2).members ∧ ((collected collRun).collStop 0 (collTeam collRun) 2 collRun 3 4).ms.bad = none ∧
    ((collected collRun).collAbort 0 (collTeam collRun) 2 collRun 4 1).ms.bad = none ∧
    ((collTeam {}).coll 2).state ≠ 1 ∧ Sparse.get (collTeam {}).collNo 0 (8 * 1 + 2) ≤ 0 ∧ (collected {}).earlyAbort 0 (8 * 1 + 2) 0 = none := by
  decide +kernel
theorem witness_FabricEvents_complete :
    ((collected collRun).collComplete 0 (collTeam collRun) 2 ((collTeam collRun).coll 2) flits).ms.bad = none := by decide +kernel

/-- A memory with no copies: a page of each attribute, accessed by a core. -/
def attrs (l : Nat) : Nat := l / 2 ^ 20 - 1
theorem witness_PageFrames : Held base.ms (fun _ => 0) attrs ∧ (∀ va ∈ [0x100, 0x4000100, 0x8000100, 0xC000100],
      (let p := okv noPart (base.checkPage (base.whoOf 0) { write := true, far := true } va 8)
       keyLost base.ms [p] = false ∧ attrs (p.pa / 64) = pteAttr p.leaf.pte ∧ attrs (p.leaf.ptePa / 64) = 0 ∧ isHost p.leaf.ptePa = false ∧
       slc p.leaf.pte 15 10 = 0 ∧ p.len = 8 ∧ p.leaf.ptePa % 8 = 0 ∧ paOk p.leaf.ptePa = true ∧ (leBytes 8 7).length = ([p].map (·.len)).sum) ∧
      isOk (base.checkPage (base.whoOf 0) { write := true, far := true } va 8) = true) ∧ (base.whoOf 0).core < 192 := by
  have e : base.ms.copies = [] := rfl
  have g (h l : Nat) : getCopy base.ms h l = {} := rfl
  refine ⟨{ form := by decide +kernel, keyed := by simp [e], dirty := by simp [e], kind := by simp [e], far := by simp [e], one := by simp [e]
            fresh := by simp [e], apart := fun l => .inl (by rw [g]), clean := fun l h i _ _ x => ?_, host := fun l _ => by rw [g]
            ecc := by decide +kernel }, by decide +kernel, by decide +kernel⟩
  rw [g] at x
  simp at x


/-! ## Witnesses of the clauses that are left -/

/-- A late load that a tile store's lock holds: its strand takes its trap later. -/
def stuck : State := iced.setMs { iced.ms with locks := [(lockKey ((2 ^ 26 + 0x100) / 64) hL2, 5)] }
theorem witness_TrapsTaken_later : stuck.lateStuck 0 = true := by decide +kernel
/-- A row that has arrived, and a WROW that waits for the window. -/
def arrivedWin : State := (openWin.modCore 0 (fun c => c.setWin 0 { openWin.co.winAt 0 with arrived := [3] })).modSt (fun x =>
  { x with ops := [{ id := 5, cls := .row 0 0 3, dst := [rS 4] }] })
theorem witness_WindowWords_rows : Runs arrivedWin h0 (rS 2 :: rS 3 :: recRegs 2) ∧ 3 ∈ (arrivedWin.co.winAt 0).arrived ∧
    (arrivedWin.strand 0).ops = [{ id := 5, cls := .row 0 (arrivedWin.co.winAt 0).gen 3, dst := [rS 4] }] := by
  refine ⟨runs_of ?_, ?_⟩ <;> decide +kernel
/-- Codebook 16 with no version on the core, with no slots in the plan, and with a word of the strand that waits; a version on the core with
late slots. -/
def bookAway : State := base.setMs { base.ms with mem := withBook 2 }
def bookNone : State := { bookAway with launches := [(0, some { launch0 with record := record.set 3 0 })] }
def bookWaits : State := book.modSt (fun x => { x with cbs := [{ id := 4, instr := .cbld h0 3 1 16, word := 0, pc := 0x4008 }] })
def bookLate : State := { book.modCore 0 (fun c => { c with miss := [miss0] }) with late := true }
def needNo (s : State) : Nat := match (bookState s).needVersion 0 16 1 (bookDir s) with
  | (u, .miss) => if u.ms.bad.isNone then 1 else 9 | (u, .noSlot) => if u.ms.bad.isNone then 2 else 9 | (_, .have' _) => 3
theorem witness_CodebookVectors_needs : (∀ s ∈ [(bookAway, 1), (bookNone, 2), (book, 3), (bookLate, 3)],
      (cleanB s.1 && s.1.guardOn h0 && readyB s.1 [rP 0, rV 1, rS 1, rV 2]) = true ∧ s.1.st.cbs = [] ∧ isOk (s.1.dirRead 0 1 16) = true ∧
      (bookState s.1).ms.bad = none ∧ needNo s.1 = s.2) ∧ bookLate.late = true ∧ bookLate.co.miss ≠ [] ∧ bookWaits.st.cbs ≠ [] ∧
    (cleanB bookWaits && bookWaits.guardOn h0 && readyB bookWaits [rP 0, rV 1, rS 1, rV 2]) = true := by decide +kernel
/-- A LAUNCH behind an access that is not performed; a COLL behind one, one that finds no place for its token, and one whose codebook's entry
lies in no page. -/
theorem witness_LaunchWords_waits : Runs busy h0 (rS 3 :: recRegs 2) ∧ busy.performed 0 = false := by
  refine ⟨runs_of ?_, ?_⟩ <;> decide +kernel
def collFull : State :=
  let s := collected {}
  { s with teams := [(0, some { collTeam {} with hand := [(1, { toks := List.replicate 16 { src := 0, at' := 0, needs := [] } })] })] }
def collNoDir : State :=
  (collected {}).setMs { (collected {}).ms with mem := Sparse.setRun (collected {}).ms.mem 0 0x10088 (leBytes 8 0x40000000) }
def cmpRec : Vector Word 8 := ((collected {}).record 2).set 3 (10 + (16 <<< 16) + (1 <<< 36))
theorem witness_CollectiveWords_waits : collFull.nrRoom (some 1) = false ∧ collFull.badNr (some 1) = false ∧
    ((collected {}).modCore 0 (fun c => { c with equeue := busy.co.equeue })).performed 0 = false ∧
    (collNoDir.captureColl cmpRec true).2.2 = some 5 ∧ (collNoDir.captureColl cmpRec true).1.ms.bad = none := by decide +kernel
/-- A strand that has gone past blocks in this cycle: one with work for it, then; a fourth, and one more. -/
def skipped (n : Nat) (b : Block) : State := (enterBlk b).modXs 0 (fun x => { x with skips := n })
def skipOk (n : Nat) (b : Block) : Bool :=
  let s := skipped n b
  let c : State := { s with cur := 0 }
  let g := c.checkPage (c.whoOf 0) kFetch 0x4000 64
  let w := g.1.commitPage (c.whoOf 0) kFetch (okv noPart g)
  isOk g && w.ms.bad.isNone && c.mayIssue && decide ((s.strand 0).entry = some 0x4008 ∧ (s.strand 0).skips = n ∧
    w.icGet 0 (okv noPart g).pa = some b)
theorem witness_StrandEvents_skips : skipOk 1 workB = true ∧ skipOk 3 noneB = true ∧ skipOk 4 noneB = true := by decide +kernel
/-- A request for this package's own member. -/
def fxReq : QReq :=
  { id := 0, instr := .fxr h0 .b8 3 4 1 2 0, word := 0, pc := 0x4008, addr := 0x100, member := some (0, 1) }
theorem witness_ResultEvents_fx : isFx fxReq.instr = true ∧ (tagged fxReq 0).fxBehind 0 fxReq = false ∧
    (match (((tagged fxReq 0).fxPerform 0 3 fxReq (.data 0)).xs 0 |>.tagAt 3).req with
      | some q => q.performed && q.id == 0 && (((tagged fxReq 0).fxPerform 0 3 fxReq (.data 0)).qArrive 0 3 q).ms.bad.isNone
      | none => false) = true := by decide +kernel
/-- An encoding of the engine with a version that is on the core, one that is away, and one that finds no slots. -/
def encCmd : ECmd := { id := 0, sid := 0, instr := .tenc h0 1 2 .whole 1 true, word := 0, pc := 0, sop := 0x1010 }
def engNeeds (s : State) : Nat :=
  let u := s.modCore 0 (fun c => { c with equeue := [], erun := some encCmd })
  let need := (u.core 0).engNeed encCmd
  match u.dirs 0 1 need.2 with
  | (a, .ok ds) =>
    let all := need.1 ++ ds
    match dirFail ds 0, a.engCheck 0 1 encCmd all with
    | none, (b, none) => match b.needAll 0 [] all with
      | (w, .error f) => if (w.engFail 0 f).ms.bad.isNone then 1 else 9
      | (w, .ok none) => if w.ms.bad.isNone then 2 else 9
      | (w, .ok (some _)) => if w.ms.bad.isNone then 3 else 9
    | some f, _ => if (a.engFail 0 f).ms.bad.isNone then 4 else 9
    | none, (b, some f) => if (b.engFail 0 f).ms.bad.isNone then 5 else 9
  | (_, .error _) => 9
theorem witness_CoreEvents_needs : engNeeds bookNone = 1 ∧ engNeeds bookAway = 2 ∧ engNeeds book = 3 ∧ engNeeds base = 4 := by decide +kernel
/-- An UNLOAD that cannot free its codebook: the directory lies in no page. -/
def noBooks : State :=
  { idleS with objects := [{ obj 6 with cbids := [16] }], sys := { idleS.sys with ctxbase := 0x10000 }
               ms := { base.ms with mem := Sparse.setRun base.ms.mem 0 0x10088 (leBytes 8 0x40000000) } }
theorem witness_LoaderEvents_stays : noBooks.objBusy { obj 6 with cbids := [16] } = false ∧ (noBooks.freeBooks 1 [16]).isNone = true := by
  decide +kernel
/-- A completion slot and a wait counter that lie in no page; a descriptor that is malformed, and one that is overrun. -/
def badSlot : State := (taking 5 goodRec).setMs { (taking 5 goodRec).ms with
  mem := Sparse.setRun (taking 5 goodRec).ms.mem 0 0x300C8 (leBytes 8 0x40000000) }
theorem witness_RingmasterEvents_bad : (((takeRd badSlot).1.slotUsable 1 0x40000000).2 = false ∧
      (((takeRd badSlot).1.slotUsable 1 0x40000000).1.queueError 3 2).ms.bad = none) ∧
    (let s := counting 2
     let l := { waiter with record := waiter.record.set 4 0x40000000 }
     let x := s.counterParts 1 0x40000000 kCohRd
     x.2.isNone = true ∧ ((x.1.retireLaunch 0 l 3).postErr 0x0003 1 0 0x40000000 l.word).ms.bad = none) ∧
    (launchQ (launching 1 0 0 0x400004)).1.ok = false ∧ (launchQ (launching 1 0 17)).1.entries < (launchQ (launching 1 0 17)).1.fill ∧
    (launchQ (launching 1 3 2)).1.entries < (launchQ (launching 1 3 2)).1.fill := by decide +kernel
/-- The ring that the firmware places, and the gates of every core. -/
def gates0 : List (BitVec 4) := List.replicate 192 15
theorem witness_PackageEvents_ring : ((base.placeRing 0x500000 6).pumpMsgs (base.placeRing 0x500000 6).pkg.hostQ.length).ms.bad = none ∧
    (base.placeRing 0x500000 6).pkg.hostRing = some (0x500000, 6) ∧ (base.placeRing 0x500000 5).pkg.hostRing = none ∧
    gates0.length = 192 ∧ (600 : BitVec 16).toNat ≤ base.sys.pwrcap.toNat ∧
    ∀ k, (h : k < gates0.length) → ((State.reset.core k).gate ≤ 15) := by
  refine ⟨?_, ?_, ?_, ?_, ?_, fun k _ => ?_⟩
  rotate_left 5
  · show (({} : Core).gate : BitVec 4) ≤ 15
    decide
  all_goals decide +kernel
/-- A remote read of a line that a tile store has locked; an abort for a team that is not placed yet. -/
def lockedOut : State := (asked (rq 1 0x100)).setMs { base.ms with locks := [(lockKey ((2 ^ 26 + 0x100) / 64) hL2, 5)] }
theorem witness_FabricEvents_locked : (match lockedOut.checkRuns { core := rmCore, asid := 1 } (RemoteOp.kind (.read 8)) (runsOf 0x100 8) with
      | (c, .ok [p]) => c.anyLocked { core := rmCore, asid := 1 } .package false false [p] | _ => false) = true ∧
    base.team 9 = none ∧ base.earlyAbort 9 (8 * 1 + 2) 0 = none := by decide +kernel

end Sys2Proof.Tests
end

/-! Proofs about the loader and the instruction cache (01 R23-R27; 05 R102, R103): what LOAD, UNLOAD and a fill answer, what the accesses
of the part leave of the list of loaded objects, and what an arrived fill leaves in the cache. -/

namespace Sys2Proof.Machine

/-! ## The loaded objects stay under the part's accesses, tile stores in flight included -/

theorem Kept.objects {s t : State} (k : Kept s t) : t.objects = s.objects := by rw [k.rest, State.setMs_objects]

theorem foldl_objects {α : Type} {f : State → α → State} (h : ∀ s x, (f s x).objects = s.objects) (l : List α) (s : State) :
    (l.foldl f s).objects = s.objects :=
  foldl_keeps (P := fun t : State => t.objects = s.objects) (fun t x e => (h t x).trans e) l s rfl

theorem commitTst_objects (s : State) (core : Nat) (st : Bool) (e : CCmd) : (s.commitTst core st e).objects = s.objects := rfl

theorem letCommit_objects (s : State) (keys : List Nat) (fuel : Nat) : (s.letCommit keys fuel).objects = s.objects := by
  induction fuel generalizing s with
  | zero => rfl
  | succ f ih =>
    unfold State.letCommit
    split
    · rfl
    · dsimp only
      split
      · rw [foldl_objects]
        exact fun _ _ => rfl
      · rw [ih, commitTst_objects, foldl_objects]
        exact fun _ _ => rfl

@[simp] theorem freeLines_objects (s : State) (pa n : Nat) : (s.freeLines pa n).objects = s.objects := by
  unfold State.freeLines
  split
  · rfl
  · exact letCommit_objects ..

@[simp] theorem partRd_objects (s : State) (pa n : Nat) : (s.partRd pa n).2.objects = s.objects := (partRd_kept (.rfl' s) pa n).objects

@[simp] theorem partWr_objects (s : State) (pa : Nat) (bs : List Byte) : (s.partWr pa bs).objects = s.objects := by
  unfold State.partWr
  split
  · exact freeLines_objects ..
  · rfl

@[simp] theorem supWr_objects (s : State) (core asid : Nat) (k : AKind) (va : Nat) (bs : List Byte) :
    (s.supWr core asid k va bs).1.objects = s.objects := by
  unfold State.supWr
  have checked := (checkRuns_kept (.rfl' s) { core := core, asid := asid, sup := true } k (runsOf va bs.length)).objects
  dsimp only
  split
  · exact checked
  · exact (wrParts_kept (commitParts_kept (.rfl' _) ..) ..).objects.trans
      ((foldl_objects (fun _ _ => freeLines_objects ..) ..).trans checked)

/-! ## Publishing adds one object (R23) -/

theorem mapWalk_objects {va : Nat} {leaf : Word} {l base : Nat} {s t : State} {tables left : List Nat}
    (h : mapWalk va leaf l base s tables = some (t, left)) : t.objects = s.objects := by
  induction l generalizing base s tables with
  | zero =>
    unfold mapWalk at h
    dsimp only at h
    obtain ⟨-, h⟩ := Option.ite_none_left_eq_some.1 h
    obtain ⟨-, h⟩ := Option.ite_none_left_eq_some.1 h
    cases h
    simp
  | succ l ih =>
    unfold mapWalk at h
    dsimp only at h
    obtain ⟨-, h⟩ := Option.ite_none_left_eq_some.1 h
    split at h
    · obtain ⟨-, h⟩ := Option.ite_none_left_eq_some.1 h
      simpa using ih h
    · split at h
      · cases h
      · obtain ⟨-, h⟩ := Option.ite_none_left_eq_some.1 h
        simpa using ih h

theorem mapPages_objects {asid : Nat} {key : BitVec 6} {frames : List (Nat × Nat × Nat)} {s t : State} {tables left : List Nat}
    (h : mapPages asid key frames s tables = some (t, left)) : t.objects = s.objects := by
  induction frames generalizing s tables with
  | nil =>
    cases h
    rfl
  | cons x rest ih =>
    unfold mapPages at h
    obtain ⟨-, h⟩ := Option.ite_none_left_eq_some.1 h
    split at h
    · cases h
    · rename_i hw
      exact (ih h).trans (mapWalk_objects hw)

@[simp] theorem fillPages_objects (s : State) (key : BitVec 6) (frames : List (Nat × Nat × Nat)) (va : Nat) (bs : List Byte) :
    (s.fillPages key frames va bs).objects = s.objects := by
  unfold State.fillPages
  refine foldl_objects (fun t x => ?_) _ s
  dsimp only
  split
  · rfl
  · exact freeLines_objects ..

theorem supPieces_objects {asid : Nat} {pieces : List (Nat × List Byte)} {s t : State} (h : s.supPieces asid pieces = some t) :
    t.objects = s.objects := by
  induction pieces generalizing s with
  | nil =>
    cases h
    rfl
  | cons x rest ih =>
    unfold State.supPieces at h
    split at h
    · rename_i u hw
      rw [ih h, ← supWr_objects s rmCore asid kCohWr, hw]
    · cases h

theorem putBooks_objects {asid : Nat} {books : List (Nat × Nat × CbBlk)} {s t : State} (h : s.putBooks asid books = some t) :
    t.objects = s.objects := by
  induction books generalizing s with
  | nil =>
    cases h
    rfl
  | cons x rest ih =>
    unfold State.putBooks at h
    split at h
    · rename_i u hp
      exact (ih h).trans (supPieces_objects hp)
    · cases h

theorem publish_objects {s t : State} {asid : Nat} {p : LoadPlan} {z : Zof} {img : List (List Byte)} {arch : List (Nat × Nat × CbBlk)}
    {o : Obj} (h : s.publish asid p z img arch o = some t) : ∃ pages, t.objects = s.objects ++ [{ o with pages := pages }] := by
  unfold State.publish at h
  dsimp only at h
  obtain ⟨-, h⟩ := Option.ite_none_left_eq_some.1 h
  split at h
  · cases h
  · rename_i hm
    split at h
    · cases h
    · rename_i hb
      cases h
      exact ⟨_, congrArg (· ++ _) ((putBooks_objects hb).trans
        ((foldl_objects (fun _ _ => fillPages_objects ..) ..).trans (mapPages_objects hm)))⟩

theorem ok_of_ite_error {ε α : Type} {c : Prop} [Decidable c] {e : ε} {x : Except ε α} {a : α}
    (h : (if c then .error e else x) = .ok a) : x = .ok a := by
  split at h
  · cases h
  · exact h

/-- What loads is published under the plan's handle, in the context it was loaded for. -/
theorem loadObj_objects {s t : State} {asid : Nat} {p : LoadPlan} {z : Zof} (h : s.loadObj asid p z = .ok t) :
    ∃ o : Obj, t.objects = s.objects ++ [o] ∧ o.handle = p.handle.toNat ∧ o.asid = asid := by
  unfold State.loadObj at h
  dsimp only at h
  replace h := ok_of_ite_error (ok_of_ite_error (ok_of_ite_error (ok_of_ite_error h)))
  split at h
  · cases h
  · replace h := ok_of_ite_error h
    split at h
    · cases h
    · rename_i hp
      cases h
      obtain ⟨pages, added⟩ := publish_objects hp
      exact ⟨_, added, rfl, rfl⟩

/-! ## What the loader's rows answer -/

/-- An event whose meaning reaches `u`, with no absent address, happens. -/
theorem happens_of_out {i : Instr} {s u : State} (h : exec i s = out u) (hb : u.ms.bad = none) : Happens i s u := h.trans (out_next hb)

section
variable {s : State} {asid : BitVec 6}

theorem exec_load_malformed {file : List Byte} {plan : LoadPlan} {code : Nat} (he : s.ev = .load asid file plan)
    (hf : s.handleFree plan = true) (hz : zofParse file = .error code) : exec .load s = out (s.loadReturn code 0) := by
  show execLoad s = _
  simp [execLoad, he, hf, hz]

theorem exec_load_failed {file : List Byte} {plan : LoadPlan} {z : Zof} {code : Nat} (he : s.ev = .load asid file plan)
    (hf : s.handleFree plan = true) (hz : zofParse file = .ok z) (hl : s.loadObj asid.toNat plan z = .error code) :
    exec .load s = out (s.loadReturn code 0) := by
  show execLoad s = _
  simp [execLoad, he, hf, hz, hl]

theorem exec_load_published {file : List Byte} {plan : LoadPlan} {z : Zof} {t : State} (he : s.ev = .load asid file plan)
    (hf : s.handleFree plan = true) (hz : zofParse file = .ok z) (hl : s.loadObj asid.toNat plan z = .ok t) :
    exec .load s = out (t.loadReturn 0 plan.handle.toNat) := by
  show execLoad s = _
  simp [execLoad, he, hf, hz, hl]

/-- The codebooks that an object leaves to no other object of its context (R26). -/
def State.soleBooks (s : State) (o : Obj) : List Nat :=
  (dedup o.cbids).filter (fun c => !((s.objsOf o.asid).filter (fun x => x.handle ≠ o.handle)).any (fun x => x.cbids.contains c))

/-- An object leaves its context, and its pages with it, once its codebooks are free (R26). -/
def State.takeAway (u : State) (o : Obj) : State :=
  o.pages.foldl (fun (s : State) g => s.unmapPage o.asid g)
    { u with objects := u.objects.filter (fun x => !(x.asid == o.asid && x.handle == o.handle)) }

variable {handle : BitVec 32} {o : Obj}

theorem exec_unload_unknown (he : s.ev = .unload asid handle)
    (ho : (s.objsOf asid.toNat).find? (fun o => o.handle == handle.toNat) = none) :
    exec .unload s = out (s.loadReturn ldBADHANDLE handle.toNat) := by
  show execUnload s = _
  simp only [execUnload, he, ho]

theorem exec_unload_busy (he : s.ev = .unload asid handle)
    (ho : (s.objsOf asid.toNat).find? (fun o => o.handle == handle.toNat) = some o) (hb : s.objBusy o = true) :
    exec .unload s = out (s.loadReturn ldBUSY handle.toNat) := by
  show execUnload s = _
  simp only [execUnload, he, ho, hb, if_true]

theorem exec_unload_stays (he : s.ev = .unload asid handle)
    (ho : (s.objsOf asid.toNat).find? (fun o => o.handle == handle.toNat) = some o) (hb : s.objBusy o = false)
    (hf : s.freeBooks o.asid (s.soleBooks o) = none) : exec .unload s = out (s.loadReturn ldBUSY handle.toNat) := by
  show execUnload s = _
  unfold State.soleBooks at hf
  simp only [execUnload, he, ho, hb, hf, Bool.false_eq_true, if_false]

theorem exec_unload_gone {u : State} (he : s.ev = .unload asid handle)
    (ho : (s.objsOf asid.toNat).find? (fun o => o.handle == handle.toNat) = some o) (hb : s.objBusy o = false)
    (hf : s.freeBooks o.asid (s.soleBooks o) = some u) : exec .unload s = out ((u.takeAway o).loadReturn 0 handle.toNat) := by
  show execUnload s = _
  unfold State.soleBooks at hf
  simp only [execUnload, he, ho, hb, hf, Bool.false_eq_true, if_false, State.takeAway]

end

/-! ## A fill of an instruction cache (R102, R103) -/

/-- An inserted entry is found where the map lists no other of its number. -/
theorem Sparse.find?_insert_self {α : Type} (m : Sparse α) (k : Nat) (v : α) (h : ∀ e ∈ m, e.1 ≠ k) :
    (Sparse.insert m k v).find? (fun e => e.1 == k) = some (k, v) := by
  induction m with
  | nil => simp [Sparse.insert]
  | cons e r ih =>
    obtain ⟨hi, hr⟩ := List.forall_mem_cons.1 h
    unfold Sparse.insert
    split
    · simp
    · rw [List.find?_cons_of_neg (by simpa using hi), ih hr]

/-- The memory system once a fill is no longer on its way. -/
def MemSys.landed (ms : MemSys) (k : Nat) : MemSys := { ms with fills := ms.fills.filter (fun e => e.at' ≠ k) }
/-- Keep a block in an instruction cache, as the one used last. -/
def icPut (ms : MemSys) (k : Nat) (b : Block) : MemSys :=
  icTouch { ms with icache := Sparse.insert (ms.icache.filter (fun e => e.1 ≠ k)) k b } k

theorem icGet_icPut (s : State) (ms : MemSys) (cluster pa : Nat) (b : Block) :
    (s.setMs (icPut ms (icKey cluster pa) b)).icGet cluster pa = some b := by
  simp only [State.icGet, State.setMs_ms, icPut, icTouch]
  rw [Sparse.find?_insert_self _ _ _ (by simp)]
  rfl

theorem exec_fill {s : State} {cluster pa : Nat} (he : s.ev = .fill cluster pa) : exec .icFillComplete s = out (s.doFill cluster pa) := by
  show execIcFillComplete s = _
  simp [execIcFillComplete, he]

section
variable {s : State} {cluster pa : Nat} {f : Fill} (hf : s.ms.fills.find? (fun e => e.at' == icKey cluster pa) = some f)
include hf

theorem doFill_locked (hl : Sparse.get s.ms.locks 0 (lockKey (pa / 64) hL2) ≠ 0) : s.doFill cluster pa = s := by
  simp only [State.doFill, hf, hl, ne_eq, not_false_eq_true, if_true]

/-- A fill that is neither held up nor without its key, and reads no error, keeps the block that it read. -/
theorem doFill_reads (hl : Sparse.get s.ms.locks 0 (lockKey (pa / 64) hL2) = 0) (hk : keyGenOf s.ms f.key ≠ 0) {bs : List Byte}
    {ms : MemSys} (hr : readPa (s.ms.landed (icKey cluster pa)) { partAcc with core := 4 * cluster, key := f.key } (pa / 64 * 64) 64
      = (bs, ms, none)) :
    s.doFill cluster pa = s.setMs (icPut (icRoom ms (icKey cluster pa)) (icKey cluster pa) (mkBlock bs)) := by
  have free : ¬ Sparse.get s.ms.locks 0 (lockKey (pa / 64) hL2) ≠ 0 := fun locked => locked hl
  have key : (keyGenOf (s.ms.landed (icKey cluster pa)) f.key == 0) = false := beq_false_of_ne hk
  unfold MemSys.landed at hr key
  simp only [State.doFill, hf, free, if_false, key, Bool.false_eq_true, State.setMs_ms, hr]
  rfl

theorem doFill_icGet (hl : Sparse.get s.ms.locks 0 (lockKey (pa / 64) hL2) = 0) (hk : keyGenOf s.ms f.key ≠ 0) {bs : List Byte}
    {ms : MemSys} (hr : readPa (s.ms.landed (icKey cluster pa)) { partAcc with core := 4 * cluster, key := f.key } (pa / 64 * 64) 64
      = (bs, ms, none)) :
    (s.doFill cluster pa).icGet cluster pa = some (mkBlock bs) := by
  rw [doFill_reads hf hl hk hr, icGet_icPut]

end

/-! ## The obligation -/

/-- Settles O55: LOAD publishes through `loadObj`, which appends one object under the plan's handle; UNLOAD takes away what `find?` yields
unless it is busy; a fill leaves the block that it read at its key. -/
theorem loaderEvents : Obligations.LoaderEvents := by
  unfold Obligations.LoaderEvents
  intro s t asid file plan z code cluster pa handle o f hbad
  refine ⟨fun he hfree => ⟨?_, ?_, ?_⟩, fun he => ⟨?_, fun ho => ⟨?_, ?_⟩⟩, fun he hf => ⟨?_, ?_⟩⟩
  · exact fun hz => happens_of_out (exec_load_malformed he hfree hz) hbad
  · exact fun hz hl => happens_of_out (exec_load_failed he hfree hz hl) hbad
  · exact fun hz hl ht => ⟨happens_of_out (exec_load_published he hfree hz hl) ht, loadObj_objects hl⟩
  · exact fun ho => happens_of_out (exec_unload_unknown he ho) hbad
  · exact fun hb => happens_of_out (exec_unload_busy he ho hb) hbad
  · rintro hb _ u rfl
    exact ⟨fun hn => happens_of_out (exec_unload_stays he ho hb hn) hbad,
      fun hu hv => happens_of_out (exec_unload_gone he ho hb hu) hv⟩
  · intro hl
    have stays := doFill_locked hf hl
    exact happens_of_out ((exec_fill he).trans (by rw [stays])) hbad
  · intro hl hk hr hv
    exact ⟨happens_of_out (exec_fill he) hv, doFill_icGet hf hl hk (Prod.ext rfl (Prod.ext rfl hr))⟩

end Sys2Proof.Machine

/-! Proofs about launch (03 R69-R84): what LAUNCH answers at a device-fed queue, and what the Ringmaster's events make of the state. -/

namespace Sys2Proof.Machine

/-! ## What the part's stores leave of the state, tile stores in flight included -/

/-- Nothing but the memory system and the cores, whose tile stores may have committed, differs. -/
def MemoryAndCores (s t : State) : Prop := t = { s with ms := t.ms, cores := t.cores }

namespace MemoryAndCores
variable {r s t : State}

theorem refl (s : State) : MemoryAndCores s s := rfl
theorem trans (h : MemoryAndCores r s) (k : MemoryAndCores s t) : MemoryAndCores r t := by
  unfold MemoryAndCores at *
  rw [k, h]
theorem of_kept (k : Kept s t) : MemoryAndCores s t := by
  unfold MemoryAndCores
  rw [k.rest]
  rfl
theorem cur (h : MemoryAndCores s t) : t.cur = s.cur := by rw [h]
theorem sys (h : MemoryAndCores s t) : t.sys = s.sys := by rw [h]
theorem foldl {α : Type} {f : State → α → State} (h : ∀ s x, MemoryAndCores s (f s x)) (l : List α) (s : State) :
    MemoryAndCores s (l.foldl f s) :=
  foldl_keeps (P := MemoryAndCores s) (fun t x k => k.trans (h t x)) l s (.refl s)

theorem commitTst (s : State) (core : Nat) (st : Bool) (e : CCmd) : MemoryAndCores s (s.commitTst core st e) := rfl
theorem letCommit (s : State) (keys : List Nat) (fuel : Nat) : MemoryAndCores s (s.letCommit keys fuel) := by
  induction fuel generalizing s with
  | zero => exact .refl s
  | succ f ih =>
    have unlocked (l : List (Nat × Bool × CCmd)) :
        MemoryAndCores s (l.foldl (fun (s : State) x => { s with ms := s.ms.unlock x.2.2.id }) s) :=
      foldl (f := fun (s : State) (x : Nat × Bool × CCmd) => { s with ms := s.ms.unlock x.2.2.id }) (fun _ _ => rfl) l s
    unfold State.letCommit
    split
    · exact .refl s
    · dsimp only
      split
      · exact unlocked _
      · exact ((unlocked _).trans (commitTst ..)).trans (ih _)
theorem freeLines (s : State) (pa n : Nat) : MemoryAndCores s (s.freeLines pa n) := by
  unfold State.freeLines
  split
  · exact .refl s
  · exact letCommit ..
theorem partWr (s : State) (pa : Nat) (bs : List Byte) : MemoryAndCores s (s.partWr pa bs) := by
  unfold State.partWr
  split
  · exact (freeLines s pa bs.length).trans rfl
  · rfl
theorem supWr (s : State) (core asid : Nat) (k : AKind) (va : Nat) (bs : List Byte) :
    MemoryAndCores s (s.supWr core asid k va bs).1 := by
  have checked := of_kept (checkRuns_kept (.rfl' s) { core := core, asid := asid, sup := true } k (runsOf va bs.length))
  unfold State.supWr
  dsimp only
  split
  · exact checked
  · exact (checked.trans (foldl (fun _ _ => freeLines ..) _ _)).trans
      (of_kept (wrParts_kept (commitParts_kept (.rfl' _) ..) ..))

end MemoryAndCores

theorem Kept.cur {s t : State} (k : Kept s t) : t.cur = s.cur := (MemoryAndCores.of_kept k).cur
theorem Kept.asidOf {s t : State} (k : Kept s t) (sid : Nat) : t.asidOf sid = s.asidOf sid := by
  rw [k.rest]
  rfl
theorem qDesc_kept (s : State) (q : Nat) : Kept s (s.qDesc q).2 := partRd_kept (.rfl' s) ..

/-! ## LAUNCH at its queue (R83, R84) -/

/-- May a context launch through a queue: one that is enabled, device-fed and its own (R83)? -/
def QDesc.takesFrom (d : QDesc) (asid : Nat) : Prop := d.enabled = true ∧ d.deviceFed = true ∧ d.asid = asid

theorem QDesc.refused_iff (d : QDesc) (asid : Nat) :
    (!d.enabled || !d.deviceFed || decide (d.asid ≠ asid)) = true ↔ ¬ d.takesFrom asid := by
  simp only [QDesc.takesFrom, Bool.or_eq_true, Bool.not_eq_true', decide_eq_true_eq, ← Bool.not_eq_true, ne_eq,
    Decidable.not_and_iff_not_or_not, or_assoc]

/-- The address of the entry at a queue's tail. -/
def QDesc.tailVa (d : QDesc) : Nat := d.ring + 64 * (d.tail % d.entries)

/-- The Ringmaster as it accesses a ring of a context. -/
def ringWho (asid : Nat) : Who := { core := rmCore, asid := asid, sup := true }

section
variable {s c u : State} {q : Nat} {d : QDesc} {r : Vector Word 8}

theorem launchDo_refused (hq : s.qDesc q = (d, c)) (not_mine : ¬ d.takesFrom (c.asidOf c.cur)) : s.launchDo q r = (c, errWord 2) := by
  simp only [State.launchDo, hq, QDesc.refused_iff, not_mine, not_false_eq_true, if_true]

section
variable {ps : List Part} {t : TrapInfo} (hq : s.qDesc q = (d, c)) (mine : d.takesFrom (c.asidOf c.cur))
include hq mine

theorem launchDo_unwritable (hr : c.checkRuns (ringWho (c.asidOf c.cur)) kCohWr (runsOf d.tailVa 64) = (u, .error t)) :
    s.launchDo q r = (u, errWord 2) := by
  unfold ringWho QDesc.tailVa at hr
  simp only [State.launchDo, hq, QDesc.refused_iff, mine, not_true, if_false, hr]

theorem launchDo_full (hr : c.checkRuns (ringWho (c.asidOf c.cur)) kCohWr (runsOf d.tailVa 64) = (u, .ok ps)) (full : d.fill = d.entries) :
    s.launchDo q r = (u, errWord 1) := by
  unfold ringWho QDesc.tailVa at hr
  simp only [State.launchDo, hq, QDesc.refused_iff, mine, not_true, if_false, hr, full, beq_self_eq_true, if_true]

/-- Where the entry can be written and the queue is not full, the record is put there, and then the tail goes on. -/
theorem launchDo_put {w : State} {e : Option TrapInfo}
    (hr : c.checkRuns (ringWho (c.asidOf c.cur)) kCohWr (runsOf d.tailVa 64) = (u, .ok ps)) (room : d.fill ≠ d.entries)
    (hw : u.supWr rmCore (c.asidOf c.cur) kCohWr d.tailVa (recordBytes8 r) = (w, e)) :
    s.launchDo q r = (w.partWr (w.qPa q + 0x20) (leBytes 8 (d.tail + 1)), BitVec.ofNat 64 d.tail) := by
  unfold ringWho QDesc.tailVa at hr
  unfold QDesc.tailVa at hw
  simp only [State.launchDo, hq, QDesc.refused_iff, mine, not_true, if_false, hr, beq_false_of_ne room,
    Bool.false_eq_true, hw]

end
end

/-! ## LAUNCH as a word (R82) -/

@[simp] theorem State.modXs_ms (s : State) (sid : Nat) (f : Strand → Strand) : (s.modXs sid f).ms = s.ms := by
  unfold State.modXs State.modTeam
  split
  · rfl
  · split <;> rfl

@[simp] theorem State.block_ms (s : State) (sid : Nat) (cls : OpClass) (dst : List Reg) (vals : List RVal) (flags : Flags) (done : Bool) :
    (s.block sid cls dst vals flags done).2.ms = s.ms := State.modXs_ms ..

/-- LAUNCH's answer: the result that its strand awaits. -/
def State.launchAnswer (s : State) (sid : Nat) (d : SReg) (w : Word) : State := (s.block sid .launch [rS d] [.w w] 0 true).2

section
variable {s : State} {h : Hdr} {d : SReg} {x : BitVec 3} (ready : Runs s h (rS d :: recRegs x))
include ready

theorem Runs.issue_launch (body : State → Eff) : Machine.issue h { rd := recRegs x, wr := [rS d] } body s = (body s).run :=
  ready.issue rfl rfl (.inl rfl) (fun q hq => by simpa [or_comm] using hq)

theorem launch_waits (q : BitVec 6) (hp : s.performed s.cur = false) : Waits (.launch h d x q) s .result := by
  show execLaunch h d x q s = _
  unfold execLaunch
  rw [ready.issue_launch]
  simp only [hp, Bool.not_false, if_true]
  exact out_clean (ready.clean.of_ms rfl)

/-- With its accesses performed, LAUNCH releases them and ends with what its queue answers. -/
theorem launch_lands {q : BitVec 6} (hp : s.performed s.cur = true) {t : State} {w : Word}
    (hl : (s.releaseAt s.cur .package).launchDo q.toNat (s.record x) = (t, w)) (hc : t.cur = s.cur) (hb : t.ms.bad = none) :
    Lands (.launch h d x q) s (t.launchAnswer s.cur d w) := by
  show execLaunch h d x q s = _
  unfold execLaunch
  rw [ready.issue_launch]
  simp only [hp, hl, hc, Bool.not_true, Bool.false_eq_true, if_false]
  exact out_next ((congrArg MemSys.bad (State.block_ms ..)).trans hb)

end

/-- Settles O48: what LAUNCH does at its queue depends on the descriptor it reads and on the page of the entry at the tail; none of the
reads and stores on the way changes which strand launches or where the descriptors stand. -/
theorem launchWords : Obligations.LaunchWords := by
  unfold Obligations.LaunchWords
  intro s c u w h d x q qd ps t e ready
  refine ⟨launch_waits ready q, fun hp hq hbad => ?_⟩
  have read : Kept (s.releaseAt s.cur .package) c := by simpa only [hq] using qDesc_kept (s.releaseAt s.cur .package) q.toNat
  have cur : c.cur = s.cur := read.cur
  have asid : c.asidOf c.cur = s.asidOf s.cur := by
    rw [cur]
    exact read.asidOf s.cur
  have checked {k : AKind} {a : Except TrapInfo (List Part)} {rs : List (Nat × Nat)}
      (hr : c.checkRuns (ringWho (s.asidOf s.cur)) k rs = (u, a)) : Kept c u := by
    simpa only [hr] using checkRuns_kept (.rfl' c) (ringWho (s.asidOf s.cur)) k rs
  refine ⟨fun not_mine => ?_, fun mine hr hu => ?_, fun mine hr hu => ⟨fun full => ?_, fun room hw hv => ?_⟩⟩
  · exact launch_lands ready hp (launchDo_refused hq (asid ▸ not_mine)) cur hbad
  · exact launch_lands ready hp (launchDo_unwritable hq (asid ▸ mine) (asid ▸ hr)) ((checked hr).cur.trans cur) hu
  · exact launch_lands ready hp (launchDo_full hq (asid ▸ mine) (asid ▸ hr) full) ((checked hr).cur.trans cur) hu
  · have released : MemoryAndCores s (s.releaseAt s.cur .package) := rfl
    have stored : MemoryAndCores s w := by
      have put := MemoryAndCores.supWr u rmCore (s.asidOf s.cur) kCohWr qd.tailVa (recordBytes8 (s.record x))
      rw [show u.supWr rmCore _ kCohWr qd.tailVa (recordBytes8 (s.record x)) = (w, e) from hw] at put
      exact ((released.trans (.of_kept read)).trans (.of_kept (checked hr))).trans put
    have put := launchDo_put (r := s.record x) hq (asid ▸ mine) (asid ▸ hr) room (asid ▸ hw)
    rw [State.qPa, stored.sys] at put
    exact launch_lands ready hp put ((MemoryAndCores.partWr ..).cur.trans stored.cur) hv

/-! ## Taking a record (R69-R71) -/

section
variable {s c u v : State} {q : Nat} {d : QDesc} {b : List Byte}

/-- The launch that a record is taken as (R71). -/
def QDesc.launch (d : QDesc) (q : Nat) (b : List Byte) (ns : Nat) : Launch :=
  { queue := q, index := d.head, record := recordWords d b, asid := d.asid, takenAt := ns }

/-- A taken record before it is validated: the head has gone on, and the completion record says status 0 (R71). -/
def State.taken (u : State) (q : Nat) (d : QDesc) (l : Launch) : State :=
  ((u.partWr (u.qPa q + 0x28) (leBytes 8 (d.head + 1))).setLaunch u.freeLaunch (some l)).writeCompletion l 0 0 0

theorem Kept.clock {s t : State} (k : Kept s t) : t.clock = s.clock := by
  rw [k.rest]
  rfl
theorem slotUsable_kept (s : State) (asid va : Nat) : Kept s (s.slotUsable asid va).1 := by
  unfold State.slotUsable
  exact checkRuns_kept (.rfl' s) ..

section
variable (hr : c.supRd rmCore d.asid kCohRd (d.ring + 64 * (d.head % d.entries)) 64 = (v, .ok b))
    (hs : v.slotUsable d.asid (d.cring + 32 * (d.head % d.entries)) = (u, true))
include hr hs

/-- Reading the record and looking at its completion slot take no time. -/
theorem recordRead_clock : u.clock = c.clock := by
  have read := (supRd_kept (.rfl' c) rmCore d.asid kCohRd (d.ring + 64 * (d.head % d.entries)) 64).clock
  have usable := (slotUsable_kept v d.asid (d.cring + 32 * (d.head % d.entries))).clock
  rw [hr] at read
  rw [hs] at usable
  exact usable.trans read

theorem takeNow_rejected {z : State} {code : Nat}
    (hv : (u.taken q d (d.launch q b u.clock.ns)).validate (d.launch q b u.clock.ns) = (z, .error code)) :
    c.takeNow q d = z.rejectLaunch u.freeLaunch (d.launch q b u.clock.ns) code := by
  unfold State.taken QDesc.launch at hv
  simp only [State.takeNow, hr, hs, hv, QDesc.launch]

theorem takeNow_accepted {z : State} {o : Obj} {r : Routine}
    (hv : (u.taken q d (d.launch q b u.clock.ns)).validate (d.launch q b u.clock.ns) = (z, .ok (o, r))) :
    c.takeNow q d = z.accept u.freeLaunch (d.launch q b u.clock.ns) o r := by
  unfold State.taken QDesc.launch at hv
  simp only [State.takeNow, hr, hs, hv, QDesc.launch]

end

theorem takeNow_unusable {x : Except TrapInfo (List Byte)}
    (hr : c.supRd rmCore d.asid kCohRd (d.ring + 64 * (d.head % d.entries)) 64 = (v, x))
    (hs : v.slotUsable d.asid (d.cring + 32 * (d.head % d.entries)) = (u, false)) : c.takeNow q d = u.queueError q 2 := by
  simp only [State.takeNow, hr, hs]

theorem takeRecord_takes (hq : s.qDesc q = (d, c)) (enabled : d.enabled = true) (ok : d.ok = true) (fits : d.fill ≤ d.entries)
    (may : c.mayTake q d = true) : s.takeRecord q = c.takeNow q d := by
  simp [State.takeRecord, hq, enabled, ok, may, Nat.not_lt.2 fits]

/-- A queue with a bad descriptor or an overrun tail is looked at as by its monitor. -/
theorem takeRecord_bad (hq : s.qDesc q = (d, c)) (enabled : d.enabled = true) (bad : d.ok = false ∨ d.entries < d.fill) :
    s.takeRecord q = s.scanQueue q := by
  have stopped : (!d.ok || decide (d.entries < d.fill)) = true := by simpa using bad
  simp only [State.takeRecord, hq, enabled, stopped, Bool.not_true, Bool.false_eq_true, if_false, if_true]

theorem exec_takeRecord {q : BitVec 6} (he : s.ev = .queue q) : exec .takeRecord s = out (s.takeRecord q.toNat) := by
  show execTakeRecord s = _
  simp only [execTakeRecord, he]
theorem exec_queueMonitorWake {q : BitVec 6} (he : s.ev = .queue q) : exec .queueMonitorWake s = out (s.scanQueue q.toNat) := by
  show execQueueMonitorWake s = _
  simp only [execQueueMonitorWake, he]

end

/-! ## Wait counters (R78) -/

section
variable {s c u : State} {id : Nat} {l : Launch}

/-- The Ringmaster as it reads a launch's counter: a user access of its context. -/
def Launch.counterWho (l : Launch) : Who := { core := rmCore, asid := l.asid }

theorem readCounter_fails (hp : s.counterParts l.asid l.waitaddr kCohRd = (c, none)) :
    s.readCounter id l = (c.retireLaunch id l stDEPFAIL).postErr 0x0003 l.asid 0 (BitVec.ofNat 64 l.waitaddr) l.word := by
  simp only [State.readCounter, hp]

/-- A counter that is read decides by its value. -/
theorem readCounter_reads {ps : List Part} {b : List Byte} (hp : s.counterParts l.asid l.waitaddr kCohRd = (c, some ps))
    (hr : (c.commitParts l.counterWho kCohRd ps).rdParts l.counterWho .package false l.waitaddr ps = (u, .ok b)) :
    s.readCounter id l = if 2 ^ 63 ≤ leNat b then u.retireLaunch id l stDEPFAIL
      else if l.waitval ≤ leNat b then u.setLaunch id (some { l with phase := .ready, readyAt := u.clock.ns }) else u := by
  unfold Launch.counterWho at hr
  simp only [State.readCounter, hp, hr]

/-- A record's threshold has 63 bits (R72). -/
theorem waitval_lt (l : Launch) : l.waitval < 2 ^ 63 := Nat.mod_lt _ (by decide)

theorem exec_waitCounterRead (he : s.ev = .launch id) (hl : s.launch id = some l) (waiting : l.phase = .waiting) :
    exec .waitCounterRead s = out (s.readCounter id l) := by
  show execWaitCounterRead s = _
  simp [execWaitCounterRead, State.evLaunch, he, hl, onlyIf, waiting]

end

/-! ## Dispatch (R80) -/

/-- Is a core in service that no team is on and that is held for no launch (R80; log 65)? -/
def State.coreFree (s : State) (k : Nat) : Prop :=
  (s.core k).team = none ∧ (∀ e ∈ s.launchList, k ∉ e.2.held.flatMap (groupCores e.2.shape)) ∧ s.inService k = true

theorem mayDispatch_iff (s : State) :
    s.mayDispatch = true ↔ s.launchList.all (fun e => !s.placing e.1 e.2) = true ∨ ∃ k < 192, s.coreFree k := by
  simp only [State.mayDispatch, State.coreFree, Bool.or_eq_true, List.any_eq_true, List.mem_range, Bool.and_eq_true,
    Option.isNone_iff_eq_none, Bool.not_eq_true', List.contains_eq_mem, decide_eq_false_iff_not,
    List.mem_flatMap (l := s.launchList), not_exists, not_and, and_assoc]

theorem exec_dispatch {s : State} {id : Nat} {l : Launch} (hb : s.bestReady = some (id, l)) :
    exec .dispatch s = out (if s.mayDispatch then s.dispatch id l else s) := by
  show execDispatch s = _
  simp only [execDispatch, hb, onlyIf]

/-- The order of dispatch (R80). -/
theorem Launch.before_iff (ns last : Nat) (a b : Launch) : Launch.before ns last a b = true ↔
    b.effPrio ns < a.effPrio ns ∨ (a.effPrio ns = b.effPrio ns ∧
      ((a.queue + 63 - last) % 64 < (b.queue + 63 - last) % 64 ∨
        ((a.queue + 63 - last) % 64 = (b.queue + 63 - last) % 64 ∧ a.index < b.index))) := by
  simp only [Launch.before, Bool.or_eq_true, Bool.and_eq_true, decide_eq_true_eq, beq_iff_eq]

/-! ## The obligation -/

/-- Settles O56: each event of the Ringmaster reaches what its queue, its record's verdict, its counter's value or the free groups
decide. -/
theorem ringmasterEvents : Obligations.RingmasterEvents := by
  unfold Obligations.RingmasterEvents
  intro s c u q qd b id code l ps n ob rt hbad
  refine ⟨fun he hq enabled ok fits may v hr hs => ?_, fun he hq enabled bad hv => ?_, fun he hq enabled ok fits may v x hr hs hv => ?_,
    fun he hv => ?_, ?_, fun he hl waiting hp hr hn => ⟨fun reached small hu => ?_, fun short hu => ?_, fun failed hu => ?_⟩,
    ?_, fun hbest => ?_, fun a b ns last => Launch.before_iff ns last a b⟩
  · have clock : u.clock.ns = s.clock.ns := by
      have read := (qDesc_kept s q.toNat).clock
      rw [hq] at read
      rw [recordRead_clock hr hs, read]
    have takes := (exec_takeRecord he).trans (congrArg out (takeRecord_takes hq enabled ok fits may))
    rw [← clock]
    exact ⟨fun z hv hz => happens_of_out (takes.trans (congrArg out (takeNow_rejected hr hs hv))) hz,
      fun z hv hz => happens_of_out (takes.trans (congrArg out (takeNow_accepted hr hs hv))) hz⟩
  · exact happens_of_out ((exec_takeRecord he).trans (congrArg out (takeRecord_bad hq enabled bad))) hv
  · have takes := (takeRecord_takes hq enabled ok fits may).trans (takeNow_unusable hr hs)
    exact happens_of_out ((exec_takeRecord he).trans (congrArg out takes)) hv
  · exact happens_of_out (exec_queueMonitorWake he) hv
  · rintro _ rfl hv
    exact happens_of_out rfl hv
  · refine happens_of_out ((exec_waitCounterRead he hl waiting).trans (congrArg out ?_)) hu
    rw [readCounter_reads hp hr, hn, if_neg (Nat.not_le.2 small), if_pos reached]
  · have small : n < 2 ^ 63 := Nat.lt_trans short (waitval_lt l)
    refine happens_of_out ((exec_waitCounterRead he hl waiting).trans (congrArg out ?_)) hu
    rw [readCounter_reads hp hr, hn, if_neg (Nat.not_le.2 small), if_neg (Nat.not_le.2 short)]
  · refine happens_of_out ((exec_waitCounterRead he hl waiting).trans (congrArg out ?_)) hu
    rw [readCounter_reads hp hr, hn, if_pos failed, stDEPFAIL]
  · rintro he hl waiting hp _ rfl hv
    exact happens_of_out ((exec_waitCounterRead he hl waiting).trans (congrArg out (readCounter_fails hp))) hv
  · refine ⟨fun allowed hd => ?_, fun refused _ => ?_⟩
    · refine happens_of_out ((exec_dispatch hbest).trans (congrArg out ?_)) hd
      exact if_pos ((mayDispatch_iff s).2 allowed)
    · refine happens_of_out ((exec_dispatch hbest).trans (congrArg out ?_)) hbad
      exact if_neg (mt (mayDispatch_iff s).1 refused)

end Sys2Proof.Machine

/-! Proofs about the placement of teams (04 R87-R101; 05 R109, R134; 22 R411, R412): which state each event of a team or of a launch
reaches, and what a strand starts with. -/

namespace Sys2Proof.Machine

/-! ## Holding groups leaves the turn as it is, so that an event still names its team or its launch -/

theorem Kept.ev {s t : State} (k : Kept s t) : t.ev = s.ev := by rw [k.rest, State.setMs_ev]

theorem homeDieOf_kept (s : State) (l : Launch) : Kept s (s.homeDieOf l).1 := by
  unfold State.homeDieOf
  split
  · exact .rfl' s
  · exact findLeaf_kept (.rfl' s) ..

@[simp] theorem holdGroups_ev (s : State) : s.holdGroups.ev = s.ev := by
  unfold State.holdGroups
  refine foldl_keeps (P := fun t : State => t.ev = s.ev) (fun t e kept => ?_) _ s rfl
  dsimp only
  split
  · exact kept
  · rw [State.setLaunch_ev, (homeDieOf_kept ..).ev, kept]

theorem evTeam_eq {s : State} {tid : Nat} {t : Team} (he : s.ev = .team tid) (ht : s.team tid = some t) : s.evTeam = some (tid, t) := by
  simp only [State.evTeam, he, ht, Option.map_some]

theorem evLaunch_eq {s : State} {id : Nat} {l : Launch} (he : s.ev = .launch id) (hl : s.launch id = some l) :
    s.evLaunch = some (id, l) := by
  simp only [State.evLaunch, he, hl, Option.map_some]

theorem Team.isResident_iff (t : Team) : t.isResident = true ↔ t.place = .resident := decide_eq_true_iff

/-! ## The events of a launch: placing and pre-emption (R87-R93, R99, R100) -/

section
variable {s : State} {id : Nat} {l : Launch}

section
variable (he : s.ev = .launch id) (hl : s.holdGroups.launch id = some l)
include he hl

theorem exec_placeTeam (dispatched : l.phase = .dispatched) :
    exec .placeTeam s = out (if l.swap then s.holdGroups.placeOne id l else s.holdGroups.placeAll id l) := by
  show execPlaceTeam s = _
  simp only [execPlaceTeam, evLaunch_eq ((holdGroups_ev s).trans he) hl, onlyIf, dispatched, decide_true, if_true]

theorem exec_preempt : exec .preempt s = out (s.holdGroups.preempt id l) := by
  show execPreempt s = _
  simp only [execPreempt, evLaunch_eq ((holdGroups_ev s).trans he) hl]

end

/-- The victims that a launch chooses for its waiting teams (R99). -/
def State.newVictims (s : State) (id : Nat) (l : Launch) : List (Nat × Team × Launch) :=
  s.chooseVictims id l (s.waitingN id l) (s.victims l) []

theorem preempt_saves (chosen : s.chosen id ≠ []) : s.preempt id l = s.preemptSave id := by
  unfold State.preempt
  rw [if_pos (by simpa using chosen)]

section
variable (unchosen : s.chosen id = [])
include unchosen

theorem preempt_unneeded (sated : s.needsGroup id l = false) : s.preempt id l = s := by
  simp only [State.preempt, unchosen, sated, List.isEmpty_nil, Bool.not_true, Bool.not_false, Bool.false_eq_true, if_false, if_true]

/-- A launch in need of a group reserves a block for each of its victims, or pre-empts none (R100). -/
theorem preempt_reserves (needs : s.needsGroup id l = true) :
    s.preempt id l = ((s.reserve id (s.newVictims id l)).map (·.preemptSave id)).getD s := by
  simp only [State.preempt, unchosen, needs, List.isEmpty_nil, Bool.not_true, Bool.false_eq_true, if_false]
  unfold State.newVictims
  cases s.reserve id _ <;> rfl

end
end

/-! ## The events of a team: quantum, swap-out, retirement and swap-in (R94-R98, R411, R412) -/

section
variable {s : State} {tid : Nat} {t : Team} {l : Launch}

section
variable (he : s.ev = .team tid) (ht : s.team tid = some t) (resident : t.place = .resident)
include he ht resident

theorem exec_quantumDecision (hl : s.launch t.launch = some l) (swap : l.swap = true) (running : t.stop = false)
    (due : t.quantumAt + l.quantumNs ≤ s.clock.ns + 60000) :
    exec .quantumDecision s = out (s.setTeam tid (some (if 0 < s.waitingN t.launch l then { t with stop := true, swapDue := true }
      else { t with quantumAt := t.quantumAt + l.quantumNs }))) := by
  show execQuantumDecision s = _
  simp only [execQuantumDecision, evTeam_eq he ht, hl, onlyIf, (Team.isResident_iff t).2 resident, swap, running, due, Bool.not_false,
    Bool.and_true, decide_true, if_true]
  split <;> rfl

theorem exec_swapOut (hl : s.launch t.launch = some l) (due : t.swapDue = true) (unclaimed : t.preempt = none)
    (ended : t.quantumAt + l.quantumNs ≤ s.clock.ns) (quiescent : s.quiescent t = true) :
    exec .swapOut s = out (s.swapOut tid t l) := by
  show execSwapOut s = _
  simp only [execSwapOut, evTeam_eq he ht, hl, onlyIf, (Team.isResident_iff t).2 resident, due, unclaimed, ended, quiescent,
    Option.isNone_none, Bool.and_true, decide_true, if_true]

theorem exec_teamRetire (done : s.teamDone t = true) : exec .teamRetire s = out (s.retireTeam tid t) := by
  show execTeamRetire s = _
  simp only [execTeamRetire, evTeam_eq he ht, onlyIf, (Team.isResident_iff t).2 resident, done, Bool.and_true, if_true]

end

theorem exec_swapIn (he : s.ev = .team tid) (ht : s.holdGroups.team tid = some t) (hl : s.holdGroups.launch t.launch = some l)
    (away : t.place ≠ .resident) :
    exec .swapIn s = out (if l.swap then s.holdGroups.swapInOne tid t l else s.holdGroups.swapInAll t.launch l) := by
  show execSwapIn s = _
  have notResident : t.isResident = false := decide_eq_false away
  simp only [execSwapIn, evTeam_eq ((holdGroups_ev s).trans he) ht, hl, onlyIf, notResident, Bool.not_false, if_true]

end

/-! ## A strand as it starts (R109, R134) -/

section
variable (s : State) (tid num slot role : Nat) (l : Launch)

theorem startStrand_sr (r : SReg) : (s.startStrand tid num slot role l).sr r = 0 := by
  simp [Strand.sr, State.startStrand]

theorem startStrand_pr (r : PReg) : (s.startStrand tid num slot role l).pr r = if r = 0 then BitVec.allOnes 64 else 0 := by
  unfold Strand.pr
  split
  · rfl
  · next other =>
    have unset : 0 ≠ r.toNat := fun e => other (BitVec.eq_of_toNat_eq e.symm)
    simp [State.startStrand, Vector.getElem_set_ne _ _ unset]

theorem startStrand_lane (r : VReg) (i : Nat) : lane ((s.startStrand tid num slot role l).vr r) i = 0 := by
  simp only [lane, Strand.vr, State.startStrand, Vector.getElem_replicate, Vector.toList_replicate, List.getD_eq_getElem?_getD]
  rw [List.getElem?_replicate]
  split <;> rfl

theorem startStrand_tagAt (g : BitVec 3) : (s.startStrand tid num slot role l).tagAt g = {} := by
  simp [Strand.tagAt, State.startStrand]

end

/-! ## The obligation -/

/-- Settles O57: holding groups leaves the event's team and launch named, each event then reaches what its guard selects, and a strand that
starts has the registers and fields of a new one. -/
theorem teamEvents : Obligations.TeamEvents := by
  unfold Obligations.TeamEvents
  refine ⟨fun s id tid l t hbad => ⟨fun he hl dispatched => ?_, fun he hl held => ?_, fun he ht hl resident => ?_,
    fun he ht hl away => ?_⟩, fun s tid num slot role l hrole => ?_⟩
  · have places := exec_placeTeam he hl dispatched
    exact ⟨fun swap => happens_of_out (places.trans (congrArg out (if_pos swap))),
      fun swap => happens_of_out (places.trans (congrArg out (if_neg (Bool.eq_false_iff.1 swap))))⟩
  · have preempts := exec_preempt he hl
    refine ⟨fun chosen => ?_, fun unchosen sated => ?_, fun unchosen needs blockless => ?_, fun unchosen needs u reserved => ?_⟩
    · exact happens_of_out (preempts.trans (congrArg out (preempt_saves chosen)))
    · exact happens_of_out (preempts.trans (congrArg out (preempt_unneeded unchosen sated))) held
    · refine happens_of_out (preempts.trans (congrArg out ((preempt_reserves unchosen needs).trans ?_))) held
      rw [State.newVictims, blockless, Option.map_none, Option.getD_none]
    · refine happens_of_out (preempts.trans (congrArg out ((preempt_reserves unchosen needs).trans ?_)))
      rw [State.newVictims, reserved, Option.map_some, Option.getD_some]
  · exact ⟨fun swap running due => happens_of_out (exec_quantumDecision he ht resident hl swap running due) hbad,
      fun due unclaimed ended quiescent => happens_of_out (exec_swapOut he ht resident hl due unclaimed ended quiescent),
      fun done => happens_of_out (exec_teamRetire he ht resident done)⟩
  · have swapsIn := exec_swapIn he ht hl away
    exact ⟨fun swap => happens_of_out (swapsIn.trans (congrArg out (if_pos swap))),
      fun swap => happens_of_out (swapsIn.trans (congrArg out (if_neg (Bool.eq_false_iff.1 swap))))⟩
  · have roleNumber : (BitVec.ofNat 4 role).toNat = role := Nat.mod_eq_of_lt hrole
    exact ⟨⟨rfl, rfl, roleNumber, rfl, rfl, rfl⟩, startStrand_sr s tid num slot role l, startStrand_pr s tid num slot role l,
      startStrand_lane s tid num slot role l, ⟨rfl, rfl, rfl, rfl, rfl⟩, ⟨rfl, rfl, rfl, rfl⟩, ⟨rfl, rfl⟩, rfl, rfl, rfl, rfl, rfl,
      startStrand_tagAt s tid num slot role l⟩

end Sys2Proof.Machine

/-! Proofs about the integer and predicate words (06 R135-R149): what the model's word functions compute, bit by bit or as operations of
the library, and from it what each word writes. -/

namespace Sys2Proof.Machine

/-! ## Products, quotients and remainders (R139, R140) -/

theorem mulhS_eq_extractLsb' (x y : Word) : mulhS x y = (x.signExtend 128 * y.signExtend 128).extractLsb' 64 64 := by
  have product : x.signExtend 128 * y.signExtend 128 = BitVec.ofInt 128 (x.toInt * y.toInt) := by
    apply BitVec.eq_of_toInt_eq
    rw [BitVec.toInt_mul, BitVec.toInt_signExtend_of_le (by decide), BitVec.toInt_signExtend_of_le (by decide), BitVec.toInt_ofInt]
  apply BitVec.eq_of_toNat_eq
  rw [product, BitVec.extractLsb'_toNat, BitVec.toNat_ofInt, mulhS, BitVec.toNat_ofInt, Nat.shiftRight_eq_div_pow]
  omega

theorem mulhU_eq_extractLsb' (x y : Word) : mulhU x y = (x.zeroExtend 128 * y.zeroExtend 128).extractLsb' 64 64 := by
  have fits : x.toNat * y.toNat < 2 ^ 128 := by
    rw [show 2 ^ 128 = 2 ^ 64 * 2 ^ 64 from rfl]
    exact Nat.mul_lt_mul'' x.isLt y.isLt
  apply BitVec.eq_of_toNat_eq
  simp only [BitVec.zeroExtend]
  rw [BitVec.extractLsb'_toNat, BitVec.toNat_mul, BitVec.toNat_setWidth_of_le (by decide),
    BitVec.toNat_setWidth_of_le (by decide), Nat.mod_eq_of_lt fits, Nat.shiftRight_eq_div_pow, mulhU, BitVec.toNat_ofNat]

theorem divS_eq_sdiv (x y : Word) : divS x y = if y = 0 then BitVec.allOnes 64 else x.sdiv y := by
  have quotient : BitVec.ofInt 64 (x.toInt.tdiv y.toInt) = x.sdiv y :=
    BitVec.eq_of_toInt_eq (by rw [BitVec.toInt_ofInt, BitVec.toInt_sdiv])
  rw [divS, quotient]

theorem divU_eq_udiv (x y : Word) : divU x y = if y = 0 then BitVec.allOnes 64 else x.udiv y := by
  have quotient : BitVec.ofNat 64 (x.toNat / y.toNat) = x.udiv y :=
    BitVec.eq_of_toNat_eq (by rw [BitVec.udiv_eq, BitVec.toNat_udiv, BitVec.toNat_ofNat,
      Nat.mod_eq_of_lt (Nat.lt_of_le_of_lt (Nat.div_le_self ..) x.isLt)])
  rw [divU, quotient]

theorem remS_eq_srem (x y : Word) : remS x y = if y = 0 then x else x.srem y := by
  rw [remS, ← BitVec.toInt_srem, BitVec.ofInt_toInt]

theorem remU_eq_umod (x y : Word) : remU x y = if y = 0 then x else x.umod y := by
  have remainder : BitVec.ofNat 64 (x.toNat % y.toNat) = x.umod y :=
    BitVec.eq_of_toNat_eq (by rw [BitVec.umod_eq, BitVec.toNat_umod, BitVec.toNat_ofNat,
      Nat.mod_eq_of_lt (Nat.lt_of_le_of_lt (Nat.mod_le ..) x.isLt)])
  rw [remU, remainder]

theorem sx32_eq_signExtend (x : Word) : sx32 x = (x.truncate 32).signExtend 64 := rfl

/-! ## Shifts (R141), minima and maxima -/

theorem shlW_eq_shiftLeft (x : Word) (n : Nat) : shlW x n = x <<< n := by
  unfold shlW
  split
  · exact (BitVec.shiftLeft_eq_zero ‹_›).symm
  · rfl

theorem shrW_eq_ushiftRight (x : Word) (n : Nat) : shrW x n = x >>> n := by
  unfold shrW
  split
  · exact (BitVec.ushiftRight_eq_zero ‹_›).symm
  · rfl

/-- A shift of 63 already leaves copies of the sign alone. -/
theorem sarW_eq_sshiftRight (x : Word) (n : Nat) : sarW x n = x.sshiftRight n := by
  unfold sarW
  rcases Nat.le_total n 63 with h | h
  · rw [Nat.min_eq_left h]
  · rw [Nat.min_eq_right h]
    have sign (m i : Nat) (hm : 63 ≤ m) : (if m + i < 64 then x.getLsbD (m + i) else x.msb) = x.msb := by
      split
      · rw [BitVec.msb_eq_getLsbD_last, show m + i = 64 - 1 by omega]
      · rfl
    apply BitVec.eq_of_getLsbD_eq
    intro i hi
    rw [BitVec.getLsbD_sshiftRight, BitVec.getLsbD_sshiftRight, sign 63 i (Nat.le_refl 63), sign n i h]

theorem rolW_eq_rotateLeft_mod (x : Word) (n : Nat) : rolW x n = x.rotateLeft (n % 64) := rfl

theorem rolW_eq_rotateLeft (x : Word) {n : Nat} (h : n < 64) : rolW x n = x.rotateLeft n := by rw [rolW, Nat.mod_eq_of_lt h]

theorem ite_sle {α : Type} (x y : Word) (a b : α) : (if x.sle y then a else b) = if x.toInt ≤ y.toInt then a else b := by
  simp only [BitVec.sle_iff_toInt_le]

theorem ite_ule {α : Type} (x y : Word) (a b : α) : (if x.ule y then a else b) = if x.toNat ≤ y.toNat then a else b := by
  simp only [BitVec.ule_iff_toNat_le]

/-! ## Bit fields (R142) -/

/-- The word whose low `w` bits are ones. -/
def lowOnes (w : Nat) : Word := BitVec.ofNat 64 (2 ^ w - 1)

theorem lowOnes_getLsbD (w i : Nat) : (lowOnes w).getLsbD i = (decide (i < 64) && decide (i < w)) := by
  rw [lowOnes, BitVec.getLsbD_ofNat, Nat.testBit_two_pow_sub_one]

theorem fieldW_testBit (x : Word) (lsb w i : Nat) : (fieldW x lsb w).testBit i = (decide (i < w) && x.getLsbD (lsb + i)) := by
  rw [fieldW, Nat.testBit_mod_two_pow, Nat.testBit_shiftRight, BitVec.testBit_toNat]

theorem ofNat_fieldW (x : Word) (lsb w : Nat) :
    BitVec.ofNat 64 (fieldW x lsb w) = x >>> lsb &&& lowOnes w := by
  apply BitVec.eq_of_getLsbD_eq
  intro i hi
  rw [BitVec.getLsbD_ofNat, fieldW_testBit, BitVec.getLsbD_and, BitVec.getLsbD_ushiftRight, lowOnes_getLsbD, decide_eq_true hi,
    Bool.true_and, Bool.true_and, Bool.and_comm]

/-- The top bit of a number that is below the next power of two. -/
theorem testBit_top {n k : Nat} (h : n < 2 ^ (k + 1)) : n.testBit k = decide (2 ^ (k + 1) ≤ 2 * n) := by
  rw [Nat.pow_succ] at h ⊢
  by_cases top : 2 ^ k ≤ n
  · rw [decide_eq_true (by omega), Nat.testBit_of_two_pow_le_and_two_pow_add_one_gt top (by rw [Nat.pow_succ]; exact h)]
  · rw [decide_eq_false (by omega), Nat.testBit_lt_two_pow (by omega)]

/-- Sign extension puts ones above a field whose top bit is set. -/
theorem sext_eq_or {n k : Nat} (h : n < 2 ^ (k + 1)) (hk : k < 64) :
    sext (k + 1) n = BitVec.ofNat 64 n ||| (if n.testBit k then ~~~lowOnes (k + 1) else 0) := by
  unfold sext
  dsimp only
  rw [Nat.mod_eq_of_lt h, testBit_top h]
  split
  next top =>
    rw [decide_eq_true top, if_pos rfl]
    apply BitVec.eq_of_getLsbD_eq
    intro i hi
    have above : n + (2 ^ 64 - 2 ^ (k + 1)) = 2 ^ (k + 1) * (2 ^ (63 - k) - 1) + n := by
      rw [Nat.mul_sub, ← Nat.pow_add, show k + 1 + (63 - k) = 64 by omega]
      omega
    rw [BitVec.getLsbD_or, BitVec.getLsbD_ofNat, BitVec.getLsbD_ofNat, BitVec.getLsbD_not, lowOnes_getLsbD, above,
      Nat.testBit_two_pow_mul_add _ h, Nat.testBit_two_pow_sub_one]
    by_cases low : i < k + 1
    · simp [hi, low]
    · simp [hi, low]
      omega
  next low => simp [low]

/-- What BFX with sign extension writes. -/
theorem sext_fieldW (x : Word) (lsb : Nat) {k : Nat} (h : k < 64) :
    sext (k + 1) (fieldW x lsb (k + 1)) = (x >>> lsb &&& lowOnes (k + 1)) |||
      (if (x >>> lsb &&& lowOnes (k + 1)).getLsbD k then ~~~lowOnes (k + 1) else 0) := by
  have fits : fieldW x lsb (k + 1) < 2 ^ (k + 1) := Nat.mod_lt _ (Nat.two_pow_pos _)
  have sign : (fieldW x lsb (k + 1)).testBit k = (BitVec.ofNat 64 (fieldW x lsb (k + 1))).getLsbD k := by
    rw [BitVec.getLsbD_ofNat, decide_eq_true h, Bool.true_and]
  rw [sext_eq_or fits h, sign, ofNat_fieldW]

/-- The bits of `x` above the field, the low bits of `y` in its place, and the bits of `x` below. -/
theorem insertW_eq_parts (x y : Word) (lsb w : Nat) : insertW x y lsb w =
    BitVec.ofNat 64 (2 ^ lsb * (2 ^ w * (x.toNat / 2 ^ lsb / 2 ^ w) + y.toNat % 2 ^ w) + x.toNat % 2 ^ lsb) := by
  have parts : x.toNat = 2 ^ lsb * (2 ^ w * (x.toNat / 2 ^ lsb / 2 ^ w) + fieldW x lsb w) + x.toNat % 2 ^ lsb := by
    rw [fieldW, Nat.shiftRight_eq_div_pow, Nat.div_add_mod, Nat.div_add_mod]
  rw [insertW]
  congr 1
  conv => lhs; rw [parts]
  rw [Nat.mul_comm _ (2 ^ lsb), Nat.mul_comm _ (2 ^ lsb), Nat.mul_add, Nat.mul_add]
  omega

theorem insertW_eq_or (x y : Word) (lsb w : Nat) :
    insertW x y lsb w = (x &&& ~~~(lowOnes w <<< lsb)) ||| (y &&& lowOnes w) <<< lsb := by
  have low : x.toNat % 2 ^ lsb < 2 ^ lsb := Nat.mod_lt _ (Nat.two_pow_pos _)
  have inner : y.toNat % 2 ^ w < 2 ^ w := Nat.mod_lt _ (Nat.two_pow_pos _)
  apply BitVec.eq_of_getLsbD_eq
  intro i hi
  rw [insertW_eq_parts, BitVec.getLsbD_ofNat, Nat.testBit_two_pow_mul_add _ low, Nat.testBit_two_pow_mul_add _ inner,
    Nat.testBit_mod_two_pow, Nat.testBit_mod_two_pow, Nat.testBit_div_two_pow, Nat.testBit_div_two_pow]
  simp only [BitVec.testBit_toNat, BitVec.getLsbD_or, BitVec.getLsbD_and, BitVec.getLsbD_not, BitVec.getLsbD_shiftLeft, lowOnes_getLsbD,
    hi, decide_true, Bool.true_and]
  by_cases below : i < lsb
  · simp [below]
  · by_cases inside : i - lsb < w
    · simp [below, inside, show i - lsb < 64 by omega]
    · simp [below, inside, show i - lsb - w + w + lsb = i by omega]

/-! ## Counts of bits (R139) -/

/-- The highest bit that is set, which CLZ counts down to. -/
theorem clzW_highest {x : Word} (h : x ≠ 0) : ∃ n, n < 64 ∧ clzW x = BitVec.ofNat 64 (63 - n) ∧ x.getLsbD n = true ∧
    ∀ j, n < j → x.getLsbD j = false := by
  have nonzero : x.toNat ≠ 0 := fun e => h (BitVec.eq_of_toNat_eq e)
  refine ⟨Nat.log2 x.toNat, (Nat.log2_lt nonzero).2 x.isLt, by rw [clzW, if_neg h], Nat.testBit_log2 nonzero, fun j hj => ?_⟩
  exact Nat.testBit_lt_two_pow ((Nat.log2_lt nonzero).1 hj)

/-- The lowest bit that is set, which CTZ finds. -/
theorem ctzW_lowest {x : Word} (h : x ≠ 0) : ∃ k, k < 64 ∧ ctzW x = BitVec.ofNat 64 k ∧ x.getLsbD k = true ∧
    ∀ j, j < k → x.getLsbD j = false := by
  cases found : (List.range 64).find? (fun i => x.getLsbD i) with
  | none =>
    refine absurd (BitVec.eq_of_getLsbD_eq fun i hi => ?_) h
    simpa using List.find?_range_eq_none.1 found i hi
  | some k =>
    obtain ⟨isSet, inside, below⟩ := List.find?_range_eq_some.1 found
    exact ⟨k, List.mem_range.1 inside, by rw [ctzW, found]; rfl, isSet, fun j hj => by simpa using below j hj⟩

theorem length_filter_eq_sum {α : Type} (p : α → Bool) (l : List α) : (l.filter p).length = (l.map (fun a => (p a).toNat)).sum := by
  induction l with
  | nil => rfl
  | cons a l ih => cases h : p a <;> simp [h, ih]; omega

theorem popW_toNat (x : Word) : (popW x).toNat = ((List.range 64).map (fun i => x.toNat / 2 ^ i % 2)).sum := by
  have few : ((List.range 64).filter (fun i => x.getLsbD i)).length < 2 ^ 64 :=
    Nat.lt_of_le_of_lt (List.length_filter_le ..) (by rw [List.length_range]; decide)
  rw [popW, BitVec.toNat_ofNat, Nat.mod_eq_of_lt few, length_filter_eq_sum]
  simp only [BitVec.getLsbD, Nat.toNat_testBit]

/-! ## Bytes in reverse order (R139) -/

theorem leBytes_eq_map (n x : Nat) : leBytes n x = (List.range n).map (fun i => BitVec.ofNat 8 (x / 256 ^ i)) := by
  induction n generalizing x with
  | zero => rfl
  | succ n ih => simp [leBytes, ih, List.range_succ_eq_map, Nat.pow_succ', Nat.div_div_eq_div_mul]

theorem leNat_testBit (bs : List Byte) (k : Nat) {j : Nat} (h : j < 8) : (leNat bs).testBit (8 * k + j) = (bs.getD k 0).getLsbD j := by
  induction bs generalizing k with
  | nil => simp [leNat]
  | cons b r ih =>
    rw [leNat, Nat.add_comm, show 256 = 2 ^ 8 from rfl, Nat.testBit_two_pow_mul_add _ b.isLt]
    cases k with
    | zero => rw [if_pos (by omega), BitVec.testBit_toNat, List.getD_cons_zero, Nat.mul_zero, Nat.zero_add]
    | succ k => rw [if_neg (by omega), show 8 * (k + 1) + j - 8 = 8 * k + j by omega, ih k, List.getD_cons_succ]

theorem leWord_extractLsb' (bs : List Byte) {k : Nat} (h : k < 8) : (leWord bs).extractLsb' (8 * k) 8 = bs.getD k 0 := by
  apply BitVec.eq_of_getLsbD_eq
  intro j hj
  rw [BitVec.getLsbD_extractLsb', leWord, BitVec.getLsbD_ofNat, leNat_testBit bs k hj, decide_eq_true hj,
    decide_eq_true (show 8 * k + j < 64 by omega), Bool.true_and, Bool.true_and]

theorem bswapW_extractLsb' (x : Word) {k : Nat} (h : k < 8) : (bswapW x).extractLsb' (8 * k) 8 = x.extractLsb' (56 - 8 * k) 8 := by
  have mirrored : (leBytes 8 x.toNat).reverse.getD k 0 = BitVec.ofNat 8 (x.toNat / 256 ^ (7 - k)) := by
    rw [leBytes_eq_map]
    simp [List.getD, h]
  rw [bswapW, leWord_extractLsb' _ h, mirrored]
  apply BitVec.eq_of_toNat_eq
  rw [BitVec.toNat_ofNat, BitVec.extractLsb'_toNat, Nat.shiftRight_eq_div_pow, show 256 = 2 ^ 8 from rfl, ← Nat.pow_mul,
    show 8 * (7 - k) = 56 - 8 * k by omega]

/-! ## Conditions (R143) -/

theorem not_slt (x y : Word) : (!x.slt y) = decide (y.toInt ≤ x.toInt) := by
  rw [← BitVec.sle_eq_not_slt, BitVec.sle_eq_decide]

theorem not_ult (x y : Word) : (!x.ult y) = decide (y.toNat ≤ x.toNat) := by
  rw [← BitVec.ule_eq_not_ult, BitVec.ule_eq_decide]

theorem beq_eq_decide_eq (x y : Word) : (x == y) = decide (x = y) := rfl

theorem bne_eq_decide_ne (x y : Word) : (x != y) = decide (x ≠ y) := by rw [bne, beq_eq_decide_eq, decide_not]

theorem condOf_meaning (x y : Word) :
    condOf .eq x y = decide (x = y) ∧ condOf .ne x y = decide (x ≠ y) ∧ condOf .lt x y = decide (x.toInt < y.toInt) ∧
    condOf .ge x y = decide (x.toInt ≥ y.toInt) ∧ condOf .ltu x y = decide (x.toNat < y.toNat) ∧
    condOf .geu x y = decide (x.toNat ≥ y.toNat) ∧ condOf .gt x y = decide (x.toInt > y.toInt) ∧
    condOf .le x y = decide (x.toInt ≤ y.toInt) ∧ condOf .gtu x y = decide (x.toNat > y.toNat) ∧
    condOf .leu x y = decide (x.toNat ≤ y.toNat) ∧ condOf .tst x y = decide (x &&& y ≠ 0) ∧
    condOf .ntst x y = decide (x &&& y = 0) :=
  ⟨beq_eq_decide_eq .., bne_eq_decide_ne .., BitVec.slt_eq_decide, not_slt x y, BitVec.ult_eq_decide, not_ult x y, BitVec.slt_eq_decide,
    not_slt y x, BitVec.ult_eq_decide, not_ult y x, bne_eq_decide_ne .., beq_eq_decide_eq ..⟩

/-! ## Masks (R148, R149) -/

/-- The number whose bits below `m` are those of `f`, as `maskOf` adds it up. -/
def bitSum (f : Nat → Bool) (m : Nat) : Nat := (List.range m).foldl (fun n i => if f i then n + 2 ^ i else n) 0

theorem maskOf_eq_bitSum (f : Nat → Bool) : maskOf f = BitVec.ofNat 64 (bitSum f 64) := rfl

theorem bitSum_succ (f : Nat → Bool) (m : Nat) : bitSum f (m + 1) = 2 ^ m * (f m).toNat + bitSum f m := by
  unfold bitSum
  rw [List.range_succ, List.foldl_append]
  cases h : f m <;> simp [h, Nat.add_comm]

theorem bitSum_lt (f : Nat → Bool) (m : Nat) : bitSum f m < 2 ^ m := by
  induction m with
  | zero => exact Nat.one_pos
  | succ m ih =>
    have := Nat.mul_le_mul_left (2 ^ m) (Bool.toNat_le (f m))
    rw [bitSum_succ, Nat.pow_succ]
    omega

theorem bitSum_testBit (f : Nat → Bool) {m i : Nat} (h : i < m) : (bitSum f m).testBit i = f i := by
  induction m with
  | zero => omega
  | succ m ih =>
    rw [bitSum_succ, Nat.testBit_two_pow_mul_add _ (bitSum_lt f m)]
    split
    next below => exact ih below
    next top =>
      obtain rfl : i = m := by omega
      rw [Nat.sub_self]
      cases f i <;> rfl

theorem maskOf_getLsbD (f : Nat → Bool) {i : Nat} (h : i < 64) : (maskOf f).getLsbD i = f i := by
  rw [maskOf_eq_bitSum, BitVec.getLsbD_ofNat, bitSum_testBit f h, decide_eq_true h, Bool.true_and]

/-! ## The shapes of the words: what each writes, at its latency -/

section
variable {i : Instr} {s : State} {h : Hdr} {rs : List Reg} (r : Runs s h rs)
include r

theorem Runs.alu3 (f : Word → Word → Word) {d a b : SReg} {lat : Nat} {x : Word} (hr : ∀ q ∈ [rS a, rS b, rS d], q ∈ rs)
    (he : exec i s = Machine.alu3 h d a b lat f s) (hx : f (s.sr a) (s.sr b) = x) : RanS i s s d x 0 lat :=
  hx ▸ r.ranS he rfl rfl rfl rfl hr

theorem Runs.alu2 (f : Word → Word) {d a : SReg} {lat : Nat} {x : Word} (hr : ∀ q ∈ [rS a, rS d], q ∈ rs)
    (he : exec i s = Machine.alu2 h d a lat f s) (hx : f (s.sr a) = x) : RanS i s s d x 0 lat :=
  hx ▸ r.ranS he rfl rfl rfl rfl hr

theorem Runs.pred3 (f : Word → Word → Word) {d a b : PReg} {x : Word} (hr : ∀ q ∈ [rP a, rP b, rP d], q ∈ rs)
    (he : exec i s = Machine.pred3 h d a b f s) (hx : f (s.pr a) (s.pr b) = x) : RanP i s s d x 0 1 :=
  hx ▸ r.ranP he rfl rfl rfl rfl hr

variable {u : Use} {body : State → Eff} {x : Word} {fl : Flags} {lat : Nat} (he : exec i s = Machine.issue h u body s)
  (hv : u.vec = false) (ho : u.on = State.guardOn) (hp : u.priv = none) (hr : ∀ q ∈ u.base ++ (u.rd ++ u.wr), q ∈ rs)
include he hv ho hp hr

/-- A scalar word that writes `s[d]` with flags. -/
theorem Runs.ranSF {d : SReg} (hb : body s = .done (s.wrSF d x fl lat)) : RanS i s s d x fl lat :=
  RanS.intro r.clean (Like.refl s) (Piped.rfl' s) rfl rfl (by rw [he, r.issue hv ho (.inl hp) hr, hb])

/-- A scalar word that writes `p[d]` with flags. -/
theorem Runs.ranPF {d : PReg} (hb : body s = .done ((s.wrP d x lat).addFlags fl lat)) : RanP i s s d x fl lat :=
  RanP.intro r.clean (Like.refl s) (Piped.rfl' s) rfl rfl (by rw [he, r.issue hv ho (.inl hp) hr, hb])

end

/-! ## The obligations -/

/-- Settles O8: each word is `alu3` of a function that is the one stated. -/
theorem integerRegisterResults : Obligations.IntegerRegisterResults := by
  unfold Obligations.IntegerRegisterResults
  intro s h d a b r
  have ran (f : Word → Word → Word) {i : Instr} {lat : Nat} {x : Word} := r.alu3 (i := i) (lat := lat) (x := x) f fun _ => id
  simp only [List.forall_mem_cons]
  exact ⟨ran (· + ·) rfl rfl, ran (· - ·) rfl rfl, ran (· * ·) rfl rfl,
    ran mulhS rfl (mulhS_eq_extractLsb' ..), ran mulhU rfl (mulhU_eq_extractLsb' ..),
    ran divS rfl (divS_eq_sdiv ..), ran divU rfl (divU_eq_udiv ..), ran remS rfl (remS_eq_srem ..), ran remU rfl (remU_eq_umod ..),
    ran (· &&& ·) rfl rfl, ran (· ||| ·) rfl rfl, ran (· ^^^ ·) rfl rfl, ran (· &&& ~~~·) rfl rfl,
    ran (fun x y => shlW x y.toNat) rfl (shlW_eq_shiftLeft ..), ran (fun x y => shrW x y.toNat) rfl (shrW_eq_ushiftRight ..),
    ran (fun x y => sarW x y.toNat) rfl (sarW_eq_sshiftRight ..), ran (fun x y => rolW x y.toNat) rfl (rolW_eq_rotateLeft_mod ..),
    ran (fun x y => if x.sle y then x else y) rfl (ite_sle ..), ran (fun x y => if y.sle x then x else y) rfl (ite_sle ..),
    ran (fun x y => if x.ule y then x else y) rfl (ite_ule ..), ran (fun x y => if y.ule x then x else y) rfl (ite_ule ..),
    ran (fun x y => sx32 (x + y)) rfl (sx32_eq_signExtend _), ran (fun x y => sx32 (x - y)) rfl (sx32_eq_signExtend _),
    ran (fun x y => sx32 (x * y)) rfl (sx32_eq_signExtend _), List.forall_mem_nil _⟩

/-- Settles O9: each word is `alu2` of a function of its operand and its immediate, or writes a value of the immediate alone. -/
theorem integerImmediateResults : Obligations.IntegerImmediateResults := by
  unfold Obligations.IntegerImmediateResults
  intro s h d a imm n r
  have ran (f : Word → Word) {i : Instr} {lat : Nat} {x : Word} := r.alu2 (i := i) (lat := lat) (x := x) f fun _ => id
  have dest : ∀ q ∈ [rS d], q ∈ [rS a, rS d] := fun q hq => List.mem_cons_of_mem _ hq
  simp only [List.forall_mem_cons]
  exact ⟨ran (· + simm imm) rfl rfl, ran (· &&& simm imm) rfl rfl, ran (· ||| simm imm) rfl rfl, ran (· ^^^ simm imm) rfl rfl,
    ran (shlW · n.toNat) rfl (shlW_eq_shiftLeft ..), ran (shrW · n.toNat) rfl (shrW_eq_ushiftRight ..),
    ran (sarW · n.toNat) rfl (sarW_eq_sshiftRight ..), ran (rolW · n.toNat) rfl (rolW_eq_rotateLeft _ n.isLt),
    r.ranS rfl rfl rfl rfl rfl dest, ran (fun x => imm ++ x.setWidth 32) rfl rfl, ran (· * simm imm) rfl rfl,
    ran (fun x => if x.sle (simm imm) then x else simm imm) rfl (ite_sle ..),
    ran (fun x => if (simm imm).sle x then x else simm imm) rfl (ite_sle ..),
    r.ranS rfl rfl rfl rfl rfl dest, List.forall_mem_nil _⟩

/-- Settles O10: the words write the counts, fields and bytes that `clzW` and its companions compute, and these are counts, fields and
bytes. -/
theorem bitFieldResults : Obligations.BitFieldResults := by
  unfold Obligations.BitFieldResults
  refine ⟨fun s h d a b c wid lsb r _ => ?_, fun x => ⟨?_, ?_, popW_toNat x, fun i hi => bswapW_extractLsb' x hi⟩⟩
  · have two (f : Word → Word) {i : Instr} {x : Word} := r.alu2 (i := i) (d := d) (a := a) (lat := 1) (x := x) f (by simp)
    have three (f : Word → Word → Word) {i : Instr} {x : Word} :=
      r.alu3 (i := i) (d := d) (a := a) (b := b) (lat := 1) (x := x) f (by simp)
    let w := wid.toNat + 1
    simp only [List.forall_mem_cons]
    exact ⟨two clzW rfl rfl, two ctzW rfl rfl, two popW rfl rfl, two bswapW rfl rfl,
      two (fun x => BitVec.ofNat 64 (fieldW x lsb.toNat w)) rfl (ofNat_fieldW ..),
      two (fun x => sext w (fieldW x lsb.toNat w)) rfl (sext_fieldW _ _ wid.isLt),
      three (fun x y => insertW x y lsb.toNat w) rfl (insertW_eq_or ..), r.ranS rfl rfl rfl rfl rfl fun _ => id, List.forall_mem_nil _⟩
  · rintro rfl
    exact ⟨rfl, rfl⟩
  · intro nonzero
    obtain ⟨n, hn, clz, high, above⟩ := clzW_highest nonzero
    obtain ⟨k, hk, ctz, low, below⟩ := ctzW_lowest nonzero
    exact ⟨n, k, hn, hk, clz, ctz, high, above, low, below⟩

/-- Settles O11: a compare writes `condOf` or `fcompare`, spread over a predicate or as a number. -/
theorem compareResults : Obligations.CompareResults := by
  unfold Obligations.CompareResults
  refine ⟨fun s h p d a b cc fc ty val => ⟨fun r => ?_, fun r => ?_⟩, condOf_meaning⟩
  · exact ⟨r.ranP rfl rfl rfl rfl rfl fun _ => id, r.ranP rfl rfl rfl rfl rfl (by simp [CmpDst.reg]),
      r.ranPF rfl rfl rfl rfl (fun _ => id) rfl⟩
  · exact ⟨r.ranS rfl rfl rfl rfl rfl fun _ => id, r.ranS rfl rfl rfl rfl rfl (by simp [CmpDst.reg]),
      r.ranSF rfl rfl rfl rfl (fun _ => id) rfl⟩

/-- Settles O12: the two-operand words are `pred3` of the function stated, and `maskOf` has the bits of its function. -/
theorem predicateResults : Obligations.PredicateResults := by
  unfold Obligations.PredicateResults
  intro s h d a b r x y n runs
  have ran (f : Word → Word → Word) {i : Instr} {z : Word} := runs.pred3 (i := i) (d := d) (a := a) (b := b) (x := z) f (by simp)
  simp only [List.forall_mem_cons]
  refine ⟨⟨ran (· &&& ·) rfl rfl, ran (· ||| ·) rfl rfl, ran (· ^^^ ·) rfl rfl, ran (· &&& ~~~·) rfl rfl,
    runs.ranP rfl rfl rfl rfl rfl (by simp),
    ran (fun p q => allOnes (p &&& q != 0)) rfl (congrArg allOnes (bne_eq_decide_ne ..)),
    ran (fun p q => allOnes (p &&& q == q)) rfl (congrArg allOnes (beq_eq_decide_eq ..)),
    ran (fun p q => (p &&& q) &&& (0 - (p &&& q))) rfl rfl, List.forall_mem_nil _⟩, ?pset, ?planes, ?pto, ?pcnt⟩
  case pset => exact ⟨_, runs.ranP rfl rfl rfl rfl rfl (by simp), fun i => maskOf_getLsbD _⟩
  case planes =>
    exact ⟨_, runs.ranP rfl rfl rfl rfl rfl (by simp), fun i hi => (maskOf_getLsbD _ hi).trans (Bool.decide_and ..).symm⟩
  case pto => exact runs.ranS rfl rfl rfl rfl rfl (by simp)
  case pcnt => exact runs.ranS rfl rfl rfl rfl rfl (by simp)

end Sys2Proof.Machine

/-! Proofs about the floating-point words and the vector words (08 R172-R194): the shapes of the words, what the model's lane functions
and VRED's tree compute, and from them what each word writes. -/

namespace Sys2Proof.Machine

/-! ## Another generator -/

/-- A state with another generator has the same registers. -/
theorem setSrstate_like (s : State) (g : Word) : Like s (s.modSt (fun x => { x with srstate := g })) :=
  ⟨rfl, by rw [State.modSt_st]; exact ⟨rfl, rfl, rfl⟩⟩

/-! ## The shapes of the scalar words: what each writes, at its latency -/

section
variable {i : Instr} {s : State} {h : Hdr} {rs : List Reg} (r : Runs s h rs)
include r

theorem Runs.fp2 (f : XVal → XRes) {ty : FType} {d a : SReg} {lat : Nat} (hr : ∀ q ∈ [rS a, rS d], q ∈ rs)
    (he : exec i s = Machine.fp2 h ty d a lat f s) : RanF i s d (ftFmt ty) s.rmode lat (f (s.fr (ftFmt ty) a)) :=
  r.ranF he rfl rfl rfl rfl hr

theorem Runs.fp3 (f : RMode → XVal → XVal → XRes) {ty : FType} {d a b : SReg} {lat : Nat} (hr : ∀ q ∈ [rS a, rS b, rS d], q ∈ rs)
    (he : exec i s = Machine.fp3 h ty d a b lat f s) :
    RanF i s d (ftFmt ty) s.rmode lat (f s.rmode (s.fr (ftFmt ty) a) (s.fr (ftFmt ty) b)) :=
  r.ranF he rfl rfl rfl rfl hr

theorem Runs.fp4 (f : RMode → XVal → XVal → XVal → XRes) {ty : FType} {d a b c : SReg}
    (hr : ∀ q ∈ [rS a, rS b, rS c, rS d], q ∈ rs) (he : exec i s = Machine.fp4 h ty d a b c f s) :
    RanF i s d (ftFmt ty) s.rmode 4 (f s.rmode (s.fr (ftFmt ty) a) (s.fr (ftFmt ty) b) (s.fr (ftFmt ty) c)) :=
  r.ranF he rfl rfl rfl rfl hr

theorem Runs.fpMinMax {ty : FType} {d a b : SReg} {isMax num : Bool} (hr : ∀ q ∈ [rS a, rS b, rS d], q ∈ rs)
    (he : exec i s = Machine.fpMinMax h ty d a b isMax num s) :
    let z := fminmax (ftFmt ty) isMax num (s.sr a).toNat (s.sr b).toNat
    RanS i s s d (BitVec.ofNat 64 z.1) z.2 4 :=
  r.ranSF he rfl rfl rfl hr rfl

/-- FSGN delivers the default NaN for a NaN, and else its operand with the sign chosen (R181). -/
theorem Runs.fsgn {ty : FType} {op : SgnOp} {d a : SReg} (hr : ∀ q ∈ rS a :: SgnOp.regs op ++ [rS d], q ∈ rs) :
    let F := ftFmt ty
    let x := (s.sr a).toNat % 2 ^ F.width
    let v := F.read x
    let neg := sgnOf op (decide (F.signBit ≤ x)) (fun b => decide (F.signBit ≤ (s.sr b).toNat % 2 ^ F.width))
    RanS (.fsgn h ty op d a) s s d (BitVec.ofNat 64 (if v.isNan then F.nanBits else x % F.signBit + (if neg then F.signBit else 0)))
      (if v.isNan then sigFlag [v] else 0) 1 := by
  intro F x v neg
  cases nan : v.isNan with
  | true => exact r.ranSF rfl rfl rfl rfl hr (if_pos nan)
  | false => exact r.ranSF rfl rfl rfl rfl hr (if_neg (Bool.eq_false_iff.1 nan))

/-- A scalar word that makes `s` into `v`, with the same registers, and there writes `s[d]` with flags. -/
theorem Runs.ranSF_from {v : State} (like : Like s v) (ms : v.ms = s.ms) (now : v.now = s.now) {u : Use} {body : State → Eff} {d : SReg}
    {x : Word} {fl : Flags} {lat : Nat} (he : exec i s = Machine.issue h u body s) (hv : u.vec = false) (ho : u.on = State.guardOn)
    (hp : u.priv = none) (hr : ∀ q ∈ u.base ++ (u.rd ++ u.wr), q ∈ rs) (hb : body s = .done (v.wrSF d x fl lat)) :
    RanS i s v d x fl lat :=
  RanS.intro (Clean.of_ms r.clean ms) like (Piped.rfl' v) now rfl (by rw [he, r.issue hv ho (.inl hp) hr, hb])

end

/-! ## Integer lanes (R188): the model's functions as operations of the library -/

theorem mulh32_eq_extractLsb' (u : Bool) (x y : Lane) : mulh32 u x y =
    ((if u then x.zeroExtend 64 else x.signExtend 64) * (if u then y.zeroExtend 64 else y.signExtend 64)).extractLsb' 32 32 := by
  apply BitVec.eq_of_toNat_eq
  rw [BitVec.extractLsb'_toNat, Nat.shiftRight_eq_div_pow, mulh32]
  cases u with
  | true =>
    have fits : x.toNat * y.toNat < 2 ^ 64 := Nat.mul_lt_mul'' (c := 2 ^ 32) (d := 2 ^ 32) x.isLt y.isLt
    simp only [if_true, BitVec.zeroExtend]
    rw [BitVec.toNat_mul, BitVec.toNat_setWidth_of_le (by decide), BitVec.toNat_setWidth_of_le (by decide), Nat.mod_eq_of_lt fits,
      BitVec.toNat_ofNat]
  | false =>
    have product : x.signExtend 64 * y.signExtend 64 = BitVec.ofInt 64 (x.toInt * y.toInt) := by
      apply BitVec.eq_of_toInt_eq
      rw [BitVec.toInt_mul, BitVec.toInt_signExtend_of_le (by decide), BitVec.toInt_signExtend_of_le (by decide), BitVec.toInt_ofInt]
    simp only [Bool.false_eq_true, if_false]
    rw [product, BitVec.toNat_ofInt, BitVec.toNat_ofInt]
    omega

theorem ite_shiftLeft (x : Lane) (n : Nat) : (if 32 ≤ n then 0 else x <<< n) = x <<< n :=
  ite_eq_right_iff.2 fun wide => (BitVec.shiftLeft_eq_zero wide).symm

theorem ite_ushiftRight (x : Lane) (n : Nat) : (if 32 ≤ n then 0 else x >>> n) = x >>> n :=
  ite_eq_right_iff.2 fun wide => (BitVec.ushiftRight_eq_zero wide).symm

/-- From the width less one on, an arithmetic shift leaves the sign in every bit. -/
theorem getLsbD_sshiftRight_of_le {w n i : Nat} (x : BitVec w) (h : w ≤ n + 1) (hi : i < w) : (x.sshiftRight n).getLsbD i = x.msb := by
  rw [BitVec.getLsbD_sshiftRight]
  grind [BitVec.msb_eq_getLsbD_last]

theorem sshiftRight_min (x : Lane) (n : Nat) : x.sshiftRight (min n 31) = x.sshiftRight n := by
  rcases Nat.le_total n 31 with narrow | wide
  · rw [Nat.min_eq_left narrow]
  · rw [Nat.min_eq_right wide]
    exact BitVec.eq_of_getLsbD_eq fun i hi => by
      rw [getLsbD_sshiftRight_of_le x (Nat.le_refl _) hi, getLsbD_sshiftRight_of_le x (by omega) hi]

theorem ite_lane_le {α : Type} (u : Bool) (x y : Lane) (a b : α) : (if (if u then x.ule y else x.sle y) then a else b) =
    if (if u then x.toNat ≤ y.toNat else x.toInt ≤ y.toInt) then a else b := by
  cases u with
  | false => simp only [Bool.false_eq_true, if_false, BitVec.sle_iff_toInt_le]
  | true => simp only [if_true, BitVec.ule_iff_toNat_le]

theorem lane_replicate (x : Lane) {k : Nat} (hk : k < 64) : lane (Vector.replicate 64 x) k = x := by
  rw [lane, Vector.toList_replicate, List.getD_eq_getElem?_getD, List.getElem?_replicate, if_pos hk, Option.getD_some]

/-! ## VCMP's mask and flags (R190) -/

/-- A bit of the predicate that VCMP writes. -/
theorem merged_getLsbD (old mask : Word) (t : Nat → Bool) {k : Nat} (hk : k < 64) :
    ((old &&& ~~~mask) ||| (maskOf t &&& mask)).getLsbD k = if mask.getLsbD k then t k else old.getLsbD k := by
  rw [BitVec.getLsbD_or, BitVec.getLsbD_and, BitVec.getLsbD_and, BitVec.getLsbD_not, maskOf_getLsbD t hk, decide_eq_true hk]
  cases mask.getLsbD k <;> simp

/-- The flags of the active lanes, as VCMP gathers them. -/
def laneFlags (mask : Word) (t : Nat → Bool × Flags) : Flags :=
  (List.range 64).foldl (fun fl k => if mask.getLsbD k then fl ||| (t k).2 else fl) 0

theorem laneFlags_zero (mask : Word) (t : Nat → Bool) : laneFlags mask (fun k => (t k, 0)) = 0 :=
  List.foldlRecOn (motive := (· = 0)) _ _ rfl fun fl quiet k _ => by
    simp only [quiet, BitVec.ofNat_eq_ofNat, BitVec.or_zero, ite_self]

/-! ## The tree of VRED (R192) -/

section
variable (f : Nat → Nat → Word → Nat × Flags × Word)

/-- The first two nodes of a level make one, which is absent only where both are. -/
theorem redLevel_cons_cons (x y : Option Nat) (rest : List (Option Nat)) (g : Word) (fl : Flags) :
    ∃ o g' fl', (redLevel f (x :: y :: rest) g fl).1 = o :: (redLevel f rest g' fl').1 ∧ (o = none → x = none ∧ y = none) := by
  cases x with
  | none => exact ⟨y, g, fl, rfl, fun absent => ⟨rfl, absent⟩⟩
  | some a =>
    cases y with
    | none => exact ⟨some a, g, fl, rfl, fun absent => nomatch absent⟩
    | some b => exact ⟨some (f a b g).1, (f a b g).2.2, fl ||| (f a b g).2.1, rfl, fun absent => nomatch absent⟩

theorem redLevel_length {n : Nat} {l : List (Option Nat)} (even : l.length = 2 * n) (g : Word) (fl : Flags) :
    (redLevel f l g fl).1.length = n := by
  induction n generalizing l g fl with
  | zero => rw [List.eq_nil_of_length_eq_zero even]; rfl
  | succ n ih =>
    match l, even with
    | x :: y :: rest, even =>
      obtain ⟨o, g', fl', level, -⟩ := redLevel_cons_cons f x y rest g fl
      rw [level, List.length_cons, ih (l := rest) (by simpa [Nat.mul_succ] using even)]

theorem redLevel_present {n : Nat} {l : List (Option Nat)} (even : l.length = 2 * n) (present : ∃ o ∈ l, o ≠ none) (g : Word)
    (fl : Flags) : ∃ o ∈ (redLevel f l g fl).1, o ≠ none := by
  induction n generalizing l g fl with
  | zero => simp [List.eq_nil_of_length_eq_zero even] at present
  | succ n ih =>
    match l, even with
    | x :: y :: rest, even =>
      obtain ⟨o, g', fl', level, absent⟩ := redLevel_cons_cons f x y rest g fl
      rw [level]
      by_cases here : o = none
      · obtain ⟨rfl, rfl⟩ := absent here
        obtain ⟨v, later, there⟩ := ih (l := rest) (by simpa [Nat.mul_succ] using even) (by simpa using present) g' fl'
        exact ⟨v, List.mem_cons_of_mem _ later, there⟩
      · exact ⟨o, List.mem_cons_self, here⟩

/-- Of `2 ^ n` leaves, one of them present, `n` levels leave one node, which is present. -/
theorem redTree_root {n : Nat} {l : List (Option Nat)} (leaves : l.length = 2 ^ n) (present : ∃ o ∈ l, o ≠ none) (g : Word)
    (fl : Flags) : ∃ v, (redTree f n l g fl).1 = [some v] := by
  induction n generalizing l g fl with
  | zero =>
    obtain ⟨o, rfl⟩ := List.length_eq_one_iff.1 leaves
    obtain ⟨v, rfl⟩ := Option.ne_none_iff_exists'.1 (by simpa using present : o ≠ none)
    exact ⟨v, rfl⟩
  | succ n ih =>
    have even : l.length = 2 * 2 ^ n := by rw [leaves, Nat.pow_succ']
    exact ih (redLevel_length f even g fl) (redLevel_present f even present g fl) _ _

end

/-! ## The shapes of the vector words -/

theorem piped_laneMask (s : State) (h : Hdr) : s.piped.laneMask h = s.laneMask h := rfl
theorem piped_vr (s : State) (a : VReg) : s.piped.vr a = s.vr a := rfl
theorem piped_rmode (s : State) : s.piped.rmode = s.rmode := rfl

section
variable {i : Instr} {s : State} {h : Hdr} {rs : List Reg} (r : RunsV s h rs)
include r

theorem RunsV.active : ∃ k, k < 64 ∧ (s.laneMask h).getLsbD k = true := by
  refine Classical.byContradiction fun inactive => of_decide_eq_true r.lanes (BitVec.eq_of_getLsbD_eq fun k hk => ?_)
  rw [BitVec.ofNat_eq_ofNat, BitVec.getLsbD_zero, Bool.eq_false_iff]
  exact fun on => inactive ⟨k, hk, on⟩

/-- VRED's tree has a root where the word runs, since some lane is active. -/
theorem RunsV.redTree_root (f : Nat → Nat → Word → Nat × Flags × Word) (x : Vec) (g : Word) :
    ∃ v, (redTree f 6 ((List.range 64).map (fun i => if (s.laneMask h).getLsbD i then some (lane x i).toNat else none)) g 0).1 =
      [some v] := by
  obtain ⟨k, hk, on⟩ := r.active
  refine Machine.redTree_root f (by simp) ⟨_, List.mem_map.2 ⟨k, List.mem_range.2 hk, rfl⟩, ?_⟩ g 0
  rw [if_pos on]
  exact Option.some_ne_none _

theorem RunsV.vecMap (f : State → Nat → Lane) {d : VReg} {rd : List Reg} {lat : Nat} {x : Nat → Lane} (hr : ∀ q ∈ rd ++ [rV d], q ∈ rs)
    (he : exec i s = Machine.vecMap h d rd lat f s) (hx : ∀ k, f s.piped k = x k) : RanV i s s d (s.laneMask h) x 0 lat :=
  r.ranV he rfl rfl rfl rfl hr fun k hk => (lane_vecOf _ k hk).trans (hx k)

theorem RunsV.vec3 (f : Lane → Lane → Lane) {d a : VReg} {b : VOpB} {x : Nat → Lane} (hr : ∀ q ∈ [rV a, VOpB.reg b, rV d], q ∈ rs)
    (he : exec i s = Machine.vec3 h d a b f s) (hx : ∀ k, f (lane (s.vr a) k) (lane (s.vopB b) k) = x k) :
    RanV i s s d (s.laneMask h) x 0 4 :=
  r.vecMap _ hr he hx

/-- A float word of one vector. -/
theorem RunsV.vfp1 (f : XVal → XRes) {lt : LType} {d a : VReg} {lat : Nat} (hr : ∀ q ∈ [rV a, rV d], q ∈ rs)
    (he : exec i s = Machine.vfp h lt d [rV a] lat (fun _ t k => f (t.lf lt (t.vr a) k)) s) :
    RanVF i s h d s.rmode lat (fun k n => (ltFmt lt).fin s.rmode n (f (s.lf lt (s.vr a) k))) :=
  r.ranVF he rfl rfl rfl rfl hr

/-- A float word of a vector and a second operand. -/
theorem RunsV.vfp2 (f : RMode → XVal → XVal → XRes) {lt : LType} {d a : VReg} {b : VOpB} {lat : Nat}
    (hr : ∀ q ∈ [rV a, VOpB.reg b, rV d], q ∈ rs)
    (he : exec i s = Machine.vfp h lt d [rV a, VOpB.reg b] lat (fun m t k => f m (t.lf lt (t.vr a) k) (t.lf lt (t.vopB b) k)) s) :
    RanVF i s h d s.rmode lat (fun k n => (ltFmt lt).fin s.rmode n (f s.rmode (s.lf lt (s.vr a) k) (s.lf lt (s.vopB b) k))) :=
  r.ranVF he rfl rfl rfl rfl hr

theorem RunsV.vfMinMax {lt : LType} {d a : VReg} {b : VOpB} {isMax num : Bool} (hr : ∀ q ∈ [rV a, VOpB.reg b, rV d], q ∈ rs)
    (he : exec i s = Machine.vfMinMax h lt d a b isMax num s) : RanVF i s h d .rne 4
      (fun k _ => fminmax (ltFmt lt) isMax num (lane (s.vr a) k).toNat (lane (s.vopB b) k).toNat) :=
  r.ranVF he rfl rfl rfl rfl hr

variable {u : Use} {body : State → Eff} (he : exec i s = Machine.issue h u body s) (hv : u.vec = true) (ho : u.on = State.lanesOn)
  (hp : u.priv = none) (hr : ∀ q ∈ u.base ++ (u.rd ++ u.wr), q ∈ rs)
include he hv ho hp hr

/-- A vector word that writes the active lanes' bits of a predicate, with their flags. -/
theorem RunsV.ranP_merged {d : PReg} {lat : Nat} (t : Nat → Bool × Flags)
    (hb : body s.piped = .done ((s.piped.wrP d ((s.pr d &&& ~~~s.laneMask h) ||| (maskOf (fun k => (t k).1) &&& s.laneMask h)) lat).addFlags
      (laneFlags (s.laneMask h) t) lat)) :
    ∃ v, RanP i s s d v (laneFlags (s.laneMask h) t) lat ∧
      ∀ k, k < 64 → v.getLsbD k = if (s.laneMask h).getLsbD k then (t k).1 else (s.pr d).getLsbD k :=
  ⟨_, RanP.intro (p := s.piped) (Clean.of_ms r.clean rfl) (Like.refl s) (Piped.pipe s) rfl (piped_now s)
    (by rw [he, r.issue hv ho hp hr, hb]), fun _ hk => merged_getLsbD _ _ _ hk⟩

/-- A vector word that leaves another generator, and writes its active lanes with flags. -/
theorem RunsV.ranV_srstate {d : VReg} {w : Vec} {x : Nat → Lane} {g : Word} {fl : Flags} {lat : Nat}
    (hb : body s.piped = .done ((s.piped.modSt (fun y => { y with srstate := g })).wrVF d w (s.laneMask h) fl lat))
    (hx : ∀ k, k < 64 → lane w k = x k) :
    RanV i s (s.modSt (fun y => { y with srstate := g })) d (s.laneMask h) x fl lat :=
  RanV.intro (p := s.piped.modSt (fun y => { y with srstate := g })) (Clean.of_ms r.clean rfl) (setSrstate_like s g) (.inr rfl) rfl
    (piped_now s) (fun k hk _ => hx k hk) (by rw [he, r.issue hv ho hp hr, hb])

end

/-! ## VEXT (R173, R193): a vector word whose guard is that of one lane -/

/-- A vector word whose registers are ready takes a pipe whether or not it has an effect. -/
theorem issue_vec {h : Hdr} {u : Use} {body : State → Eff} {s : State} (hv : u.vec = true) (hp : u.priv = none)
    (rd : ReadyRegs s (u.regs s h)) (pipe : s.pipeLost = false) :
    issue h u body s = (if u.on s h then body s.piped else .done s.piped).run := by
  unfold issue issueEff
  simp only [rd.awaits, rd.sched, hv, hp, pipe, Bool.and_false, if_false, if_true, Bool.false_eq_true]
  cases u.on s h <;> rfl

/-- A vector word without an effect only goes on. -/
theorem Ran.intro_piped {i : Instr} {s : State} (c : Clean s) (h : exec i s = (Eff.done s.piped).run) : Ran i s s := by
  obtain ⟨went, after⟩ := ran_modSt (Like.refl s) (Piped.pipe s) id [] (fun _ _ => rfl) (fun _ _ => rfl) (fun _ _ => rfl) rfl
    ⟨rfl, rfl, rfl, rfl⟩
  have same : (s.piped.modSt id).goneOn = s.piped.goneOn := modSt_modSt ..
  rw [same] at went after
  refine ⟨_, by rw [h]; exact run_done (Clean.of_ms c rfl), ?_, went, after⟩
  obtain ⟨_, _, _, _, _, shape⟩ := goneOn_st s.piped
  rw [FlagsDue, shape]
  simp

/-- The lane that VEXT names. -/
def State.extLane (s : State) (k : BitVec 6) (b : SReg) : Nat := ((s.sr b).toNat + k.toNat) % 64

theorem exec_vext {s : State} {h : Hdr} {sx : Bool} {k : BitVec 6} {d : SReg} {a : VReg} {b : SReg}
    (ready : ReadyRegs s [rP h.g, rS b, rV a, rS d]) (pipe : s.pipeLost = false) :
    exec (.vext h sx k d a b) s = (if (s.laneMask h).getLsbD (s.extLane k b) then
      .done (s.piped.wrS d (if sx then (lane (s.vr a) (s.extLane k b)).signExtend 64 else (lane (s.vr a) (s.extLane k b)).setWidth 64) 4)
      else .done s.piped : Eff).run :=
  issue_vec rfl rfl (fun q hq => ready q (by grind [Use.regs])) pipe

/-! ## The obligations -/

/-- Settles O13: each word is `fp2`, `fp3` or `fp4` of the function stated, or rounds its own result. -/
theorem floatResults : Obligations.FloatResults := by
  unfold Obligations.FloatResults
  intro s h ty ty2 it rm d a b c r
  have one (f : XVal → XRes) {i : Instr} {lat : Nat} := r.fp2 (i := i) (ty := ty) (d := d) (a := a) (lat := lat) f (by simp)
  have two (f : RMode → XVal → XVal → XRes) {i : Instr} {lat : Nat} :=
    r.fp3 (i := i) (ty := ty) (d := d) (a := a) (b := b) (lat := lat) f (by simp)
  have three (f : RMode → XVal → XVal → XVal → XRes) {i : Instr} :=
    r.fp4 (i := i) (ty := ty) (d := d) (a := a) (b := b) (c := c) f (by simp)
  simp only [List.forall_mem_cons]
  refine ⟨⟨two xadd rfl, two (fun m x y => xadd m x y.neg) rfl, two (fun _ x y => xmul x y) rfl, three (xfma · false) rfl,
    three (fun m x y z => xfma m false x y z.neg) rfl, three (xfma · true) rfl, two (fun _ x y => xdiv x y) rfl, one xsqrt rfl, ?fscalb,
    one xexp2 rfl, one xlog2v rfl, one xrcp rfl, one xrsq rfl, List.forall_mem_nil _⟩, ?fcvt, ?icvtf⟩
  case fscalb => exact r.ranF rfl rfl rfl rfl rfl (by simp)
  case fcvt => exact r.ranF rfl rfl rfl rfl rfl (by simp)
  case icvtf => exact r.ranF rfl rfl rfl rfl rfl (by simp)

/-- Settles O14: the words that draw write in the state after the draw, the others in the state as it was. -/
theorem floatOtherResults : Obligations.FloatOtherResults := by
  unfold Obligations.FloatOtherResults
  intro s h ty it rm op d a b r
  obtain ⟨like, ms, now⟩ := drawSr_like s (rm.getD s.rmode)
  have seeded := setSrstate_like s (xorshift s.st.srstate)
  simp only [List.forall_mem_cons]
  refine ⟨⟨r.fpMinMax (by simp) rfl, r.fpMinMax (by simp) rfl, r.fpMinMax (by simp) rfl, r.fpMinMax (by simp) rfl,
    List.forall_mem_nil _⟩, ?fclass, ?fsgn, ⟨?fcvti, ?frnd⟩, ?raw, ?unif⟩
  case fclass => exact r.ranS rfl rfl rfl rfl rfl (by simp)
  case fsgn => exact r.fsgn (by grind)
  case fcvti => exact r.ranSF_from like ms now rfl rfl rfl rfl (by simp) rfl
  case frnd => exact r.ranSF_from like ms now rfl rfl rfl rfl (by simp) rfl
  case raw => exact r.ranSF_from seeded rfl rfl rfl rfl rfl rfl (by simp) (congrArg Eff.done (wrS_wrSF ..))
  case unif => exact r.ranSF_from seeded rfl rfl rfl rfl rfl rfl (by simp) rfl

/-- Settles O15: each word of two operands is `vec3` of a function that is the one stated, and the others are `vecMap`. -/
theorem vectorIntegerResults : Obligations.VectorIntegerResults := by
  unfold Obligations.VectorIntegerResults
  intro s h d a b c x y u r
  have ran (f : Lane → Lane → Lane) {i : Instr} {x : Nat → Lane} := r.vec3 (i := i) (d := d) (a := a) (b := b) (x := x) f (by simp)
  simp only [List.forall_mem_cons]
  exact ⟨ran (· + ·) rfl fun _ => rfl, ran (· - ·) rfl fun _ => rfl, ran (· * ·) rfl fun _ => rfl,
    ran (mulh32 u) rfl fun _ => mulh32_eq_extractLsb' ..,
    ran (fun x y => if (if u then x.ule y else x.sle y) then x else y) rfl fun _ => ite_lane_le ..,
    ran (fun x y => if (if u then y.ule x else y.sle x) then x else y) rfl fun _ => ite_lane_le ..,
    ran (· &&& ·) rfl fun _ => rfl, ran (· ||| ·) rfl fun _ => rfl, ran (· ^^^ ·) rfl fun _ => rfl,
    ran (fun x y => if 32 ≤ y.toNat then 0 else x <<< y.toNat) rfl fun _ => ite_shiftLeft ..,
    ran (fun x y => if 32 ≤ y.toNat then 0 else x >>> y.toNat) rfl fun _ => ite_ushiftRight ..,
    ran (fun x y => x.sshiftRight (min y.toNat 31)) rfl fun _ => sshiftRight_min ..,
    r.vecMap _ (by simp) rfl fun _ => rfl, r.vecMap _ (by simp) rfl fun _ => rfl,
    r.vecMap _ (by simp) rfl fun _ => rfl, r.vecMap _ (by simp) rfl fun _ => rfl, List.forall_mem_nil _⟩

/-- Settles O16: each word is `vfp1`, `vfp2` or `vfMinMax` of the function stated, or rounds its lanes by its own. -/
theorem vectorFloatResults : Obligations.VectorFloatResults := by
  unfold Obligations.VectorFloatResults
  intro s h lt d a c b num nrm sgn n to' frm rm r
  have one (f : XVal → XRes) {i : Instr} {lat : Nat} := r.vfp1 (i := i) (lt := lt) (d := d) (a := a) (lat := lat) f (by simp)
  have two (f : RMode → XVal → XVal → XRes) {i : Instr} {lat : Nat} :=
    r.vfp2 (i := i) (lt := lt) (d := d) (a := a) (b := b) (lat := lat) f (by simp)
  simp only [List.forall_mem_cons]
  refine ⟨⟨two xadd rfl, two (fun m x y => xadd m x y.neg) rfl, two (fun _ x y => xmul x y) rfl, ?vfma, two (fun _ x y => xdiv x y) rfl,
    one xsqrt rfl, one xexp2 rfl, one xrcp rfl, one xrsq rfl, ?vhad, List.forall_mem_nil _⟩,
    ⟨r.vfMinMax (by simp) rfl, r.vfMinMax (by simp) rfl, List.forall_mem_nil _⟩, ?vcvt⟩
  case vfma => exact r.ranVF rfl rfl rfl rfl rfl (by simp [vUse])
  case vhad => exact r.ranVF rfl rfl rfl rfl rfl (by simp [vUse])
  case vcvt => exact r.ranVF rfl rfl rfl rfl rfl (by simp [vUse])

/-- Settles O17: VCMP merges `maskOf` of the lanes' results into the predicate, an active lane gives VRED's tree a root, and VEXT's guard
is the lane that it names. -/
theorem vectorCrossLaneResults : Obligations.VectorCrossLaneResults := by
  unfold Obligations.VectorCrossLaneResults
  refine ⟨fun s h p a b cc fc lt r => ⟨?int, ?flt⟩, fun s h op d a r => ?vred,
    fun s h sx k d a b clean ready pipe => ⟨?active, ?inactive⟩⟩
  case int =>
    rw [← laneFlags_zero (s.laneMask h) (fun k => condOf cc (lane (s.vr a) k) (lane (s.vopB b) k))]
    exact r.ranP_merged rfl rfl rfl rfl (by simp [vUse]) (fun k => (condOf cc (lane (s.vr a) k) (lane (s.vopB b) k), 0)) rfl
  case flt =>
    exact r.ranP_merged rfl rfl rfl rfl (by simp [vUse]) (fun k => fcompare fc (s.lf lt (s.vr a) k) (s.lf lt (s.vopB b) k)) rfl
  case vred =>
    obtain ⟨root, single⟩ := r.redTree_root (redNode op s.rmode) (s.vr a) s.st.srstate
    refine ⟨root, single, r.ranV_srstate rfl rfl rfl rfl (by simp [vUse]) ?_ fun _ => lane_replicate _⟩
    rw [piped_laneMask, piped_vr, piped_rmode, piped_st]
    cases RedOp.lt? op <;> simp only [single, List.head?_cons, Option.getD_some]
  case active =>
    intro on
    exact RanS.intro (p := s.piped) (Clean.of_ms clean rfl) (Like.refl s) (Piped.pipe s) rfl (piped_now s)
      (by rw [← wrS_wrSF]; exact (exec_vext ready pipe).trans (congrArg Eff.run (if_pos on)))
  case inactive =>
    intro off
    exact Ran.intro_piped clean ((exec_vext ready pipe).trans (congrArg Eff.run (if_neg (Bool.eq_false_iff.1 off))))

end Sys2Proof.Machine

/-! Proofs about codebooks (09 R203-R223): how a codebook word reads its directory entry and its version, and what each word answers. -/

namespace Sys2Proof.Machine

/-! ## A result that is awaited -/

theorem State.modXs_cur (s : State) (sid : Nat) (f : Strand → Strand) : (s.modXs sid f).cur = s.cur := by
  unfold State.modXs State.modTeam
  split
  · rfl
  · split <;> rfl

theorem State.modXs_cores (s : State) (sid : Nat) (f : Strand → Strand) : (s.modXs sid f).cores = s.cores := by
  unfold State.modXs State.modTeam
  split
  · rfl
  · split <;> rfl

/-- The current strand is the one changed, or stays as it was. -/
theorem State.modXs_st (s : State) (sid : Nat) (f : Strand → Strand) : (s.modXs sid f).st = s.st ∨ (s.modXs sid f).st = f s.st := by
  unfold State.modXs State.modTeam
  split
  · by_cases here : s.cur = sid
    · subst here
      exact .inr (State.modSt_st s f)
    · exact .inl ((State.modStrand_strand ..).trans (if_neg here))
  · split <;> exact .inl rfl

section
variable (s : State) (sid : Nat) (cls : OpClass) (dst : List Reg) (vals : List RVal) (flags : Flags) (done : Bool)

@[simp] theorem State.block_cur : (s.block sid cls dst vals flags done).2.cur = s.cur := State.modXs_cur ..

@[simp] theorem State.block_cores : (s.block sid cls dst vals flags done).2.cores = s.cores := State.modXs_cores ..

@[simp] theorem State.block_core (k : Nat) : (s.block sid cls dst vals flags done).2.core k = s.core k := by
  unfold State.core
  rw [State.block_cores]

@[simp] theorem State.block_st_cbs : (s.block sid cls dst vals flags done).2.st.cbs = s.st.cbs := by
  obtain same | changed := State.modXs_st { s with nextId := s.nextId + 1 } sid
    (fun x => { x with ops := x.ops ++ [{ id := s.nextId, cls := cls, dst := dst, vals := vals, flags := flags, done := done }] })
  · exact congrArg Strand.cbs same
  · exact (congrArg Strand.cbs changed).trans rfl

end

/-- Two changes that agree on the current strand are the same change. -/
theorem modSt_congr {s : State} {f g : Strand → Strand} (same : f s.st = g s.st) : s.modSt f = s.modSt g := congrArg s.setSt same

theorem modSt_modCore (s : State) (k : Nat) (f : Strand → Strand) (g : Core → Core) :
    (s.modSt f).modCore k g = (s.modCore k g).modSt f := rfl

/-- A word whose meaning is done in `u`, with no absent address, lands. -/
theorem lands_of_done {i : Instr} {s u : State} (he : exec i s = (Eff.done u).run) (hb : u.ms.bad = none) : Lands i s u :=
  he.trans (out_next hb)

/-- A word that answers in `u`, with no absent address, lands with its result awaited. -/
theorem lands_cbResult {i : Instr} {s u : State} {d : Reg} {v : RVal} {fl : Flags}
    (he : exec i s = (Eff.done (u.cbResult d v fl none)).run) (hu : u.ms.bad = none) : Lands i s (u.cbResult d v fl none) :=
  lands_of_done he ((congrArg MemSys.bad (State.block_ms ..)).trans hu)

/-! ## What a read of the directory, and a need of a version, leave of the state -/

theorem dirRead_kept (s : State) (core asid cbid : Nat) : Kept s (s.dirRead core asid cbid).1 := by
  unfold State.dirRead
  split
  · exact .rfl' s
  · exact supRd_kept (.rfl' s) ..

theorem versionEmax_kept (s : State) (dir : Dir) (v : Nat) : Kept s (s.versionEmax dir v).1 := by
  unfold State.versionEmax
  split
  · exact .rfl' s
  · split
    · exact .rfl' s
    · exact supRd_kept (.rfl' s) ..

theorem loadRun_kept (s : State) (sid va n : Nat) : Kept s (s.loadRun sid va n).1 := by
  have checked := checkRuns_kept (.rfl' s) (s.whoOf sid) {} (runsOf va n)
  unfold State.loadRun
  dsimp only
  split
  · exact checked
  · exact rdParts_kept (commitParts_kept checked ..) ..

theorem needVersion_cores (s : State) (core cbid stamp : Nat) (d : Dir) :
    ∃ cores, (s.needVersion core cbid stamp d).1 = { s with cores := cores } := by
  unfold State.needVersion
  dsimp only
  split
  · exact ⟨_, rfl⟩
  · split
    · exact ⟨_, rfl⟩
    · split <;> exact ⟨_, rfl⟩

theorem writeVersion_rest (s : State) (cbid n : Nat) (dir : Dir) (b : List Byte) : MemoryAndCores s (s.writeVersion cbid n dir b).1 := by
  unfold State.writeVersion
  dsimp only
  split
  · exact .supWr ..
  · exact (((MemoryAndCores.supWr ..).trans (.supWr ..)).trans (.supWr ..)).trans (.supWr ..)

theorem Kept.of_eq {α : Type} {s u : State} {x : State × α} {y : α} (kept : Kept s x.1) (he : x = (u, y)) : Kept s u := by
  rwa [he] at kept

theorem MemoryAndCores.of_eq {α : Type} {s u : State} {x : State × α} {y : α} (rest : MemoryAndCores s x.1) (he : x = (u, y)) :
    MemoryAndCores s u := by
  rwa [he] at rest

/-- What a read leaves is the state with another memory system. -/
theorem Kept.setMs_of_eq {α : Type} {s u : State} {x : State × α} {y : α} (kept : Kept s x.1) (he : x = (u, y)) : ∃ m, u = s.setMs m :=
  ⟨_, (kept.of_eq he).rest⟩

/-- What a store leaves is the state with another memory system and other cores. -/
theorem MemoryAndCores.with_of_eq {α : Type} {s u : State} {x : State × α} {y : α} (rest : MemoryAndCores s x.1) (he : x = (u, y)) :
    ∃ m cores, u = { s with ms := m, cores := cores } :=
  ⟨_, _, rest.of_eq he⟩

theorem dirRead_setMs {s c : State} {core asid cbid : Nat} {x : Except TrapInfo Dir} (read : s.dirRead core asid cbid = (c, x)) :
    ∃ m, c = s.setMs m :=
  (dirRead_kept ..).setMs_of_eq read

/-- What a need of a version leaves is the state with other cores. -/
theorem needVersion_withCores {s u : State} {core cbid stamp : Nat} {dir : Dir} {n : Need}
    (need : s.needVersion core cbid stamp dir = (u, n)) : ∃ cores, u = { s with cores := cores } := by
  simpa only [need] using needVersion_cores s core cbid stamp dir

@[simp] theorem State.setMs_sr (s : State) (m : MemSys) (r : SReg) : (s.setMs m).sr r = s.sr r := rfl

/-! ## A codebook word reads its entry (R223) -/

section
variable {s c : State} {h : Hdr} {rs rd wr : List Reg} {cbid : State → Nat} {body : State → Dir → Eff} {dir : Dir}
  (r : Runs s h rs) (hr : ∀ q ∈ rd ++ wr, q ∈ rs)
include r hr

theorem Runs.cbWord_waits (busy : s.st.cbs ≠ []) : cbWord h rd wr cbid body s = .next (s.waits .result) := by
  unfold cbWord
  rw [r.issue rfl rfl (.inl rfl) hr]
  simp only [List.isEmpty_eq_false_iff.2 busy, Bool.not_false, if_true]
  exact out_clean (r.clean.of_ms rfl)

theorem Runs.cbWord_reads (free : s.st.cbs = []) (read : s.dirRead s.cc (s.asidOf s.cur) (cbid s) = (c, .ok dir)) :
    cbWord h rd wr cbid body s = (body c dir).run := by
  unfold cbWord
  rw [r.issue rfl rfl (.inl rfl) hr]
  simp only [free, List.isEmpty_nil, Bool.not_true, Bool.false_eq_true, if_false, read]

end

/-! ## A codebook word and its version (R208, R209) -/

/-- A codebook word has begun: its strand awaits its result. -/
def State.cbBegun (u : State) (q : CbReq) : State := (u.block u.cur (.codebook 0) (codeDst q.instr) [] 0 false).2
/-- A codebook word under the number that its operation has been given. -/
def CbReq.numbered (q : CbReq) (u : State) : CbReq := { q with id := u.nextId }
@[simp] theorem CbReq.numbered_instr (q : CbReq) (u : State) : (q.numbered u).instr = q.instr := rfl
/-- One codebook word of the strand waits, and no other. -/
def Strand.pending (x : Strand) (q : CbReq) : Strand := { x with cbs := [q] }
/-- The result of an operation is known and arrives later. -/
def Strand.answered (x : Strand) (id : Nat) (cls : OpClass) (v : RVal × Flags) : Strand :=
  { x with ops := x.ops.map (fun o => if o.id == id then { o with cls := cls, vals := [v.1], flags := v.2, done := true } else o) }
/-- The same of a codebook word, which no longer waits. -/
def Strand.finished (x : Strand) (id : Nat) (cls : OpClass) (v : RVal × Flags) : Strand :=
  { x.answered id cls v with cbs := x.cbs.filter (fun q => q.id ≠ id) }

/-- A codebook word is the one of its strand that waits, for its version or its slots. -/
def State.cbPends (u : State) (q : CbReq) : State := (u.cbBegun q).modSt (fun x => x.pending (q.numbered u))

/-- An encode or a decode has its result known, and its version's slots from `i` in use until it arrives. -/
def State.cbHolds (u : State) (q : CbReq) (i : Nat) : State :=
  (u.cbBegun q).modSt (fun x => x.answered u.nextId (.codebook (i + 1)) (q.value (u.co.payload i)))

/-- A codebook word has a word as its result, which is known and arrives later. -/
def State.cbLoaded (u : State) (q : CbReq) (w : Word) : State :=
  (u.cbBegun q).modSt (fun x => x.answered u.nextId (.codebook 0) (.w w, 0))

/-- The same, with the version in the slots from `i` pinned. -/
def State.cbPinned (u : State) (q : CbReq) (i : Nat) (w : Word) : State :=
  ((u.cbBegun q).modCore u.cc (fun k => k.pin i true)).modSt (fun x => x.answered u.nextId (.codebook 0) (.w w, 0))

section
variable {s u : State} {q : CbReq}

theorem cbVersion_noSlot (need : s.needVersion s.cc q.cbid q.stamp q.dir = (u, .noSlot)) : cbVersion s q = .trap s (illencAt s 7) := by
  simp only [cbVersion, State.cbIssue, need]

@[simp] theorem State.cbBegun_cur (u : State) (q : CbReq) : (u.cbBegun q).cur = u.cur := State.block_cur ..

@[simp] theorem State.cbBegun_core (u : State) (q : CbReq) (k : Nat) : (u.cbBegun q).core k = u.core k :=
  State.block_core ..

/-- A word that waited alone leaves none that waits. -/
theorem pending_finished {b : State} {p : CbReq} (free : b.st.cbs = []) (cls : OpClass) (v : RVal × Flags) :
    (b.modSt (fun x => x.pending p)).modStrand b.cur (fun x => x.finished p.id cls v) = b.modSt (fun x => x.answered p.id cls v) := by
  have none_left : [p].filter (fun q => q.id ≠ p.id) = b.st.cbs := by simp [free]
  refine (modSt_modSt b (fun x => x.pending p) (fun x => x.finished p.id cls v)).trans (modSt_congr ?_)
  exact congrArg (fun l => { b.st.answered p.id cls v with cbs := l }) none_left

/-- Only while a version comes to the core can a fill delay a read of the slots. -/
theorem slotLate_eq_false (q : CbReq) (prompt : u.late = false ∨ u.co.miss = []) : u.slotLate q = false := by
  obtain prompt | prompt := prompt <;> simp [State.slotLate, prompt]

theorem slotLate_vec {h : Hdr} {sc : Bool} {d a : VReg} {b : SReg} (word : q.instr = .cbenc h sc d a b ∨ q.instr = .cbdec h sc d a b)
    (late : u.late = true) (miss : u.co.miss ≠ []) : u.slotLate q = true := by
  obtain word | word := word <;> simp [State.slotLate, word, late, miss]

variable (free : u.st.cbs = [])
include free

theorem cbBegun_free (q : CbReq) : (u.cbBegun q).st.cbs = [] := (State.block_st_cbs ..).trans free

/-- Where no earlier one waits, a word that waits is the only one. -/
theorem cbPends_eq (q : CbReq) :
    (u.cbBegun q).modSt (fun x => { x with cbs := x.cbs ++ [q.numbered u] }) = u.cbPends q :=
  modSt_congr (congrArg (fun l => { (u.cbBegun q).st with cbs := l ++ [q.numbered u] }) (cbBegun_free free q))

theorem cbVersion_miss (need : s.needVersion s.cc q.cbid q.stamp q.dir = (u, .miss)) : cbVersion s q = .done (u.cbPends q) := by
  rw [← cbPends_eq free]
  simp only [cbVersion, State.cbIssue, need]
  rfl

section
variable {i : Nat} (need : s.needVersion s.cc q.cbid q.stamp q.dir = (u, .have' i))
include need

theorem cbVersion_late (late : u.slotLate q = true) : cbVersion s q = .done (u.cbPends { q with late := true }) := by
  rw [← cbPends_eq free]
  simp only [cbVersion, State.cbIssue, need, late, if_true]
  rfl

theorem cbVersion_have (prompt : u.slotLate q = false) :
    cbVersion s q = .done ((u.cbPends q).cbFinish u.cur (q.numbered u) i) := by
  rw [← cbPends_eq free q, ← State.cbBegun_cur u q]
  simp only [cbVersion, State.cbIssue, need, prompt, Bool.false_eq_true, if_false]
  rfl

end

/-! ## What a word has once its version is there (R208, R220, R221) -/

theorem cbPends_finished (cls : OpClass) (v : RVal × Flags) :
    (u.cbPends q).modStrand u.cur (fun x => x.finished u.nextId cls v) = (u.cbBegun q).modSt (fun x => x.answered u.nextId cls v) := by
  have finished := pending_finished (p := q.numbered u) (cbBegun_free free q) cls v
  rwa [State.cbBegun_cur] at finished

section
variable (i : Nat)

theorem cbFinish_encoded {h : Hdr} {sc : Bool} {d a : VReg} {b : SReg}
    (word : q.instr = .cbenc h sc d a b ∨ q.instr = .cbdec h sc d a b) :
    (u.cbPends q).cbFinish u.cur (q.numbered u) i = u.cbHolds q i := by
  refine Eq.trans ?_ (cbPends_finished free (.codebook (i + 1)) (q.value (u.co.payload i)))
  have core : (u.cbPends q).core (coreOf u.cur) = u.co := State.cbBegun_core ..
  unfold State.cbFinish
  dsimp only
  rw [core]
  obtain word | word := word <;> simp only [CbReq.numbered_instr, word] <;> rfl

theorem cbFinish_loaded {h : Hdr} {d a : SReg} {cbid : BitVec 12} (word : q.instr = .cbld h d a cbid) :
    (u.cbPends q).cbFinish u.cur (q.numbered u) i = u.cbLoaded q (BitVec.ofNat 64 q.stamp) := by
  refine Eq.trans ?_ (cbPends_finished free (.codebook 0) (.w (BitVec.ofNat 64 q.stamp), 0))
  simp only [State.cbFinish, CbReq.value, CbReq.numbered_instr, word]
  rfl

/-- A CBPIN has its version pinned. -/
theorem cbFinish_pinned {h : Hdr} {d a : SReg} {cbid : BitVec 12} (word : q.instr = .cbpin h d a cbid) :
    (u.cbPends q).cbFinish u.cur (q.numbered u) i = u.cbPinned q i (BitVec.ofNat 64 q.stamp) := by
  have answered := pending_finished (b := (u.cbBegun q).modCore u.cc (fun k => k.pin i true)) (p := q.numbered u)
    (cbBegun_free free q) (.codebook 0) (.w (BitVec.ofNat 64 q.stamp), 0)
  rw [State.modCore_cur, State.cbBegun_cur] at answered
  refine Eq.trans ?_ answered
  simp only [State.cbFinish, CbReq.value, CbReq.numbered_instr, word, State.cbPends, modSt_modCore]
  rfl

end

end

/-- An encode or a decode whose version is there, with its slots not late, has its result known. -/
theorem cbVersion_holds {s u : State} {q : CbReq} {i : Nat} {h : Hdr} {sc : Bool} {d a : VReg} {b : SReg}
    (need : s.needVersion s.cc q.cbid q.stamp q.dir = (u, .have' i)) (free : u.st.cbs = [])
    (word : q.instr = .cbenc h sc d a b ∨ q.instr = .cbdec h sc d a b) (prompt : u.late = false ∨ u.co.miss = []) :
    cbVersion s q = .done (u.cbHolds q i) := by
  rw [cbVersion_have free need (slotLate_eq_false q prompt), cbFinish_encoded free i word]

theorem cbVersion_loaded {s u : State} {q : CbReq} {i : Nat} {h : Hdr} {d a : SReg} {cbid : BitVec 12}
    (need : s.needVersion s.cc q.cbid q.stamp q.dir = (u, .have' i)) (free : u.st.cbs = []) (word : q.instr = .cbld h d a cbid) :
    cbVersion s q = .done (u.cbLoaded q (BitVec.ofNat 64 q.stamp)) := by
  have prompt : u.slotLate q = false := by simp [State.slotLate, word]
  rw [cbVersion_have free need prompt, cbFinish_loaded free i word]

/-- A CBPIN whose version is there pins it. -/
theorem cbVersion_pinned {s u : State} {q : CbReq} {i : Nat} {h : Hdr} {d a : SReg} {cbid : BitVec 12}
    (need : s.needVersion s.cc q.cbid q.stamp q.dir = (u, .have' i)) (free : u.st.cbs = []) (word : q.instr = .cbpin h d a cbid) :
    cbVersion s q = .done (u.cbPinned q i (BitVec.ofNat 64 q.stamp)) := by
  have prompt : u.slotLate q = false := by simp [State.slotLate, word]
  rw [cbVersion_have free need prompt, cbFinish_pinned free i word]

/-- A word that needs a version lands once it has issued. -/
theorem lands_issued {i : Instr} {s c t : State} {q : CbReq} (he : exec i s = (cbVersion c q).run) (issued : cbVersion c q = .done t)
    (ht : t.ms.bad = none) : Lands i s t :=
  lands_of_done (he.trans (congrArg Eff.run issued)) ht

section
variable {u : State} {q : CbReq}

theorem cbBegun_bad (hu : u.ms.bad = none) : (u.cbBegun q).ms.bad = none := (congrArg MemSys.bad (State.block_ms ..)).trans hu

theorem cbPends_bad (hu : u.ms.bad = none) : (u.cbPends q).ms.bad = none := cbBegun_bad (q := q) hu

theorem cbHolds_bad (hu : u.ms.bad = none) {i : Nat} : (u.cbHolds q i).ms.bad = none := cbBegun_bad (q := q) hu

theorem cbLoaded_bad (hu : u.ms.bad = none) {w : Word} : (u.cbLoaded q w).ms.bad = none := cbBegun_bad (q := q) hu

theorem cbPinned_bad (hu : u.ms.bad = none) {i : Nat} {w : Word} : (u.cbPinned q i w).ms.bad = none := by
  rw [State.cbPinned, State.modSt_ms, State.modCore_ms]
  exact cbBegun_bad hu

end

/-! ## What is dropped of the versions that a floor retires (R219) -/

namespace Core
variable {c c' c'' : Core}

/-- Each slot is as it was, or empty. -/
def Emptied (c c' : Core) : Prop := ∀ j, c'.slotAt j = c.slotAt j ∨ c'.slotAt j = {}

theorem Emptied.refl (c : Core) : Emptied c c := fun _ => .inl rfl

theorem Emptied.trans (h : Emptied c c') (k : Emptied c' c'') : Emptied c c'' := fun j => by
  obtain same | empty := k j
  · rw [same]
    exact h j
  · exact .inr empty

/-- An empty slot stays empty. -/
theorem Emptied.empty (h : Emptied c c') {j : Nat} (empty : c.slotAt j = {}) : c'.slotAt j = {} := by
  obtain same | empty' := h j
  · rw [same, empty]
  · exact empty'

theorem slotAt_setSlot (c : Core) (i : Nat) (t : Slot) (j : Nat) :
    (c.setSlot i t).slotAt j = if j = i ∧ i < 16 then t else c.slotAt j := by
  unfold setSlot slotAt
  by_cases inside : i < 16
  · rw [dif_pos inside]
    by_cases here : j = i
    · subst here
      simp [inside, List.getD, Vector.toList_set]
    · simp [here, List.getD, Vector.toList_set, List.getElem?_set_ne (Ne.symm here)]
  · rw [dif_neg inside, if_neg (fun both => inside both.2)]

theorem setSlot_emptied (c : Core) (i : Nat) : Emptied c (c.setSlot i {}) := fun j => by
  rw [slotAt_setSlot]
  split
  · exact .inr rfl
  · exact .inl rfl

theorem foldl_emptied {f : Core → Nat → Core} (h : ∀ c i, Emptied c (f c i)) (l : List Nat) (c : Core) : Emptied c (l.foldl f c) :=
  foldl_keeps (P := Emptied c) (fun b i k => k.trans (h b i)) l c (.refl c)

theorem dropSlot_emptied (c : Core) (i : Nat) : Emptied c (c.dropSlot i) := foldl_emptied (fun c j => c.setSlot_emptied (i + j)) _ _

theorem slotAt_dropSlot_self (c : Core) {i : Nat} (h : i < 16) : (c.dropSlot i).slotAt i = {} := by
  have first : List.range (max 1 (c.slotAt i).k) = 0 :: (List.range (max 1 (c.slotAt i).k - 1)).map (· + 1) := by
    rw [← List.range_succ_eq_map, Nat.sub_add_cancel (Nat.le_max_left ..)]
  unfold dropSlot
  rw [first, List.foldl_cons]
  refine (foldl_emptied (fun c j => c.setSlot_emptied (i + j)) _ _).empty ?_
  rw [slotAt_setSlot, if_pos ⟨rfl, h⟩]

theorem slotAt_foldl_dropSlot {l : List Nat} {i : Nat} (mem : i ∈ l) (h : i < 16) (c : Core) : (l.foldl dropSlot c).slotAt i = {} := by
  induction l generalizing c with
  | nil => cases mem
  | cons k rest ih =>
    obtain rfl | later := List.mem_cons.1 mem
    · exact (foldl_emptied dropSlot_emptied rest _).empty (c.slotAt_dropSlot_self h)
    · exact ih later _

variable {cbid lo hi j : Nat}

/-- Whether a slot holds a retired version depends on the slot alone. -/
theorem mem_retired : j ∈ c.retired cbid lo hi ↔ j < 16 ∧ ((c.slotAt j).first && (c.slotAt j).cbid == some (BitVec.ofNat 12 cbid) &&
    stampIn lo hi (c.slotAt j).stamp.toNat) = true := by
  simp only [retired, List.mem_filter, List.mem_range]

theorem not_retired_of_empty (empty : c.slotAt j = {}) : j ∉ c.retired cbid lo hi := by
  rw [mem_retired, empty]
  simp

theorem Emptied.retired (h : Emptied c c') (mem : j ∈ c'.retired cbid lo hi) : j ∈ c.retired cbid lo hi := by
  obtain same | empty := h j
  · rwa [mem_retired, same, ← mem_retired] at mem
  · exact absurd mem (not_retired_of_empty empty)

end Core

section
variable (cbid lo hi : Nat)

/-- Drop on one core the retired versions that no command in flight uses. -/
def State.dropRetiredOn (s : State) (k : Nat) : State :=
  s.modCore k (fun c => ((c.retired cbid lo hi).filter (fun i => !(s.busySlots k).contains i)).foldl Core.dropSlot c)

theorem dropRetired_eq (s : State) (asid : Nat) : s.dropRetired asid cbid lo hi = (s.coresOf asid).foldl (State.dropRetiredOn cbid lo hi) s :=
  rfl

theorem dropRetiredOn_emptied (s : State) (k j : Nat) : Core.Emptied (s.core j) ((s.dropRetiredOn cbid lo hi k).core j) := by
  rw [State.dropRetiredOn, State.modCore_core]
  split
  · subst j
    exact Core.foldl_emptied Core.dropSlot_emptied _ _
  · exact .refl _

theorem foldl_dropRetiredOn_emptied (l : List Nat) (s : State) (j : Nat) :
    Core.Emptied (s.core j) ((l.foldl (State.dropRetiredOn cbid lo hi) s).core j) :=
  foldl_keeps (P := fun t : State => Core.Emptied (s.core j) (t.core j)) (fun t k h => h.trans (dropRetiredOn_emptied cbid lo hi t k j))
    l s (.refl _)

/-- What a core still holds of them is in use. -/
theorem dropRetiredOn_busy (s : State) (k : Nat) {j : Nat} (mem : j ∈ ((s.dropRetiredOn cbid lo hi k).core k).retired cbid lo hi) :
    j ∈ s.busySlots k := by
  refine Classical.byContradiction fun unused => Core.not_retired_of_empty ?_ mem
  have before := (dropRetiredOn_emptied cbid lo hi s k k).retired mem
  rw [State.dropRetiredOn, State.modCore_core, if_pos rfl]
  exact Core.slotAt_foldl_dropSlot (List.mem_filter.2 ⟨before, by simpa using unused⟩) (Core.mem_retired.1 before).1 _

/-- The slots in use of another core stay. -/
theorem busySlots_dropRetiredOn (s : State) {k j : Nat} (other : j ≠ k) : (s.dropRetiredOn cbid lo hi k).busySlots j = s.busySlots j := by
  have core : (s.dropRetiredOn cbid lo hi k).core j = s.core j := (State.modCore_core ..).trans (if_neg other)
  unfold State.busySlots
  rw [core]
  rfl

theorem foldl_dropRetiredOn_busy (l : List Nat) (s : State) : ∀ k ∈ l,
    ∀ j ∈ ((l.foldl (State.dropRetiredOn cbid lo hi) s).core k).retired cbid lo hi, j ∈ s.busySlots k := by
  induction l generalizing s with
  | nil => simp
  | cons c rest ih =>
    intro k mem j held
    rw [List.foldl_cons] at held
    by_cases here : k = c
    · subst here
      exact dropRetiredOn_busy cbid lo hi s k ((foldl_dropRetiredOn_emptied cbid lo hi rest _ k).retired held)
    · rw [← busySlots_dropRetiredOn cbid lo hi s here]
      exact ih _ k ((List.mem_cons.1 mem).resolve_left here) j held

theorem dropRetired_withCores (s : State) (asid : Nat) : ∃ cores, s.dropRetired asid cbid lo hi = { s with cores := cores } := by
  rw [dropRetired_eq]
  refine foldl_keeps (P := fun t : State => ∃ cores, t = { s with cores := cores }) (fun t k h => ?_) _ s ⟨s.cores, rfl⟩
  obtain ⟨cores, rfl⟩ := h
  exact ⟨_, rfl⟩

@[simp] theorem dropRetired_cur (s : State) (asid : Nat) : (s.dropRetired asid cbid lo hi).cur = s.cur := by
  obtain ⟨cores, same⟩ := dropRetired_withCores cbid lo hi s asid
  rw [same]

@[simp] theorem dropRetired_ms (s : State) (asid : Nat) : (s.dropRetired asid cbid lo hi).ms = s.ms := by
  obtain ⟨cores, same⟩ := dropRetired_withCores cbid lo hi s asid
  rw [same]

/-- After a floor has moved, every core of the context holds no retired version but those that commands in flight use. -/
theorem dropRetired_busy (s : State) (asid : Nat) {k j : Nat} (mem : k ∈ s.coresOf asid)
    (held : j ∈ ((s.dropRetired asid cbid lo hi).core k).retired cbid lo hi) : j ∈ s.busySlots k :=
  foldl_dropRetiredOn_busy cbid lo hi (s.coresOf asid) s k mem j held

end

/-! ## Stamps (R203) -/

theorem ofNat8_sub_toNat {x y : Nat} (hx : x < 256) (hy : y < 256) : (BitVec.ofNat 8 x - BitVec.ofNat 8 y).toNat = (x + 256 - y) % 256 := by
  rw [BitVec.toNat_sub, BitVec.toNat_ofNat, BitVec.toNat_ofNat]
  omega

/-- A stamp is in the window when it is no farther from the floor than the current one is, modulo 256. -/
theorem Dir.valid_iff {d : Dir} {v : Nat} (hc : d.current < 256) (hf : d.floor < 256) (hv : v < 256) :
    d.valid v = true ↔ (BitVec.ofNat 8 v - BitVec.ofNat 8 d.floor).toNat ≤ (BitVec.ofNat 8 d.current - BitVec.ofNat 8 d.floor).toNat := by
  rw [ofNat8_sub_toNat hv hf, ofNat8_sub_toNat hc hf]
  exact decide_eq_true_iff

theorem Dir.checkLearned_eq (d : Dir) (cbid v : Nat) (addr : Word) : d.checkLearned cbid v addr =
    if d.kind = 0 then some (staleCb 2 cbid 0 addr) else if d.kind = 3 then some (staleCb 3 cbid 0 addr)
    else if d.valid v = false then some (staleCb 1 cbid v addr) else none := by
  simp only [Dir.checkLearned, beq_iff_eq, Bool.not_eq_true']

/-- Only an entry of a learned codebook passes the check. -/
theorem Dir.kind_of_checkLearned {d : Dir} {cbid v : Nat} {addr : Word} (good : d.checkLearned cbid v addr = none) :
    d.kind ≠ 0 ∧ d.kind ≠ 3 := by
  rw [Dir.checkLearned_eq] at good
  refine ⟨fun free => ?_, fun arith => ?_⟩
  · simp [free] at good
  · simp [arith] at good

theorem cbStatus_eq (code v : Nat) : cbStatus code v = BitVec.ofNat 64 ((if code = 0 then 0 else 2 ^ 63) + code * 256 + v) := by
  simp only [cbStatus, beq_iff_eq]

theorem cbStatus_zero (v : Nat) : cbStatus 0 v = BitVec.ofNat 64 v := by simp [cbStatus]

theorem lands_cbStatus {i : Instr} {s u : State} {d : SReg} {code v sid : Nat}
    (he : exec i s = (Eff.done (u.cbResult (rS d) (.w (cbStatus code v)) 0 none)).run) (cur : u.cur = sid) (hu : u.ms.bad = none) :
    Lands i s (u.block sid (.codebook 0) [rS d] [.w (BitVec.ofNat 64 ((if code = 0 then 0 else 2 ^ 63) + code * 256 + v))] 0 true).2 := by
  rw [cbStatus_eq] at he
  subst cur
  exact lands_cbResult he hu

/-! ## CBENC and CBDEC (R220, R221) -/

/-- The stamp that an operand word names. -/
def operandStamp (w : Word) (dir : Dir) : Nat := if w.getLsbD 20 then dir.current else slc w 19 12

section
variable {s c : State} {h : Hdr} {sc : Bool} {d a : VReg} {b : SReg} {dir : Dir}

/-- What a CBENC or a CBDEC captures. -/
def State.vecReq (s : State) (i : Instr) (a : VReg) (b : SReg) (dir : Dir) : CbReq :=
  { s.cbReq i (slc (s.sr b) 11 0) (operandStamp (s.sr b) dir) dir (operandWord (s.sr b) (operandStamp (s.sr b) dir)) with vec := s.vr a }

/-- The values that a vector holds. -/
def State.xvals (s : State) (a : VReg) : List XVal := (s.vr a).toList.map (fun x => Machine.fp32.read x.toNat)

theorem vecOf_congr {f g : Nat → Lane} (same : ∀ k, k < 64 → f k = g k) : vecOf f = vecOf g :=
  Vector.ext fun k hk => by simpa [vecOf] using same k hk

theorem State.xvals_getD (s : State) (a : VReg) {k : Nat} (hk : k < 64) :
    (s.xvals a).getD k (.fin false 0 0) = Machine.fp32.read (lane (s.vr a) k).toNat := by
  simp [State.xvals, lane, List.getD, hk]

/-- A vector with FP32's NaN in each lane that holds a NaN (R220, R221 under cbid 0). -/
def State.quieted (s : State) (a : VReg) : Vec :=
  vecOf (fun k => if ((s.xvals a).getD k (.fin false 0 0)).isNan then BitVec.ofNat 32 Machine.fp32.nanBits else lane (s.vr a) k)

theorem State.quieted_eq (s : State) (a : VReg) : vecOf (fun k =>
    if (Machine.fp32.read (lane (s.vr a) k).toNat).isNan then BitVec.ofNat 32 Machine.fp32.nanBits else lane (s.vr a) k) = s.quieted a :=
  vecOf_congr fun k hk => by rw [s.xvals_getD a hk]

/-- The lanes of an encode by an arithmetic codebook, their flags, and the generator drawn (R220). -/
def State.arithEncoded (s : State) (sc : Bool) (a : VReg) (b : SReg) : List Nat × Flags × Word :=
  arithEnc (arithFmt (slc (s.sr b) 11 0)) ((s.sr b).getLsbD 21) sc s.rmode s.st.srstate (s.xvals a)
/-- The same of a decode (R221). -/
def State.arithDecoded (s : State) (sc : Bool) (a : VReg) (b : SReg) (dir : Dir) : List Nat × Flags × Word :=
  decLanes s.rmode s.st.srstate (((s.vr a).toList.map (·.toNat)).map (fun x =>
    (elemValue (arithFmt (slc (s.sr b) 11 0)) ((s.sr b).getLsbD 21) (x % 2 ^ dir.w)).under (if sc then x / 65536 % 256 else 127)))
/-- Lanes with their flags are the result that is awaited, and the generator has been drawn. -/
def State.lanesAnswer (c : State) (d : VReg) (e : List Nat × Flags × Word) : State :=
  (c.modSt (fun x => { x with srstate := e.2.2 })).cbResult (rV d) (.v (vecOfList e.1)) e.2.1 none

/-- The generator once each lane of a vector has drawn. -/
def State.drawn (s : State) : Word := (List.range 64).foldl (fun g _ => (drawIf s.rmode g).2) s.st.srstate
/-- The effect which, where it is done, also leaves the generator at `g` (07 R164). -/
def Eff.drawing (e : Eff) (g : Word) : Eff :=
  match e with
  | .done s => .done (s.modSt (fun x => { x with srstate := g }))
  | e => e

theorem waits_cbenc (r : Runs s h [rV a, rS b, rV d]) (busy : s.st.cbs ≠ []) : Waits (.cbenc h sc d a b) s .result := by
  show execCbenc h sc d a b s = _
  unfold execCbenc
  exact r.cbWord_waits (fun q hq => by simpa using hq) busy

theorem waits_cbdec (r : Runs s h [rV a, rS b, rV d]) (busy : s.st.cbs ≠ []) : Waits (.cbdec h sc d a b) s .result := by
  show execCbdec h sc d a b s = _
  unfold execCbdec
  exact r.cbWord_waits (fun q hq => by simpa using hq) busy

variable (r : Runs s h [rV a, rS b, rV d]) (free : s.st.cbs = [])
  (read : s.dirRead s.cc (s.asidOf s.cur) (slc (s.sr b) 11 0) = (c, .ok dir))
include r free read

theorem exec_cbenc_arith (kind : dir.kind = 3) : exec (.cbenc h sc d a b) s =
    (if slc (s.sr b) 11 0 = 0 then
      .done (c.cbResult (rV d) (.v (s.quieted a)) (sigFlag (s.xvals a)) none)
    else
      .done (c.lanesAnswer d (s.arithEncoded sc a b)) : Eff).run := by
  obtain ⟨m, rfl⟩ := dirRead_setMs read
  show execCbenc h sc d a b s = _
  unfold execCbenc
  rw [r.cbWord_reads (fun q hq => by simpa using hq) free read]
  simp only [kind, beq_self_eq_true, if_true, beq_iff_eq]
  rfl

theorem exec_cbenc_learned (good : dir.checkLearned (slc (s.sr b) 11 0) (operandStamp (s.sr b) dir) 0 = none) :
    exec (.cbenc h sc d a b) s = (cbVersion c (s.vecReq (.cbenc h sc d a b) a b dir)).run := by
  obtain ⟨m, rfl⟩ := dirRead_setMs read
  show execCbenc h sc d a b s = _
  unfold execCbenc
  rw [r.cbWord_reads (fun q hq => by simpa using hq) free read]
  have check : dir.checkLearned (slc ((s.setMs m).sr b) 11 0)
    (if ((s.setMs m).sr b).getLsbD 20 then dir.current else slc ((s.setMs m).sr b) 19 12) 0 = none := good
  simp only [beq_eq_false_iff_ne.2 (Dir.kind_of_checkLearned good).2, Bool.false_eq_true, if_false, check]
  rfl

theorem exec_cbdec_arith (kind : dir.kind = 3) : exec (.cbdec h sc d a b) s =
    (if slc (s.sr b) 11 0 = 0 then
      .done (c.cbResult (rV d) (.v (s.quieted a)) 0 none)
    else
      .done (c.lanesAnswer d (s.arithDecoded sc a b dir)) : Eff).run := by
  obtain ⟨m, rfl⟩ := dirRead_setMs read
  show execCbdec h sc d a b s = _
  unfold execCbdec
  rw [r.cbWord_reads (fun q hq => by simpa using hq) free read]
  simp only [kind, beq_self_eq_true, if_true, beq_iff_eq]
  rw [State.quieted_eq]
  rfl

theorem exec_cbdec_learned (good : dir.checkLearned (slc (s.sr b) 11 0) (operandStamp (s.sr b) dir) 0 = none) :
    exec (.cbdec h sc d a b) s = ((cbVersion c (s.vecReq (.cbdec h sc d a b) a b dir)).drawing s.drawn).run := by
  obtain ⟨m, rfl⟩ := dirRead_setMs read
  show execCbdec h sc d a b s = _
  unfold execCbdec
  rw [r.cbWord_reads (fun q hq => by simpa using hq) free read]
  have check : dir.checkLearned (slc ((s.setMs m).sr b) 11 0)
    (if ((s.setMs m).sr b).getLsbD 20 then dir.current else slc ((s.setMs m).sr b) 19 12) 0 = none := good
  simp only [beq_eq_false_iff_ne.2 (Dir.kind_of_checkLearned good).2, Bool.false_eq_true, if_false, check]
  rfl

theorem traps_cbenc_and_cbdec {u : State} (good : dir.checkLearned (slc (s.sr b) 11 0) (operandStamp (s.sr b) dir) 0 = none)
    (need : c.needVersion s.cc (slc (s.sr b) 11 0) (operandStamp (s.sr b) dir) dir = (u, .noSlot)) :
    ∀ i ∈ [Instr.cbenc h sc d a b, .cbdec h sc d a b], exec i s = out (c.trapIn s.cur (illencAt s 7) s.st.pc) := by
  obtain ⟨m, rfl⟩ := dirRead_setMs read
  have trap (i : Instr) : cbVersion (s.setMs m) (s.vecReq i a b dir) = .trap (s.setMs m) (illencAt s 7) := cbVersion_noSlot need
  simp only [List.forall_mem_cons]
  refine ⟨(exec_cbenc_learned r free read good).trans ?_, (exec_cbdec_learned r free read good).trans ?_, List.forall_mem_nil _⟩
  · rw [trap]
    rfl
  · rw [trap]
    rfl

/-- Where a CBENC and a CBDEC that need a version issue, both land, and the draws of a CBDEC are made. -/
theorem lands_cbenc_and_cbdec (good : dir.checkLearned (slc (s.sr b) 11 0) (operandStamp (s.sr b) dir) 0 = none) (t : CbReq → State)
    (bad : ∀ q, (t q).ms.bad = none) (issued : ∀ i, i = .cbenc h sc d a b ∨ i = .cbdec h sc d a b →
      cbVersion c (s.vecReq i a b dir) = .done (t (s.vecReq i a b dir))) :
    Lands (.cbenc h sc d a b) s (t (s.vecReq (.cbenc h sc d a b) a b dir)) ∧
      Lands (.cbdec h sc d a b) s ((t (s.vecReq (.cbdec h sc d a b) a b dir)).modSt (fun x => { x with srstate := s.drawn })) := by
  refine ⟨lands_of_done ((exec_cbenc_learned r free read good).trans ?_) (bad _),
    lands_of_done ((exec_cbdec_learned r free read good).trans ?_) (bad _)⟩
  · rw [issued _ (.inl rfl)]
  · rw [issued _ (.inr rfl)]
    rfl

section
variable (hc : c.ms.bad = none) (kind : dir.kind = 3)
include hc kind

theorem lands_cbenc_fp32 (fp32 : slc (s.sr b) 11 0 = 0) :
    Lands (.cbenc h sc d a b) s (c.cbResult (rV d) (.v (s.quieted a)) (sigFlag (s.xvals a)) none) :=
  lands_cbResult ((exec_cbenc_arith r free read kind).trans (congrArg Eff.run (if_pos fp32))) hc

theorem lands_cbdec_fp32 (fp32 : slc (s.sr b) 11 0 = 0) :
    Lands (.cbdec h sc d a b) s (c.cbResult (rV d) (.v (s.quieted a)) 0 none) :=
  lands_cbResult ((exec_cbdec_arith r free read kind).trans (congrArg Eff.run (if_pos fp32))) hc

theorem lands_cbenc_arith (arith : slc (s.sr b) 11 0 ≠ 0) :
    Lands (.cbenc h sc d a b) s (c.lanesAnswer d (s.arithEncoded sc a b)) :=
  lands_cbResult ((exec_cbenc_arith r free read kind).trans (congrArg Eff.run (if_neg arith))) hc

theorem lands_cbdec_arith (arith : slc (s.sr b) 11 0 ≠ 0) :
    Lands (.cbdec h sc d a b) s (c.lanesAnswer d (s.arithDecoded sc a b dir)) :=
  lands_cbResult ((exec_cbdec_arith r free read kind).trans (congrArg Eff.run (if_neg arith))) hc

end

end

/-- The value of a CBDEC is the FP32 lanes of the codewords that its indices name. -/
theorem value_cbdec (s : State) (h : Hdr) (sc : Bool) (d a : VReg) (b : SReg) (dir : Dir) (data : List (BitVec 16)) :
    (s.vecReq (.cbdec h sc d a b) a b dir).value data =
      (let l := decLanes s.rmode s.st.srstate ((((s.vr a).toList.map (·.toNat)).take (64 / max 1 dir.d)).flatMap (fun x =>
        (dir.codeword data (x % 2 ^ dir.w)).map (fun k => k.under (if sc then x / 65536 % 256 else 127))))
      (.v (vecOfList l.1), l.2.1)) := by
  rw [← List.map_take, List.flatMap_map]
  rfl

/-! ## CBLD, CBPIN and CBSTAT (R215-R217) -/

section
variable {s c : State} {h : Hdr} {d a : SReg} {cbid : BitVec 12} {dir : Dir}

/-- What a CBLD or a CBPIN captures. -/
def State.stampReq (s : State) (i : Instr) (a : SReg) (cbid : BitVec 12) (dir : Dir) : CbReq :=
  s.cbReq i cbid.toNat (stampOf (s.sr a) dir) dir (stampWord (s.sr a) (stampOf (s.sr a) dir))

/-- The slot in which the core of the current strand holds a version pinned: is there one? -/
def State.pinned (s : State) (cbid v : Nat) : Bool := match s.co.resident cbid v with | some i => (s.co.slotAt i).pinned | none => false

/-- A state whose current core has the version in a first slot unpinned, where it holds it. -/
def State.unpin (c : State) (held : Option Nat) : State :=
  match held with
  | some i => c.modCore c.cc (fun k => k.pin i false)
  | none => c

theorem State.unpin_ms (c : State) (held : Option Nat) : (c.unpin held).ms = c.ms := by cases held <;> rfl

/-- CBSTAT's result (R217). -/
def State.statWord (s : State) (cbid v em : Nat) (dir : Dir) : Word :=
  BitVec.ofNat 64 (em * 2 ^ 48 + dir.kind * 2 ^ 40 + (s.co.resident cbid v).getD 0 * 2 ^ 36 + (s.pinned cbid v).toNat * 2 ^ 26 +
    (s.co.resident cbid v).isSome.toNat * 2 ^ 25 + (if dir.kind = 3 then decide (v = 0) else dir.valid v).toNat * 2 ^ 24 + v * 2 ^ 16 +
    dir.floor * 256 + dir.current)

theorem b2n_eq_toNat (b : Bool) : b2n b = b.toNat := by cases b <;> rfl

variable (r : Runs s h [rS a, rS d])
include r

theorem waits_stamp (busy : s.st.cbs ≠ []) :
    ∀ i ∈ [Instr.cbld h d a cbid, .cbpin h d a cbid, .cbstat h d a cbid, .cbfloor h d a cbid], Waits i s .result := by
  have waits (body : State → Dir → Eff) : cbWord h [rS a] [rS d] (fun _ => cbid.toNat) body s = .next (s.waits .result) :=
    r.cbWord_waits (fun q hq => by simpa using hq) busy
  simp only [List.forall_mem_cons]
  refine ⟨?_, ?_, ?_, ?_, List.forall_mem_nil _⟩
  · show execCbld h d a cbid s = _
    exact waits _
  · show execCbpin h d a cbid s = _
    exact waits _
  · show execCbstat h d a cbid s = _
    exact waits _
  · show execCbfloor h d a cbid s = _
    exact waits _

variable (free : s.st.cbs = []) (read : s.dirRead s.cc (s.asidOf s.cur) cbid.toNat = (c, .ok dir))
include free read

theorem stampWord_reads (body : State → Dir → Eff) : cbWord h [rS a] [rS d] (fun _ => cbid.toNat) body s = (body c dir).run :=
  r.cbWord_reads (fun q hq => by simpa using hq) free read

section
variable (good : dir.checkLearned cbid.toNat (stampOf (s.sr a) dir) 0 = none)
include good

theorem exec_cbld : exec (.cbld h d a cbid) s = (cbVersion c (s.stampReq (.cbld h d a cbid) a cbid dir)).run := by
  obtain ⟨m, rfl⟩ := dirRead_setMs read
  show execCbld h d a cbid s = _
  unfold execCbld
  rw [stampWord_reads r free read]
  simp only [State.setMs_sr, good]
  rfl

theorem exec_cbpin_unpin (unpin : (s.sr a).getLsbD 9 = true) : exec (.cbpin h d a cbid) s =
    (Eff.done (State.block (c.unpin (s.co.resident cbid.toNat (stampOf (s.sr a) dir))) s.cur (.codebook 0) [rS d]
      [.w (cbStatus 0 (stampOf (s.sr a) dir))] 0 true).2).run := by
  obtain ⟨m, rfl⟩ := dirRead_setMs read
  have held : (s.setMs m).co.resident cbid.toNat (stampOf (s.sr a) dir) = s.co.resident cbid.toNat (stampOf (s.sr a) dir) := rfl
  show execCbpin h d a cbid s = _
  unfold execCbpin
  rw [stampWord_reads r free read]
  simp only [State.setMs_sr, good, unpin, if_true, held]
  cases s.co.resident cbid.toNat (stampOf (s.sr a) dir) <;> rfl

theorem lands_cbpin_unpin (hc : c.ms.bad = none) (unpin : (s.sr a).getLsbD 9 = true) : Lands (.cbpin h d a cbid) s
    (State.block (c.unpin (s.co.resident cbid.toNat (stampOf (s.sr a) dir))) s.cur (.codebook 0) [rS d]
      [.w (cbStatus 0 (stampOf (s.sr a) dir))] 0 true).2 :=
  lands_of_done (exec_cbpin_unpin r free read good unpin)
    ((congrArg MemSys.bad ((State.block_ms ..).trans (State.unpin_ms ..))).trans hc)

section
variable (pin : (s.sr a).getLsbD 9 = false)
include pin

theorem exec_cbpin : exec (.cbpin h d a cbid) s =
    (if s.pinned cbid.toNat (stampOf (s.sr a) dir) = true then
      .done (c.cbResult (rS d) (.w (cbStatus 0 (stampOf (s.sr a) dir))) 0 none)
    else if s.planSlots s.cc < s.co.pinnedSlots + dir.k then
      .done (c.cbResult (rS d) (.w (cbStatus 2 (stampOf (s.sr a) dir))) 0 none)
    else cbVersion c (s.stampReq (.cbpin h d a cbid) a cbid dir) : Eff).run := by
  obtain ⟨m, rfl⟩ := dirRead_setMs read
  show execCbpin h d a cbid s = _
  unfold execCbpin
  rw [stampWord_reads r free read]
  simp only [State.setMs_sr, good, pin, Bool.false_eq_true, if_false]
  rfl

theorem exec_cbpin_pinned (pinned : s.pinned cbid.toNat (stampOf (s.sr a) dir) = true) : exec (.cbpin h d a cbid) s =
    (Eff.done (c.cbResult (rS d) (.w (cbStatus 0 (stampOf (s.sr a) dir))) 0 none)).run :=
  (exec_cbpin r free read good pin).trans (by rw [if_pos pinned])

variable (unpinned : s.pinned cbid.toNat (stampOf (s.sr a) dir) = false)
include unpinned

theorem exec_cbpin_full (full : s.planSlots s.cc < s.co.pinnedSlots + dir.k) : exec (.cbpin h d a cbid) s =
    (Eff.done (c.cbResult (rS d) (.w (cbStatus 2 (stampOf (s.sr a) dir))) 0 none)).run :=
  (exec_cbpin r free read good pin).trans (by rw [if_neg (Bool.eq_false_iff.1 unpinned), if_pos full])

theorem exec_cbpin_issues (room : s.co.pinnedSlots + dir.k ≤ s.planSlots s.cc) :
    exec (.cbpin h d a cbid) s = (cbVersion c (s.stampReq (.cbpin h d a cbid) a cbid dir)).run :=
  (exec_cbpin r free read good pin).trans (by rw [if_neg (Bool.eq_false_iff.1 unpinned), if_neg (Nat.not_lt.2 room)])

end

end

theorem exec_cbstat {u : State} {em : Nat} (kind : dir.kind ≠ 0) (found : c.versionEmax dir (stampOf (s.sr a) dir) = (u, .ok em)) :
    exec (.cbstat h d a cbid) s =
      (Eff.done (u.cbResult (rS d) (.w (u.statWord cbid.toNat (stampOf (s.sr a) dir) em dir)) 0 none)).run := by
  obtain ⟨m, rfl⟩ := dirRead_setMs read
  show execCbstat h d a cbid s = _
  unfold execCbstat
  rw [stampWord_reads r free read]
  simp only [State.setMs_sr, beq_eq_false_iff_ne.2 kind, Bool.false_eq_true, if_false, found, b2n_eq_toNat, beq_iff_eq]
  rfl

theorem exec_cbfloor {u : State} (good : dir.checkLearned cbid.toNat (slc (s.sr a) 7 0) 0 = none)
    (moved : c.supWr s.cc (s.asidOf s.cur) kCohWr (c.dirVa (s.asidOf s.cur) cbid.toNat + 7) [BitVec.ofNat 8 (slc (s.sr a) 7 0)] = (u, none)) :
    exec (.cbfloor h d a cbid) s = (Eff.done (State.block (u.dropRetired (s.asidOf s.cur) cbid.toNat dir.floor (slc (s.sr a) 7 0)) s.cur
      (.floor cbid.toNat dir.floor (slc (s.sr a) 7 0)) [rS d] [.w (BitVec.ofNat 64 (slc (s.sr a) 7 0))] 0 false).2).run := by
  obtain ⟨m, rfl⟩ := dirRead_setMs read
  obtain ⟨n, cores, rfl⟩ := (MemoryAndCores.supWr ..).with_of_eq moved
  have moved : (s.setMs m).supWr (s.setMs m).cc ((s.setMs m).asidOf (s.setMs m).cur) kCohWr
    ((s.setMs m).dirVa ((s.setMs m).asidOf (s.setMs m).cur) cbid.toNat + 7) (leBytes 1 (slc (s.sr a) 7 0)) = (_, none) := moved
  show execCbfloor h d a cbid s = _
  unfold execCbfloor
  rw [stampWord_reads r free read]
  simp only [State.setMs_sr, good, moved, cbStatus_zero, dropRetired_cur]
  rfl

end

section
variable {s c u : State} {h : Hdr} {d a : SReg} {cbid : BitVec 12} {dir : Dir} {i : Nat} (r : Runs s h [rS a, rS d])
  (free : s.st.cbs = []) (read : s.dirRead s.cc (s.asidOf s.cur) cbid.toNat = (c, .ok dir)) (hu : u.ms.bad = none)
include r free read hu

section
variable (good : dir.checkLearned cbid.toNat (stampOf (s.sr a) dir) 0 = none)
include good

theorem lands_cbld_miss (need : c.needVersion s.cc cbid.toNat (stampOf (s.sr a) dir) dir = (u, .miss)) :
    Lands (.cbld h d a cbid) s (u.cbPends (s.stampReq (.cbld h d a cbid) a cbid dir)) := by
  obtain ⟨m, rfl⟩ := dirRead_setMs read
  obtain ⟨cores, rfl⟩ := needVersion_withCores need
  exact lands_issued (exec_cbld r free read good) (cbVersion_miss free need) (cbPends_bad hu)

theorem lands_cbld_have (need : c.needVersion s.cc cbid.toNat (stampOf (s.sr a) dir) dir = (u, .have' i)) :
    Lands (.cbld h d a cbid) s (u.cbLoaded (s.stampReq (.cbld h d a cbid) a cbid dir) (cbStatus 0 (stampOf (s.sr a) dir))) := by
  obtain ⟨m, rfl⟩ := dirRead_setMs read
  obtain ⟨cores, rfl⟩ := needVersion_withCores need
  rw [cbStatus_zero]
  exact lands_issued (exec_cbld r free read good) (cbVersion_loaded need free rfl) (cbLoaded_bad hu)

section
variable (pin : (s.sr a).getLsbD 9 = false) (unpinned : s.pinned cbid.toNat (stampOf (s.sr a) dir) = false)
  (room : s.co.pinnedSlots + dir.k ≤ s.planSlots s.cc)
include pin unpinned room

theorem lands_cbpin_miss (need : c.needVersion s.cc cbid.toNat (stampOf (s.sr a) dir) dir = (u, .miss)) :
    Lands (.cbpin h d a cbid) s (u.cbPends (s.stampReq (.cbpin h d a cbid) a cbid dir)) := by
  obtain ⟨m, rfl⟩ := dirRead_setMs read
  obtain ⟨cores, rfl⟩ := needVersion_withCores need
  exact lands_issued (exec_cbpin_issues r free read good pin unpinned room) (cbVersion_miss free need) (cbPends_bad hu)

theorem lands_cbpin_have (need : c.needVersion s.cc cbid.toNat (stampOf (s.sr a) dir) dir = (u, .have' i)) :
    Lands (.cbpin h d a cbid) s (u.cbPinned (s.stampReq (.cbpin h d a cbid) a cbid dir) i (cbStatus 0 (stampOf (s.sr a) dir))) := by
  obtain ⟨m, rfl⟩ := dirRead_setMs read
  obtain ⟨cores, rfl⟩ := needVersion_withCores need
  rw [cbStatus_zero]
  exact lands_issued (exec_cbpin_issues r free read good pin unpinned room) (cbVersion_pinned need free rfl) (cbPinned_bad hu)

end
end

theorem lands_cbfloor (good : dir.checkLearned cbid.toNat (slc (s.sr a) 7 0) 0 = none)
    (moved : c.supWr s.cc (s.asidOf s.cur) kCohWr (c.dirVa (s.asidOf s.cur) cbid.toNat + 7) [BitVec.ofNat 8 (slc (s.sr a) 7 0)] = (u, none)) :
    Lands (.cbfloor h d a cbid) s (State.block (u.dropRetired (s.asidOf s.cur) cbid.toNat dir.floor (slc (s.sr a) 7 0)) s.cur
      (.floor cbid.toNat dir.floor (slc (s.sr a) 7 0)) [rS d] [.w (BitVec.ofNat 64 (slc (s.sr a) 7 0))] 0 false).2 :=
  lands_of_done (exec_cbfloor r free read good moved)
    ((congrArg MemSys.bad ((State.block_ms ..).trans (dropRetired_ms ..))).trans hu)

end

/-! ## CBREV (R218) -/

/-- The read of an entry, as it stands after a release. -/
theorem releaseAt_reads {s c : State} {cbid : Nat} {x : Except TrapInfo Dir}
    (read : (s.releaseAt s.cur .package).dirRead s.cc (s.asidOf s.cur) cbid = (c, x)) : State.dirRead (s.releaseAt s.cur .package)
      (s.releaseAt s.cur .package).cc ((s.releaseAt s.cur .package).asidOf (s.releaseAt s.cur .package).cur) cbid = (c, x) :=
  read

/-- A strand with nothing in flight, and no codebook word that waits, does not wait. -/
theorem not_behind {s : State} (clear : s.performed s.cur = true ∧ s.st.cbs = []) :
    ¬(!s.performed s.cur || !s.st.cbs.isEmpty) = true := by
  obtain ⟨performed, free⟩ := clear
  simp [performed, free]

section
variable {s c u w : State} {h : Hdr} {d a : SReg} {cbid : BitVec 12} {dir : Dir} {b : List Byte} (r : Runs s h [rS a, rS d])
include r

theorem Runs.issue_cbrev (body : State → Eff) : Machine.issue h { rd := [rS a], wr := [rS d] } body s = (body s).run :=
  r.issue rfl rfl (.inl rfl) (fun q hq => by simpa using hq)

theorem traps_cbrev (align : (s.sr a).toNat % 8 ≠ 0) :
    Traps (.cbrev h d a cbid) s { cause := 0x0C, aux := 0x300, addr := s.sr a } := by
  show execCbrev h d a cbid s = _
  unfold execCbrev
  rw [r.issue_cbrev]
  simp only [align, ne_eq, not_false_eq_true, if_true, alignTrap, BitVec.ofNat_toNat, BitVec.setWidth_eq]
  rfl

section
variable (align : (s.sr a).toNat % 8 = 0)
include align

theorem waits_cbrev (behind : ¬(s.performed s.cur = true ∧ s.st.cbs = [])) : Waits (.cbrev h d a cbid) s .result := by
  have waits : (!s.performed s.cur || !s.st.cbs.isEmpty) = true := by
    rw [Bool.or_eq_true, Bool.not_eq_true', Bool.not_eq_true', ← Bool.not_eq_true, List.isEmpty_eq_false_iff, ne_eq]
    exact Decidable.not_and_iff_not_or_not.1 behind
  show execCbrev h d a cbid s = _
  unfold execCbrev
  rw [r.issue_cbrev]
  simp only [align, ne_eq, not_true_eq_false, if_false, waits, if_true]
  exact out_clean (r.clean.of_ms rfl)

variable (clear : s.performed s.cur = true ∧ s.st.cbs = [])
  (read : (s.releaseAt s.cur .package).dirRead s.cc (s.asidOf s.cur) cbid.toNat = (c, .ok dir))
  (good : dir.checkLearned cbid.toNat dir.current 0 = none)
include clear read good

theorem exec_cbrev_full (full : ((dir.current + 1) % 256 + 256 - dir.floor) % 256 = 255) : exec (.cbrev h d a cbid) s =
    out (c.trapIn c.cur { cause := 0x11, aux := BitVec.ofNat 64 (cbid.toNat * 256 + dir.current) } c.st.pc) := by
  show execCbrev h d a cbid s = _
  unfold execCbrev
  rw [r.issue_cbrev, if_neg (Decidable.not_not.2 align), if_neg (not_behind clear)]
  simp only [releaseAt_reads read, good, full, beq_self_eq_true, if_true]
  rfl

section
variable (room : ((dir.current + 1) % 256 + 256 - dir.floor) % 256 ≠ 255)
  (loaded : c.loadRun c.cur (s.sr a).toNat dir.bytes = (u, .ok b))
include room loaded

theorem exec_cbrev_refused (bad : badPayload dir.kind dir.comp (halves b) = true) : exec (.cbrev h d a cbid) s =
    (Eff.done (u.cbResult (rS d) (.w (cbStatus 1 ((dir.current + 1) % 256))) 0 none)).run := by
  show execCbrev h d a cbid s = _
  unfold execCbrev
  rw [r.issue_cbrev, if_neg (Decidable.not_not.2 align), if_neg (not_behind clear)]
  simp only [releaseAt_reads read, good, beq_eq_false_iff_ne.2 room, Bool.false_eq_true, if_false, loaded, bad, if_true]

theorem exec_cbrev_written (fine : badPayload dir.kind dir.comp (halves b) = false)
    (written : u.writeVersion cbid.toNat ((dir.current + 1) % 256) dir b = (w, none)) : exec (.cbrev h d a cbid) s =
    (Eff.done (w.cbResult (rS d) (.w (cbStatus 0 ((dir.current + 1) % 256))) 0 none)).run := by
  show execCbrev h d a cbid s = _
  unfold execCbrev
  rw [r.issue_cbrev, if_neg (Decidable.not_not.2 align), if_neg (not_behind clear)]
  simp only [releaseAt_reads read, good, beq_eq_false_iff_ne.2 room, Bool.false_eq_true, if_false, loaded, fine, written]

end
end
end

/-! ## The obligations -/

/-- Settles O39: what a word does follows from what its need of a version finds (`cbVersion_noSlot`, `cbVersion_miss`, `cbVersion_late`,
`cbVersion_holds`), since neither that need nor the read of the entry changes the strand. -/
theorem codebookVectors : Obligations.CodebookVectors := by
  unfold Obligations.CodebookVectors
  refine ⟨fun d cbid v addr hc hf hv _ => ⟨Dir.valid_iff hc hf hv, d.checkLearned_eq cbid v addr⟩, ?_⟩
  intro s c u h sc d a b dir i r
  refine ⟨fun busy => ⟨waits_cbenc r busy, waits_cbdec r busy⟩, fun free read hc hu => ?_⟩
  obtain ⟨m, rfl⟩ := dirRead_setMs read
  refine ⟨fun kind fp32 => ⟨?_, ?_⟩, fun kind arith => ⟨?_, ?_⟩, fun good =>
    ⟨fun need => ?_, fun need => ?_, fun need => ?_, fun data => ⟨rfl, value_cbdec s h sc d a b dir data⟩⟩⟩
  · exact lands_cbenc_fp32 r free read hc kind fp32
  · exact lands_cbdec_fp32 r free read hc kind fp32
  · exact lands_cbenc_arith r free read hc kind arith
  · exact lands_cbdec_arith r free read hc kind arith
  · exact traps_cbenc_and_cbdec r free read good need
  · obtain ⟨cores, rfl⟩ := needVersion_withCores need
    exact lands_cbenc_and_cbdec r free read good (State.cbPends _) (fun _ => cbPends_bad hu) (fun _ _ => cbVersion_miss free need)
  · obtain ⟨cores, rfl⟩ := needVersion_withCores need
    refine ⟨fun late miss => ?_, fun prompt => ?_⟩
    · exact lands_cbenc_and_cbdec r free read good (fun q => State.cbPends _ { q with late := true }) (fun _ => cbPends_bad hu)
        (fun _ word => cbVersion_late free need (slotLate_vec word late miss))
    · exact lands_cbenc_and_cbdec r free read good (fun q => State.cbHolds _ q i) (fun _ => cbHolds_bad hu)
        (fun _ word => cbVersion_holds need free word prompt)

/-- Settles O40: each word's answer follows from the entry that it reads; what CBFLOOR leaves of the versions it retires is in use, since
dropping the versions of one core leaves the other cores as they were (`dropRetired_busy`). -/
theorem codebookWords : Obligations.CodebookWords := by
  unfold Obligations.CodebookWords
  refine ⟨fun s c u h d a cbid dir i em r => ⟨waits_stamp r, fun free read hu hc => ?_⟩,
    fun s c u w h d a cbid dir b r =>
      ⟨traps_cbrev r, waits_cbrev r, fun align clear read good => ⟨fun full => ?_, fun room loaded => ?_⟩⟩⟩
  · obtain ⟨m, rfl⟩ := dirRead_setMs read
    refine ⟨fun good need => ?_, fun good need => ?_, fun good unpin => ?_, fun good pin pinned => ?_, fun good pin unpinned full => ?_,
      fun good pin unpinned room => ⟨fun need => ?_, fun need => ?_⟩, fun kind found => ?_, fun good moved => ⟨?_, ?_⟩⟩
    · obtain ⟨cores, rfl⟩ := needVersion_withCores need
      exact lands_cbld_have r free read hu good need
    · obtain ⟨cores, rfl⟩ := needVersion_withCores need
      exact lands_cbld_miss r free read hu good need
    · exact lands_cbpin_unpin r free read good hc unpin
    · exact lands_cbStatus (exec_cbpin_pinned r free read good pin pinned) rfl hc
    · exact lands_cbStatus (exec_cbpin_full r free read good pin unpinned full) rfl hc
    · obtain ⟨cores, rfl⟩ := needVersion_withCores need
      exact lands_cbpin_have r free read hu good pin unpinned room need
    · obtain ⟨cores, rfl⟩ := needVersion_withCores need
      exact lands_cbpin_miss r free read hu good pin unpinned room need
    · obtain ⟨m, rfl⟩ := (versionEmax_kept ..).setMs_of_eq found
      exact lands_cbResult (exec_cbstat r free read kind found) hu
    · exact lands_cbfloor r free read hu good moved
    · intro k mem j held
      exact dropRetired_busy cbid.toNat dir.floor (slc (s.sr a) 7 0) u (s.asidOf s.cur) mem held
  · obtain ⟨m, rfl⟩ := dirRead_setMs read
    exact exec_cbrev_full r align clear read good (Decidable.not_not.1 full)
  · have found : c.cur = s.cur := ((dirRead_kept ..).of_eq read).cur
    rw [← found] at loaded
    have cur : u.cur = s.cur := ((loadRun_kept ..).of_eq loaded).cur.trans found
    refine ⟨fun bad hu => ?_, fun fine written hw => ?_⟩
    · exact lands_cbStatus (exec_cbrev_refused r align clear read good room loaded bad) cur hu
    · exact lands_cbStatus (exec_cbrev_written r align clear read good room loaded fine written)
        (((writeVersion_rest ..).of_eq written).cur.trans cur) hw

end Sys2Proof.Machine
